-- ==== Sys2Proof/Word.lean ====
section
/-! DEFINITION. Words, bytes and the sparse map in one canonical form that every keyed store of the
machine uses: memory, register files, tables. -/

namespace Sys2Proof

abbrev Byte := BitVec 8
abbrev W16 := BitVec 16
abbrev W32 := BitVec 32
abbrev W48 := BitVec 48
abbrev W64 := BitVec 64

/-- A sparse store: pairs of key and value with strictly rising keys, and no pair that holds what an
unlisted key reads as. -/
abbrev SMap (α : Type) := List (Nat × α)

/-- The byte memory of the device (R47); the same shape as a list of `Host.Cell`. -/
abbrev Memory := List Host.Cell

end Sys2Proof
end

