-- ==== Sys2Proof/Syntax.lean ====
section
/-! DEFINITION. The commands of the block: one constructor of `Instr` for each row of spec/opcode_table.json,
with the operands the spec's rule for that row needs. A queue instruction (NOP, MT_MMUL, ...) names only its
queue: the word itself is read from the ring in memory (R67), so it is no operand here. -/

namespace Sys2Proof

/-- Who sends a register write, a doorbell or a memory access (R70, R585). -/
inductive Initiator where
  | mc
  | companion (pl : Fin 4)
  | engine (cl : Fin 8) (qid : BitVec 13)
  | peer (ctx : BitVec 18)
  deriving DecidableEq, Repr

/-- Where a command packet comes from (R509, R510, R512). A packet on a management port is given with the
frame fields its reply is sent to; a harness packet with the rights (PL) it carries. -/
inductive CmdSource where
  | ring (p : Fin 4)
  | mgmt (m : Fin 2) (packet : List Byte) (mac : W48) (ip : BitVec 128) (v6 : Bool) (port : W16)
  | harness (packet : List Byte) (pl : Fin 4)
  deriving DecidableEq, Repr

/-- What an uncorrectable flit carried (R465). -/
inductive FlitCargo where
  /-- bytes of a memory access: the granule at this address is poisoned on its way -/
  | memory (addr : W48)
  /-- TFT payload waiting at the home cluster: position in that cluster's arrival queue -/
  | payload (cl : Fin 8) (index : Nat)
  /-- a forwarded frame being written to the egress cluster: the ingress lane it arrived on -/
  | frame (lane : Fin 1024)
  /-- a route, a signal, a completion or a request header of this queue -/
  | control (cl : Fin 8) (qid : BitVec 13)
  deriving DecidableEq, Repr

/-- A HELLO message (R479): straps, harness address and role, EPOCH, device identity; `fresh` says that the
sender has come out of a reset since it was last heard (R486). -/
structure Hello where
  hid : BitVec 3
  sb : Bool
  addr : BitVec 4
  role : BitVec 2
  epoch : W32
  ident : W64
  fresh : Bool
  deriving DecidableEq, Repr

/-- Virtual channel of a worm (R33, R480). -/
inductive WormClass where
  | pkt | req | rsp | sig
  deriving DecidableEq, Repr

/-- A worm on a harness link (R478): route of its head flit and its bytes. -/
structure Worm where
  cls : WormClass
  dhid : BitVec 4
  shid : BitVec 4
  hops : BitVec 2
  routed : Bool
  first : Bool
  last : Bool
  bytes : List Byte
  poison : List Bool
  /-- the hash of R402 that a PKT worm was given at ingress -/
  hash : W32
  deriving DecidableEq, Repr

/-- One item of the harness configuration (R476), in the order R484 applies them, and what else a CONFIG message tells. -/
inductive ConfigItem where
  | role (lane : Fin 1024) (harness : Bool)
  | laneGroup (g : Fin 128) (mode : BitVec 2)
  | adminUp (lane : Fin 1024) (up : Bool)
  | route (h : Fin 9) (count : BitVec 4) (ports : List (BitVec 10))
  | relay (on : Bool)
  /-- an entry of the harness group table, for the standby's mirror (R484, R486) -/
  | groupEntry (index : BitVec 16) (v : W64)
  /-- to the acting master: a group instance has been created or destroyed on the device (R486) -/
  | groupNote (gid : BitVec 24) (created : Bool)
  deriving DecidableEq, Repr

/-- A physical unit that cupping and health know (R549, R560): kind, cluster and number. -/
structure UnitRef where
  /-- TYPE of R540: 1 tile (physical number), 2 SCU, 4 PUE, 5 reduction lanes -/
  kind : BitVec 8
  cl : Fin 8
  index : Nat
  deriving DecidableEq, Repr

/-- What a cupping case gives (R550): its output bytes in address order, and the words that its signature takes after them. -/
structure CaseOut where
  bytes : List Byte
  /-- EXC flag, EXC_POS and SAT_COUNT of a tile; FPSTAT of an SCU or a PUE; none of the reduction lanes -/
  flags : List W32
  deriving DecidableEq, Repr

/-- What the region sensors, the regulators and the cycle counts give at one check (R603, R605, R606). -/
structure RegionReading where
  /-- core voltage in mV -/
  mv : Nat
  /-- regulator current in A -/
  amps : Nat
  /-- ARITH and FWD frequency over the check, in units of 100 kHz -/
  arith : Nat
  fwd : Nat
  deriving DecidableEq, Repr

/-- One access on the debug port (R582, R618). -/
inductive TapOp where
  | readReg (addr : W48)
  | readMem (addr : W48) (len : Nat)
  | readMc
  | writeReg (addr : W48) (v : W32)
  | writeMem (addr : W48) (data : List Byte)
  | haltMc
  | stepMc
  | resumeMc
  | bypass
  deriving DecidableEq, Repr

/-- The block's commands. -/
inductive Instr where
  -- engine queues (02_queues_and_instructions.md)
  | doorbell (by' : Initiator) (cl : Fin 8) (qid : BitVec 13) (count : BitVec 17)
  | runSet (by' : Initiator) (cl : Fin 8) (qid : BitVec 13) (ctl : W32)
  | runClear (by' : Initiator) (cl : Fin 8) (qid : BitVec 13) (ctl : W32)
  | resume (by' : Initiator) (cl : Fin 8) (qid : BitVec 13) (ctl : W32)
  | skip (by' : Initiator) (cl : Fin 8) (qid : BitVec 13) (ctl : W32)
  | resetPtrs (by' : Initiator) (cl : Fin 8) (qid : BitVec 13) (ctl : W32)
  | waitMet (cl : Fin 8) (qid : BitVec 13)
  | waitTimeout (cl : Fin 8) (qid : BitVec 13)
  | nop (cl : Fin 8) (qid : BitVec 13)
  | fence (cl : Fin 8) (qid : BitVec 13)
  | fenceComplete (cl : Fin 8) (qid : BitVec 13)
  | arbase (cl : Fin 8) (qid : BitVec 13)
  | arstep (cl : Fin 8) (qid : BitVec 13)
  | semset (cl : Fin 8) (qid : BitVec 13)
  | halt (cl : Fin 8) (qid : BitVec 13)
  | signalApply (srcCl : Fin 8) (srcQid : BitVec 13) (cl : Fin 8) (sem : BitVec 12)
  | semWrite (by' : Initiator) (cl : Fin 8) (sem : BitVec 12) (v : W32)
  | semAdd (by' : Initiator) (cl : Fin 8) (v : W32)
  | deadlockConfirm (cl : Fin 8)
  | dldRecordRelease (by' : Initiator) (cl : Fin 8) (v : W32)
  -- matrix tiles (04_matrix_tiles.md)
  | mtMmul (cl : Fin 8) (t : Fin 9)
  | mtWclear (cl : Fin 8) (t : Fin 9)
  | blockAccepted (cl : Fin 8) (t : Fin 9)
  | rotation (cl : Fin 8) (p : Fin 8)
  | rotationCopyDone (cl : Fin 8) (p : Fin 8)
  -- memory and movers (05_memory_and_movers.md)
  | mvMove (cl : Fin 8) (m : Fin 8)
  | descriptorFetch (cl : Fin 8) (m : Fin 8)
  | moverRxData (cl : Fin 8) (m : Fin 8)
  | moverTxAccept (cl : Fin 8) (m : Fin 8)
  | patrolScrub (addr : W48)
  | rowRepair (die : Fin 4) (row : Nat)
  | ovfCfgWrite (by' : Initiator) (die : Fin 4) (v : W32)
  -- stream compute units (07_stream_recipes.md)
  | scuLoad (cl : Fin 8) (u : Fin 8)
  | scuRun (cl : Fin 8) (u : Fin 8)
  | rEnd (cl : Fin 8) (u : Fin 8)
  | rJmp (cl : Fin 8) (u : Fin 8)
  | rBrnz (cl : Fin 8) (u : Fin 8)
  | rBrz (cl : Fin 8) (u : Fin 8)
  | rBeos (cl : Fin 8) (u : Fin 8)
  | rSmovi (cl : Fin 8) (u : Fin 8)
  | rSadd (cl : Fin 8) (u : Fin 8)
  | rSmov (cl : Fin 8) (u : Fin 8)
  | rVbcast (cl : Fin 8) (u : Fin 8)
  | rSld (cl : Fin 8) (u : Fin 8)
  | rSst (cl : Fin 8) (u : Fin 8)
  | rGet (cl : Fin 8) (u : Fin 8)
  | getRxData (cl : Fin 8) (u : Fin 8)
  | rPut (cl : Fin 8) (u : Fin 8)
  | putTxAccept (cl : Fin 8) (u : Fin 8)
  | rLd (cl : Fin 8) (u : Fin 8)
  | rSt (cl : Fin 8) (u : Fin 8)
  | rGather (cl : Fin 8) (u : Fin 8)
  | rScatter (cl : Fin 8) (u : Fin 8)
  | rCompact (cl : Fin 8) (u : Fin 8)
  | rLaneid (cl : Fin 8) (u : Fin 8)
  | rAdd (cl : Fin 8) (u : Fin 8)
  | rSub (cl : Fin 8) (u : Fin 8)
  | rMul (cl : Fin 8) (u : Fin 8)
  | rFma (cl : Fin 8) (u : Fin 8)
  | rDiv (cl : Fin 8) (u : Fin 8)
  | rSqrt (cl : Fin 8) (u : Fin 8)
  | rMin (cl : Fin 8) (u : Fin 8)
  | rMax (cl : Fin 8) (u : Fin 8)
  | rAbs (cl : Fin 8) (u : Fin 8)
  | rNeg (cl : Fin 8) (u : Fin 8)
  | rCvt (cl : Fin 8) (u : Fin 8)
  | rAnd (cl : Fin 8) (u : Fin 8)
  | rOr (cl : Fin 8) (u : Fin 8)
  | rXor (cl : Fin 8) (u : Fin 8)
  | rShl (cl : Fin 8) (u : Fin 8)
  | rShr (cl : Fin 8) (u : Fin 8)
  | rCmp (cl : Fin 8) (u : Fin 8)
  | rPlog (cl : Fin 8) (u : Fin 8)
  | rRsum (cl : Fin 8) (u : Fin 8)
  | rRmax (cl : Fin 8) (u : Fin 8)
  | rRmin (cl : Fin 8) (u : Fin 8)
  | rRcount (cl : Fin 8) (u : Fin 8)
  | rSort (cl : Fin 8) (u : Fin 8)
  | rMerge (cl : Fin 8) (u : Fin 8)
  | rTopk (cl : Fin 8) (u : Fin 8)
  | rCrc (cl : Fin 8) (u : Fin 8)
  | stepLimit (cl : Fin 8) (u : Fin 8)
  -- reduction lanes and collectives (08_exact_reduction.md, 09_collectives.md)
  | contributionDispatch (cl : Fin 8)
  | clAllreduce (cl : Fin 8) (gq : BitVec 12)
  | clReducescatter (cl : Fin 8) (gq : BitVec 12)
  | clAllgather (cl : Fin 8) (gq : BitVec 12)
  | clBroadcast (cl : Fin 8) (gq : BitVec 12)
  | clAlltoall (cl : Fin 8) (gq : BitVec 12)
  | clAlltoallv (cl : Fin 8) (gq : BitVec 12)
  | stepOpen (cl : Fin 8) (gq : BitVec 12)
  | stepComplete (cl : Fin 8) (gq : BitVec 12)
  | gsAbort (by' : Initiator) (cl : Fin 8) (gq : BitVec 12) (v : W32)
  | groupIdle (cl : Fin 8) (gq : BitVec 12)
  -- parameter update and the dose engine (10_parameter_update.md)
  | puStep (cl : Fin 8)
  | puRows (cl : Fin 8)
  | doseEvaluate
  | doseAnswer (cl : Fin 8)
  | doseTestGo (by' : Initiator) (v : W32)
  -- switch core, buffers, scheduling (11, 12)
  | frameStart (lane : Fin 1024) (staged : BitVec 16)
  | frameHeader (lane : Fin 1024) (bytes : List Byte) (now : W64)
  | frameEnd (lane : Fin 1024) (rest : List Byte) (now : W64)
  | egressStart (fp : Fin 32) (now : W64)
  | frameTxDone (lane : Fin 1024)
  | ageDrop (port : Fin 1026) (cls : Fin 8) (now : W64)
  | auditPass (cl : Fin 8)
  | poolApply (by' : Initiator) (cl : Fin 8) (v : W32)
  | ownResWrite (by' : Initiator) (cl : Fin 8) (pair : Fin 3) (v : W32)
  | lgCfgWrite (by' : Initiator) (g : Fin 128) (v : W32)
  | portCfgWrite (by' : Initiator) (lane : Fin 1024) (v : W32)
  | portLinkDown (port : Fin 1026)
  | portLinkUp (port : Fin 1026)
  | ftWrite (by' : Initiator) (die : Fin 4) (v : W32)
  | ftRead (by' : Initiator) (die : Fin 4) (v : W32)
  | wheelSlot (fp : Fin 32) (now : W64)
  | tatClamp (cl : Fin 8) (now : W64)
  | pfcReceive (lane : Fin 1024) (enable : BitVec 8) (quanta : List W16) (now : W64)
  | pfcPauseExpiry (lane : Fin 1024) (cls : Fin 8) (now : W64)
  | pfcRepeat (lane : Fin 1024) (cls : Fin 8)
  -- fabric transport, links, check-value units (13_transport_and_links.md)
  | dataPacketReceive (cl : Fin 8) (now : W64)
  | taggedPacketReceive (cl : Fin 8) (now : W64)
  | writePacketReceive (cl : Fin 8) (now : W64)
  | ackPacketReceive (cl : Fin 8) (now : W64)
  | ackDelayExpiry (ctx : BitVec 18) (ch : Fin 16)
  | txHandover (cl : Fin 8) (qid : BitVec 13)
  | packetSend (ctx : BitVec 18) (ch : Fin 16) (now : W64)
  | resendTimeout (ctx : BitVec 18) (ch : Fin 16) (now : W64)
  | flitUncorrectable (src dst : Fin 4) (bundle : Fin 48) (cargo : FlitCargo)
  | bundleLaneFail (src dst : Fin 4) (bundle : Fin 48) (lane : Fin 7)
  | cvuData8 (by' : Initiator) (cl : Fin 8) (n : Fin 16) (v : W32)
  | cvuData16 (by' : Initiator) (cl : Fin 8) (n : Fin 16) (v : W32)
  | cvuData32 (by' : Initiator) (cl : Fin 8) (n : Fin 16) (v : W32)
  | cvuStart (by' : Initiator) (cl : Fin 8) (n : Fin 16)
  | cvuFinish (by' : Initiator) (cl : Fin 8) (n : Fin 16)
  -- harness (14_harness.md)
  | helloReceive (lane : Fin 1024) (m : Hello)
  | wormRoute (lane : Option (Fin 1024)) (w : Worm)
  | aliveSend
  | aliveReceive (addr : BitVec 4) (sb : Bool) (epoch : W32)
  | standbyTakeover
  | configReceive (epoch : W32) (item : BitVec 4 × ConfigItem)
  | commitReceive (epoch : W32)
  -- Evtos link, rings, management ports (15_evtos_and_commands.md)
  | companionRead (pl : Fin 4) (addr : W48) (len : Nat) (coherent exclusive : Bool)
  | companionWrite (pl : Fin 4) (addr : W48) (data : List Byte) (poison : List Bool) (coherent : Bool)
  | evtosFlitReplay
  | evtosLaneFail (lane : Fin 16)
  | evtosLinkDown
  | evtosLinkUp
  | ringEnable (by' : Initiator) (ring : Fin 18) (v : W32)
  | ringDoorbell (by' : Initiator) (ring : Fin 18) (count : BitVec 17)
  | irqArm (by' : Initiator) (ring : Fin 18) (v : W32)
  | inject
  | arpReply (m : Fin 2) (frame : List Byte)
  | echoReply (m : Fin 2) (frame : List Byte)
  -- management commands (R516)
  | getStatus (src : CmdSource)
  | readErrors (src : CmdSource)
  | attest (src : CmdSource)
  | memRead (src : CmdSource)
  | memWrite (src : CmdSource)
  | loadJob (src : CmdSource)
  | unloadJob (src : CmdSource)
  | resetUnit (src : CmdSource)
  | ctxOpen (src : CmdSource)
  | ctxClose (src : CmdSource)
  | groupCreate (src : CmdSource)
  | groupDestroy (src : CmdSource)
  | abortGroup (src : CmdSource)
  | runCupping (src : CmdSource)
  | portConfig (src : CmdSource)
  | harnessSet (src : CmdSource)
  | mgmtConfig (src : CmdSource)
  | setProtection (src : CmdSource)
  | fwUpdate (src : CmdSource)
  | enrolKey (src : CmdSource)
  | debugUnlock (src : CmdSource)
  | fuseWrite (src : CmdSource)
  | farrierUpdate (src : CmdSource)
  | presenceWaitEnd
  | timeoutPresence
  -- errors and containment (16_errors_and_containment.md)
  | jobStop (cl : Fin 8) (qid : BitVec 13)
  | errAckWrite (by' : Initiator) (v : W32)
  | errHandledWrite (by' : Initiator) (v : W32)
  -- in-field testing and health (17_cupping_and_health.md)
  | testDue (u : UnitRef)
  /-- `fault`: what a unit that is not sound gives in place of the case's output (R550) -/
  | caseDone (u : UnitRef) (fault : Option CaseOut)
  | deferInterval (u : UnitRef)
  | conditionalReplay (u : UnitRef) (failRec failOwn : BitVec 8) (bias : Int) (column : Option (BitVec 8))
  | scoreHalving
  | hlClear (by' : Initiator) (v : W32)
  -- boot (18_boot_identity_protection.md)
  | bootAttempt
  | bootStepComplete (code : BitVec 8) (data : W64)
  | bootStepTimeout
  | bootEvtLen (by' : Initiator) (v : W32)
  | rearm (by' : Initiator) (v : W32)
  -- power, clocks, thermal, signals (19_power_clocks_signals.md)
  | regionCheck (readings : List RegionReading)
  | tempSample (sensors : List Int)
  | voltageStep (r : Fin 8)
  | railSettleTimeout (r : Fin 8)
  | railRetry (r : Fin 8)
  | pllGlideDone (r : Fin 8)
  | refLoss
  | refGood
  | resetAssert
  | resetRelease
  | railRemoved
  | inputAccept (pin : Fin 8) (level : Bool)
  | inputToggle (pin : Fin 8)
  | presenceStuck
  | sealDrive
  | sealCompare
  | laserFault (g : Fin 128)
  | marginWindow
  | scanGo (by' : Initiator) (lane : Fin 1024) (v : W32)
  | scanDone (lane : Fin 1024) (disagreements : W64)
  -- registers (R19, R46)
  | latchedRead (by' : Initiator) (addr : W48)
  | readClear (by' : Initiator) (addr : W48)
  | registerWrite (by' : Initiator) (addr : W48) (v : W32)
  -- decoding and packets refused by name (R101, R516), management frames, harness replies, debug port
  | illegalOpcode (cl : Fin 8) (qid : BitVec 13)
  | badOpcode (src : CmdSource)
  | mgmtFramePunt (m : Fin 2) (frame : List Byte)
  | mgmtEgressStart (m : Fin 2)
  | harnessReplyReceive (tag : W32) (reply : List Byte)
  | debugTapAccess (op : TapOp)
  deriving DecidableEq, Repr

end Sys2Proof
end

