-- ==== Sys2Proof/Decode.lean ====
section
/-! DEFINITION. The command a table word spells. No row of spec/opcode_table.json gives bits: the block's
commands are events and register accesses, and the instruction words of its engine queues (R80) are data in
memory that the queue commands read. So no word spells a command. -/

namespace Sys2Proof

/-- The command a word of the table spells: none, since no row gives bits (log entry 1). -/
def decodeTableWord (nbits w : Nat) : Option Instr :=
  match nbits, w with
  | _, _ => none

end Sys2Proof
end

