-- ==== Sys2Proof/Config.lean ====
section
/-! DEFINITION. What the part fixes at production, and the values the spec leaves open. Every `opaque`
constant below is a free value: nothing in Lean can evaluate it, so a statement proved of the machine holds
whatever it is. -/

namespace Sys2Proof

/-- Ordering code (R2): NRN-T9600-A has eight active matrix tiles a cluster, NRN-T9600-B six. -/
inductive Grade where
  | a | b
  deriving DecidableEq, Repr

/-- What one part is made with, fixed at production test or by the board and its fitting (R3, R49, R579,
R613). A field of `State` holds one, so that a statement about every state speaks of every part. -/
structure PartConfig where
  grade : Grade
  /-- GiB fitted on each LPDDR6 channel of die d: 0, 16, 32 or 64 (R49, R199) -/
  lpdGib : List Nat
  /-- base MAC address reported by GET_STATUS (R504) -/
  baseMac : W48
  /-- HARNESS_ID pins (R473) and the HARNESS_SB pin -/
  harnessId : BitVec 3
  harnessSb : Bool
  deriving DecidableEq, Repr

namespace Config

/-- The part `State.reset` is a part of (DESIGN CHOICE, log entry 2): grade A, no LPDDR6, straps 0. -/
def part : PartConfig :=
  { grade := .a, lpdGib := [0, 0, 0, 0], baseMac := 0, harnessId := 0, harnessSb := false }

/-- R104: whether a byte of the output region of a halted repeat, by its address, holds the value the repeat produced
(true) or the value before it (false). FREE VALUE (log entry 6). -/
opaque haltedByteNew : Nat → Nat → Bool

/-- R45: how many REF edges old, 0 to 2, the uptime count is that a reader outside REF sees.
FREE VALUE (log entry 7): only its remainder modulo 3 is used. -/
opaque uptimeAge : Nat → Nat

/-- R607, R43: ARITH and FWD cycles of a region in one REF tick. FREE VALUES (log entry 8). -/
opaque arithPerTick : Nat → Nat → Nat
opaque fwdPerTick : Nat → Nat → Nat

/-- R540: the check symbols a read of a granule in error finds. FREE VALUE (log entry 10). -/
opaque checkSymbols : Nat → BitVec 72

/-- R203: whether a check code sees an error of more bits or bytes than it is sure to detect. FREE VALUE (log entry 100). -/
opaque codeSees : Nat → Bool

/-- R540: the byte lanes, rows and columns in error that a PARITY record names, and the stage of an engine that a HW_FAULT
record names. FREE VALUES (log entry 101). -/
opaque parityLanes : Nat → BitVec 48
opaque faultStage : Nat → Byte

/-- R549, R550: the output bytes of a cupping case of a unit kind and family over its operand elements and scale bytes, and the
words its signature takes after them: the spec names each family's work and lays out none of it. FREE VALUES (log entry 110). -/
opaque caseBytes : Nat → Nat → (Nat → Nat) → (Nat → Nat) → List Byte
opaque caseFlag : Nat → Nat → (Nat → Nat) → (Nat → Nat) → Nat → W32

/-- R553: the seed that Tack draws for a run, from an identity derived from the fuses. FREE VALUE (log entry 29). -/
opaque testSeed : Nat → W64

/-- R621: what a lane's FEC decoder receives in a span of time: codewords with exactly n corrected symbols, n from 0 to
15, and uncorrectable codewords (n = 16). FREE VALUES (log entry 30). -/
opaque laneBin : Nat → Nat → Nat → Nat

/-- R487: whether Tack stores the configuration in board flash after a command has changed it. FREE VALUE (log entry 31). -/
opaque tackStores : Nat → Bool

/-- R200: the highest LPDDR6 rate every channel passes, and whether the channels of a die have two ranks. FREE VALUES
(log entry 32). -/
opaque lpdRate : Nat → Nat
opaque lpdTwoRanks : Nat → Bool

/-- R540: the lanes in error that a LINK_UE record of a die-to-die bundle names. FREE VALUE (log entry 34). -/
opaque failingLanes : Nat → W16

/-- R464: whether the segments of a frame that crosses between two dies ride on a given bundle of the pair. FREE VALUE (log
entry 109). -/
opaque ridesBundle : Nat → Bool

/-- R616, R619, R623: what the sensors of a lane or of an optical engine read: receive power, temperature, laser bias and
power, the supply alarm. FREE VALUES by register (log entry 35). -/
opaque telemetry : Nat → Nat → W32

/-- R582: the state of the MC that the debug port reads; the spec gives none of it. FREE VALUE (log entry 36). -/
opaque mcState : Nat → W32

/-- R508, R510: the trailer of a reply whose AUTH is 1 though its command was not authenticated: the spec names no key for
it. FREE VALUE (log entry 37). -/
opaque keylessTrailer : Nat → BitVec 256

/-- R556: the case that is replayed after two records of CLASS TRANSIENT. FREE VALUE (log entry 116). -/
opaque replayCase : Nat → W32

/-- R579: which of the fuse bits being blown do not read as blown. FREE VALUE (log entry 38). -/
opaque fuseFails : Nat → W32

end Config

end Sys2Proof
end

