-- ==== Sys2Proof/Machine/State.lean ====
section
/-! DEFINITION. The state of the device: plain data, everything the spec gives the machine, and the state
right after reset. Registers that hold nothing but their own bits live in `regs` (keyed by physical address;
an unlisted one reads its reset value, Machine/RegMap.lean); a live 64-bit count lives in `ctr64`, keyed by the
address of its LO register. State of queues, engines, groups, transport, switch core and firmware is typed. -/

namespace Sys2Proof.Machine

/-- Why the machine stops. The spec gives every encoding, value and sequence an outcome (R22), so the one
fault of the model is a command that names no unit of the device. -/
inductive Fault where
  /-- Raised by the commands that name a queue when the QID is not one of R112 (0x00-0x19, 0x1000-0x1FFF), by
  those that name a unit of in-field testing the device does not have, and by those that name the bundle of a die to
  itself. SAFE: no such command can reach the device. -/
  | noSuchUnit
  deriving DecidableEq, Repr

/-- Why the machine refuses a command. -/
inductive Refusal where
  /-- Raised only by an arm of `exec` whose command has no meaning yet. SAFE: the model stops. -/
  | notModelled (mnemonic : String)
  deriving DecidableEq, Repr

/-! ### Engine queues (02_queues_and_instructions.md) -/

/-- An address register (R88). -/
structure AR where
  base : BitVec 48
  stride : BitVec 28
  wrap : BitVec 28
  deriving DecidableEq, Repr

/-- The instruction in progress of a queue: read from its slot (R67) and not yet complete. -/
structure Cur where
  /-- address of its slot -/
  slot : W48
  /-- its count (R66) -/
  count : W32
  word : BitVec 256
  /-- a granule of the slot was poisoned when it was read (R208) -/
  fetchPoison : Bool
  /-- next repeat to run (R80, R104) -/
  rep : Nat
  /-- it has passed the checks at decoding (R102) -/
  decoded : Bool
  /-- its first repeat has begun: its waits are not evaluated again (R78) -/
  started : Bool
  /-- the queue is WAITING on it (R75) -/
  waiting : Bool
  /-- it waits, RUNNING, for something that counts against the wait limit: payload of a transport context
  (R214, R274), a place for a step (R348) -/
  liveWait : Bool
  /-- RESUME reads the slot again before it continues (R78) -/
  reread : Bool
  /-- the repeat in progress has written a result (PARTIAL, R104) -/
  wrote : Bool
  /-- its last repeat has run and it waits to complete: a FENCE for its condition (R97), a tile instruction
  for its blocks to be accepted (R173), a collective step for R344 -/
  draining : Bool
  /-- its engine has begun work on it -/
  begun : Bool
  /-- RESUME continues it and its engine has not yet taken that up -/
  resumed : Bool
  /-- RESUME came while RUN was 0: it goes on once RUN is set (R77) -/
  parked : Bool
  /-- a counter it waits on has been lost: it halts when its waits are next evaluated (R534) -/
  badWait : Bool
  /-- bytes the repeat in progress has written: address and value before, newest first (R104) -/
  undo : List (Nat × Byte)
  deriving DecidableEq, Repr

/-- One queue control block (R72) and what the queue implies. -/
structure Queue where
  run : Bool
  haltIrqEn : Bool
  emptyIrqEn : Bool
  sizeLog2 : BitVec 5
  halted : Bool
  cfgErr : Bool
  dlMember : Bool
  head : W32
  tail : W32
  qbase : W48
  haltAddr : W48
  haltReason : BitVec 8
  partialOut : Bool
  repeatIdx : W16
  waitLimit : W64
  waitCount : W64
  waitCountHi : W32
  dbReject : W32
  ars : List AR
  cur : Option Cur
  /-- a refused doorbell whose halt waits for the next instruction boundary: HALT_ADDR (R71) -/
  ovfReq : Option W48
  /-- a stop of its job that waits for its next element boundary: reason and the report linked (R530) -/
  stopReq : Option (BitVec 8 × Nat)
  /-- protection generation of the instruction in progress (R587) -/
  gen : W16
  /-- TFT sends of the queue not yet acknowledged or lost: context, channel, last sequence number (R97) -/
  sends : List (Nat × Nat × W32)
  /-- one of those sends was lost with its context (R458) -/
  sendsLost : Bool
  deriving DecidableEq, Repr

/-- A semaphore counter and its overflow flag (R90). -/
structure Sem where
  value : W32
  ovf : Bool
  deriving DecidableEq, Repr

/-- A signal issued (R95) and not yet applied (R93). -/
structure Flight where
  srcCl : Nat
  srcQid : Nat
  cl : Nat
  sem : Nat
  inc : Nat
  remote : Bool
  deriving DecidableEq, Repr

/-! ### Error reports and records (16_errors_and_containment.md) -/

/-- How a record links to another (R536): to the record of an earlier report, by that report's number. -/
structure Report where
  /-- number of the report, in the order in which reports arise (the model's own name for it) -/
  serial : Nat
  unit : W32
  opclass : BitVec 8
  kind : BitVec 8
  nested : Bool
  conditional : Bool
  cls : BitVec 2
  reason : BitVec 8
  uptime : W64
  temp : W16
  volt : W16
  job : W16
  qid : BitVec 13
  /-- the report it links to -/
  linkTo : Option Nat
  count : W32
  addr : W48
  syndrome : BitVec 128
  deriving DecidableEq, Repr

/-- An entry of the coalescing table (R544). -/
structure Coal where
  first : Report
  last : Report
  count : W32
  deriving DecidableEq, Repr

/-- The error block (R543-R548). -/
structure ErrBlock where
  recEn : Bool
  next : W32
  ack : W32
  overflow : W32
  dropped : W32
  offlineCount : W16
  /-- the ring: slot to 64-byte record -/
  ring : SMap (BitVec 512)
  /-- entries in the order in which their FIRST reports arose -/
  coal : List Coal
  serial : Nat
  /-- the record each written report became: serial, RIDX -/
  written : List (Nat × W32)
  /-- open handling windows: unit, serial of the report that opened it (R535) -/
  windows : List (W32 × Nat)
  /-- units OFFLINE (R538) -/
  offline : List W32
  /-- units in the TEST phase, and units under a recovery action (R542) -/
  testUnits : List W32
  recovUnits : List W32
  deriving DecidableEq, Repr

/-! ### Rings, events, Evtos link (15_evtos_and_commands.md) -/

/-- A ring's registers (R499). -/
structure Ring where
  base : W48
  sizeLog2 : BitVec 5
  en : Bool
  head : W32
  tail : W32
  lost : W32
  vec : W16
  arm : Bool
  deriving DecidableEq, Repr

/-- A granule of 128 bytes the companion holds (R497), in the order in which its filter entry was allocated. -/
structure Snoop where
  granule : Nat
  exclusive : Bool
  /-- the companion's copy of an Exclusive granule: 128 bytes, and a poison bit for each half -/
  data : List Byte
  poison : List Bool
  deriving DecidableEq, Repr

/-- A job (R519). -/
structure Job where
  id : W16
  /-- ENGINES word of each cluster, SEMS first counter and count of each cluster -/
  engines : List W32
  sems : List (Nat × Nat)
  dctx : Nat
  /-- its data contexts -/
  ctxs : List Nat
  deriving DecidableEq, Repr

/-- A key slot (R581, R510). -/
structure KeySlot where
  key : List Byte
  pl : BitVec 2
  aseq : W64
  /-- last accepted packet and the reply to it -/
  lastPacket : List Byte
  lastReply : List Byte
  deriving DecidableEq, Repr

/-- A management port (R504, R505). -/
structure MgmtPort where
  fec : Bool
  openAccess : Bool
  v4En : Bool
  v6En : Bool
  udp : W16
  vid : BitVec 12
  ip4 : W32
  ip4Len : BitVec 8
  ip6 : BitVec 128
  ip6Len : BitVec 8
  deriving DecidableEq, Repr

/-- A presence command in the presence wait (R518) with its source: everything needed to run it later. -/
structure PresWait where
  src : CmdSource
  packet : List Byte
  /-- sources of the same authenticated packet, which get its reply too (R510, R525) -/
  also : List CmdSource
  deriving DecidableEq, Repr

/-! ### Protection (18_boot_identity_protection.md) -/

/-- A protection table entry, as its 32 bytes give it (R584). -/
structure ProtEntry where
  kind : BitVec 2
  valid : Bool
  mtch : W64
  base : W48
  limit : W48
  read : Bool
  write : Bool
  doorbell : Bool
  signal : Bool
  deny : Bool
  deriving DecidableEq, Repr

/-- A generation of the table (R587). -/
structure ProtGen where
  gen : W16
  table : List ProtEntry
  deriving DecidableEq, Repr

/-! ### Transport contexts (13_transport_and_links.md) -/

/-- A byte with the poison of the granule that carries it (R207, R208). -/
abbrev PByte := Byte × Bool

/-- A usable peer entry, as a context holds it (R448). -/
structure Peer where
  v6 : Bool
  hv : Bool
  hid : BitVec 3
  addr : BitVec 128
  udpDst : W16
  deriving DecidableEq, Repr

/-- TYPE of a TFT packet (R451). -/
inductive TftType where
  | data | tagged | ack | write
  deriving DecidableEq, Repr

/-- A packet the transport has accepted and numbered, kept until it is acknowledged (R457). -/
structure TxPkt where
  seq : W32
  typ : TftType
  /-- buffer that holds its payload, and how many bytes of it -/
  buf : Nat
  len : Nat
  /-- STEPC, SRC_EP and TAG of a TAGGED packet (R451) -/
  stepc : W16
  srcEp : W16
  tag : BitVec 128
  /-- it has been started at least once -/
  sent : Bool
  /-- it waits to be sent again (R457) -/
  again : Bool
  deriving DecidableEq, Repr

/-- One channel of a context: its sending side and its receiving side. -/
structure Chan where
  /-- SEQ the next packet cut from the stream gets -/
  nextSeq : W32
  /-- packets accepted and not acknowledged, oldest first -/
  copies : List TxPkt
  /-- bytes accepted and not yet cut into a packet (R632): buffer and bytes in it -/
  tail : Option (Nat × Nat)
  /-- consecutive timeouts without a freeing ACK (R458) -/
  timeouts : Nat
  /-- EXP (R453) -/
  exp : W32
  /-- packets accepted since the last ACK, and CE marks among them (R456, R459) -/
  sinceAck : Nat
  ce : Nat
  deriving DecidableEq, Repr

/-- A transport context (R449). -/
structure Ctx where
  isOpen : Bool
  failed : Bool
  group : Bool
  /-- job a data context is granted to (R629) -/
  job : W16
  /-- group it serves: cluster * 4096 + GQ -/
  gkey : Nat
  /-- it is GCTX itself, the receiving context of the group (R450, R454) -/
  isGctx : Bool
  peerId : W32
  peer : Peer
  remoteCtx : BitVec 18
  /-- context that an ACK of this one names: the sender's own (R456, R450) -/
  ackCtx : BitVec 18
  homeCl : BitVec 3
  cls : BitVec 3
  dscp : BitVec 6
  ttl : BitVec 8
  payLog2 : BitVec 4
  srcLocal : BitVec 6
  winM1 : BitVec 8
  ackCount : BitVec 6
  ackClass : BitVec 3
  ackDelay : BitVec 15
  resendCyc : W32
  resendMax : BitVec 8
  maxRate : BitVec 24
  minRate : BitVec 24
  aiStep : W16
  path : BitVec 10
  rate : BitVec 24
  /-- TFT_PORT and the peer table as they stood when it opened (R470) -/
  tftPort : W16
  peerBase : W48
  peerCount : BitVec 24
  /-- TAT in units of 2^-20 FWD cycle (R461) -/
  tat : Nat
  /-- channels by number; an unlisted one is as it was when the context opened -/
  chans : SMap Chan
  /-- receive stream (R455): payload accepted and not yet taken by a mover or an SCU, oldest first: buffer, bytes
  of it already taken, its length -/
  rx : List (Nat × Nat × Nat)
  deriving DecidableEq, Repr

/-! ### Boot and board flash (18_boot_identity_protection.md) -/

/-- An entry of the boot attempt record whose CRC holds (R575). -/
structure BootEntry where
  step : Nat
  method : Nat
  event : Nat
  attempt : W16
  data : W64
  deriving DecidableEq, Repr

/-- Boot progress, the boot block's registers (R590) and what the attempt works with. -/
structure Boot where
  step : Nat
  method : Nat
  evtWait : Bool
  booted : Bool
  failed : Bool
  noRecord : Bool
  code : Nat
  fails : Nat
  source : Nat
  rearmed : Bool
  /-- NEXT[1..14] of this attempt's record -/
  next : List Nat
  attempt : W16
  /-- optional steps this attempt skips (R574, R575) -/
  skip : List Nat
  /-- method already tried in this attempt by FLASH_OPEN, FARRIER or KEYSTORE (R574) -/
  tried : List Nat
  /-- uptime at which the boot failed, where the sequence on STATUS begins (R617) -/
  failedAt : W64
  /-- an attempt is running -/
  active : Bool
  /-- running image: VERSION and SVN; false while none runs -/
  running : Bool
  version : W32
  svn : Nat
  /-- GEN of the farrier copy applied, 0 if none (R577) -/
  farGen : W32
  /-- M of R577, and the measurement extended by DEBUG_UNLOCK (R580) -/
  measBoot : List Byte
  meas : List Byte
  /-- attestation window (R580) -/
  window : List Byte
  debugLevel : Nat
  /-- the debug port has halted the MC -/
  mcHalted : Bool
  deriving DecidableEq, Repr

/-- The Tack configuration store (R570): configuration registers by address (0: the RELAY role), management ports, and
what a master holds of other devices (R484, R487). -/
structure ConfigStore where
  regs : SMap W32
  mgmt : List MgmtPort
  parts : SMap (List ConfigItem)
  deriving DecidableEq, Repr

/-- Board flash (R570): it survives reset. A copy that is not valid (R571) is `none`. -/
structure Flash where
  /-- active sector of the boot attempt record, oldest entry first, and its number -/
  record : List BootEntry
  sector : Nat
  slotA : List Byte
  slotB : List Byte
  /-- copies of the in-field farrier map (R564): GEN and entries -/
  far0 : Option (W32 × List (BitVec 256))
  far1 : Option (W32 × List (BitVec 256))
  /-- copies of the key store (R581): generation and slots -/
  keys0 : Option (W32 × SMap (Option KeySlot))
  keys1 : Option (W32 × SMap (Option KeySlot))
  store : Option ConfigStore
  deriving DecidableEq, Repr

/-! ### Matrix tiles (04_matrix_tiles.md) -/

/-- A weight buffer (R156, R170): the block it holds as loaded, expanded, with its block scales. -/
structure TileBuf where
  valid : Bool
  /-- tag: address of the first weight row, BFMT, K, NCOLS_M1, EXPD, 2:4 or not -/
  tag : List Nat
  poison : Bool
  /-- format the codes are in: the element format, or the expansion target (R130) -/
  fmt : Nat
  /-- weight rows k, element codes of the block in the format it multiplies in -/
  rows : List (List Nat)
  /-- scale bytes of each column, for a microscaled block -/
  scales : List (List Nat)
  deriving DecidableEq, Repr

/-- What remains to do for an instruction once its last block is accepted (R95, R174). -/
structure TileEnd where
  word : BitVec 256
  count : W32
  deriving DecidableEq, Repr

/-- An output block held for its destination (R173). -/
structure HeldBlock where
  /-- true: COLLECTIVE, to group queue `target` of the cluster; false: PORT, to transport context `target` -/
  collective : Bool
  target : Nat
  chunk : W32
  /-- element bytes, then scale bytes (R172), and how many of them are elements, counted in elements -/
  bytes : List Byte
  elems : Nat
  /-- SIGNAL0 to issue when it is accepted, under SIG0_EACH: the instruction word -/
  each : Option (BitVec 256)
  /-- the instruction ends with this block -/
  last : Option TileEnd
  deriving DecidableEq, Repr

/-- A tile behind a logical position: weight buffers, the descriptor read for the instruction, held blocks. -/
structure Tile where
  wb0 : TileBuf
  wb1 : TileBuf
  active : Nat
  desc : Option (BitVec 512 × BitVec 128)
  held : List HeldBlock
  /-- a rotation is copying into this position (R185) -/
  rotating : Bool
  deriving DecidableEq, Repr

/-! ### Switch core, buffers, scheduling (11_switch_core_and_buffers.md, 12_scheduling_and_policing.md) -/

/-- What a routed frame's headers become (R398 step 6). -/
structure Rewrite where
  dmac : W48
  smac : W48
  vid : BitVec 12
  tag : Bool
  pcp : BitVec 3
  /-- TTL or hop limit is decremented: not again for a frame that another device of the harness has routed (R481) -/
  dec : Bool
  deriving DecidableEq, Repr

/-- What a pipeline decided of a frame whose header it accepted (R398). -/
inductive Decision where
  /-- dropped, by a step of R398 or its policer (R439); the counters (register addresses) wait for the frame's FCS (R407) -/
  | drop (counters : List Nat)
  /-- handed to the MC's management endpoint -/
  | punt
  /-- a TFT frame for a local endpoint -/
  | terminate
  /-- to one egress port, in a buffer allocated from the IP length at the header (R414); `none`: allocated at the end -/
  | forward (port : Nat) (rw : Option Rewrite) (buf : Option Nat)
  /-- to one egress port, but no buffer could be allocated at the header (R414) -/
  | refused (port : Nat)
  /-- to several egress ports -/
  | flood (ports : List Nat)
  /-- a MAC Control frame, consumed by the port (R444) -/
  | control
  deriving DecidableEq, Repr

/-- A frame arriving at a port. -/
structure InFrame where
  /-- it found the staging queue full (R395) -/
  refused : Bool
  /-- its bytes so far; its header has been accepted once `decided` is something -/
  bytes : List Byte
  cls : Nat
  decided : Option Decision
  /-- candidate cycle of R432, in the ingress region's count -/
  candAt : Option Nat
  /-- it has started as a cut-through frame -/
  started : Bool
  /-- a flit of it met an uncorrectable error (R465) -/
  damaged : Bool
  deriving DecidableEq, Repr

/-- A frame or copy in an egress or management queue. -/
structure QFrame where
  buf : Nat
  owner : Nat
  /-- stored length (R408) -/
  len : Nat
  /-- FWD count at enqueue, 40 bits (R420) -/
  stamp : Nat
  /-- port and class of arrival, for priority flow control (R445); 1024: none -/
  inPort : Nat
  inCls : Nat
  /-- what its headers become at the start (R397, R398) -/
  rw : Option Rewrite
  /-- length it leaves with, FCS included (R431) -/
  elen : Nat
  /-- a frame in transit through the harness: the route its worms keep (R481, R483) -/
  via : Option Worm
  deriving DecidableEq, Repr

/-- A frame in a port's transmit stage (R429). -/
structure TxFrame where
  /-- `none`: a frame of priority flow control, which has no buffer -/
  frame : Option QFrame
  cls : Nat
  /-- bytes sent, FCS included; of a cut-through frame, filled in at its end -/
  bytes : List Byte
  /-- it ends with a stomped FCS (R406) -/
  stomped : Bool
  /-- a cut-through frame whose ECN field was set to CE at its start (R440) -/
  marked : Bool
  /-- a cut-through frame whose end has not arrived -/
  open' : Bool
  cutThrough : Bool
  /-- a cut-through frame of which the buffer does not yet hold the first 256 bytes (R405) -/
  waits : Bool
  /-- the worms it is sent in, on a harness link (R481) -/
  worms : List Worm
  deriving DecidableEq, Repr

/-- An egress or management queue with its shaper. -/
structure EgQueue where
  frames : List QFrame
  deficit : Nat
  /-- TAT in units of 2^-20 cycle (R435) -/
  tat : Nat
  /-- entry on the calendar wheel: the cycle its slot begins at (R436) -/
  wheel : Option Nat
  deriving DecidableEq, Repr

/-- A port: transmit stage, rotation, shaper, priority flow control. -/
structure PortSt where
  linkUp : Bool
  /-- the link has been up since the margin window began (R621) -/
  steady : Bool
  tx : List TxFrame
  /-- class the deficit round stands at (R430) -/
  cur : Nat
  tat : Nat
  wheel : Option Nat
  /-- cycles at which the pause of each class was decoded and ends; `none`: not paused (R441, R445) -/
  paused : List (Option (Nat × Nat))
  /-- classes for which a pause has been sent and not ended -/
  xoff : List Bool
  /-- PFC frames to send: class, quanta -/
  pfcOut : List (Nat × Nat)
  /-- bytes of the frame last sent, FCS included (R406) -/
  wire : List Byte
  /-- harness address of the device at the other end, as its HELLO gave it (R479) -/
  peer : BitVec 4
  deriving DecidableEq, Repr

/-- A buffer record (R417). -/
structure BufRec where
  held : Bool
  owner : Nat
  refs : Nat
  gen : W16
  /-- GEN with which the last audit pass found it held and unreferenced (R423) -/
  noted : Option W16
  /-- withdrawn from its pool until reset (R534) -/
  lost : Bool
  deriving DecidableEq, Repr

/-- Settings and counters of a buffer owner (R412, R425). -/
structure Owner where
  res : List Nat
  limitKib : Nat
  ovfEn : Bool
  ovfLimit : Nat
  ageLimit : Nat
  drop : W32
  ageDrop : W32
  flushDrop : W32
  resRefused : Bool
  /-- a group owner set by GROUP_CREATE: LOCKED (R425) -/
  locked : Bool
  deriving DecidableEq, Repr

/-- What a shadow slot holds (R312). -/
inductive SlotKind where
  | shadow | raw
  deriving DecidableEq, Repr

/-- A TFT packet that has crossed to its home cluster and waits for its checks (R37, R446). -/
structure Arrival where
  /-- cluster of the ingress pipeline, where NO_CTX and BAD_HDR count -/
  ingress : Nat
  /-- the packet: base header to E2E -/
  packet : List Byte
  ce : Bool
  v6 : Bool
  srcIp : BitVec 128
  /-- a message marked damaged on the way (R465) -/
  damaged : Bool
  /-- harness address it came from, for a packet over a harness link (R482) -/
  shid : Option Nat
  /-- a contribution: the slot it is in (R312) -/
  slot : Option SlotKind
  /-- poison that the packet's bytes came with, over a harness link (R207, R424); none listed: clean -/
  poison : List Bool
  deriving DecidableEq, Repr

/-! ### Reduction lanes and collective groups (08_exact_reduction.md, 09_collectives.md) -/

/-- An accumulator (R301), or the best of an ORDER-FREE element (R306). -/
structure Acc where
  sum : Int
  nan : Bool
  pinf : Bool
  ninf : Bool
  nz : Bool
  poison : Bool
  best : Option Nat
  deriving DecidableEq, Repr

/-- A piece that holds space (R313, R323): accumulators by element, or the hold area by rank (element codes with
their poison), and the members whose bit is set. -/
structure Piece where
  accs : List Acc
  hold : SMap (List (Nat × Bool))
  members : List Nat
  deriving DecidableEq, Repr

/-- A message held in the early-arrival area (R345, R346): its tag, its STEPC, its payload in a buffer. -/
structure Early where
  tag : BitVec 128
  stepc : W16
  buf : Nat
  len : Nat
  deriving DecidableEq, Repr

/-- A block held in the input area (R339). -/
structure InBlock where
  chunk : W32
  buf : Nat
  len : Nat
  /-- tile whose queue handed it over, and the block's number for that queue's fences (R97) -/
  tile : Nat
  serial : Nat
  deriving DecidableEq, Repr

/-- A result or a forwarded piece that the transport has not yet accepted (R343). -/
structure OutMsg where
  ep : Nat
  chunk : W32
  piece : Nat
  payload : List PByte
  /-- a result of the lanes, which stays handed on when the group halts (R320) -/
  result : Bool
  deriving DecidableEq, Repr

/-- A contribution or message confirmed and refused for want of space that no source will send again: it is offered
again when space comes free (R324, R346; DEDUCED, log entry 24). -/
structure Retry where
  isLocal : Bool
  tag : BitVec 128
  stepc : W16
  payload : List PByte
  deriving DecidableEq, Repr

/-- The open step of an group, or the last one (R333, R337). -/
structure Step where
  opcode : Nat
  rmode : Nat
  fmt : Nat
  srck : Bool
  dist : Bool
  pieceLog2 : Nat
  pieces : Nat
  /-- S, chunks per member input -/
  s : Nat
  /-- first input chunk under INPUT -/
  cbaseIn : Nat
  root : Nat
  src : Nat
  dst : Nat
  sizes : List Nat
  stepc : W16
  /-- first chunk and length of this device's reduction slice, as it was when the step opened (R329, R337) -/
  slice : Nat × Nat
  /-- own messages handed on so far, in the order of R341 by chunk, piece and endpoint -/
  cursor : Nat
  /-- pieces of DST still to be written -/
  missing : Nat
  /-- the input block being handed on: input chunk and place of the block -/
  taken : Option InBlock
  /-- the step is open and has not completed -/
  live : Bool
  /-- instruction and repeat it belongs to -/
  owner : W32 × Nat
  deriving DecidableEq, Repr

/-- A group (R327, R333) with its reduction context (R322). -/
structure Group where
  /-- a group holds the group queue -/
  held : Bool
  gid : BitVec 24
  selfEn : Bool
  nmemb : Nat
  self : Nat
  nagg : Nat
  nred : Nat
  ch : Nat
  ifmt : Nat
  maxPieceLog2 : Nat
  maxPieces : Nat
  maxEbLog2 : Nat
  canon : Bool
  endpAddr : W48
  redAddr : W48
  gctx : Nat
  resGran : Nat
  inputKib : Nat
  eaKib : Nat
  /-- own endpoint index (R450) -/
  ep : Nat
  /-- place of its header in the store, in units of 128 bytes -/
  slot : Nat
  seq : W32
  nextSeq : W32
  /-- reduction slice and geometry of the open step (R337) -/
  cbase : W32
  ccount : W32
  pieceLog2 : Nat
  pieces : Nat
  rmode : W16
  /-- granules in use, and those of them that come from the shared part (R323) -/
  used : Nat
  shared : Nat
  doneChunks : List Nat
  /-- done pieces of chunks that have a record, by chunk of the slice -/
  chunkRecs : SMap (List Nat)
  /-- open pieces: chunk of the slice * 256 + piece -/
  openPieces : SMap Piece
  /-- data records (R341): member * 2^32 + chunk, pieces received -/
  dataRecs : SMap (List Nat)
  step : Option Step
  outq : List OutMsg
  retry : List Retry
  inputs : List InBlock
  /-- number the next input block gets -/
  inSerial : Nat
  early : List Early
  /-- EXPECT and CONF by endpoint (R352), and the contributions counted -/
  expect : SMap Nat
  conf : SMap Nat
  lastConf : Option Nat
  lastSlow : Option Nat
  /-- halted with GROUP_MISMATCH or GROUP_ABORT (R351) -/
  dead : Bool
  /-- the region that held a reservation of it has retired (R356, R538) -/
  lost : Bool
  deriving DecidableEq, Repr

/-! ### Stream compute units (07_stream_recipes.md) -/

/-- A stream of a recipe run (R261) and how far it has come. -/
structure SStream where
  /-- 0 none, 1 memory, 2 transport context -/
  kind : Nat
  fmt : Nat
  /-- its address was relative to BASE -/
  rel : Bool
  start : Nat
  count : Nat
  /-- byte step between elements -/
  stride : Int
  ctx : Nat
  sat : Bool
  seed : W64
  done : Nat
  /-- elements taken or written, and whether a poisoned one was written -/
  pos : Nat
  poison : Bool
  deriving DecidableEq, Repr

/-- An SCU (R250): recipe memory, registers with their poison, the repeat in progress. An unlisted entry is 0. -/
structure Scu where
  recipe : SMap W64
  /-- a repeat of a recipe is in progress: its run table has passed the checks of R262 -/
  running : Bool
  pc : Nat
  /-- lane l of V[r]: key 32 r + l -/
  v : SMap W64
  vp : SMap Bool
  sr : SMap W64
  sp : SMap Bool
  /-- bit l of P[r], r at least 1: key 32 r + l -/
  pr : SMap Bool
  pp : SMap Bool
  /-- IN0-IN3, OUT0-OUT3 -/
  streams : List SStream
  rseed : W64
  /-- executions of each slot in this repeat (R289) -/
  execs : SMap Nat
  /-- a PUT waits for the transport (R275) -/
  txWait : Bool
  deriving DecidableEq, Repr

/-! ### Parameter update and the dose engine (10_parameter_update.md) -/

/-- A PUE between steps 5 and 6 of a repeat: the descriptor, step count and index list it has read (R363), and the
number of its request to the dose engine while it waits. -/
structure Pue where
  desc : BitVec 1024
  t : W32
  idx : List Nat
  ask : Option Nat
  deriving DecidableEq, Repr

/-- A request to the dose engine (R382): from the PUE of a cluster, or software's test request. -/
structure DoseReq where
  cl : Option Nat
  serial : Nat
  addr : W48
  t : W32
  init : Initiator
  deriving DecidableEq, Repr

/-- An answer on its way to a PUE: a halt reason, or 0 and the rate. -/
structure DoseAns where
  serial : Nat
  reason : Nat
  lr : W32
  deriving DecidableEq, Repr

/-- One of the most recent evaluations (R381). -/
structure DoseEval where
  desc : BitVec 512
  t : W32
  lr64 : W64
  lr : W32
  deriving DecidableEq, Repr

/-- The dose engine (R378-R389); its registers are plain ones. -/
structure Dose where
  reqs : List DoseReq
  answers : SMap DoseAns
  recent : List DoseEval
  serial : Nat
  deriving DecidableEq, Repr

/-! ### Check-value units and die-to-die bundles (13_transport_and_links.md, 01_organisation.md) -/

/-- A check-value unit (R466): its CRC register and MATCH, POLY and FOLD as they are in force (R469), and the ARITH cycle up to
which it consumes what has been written; the rest are plain registers. -/
structure Cvu where
  reg : W64
  matched : Bool
  cfg : BitVec 4
  busyTo : Nat
  deriving DecidableEq, Repr

/-- A link bundle from one die to another (R30, R31): lanes that have failed; out of service. -/
structure Bundle where
  failed : List Nat
  out : Bool
  deriving DecidableEq, Repr

/-! ### The harness (14_harness.md) -/

/-- Messages of the SIG class the device has handed to its harness links, and commands it carries to another device. -/
inductive SigMsg where
  /-- the HELLO sent on a port as its PHY came up (R479) -/
  | hello (port : Nat) (m : Hello)
  | alive (epoch : W32)
  /-- configuration, ending with COMMIT, for a harness address; each item with the address of the device it is for -/
  | config (dest : Nat) (epoch : W32) (items : List (BitVec 4 × ConfigItem))
  /-- outcome of a COMMIT -/
  | outcome (epoch : W32) (ok : Bool)
  /-- a command for the device at a harness address, with the rights it acts with (R513) -/
  | command (dest : Nat) (pl : Nat) (packet : List Byte)
  /-- the reply to a command that the master carried here (R513) -/
  | reply (packet : List Byte)
  /-- a group instance has been created or destroyed here (R486) -/
  | groupNote (gid : Nat) (created : Bool)
  deriving DecidableEq, Repr

/-- A frame of which segments have arrived on a harness port (R481): the route of its first worm, its bytes so far; `full`: it
found the staging queue full and is dropped whole (R395). -/
structure Segments where
  head : Worm
  full : Bool
  bytes : List PByte
  deriving DecidableEq, Repr

/-- Identity and configuration in the harness (R473-R489). -/
structure Harness where
  /-- 0 MASTER (acting), 1 MEMBER, 2 RELAY, 3 STANDBY -/
  role : Nat
  addr : BitVec 4
  epoch : W32
  configured : Bool
  /-- harness ports whose PHY is up and which wait for a HELLO (R479) -/
  phy : List Nat
  /-- a HELLO has been sent since reset -/
  greeted : Bool
  /-- CONFIG messages received and not yet committed, with their EPOCH, each with the device it is for (R484) -/
  partEpoch : W32
  partItems : List (BitVec 4 × ConfigItem)
  /-- mirror of the harness group table that a standby holds, by entry (R484) -/
  gtMirror : SMap W64
  /-- configuration of other devices, by harness address: held by the master and mirrored by the standby -/
  parts : SMap (List ConfigItem)
  /-- segments of a frame arriving on a harness port, by its first lane -/
  segs : SMap (Option Segments)
  /-- messages sent, oldest first -/
  sent : List SigMsg
  /-- commands carried to other devices and not yet answered, oldest first: tag, source, destination, packet -/
  carried : List (W32 × CmdSource × Nat × List Byte)
  deriving DecidableEq, Repr

/-! ### Health (17_cupping_and_health.md) -/

/-- Cases a unit still has to run of a run (R553): the next case index and the end. -/
structure TestTodo where
  run : W32
  /-- voltage bias asked for, in mV -/
  bias : Int
  seed : W64
  next : Nat
  stop : Nat
  deriving DecidableEq, Repr

/-- A conditional replay that is due (R556): the case, and the recorded condition. -/
structure ReplayDue where
  family : Nat
  case' : Nat
  run : W32
  temp : W16
  volt : W16
  deriving DecidableEq, Repr

/-- A physical unit with a health score (R560). -/
structure HUnit where
  score : W16
  suspect : Bool
  retired : Bool
  /-- a COND_EXCLUDE band holds it out of service (R565) -/
  excluded : Bool
  conditional : Bool
  /-- the condition band of its last CONDITIONAL fault (R557): kind, lower and upper end in the units of R564 -/
  condBand : Option (Nat × Int × Int)
  /-- TEMP and VOLT of its records of CLASS TRANSIENT that have led to no replay, oldest first (R556) -/
  transients : List (W16 × W16)
  overdue : Bool
  due : Bool
  defer : Nat
  /-- uptime of its last completed test, and whether that had no mismatch (R554) -/
  tested : Option W64
  passed : Bool
  /-- a mismatch since its present test began -/
  mismatch : Bool
  todo : List TestTodo
  replays : List ReplayDue
  deriving DecidableEq, Repr

/-- What a unit gave for a case: its signature, the run, and the TEMP and VOLT it ran at (R551, R556). -/
structure CaseRun where
  unit : Nat
  sig : W32
  run : W32
  temp : W16
  volt : W16
  deriving DecidableEq, Repr

/-- An entry of the agreement table (R551), keyed by kind, family, seed and case. -/
structure Agreement where
  kind : Nat
  family : Nat
  seed : W64
  case' : Nat
  /-- what units gave: one PROVISIONAL, two DISPUTED -/
  given : List CaseRun
  /-- the AGREED signature -/
  agreed : Option W32
  deriving DecidableEq, Repr

/-- A case queued for another unit of its kind than those that have run it (R551). -/
structure ExtraCase where
  kind : Nat
  run : W32
  seed : W64
  case' : Nat
  but : List Nat
  deriving DecidableEq, Repr

/-- The health logic. -/
structure Health where
  /-- units by kind * 256 + cluster * 16 + number -/
  units : SMap HUnit
  /-- oldest first -/
  agree : List Agreement
  extra : List ExtraCase
  /-- last run number issued -/
  run : W32
  /-- uptime of the last automatic retirement of each cluster, and candidates refused since (R561) -/
  retiredAt : SMap (Option W64)
  refused : SMap Nat
  /-- in-field farrier entries in force, and GEN of the map (R564) -/
  entries : List (BitVec 256)
  gen : W32
  /-- COND_EXCLUDE and COND_GUARD entries in force: those that boot applied and those added since (R565) -/
  bands : List (BitVec 256)
  deriving DecidableEq, Repr

/-! ### Power, clocks and pins (19_power_clocks_signals.md) -/

/-- A region (R592, R603). -/
structure RegionSt where
  thermal : Nat
  current : Nat
  skew : Nat
  cold : Nat
  /-- a rail fault exists, with its counts of consecutive checks out of range and in range (R599) -/
  rail : Bool
  railBad : Nat
  railGood : Nat
  level : Nat
  /-- level of the clocks, which a glide moves to `level` (R602) -/
  clk : Nat
  gliding : Bool
  /-- a voltage write has not yet been reported settled (R598) -/
  settling : Bool
  /-- neighbours of the SKEW episode, and checks for which all stayed within the hysteresis bound (R605) -/
  partners : List Nat
  calm : Nat
  deriving DecidableEq, Repr

/-- A pin's TOGGLE record: an ignored change has been recorded since the last accepted one, and when the last record was
written (R611). -/
structure PinNote where
  noted : Bool
  last : Option W64
  deriving DecidableEq, Repr

/-- Pins and resets (R600, R609-R614). -/
structure Signals where
  /-- accepted level of pins 0 to 7 -/
  accepted : List Bool
  notes : SMap PinNote
  stuck : Bool
  /-- period of the seal sequence; `none` before FUSE_READ has ended -/
  sealN : Option Nat
  sealBit : Bool
  sealMatches : Nat
  sealClosed : Bool
  /-- RESET_N holds the device in reset; REF does; TJ_TRIP has been reached -/
  resetLow : Bool
  refBad : Bool
  tripped : Bool
  deriving DecidableEq, Repr

/-- A companion request to the slot of a position that is being copied, held until the copy is done (R185). -/
inductive HeldAccess where
  | read (pl : Fin 4) (addr len : Nat) (coherent exclusive : Bool)
  | write (pl : Fin 4) (addr : Nat) (data : List Byte) (poison : List Bool) (coherent : Bool)
  deriving DecidableEq, Repr

/-- How an access by an initiator completed (R495). -/
inductive Completion where
  | ok | poisoned | unmapped | denied | unsupported
  deriving DecidableEq, Repr

/-- What the last access that is answered was answered with: the model's own field. -/
structure Answer where
  status : Completion
  data : List Byte
  /-- a poison bit for each 64-byte granule touched -/
  poison : List Bool
  deriving DecidableEq, Repr

/-! ### Movers (05_memory_and_movers.md) -/

/-- A descriptor as it was fetched (R62, R63): its address, what is wrong with reading it, its bits, its poison. -/
structure MvDesc where
  addr : Nat
  reason : Option Nat
  bits : BitVec 512
  poison : Bool
  /-- repeat it belongs to -/
  rep : Nat
  deriving DecidableEq, Repr

/-- How a row was stored (R236, R249): what its counters need once the row is complete. -/
structure RowNote where
  form : Nat
  fbDense : Bool
  fb24 : Bool
  poison : Bool
  len : Nat
  deriving DecidableEq, Repr

/-- A mover between the descriptors, rows and bytes of its repeat (R211-R216). -/
structure Mover where
  /-- the repeat has begun -/
  begun : Bool
  /-- descriptors fetched and not yet reached, in chain order -/
  pref : List MvDesc
  /-- index in the chain and address of the descriptor at hand -/
  idx : Nat
  addr : Nat
  /-- it has passed its checks -/
  desc : Option (BitVec 512)
  /-- next row, and bytes of that row already taken from the context -/
  row : Nat
  pos : Nat
  /-- bytes of the row that are gathered, or that wait for the transport -/
  out : Option (List PByte)
  /-- the row that waits for the transport has been compressed (R249) -/
  note : Option RowNote
  /-- contexts that the repeat has sent to -/
  ctxs : List Nat
  /-- the repeat's chain has an RXCTX source (R216) -/
  rxSeen : Bool
  /-- descriptors of the instruction have used the SRC and the DST AR -/
  srcUsed : Bool
  dstUsed : Bool
  /-- it waits for the transport (R215) -/
  txWait : Bool
  deriving DecidableEq, Repr


/-! ### Faults of the device itself (R533, R534) -/

/-- State the device keeps for itself, in which an uncorrectable error can lie (R534, R319). Groups are named by
cluster * 4096 + GQ. -/
inductive DevItem where
  /-- a forwarding table entry, by its key in `ft`; `met`: a lookup has found the error and recorded it -/
  | entry (key : Nat) (met : Bool)
  /-- a buffer record, by its key in `bufs` -/
  | buffer (key : Nat)
  | context (n : Nat)
  | chunkRecord (g chunk : Nat)
  | bitmap (g piece : Nat)
  /-- an element of an accumulator or a hold area -/
  | element (g piece elem : Nat)
  | queue (cl qid : Nat)
  | counter (cl n : Nat)
  | recipe (cl u slot : Nat)
  deriving DecidableEq, Repr

/-- The wait-for detector of a cluster (R106): the closed set it has found, and ARITH cycles for which it has stood. -/
structure DldWatch where
  members : List (Nat × Nat × Nat)
  stood : Nat
  deriving DecidableEq, Repr

/-! ### The state -/

/-- The device. -/
structure State where
  /-- commands waiting, first in, first out -/
  pending : List Instr
  part : PartConfig
  /-- uptime count (R44) -/
  uptime : W64
  /-- ARITH and FWD cycles of each region since reset (R43, R607) -/
  arithCount : List W64
  fwdCount : List W64
  /-- how many free values the machine has taken: the model's own field -/
  fresh : Nat
  mem : Memory
  /-- the three copies of the poison mark of each 64-byte granule, by granule number (R191) -/
  poison : SMap (BitVec 3)
  /-- errors that lie in storage and no access has found: the wrong bits of each 8-byte word and its check byte, places 0 to
  71 (R203, R204) -/
  flaws : SMap (List Nat)
  /-- corrections that the on-die ECC of a channel's DRAM has reported and the device has not yet read (R199) -/
  odecc : SMap Nat
  /-- plain registers by physical address -/
  regs : SMap W32
  /-- live 64-bit counts by the address of their LO register -/
  ctr64 : SMap W64
  /-- queues: cluster * 8192 + QID -/
  queues : SMap Queue
  /-- counters: cluster * 4096 + number -/
  sems : SMap Sem
  flights : List Flight
  /-- physical tile of each logical position, cluster * 9 + position; 9: none behind it (R113) -/
  tilePhys : SMap Nat
  err : ErrBlock
  rings : SMap Ring
  /-- interrupt messages sent to the companion, oldest first -/
  irqs : List W16
  /-- active Evtos lanes: 16, 8, or 0 while the link is down (R526) -/
  evtWidth : Nat
  snoop : List Snoop
  jobs : List Job
  keys : SMap (Option KeySlot)
  mgmt : List MgmtPort
  presWait : Option PresWait
  /-- generations held, oldest first; the last is in force for the MC, the companion and peers (R587) -/
  prot : List ProtGen
  /-- transport contexts by number (R449) -/
  ctxs : SMap Ctx
  boot : Boot
  flash : Flash
  /-- fuse words that are not 0 (R579) -/
  fuses : SMap W32
  /-- tiles by logical position: cluster * 9 + position -/
  tiles : SMap Tile
  /-- forwarding tables (R399): die * 2^24 + table * 2^20 + index -/
  ft : SMap (BitVec 256)
  /-- pool division applied, in MiB, by cluster (R409) -/
  poolMib : List (List Nat)
  /-- buffer records (R417): cluster * 2^24 + pool * 2^20 + number; pool 6 is the overflow half -/
  bufs : SMap BufRec
  /-- owners whose settings or counters differ from their reset: cluster * 8192 + owner -/
  owners : SMap Owner
  /-- frames arriving, oldest first, by the first lane of the port -/
  ingress : SMap (List InFrame)
  /-- egress queues: first lane * 8 + class; 8192 + 8m + class: MGMTm -/
  egq : SMap EgQueue
  ports : SMap PortSt
  /-- bytes in each lane group's ingress staging queue, as last told (R395) -/
  staging : SMap Nat
  /-- the next FWD cycle in which each pipeline can accept a header (R395) -/
  hdrAt : List Nat
  /-- what the last TAT clamp of each region set late TATs to, in units of 2^-20 cycle (R438) -/
  clampLo : List Nat
  /-- links of MGMT0 and MGMT1 that are down (R421) -/
  mgmtDown : List Bool
  /-- TAT of each policer (R439), in units of 2^-20 cycle: first lane * 8 + class -/
  policers : SMap Nat
  /-- port that each egress stage served last (R428) -/
  egLast : List Nat
  /-- frame a management port sends now -/
  mgmtTx : List (List Byte)
  /-- TFT packets at their home clusters, oldest first, by cluster -/
  arrivals : SMap (List Arrival)
  /-- groups: cluster * 4096 + GQ -/
  groups : SMap Group
  /-- SCUs: cluster * 8 + unit -/
  scus : SMap Scu
  /-- PUEs by cluster -/
  pues : SMap Pue
  dose : Dose
  /-- check-value units: cluster * 16 + number -/
  cvus : SMap Cvu
  /-- bundles that have lost a lane or their service: (source die * 4 + destination die) * 48 + bundle -/
  bundles : SMap Bundle
  harness : Harness
  /-- worms of the message last sent on each harness port -/
  wormOut : SMap (List Worm)
  health : Health
  /-- regions by number -/
  power : SMap RegionSt
  sig : Signals
  /-- Evtos lanes that have failed (R492) -/
  evtFailed : List Nat
  answer : Answer
  /-- companion requests held during a rotation, oldest first (R185) -/
  heldAcc : List HeldAccess
  /-- movers: cluster * 8 + mover -/
  movers : SMap Mover
  /-- faults that lie in an engine and no run has met, by the engine's UNIT word: of a tile, an SCU or the reduction lanes,
  how many coming runs meet a parity error (R533, R319); of a mover or a group queue, not 0 where its next operation meets
  a fault; of a PUE, 1 + the element at which it does (R386) -/
  runs : SMap Nat
  /-- uncorrectable errors that lie in state of the device and no access has found (R534) -/
  bad : List DevItem
  /-- wait-for detectors by cluster -/
  dld : SMap DldWatch
  deriving DecidableEq, Repr

def AR.reset : AR := { base := 0, stride := 0, wrap := 0 }

/-- R72 -/
def Queue.reset : Queue :=
  { run := false, haltIrqEn := false, emptyIrqEn := false, sizeLog2 := 0, halted := false, cfgErr := false,
    dlMember := false, head := 0, tail := 0, qbase := 0, haltAddr := 0, haltReason := 0, partialOut := false,
    repeatIdx := 0, waitLimit := 0x1_0000_0000, waitCount := 0, waitCountHi := 0, dbReject := 0,
    ars := List.replicate 16 AR.reset, cur := none, ovfReq := none, stopReq := none, gen := 0, sends := [],
    sendsLost := false }

/-- R90 -/
def Sem.reset : Sem := { value := 0, ovf := false }

/-- R499 -/
def Ring.reset : Ring :=
  { base := 0, sizeLog2 := 0, en := false, head := 0, tail := 0, lost := 0, vec := 0, arm := false }

/-- R504, R505 -/
def MgmtPort.reset : MgmtPort :=
  { fec := true, openAccess := false, v4En := false, v6En := false, udp := 50770, vid := 0, ip4 := 0, ip4Len := 0,
    ip6 := 0, ip6Len := 0 }

/-- R548 -/
def ErrBlock.reset : ErrBlock :=
  { recEn := false, next := 0, ack := 0, overflow := 0, dropped := 0, offlineCount := 0, ring := [],
    coal := [], serial := 0, written := [], windows := [], offline := [], testUnits := [], recovUnits := [] }

/-- The reset table (R586). -/
def ProtGen.reset : ProtGen :=
  { gen := 0,
    table :=
      [ { kind := 1, valid := true, mtch := 0x07FF_FFFFFF, base := 0, limit := 0x3FFF_FFFF, read := true, write := true,
          doorbell := false, signal := false, deny := false },
        { kind := 1, valid := true, mtch := 0x07FF_FFFFFF, base := 0x5C00_0000, limit := 0x11FF_FFFF_FFFF, read := true,
          write := true, doorbell := false, signal := false, deny := false },
        { kind := 1, valid := true, mtch := 0x07FF_FFFFFF, base := 0xF000_0000_0000, limit := 0xF000_7FFF_FFFF, read := true,
          write := true, doorbell := true, signal := true, deny := false },
        { kind := 0, valid := true, mtch := 2, base := 0, limit := 0xF002_03FF_FFFF, read := true, write := true,
          doorbell := true, signal := true, deny := false } ] }

def Peer.none : Peer := { v6 := false, hv := false, hid := 0, addr := 0, udpDst := 0 }

/-- A channel of a context that has just opened (R453, R457). -/
def Chan.reset : Chan := { nextSeq := 0, copies := [], tail := none, timeouts := 0, exp := 0, sinceAck := 0, ce := 0 }

/-- A context that is not open. -/
def Ctx.reset : Ctx :=
  { isOpen := false, failed := false, group := false, job := 0, gkey := 0, isGctx := false, peerId := 0, peer := Peer.none,
    remoteCtx := 0, ackCtx := 0, homeCl := 0, cls := 0, dscp := 0, ttl := 0, payLog2 := 0, srcLocal := 0, winM1 := 0, ackCount := 0,
    ackClass := 0, ackDelay := 0, resendCyc := 0, resendMax := 0, maxRate := 0, minRate := 0, aiStep := 0, path := 0,
    rate := 0, tftPort := 0, peerBase := 0, peerCount := 0, tat := 0, chans := [], rx := [] }

/-- R590 -/
def Boot.reset : Boot :=
  { step := 0, method := 0, evtWait := false, booted := false, failed := false, noRecord := false, code := 0, fails := 0,
    source := 0, rearmed := false, next := List.replicate 14 1, attempt := 0, skip := [], tried := [], failedAt := 0, active := false,
    running := false, version := 0, svn := 0, farGen := 0, measBoot := [], meas := [], window := [], debugLevel := 0, mcHalted := false }

/-- A flash nothing has been written to (DESIGN CHOICE, log entry 4). -/
def Flash.blank : Flash :=
  { record := [], sector := 0, slotA := [], slotB := [], far0 := none, far1 := none, keys0 := none, keys1 := none,
    store := none }

def TileBuf.reset : TileBuf := { valid := false, tag := [], poison := false, fmt := 0, rows := [], scales := [] }

/-- R180: no valid buffer, nothing held. -/
def Tile.reset : Tile :=
  { wb0 := TileBuf.reset, wb1 := TileBuf.reset, active := 0, desc := none, held := [], rotating := false }

def EgQueue.reset : EgQueue := { frames := [], deficit := 0, tat := 0, wheel := none }

def PortSt.reset : PortSt :=
  { linkUp := false, steady := false, tx := [], cur := 0, tat := 0, wheel := none, paused := List.replicate 8 none,
    xoff := List.replicate 8 false, pfcOut := [], wire := [], peer := 0 }

def BufRec.reset : BufRec := { held := false, owner := 0, refs := 0, gen := 0, noted := none, lost := false }

/-- Reset settings of owner `o` (R425). -/
def Owner.reset (o : Nat) : Owner :=
  let base : Owner := { res := [0, 2, 0, 0, 0, 0], limitKib := 2048, ovfEn := true, ovfLimit := 4096,
                        ageLimit := 0x4000_0000, drop := 0, ageDrop := 0, flushDrop := 0, resRefused := false, locked := false }
  if o < 0x400 then base
  else if o = 0x1400 then { base with res := [0, 0, 512, 0, 0, 0], limitKib := 8192, ovfEn := false }
  else if 0x1401 ≤ o ∧ o ≤ 0x1410 then { base with limitKib := 256 }
  else if o = 0x1411 then { base with res := [0, 0, 0, 0, 0, 0], limitKib := 4096, ovfEn := false }
  else { base with res := [0, 0, 0, 0, 0, 0], limitKib := 0, ovfEn := false }

def Acc.reset : Acc := { sum := 0, nan := false, pinf := false, ninf := false, nz := false, poison := false, best := none }

/-- A group queue that no group holds. -/
def Group.reset : Group :=
  { held := false, gid := 0, selfEn := false, nmemb := 0, self := 0, nagg := 0, nred := 0, ch := 0, ifmt := 0,
    maxPieceLog2 := 0, maxPieces := 0, maxEbLog2 := 0, canon := false, endpAddr := 0, redAddr := 0, gctx := 0,
    resGran := 0, inputKib := 0, eaKib := 0, ep := 0, slot := 0, seq := 0, nextSeq := 0, cbase := 0, ccount := 0,
    pieceLog2 := 0, pieces := 0, rmode := 0, used := 0, shared := 0, doneChunks := [], chunkRecs := [], openPieces := [],
    dataRecs := [], step := none, outq := [], retry := [], inputs := [], inSerial := 0, early := [], expect := [],
    conf := [], lastConf := none, lastSlow := none, dead := false, lost := false }

/-- R257: every slot END; the registers are set when a repeat starts (R263). -/
def Scu.reset : Scu :=
  { recipe := [], running := false, pc := 0, v := [], vp := [], sr := [], sp := [], pr := [], pp := [], streams := [],
    rseed := 0, execs := [], txWait := false }

def Pue.reset : Pue := { desc := 0, t := 0, idx := [], ask := none }

def Dose.reset : Dose := { reqs := [], answers := [], recent := [], serial := 0 }

def Cvu.reset : Cvu := { reg := 0, matched := false, cfg := 0, busyTo := 0 }

def Bundle.reset : Bundle := { failed := [], out := false }

/-- Role and address at the release of reset (R474). -/
def Harness.reset (p : PartConfig) : Harness :=
  let sb := decide (p.harnessId = 0) && p.harnessSb
  { role := if p.harnessId ≠ 0 then 1 else if sb then 3 else 0,
    addr := if sb then 8 else p.harnessId.setWidth 4,
    epoch := if p.harnessId = 0 ∧ !sb then 1 else 0, configured := false, phy := [], greeted := false, partEpoch := 0, partItems := [], gtMirror := [],
    parts := [], segs := [], sent := [], carried := [] }

def HUnit.reset : HUnit :=
  { score := 0, suspect := false, retired := false, excluded := false, conditional := false, condBand := none, transients := [], overdue := false, due := false,
    defer := 0, tested := none, passed := false, mismatch := false, todo := [], replays := [] }

def Health.reset : Health :=
  { units := [], agree := [], extra := [], run := 0, retiredAt := [], refused := [], entries := [], gen := 0, bands := [] }

def RegionSt.reset : RegionSt :=
  { thermal := 0, current := 0, skew := 0, cold := 0, rail := false, railBad := 0, railGood := 0, level := 0, clk := 0,
    gliding := false, settling := false, partners := [], calm := 0 }

def PinNote.reset : PinNote := { noted := false, last := none }

/-- R611: until a first level is accepted, 1 for the control inputs and 0 for the straps; R614: the loop is open. -/
def Signals.reset : Signals :=
  { accepted := [true, true, true, true, false, false, false, false], notes := [], stuck := false, sealN := none,
    sealBit := false, sealMatches := 0, sealClosed := false, resetLow := false, refBad := false, tripped := false }

def Answer.reset : Answer := { status := .ok, data := [], poison := [] }

def DldWatch.reset : DldWatch := { members := [], stood := 0 }

def Mover.reset : Mover :=
  { begun := false, pref := [], idx := 0, addr := 0, desc := none, row := 0, pos := 0, out := none, note := none, ctxs := [],
    rxSeen := false,    srcUsed := false, dstUsed := false, txWait := false }

/-- The device right after reset (R613): nothing survives, every queue is STOPPED, the boot ROM has not begun. -/
def State.reset : State :=
  { pending := [], part := Config.part, uptime := 0, arithCount := List.replicate 8 0, fwdCount := List.replicate 8 0,
    fresh := 0, mem := [], poison := [], flaws := [], odecc := [], regs := [], ctr64 := [], queues := [], sems := [],
    flights := [], tilePhys := [], err := ErrBlock.reset, rings := [], irqs := [], evtWidth := 0, snoop := [], jobs := [],
    keys := [], mgmt := [MgmtPort.reset, MgmtPort.reset], presWait := none, prot := [ProtGen.reset],
    ctxs := [],
    boot := Boot.reset, flash := Flash.blank, fuses := [],
    tiles := [],
    ft := [], poolMib := List.replicate 8 [2, 4, 6, 12, 4, 4], bufs := [], owners := [], ingress := [], egq := [],
    ports := [], staging := [], hdrAt := List.replicate 32 0, clampLo := List.replicate 8 0, mgmtDown := [false, false], policers := [], egLast := List.replicate 32 0, mgmtTx := [[], []], arrivals := [],
    groups := [],
    scus := [],
    pues := [], dose := Dose.reset,
    cvus := [], bundles := [],
    harness := Harness.reset Config.part, wormOut := [],
    health := Health.reset, power := [], sig := Signals.reset,
    evtFailed := [], answer := Answer.reset, heldAcc := [],
    movers := [], runs := [], bad := [], dld := [],
  }

end Sys2Proof.Machine
end

