-- ==== Sys2Proof/Machine/Store.lean ====
section
/-! DEFINITION. The sparse store: lookup and update that keep the canonical form (keys strictly rising, no
entry equal to what an unlisted key reads as). Memory, register files and every table of the machine use it. -/

namespace Sys2Proof.Machine

variable {α : Type}

/-- The entry listed under `k`, if there is one. -/
def mlook (m : SMap α) (k : Nat) : Option α :=
  match m with
  | [] => none
  | (j, v) :: r => if j = k then some v else mlook r k

/-- What key `k` reads as, with `d` for an unlisted key. -/
def mget (d : α) (m : SMap α) (k : Nat) : α := (mlook m k).getD d

/-- The store without an entry for `k`. -/
def mdel (m : SMap α) (k : Nat) : SMap α :=
  match m with
  | [] => []
  | (j, v) :: r => if j = k then mdel r k else (j, v) :: mdel r k

/-- The store with `v` listed under `k`. -/
def mset (m : SMap α) (k : Nat) (v : α) : SMap α :=
  match m with
  | [] => [(k, v)]
  | (j, w) :: r => if j = k then (k, v) :: r else if k < j then (k, v) :: (j, w) :: r else (j, w) :: mset r k v

/-- Write `v` at `k` where an unlisted key reads as `d`: the default value is never listed. -/
def mput [DecidableEq α] (d : α) (m : SMap α) (k : Nat) (v : α) : SMap α :=
  if v = d then mdel m k else mset m k v

/-- Keys strictly rising from above `lo`. -/
def risingFrom (lo : Nat) (m : SMap α) : Bool :=
  match m with
  | [] => true
  | (j, _) :: r => decide (lo < j) && risingFrom j r

/-- Keys strictly rising. -/
def rising (m : SMap α) : Bool :=
  match m with
  | [] => true
  | (j, _) :: r => risingFrom j r

/-- The canonical form of a store whose unlisted keys read as `d`. -/
def canonical [DecidableEq α] (d : α) (m : SMap α) : Bool :=
  rising m && m.all (fun p => decide (p.2 ≠ d))

end Sys2Proof.Machine
end

