-- ==== Sys2Proof/Machine/RegMap.lean ====
section
/-! DEFINITION. The address map of the MMIO windows (R47, R51, R52) and the plain registers of every block:
offset, writable bits, write-one-to-clear bits, read-clear, reset value. Registers whose value is held in typed
state, or whose access does more than its type says (R19), are treated in Machine/Mmio.lean; they stand here
too, so that every offset the spec lists is listed. -/

namespace Sys2Proof.Machine

/-- Who may write the writable bits of a register, beside the protection table. -/
inductive Writer where
  | any
  /-- the MC and the companion at PL 0 (R526, R548, R569, R590, R624, R625) -/
  | pl0
  /-- the MC only (R476, R491, R624) -/
  | mcOnly
  deriving DecidableEq, Repr

/-- A register, or a row of `n` like registers `stride` bytes apart. -/
structure RegDef where
  off : Nat
  n : Nat := 1
  stride : Nat := 4
  /-- bits that store what is written (RW) -/
  rw : Nat := 0
  /-- bits that a written 1 clears (W1C) -/
  w1c : Nat := 0
  /-- the whole register clears on reading (RC) -/
  rc : Bool := false
  /-- LO half of a live 64-bit count: reading it latches the HI register four bytes above (R181) -/
  lo : Bool := false
  reset : Nat := 0
  writer : Writer := .any
  /-- what is stored, from the old value and the value written: fields that refuse a value keep their own -/
  fix : Nat → Nat → Nat := fun _ v => v

/-- The register definition an offset falls on. -/
def findReg (ds : List RegDef) (o : Nat) : Option RegDef :=
  ds.find? (fun d => decide (d.off ≤ o) && decide ((o - d.off) % d.stride = 0) && decide ((o - d.off) / d.stride < d.n))

def all32 : Nat := 0xFFFF_FFFF

def rRO (off : Nat) (reset : Nat := 0) : RegDef := { off, reset }
def rRW (off rw : Nat) (reset : Nat := 0) (writer : Writer := .any) : RegDef := { off, rw, reset, writer }
def rRC (off : Nat) : RegDef := { off, rc := true }
def rRCs (off n : Nat) (stride : Nat := 4) : RegDef := { off, n, stride, rc := true }
def r64 (off : Nat) : List RegDef := [{ off, lo := true }, { off := off + 4 }]

/-- Keep the field `[hi:lo]` of the old value unless `ok` accepts the new one. -/
def keepField (lo w : Nat) (ok : Nat → Bool) (old v : Nat) : Nat :=
  let f := (v >>> lo) % 2 ^ w
  if ok f then v else v - (f <<< lo) + (((old >>> lo) % 2 ^ w) <<< lo)

/-! ### Bases (R12, R47) -/

def cwBase (cl : Nat) : Nat := 0xF000_0000_0000 + cl * 0x1000_0000
def dieBase (d : Nat) : Nat := 0xF001_0000_0000 + d * 0x100_0000
def devBase : Nat := 0xF002_0000_0000

def scuRegs (cl u : Nat) : Nat := cwBase cl + 0x1_0000 + u * 0x2000 + 0x1000
def mvRegs (cl m : Nat) : Nat := cwBase cl + 0x2_0000 + m * 0x2000 + 0x1000
def puRegs (cl : Nat) : Nat := cwBase cl + 0x3_1000
def doseRegs : Nat := cwBase 0 + 0x3_8000
def rlRegs (cl : Nat) : Nat := cwBase cl + 0x4_0000
def cvuRegs (cl n : Nat) : Nat := cwBase cl + 0x5_0000 + n * 0x1000
def dldRegs (cl : Nat) : Nat := cwBase cl + 0x6_0000
def bpmRegs (cl : Nat) : Nat := cwBase cl + 0x7_0000
/-- counters of forwarding pipeline FPk (R426) -/
def fpRegs (k : Nat) : Nat := cwBase (k / 4) + 0x7_8000 + (k % 4) * 0x100
/-- the 16 KiB block of OEk (R394) -/
def oeRegs (k : Nat) : Nat := cwBase (k / 4) + 0x8_0000 + (k % 4) * 0x4000
/-- PORT_CFG of the port whose first lane is `l`, and LG_CFG of lane group `g` -/
def portRegs (l : Nat) : Nat := oeRegs (l / 32) + 0x100 + 16 * (l % 32)
def lgRegs (g : Nat) : Nat := oeRegs (g / 4) + 4 * (g % 4)
def laneRegs (l : Nat) : Nat := oeRegs (l / 32) + 0x1000 + (l % 32) * 0x80
def oeEngineRegs (k : Nat) : Nat := oeRegs k + 0x2000
def semRegs (cl : Nat) : Nat := cwBase cl + 0x10_0000
def schedBase (cl : Nat) : Nat := cwBase cl + 0x40_0000
/-- scheduling registers of the queue of class `c` of the port at lane `l`; of that port; of its policer (R442) -/
def queueRegs (l c : Nat) : Nat := schedBase (l / 128) + ((l % 128) * 8 + c) * 0x40
def portSched (l : Nat) : Nat := schedBase (l / 128) + 0x1_0000 + (l % 128) * 0x20
def policerRegs (l c : Nat) : Nat := schedBase (l / 128) + 0x2_0000 + ((l % 128) * 8 + c) * 0x20
def wheelRegs (k : Nat) : Nat := schedBase (k / 4) + 0x3_0000 + (k % 4) * 0x100
def tileRegs (cl p : Nat) : Nat := dieBase (cl / 2) + 0x10_0000 + (cl % 2) * 0x1_0000 + p * 0x1000
def memRegs (d : Nat) : Nat := dieBase d + 0x20_0000
def gsRegs (cl g : Nat) : Nat := dieBase (cl / 2) + 0x40_0000 + (cl % 2) * 0x10_0000 + g * 0x100
def ftRegs (d : Nat) : Nat := dieBase d + 0x80_0000
def tftRegs (cl : Nat) : Nat := dieBase (cl / 2) + 0xC0_0000 + (cl % 2) * 0x1_0000
/-- priority flow control registers of the port at lane `l` (R472) -/
def pfcRegs (l : Nat) : Nat := tftRegs (l / 128) + 0x8000 + (l % 128) * 0x10
def rgRegs (r : Nat) : Nat := dieBase (r / 2) + 0xE0_0000 + (r % 2) * 0x1000
def tftDev : Nat := devBase + 0x10_0000
def hsRegs : Nat := devBase + 0x18_0000
def evtRegs : Nat := devBase + 0x20_0000
def errRegs : Nat := devBase + 0x30_0000
/-- record window of the error block (R548) -/
def errWindow : Nat := errRegs + 0x4_0000
def hlRegs : Nat := devBase + 0x38_0000
def bootRegs : Nat := devBase + 0x40_0000
def sigRegs : Nat := devBase + 0x48_0000

/-! ### Register lists, one for each kind of block -/

/-- R72 -/
def queueDefs : List RegDef :=
  [rRW 0 0x1F61, rRO 4 4, rRO 8, rRO 0xC, rRO 0x10, rRO 0x14, rRW 0x18 0xFFFF_FFE0, rRW 0x1C 0xFFFF,
   rRO 0x20, rRO 0x24, rRO 0x28, rRW 0x2C all32, rRW 0x30 all32 1, { off := 0x34, lo := true }, rRO 0x38, rRC 0x3C,
   rRO 0x40,
   { off := 0x100, n := 16, stride := 16, rw := all32 }, { off := 0x104, n := 16, stride := 16, rw := 0xFFFF },
   { off := 0x108, n := 16, stride := 16, rw := 0xFFF_FFFF }, { off := 0x10C, n := 16, stride := 16, rw := 0xFFF_FFFF }]

/-- R150: FPSTAT; R296 -/
def scuDefs : List RegDef :=
  [{ off := 0, w1c := 0x1F }, rRO 4, rRW 8 all32 0, rRW 0xC all32 0x100] ++ r64 0x10 ++ [rRO 0x18, rRC 0x1C] ++
  r64 0x20 ++ r64 0x28 ++ r64 0x30 ++ r64 0x38

/-- R220, R249 -/
def mvDefs : List RegDef :=
  [rRO 0, rRO 4, rRO 8, rRO 0xC] ++ r64 0x10 ++ r64 0x18 ++ [rRC 0x20, rRCs 0x40 8] ++ r64 0x60 ++ r64 0x68

/-- R150, R387 -/
def puDefs : List RegDef :=
  [{ off := 0, w1c := 0x1F }, rRO 4, rRO 8, rRC 0xC, rRC 0x10, rRC 0x14, rRO 0x18, rRO 0x1C] ++
  r64 0x20 ++ r64 0x28 ++ r64 0x30 ++ r64 0x38

/-- R388 -/
def doseDefs : List RegDef :=
  [rRO 0, rRC 4, rRC 8, rRW 0x10 0xFFFF_FFC0, rRW 0x14 0xFFFF, rRW 0x18 all32, rRO 0x1C, rRO 0x20] ++ r64 0x24

/-- R326 -/
def rlDefs : List RegDef :=
  [rRO 0, rRO 4 0x6_0000, rRO 8, rRO 0xC, rRO 0x10, rRC 0x14] ++ r64 0x18 ++ [rRCs 0x20 8] ++ r64 0x40 ++ r64 0x48 ++ r64 0x50

/-- R469 -/
def cvuDefs : List RegDef :=
  [{ off := 0, rw := 0xF, fix := fun o v => keepField 2 2 (fun f => decide (f < 3)) o v }, rRO 4, rRO 8, rRW 0xC all32, rRO 0x10, rRO 0x14, rRO 0x18, rRW 0x1C all32] ++ r64 0x20 ++
  [rRW 0x28 all32, rRW 0x2C all32]

/-- R111 -/
def dldDefs : List RegDef :=
  [rRW 0 0xFFFF_0001 0x0100_0001, { off := 4, w1c := 3 }, rRO 8, rRO 0xC, rRC 0x10, { off := 0x40, n := 16 },
   rRO 0x100, { off := 0x200, n := 128 }, { off := 0x400, n := 128, w1c := all32 }, rRO 0x600,
   { off := 0x800, n := 128, rw := all32 }]

/-- R425 -/
def bpmDefs : List RegDef :=
  [rRO 0, rRW 4 all32 0x0C06_0402, rRW 8 0xFFFF 0x0404, rRW 0xC 2 2, rRW 0x10 all32 0x4000, { off := 0x20, n := 6 },
   { off := 0x40, n := 6 }, rRO 0x60 131072, rRCs 0x70 4, rRW 0x100 0x1FFF, rRW 0x104 all32, rRW 0x108 all32,
   rRW 0x10C all32, rRW 0x110 0x1_FFFF, rRW 0x114 0xF_FFFF 4096, rRW 0x118 all32 0x4000_0000, rRO 0x11C, rRO 0x120,
   rRC 0x124, rRC 0x128, rRC 0x12C, { off := 0x130, w1c := 2 }]

/-- R426, with the class maps of R403 -/
def fpDefs : List RegDef :=
  r64 0 ++ r64 8 ++ [rRCs 0x10 11] ++ r64 0x40 ++ [rRC 0x48, rRW 0x80 0x7777_7777, { off := 0xA0, n := 8, rw := 0x7777_7777 }]

/-- R394 and R623 -/
def oeDefs : List RegDef :=
  [{ off := 0, n := 4, rw := 3, writer := .mcOnly },
   { off := 0x100, n := 32, stride := 16, rw := 0x7FFF_000F, reset := 1522 * 65536, writer := .mcOnly,
     fix := fun o v => keepField 16 15 (fun f => decide (64 ≤ f ∧ f ≤ 16384)) o (keepField 1 2 (fun f => decide (f < 2)) o v) },
   { off := 0x104, n := 32, stride := 16, rw := 0x1_FFFF, reset := 1,
     fix := fun o v => keepField 15 2 (fun f => decide (f < 3)) o v },
   { off := 0x1000, n := 32, stride := 0x80 }, { off := 0x1004, n := 32, stride := 0x80, rw := 1 },
   { off := 0x1008, n := 32, stride := 0x80 }, { off := 0x100C, n := 32, stride := 0x80 },
   { off := 0x1010, n := 32, stride := 0x80, lo := true }, { off := 0x1014, n := 32, stride := 0x80 },
   { off := 0x1018, n := 32, stride := 0x80, lo := true }, { off := 0x101C, n := 32, stride := 0x80 },
   { off := 0x1020, n := 32, stride := 0x80, rc := true },
   { off := 0x1024, n := 32, stride := 0x80, rw := 0x3FFF_FF03, reset := 0x1800_0001,
     fix := fun o v => keepField 0 2 (fun f => decide (f < 3)) o v },
   { off := 0x1028, n := 32, stride := 0x80, lo := true }, { off := 0x102C, n := 32, stride := 0x80 }] ++
  (List.range 15).map (fun i => { off := 0x1034 + 4 * i, n := 32, stride := 0x80, rc := true }) ++
  [rRO 0x2000, rRO 0x2004, { off := 0x2010, n := 4 }]

/-- R442: queue, port, policer, wheel -/
def schedQueueDefs : List RegDef :=
  [{ off := 0, rw := 0xFFFF_FF0F, reset := 2048 * 256, fix := fun o v => keepField 8 24 (fun f => decide (f ≠ 0)) o v },
   rRW 4 all32, rRW 8 0xFF_FFFF 16384, rRW 0xC 0x3FF_FFFF 262144, rRO 0x10, rRO 0x14, rRO 0x18, rRC 0x1C] ++ r64 0x20 ++ r64 0x28

def schedPortDefs : List RegDef :=
  [rRW 0 0xFF03 0x1400, rRW 4 all32, rRW 8 0xFF_FFFF 16384, rRO 0xC]

def policerDefs : List RegDef := [rRW 0 3, rRW 4 all32, rRW 8 0xFF_FFFF 16384, rRC 0xC] ++ r64 0x10

def wheelDefs : List RegDef :=
  [{ off := 0, rw := 0xF, reset := 4, fix := fun o v => keepField 0 4 (fun f => decide (f < 11)) o v }, rRC 4, rRO 8]

/-- R180 -/
def tileDefs : List RegDef :=
  [{ off := 0, w1c := 1 }, rRO 4, rRC 8, rRC 0xC, rRC 0x10] ++ r64 0x18 ++ r64 0x20 ++ r64 0x28 ++ r64 0x30

/-- R227 -/
def memDefs : List RegDef :=
  [{ off := 0, rw := 0x1F, reset := 4, writer := .pl0 }, rRW 4 1 1, rRC 8, rRC 0xC, rRO 0x10, rRO 0x20, rRCs 0x40 8, rRCs 0x60 8, rRCs 0x80 8]

/-- R355 -/
def gsDefs : List RegDef :=
  [rRO 0, rRO 4, rRO 8 all32, rRW 0xC 2, { off := 0x10, w1c := 1 }, rRW 0x14 all32, rRO 0x18, rRO 0x1C, rRO 0x20, rRO 0x24,
   rRW 0x28 0xFFFF, rRO 0x2C, rRO 0x30, rRO 0x34, rRC 0x38, rRC 0x3C, rRC 0x40, rRC 0x44, rRO 0x48, rRO 0x4C, rRO 0x50,
   rRO 0x54, rRO 0x58] ++ r64 0x60

/-- R400 -/
def ftDefs : List RegDef :=
  [rRW 0 0xFF_FFFF, rRO 4, rRW 8 all32 all32, { off := 0x20, n := 8, rw := all32 }]

/-- R471 and R472 -/
def tftDefs : List RegDef :=
  [rRCs 0 11] ++ r64 0x30 ++ r64 0x38 ++
  [rRW 0x100 0x3F_FFFF, rRO 0x104, rRO 0x108, rRO 0x10C, rRO 0x110, rRO 0x114,
   { off := 0x8000, n := 128, stride := 16, rw := 0xFFFF },
   { off := 0x8004, n := 128, stride := 16, rw := 0x3FF_FFFF, reset := 0x10_0000 },
   { off := 0x8008, n := 128, stride := 16, rw := 0x3FF_FFFF, reset := 0x08_0000 },
   { off := 0x800C, n := 128, stride := 16, rc := true }]

/-- R624 -/
def rgDefs : List RegDef :=
  [rRO 0, { off := 4, rw := 0x3F, writer := .pl0, fix := fun o v => keepField 0 6 (fun f => decide (f ≤ 32)) o v }, rRO 8 750,
   { off := 0xC, rw := 0xFF, writer := .mcOnly, fix := fun o v => keepField 0 8 (fun f => decide (f ≤ 25 ∨ 231 ≤ f)) o v },
   rRO 0x10 (840 * 4096), rRO 0x14, rRO 0x18, rRO 0x1C,
   { off := 0x20, rw := 0xFFF, reset := 500, writer := .pl0, fix := fun o v => keepField 0 12 (fun f => decide (1 ≤ f ∧ f ≤ 500)) o v },
   rRC 0x24] ++ r64 0x28

/-- R470 -/
def tftDevDefs : List RegDef :=
  [rRW 0 0xFFFF, rRW 4 0xFFFF_FFE0, rRW 8 0xFFFF, rRW 0xC 0xFF_FFFF, { off := 0x100, n := 16, rw := all32 }]

/-- R491 -/
def hsDefs : List RegDef :=
  [rRO 0, rRO 4, rRO 8, { off := 0xC, rw := 0xFF, reset := 8, fix := fun o v => keepField 0 8 (fun f => decide (f ≠ 0)) o v },
   rRW 0x10 0xFFFF_FFF8, rRW 0x14 0xFFFF, rRW 0x18 0x1_FFFF, rRCs 0x20 6,
   { off := 0x100, n := 9, stride := 0x20, rw := 0xF, writer := .mcOnly, fix := fun o v => keepField 0 4 (fun f => decide (f < 9)) o v },
   { off := 0x104, n := 9, stride := 0x20, rw := 0x3FF_03FF, writer := .mcOnly },
   { off := 0x108, n := 9, stride := 0x20, rw := 0x3FF_03FF, writer := .mcOnly },
   { off := 0x10C, n := 9, stride := 0x20, rw := 0x3FF_03FF, writer := .mcOnly },
   { off := 0x110, n := 9, stride := 0x20, rw := 0x3FF_03FF, writer := .mcOnly }]

/-- R526, with the rings of R499 and R501 -/
def evtDefs : List RegDef :=
  [rRO 0, rRO 4, rRC 8, rRC 0xC, rRC 0x10, rRC 0x14, rRC 0x18, rRW 0x20 all32 0x1000_0000 .pl0, rRO 0x24, rRC 0x28, rRC 0x2C,
   rRW 0x30 1 0 .pl0, rRW 0x34 0xFF_FFFF 0 .pl0,
   { off := 0x100, n := 18, stride := 0x20, rw := 0xFFFF_FFC0 }, { off := 0x104, n := 18, stride := 0x20, rw := 0xFFFF },
   { off := 0x108, n := 18, stride := 0x20, rw := 0x11F }, { off := 0x10C, n := 18, stride := 0x20 },
   { off := 0x110, n := 18, stride := 0x20 }, { off := 0x114, n := 18, stride := 0x20 },
   { off := 0x118, n := 18, stride := 0x20, rc := true }, { off := 0x11C, n := 18, stride := 0x20, rw := 0x1_FFFF }]

/-- R548 -/
def errDefs : List RegDef :=
  [rRO 0, rRW 4 all32 0 .pl0, rRO 8, rRO 0xC, rRO 0x10, { off := 0x14, writer := .pl0 },
   { off := 0x18, rw := 0xF, reset := 2, writer := .pl0, fix := fun o v => keepField 0 4 (fun f => decide (1 ≤ f ∧ f ≤ 8)) o v },
   rRO 0x1C, rRCs 0x100 32, rRCs 0x180 32, rRCs 0x200 32]

/-- R569 -/
def hlDefs : List RegDef :=
  [rRW 0 3 3 .pl0,
   { off := 4, rw := all32, reset := 0x40_0000, writer := .pl0, fix := fun o v => keepField 0 32 (fun f => decide (f ≠ 0)) o v },
   { off := 8, rw := 0xFFFF_00FF, reset := 64 * 65536 + 8, writer := .pl0, fix := fun o v => keepField 16 16 (fun f => decide (f ≠ 0)) o v },
   { off := 0xC, rw := all32, reset := 256 * 65536 + 64, writer := .pl0,
     fix := fun o v => keepField 16 16 (fun f => decide (v % 65536 ≤ f)) o v },
   { off := 0x10, rw := 0xFF0F, reset := 16 * 256 + 4, writer := .pl0, fix := fun o v => keepField 0 4 (fun f => decide (f ≠ 0)) o v },
   rRO 0x14, rRO 0x18, { off := 0x20, n := 8 }, rRCs 0x40 8, rRW 0x60 all32 0 .pl0, rRO 0x64, rRO 0x68, rRO 0x6C,
   { off := 0x70, writer := .pl0 }, rRC 0x80] ++ r64 0x88

/-- R590, R580 -/
def bootDefs : List RegDef :=
  [rRO 0, rRO 4, { off := 8, writer := .pl0 }, rRO 0xC, rRO 0x10, { off := 0x14, writer := .pl0 }, rRO 0x18, rRO 0x20, rRO 0x24 4,
   rRO 0x28, rRC 0x2C, { off := 0x40, n := 16 }, rRW 0x100 0x3FF 0 .pl0, rRO 0x104, { off := 0x1000, n := 128 }]

/-- R625 -/
def sigDefs : List RegDef :=
  [rRO 0 0xF00, rRW 4 0xFF 0xFF .pl0,
   { off := 8, rw := 0xFFFF, reset := 105 * 256 + 95, writer := .pl0,
     fix := fun o v => keepField 0 8 (fun f => decide (60 ≤ f ∧ f ≤ 105)) o (keepField 8 8 (fun f => decide (60 ≤ f ∧ f ≤ 105)) o v) },
   rRCs 0x40 8]

/-- UPTIME (R46) -/
def uptimeDefs : List RegDef := r64 0x10

/-! ### Blocks -/

/-- What an MMIO address belongs to: the block's base address and its register list. -/
structure Block where
  base : Nat
  defs : List RegDef

/-- The block of an offset into a cluster window (R52); `none` where the window is unmapped. -/
def clusterBlock (cl o : Nat) : Option Block :=
  let b := cwBase cl
  if o < 0x9000 then some ⟨b + o / 0x1000 * 0x1000, queueDefs⟩
  else if o < 0x1_0000 then none
  else if o < 0x2_0000 then
    let u := b + o / 0x2000 * 0x2000
    if o % 0x2000 < 0x1000 then some ⟨u, queueDefs⟩ else some ⟨u + 0x1000, scuDefs⟩
  else if o < 0x3_0000 then
    let u := b + o / 0x2000 * 0x2000
    if o % 0x2000 < 0x1000 then some ⟨u, queueDefs⟩ else some ⟨u + 0x1000, mvDefs⟩
  else if o < 0x4_0000 then
    if o < 0x3_1000 then some ⟨b + 0x3_0000, queueDefs⟩
    else if o < 0x3_8000 then some ⟨b + 0x3_1000, puDefs⟩
    else some ⟨b + 0x3_8000, if cl = 0 then doseDefs else []⟩
  else if o < 0x5_0000 then some ⟨b + 0x4_0000, rlDefs⟩
  else if o < 0x6_0000 then some ⟨b + o / 0x1000 * 0x1000, cvuDefs⟩
  else if o < 0x7_0000 then some ⟨b + 0x6_0000, dldDefs⟩
  else if o < 0x8_0000 then
    if o < 0x7_8000 then some ⟨b + 0x7_0000, bpmDefs⟩
    else if o < 0x7_8400 then some ⟨b + o / 0x100 * 0x100, fpDefs⟩ else some ⟨b + 0x7_8400, []⟩
  else if o < 0x9_0000 then some ⟨b + o / 0x4000 * 0x4000, oeDefs⟩
  else if o < 0x10_0000 then none
  else if o < 0x10_4000 then some ⟨b + 0x10_0000, [{ off := 0, n := 4096, rw := all32 }]⟩
  else if o < 0x20_0000 then none
  else if o < 0x30_0000 then some ⟨b + 0x20_0000, []⟩
  else if o < 0x40_0000 then none
  else if o < 0x80_0000 then
    if o < 0x41_0000 then some ⟨b + o / 0x40 * 0x40, schedQueueDefs⟩
    else if o < 0x42_0000 then (if o < 0x41_1000 then some ⟨b + o / 0x20 * 0x20, schedPortDefs⟩ else some ⟨b + 0x41_1000, []⟩)
    else if o < 0x43_0000 then (if o < 0x42_8000 then some ⟨b + o / 0x20 * 0x20, policerDefs⟩ else some ⟨b + 0x42_8000, []⟩)
    else if o < 0x43_0400 then some ⟨b + o / 0x100 * 0x100, wheelDefs⟩ else some ⟨b + 0x43_0400, []⟩
  else if o < 0x100_0000 then none
  else if o < 0x200_0000 then some ⟨b + o / 0x1000 * 0x1000, queueDefs⟩
  else none

/-- The block of an offset into a die block; the sizes of the blocks are the model's (log entry 9). -/
def dieBlock (d o : Nat) : Option Block :=
  let b := dieBase d
  if o < 0x10_0000 then none
  else if o < 0x12_0000 then
    if (o - 0x10_0000) % 0x1_0000 < 0x9000 then some ⟨b + o / 0x1000 * 0x1000, tileDefs⟩ else none
  else if o < 0x20_0000 then none
  else if o < 0x20_1000 then some ⟨b + 0x20_0000, memDefs⟩
  else if o < 0x40_0000 then none
  else if o < 0x60_0000 then some ⟨b + o / 0x100 * 0x100, gsDefs⟩
  else if o < 0x80_0000 then none
  else if o < 0x80_1000 then some ⟨b + 0x80_0000, ftDefs⟩
  else if o < 0xC0_0000 then none
  else if o < 0xC2_0000 then some ⟨b + o / 0x1_0000 * 0x1_0000, tftDefs⟩
  else if o < 0xE0_0000 then none
  else if o < 0xE0_2000 then some ⟨b + o / 0x1000 * 0x1000, rgDefs⟩
  else none

/-- The block of an offset into the device block. -/
def deviceBlock (o : Nat) : Option Block :=
  if o < 0x1000 then some ⟨devBase, uptimeDefs⟩
  else if o < 0x10_0000 then none
  else if o < 0x10_1000 then some ⟨tftDev, tftDevDefs⟩
  else if o < 0x18_0000 then none
  else if o < 0x18_1000 then some ⟨hsRegs, hsDefs⟩
  else if o < 0x20_0000 then none
  else if o < 0x20_1000 then some ⟨evtRegs, evtDefs⟩
  else if o < 0x30_0000 then none
  else if o < 0x34_0000 then some ⟨errRegs, errDefs⟩
  else if o < 0x38_0000 then some ⟨errWindow, [{ off := 0, n := 65536 }]⟩
  else if o < 0x38_1000 then some ⟨hlRegs, hlDefs⟩
  else if o < 0x40_0000 then none
  else if o < 0x40_2000 then some ⟨bootRegs, bootDefs⟩
  else if o < 0x48_0000 then none
  else if o < 0x48_1000 then some ⟨sigRegs, sigDefs⟩
  else none

/-- Is the address inside an MMIO window, die block or the device block of R47? -/
def isMmio (a : Nat) : Bool :=
  (decide (0xF000_0000_0000 ≤ a) && decide (a < 0xF000_8000_0000)) ||
  (decide (0xF001_0000_0000 ≤ a) && decide (a < 0xF001_0400_0000)) ||
  (decide (0xF002_0000_0000 ≤ a) && decide (a < 0xF002_0400_0000))

/-- The block an MMIO address belongs to; `none`: unmapped. -/
def blockOf (a : Nat) : Option Block :=
  if 0xF000_0000_0000 ≤ a ∧ a < 0xF000_8000_0000 then
    clusterBlock ((a - 0xF000_0000_0000) / 0x1000_0000) ((a - 0xF000_0000_0000) % 0x1000_0000)
  else if 0xF001_0000_0000 ≤ a ∧ a < 0xF001_0400_0000 then
    dieBlock ((a - 0xF001_0000_0000) / 0x100_0000) ((a - 0xF001_0000_0000) % 0x100_0000)
  else if 0xF002_0000_0000 ≤ a ∧ a < 0xF002_0400_0000 then deviceBlock (a - 0xF002_0000_0000)
  else none

/-- The definition of the register at an address. -/
def regDef (a : Nat) : Option RegDef :=
  match blockOf a with
  | none => none
  | some b => findReg b.defs (a - b.base)

/-- What a register that nothing has changed holds. -/
def regReset (a : Nat) : W32 :=
  match regDef a with
  | none => 0
  | some d => BitVec.ofNat 32 d.reset

end Sys2Proof.Machine
end

