-- ==== Sys2Proof/Machine/Ops.lean ====
section
/-! DEFINITION. The named operations over registers, memory, error records, event rings, rights, queues and
signals that every family of commands is written with. -/

namespace Sys2Proof.Machine

/-! ### Bits and bytes (R14, R15) -/

/-- Field `[lo + w - 1 : lo]` of a number. -/
def bitsOf (v lo w : Nat) : Nat := (v >>> lo) % 2 ^ w

/-- Field of a word of bits. -/
def fld {n : Nat} (v : BitVec n) (lo w : Nat) : Nat := bitsOf v.toNat lo w

def bitOf {n : Nat} (v : BitVec n) (i : Nat) : Bool := v.getLsbD i

/-- `n` bytes, lowest first (R15). -/
def leBytes (n v : Nat) : List Byte :=
  match n with
  | 0 => []
  | k + 1 => BitVec.ofNat 8 v :: leBytes k (v / 256)

/-- The number that bytes hold, lowest first. -/
def leNat (bs : List Byte) : Nat :=
  match bs with
  | [] => 0
  | b :: r => b.toNat + 256 * leNat r

/-- `n` bytes, highest first. -/
def beBytes (n v : Nat) : List Byte := (leBytes n v).reverse

def beNat (bs : List Byte) : Nat := leNat bs.reverse

/-- The bytes `[o, o + n)` of a list, as a little-endian number. -/
def leAt (bs : List Byte) (o n : Nat) : Nat := leNat ((bs.drop o).take n)

def beAt (bs : List Byte) (o n : Nat) : Nat := beNat ((bs.drop o).take n)

/-- Two's complement of a `w`-bit field. -/
def sext (w v : Nat) : Int := if v < 2 ^ (w - 1) then (v : Int) else (v : Int) - (2 : Int) ^ w

/-- `m` bytes rounded up to a multiple of `k`. -/
def roundUp (k m : Nat) : Nat := (m + k - 1) / k * k

def cdiv (a b : Nat) : Nat := (a + b - 1) / b

def boolNat (b : Bool) : Nat := if b then 1 else 0

/-- The list without the element at a place. -/
def removeAt {α : Type} (l : List α) (i : Nat) : List α := l.eraseIdx i

/-- The list with the element at place `i` replaced; unchanged beyond its end. -/
def setAt {α : Type} (l : List α) (i : Nat) (v : α) : List α := l.set i v

/-! ### Plain registers (R19, R20, R23) -/

def getReg (s : State) (a : Nat) : W32 := mget (regReset a) s.regs a

def setReg (a : Nat) (v : W32) (s : State) : State := { s with regs := mput (regReset a) s.regs a v }

/-- A counter of 32 bits that saturates. -/
def bumpSat (a n : Nat) (s : State) : State :=
  setReg a (BitVec.ofNat 32 (Nat.min all32 ((getReg s a).toNat + n))) s

/-- A counter of 32 bits that wraps (R23). -/
def bumpWrap (a n : Nat) (s : State) : State := setReg a (getReg s a + BitVec.ofNat 32 n) s

/-- Replace field `[lo + w - 1 : lo]` of a plain register. -/
def setField (a lo w v : Nat) (s : State) : State :=
  let o := (getReg s a).toNat
  setReg a (BitVec.ofNat 32 (o - (bitsOf o lo w <<< lo) + ((v % 2 ^ w) <<< lo))) s

def regField (s : State) (a lo w : Nat) : Nat := fld (getReg s a) lo w

/-- A 64-bit count, by the address of its LO register. -/
def getCtr (s : State) (a : Nat) : W64 := mget 0 s.ctr64 a

def setCtr (a : Nat) (v : W64) (s : State) : State := { s with ctr64 := mput 0 s.ctr64 a v }

/-- 64-bit counts wrap (R181). -/
def addCtr (a n : Nat) (s : State) : State := setCtr a (getCtr s a + BitVec.ofNat 64 n) s

/-! ### Queues, counters and contexts by their keys -/

def qkey (cl qid : Nat) : Nat := cl * 8192 + qid

def getQ (s : State) (cl qid : Nat) : Queue := mget Queue.reset s.queues (qkey cl qid)

def setQ (cl qid : Nat) (q : Queue) (s : State) : State :=
  { s with queues := mput Queue.reset s.queues (qkey cl qid) q }

def modQ (cl qid : Nat) (f : Queue → Queue) (s : State) : State := setQ cl qid (f (getQ s cl qid)) s

/-- R112: the QIDs that name a queue. -/
def validQid (qid : Nat) : Bool := decide (qid < 0x1A) || (decide (0x1000 ≤ qid) && decide (qid < 0x2000))

/-- ENG code of a queue (R85, R112). -/
def engOf (qid : Nat) : Nat := if qid < 0x1000 then qid else 26

def getSem (s : State) (cl n : Nat) : Sem := mget Sem.reset s.sems (cl * 4096 + n)

def setSem (cl n : Nat) (v : Sem) (s : State) : State := { s with sems := mput Sem.reset s.sems (cl * 4096 + n) v }

def getCtx (s : State) (c : Nat) : Ctx := mget Ctx.reset s.ctxs c

def setCtx (c : Nat) (x : Ctx) (s : State) : State := { s with ctxs := mput Ctx.reset s.ctxs c x }

def getRing (s : State) (r : Nat) : Ring := mget Ring.reset s.rings r

def setRing (r : Nat) (x : Ring) (s : State) : State := { s with rings := mput Ring.reset s.rings r x }

/-- DLD_SCOPE bit of a counter (R107). -/
def scopeBit (s : State) (cl n : Nat) : Bool := bitOf (getReg s (dldRegs cl + 0x800 + 4 * (n / 32))) (n % 32)

/-! ### The address map of memory (R47, R48, R193, R198, R202) -/

/-- A place of the memory part of the map. -/
inductive Region where
  | tile (cl p : Nat)
  | pktBuf (cl : Nat)
  | store (cl : Nat)
  | scuStore (cl u : Nat)
  | bonded (d : Nat)
  | lpddr (d ch : Nat)
  deriving DecidableEq, Repr

/-- The physical tile of a logical position; 9 when none is behind it. -/
def tileOf (s : State) (cl p : Nat) : Nat := mget p s.tilePhys (cl * 9 + p)

/-- A tile position is fused off in this grade (R2, R5, R115). -/
def fusedOff (s : State) (p : Nat) : Bool := decide (s.part.grade = .b) && (decide (p = 6) || decide (p = 7))

/-- UNIT word of R539: TYPE, CL (with CLV), DIE, INDEX. -/
def unitCl (ty cl idx : Nat) : W32 :=
  BitVec.ofNat 32 (ty + cl * 256 + 0x800 + (cl / 2) * 0x1000 + idx * 0x4000)

def unitDie (ty d idx : Nat) : W32 := BitVec.ofNat 32 (ty + d * 0x1000 + idx * 0x4000)

def isOffline (s : State) (u : W32) : Bool := s.err.offline.contains u

/-- R113: no engine behind the queue: fused off, without a physical tile, or OFFLINE (R538). -/
def absent (s : State) (cl eng : Nat) : Bool :=
  if eng < 9 then fusedOff s eng || decide (tileOf s cl eng = 9)
  else if eng < 17 then isOffline s (unitCl 2 cl (eng - 9))
  else if eng < 25 then isOffline s (unitCl 3 cl (eng - 17))
  else if eng = 25 then isOffline s (unitCl 4 cl 0)
  else false

/-- OVF_GIB of a die (R227). -/
def ovfGib (s : State) (d : Nat) : Nat := regField s (memRegs d) 0 5

/-- Gibibytes on each LPDDR6 channel of a die, as trained (R49, R227). -/
def lpdGib (s : State) (d : Nat) : Nat :=
  match regField s (memRegs d + 0x20) 2 2 with
  | 0 => 0
  | 1 => 16
  | 2 => 32
  | _ => 64

/-- Where a memory address lies; `none`: unmapped, or not memory. -/
def regionOf (s : State) (a : Nat) : Option Region :=
  if a < 0x4000_0000 then
    let t := a / 0x100_0000
    if absent s (t / 8) (t % 8) then none else some (.tile (t / 8) (t % 8))
  else if a < 0x5000_0000 then some (.pktBuf ((a - 0x4000_0000) / 0x200_0000))
  else if a < 0x5C00_0000 then some (.store ((a - 0x5000_0000) / 0x180_0000))
  else if a < 0x6000_0000 then
    some (.scuStore ((a - 0x5C00_0000) / 0x80_0000) ((a - 0x5C00_0000) % 0x80_0000 / 0x10_0000))
  else if 0x0100_0000_0000 ≤ a ∧ a < 0x0180_0000_0000 then
    let d := (a - 0x0100_0000_0000) / 0x20_0000_0000
    if (a - 0x0100_0000_0000) % 0x20_0000_0000 < 80 * 2 ^ 30 then some (.bonded d) else none
  else if 0x1000_0000_0000 ≤ a ∧ a < 0x1200_0000_0000 then
    let d := (a - 0x1000_0000_0000) / 0x80_0000_0000
    let o := (a - 0x1000_0000_0000) % 0x80_0000_0000
    if o < 8 * lpdGib s d * 2 ^ 30 then some (.lpddr d (8 * d + bitsOf o 8 3)) else none
  else none

/-- Is the address in the overflow area of its stack (R198)? -/
def inOverflow (s : State) (a : Nat) : Bool :=
  match regionOf s a with
  | some (.bonded d) => decide ((80 - ovfGib s d) * 2 ^ 30 ≤ (a - 0x0100_0000_0000) % 0x20_0000_0000)
  | _ => false

/-- The next address, above `a`, at which the map can change: every boundary of R47, R48, R49 and R198 is a
multiple of 1 MiB, so an extent is judged one MiB at a time. -/
def nextMib (a : Nat) : Nat := (a / 0x10_0000 + 1) * 0x10_0000

/-- Every byte of `[a, a + len)` satisfies `p`, for a `p` that is constant on each aligned MiB; `fuel` is the
number of MiB looked at. -/
def extentAll (p : Nat → Bool) (fuel a len : Nat) : Bool :=
  match fuel with
  | 0 => decide (len = 0)
  | k + 1 =>
    if len = 0 then true
    else p a && (if a + len ≤ nextMib a then true else extentAll p k (nextMib a) (a + len - nextMib a))

def mibCount (a len : Nat) : Nat := (a + len) / 0x10_0000 - a / 0x10_0000 + 1

/-- Every byte is mapped memory (not MMIO). -/
def memMapped (s : State) (a len : Nat) : Bool :=
  extentAll (fun x => (regionOf s x).isSome) (mibCount a len) a len

/-- Some byte lies where R194 closes memory to all but the switch core: packet buffer, store, overflow area. -/
def closedRegion (s : State) (a len : Nat) : Bool :=
  !extentAll (fun x =>
    match regionOf s x with
    | some (.pktBuf _) => false
    | some (.store _) => false
    | some (.bonded _) => !inOverflow s x
    | _ => true) (mibCount a len) a len

/-- The unit that holds an address, for its error records (R540). -/
def unitOfRegion (r : Region) : W32 :=
  match r with
  | .tile cl p => unitCl 0x0C cl p
  | .pktBuf cl => unitCl 0x0D cl 0
  | .store cl => unitCl 0x0E cl 0
  | .scuStore cl u => unitCl 0x0F cl u
  | .bonded d => unitDie 0x10 d 0
  | .lpddr d ch => unitDie 0x11 d ch

/-- In bonded DRAM and LPDDR6 the check word is the whole granule (R190, R205). -/
def granuleCheck (r : Region) : Bool :=
  match r with
  | .bonded _ => true
  | .lpddr _ _ => true
  | _ => false

/-! ### Jobs (R519, R529) -/

/-- The job that holds an engine queue; 0: none. Group queues are not part of a job (R523). -/
def jobOfQueue (s : State) (cl qid : Nat) : W16 :=
  if qid < 0x1A then
    match s.jobs.find? (fun j => if qid < 8 then bitOf (j.engines.getD cl 0) qid
        else if qid = 8 then false else bitOf (j.engines.getD cl 0) (qid - 1)) with
    | some j => j.id
    | none => 0
  else 0

/-- The job that holds a unit, for its records (R539). -/
def jobOfUnit (s : State) (u : W32) : W16 :=
  let cl := fld u 8 3
  let i := fld u 14 18
  match fld u 0 8 with
  | 1 => jobOfQueue s cl i
  | 2 => jobOfQueue s cl (9 + i)
  | 3 => jobOfQueue s cl (17 + i)
  | 4 => jobOfQueue s cl 25
  | _ => 0

/-- A data context granted to the job of a queue and open (R176, R629). -/
def ctxGranted (s : State) (cl qid c : Nat) : Bool :=
  let x := getCtx s c
  x.isOpen && !x.group && decide (x.job ≠ 0) && decide (x.job = jobOfQueue s cl qid)

/-- The group at a group queue. -/
def getGroup (s : State) (cl gq : Nat) : Group := mget Group.reset s.groups (cl * 4096 + gq)

def setGroup (cl gq : Nat) (g : Group) (s : State) : State :=
  { s with groups := mput Group.reset s.groups (cl * 4096 + gq) g }

def modGroup (cl gq : Nat) (f : Group → Group) (s : State) : State := setGroup cl gq (f (getGroup s cl gq)) s

/-- IFMT of the group that holds a group queue; `none`: no group holds it. -/
def groupFormat (s : State) (cl gq : Nat) : Option Nat :=
  if (getGroup s cl gq).held then some (getGroup s cl gq).ifmt else none

/-! ### Error records and events (R502, R503, R535-R546) -/

/-- The region whose readings a record of a unit takes: its cluster's, else the first of its die (R539). -/
def unitRegion (u : W32) : Nat := if bitOf u 11 then fld u 8 3 else 2 * fld u 12 2

/-- A report of a unit that arises now, without link, syndrome or queue. Its uptime is the count as it stands: R45 lets a unit
outside REF see one up to two REF edges old (DESIGN CHOICE, log entry 95). -/
def newReport (s : State) (u : W32) (kind opc : Nat) : Report :=
  { serial := 0, unit := u, opclass := BitVec.ofNat 8 opc, kind := BitVec.ofNat 8 kind, nested := false,
    conditional := false, cls := 0, reason := 0, uptime := s.uptime,
    temp := BitVec.ofNat 16 (regField s (rgRegs (unitRegion u) + 0x14) 0 16),
    volt := BitVec.ofNat 16 (regField s (rgRegs (unitRegion u) + 8) 16 12), job := jobOfUnit s u, qid := 0,
    linkTo := none, count := 1, addr := 0, syndrome := 0 }

/-- RIDX of the record a report became (R536). -/
def ridxOf (e : ErrBlock) (ser : Option Nat) : Option W32 :=
  match ser with
  | none => none
  | some n => (e.written.find? (fun p => decide (p.1 = n))).map (fun p => p.2)

/-- The 64 bytes of a record (R539). -/
def recordBits (ridx : W32) (r : Report) (coalesced : Bool) (link : Option W32) : BitVec 512 :=
  BitVec.ofNat 512 (ridx.toNat + r.unit.toNat <<< 32 + r.opclass.toNat <<< 64 + r.kind.toNat <<< 72 +
    (boolNat r.nested + 2 * boolNat coalesced + 4 * boolNat r.conditional + 8 * r.cls.toNat +
      32 * boolNat link.isSome) <<< 80 +
    r.reason.toNat <<< 88 + r.uptime.toNat <<< 96 + r.temp.toNat <<< 160 + r.volt.toNat <<< 176 + r.job.toNat <<< 192 +
    r.qid.toNat <<< 208 + (link.getD 0).toNat <<< 224 + r.count.toNat <<< 256 + r.addr.toNat <<< 288 +
    r.syndrome.toNat <<< 352)

/-- NEXT - ACK (R543). -/
def ErrBlock.used (e : ErrBlock) : Nat := (e.next - e.ack).toNat

def ErrBlock.full (e : ErrBlock) : Bool := decide (4096 ≤ e.used)

/-- The errors of some words, gone. -/
def clearFlaws (m : SMap (List Nat)) (ws : List Nat) : SMap (List Nat) := ws.foldl (fun m w => mdel m w) m

/-- Wrong bits of an 8-byte word with its check byte. -/
def flawsOf (s : State) (w : Nat) : List Nat := mget [] s.flaws w

/-- The 8-byte words of granule `g`. -/
def granWords (g : Nat) : List Nat := (List.range 8).map (fun i => 8 * g + i)

/-- The words of granule `g` that a write of `[a, a + len)` covers only in part. -/
def partWords (g a len : Nat) : List Nat :=
  (granWords g).filter (fun w =>
    (decide (a < 8 * w + 8) && decide (8 * w < a + len)) && !(decide (a ≤ 8 * w) && decide (8 * w + 8 ≤ a + len)))

/-- The granules that `[a, a + len)` touches. -/
def granules (a len : Nat) : List Nat :=
  if len = 0 then [] else (List.range ((a + len - 1) / 64 - a / 64 + 1)).map (fun i => a / 64 + i)

/-- Count an uncorrectable or corrected error in the counters of its tier (R227; the SRAM tiers have none). -/
def countError (r : Region) (ue : Bool) (s : State) : State :=
  match r with
  | .bonded d => bumpSat (memRegs d + (if ue then 0xC else 8)) 1 s
  | .lpddr d ch => bumpSat (memRegs d + (if ue then 0x60 else 0x40) + 4 * (ch % 8)) 1 s
  | _ => s

/-- The record of an uncorrectable error found in a granule (R204): its check symbols are not modelled, so
SYNDROME [71:0] is a free value, and the bytes in error are unknown (0xFF). -/
def ueReport (s : State) (r : Region) (g opc : Nat) : Report :=
  let rep := newReport s (unitOfRegion r) 1 opc
  { rep with addr := BitVec.ofNat 48 (64 * g),
             syndrome := BitVec.ofNat 128 ((Config.checkSymbols s.fresh).toNat + 0xFF <<< 72) }

def takeFresh (s : State) : State := { s with fresh := s.fresh + 1 }

/-- What a check code makes of the errors in what it covers (R203). `unseen`: it takes wrong data for right. -/
inductive CodeFinding where
  | clean | corrected | found | unseen
  deriving DecidableEq, Repr

/-- A code that corrects `fix` errors and detects `see`. What it makes of more is a free value (log entry 100). -/
def codeFinding (fix see n x : Nat) : CodeFinding :=
  if n = 0 then .clean
  else if n ≤ fix then .corrected
  else if n ≤ see then .found
  else if Config.codeSees x then .found else .unseen

/-- Bytes of a granule and its check bytes that hold an error. -/
def wrongBytes (s : State) (g : Nat) : Nat := ((granWords g).map (fun w => ((flawsOf s w).map (fun b => b / 8)).eraseDups.length)).sum

/-- What a check of the words `ws` of granule `g` finds, code word by code word (R190, R203): SECDED over each word in SRAM,
RS(72,64) over the granule in DRAM. -/
def checkCodes (r : Region) (g : Nat) (ws : List Nat) (s : State) : List (List Nat × CodeFinding) :=
  if granuleCheck r then [(granWords g, codeFinding 3 5 (wrongBytes s g) s.fresh)]
  else ws.map (fun w => ([w], codeFinding 1 2 (flawsOf s w).length (s.fresh + w)))

/-- The code words of a check with one finding. -/
def wordsWith (f : CodeFinding) (l : List (List Nat × CodeFinding)) : List Nat :=
  (l.filter (fun x => decide (x.2 = f))).flatMap (fun x => x.1)

/-- A word that is taken as it stands: its wrong bits are its data. -/
def flipWord (s : State) (w : Nat) : State :=
  (flawsOf s w).foldl (fun s b =>
    if b < 64 then
      let a := 8 * w + b / 8
      { s with mem := mput 0 s.mem a (mget 0 s.mem a ^^^ BitVec.ofNat 8 (2 ^ (b % 8))) }
    else s) s

/-- Three equal copies of a poison mark (R191). -/
def markCopies (b : Bool) : BitVec 3 := if b then 7 else 0

/-- The majority of three copies. -/
def majority (c : BitVec 3) : Bool :=
  (bitOf c 0 && bitOf c 1) || (bitOf c 0 && bitOf c 2) || (bitOf c 1 && bitOf c 2)

def granPoison (s : State) (g : Nat) : Bool := majority (mget 0 s.poison g)

/-- Poison marks with the mark of a granule set or cleared. -/
def putMark (p : SMap (BitVec 3)) (g : Nat) (b : Bool) : SMap (BitVec 3) := mput 0 p g (markCopies b)

/-- The errors of some words of a region are corrected, and counted once. -/
def correctWords (r : Region) (ws : List Nat) (s : State) : State :=
  if ws = [] then s else { countError r false s with flaws := clearFlaws s.flaws ws }

/-- Words that their codes take for right stand as their data from now on. -/
def passWords (ws : List Nat) (s : State) : State :=
  if ws = [] then s else takeFresh { ws.foldl flipWord s with flaws := clearFlaws s.flaws ws }

/-- Granule `g` is marked, its uncorrectable error counted (R204). -/
def markGranule (r : Region) (g : Nat) (s : State) : State :=
  takeFresh { countError r true s with flaws := clearFlaws s.flaws (granWords g), poison := putMark s.poison g true }

/-- An access looks at the check words `ws` of granule `g` (R203, R204): a correctable error is corrected and
counted, an uncorrectable one sets the poison mark, is counted, and is reported unless the granule was marked before. -/
def checkGranule (r : Region) (g : Nat) (ws : List Nat) (opc : Nat) (s : State) : State × List Report :=
  let l := checkCodes r g ws s
  let s := passWords (wordsWith .unseen l) (correctWords r (wordsWith .corrected l) s)
  if wordsWith .found l = [] then (s, [])
  else (markGranule r g s, if granPoison s g then [] else [ueReport s r g opc])

/-- R497: what the device does with a companion-held granule before it touches it: an Exclusive copy is
merged into memory with its poison, and the entry is dropped. -/
def recallOne (s : State) (e : Snoop) : State :=
  if e.exclusive then
    let a := 128 * e.granule
    let mem := ((e.data.take 128).foldl (fun (p : Memory × Nat) b => (mput 0 p.1 p.2 b, p.2 + 1)) (s.mem, a)).1
    let po := ((e.poison.take 2).foldl (fun (p : SMap (BitVec 3) × Nat) b => (putMark p.1 p.2 b, p.2 + 1)) (s.poison, a / 64)).1
    { s with mem := mem, poison := po, flaws := clearFlaws (clearFlaws s.flaws (granWords (a / 64))) (granWords (a / 64 + 1)) }
  else s

/-- Recall (for a write: or invalidate) every granule the companion holds of `[a, a + len)`. A read recalls
only the Exclusive ones. -/
def snoopRecall (write : Bool) (a len : Nat) (s : State) : State :=
  let hit := fun (e : Snoop) => decide (128 * e.granule < a + len) && decide (a < 128 * e.granule + 128) && (write || e.exclusive)
  let s' := (s.snoop.filter hit).foldl recallOne s
  { s' with snoop := s.snoop.filter (fun e => !hit e) }

/-- One byte of memory: what was last written, else the reset contents (log entry 3). -/
def memByte (s : State) (a : Nat) : Byte := mget 0 s.mem a

/-- OFFLINE bonded DRAM or LPDDR6 (R538). -/
def regionOffline (s : State) (r : Region) : Bool := granuleCheck r && isOffline s (unitOfRegion r)

/-- Read mapped memory: the bytes with the poison of their granules, and the reports of what was found. -/
def memRead (a len opc : Nat) (s : State) : List PByte × State × List Report :=
  let s := snoopRecall false a len s
  let (s, reps) := (granules a len).foldl (fun (p : State × List Report) g =>
    match regionOf p.1 (64 * g) with
    | none => p
    | some r => let (s', rs) := checkGranule r g (granWords g) opc p.1; (s', p.2 ++ rs)) (s, [])
  let bytes := (List.range len).map (fun i =>
    let x := a + i
    let off := match regionOf s x with
      | some r => regionOffline s r
      | none => false
    (memByte s x, granPoison s (x / 64) || off))
  (bytes, s, reps)

/-- Write to mapped memory (R205): bytes with the poison of what carries them. -/
def memWrite (a : Nat) (bs : List PByte) (s : State) : State × List Report :=
  let len := bs.length
  let s := snoopRecall true a len s
  (granules a len).foldl (fun (p : State × List Report) g =>
    let s := p.1
    let lo := Nat.max a (64 * g)
    let hi := Nat.min (a + len) (64 * g + 64)
    let mine := (bs.drop (lo - a)).take (hi - lo)
    match regionOf s (64 * g) with
    | none => p
    | some r =>
      if regionOffline s r then (countError r true s, p.2)
      else
        let whole := decide (hi - lo = 64)
        let (s, rs) := if whole then (s, []) else
          checkGranule r g (if granuleCheck r then granWords g else partWords g lo (hi - lo)) 2 s
        let mark := mine.any (fun b => b.2)
        let mem := (mine.foldl (fun (q : Memory × Nat) b => (mput 0 q.1 q.2 b.1, q.2 + 1)) (s.mem, lo)).1
        let po := putMark s.poison g (mark || (!whole && granPoison s g))
        let flaws := if whole then clearFlaws s.flaws (granWords g)
          else clearFlaws s.flaws ((granWords g).filter (fun w => decide (lo ≤ 8 * w) && decide (8 * w + 8 ≤ hi)))
        ({ s with mem := mem, poison := po, flaws := flaws }, p.2 ++ rs)) (s, [])

def clean (bs : List Byte) : List PByte := bs.map (fun b => (b, false))

def bytesOf (bs : List PByte) : List Byte := bs.map (fun b => b.1)

def anyPoison (bs : List PByte) : Bool := bs.any (fun b => b.2)

/-- An interrupt message with the ring's VEC, if ARM is 1 and the link is up (R498, R503). -/
def ringIrq (r : Nat) (s : State) : State :=
  let g := getRing s r
  if g.arm ∧ s.evtWidth ≠ 0 then { setRing r { g with arm := false } s with irqs := s.irqs ++ [g.vec] } else s

/-- Number of event ring v in `rings`. -/
def eventRing (v : Nat) : Nat := 8 + v

/-- Write a slot of a ring the device produces, or count the record as lost when the ring is full or not in
use (R499, R503). -/
def ringPut (r slotSize : Nat) (slot : List PByte) (s : State) : State × List Report :=
  let g := getRing s r
  if !g.en || decide (2 ^ g.sizeLog2.toNat ≤ (g.tail - g.head).toNat) then
    (setRing r { g with lost := BitVec.ofNat 32 (Nat.min all32 (g.lost.toNat + 1)) } s, [])
  else
    let a := g.base.toNat + g.tail.toNat % 2 ^ g.sizeLog2.toNat * slotSize
    let (s, rs) := memWrite a slot s
    (setRing r { getRing s r with tail := (getRing s r).tail + 1 } s, rs)

/-- Write an event record (R502, R503): KIND, cluster or 0xFF, QID, INFO, uptime; then the message if armed. The uptime is
the count as it stands (DESIGN CHOICE, log entry 95). -/
def eventRaw (kind cl qid : Nat) (info : W32) (s : State) : State × List Report :=
  let v := regField s (evtRegs + 0x34) (3 * kind) 3
  let r := eventRing v
  let slot := leBytes 4 (kind + cl * 256 + qid * 65536) ++ leBytes 4 info.toNat ++ leBytes 8 s.uptime.toNat
  let t := (getRing s r).tail
  let (s, rs) := ringPut r 16 (clean slot) s
  (if (getRing s r).tail = t then s else ringIrq r s, rs)

/-- Write a record into the next slot, and raise its ERROR event (R543). -/
def putRecord (r : Report) (coalesced : Bool) (link : Option W32) (s : State) : State × List Report :=
  let e := s.err
  let ridx := e.next
  let e := { e with ring := mput 0 e.ring (ridx.toNat % 4096) (recordBits ridx r coalesced link),
                    next := ridx + 1, written := e.written ++ [(r.serial, ridx)] }
  eventRaw 5 0xFF 0 ridx { s with err := e }

/-- Units that stay in service whatever is reported (R538). -/
def staysInService (u : W32) : Bool :=
  match fld u 0 8 with
  | 0x15 | 0x16 | 0x17 | 0x18 | 0x19 | 0x1A => true
  | _ => false

/-- KINDs that count as uncorrectable (R537). -/
def uncorrectable (kind : BitVec 8) : Bool :=
  decide (kind = 1) || decide (kind = 2) || decide (kind = 5) || decide (kind = 0x11)

/-- Units whose window closes once the mark is written back and the report recorded (R535). -/
def closesAtOnce (u : W32) : Bool := decide (0x0C ≤ fld u 0 8) && decide (fld u 0 8 ≤ 0x11)

/-- Write the report directly, or offer it to the coalescing table (R543, R544). -/
def fileReport (r : Report) (s : State) : State × List Report :=
  let e := s.err
  if !e.full && e.coal.isEmpty then putRecord r false (ridxOf e r.linkTo) s
  else
    let e := { e with overflow := BitVec.ofNat 32 (Nat.min all32 (e.overflow.toNat + 1)) }
    match e.coal.findIdx? (fun c => decide (c.first.unit = r.unit ∧ c.first.kind = r.kind)) with
    | some i =>
      let c := e.coal.getD i { first := r, last := r, count := 0 }
      ({ s with err := { e with coal := setAt e.coal i { c with last := r, count := c.count + 1 } } }, [])
    | none =>
      if e.coal.length < 64 then
        ({ s with err := { e with coal := e.coal ++ [{ first := r, last := r, count := 1 }] } }, [])
      else ({ s with err := { e with dropped := BitVec.ofNat 32 (Nat.min all32 (e.dropped.toNat + 1)) } }, [])

/-! ### Physical units and their health (R560) -/

/-- Key of a unit with a score: its TYPE, cluster and number. -/
def hkey (kind cl i : Nat) : Nat := kind * 256 + cl * 16 + i

def keyKind (k : Nat) : Nat := k / 256
def keyCl (k : Nat) : Nat := k / 16 % 16
def keyIndex (k : Nat) : Nat := k % 16

def getHUnit (s : State) (k : Nat) : HUnit := mget HUnit.reset s.health.units k

def setHUnit (k : Nat) (x : HUnit) (s : State) : State :=
  { s with health := { s.health with units := mput HUnit.reset s.health.units k x } }

def modHUnit (k : Nat) (f : HUnit → HUnit) (s : State) : State := setHUnit k (f (getHUnit s k)) s

/-- TEST_PERIOD in REF ticks. -/
def testPeriod (s : State) : Nat := (getReg s (hlRegs + 4)).toNat * 2 ^ 20

/-- The spare role of a cluster holds a tile that may take a position (R554): it completed a test within TEST_PERIOD, was
judged with no mismatch, and runs no case. -/
def spareFit (s : State) (cl : Nat) : Bool :=
  let t := tileOf s cl 8
  let x := getHUnit s (hkey 1 cl t)
  decide (t < 9) && !x.retired && !x.excluded && x.passed && x.todo.isEmpty &&
    (match x.tested with
     | some at' => decide (s.uptime.toNat - at'.toNat ≤ testPeriod s)
     | none => false)

/-- A rotation of a position is called for: its tile is due for a test or SUSPECT, is to leave service, or is missing
(R188, R554, R560, R562, R565). -/
def rotationWanted (s : State) (cl p : Nat) : Bool :=
  let t := tileOf s cl p
  let x := getHUnit s (hkey 1 cl t)
  decide (t = 9) || x.due || x.suspect || x.retired || x.excluded

/-- A unit of a fixed number of dies goes out of service: key of a link bundle named by its receiving end. -/
def bundleKey (src dst b : Nat) : Nat := (src * 4 + dst) * 48 + b

def getBundle (s : State) (k : Nat) : Bundle := mget Bundle.reset s.bundles k

def setBundle (k : Nat) (x : Bundle) (s : State) : State := { s with bundles := mput Bundle.reset s.bundles k x }

/-- Every group homed in a cluster loses a reservation, and halts with RESOURCE_LOST when it next acts (R356, R538; log entry
104). -/
def loseGroups (cl : Nat) (s : State) : State :=
  { s with groups := s.groups.map (fun e => (e.1, if e.1 / 4096 = cl ∧ e.2.held then { e.2 with lost := true } else e.2)) }

/-- The state effect of a unit going OFFLINE that is not derived from the list itself (R538): a tile or its SRAM leaves its
position absent; a bundle is taken out of service. -/
def offlineEffect (u : W32) (s : State) : State :=
  let cl := fld u 8 3
  let i := fld u 14 18
  if fld u 0 8 = 1 ∨ fld u 0 8 = 0x0C then
    let s := if tileOf s cl i = 9 then s else modHUnit (hkey 1 cl (tileOf s cl i)) (fun x => { x with retired := true }) s
    { s with tilePhys := mput i s.tilePhys (cl * 9 + i) 9 }
  else if fld u 0 8 = 0x12 then
    let k := bundleKey (i / 48) (fld u 12 2) (i % 48)
    setBundle k { getBundle s k with out := true } s
  else if fld u 0 8 = 5 ∨ fld u 0 8 = 0x0A ∨ fld u 0 8 = 0x0D ∨ fld u 0 8 = 0x0E then loseGroups cl s
  else if fld u 0 8 = 0x14 ∧ (getCtx s i).isOpen then setCtx i { getCtx s i with failed := true } s
  else s

/-- The unit with a score that a unit of a report is (R560). -/
def scoredUnit (s : State) (u : W32) : Option Nat :=
  let cl := fld u 8 3
  let i := fld u 14 18
  let tile := if tileOf s cl i < 9 then some (hkey 1 cl (tileOf s cl i)) else none
  match fld u 0 8 with
  | 1 => tile
  | 0x0C => tile
  | 2 => if i < 8 then some (hkey 2 cl i) else none
  | 4 => some (hkey 4 cl 0)
  | 5 => some (hkey 5 cl 0)
  | _ => none

/-- INFO of a HEALTH event that names a unit (R563). -/
def unitInfo (sub k : Nat) : W32 := BitVec.ofNat 32 (sub + keyCl k * 256 + keyIndex k * 4096 + keyKind k * 65536)

/-- Candidates of a cluster refused since its last automatic retirement (R561). -/
def setRefused (cl n : Nat) (s : State) : State :=
  { s with health := { s.health with refused := mput 0 s.health.refused cl n } }

/-- Candidates refused with unit `k`. -/
def refusedWith (k : Nat) (s : State) : Nat := mget 0 s.health.refused (keyCl k) + 1

/-- A retirement candidate that is not retired is SUSPECT, and counted (R561). -/
def countCandidate (k : Nat) (s : State) : State :=
  bumpSat (hlRegs + 0x40 + 4 * keyCl k) 1
    (setRefused (keyCl k) (refusedWith k s) (modHUnit k (fun x => { x with suspect := true }) s))

/-- The same, with its event. -/
def refuseCandidate (k : Nat) (s : State) : State × List Report :=
  eventRaw 6 (keyCl k) 0 (BitVec.ofNat 32 (5 + keyCl k * 256 + Nat.min (refusedWith k s) 0xFFFF * 65536)) (countCandidate k s)

/-- The report of a case or of a replay (R559). -/
def testReport (k outcome failRec failOwn : Nat) (bias : Int) (column : Option Nat) (d : ReplayDue) (s : State) : Report :=
  let cls := if outcome = 2 then 1 else if outcome = 4 then 2 else 0
  let r := newReport s (unitCl (keyKind k) (keyCl k) (keyIndex k)) 0x10 3
  let syn := outcome + d.family * 2 ^ 8 + d.case' % 2 ^ 32 * 2 ^ 16 + d.run.toNat * 2 ^ 48 + failRec * 2 ^ 80 + failOwn * 2 ^ 88 +
    column.getD 0 * 2 ^ 96 + boolNat column.isSome * 2 ^ 104 + (BitVec.ofInt 16 bias).toNat * 2 ^ 112
  { r with temp := d.temp, volt := d.volt, cls := BitVec.ofNat 2 cls, conditional := decide (outcome = 3),
           syndrome := BitVec.ofNat 128 syn }

/-- The event of a unit that was not SUSPECT and is now (R560). -/
def suspectEvent (k : Nat) (was : Bool) (s : State) : State × List Report :=
  if was then (s, []) else eventRaw 6 (keyCl k) 0 (unitInfo 3 k) s

/-- What is done about an OFFLINE unit: a tile is retired, without the limit of R561 (R562); another one is a candidate, if its
score was below RETIRE_AT, and is not retired (R561). -/
def offlineCandidate (k : Nat) (old : W16) (s : State) : State × List Report :=
  if keyKind k = 1 then eventRaw 6 (keyCl k) 0 (unitInfo 6 k) s
  else if old.toNat < regField s (hlRegs + 0xC) 16 16 then refuseCandidate k s else (s, [])

/-- What going OFFLINE does to the score of a unit (R560): it is full, which makes the unit SUSPECT; its replays are abandoned
(R568). No entry joins the farrier map (DEDUCED, log entry 115). -/
def offlineScore (k : Nat) (s : State) : State × List Report :=
  let x := getHUnit s k
  let tests := x.replays.map (fun d => testReport k 1 0 0 0 none d s)
  let (s, a) := suspectEvent k x.suspect (setHUnit k { x with score := 0xFFFF, suspect := true, replays := [] } s)
  let (s, b) := offlineCandidate k x.score s
  (s, tests ++ a ++ b)

/-- The same for the unit of a report, if it has a score. -/
def offlineHealth (u : W32) (s : State) : State × List Report :=
  match scoredUnit s u with
  | some k => offlineScore k s
  | none => (s, [])

/-- Reports that arise from recording report `ser` (R536): nested, and linked to it. -/
def nestUnder (ser : Nat) (rs : List Report) : List Report :=
  rs.map (fun r => { r with nested := true, linkTo := if r.linkTo.isSome then r.linkTo else some ser })

/-- Escalate a unit (R537): its record, its HEALTH event with subcode 1 (R538). -/
def goOffline (u : W32) (second : Report) (s : State) : State × List Report :=
  let e := s.err
  let r0 := newReport s u 0x13 second.opclass.toNat
  let r := { r0 with serial := e.serial, nested := true, linkTo := some second.serial,
                     syndrome := BitVec.ofNat 128 second.kind.toNat, addr := second.addr }
  let e := { e with serial := e.serial + 1, offline := e.offline ++ [u], offlineCount := e.offlineCount + 1 }
  let before := e.next
  let (s, rs) := fileReport r { s with err := e }
  let direct := (ridxOf s.err (some r.serial)).isSome && decide (s.err.next ≠ before)
  let data := if direct then fld before 0 23 else 2 ^ 23
  let cl := if bitOf u 11 then fld u 8 3 else 0xFF
  let (s, rs') := eventRaw 6 cl 0 (BitVec.ofNat 32 (1 + data * 256)) s
  let (s, rs'') := offlineHealth u s
  (offlineEffect u s, nestUnder r.serial (rs ++ rs' ++ rs''))

/-- A cupping run holds the unit: cases of it are still to run (R542, R553). -/
def heldByTest (s : State) (u : W32) : Bool :=
  s.err.testUnits.contains u || (match scoredUnit s u with
    | some k => decide (fld u 0 8 ≠ 0x0C) && !(getHUnit s k).todo.isEmpty
    | none => false)

/-- The counter a report of R542 goes to, in the phases that keep only counts. The record of a case itself is the outcome of
the run (R559). -/
def phaseCounter (s : State) (r : Report) : Option Nat :=
  if !s.err.recEn then some (errRegs + 0x100 + 4 * r.kind.toNat)
  else if heldByTest s r.unit && decide (r.kind ≠ 0x10) then some (errRegs + 0x180 + 4 * r.kind.toNat)
  else if s.err.recovUnits.contains r.unit then some (errRegs + 0x200 + 4 * r.kind.toNat)
  else none

/-- One report arises (R535-R537, R542-R544): counted only, or recorded, with its window and its escalation. -/
def reportOne (r : Report) (s : State) : State × List Report :=
  match phaseCounter s r with
  | some a => (bumpSat a 1 s, [])
  | none =>
    let e := s.err
    let win := e.windows.find? (fun w => decide (w.1 = r.unit))
    let r := { r with serial := e.serial, nested := r.nested || win.isSome,
                      linkTo := if r.linkTo.isSome then r.linkTo else win.map (fun w => w.2) }
    let e := { e with serial := e.serial + 1,
                      windows := if win.isSome || closesAtOnce r.unit then e.windows else e.windows ++ [(r.unit, r.serial)] }
    let (s, rs) := fileReport r { s with err := e }
    if win.isSome && uncorrectable r.kind && !isOffline s r.unit then
      let (s, rs') := goOffline r.unit r s
      (s, nestUnder r.serial rs ++ rs')
    else (s, nestUnder r.serial rs)

/-- Reports in the order in which they arise, and those that recording them gives rise to. -/
def reportAll (fuel : Nat) (rs : List Report) (s : State) : State :=
  match fuel, rs with
  | 0, _ => s
  | _, [] => s
  | k + 1, r :: rest =>
    let (s, more) := reportOne r s
    reportAll k (rest ++ more) s

/-- Each report is one, and each that follows from recording it uses up an error mark of storage or a replay that is due. -/
def reportFuel (rs : List Report) (s : State) : Nat :=
  rs.length + s.flaws.length + (s.health.units.map (fun e => e.2.replays.length)).sum + 1

def reports (rs : List Report) (s : State) : State := reportAll (reportFuel rs s) rs s

def report (r : Report) (s : State) : State := reports [r] s

/-- Raise an event (R502). -/
def event (kind cl qid : Nat) (info : W32) (s : State) : State :=
  let (s, rs) := eventRaw kind cl qid info s
  reports rs s

/-- A recovery action on a unit: while it lasts, its reports are only counted (R542). -/
def recovering (u : W32) (f : State → State) (s : State) : State :=
  let was := s.err.recovUnits
  let s := f { s with err := { s.err with recovUnits := was ++ [u] } }
  { s with err := { s.err with recovUnits := was } }

/-- Close the handling window of a unit (R535). -/
def closeWindow (u : W32) (s : State) : State :=
  { s with err := { s.err with windows := s.err.windows.filter (fun w => decide (w.1 ≠ u)) } }

/-! ### Memory accesses with their reports -/

def readMem (a len opc : Nat) (s : State) : List PByte × State :=
  let (bs, s, rs) := memRead a len opc s
  (bs, reports rs s)

def writeMem (a : Nat) (bs : List PByte) (s : State) : State :=
  let (s, rs) := memWrite a bs s
  reports rs s

/-! ### Rights (R584-R587) -/

inductive Right where
  | read | write | doorbell | signal
  deriving DecidableEq, Repr

def ProtEntry.gives (e : ProtEntry) (r : Right) : Bool :=
  match r with
  | .read => e.read
  | .write => e.write
  | .doorbell => e.doorbell
  | .signal => e.signal

/-- Newest generation of the protection table. -/
def newestGen (s : State) : W16 :=
  match s.prot.getLast? with
  | some g => g.gen
  | none => 0

def tableOf (s : State) (g : W16) : List ProtEntry :=
  match s.prot.find? (fun p => decide (p.gen = g)) with
  | some p => p.table
  | none => []

/-- The tile behind a position. -/
def getTile (s : State) (cl p : Nat) : Tile := mget Tile.reset s.tiles (cl * 9 + p)

def setTile (cl p : Nat) (t : Tile) (s : State) : State := { s with tiles := mput Tile.reset s.tiles (cl * 9 + p) t }

def modTile (cl p : Nat) (f : Tile → Tile) (s : State) : State := setTile cl p (f (getTile s cl p)) s

/-- An SCU. -/
def getScu (s : State) (cl u : Nat) : Scu := mget Scu.reset s.scus (cl * 8 + u)

def setScu (cl u : Nat) (x : Scu) (s : State) : State := { s with scus := mput Scu.reset s.scus (cl * 8 + u) x }

def modScu (cl u : Nat) (f : Scu → Scu) (s : State) : State := setScu cl u (f (getScu s cl u)) s

/-- SCU_HALT: slot, first lane concerned, subcode (R295). -/
def noteScuHalt (cl u slot lane sub : Nat) (s : State) : State :=
  setReg (scuRegs cl u + 4) (BitVec.ofNat 32 (slot % 2048 + lane % 32 * 2048 + sub % 16 * 65536)) s

/-- Everything an earlier instruction of the queue still holds has left it: what a fence waits for beside
visibility, which is immediate here (R81, R97). A tile's held blocks are the only such thing. -/
def queueDrained (s : State) (cl qid : Nat) : Bool :=
  if qid < 9 then (getTile s cl qid).held.isEmpty else true

/-- Blocks a stopped or unloaded queue still holds never reach their destination (R177, R523, R530). -/
def dropHeld (cl qid : Nat) (s : State) : State :=
  if qid < 9 then modTile cl qid (fun t => { t with held := [] }) s else s

/-- STATE of a queue (R75). A tile that still holds a block of an instruction is executing it (R76), but for one that waits
on its next instruction (DESIGN CHOICE, log entry 87). -/
def queueState (s : State) (cl qid : Nat) : Nat :=
  let q := getQ s cl qid
  if absent s cl (engOf qid) then 5
  else if q.halted then 3
  else match q.cur with
    | none => if !queueDrained s cl qid then 1 else if !q.run then 4 else if q.head = q.tail then 0 else 1
    | some c =>
      if c.started then (if c.parked && !q.run then 4 else 1)
      else if c.waiting then (if q.run then 2 else 4)
      else if !queueDrained s cl qid then 1
      else if !q.run then 4 else 1

/-- The generation a queue is checked against: its own while it runs or waits, else the newest (R587). -/
def genOfQueue (s : State) (cl qid : Nat) : W16 :=
  if queueState s cl qid = 1 ∨ queueState s cl qid = 2 then (getQ s cl qid).gen else newestGen s

/-- Does the entry match the initiator (R585)? -/
def entryMatches (s : State) (init : Initiator) (e : ProtEntry) : Bool :=
  match init with
  | .mc => false
  | .companion pl => decide (e.kind = 0) && bitOf e.mtch pl.val
  | .engine cl qid =>
    decide (e.kind = 1) && bitOf e.mtch cl.val && bitOf e.mtch (8 + engOf qid.toNat) &&
      (decide (fld e.mtch 48 16 = 0) || decide (fld e.mtch 48 16 = (jobOfQueue s cl.val qid.toNat).toNat))
  | .peer c =>
    decide (e.kind = 2) && decide (fld e.mtch 0 32 ≤ (getCtx s c.toNat).peerId.toNat) &&
      decide ((getCtx s c.toNat).peerId.toNat ≤ fld e.mtch 32 32)

/-- Every byte of `[lo, hi)` finds, first in table order, an entry that gives the right (R585). Each entry
decides the bytes it covers; what lies below and above it goes on to the entries after it. -/
def coveredBy (m : ProtEntry → Bool) (r : Right) (t : List ProtEntry) (lo hi : Nat) : Bool :=
  match t with
  | [] => decide (hi ≤ lo)
  | e :: rest =>
    if hi ≤ lo then true
    else if e.valid && m e && decide (e.base.toNat < hi) && decide (lo ≤ e.limit.toNat) then
      !e.deny && e.gives r && coveredBy m r rest lo e.base.toNat && coveredBy m r rest (e.limit.toNat + 1) hi
    else coveredBy m r rest lo hi

def allowedIn (s : State) (g : W16) (init : Initiator) (a len : Nat) (r : Right) : Bool :=
  match init with
  | .mc => true
  | .companion 0 => true
  | i => coveredBy (entryMatches s i) r (tableOf s g) a (a + len)

/-- `allowed` of R585, against the generation the initiator holds (R587). -/
def allowed (s : State) (init : Initiator) (a len : Nat) (r : Right) : Bool :=
  match init with
  | .engine cl qid => allowedIn s (genOfQueue s cl.val qid.toNat) init a len r
  | i => allowedIn s (newestGen s) i a len r

/-- The companion reaches nothing but the boot block before step 13 has completed, and in BOOT_FAILED (R575,
R578, R589); while the ROM waits for an image over Evtos it also reaches the slot of CL0 MT0. -/
def companionGate (s : State) (a len : Nat) : Bool :=
  (decide (s.boot.step = 14) && !s.boot.failed) ||
  (decide (bootRegs ≤ a) && decide (a + len ≤ bootRegs + 0x2000)) ||
  (s.boot.evtWait && decide (a + len ≤ 0x100_0000))

/-- RESET_N, the REF monitor or a thermal trip holds the device in reset (R600, R609, R613). -/
def heldInReset (s : State) : Bool := s.sig.resetLow || s.sig.refBad || s.sig.tripped

/-- Nothing the initiator sends reaches the device: it is held in reset, or the Evtos link is down. -/
def unreachable (s : State) (init : Initiator) : Bool :=
  heldInReset s || (match init with
   | .companion _ => decide (s.evtWidth = 0)
   | _ => false)

/-- An access to a register or to memory passes the rights of its initiator (R585) and, for the companion, the
boot gate; none passes that does not reach the device. -/
def mayAccess (s : State) (init : Initiator) (a len : Nat) (r : Right) : Bool :=
  !unreachable s init && (match init with
   | .companion _ => companionGate s a len
   | _ => true) && allowed s init a len r

/-- A companion request that is refused: counted, and recorded with KIND EVTOS (R495, R540); `opc`: 1 a read, 2 a write
(R541). -/
def companionDenied (opc a : Nat) (s : State) : State :=
  let s := bumpSat (evtRegs + 0x14) 1 s
  let r := newReport s (unitDie 0x15 0 0) 0x0C opc
  report { r with addr := BitVec.ofNat 48 (a / 64 * 64), syndrome := BitVec.ofNat 128 (1 + (a % 2 ^ 48) * 65536) } s

/-- The access reaches the slot of a position that a rotation is copying (R185). -/
def inRotation (s : State) (a len : Nat) : Bool :=
  s.tiles.any (fun t =>
    let lo := (t.1 / 9 * 8 + t.1 % 9) * 0x100_0000
    t.2.rotating && decide (a < lo + 0x100_0000) && decide (lo < a + len))

/-! ### Halts (R100-R105) -/

/-- What a halt records. -/
structure Halt where
  reason : Nat
  wrote : Bool := false
  /-- SYNDROME of its record (R540) -/
  detail : Nat := 0
  /-- CLASS and COUNT of its record (R533) -/
  cls : Nat := 0
  count : Nat := 1
  /-- no halt: an access is held until the slot it reaches has been copied (R185), and what was begun is as if it were not -/
  held : Bool := false
  deriving DecidableEq, Repr

/-- Terminal reasons (R101). -/
def terminal (reason : Nat) : Bool :=
  match reason with
  | 0x0A | 0x0E | 0x10 | 0x11 | 0x12 => true
  | _ => false

/-- Unit of a queue, for its records. -/
def unitOfQueue (cl qid : Nat) : W32 :=
  if qid < 9 then unitCl 1 cl qid
  else if qid < 17 then unitCl 2 cl (qid - 9)
  else if qid < 25 then unitCl 3 cl (qid - 17)
  else if qid = 25 then unitCl 4 cl 0
  else unitCl 7 cl (qid - 0x1000)

/-- KIND of the record of a halt (R540). -/
def haltKind (reason : Nat) : Nat :=
  match reason with
  | 0x0A => 3
  | 0x0E => 0x11
  | 0x10 => 0x14
  | _ => 4

/-- HALT_REASON register (R72). -/
def haltReg (q : Queue) : W32 :=
  BitVec.ofNat 32 (q.haltReason.toNat + 256 * boolNat q.partialOut + q.repeatIdx.toNat * 65536)

/-- Drop protection generations no one holds any more (R587): the newest stays, and those that running or
waiting queues hold. -/
def trimGens (s : State) : State :=
  let held := s.queues.filterMap (fun p =>
    let cl := p.1 / 8192
    let qid := p.1 % 8192
    if queueState s cl qid = 1 ∨ queueState s cl qid = 2 then some p.2.gen else none)
  { s with prot := s.prot.filter (fun g => decide (g.gen = newestGen s) || held.contains g.gen) }

/-- A halted repeat: each byte it has written holds the value it produced or the one before it (R104). -/
def settleHalted (cl qid : Nat) (s : State) : State :=
  match (getQ s cl qid).cur with
  | none => s
  | some c =>
    if c.undo = [] then s
    else
      let s := modQ cl qid (fun q => { q with cur := some { c with undo := [] } }) s
      takeFresh { s with mem := c.undo.foldl (fun m x => if Config.haltedByteNew s.fresh x.1 then m else mput 0 m x.1 x.2) s.mem }

/-- Put a queue in HALTED with its record, its interrupt and its error record (R100, R105), whatever it was
doing. `extra` shapes the record further (a link, a KIND of its own). -/
def haltWith (cl qid : Nat) (reason : Nat) (addr : W48) (rep : Nat) (wrote : Bool) (extra : Report → Report) (s : State) : State :=
  let s := settleHalted cl qid s
  let q := { getQ s cl qid with
    halted := true, haltReason := BitVec.ofNat 8 reason, haltAddr := addr, repeatIdx := BitVec.ofNat 16 rep,
    partialOut := wrote }
  let q := { q with cur := q.cur.map (fun c => { c with waiting := false }) }
  let job := jobOfQueue s cl qid
  let s := setQ cl qid q s
  let s := if reason = 0 then s else
    let r := newReport s (unitOfQueue cl qid) (haltKind reason) 3
    report (extra { r with reason := BitVec.ofNat 8 reason, job := job, qid := BitVec.ofNat 13 qid, addr := addr }) s
  let s := if q.haltIrqEn then event 0 cl qid (haltReg q) s else s
  trimGens s

/-- R530, steps 2 and 3: every other queue of the job that is not already halted for a terminal reason is to
stop at its next element boundary, its record linked to the record of step 1. -/
def stopJob (job : W16) (cl qid reason : Nat) (ser : Nat) (s : State) : State :=
  if job = 0 then s
  else
    let ks := ((List.range 8).map (fun c => (List.range 26).map (fun e => (c, e)))).flatten
    ks.foldl (fun s k =>
      if jobOfQueue s k.1 k.2 = job ∧ ¬ (k.1 = cl ∧ k.2 = qid) then
        let q := getQ s k.1 k.2
        if q.halted ∧ terminal q.haltReason.toNat then s
        else if q.stopReq.isSome then s
        else setQ k.1 k.2 { q with stopReq := some (BitVec.ofNat 8 reason, ser) } s
      else s) s

/-- A queue that stops with its job: its own record, KIND JOB_STOP, linked to the record of the queue that met
the fault (R530 step 3). -/
def jobStopHalt (cl qid : Nat) (reason : BitVec 8) (link : Nat) (rep : Nat) (addr : W48) (wrote : Bool) (s : State) : State :=
  let s := modQ cl qid (fun q => { q with stopReq := none }) s
  haltWith cl qid reason.toNat addr rep wrote
    (fun r => { r with kind := 0x12, nested := true, linkTo := some link, syndrome := BitVec.ofNat 128 rep }) s

/-- What a halt makes of its record. -/
def Halt.shape (h : Halt) (r : Report) : Report :=
  { r with syndrome := BitVec.ofNat 128 h.detail, cls := BitVec.ofNat 2 h.cls, count := BitVec.ofNat 32 h.count }

/-- A halt condition arises in a queue (R100, R103): the record is taken unless the queue is already HALTED,
where only a terminal reason replaces a reason that is not terminal. A queue that its job's stop already holds
records no poison of its own (R531). -/
def haltQueue (cl qid : Nat) (h : Halt) (addr : W48) (rep : Nat) (s : State) : State :=
  let q := getQ s cl qid
  if q.halted ∧ (terminal q.haltReason.toNat ∨ ¬ terminal h.reason) then s
  else
    match q.stopReq with
    | some (reason, link) =>
      if h.reason = 0x0A then jobStopHalt cl qid reason link rep addr h.wrote s
      else haltWith cl qid h.reason addr rep h.wrote h.shape s
    | none =>
      let ser := s.err.serial
      let job := jobOfQueue s cl qid
      let s := haltWith cl qid h.reason addr rep h.wrote h.shape s
      if h.reason = 0x0A ∨ h.reason = 0x0E then stopJob job cl qid h.reason ser s else s

/-- A halt of the instruction in progress (R100): its slot, its repeat, and whether it had written; of a queue without one,
slot and repeat 0 (DESIGN CHOICE, log entry 92). -/
def haltInstr (cl qid : Nat) (h : Halt) (s : State) : State :=
  match (getQ s cl qid).cur with
  | none => haltQueue cl qid h 0 0 s
  | some c => haltQueue cl qid { h with wrote := h.wrote || c.wrote } c.slot c.rep s

/-- An access that an instruction in progress makes meets a condition: its queue halts (R53, R585). An engine without an
instruction in progress makes none. -/
def haltAccess (cl qid reason : Nat) (s : State) : State :=
  if (getQ s cl qid).cur.isSome then haltInstr cl qid { reason := reason } s else s

/-- What a refused access to registers does (R585): DENIED for the companion, REFUSED for a peer; the queue of an engine
halts with PROTECTION. -/
def refuseReg (opc : Nat) (init : Initiator) (a : Nat) (s : State) : State :=
  if unreachable s init then s else
  match init with
  | .mc => s
  | .companion _ => companionDenied opc a s
  | .peer c => bumpSat (tftRegs (getCtx s c.toNat).homeCl.toNat + 0x20) 1 s
  | .engine cl qid => haltAccess cl.val qid.toNat 0x0D s

/-- A refused register write. -/
def refuseAccess (init : Initiator) (a : Nat) (s : State) : State := refuseReg 2 init a s

/-! ### Signals (R90-R95) -/

/-- Add to a counter, saturating (R90). -/
def semInc (n : Nat) (v : Sem) : Sem :=
  if v.value.toNat + n ≤ all32 then { v with value := BitVec.ofNat 32 (v.value.toNat + n) }
  else { value := BitVec.ofNat 32 all32, ovf := true }

/-- A software update or a remote signal to a counter whose DLD_SCOPE bit is 1 sets SCOPE_VIOL (R107). -/
def scopeCheck (cl n : Nat) (s : State) : State :=
  if scopeBit s cl n then setReg (dldRegs cl + 4) (getReg s (dldRegs cl + 4) ||| 2) s else s

end Sys2Proof.Machine
end

