-- ==== Sys2Proof/Machine/Operands.lean ====
section
/-! DEFINITION. The fields of an instruction word (R80-R85), its checks at decoding (R86, R87, R102), the address
registers (R88, R89), and what an engine does with memory under the common rules (R53, R194, R627, R585). -/

namespace Sys2Proof.Machine

/-! ### The instruction word -/

def wOpcode (w : BitVec 256) : Nat := fld w 0 8
def wFence (w : BitVec 256) : Bool := bitOf w 8
def wYield (w : BitVec 256) : Bool := bitOf w 9
def wEach (w : BitVec 256) : Bool := bitOf w 10
def wArwb (w : BitVec 256) : Bool := bitOf w 11
def wIrq (w : BitVec 256) : Bool := bitOf w 12
def wRepeat (w : BitVec 256) : Nat := fld w 16 16
/-- Operand field, by the bit numbers of the whole word -/
def wOp (w : BitVec 256) (lo n : Nat) : Nat := fld w lo n

/-- A wait field (R82). -/
structure WaitField where
  en : Bool
  sem : Nat
  rsv : Nat
  thresh : Nat
  deriving DecidableEq, Repr

def waitField (w : BitVec 256) (i : Nat) : WaitField :=
  let b := 32 + 48 * i
  { en := bitOf w b, sem := fld w (b + 1) 12, rsv := fld w (b + 13) 3, thresh := fld w (b + 16) 32 }

/-- A signal field (R84). -/
structure SigField where
  en : Bool
  remote : Bool
  cl : Nat
  eng : Nat
  sem : Nat
  inc : Nat
  deriving DecidableEq, Repr

def sigField (w : BitVec 256) (i : Nat) : SigField :=
  let b := 128 + 32 * i
  { en := bitOf w b, remote := bitOf w (b + 1), cl := fld w (b + 2) 3, eng := fld w (b + 5) 5, sem := fld w (b + 10) 12,
    inc := fld w (b + 22) 10 }

/-- Cluster whose counter a signal of a queue of cluster `cl` names. -/
def SigField.target (f : SigField) (cl : Nat) : Nat := if f.remote then f.cl else cl

/-! ### Checks at decoding -/

/-- R101, R103: the reasons in the order in which one is recorded when several arise. -/
def haltOrder : List Nat :=
  [0x0E, 0x0A, 0x12, 0x11, 0x10, 0x01, 0x02, 0x03, 0x0D, 0x04, 0x05, 0x0B, 0x06, 0x07, 0x0F, 0x0C, 0x09, 0x08, 0x00]

/-- The reason recorded for a set of conditions that arise together (R103). -/
def firstReason (rs : List Nat) : Option Nat := haltOrder.find? (fun r => rs.contains r)

/-- Opcodes an engine defines beside the common ones (R209, R254, the tables of the engines' chapters). -/
def engineDefines (eng op : Nat) : Bool :=
  if eng < 17 then decide (op = 0x10) || decide (op = 0x11)
  else if eng < 25 then decide (op = 0x10)
  else if eng = 25 then decide (op = 0x10) || decide (op = 0x11)
  else decide (0x10 ≤ op) && decide (op ≤ 0x15)

/-- Operand bits of the whole word that an opcode leaves reserved, as a list of (low bit, width). -/
def reservedBits (eng op : Nat) : List (Nat × Nat) :=
  match op with
  | 0x00 => [(192, 64)]
  | 0x01 => [(194, 62)]
  | 0x02 => [(196, 4), (248, 8)]
  | 0x03 => [(196, 4)]
  | 0x04 => [(204, 4), (240, 16)]
  | 0x05 => [(192, 64)]
  | 0x10 =>
    if eng < 9 then [(221, 3), (232, 24)]
    else if eng < 17 then [(219, 37)]
    else if eng < 25 then [(204, 52)]
    else if eng = 25 then [(232, 24)]
    else [(208, 48)]
  | 0x11 =>
    if eng < 9 then [(192, 64)]
    else if eng < 17 then [(211, 45)]
    else if eng = 25 then [(232, 24)]
    else if eng = 26 then [(208, 48)]
    else []
  | _ => if eng = 26 ∧ op ≤ 0x15 then [(208, 48)] else []

/-- |STRIDE| ≥ WRAP with WRAP not 0 (R74, R87). -/
def arBroken (stride wrap : Nat) : Bool :=
  decide (wrap ≠ 0) && decide ((wrap : Int) ≤ (sext 28 stride).natAbs)

/-- The conditions a word meets at decoding in queue `qid` of cluster `cl` (R101, R102): reserved bits and
values, absent engines, and signals the protection table refuses. Reserved values of a signal field count whatever its EN (R87);
the engine and the right are those of a signal (R102), which a field with EN 0 is not (DEDUCED, log entry 11). -/
def decodeConditions (s : State) (cl qid : Nat) (w : BitVec 256) : List Nat :=
  let eng := engOf qid
  let op := wOpcode w
  let illegal := decide (0x05 < op) && (decide (op < 0x10) || !engineDefines eng op)
  let rsv := decide (fld w 13 3 ≠ 0) || decide ((waitField w 0).rsv ≠ 0) || decide ((waitField w 1).rsv ≠ 0) ||
    (reservedBits eng op).any (fun p => decide (fld w p.1 p.2 ≠ 0)) ||
    (decide (op < 0x10) && decide (wRepeat w ≠ 0)) ||
    (decide (op = 1) && decide (wOp w 192 2 = 3)) ||
    (decide (op = 3) && arBroken (wOp w 200 28) (wOp w 228 28)) ||
    (decide (op = 0x11) && decide (eng < 9) && decide (wRepeat w ≠ 0)) ||
    -- R255: COUNT and the last slot of SCU_LOAD
    (decide (op = 0x10) && decide (9 ≤ eng) && decide (eng < 17) &&
      (decide (wOp w 207 12 = 0) || decide (2048 < wOp w 207 12) || decide (2048 < wOp w 196 11 + wOp w 207 12)))
  let sig : SigField → List Nat := fun f =>
    (if (!f.remote && decide (f.cl ≠ 0)) || (decide (27 ≤ f.eng) && decide (f.eng ≤ 30)) then [0x02] else []) ++
    if !f.en then []
    else
      (if decide (f.eng < 27) && absent s (f.target cl) f.eng then [0x03] else []) ++
      (if allowed s (.engine (Fin.ofNat 8 cl) (BitVec.ofNat 13 qid)) (semRegs (f.target cl) + 4 * f.sem) 4 .signal &&
          -- R183: the spare role takes no part in the engines' jobs
          !(decide (f.eng = 8) && decide (qid < 0x1000))
        then [] else [0x0D])
  (if illegal then [0x01] else []) ++ (if rsv then [0x02] else []) ++ sig (sigField w 0) ++ sig (sigField w 1)

/-! ### Address registers -/

def arOf (q : Queue) (a : Nat) : AR := q.ars.getD a AR.reset

/-- One advance of an offset (R89). -/
def arAdvance (stride : Int) (wrap : Nat) (o : Int) : Int :=
  let o := o + stride
  if wrap = 0 then o
  else
    let o := if (wrap : Int) ≤ o then o - wrap else o
    if o < 0 then o + wrap else o

/-- The offset before repeat `n` (R89): it starts from 0 at the start of every instruction. -/
def arOffset (stride : Int) (wrap : Nat) (n : Nat) : Int :=
  match n with
  | 0 => 0
  | k + 1 => arAdvance stride wrap (arOffset stride wrap k)

/-- Address an AR gives in repeat `n`: 49-bit signed arithmetic; out of 48 bits is `none` (R89). -/
def arAddress (r : AR) (n : Nat) : Option Nat :=
  let a : Int := (r.base.toNat : Int) + arOffset (sext 28 r.stride.toNat) r.wrap.toNat n
  if a < 0 ∨ (2 : Int) ^ 48 ≤ a then none else some a.toNat

/-- ARWB: the base after the advance that follows the last repeat (R89). A base outside 48 bits, for which the spec gives no
outcome, wraps (DESIGN CHOICE, log entry 91). -/
def arWriteBack (r : AR) (reps : Nat) : AR :=
  { r with base := BitVec.ofInt 48 ((r.base.toNat : Int) + arOffset (sext 28 r.stride.toNat) r.wrap.toNat reps) }

/-! ### What an engine program is written in -/

/-- A part of an instruction's execution: it changes the state, and may halt its queue. -/
abbrev QM (α : Type) := EStateM Halt State α

/-- Halt with a reason. -/
def haltWithReason {α : Type} (reason : Nat) : QM α := throw { reason := reason }

def haltDetail {α : Type} (reason detail : Nat) : QM α := throw { reason := reason, detail := detail }

/-- Stop with the first of a list of conditions (R103). -/
def stopOn (rs : List Nat) : QM Unit :=
  match firstReason rs with
  | some r => haltWithReason r
  | none => pure ()

/-- An access to a slot that is being copied is held (R185). -/
def holdFor (a len : Nat) : QM Unit := do
  if inRotation (← get) a len then throw { reason := 0, held := true }

/-- Read memory, once it can be reached. -/
def readWhenFree (a len opc : Nat) : QM (List PByte) := do
  holdFor a len
  let (bs, s) := readMem a len opc (← get)
  set s
  pure bs

/-- The queue an engine program runs for. -/
structure Eng where
  cl : Nat
  qid : Nat
  deriving DecidableEq, Repr

def Eng.init (e : Eng) : Initiator := .engine (Fin.ofNat 8 e.cl) (BitVec.ofNat 13 e.qid)

/-- The repeat in progress has written a result (PARTIAL, R104). -/
def markWrote (e : Eng) (s : State) : State :=
  modQ e.cl e.qid (fun q => { q with cur := q.cur.map (fun c => { c with wrote := true }) }) s

/-- Write output of the repeat in progress, keeping what its bytes held before (R104). -/
def outWrite (e : Eng) (a : Nat) (bs : List PByte) (s : State) : State :=
  let olds := ((List.range bs.length).map (fun i => (a + i, memByte s (a + i)))).reverse
  markWrote e (writeMem a bs (modQ e.cl e.qid (fun q => { q with cur := q.cur.map (fun c => { c with undo := olds ++ c.undo }) }) s))

/-- The same, once the bytes can be reached. -/
def outWriteWhenFree (e : Eng) (a : Nat) (bs : List PByte) : QM Unit := do
  holdFor a bs.length
  modify (outWrite e a bs)

/-- The condition an access of an engine to memory meets, before any byte moves (R53, R103, R194, R585, R627):
an MMIO address is unmapped for it. -/
def accessCondition (s : State) (e : Eng) (a : Int) (len align : Nat) (r : Right) : Option Nat :=
  if a < 0 ∨ (2 : Int) ^ 48 < a + len then some 0x04
  else
    let n := a.toNat
    let bad := (if closedRegion s n len || !allowed s e.init n len r then [0x0D] else []) ++
      (if memMapped s n len then [] else [0x04]) ++ (if n % align = 0 then [] else [0x05])
    firstReason bad

def checkAccess (e : Eng) (a : Int) (len align : Nat) (r : Right) : QM Unit := do
  match accessCondition (← get) e a len align r with
  | some reason => haltWithReason reason
  | none => holdFor a.toNat len

/-- Address of the first poisoned granule among bytes read at `a`. -/
def firstPoison (a : Nat) (bs : List PByte) : Option Nat :=
  (bs.findIdx? (fun b => b.2)).map (fun i => (a + i) / 64 * 64)

/-- Read without consuming: the bytes carry their poison. -/
def engRead (e : Eng) (a : Int) (len align : Nat) : QM (List PByte) := do
  checkAccess e a len align .read
  let (bs, s) := readMem a.toNat len 1 (← get)
  set s
  pure bs

/-- Read and consume (R529): poison halts the queue, with the granule in the record and SUB or PASS `sub`. -/
def engConsume (e : Eng) (a : Int) (len align sub : Nat) : QM (List Byte) := do
  let bs ← engRead e a len align
  match firstPoison a.toNat bs with
  | some g => haltDetail 0x0A (sub + g * 65536)
  | none => pure (bytesOf bs)

/-- Write bytes with their poison. -/
def engWrite (e : Eng) (a : Int) (bs : List PByte) (align : Nat) : QM Unit := do
  checkAccess e a bs.length align .write
  set (outWrite e a.toNat bs (← get))

/-- The address AR `a` gives in repeat `rep` (R89). -/
def engAr (e : Eng) (a rep : Nat) : QM Nat := do
  match arAddress (arOf (getQ (← get) e.cl e.qid) a) rep with
  | some x => pure x
  | none => haltWithReason 0x04

/-! ### Errors in queues and counters (R534) -/

/-- A queue halts with HW_FAULT; the stage of its record is a free value (log entry 101). -/
def hwHalt (cl qid : Nat) (s : State) : State :=
  haltInstr cl qid { reason := 0x0E, detail := (Config.faultStage s.fresh).toNat } (takeFresh s)

/-- An instruction waits on counter `n` of its cluster. -/
def waitsOn (w : BitVec 256) (n : Nat) : Bool :=
  ((waitField w 0).en && decide ((waitField w 0).sem = n)) || ((waitField w 1).en && decide ((waitField w 1).sem = n))

/-- A counter is met that cannot be read without an uncorrectable error: it reads 0 with its overflow flag set, the error is
recorded, and each queue that waits on it is to halt when it next evaluates its waits. -/
def meetCounter (cl n : Nat) (s : State) : State :=
  if s.bad.contains (.counter cl n) then
    let s := { s with
      bad := s.bad.filter (fun d => decide (d ≠ .counter cl n))
      queues := s.queues.map (fun e => (e.1, if e.1 / 8192 = cl then { e.2 with
        cur := e.2.cur.map (fun c => if c.waiting && waitsOn c.word n then { c with badWait := true } else c) } else e.2)) }
    report { newReport s (unitCl 8 cl 0) 0x11 1 with syndrome := BitVec.ofNat 128 (Config.faultStage s.fresh).toNat }
      (takeFresh (setSem cl n { value := 0, ovf := true } s))
  else s

end Sys2Proof.Machine
end

