-- ==== Sys2Proof/Machine/Queue.lean ====
section
/-! DEFINITION. Engine queues and semaphores (02_queues_and_instructions.md): doorbells, CTL writes, reading and
decoding the head, waits, repeats, completion, the common opcodes, signals, the wait-for detector. -/

namespace Sys2Proof.Machine

/-! ### The control block -/

/-- R74: the ring lies wholly in tile-local SRAM or wholly in the SCU local stores, every byte mapped; SIZE_LOG2 is
4-16; no AR breaks the WRAP rule. -/
def queueConfigOk (s : State) (q : Queue) : Bool :=
  let n := q.sizeLog2.toNat
  let b := q.qbase.toNat
  let len := 32 * 2 ^ n
  decide (4 ≤ n) && decide (n ≤ 16) &&
    (decide (b + len ≤ 0x4000_0000) || (decide (0x5C00_0000 ≤ b) && decide (b + len ≤ 0x6000_0000))) &&
    memMapped s b len && q.ars.all (fun r => !arBroken r.stride.toNat r.wrap.toNat)

/-- Change a queue; one that leaves IDLE, STOPPED or HALTED starts from the newest protection generation (R587). -/
def stepQueue (cl qid : Nat) (f : Queue → Queue) (s : State) : State :=
  let old := queueState s cl qid
  let s' := setQ cl qid (f (getQ s cl qid)) s
  let new := queueState s' cl qid
  if (old = 1 ∨ old = 2) then (if new = 1 ∨ new = 2 then s' else trimGens s')
  else if new = 1 ∨ new = 2 then modQ cl qid (fun q => { q with gen := newestGen s' }) s'
  else s'

/-- Address of the slot a count occupies (R65, R66). -/
def slotAddr (q : Queue) (count : W32) : Nat := q.qbase.toNat + count.toNat % 2 ^ q.sizeLog2.toNat * 32

/-- An instruction of the queue is in progress: it has started, or a tile still holds a block of it (R71, R76). -/
def busyInstr (s : State) (cl qid : Nat) : Bool :=
  !queueDrained s cl qid || (match (getQ s cl qid).cur with
    | some c => c.started
    | none => false)

/-- R68, R71: a doorbell of COUNT arrives at a queue that is present. -/
def doorbellArrive (cl qid count : Nat) (s : State) : State :=
  let q := getQ s cl qid
  if absent s cl (engOf qid) ∨ count = 0 then s
  else if count ≤ 2 ^ q.sizeLog2.toNat - (q.tail - q.head).toNat then
    stepQueue cl qid (fun q => { q with tail := q.tail + BitVec.ofNat 32 count }) s
  else
    let s := modQ cl qid (fun q => { q with dbReject := BitVec.ofNat 32 (Nat.min all32 (q.dbReject.toNat + 1)) }) s
    if q.halted then s
    else
      let a := BitVec.ofNat 48 (slotAddr q q.tail)
      if busyInstr s cl qid then
        modQ cl qid (fun q => { q with ovfReq := some (q.ovfReq.getD a) }) s
      else haltQueue cl qid { reason := 0x0C } a 0 s

/-- An instruction of the queue has ended. Where none is in progress any more the queue is at a boundary, and a refused
doorbell halts it there (R71). -/
def atBoundary (cl qid : Nat) (s : State) : State :=
  let q := getQ s cl qid
  match (if busyInstr s cl qid then none else q.ovfReq) with
  | some a => haltQueue cl qid { reason := 0x0C } a 0 (modQ cl qid (fun q => { q with ovfReq := none }) s)
  | none => trimGens s

/-- R77-R79: leave HALTED by RESUME or SKIP, judged against the configuration. HALT_REASON and HALT_ADDR keep the old record
(DESIGN CHOICE, log entry 90). A queue that goes on after its halted instruction is at a boundary (R71). -/
def leaveHalted (cl qid : Nat) (skip : Bool) (s : State) : State :=
  let q := getQ s cl qid
  if !q.halted || terminal q.haltReason.toNat then s
  else if !queueConfigOk s q then modQ cl qid (fun q => { q with cfgErr := true }) s
  else
    atBoundary cl qid (stepQueue cl qid (fun q =>
      { q with halted := false, cfgErr := false, dlMember := false,
               cur := if q.haltReason = 0x0C then q.cur
                 else if skip ∨ q.haltReason = 0 then none
                 else q.cur.map (fun c => { c with reread := true, liveWait := false, parked := !q.run }) }) s)

/-- RESET_PTRS (R77): the pointers and the record are cleared; in HALTED the queue stays HALTED, with no instruction
(DESIGN CHOICE, log entry 89). DEPTH reaching 0 raises the empty interrupt (R72). -/
def resetPtrs (cl qid : Nat) (s : State) : State :=
  let q := getQ s cl qid
  let s := setQ cl qid { q with head := 0, tail := 0, haltReason := 0, partialOut := false, repeatIdx := 0, cur := none,
                                ovfReq := none } s
  if q.emptyIrqEn ∧ q.head ≠ q.tail then event 1 cl qid 0 s else s

/-- A write of CTL (R72-R79). RESET_PTRS is judged in the state that the write finds; where it acts, SKIP and RESUME do not.
A RESUME or SKIP that the configuration refuses still lets the other fields act (DESIGN CHOICE, log entry 88). -/
def ctlWrite (cl qid : Nat) (v : W32) (s : State) : State :=
  let q := getQ s cl qid
  if absent s cl (engOf qid) then s
  else
    let st := queueState s cl qid
    let q := { q with haltIrqEn := bitOf v 5, emptyIrqEn := bitOf v 6,
                      sizeLog2 := if (st = 3 ∨ st = 4) ∧ q.head = q.tail then BitVec.ofNat 5 (fld v 8 5) else q.sizeLog2 }
    let s := setQ cl qid q s
    let s := if bitOf v 4 ∧ (st = 4 ∨ (st = 3 ∧ ¬ terminal q.haltReason.toNat)) then resetPtrs cl qid s else s
    let q := getQ s cl qid
    let s :=
      if bitOf v 0 then
        if q.run then s
        else if queueConfigOk s q then
          stepQueue cl qid (fun q => { q with run := true, cfgErr := false,
                                              cur := q.cur.map (fun c => { c with waiting := false, parked := false }) }) s
        else setQ cl qid { q with cfgErr := true } s
      else if q.run then
        -- R76: a waiting or idle queue stops at once, a running one after its instruction
        stepQueue cl qid (fun q => { q with run := false }) s
      else s
    if bitOf v 4 then s
    else if bitOf v 3 then leaveHalted cl qid true s
    else if bitOf v 2 then leaveHalted cl qid false s
    else s

/-! ### Reading, decoding and waiting -/

def waitMetBy (s : State) (cl : Nat) (f : WaitField) : Bool :=
  !f.en || decide (f.thresh ≤ (getSem s cl f.sem).value.toNat)

/-- The wait field that is unmet, the first of the two (R72, WAIT_SLOT). -/
def unmetWait (s : State) (cl : Nat) (w : BitVec 256) : Option (Nat × Nat) :=
  if !waitMetBy s cl (waitField w 0) then some (0, (waitField w 0).sem)
  else if !waitMetBy s cl (waitField w 1) then some (1, (waitField w 1).sem)
  else none

/-- The instruction word at the head: the one in progress, else the slot at HEAD. -/
def headWord (s : State) (cl qid : Nat) : Option (BitVec 256) :=
  let q := getQ s cl qid
  let at' := fun a => BitVec.ofNat 256 (leNat ((List.range 32).map (fun i => memByte s (a + i))))
  match q.cur with
  | some c => some (if c.reread then at' c.slot.toNat else c.word)
  | none => if q.run ∧ q.head ≠ q.tail then some (at' (slotAddr q q.head)) else none

/-- Read a slot as one word (R67); a byte that is unmapped halts the queue (R74). The engine consumes its own
instruction words (R208, R529). -/
def readSlot (a : Nat) (s : State) : Except Halt (BitVec 256 × Bool) × State :=
  if memMapped s a 32 then
    let (bs, s) := readMem a 32 4 s
    (.ok (BitVec.ofNat 256 (leNat (bytesOf bs)), anyPoison bs), s)
  else (.error { reason := 0x04 }, s)

/-- Bring the instruction at the head in: read its slot once, HEAD moving past it (R67), with the empty
interrupt when DEPTH reaches 0 (R72). -/
def fetchHead (cl qid : Nat) (s : State) : State :=
  let q := getQ s cl qid
  let a := slotAddr q q.head
  let c : Cur := { slot := BitVec.ofNat 48 a, count := q.head, word := 0, fetchPoison := false, rep := 0, decoded := false,
                   started := false, waiting := false, liveWait := false, reread := true, wrote := false, draining := false,
                   begun := false, resumed := false, parked := false, badWait := false, undo := [] }
  let q := { q with head := q.head + 1, cur := some c }
  let s := setQ cl qid q s
  if q.emptyIrqEn ∧ q.head = q.tail then event 1 cl qid q.head s else s

/-- A fence is met: the queue moves to the newest protection generation (R98, R587). -/
def moveGen (cl qid : Nat) (s : State) : State :=
  trimGens (modQ cl qid (fun q => { q with gen := newestGen s }) s)

/-- The waits of an instruction are evaluated: `true` when a counter it waits on has been lost (R534). -/
def meetWaits (cl : Nat) (c : Cur) (s : State) : Bool × State :=
  let lost := fun (i : Nat) => (waitField c.word i).en && s.bad.contains (.counter cl (waitField c.word i).sem)
  let meet := fun (i : Nat) (s : State) => if (waitField c.word i).en then meetCounter cl (waitField c.word i).sem s else s
  (c.badWait || lost 0 || lost 1, meet 1 (meet 0 s))

/-- Bring the queue to the point where its instruction may run a repeat (R75, R83, R96, R102): read the slot,
decode, meet the fence of its flags, meet its waits. Answers the instruction once it has started. A control block or an AR that
cannot be read halts the queue with HW_FAULT (R534). -/
def prepare (cl qid : Nat) (s : State) : State × Option Cur :=
  if s.bad.contains (.queue cl qid) then
    (hwHalt cl qid { s with bad := s.bad.filter (fun d => decide (d ≠ .queue cl qid)) }, none)
  else
  let q := getQ s cl qid
  if absent s cl (engOf qid) || q.halted || (decide (qid < 9) && (getTile s cl qid).rotating) ||
      (match q.cur with
       | some c => c.reread && inRotation s c.slot.toNat 32
       | none => inRotation s (slotAddr q q.head) 32) then (s, none)
  else
    let s := match q.cur with
      | none => if q.run ∧ q.head ≠ q.tail ∧ q.ovfReq = none then fetchHead cl qid s else s
      | some _ => s
    let q := getQ s cl qid
    match q.cur with
    | none => (s, none)
    | some c =>
      if (!c.started && (!q.run || q.ovfReq.isSome)) || (c.parked && !q.run) then (s, none)
      else
        -- read the slot and decode
        let (s, c?) :=
          if c.reread then
            let (r, s) := readSlot c.slot.toNat s
            match r with
            | .error h => (haltQueue cl qid h c.slot c.rep s, none)
            | .ok (w, p) =>
              let c := { c with word := w, fetchPoison := p, reread := false, decoded := false, resumed := c.begun, parked := false }
              let s := modQ cl qid (fun q => { q with cur := some c }) s
              if p then (haltQueue cl qid { reason := 0x0A, detail := c.slot.toNat / 64 * 64 * 65536 } c.slot c.rep s, none)
              else (s, some c)
          else (s, some c)
        match c? with
        | none => (s, none)
        | some c =>
          let bad := if c.decoded then none else
            firstReason (decodeConditions s cl qid c.word ++ (if wRepeat c.word < c.rep then [0x02] else []))
          match bad with
          | some r => (haltQueue cl qid { reason := r } c.slot c.rep s, none)
          | none =>
            let c := { c with decoded := true }
            let s := modQ cl qid (fun q => { q with cur := some c }) s
            if c.started then (s, some c)
            else if (wFence c.word ∨ wYield c.word) ∧ ¬ queueDrained s cl qid then (s, none)
            else
              let s := if wFence c.word ∨ wYield c.word then moveGen cl qid s else s
              let (lost, s) := meetWaits cl c s
              if lost then (hwHalt cl qid s, none) else
              match unmetWait s cl c.word with
              | some _ =>
                let s := if c.waiting then s else modQ cl qid (fun q => { q with waitCount := 0 }) s
                (modQ cl qid (fun q => { q with cur := some { c with waiting := true } }) s, none)
              | none =>
                let c := { c with waiting := false, started := true }
                (modQ cl qid (fun q => { q with cur := some c }) s, some c)

/-! ### Completion -/

/-- Issue one signal (R93, R95): it is on its way until SIGNAL_APPLY. -/
def issueSignal (cl qid i : Nat) (w : BitVec 256) (s : State) : State :=
  let f := sigField w i
  if f.en then
    { s with flights := s.flights ++
        [{ srcCl := cl, srcQid := qid, cl := f.target cl, sem := f.sem, inc := f.inc, remote := f.remote }] }
  else s

/-- The instruction completes: ARWB, its signals, its completion interrupt; then the boundary (R71, R76, R81,
R89, R95). -/
def completeInstr (cl qid : Nat) (ars : List Nat) (s : State) : State :=
  match (getQ s cl qid).cur with
  | none => s
  | some c =>
    let w := c.word
    let s := if wArwb w then
        modQ cl qid (fun q => { q with ars := ars.eraseDups.foldl (fun l a =>
          setAt l a (arWriteBack (l.getD a AR.reset) (wRepeat w + 1))) q.ars }) s
      else s
    let s := if wEach w then s else issueSignal cl qid 0 w s
    let s := issueSignal cl qid 1 w s
    let s := modQ cl qid (fun q => { q with cur := none }) s
    let s := if wIrq w then event 2 cl qid c.count s else s
    atBoundary cl qid s

/-- A repeat has completed: SIGNAL0 under SIG0_EACH, and the next repeat, or the end of the instruction
(R80, R81, R104). -/
def repeatDone (cl qid : Nat) (ars : List Nat) (s : State) : State :=
  match (getQ s cl qid).cur with
  | none => s
  | some c =>
    let s := if wEach c.word then issueSignal cl qid 0 c.word s else s
    let s := modQ cl qid (fun q => { q with cur := some { c with rep := c.rep + 1, wrote := false, liveWait := false, undo := [] } }) s
    if c.rep < wRepeat c.word then s else completeInstr cl qid ars s

/-- Run an engine program for the instruction in progress; its answer says whether the repeat is done. An access that is held
(R185) leaves everything as it was. -/
def runProgram (cl qid : Nat) (ars : State → List Nat) (p : QM Bool) (s : State) : State :=
  match p.run s with
  | .ok true s' => repeatDone cl qid (ars s') s'
  | .ok false s' => s'
  | .error h s' => if h.held then s else haltInstr cl qid h s'

/-- An engine command: when the instruction at the head of the queue has this opcode, bring it to the point of
running, and run one repeat of it. -/
def engineStep (cl qid op : Nat) (ars : State → Cur → List Nat) (p : Cur → QM Bool) (s : State) : State :=
  match headWord s cl qid with
  | none => s
  | some w =>
    if wOpcode w ≠ op then s
    else
      match prepare cl qid s with
      | (s, none) => s
      | (s, some c) => if c.draining then s else runProgram cl qid (fun s => ars s c) (p c) s

/-! ### Meanings: doorbells and CTL writes -/

/-- A command that names a queue: the QID is one of R112. -/
def onQueue (qid : BitVec 13) (s' : State) : Host.Outcome State Fault Refusal :=
  if validQid qid.toNat then .next s' else .fault .noSuchUnit

/-- Address of a queue's control block (R52, R72). -/
def qcbBase (cl qid : Nat) : Nat :=
  if qid < 9 then cwBase cl + qid * 0x1000
  else if qid < 17 then cwBase cl + 0x1_0000 + (qid - 9) * 0x2000
  else if qid < 25 then cwBase cl + 0x2_0000 + (qid - 17) * 0x2000
  else if qid = 25 then cwBase cl + 0x3_0000
  else cwBase cl + 0x100_0000 + (qid - 0x1000) * 0x1000

/-- A write inside a control block needs the DOORBELL right (R584). The spare role's control block takes writes
from the MC only (R183): others are refused. -/
def queueWrite (init : Initiator) (cl qid off : Nat) (f : State → State) (s : State) : State :=
  let a := qcbBase cl qid + off
  if qid = 8 ∧ init ≠ .mc then refuseAccess init a s
  else if mayAccess s init a 4 .doorbell then f s else refuseAccess init a s

/-- DOORBELL (R68-R71) -/
def execDoorbell (by' : Initiator) (cl : Fin 8) (qid : BitVec 13) (count : BitVec 17) (s : State) :
    Host.Outcome State Fault Refusal :=
  onQueue qid (queueWrite by' cl.val qid.toNat 0x14 (doorbellArrive cl.val qid.toNat count.toNat) s)

/-- RUN_SET (R74): a CTL write with RUN 1 -/
def execRunSet (by' : Initiator) (cl : Fin 8) (qid : BitVec 13) (ctl : W32) (s : State) : Host.Outcome State Fault Refusal :=
  onQueue qid (queueWrite by' cl.val qid.toNat 0 (ctlWrite cl.val qid.toNat (ctl ||| 1)) s)

/-- RUN_CLEAR (R76): a CTL write with RUN 0 -/
def execRunClear (by' : Initiator) (cl : Fin 8) (qid : BitVec 13) (ctl : W32) (s : State) : Host.Outcome State Fault Refusal :=
  onQueue qid (queueWrite by' cl.val qid.toNat 0 (ctlWrite cl.val qid.toNat (ctl &&& 0xFFFF_FFFE)) s)

/-- RESUME (R78): a CTL write whose acting bit is RESUME -/
def execResume (by' : Initiator) (cl : Fin 8) (qid : BitVec 13) (ctl : W32) (s : State) : Host.Outcome State Fault Refusal :=
  onQueue qid (queueWrite by' cl.val qid.toNat 0 (ctlWrite cl.val qid.toNat ((ctl ||| 4) &&& 0xFFFF_FFE7)) s)

/-- SKIP (R79): a CTL write whose acting bit is SKIP -/
def execSkip (by' : Initiator) (cl : Fin 8) (qid : BitVec 13) (ctl : W32) (s : State) : Host.Outcome State Fault Refusal :=
  onQueue qid (queueWrite by' cl.val qid.toNat 0 (ctlWrite cl.val qid.toNat ((ctl ||| 8) &&& 0xFFFF_FFEF)) s)

/-- RESET_PTRS (R77): a CTL write whose acting bit is RESET_PTRS -/
def execResetPtrs (by' : Initiator) (cl : Fin 8) (qid : BitVec 13) (ctl : W32) (s : State) : Host.Outcome State Fault Refusal :=
  onQueue qid (queueWrite by' cl.val qid.toNat 0 (ctlWrite cl.val qid.toNat (ctl ||| 0x10)) s)

/-! ### Meanings: waits and the common opcodes -/

/-- WAIT_MET (R83): the instruction at the head starts once both its waits are met in one cycle; while one is
unmet the queue is WAITING. -/
def execWaitMet (cl : Fin 8) (qid : BitVec 13) (s : State) : Host.Outcome State Fault Refusal :=
  onQueue qid (prepare cl.val qid.toNat s).1

/-- NOP (R86): waits, then signals -/
def execNop (cl : Fin 8) (qid : BitVec 13) (s : State) : Host.Outcome State Fault Refusal :=
  onQueue qid (engineStep cl.val qid.toNat 0 (fun _ _ => []) (fun _ => pure true) s)

/-- FENCE (R86, R97): the queue is occupied until FENCE_COMPLETE -/
def execFence (cl : Fin 8) (qid : BitVec 13) (s : State) : Host.Outcome State Fault Refusal :=
  onQueue qid (engineStep cl.val qid.toNat 1 (fun _ _ => []) (fun c => do
    modify (modQ cl.val qid.toNat (fun q => { q with cur := some { c with draining := true } }))
    pure false) s)

/-- FENCE_COMPLETE (R97, R98, R458): every earlier write is visible to the scope at once in this model; PEER waits
for the acknowledgement of every earlier TFT send, and a send lost with its context halts the queue. -/
def execFenceComplete (cl : Fin 8) (qid : BitVec 13) (s : State) : Host.Outcome State Fault Refusal :=
  let q := getQ s cl.val qid.toNat
  onQueue qid
    (match q.cur with
     | some c =>
       if c.draining ∧ wOpcode c.word = 1 ∧ ¬ q.halted ∧ queueDrained s cl.val qid.toNat then
         if wOp c.word 192 2 = 2 ∧ q.sendsLost then haltInstr cl.val qid.toNat { reason := 0x12 } s
         else if wOp c.word 192 2 = 2 ∧ q.sends ≠ [] then s
         else repeatDone cl.val qid.toNat [] (moveGen cl.val qid.toNat s)
       else s
     | none => s)

/-- ARBASE (R86, R88) -/
def execArbase (cl : Fin 8) (qid : BitVec 13) (s : State) : Host.Outcome State Fault Refusal :=
  onQueue qid (engineStep cl.val qid.toNat 2 (fun _ _ => []) (fun c => do
    modify (modQ cl.val qid.toNat (fun q =>
      let a := wOp c.word 192 4
      { q with ars := setAt q.ars a { arOf q a with base := BitVec.ofNat 48 (wOp c.word 200 48) } }))
    pure true) s)

/-- ARSTEP (R86-R88); the stride and wrap that R87 refuses halt it at decoding -/
def execArstep (cl : Fin 8) (qid : BitVec 13) (s : State) : Host.Outcome State Fault Refusal :=
  onQueue qid (engineStep cl.val qid.toNat 3 (fun _ _ => []) (fun c => do
    modify (modQ cl.val qid.toNat (fun q =>
      let a := wOp c.word 192 4
      { q with ars := setAt q.ars a { arOf q a with stride := BitVec.ofNat 28 (wOp c.word 200 28),
                                                    wrap := BitVec.ofNat 28 (wOp c.word 228 28) } }))
    pure true) s)

/-- SEMSET (R86, R90): it is applied at once (DESIGN CHOICE, log entry 96). -/
def execSemset (cl : Fin 8) (qid : BitVec 13) (s : State) : Host.Outcome State Fault Refusal :=
  onQueue qid (engineStep cl.val qid.toNat 4 (fun _ _ => []) (fun c => do
    modify (meetCounter cl.val (wOp c.word 192 12))
    modify (setSem cl.val (wOp c.word 192 12) { value := BitVec.ofNat 32 (wOp c.word 208 32), ovf := false })
    pure true) s)

/-- HALT (R86): waits, then halts with NONE without signalling -/
def execHalt (cl : Fin 8) (qid : BitVec 13) (s : State) : Host.Outcome State Fault Refusal :=
  onQueue qid (engineStep cl.val qid.toNat 5 (fun _ _ => []) (fun _ => haltWithReason 0) s)

/-- ILLEGAL_OPCODE (R101, R102): the word at the head has an opcode that is reserved or that the engine does not
define. -/
def execIllegalOpcode (cl : Fin 8) (qid : BitVec 13) (s : State) : Host.Outcome State Fault Refusal :=
  onQueue qid
    (match headWord s cl.val qid.toNat with
     | none => s
     | some w =>
       if (decodeConditions s cl.val qid.toNat w).contains 0x01 then (prepare cl.val qid.toNat s).1 else s)

/-- SIGNAL_APPLY (R90, R93, R107): the oldest signal of that queue to that counter reaches it. -/
def execSignalApply (srcCl : Fin 8) (srcQid : BitVec 13) (cl : Fin 8) (sem : BitVec 12) (s : State) :
    Host.Outcome State Fault Refusal :=
  onQueue srcQid
    (match s.flights.findIdx? (fun f => decide (f.srcCl = srcCl.val ∧ f.srcQid = srcQid.toNat ∧ f.cl = cl.val ∧ f.sem = sem.toNat)) with
     | none => s
     | some i =>
       match s.flights[i]? with
       | none => s
       | some f =>
         let s := meetCounter f.cl f.sem { s with flights := removeAt s.flights i }
         let s := setSem f.cl f.sem (semInc f.inc (getSem s f.cl f.sem)) s
         if f.remote then scopeCheck f.cl f.sem s else s)

/-! ### Meanings: software updates of counters -/

/-- SEM_WRITE (R91, R107), applied at once (DESIGN CHOICE, log entry 96) -/
def execSemWrite (by' : Initiator) (cl : Fin 8) (sem : BitVec 12) (v : W32) (s : State) : Host.Outcome State Fault Refusal :=
  let a := semRegs cl.val + 4 * sem.toNat
  .next (if mayAccess s by' a 4 .write then
      scopeCheck cl.val sem.toNat (setSem cl.val sem.toNat { value := v, ovf := false } (meetCounter cl.val sem.toNat s))
    else refuseAccess by' a s)

/-- A write of SEM_ADD (R91, R107), applied at once (DESIGN CHOICE, log entry 96): SEM in [11:0], INC in [31:12]; the right is
SIGNAL at the counter (R584). -/
def semAddWrite (by' : Initiator) (cl : Nat) (v : W32) (s : State) : State :=
  let n := fld v 0 12
  let a := semRegs cl + 4 * n
  if mayAccess s by' a 4 .signal then
    let s := meetCounter cl n s
    scopeCheck cl n (setSem cl n (semInc (fld v 12 20) (getSem s cl n)) s)
  else refuseAccess by' a s

/-- SEM_ADD (R91) -/
def execSemAdd (by' : Initiator) (cl : Fin 8) (v : W32) (s : State) : Host.Outcome State Fault Refusal :=
  .next (semAddWrite by' cl.val v s)

/-! ### The wait-for detector (R106-R111) -/

/-- The counters of cluster `cl` that a word still has to signal. -/
def wordSignals (cl : Nat) (w : BitVec 256) : List Nat :=
  ((List.range 2).map (fun i => sigField w i)).filterMap (fun f =>
    if f.en ∧ f.target cl = cl then some f.sem else none)

/-- Words of instructions whose signals wait on a block that a tile holds (R95, R174). -/
def heldWords (s : State) (cl qid : Nat) : List (BitVec 256) :=
  if qid < 9 then (getTile s cl qid).held.flatMap (fun b => b.each.toList ++ (b.last.map (fun e => e.word)).toList) else []

/-- Counters that a queue has a pending signal to (R106): the instructions whose blocks a tile holds, the one in progress
and every slot up to TAIL. -/
def pendingSignals (s : State) (cl qid : Nat) : List Nat :=
  let q := getQ s cl qid
  let held := (heldWords s cl qid).flatMap (wordSignals cl)
  let cur := match q.cur with
    | some c => wordSignals cl c.word
    | none => []
  let rest := (List.range (q.tail - q.head).toNat).map (fun i =>
    let a := slotAddr q (q.head + BitVec.ofNat 32 i)
    wordSignals cl (BitVec.ofNat 256 (leNat ((List.range 32).map (fun k => memByte s (a + k))))))
  held ++ cur ++ rest.flatten

/-- The queues of a cluster that have been used, by QID. -/
def queuesOf (s : State) (cl : Nat) : List Nat :=
  (s.queues.filter (fun p => decide (p.1 / 8192 = cl))).map (fun p => p.1 % 8192)

/-- Queues WAITING on a counter whose DLD_SCOPE bit is 1: QID, wait field, counter. -/
def dldCandidates (s : State) (cl : Nat) : List (Nat × Nat × Nat) :=
  (queuesOf s cl).filterMap (fun qid =>
    if queueState s cl qid = 2 then
      match (getQ s cl qid).cur with
      | some c =>
        match unmetWait s cl c.word with
        | some (sl, sem) => if scopeBit s cl sem then some (qid, sl, sem) else none
        | none => none
      | none => none
    else none)

/-- One pass of R106: a member stays only if every queue with a pending signal to its counter is a member. -/
def dldPass (pend : List (Nat × List Nat)) (m : List (Nat × Nat × Nat)) : List (Nat × Nat × Nat) :=
  m.filter (fun q => pend.all (fun p => !p.2.contains q.2.2 || m.any (fun r => decide (r.1 = p.1))))

def dldFix (pend : List (Nat × List Nat)) (n : Nat) (m : List (Nat × Nat × Nat)) : List (Nat × Nat × Nat) :=
  match n with
  | 0 => m
  | k + 1 => dldFix pend k (dldPass pend m)

/-- The closed set of a cluster now (R106). -/
def closedSet (s : State) (cl : Nat) : List (Nat × Nat × Nat) :=
  let m := dldCandidates s cl
  dldFix ((queuesOf s cl).map (fun q => (q, pendingSignals s cl q))) m.length m

/-- The closed set of a cluster that its detector, enabled, has seen unchanged for the confirmation window (R106); none: the
empty list. -/
def dueSet (s : State) (cl : Nat) : List (Nat × Nat × Nat) :=
  let w := mget DldWatch.reset s.dld cl
  let m := closedSet s cl
  if bitOf (getReg s (dldRegs cl)) 0 ∧ w.members = m ∧ 16 * regField s (dldRegs cl) 16 16 ≤ w.stood then m else []

/-- The record of a closed set (R111): its size, the time (log entry 95), and its first members; entries beyond them read 0
(DESIGN CHOICE, log entry 93). -/
def recordSet (cl : Nat) (m : List (Nat × Nat × Nat)) (s : State) : State :=
  let b := dldRegs cl
  let s := setReg (b + 4) (BitVec.ofNat 32 ((getReg s (b + 4)).toNat % 4 / 2 * 2 + 1 + 256 * Nat.min 255 m.length)) s
  let s := setReg (b + 8) (BitVec.ofNat 32 s.uptime.toNat) s
  let s := setReg (b + 0xC) (BitVec.ofNat 32 (s.uptime.toNat / 2 ^ 32)) s
  (List.range 16).foldl (fun s i =>
    match m[i]? with
    | some (q, sl, sem) => setReg (b + 0x40 + 4 * i) (BitVec.ofNat 32 (q + sl * 0x2000 + sem * 65536)) s
    | none => setReg (b + 0x40 + 4 * i) 0 s) s

/-- The members of a closed set halt (R106, R111). The set is recorded, and its members show it (R72), or it is counted as
lost while a record is held. -/
def haltSet (cl : Nat) (m : List (Nat × Nat × Nat)) (s : State) : State :=
  let held := bitOf (getReg s (dldRegs cl + 4)) 0
  let s := if held then bumpWrap (dldRegs cl + 0x10) 1 s else recordSet cl m s
  m.foldl (fun s q =>
    haltInstr cl q.1 { reason := 0x09 } (modQ cl q.1 (fun x => { x with dlMember := x.dlMember || !held }) s)) s

/-- DEADLOCK_CONFIRM (R106, R108, R111): the closed set has stood unchanged for the window. -/
def execDeadlockConfirm (cl : Fin 8) (s : State) : Host.Outcome State Fault Refusal :=
  .next (match dueSet s cl.val with
    | [] => s
    | m => haltSet cl.val m s)

/-- A queue counts towards its wait limit (R109, R214, R274, R348): it is WAITING, or waits, RUNNING, for payload or for a
step's place. -/
def liveWaiting (s : State) (cl qid : Nat) : Bool :=
  match (getQ s cl qid).cur with
  | some c => c.started && c.liveWait && decide (queueState s cl qid = 1)
  | none => false

/-- The engine is at work on the instruction in progress: RUNNING, and not just resumed (R215, R275). -/
def atWork (s : State) (cl qid : Nat) : Bool :=
  match (getQ s cl qid).cur with
  | some c => c.started && c.begun && !c.resumed && !c.reread && decide (queueState s cl qid = 1)
  | none => false

def countsWait (s : State) (cl qid : Nat) : Bool := decide (queueState s cl qid = 2) || liveWaiting s cl qid

/-- WAIT_TIMEOUT (R109): the WAIT_COUNT of a queue that waits has reached its wait limit. Where a closed set that is due holds
the queue, the set halts (R110). -/
def execWaitTimeout (cl : Fin 8) (qid : BitVec 13) (s : State) : Host.Outcome State Fault Refusal :=
  let q := getQ s cl.val qid.toNat
  let m := dueSet s cl.val
  onQueue qid
    (if ¬ countsWait s cl.val qid.toNat ∨ q.waitLimit = 0 ∨ q.waitCount < q.waitLimit then s
     else if m.any (fun x => decide (x.1 = qid.toNat)) then haltSet cl.val m s
     else
       -- a GET that waits for payload is named in SCU_HALT (R295)
       let s := if liveWaiting s cl.val qid.toNat ∧ 9 ≤ qid.toNat ∧ qid.toNat < 17 then
           noteScuHalt cl.val (qid.toNat - 9) (getScu s cl.val (qid.toNat - 9)).pc 0 2 s else s
       haltInstr cl.val qid.toNat { reason := 0x08 } s)

/-- DLD_RECORD_RELEASE (R111): VALID written 1 in DLD_STATUS; the other W1C bit of the write acts too. What the record showed
stays readable until the next one (DESIGN CHOICE, log entry 93). -/
def execDldRecordRelease (by' : Initiator) (cl : Fin 8) (v : W32) (s : State) : Host.Outcome State Fault Refusal :=
  let a := dldRegs cl.val + 4
  .next (if mayAccess s by' a 4 .write then setReg a (getReg s a &&& ~~~((v ||| 1) &&& 3)) s else refuseAccess by' a s)

/-! ### Stops of a job (R523, R530) -/

/-- The blocks a tile holds issue no signal when they are accepted (R530). -/
def muteHeld (cl qid : Nat) (s : State) : State :=
  if qid < 9 then modTile cl qid (fun t => { t with held := t.held.map (fun b => { b with each := none, last := none }) }) s else s

/-- JOB_STOP (R530): another queue of a job that met a fault halts at its next element boundary and issues none of its
pending signals. Blocks of repeats that a tile has finished still reach their destination (R177). -/
def execJobStop (cl : Fin 8) (qid : BitVec 13) (s : State) : Host.Outcome State Fault Refusal :=
  let q := getQ s cl.val qid.toNat
  onQueue qid
    (match q.stopReq with
     | none => s
     | some (reason, link) =>
       let (addr, rep, wrote) := match q.cur with
         | some c => (c.slot, c.rep, c.wrote)
         | none => (0, 0, false)
       muteHeld cl.val qid.toNat (jobStopHalt cl.val qid.toNat reason link rep addr wrote s))

end Sys2Proof.Machine
end

