-- ==== Sys2Proof/Machine/Crc.lean ====
section
/-! DEFINITION. The cyclic redundancy checks of R288, used by recipes, check-value units, the transport, frames,
the boot record and the farrier map. -/

namespace Sys2Proof.Machine

/-- Parameters of a check (R288): for a reflected one the polynomial is given bit-reversed, as its register is. -/
structure CrcSpec where
  width : Nat
  poly : Nat
  init : Nat
  reflected : Bool
  xorOut : Nat

/-- R288, by selector. -/
def crcSpec (sel : Nat) : CrcSpec :=
  match sel with
  | 0 => ⟨32, 0xEDB8_8320, 0xFFFF_FFFF, true, 0xFFFF_FFFF⟩
  | 1 => ⟨32, 0x82F6_3B78, 0xFFFF_FFFF, true, 0xFFFF_FFFF⟩
  | 2 => ⟨64, 0x42F0_E1EB_A9EA_3693, 0, false, 0⟩
  | _ => ⟨16, 0x1021, 0xFFFF, false, 0⟩

def crcBits (c : CrcSpec) (n reg : Nat) : Nat :=
  match n with
  | 0 => reg
  | k + 1 =>
    if c.reflected then crcBits c k (if reg % 2 = 1 then (reg / 2) ^^^ c.poly else reg / 2)
    else
      let sh := (reg * 2) % 2 ^ c.width
      crcBits c k (if reg / 2 ^ (c.width - 1) = 1 then sh ^^^ c.poly else sh)

/-- Feed one byte. -/
def crcByte (c : CrcSpec) (reg : Nat) (b : Byte) : Nat :=
  crcBits c 8 (reg ^^^ (if c.reflected then b.toNat else b.toNat <<< (c.width - 8)))

def crcFeed (c : CrcSpec) (reg : Nat) (bs : List Byte) : Nat := bs.foldl (crcByte c) reg

/-- The whole check of a byte string. -/
def crcOf (sel : Nat) (bs : List Byte) : Nat :=
  let c := crcSpec sel
  crcFeed c c.init bs ^^^ c.xorOut

def crc32c (bs : List Byte) : Nat := crcOf 1 bs

/-- The FCS of a frame: CRC-32 of IEEE 802.3 over its bytes, sent lowest byte first. -/
def fcsOf (bs : List Byte) : List Byte := leBytes 4 (crcOf 0 bs)

end Sys2Proof.Machine
end

