-- ==== Sys2Proof/Machine/Frame.lean ====
section
/-! DEFINITION. Frames: the headers a pipeline parses (R398, R443, R444), their rewriting, checksums, and the
forwarding tables (R399-R402). A frame is handled without its FCS unless said otherwise. -/

namespace Sys2Proof.Machine

/-! ### Headers -/

/-- What a pipeline reads of a frame. -/
structure Hdr where
  dmac : Nat := 0
  smac : Nat := 0
  tagged : Bool := false
  vid : Nat := 0
  pcp : Nat := 0
  etype : Nat := 0
  l3off : Nat := 0
  /-- 4, 6, or 0 for a frame that is neither IPv4 nor IPv6 by its EtherType -/
  l3 : Nat := 0
  /-- the IP header is well formed (R444) -/
  ok : Bool := false
  ihl : Nat := 0
  frag : Bool := false
  firstFrag : Bool := true
  proto : Nat := 0
  ttl : Nat := 0
  dscp : Nat := 0
  ecn : Nat := 0
  src : Nat := 0
  dst : Nat := 0
  /-- offset at which the IP length ends the packet -/
  ipEnd : Nat := 0
  l4off : Nat := 0
  sport : Nat := 0
  dport : Nat := 0
  ulen : Nat := 0
  deriving DecidableEq, Repr

/-- Sum of 16-bit words, before folding. -/
def sum16 (bs : List Byte) : Nat :=
  match bs with
  | [] => 0
  | [a] => a.toNat * 256
  | a :: b :: r => a.toNat * 256 + b.toNat + sum16 r

/-- One's complement sum in 16 bits. -/
def fold16 (fuel s : Nat) : Nat :=
  match fuel with
  | 0 => s % 65536
  | k + 1 => if s < 65536 then s else fold16 k (s % 65536 + s / 65536)

def onesSum (bs : List Byte) : Nat := fold16 32 (sum16 bs)

/-- Checksum to place in an IPv4 header whose checksum field is taken as 0. -/
def ipv4Sum (h : List Byte) : Nat := 0xFFFF - onesSum (h.take 10 ++ [0, 0] ++ h.drop 12)

/-- UDP checksum over IPv6 (R447) of a segment whose checksum field is taken as 0; a computed 0 is sent as
0xFFFF. -/
def udp6Sum (src dst : Nat) (seg : List Byte) : Nat :=
  let s := seg.take 6 ++ [0, 0] ++ seg.drop 8
  let c := 0xFFFF - onesSum (beBytes 16 src ++ beBytes 16 dst ++ beBytes 4 s.length ++ [0, 0, 0, 17] ++ s)
  if c = 0 then 0xFFFF else c

/-- L4 ports and UDP length, for UDP and TCP. -/
def parseL4 (f : List Byte) (h : Hdr) : Hdr :=
  if (h.proto = 17 ∨ h.proto = 6) ∧ h.l4off + 4 ≤ f.length then
    let h := { h with sport := beAt f h.l4off 2, dport := beAt f (h.l4off + 2) 2 }
    if h.proto = 17 ∧ h.l4off + 8 ≤ f.length then { h with ulen := beAt f (h.l4off + 4) 2 } else h
  else h

def parseV4 (f : List Byte) (h : Hdr) : Hdr :=
  let o := h.l3off
  let h := { h with l3 := 4 }
  if f.length < o + 20 ∨ beAt f o 1 / 16 ≠ 4 then h
  else
    let ihl := beAt f o 1 % 16
    let tot := beAt f (o + 2) 2
    let fl := beAt f (o + 6) 2
    let h := { h with
      ihl := ihl, dscp := beAt f (o + 1) 1 / 4, ecn := beAt f (o + 1) 1 % 4, frag := decide (fl % 0x4000 ≠ 0),
      firstFrag := decide (fl % 0x2000 = 0), ttl := beAt f (o + 8) 1, proto := beAt f (o + 9) 1,
      src := beAt f (o + 12) 4, dst := beAt f (o + 16) 4, ipEnd := o + tot, l4off := o + 4 * ihl,
      ok := decide (5 ≤ ihl) && decide (o + 4 * ihl ≤ f.length) && decide (4 * ihl ≤ tot) &&
        decide (onesSum ((f.drop o).take (4 * ihl)) = 0xFFFF) }
    if h.ok && h.firstFrag then parseL4 f h else h

def parseV6 (f : List Byte) (h : Hdr) : Hdr :=
  let o := h.l3off
  let h := { h with l3 := 6 }
  if f.length < o + 40 ∨ beAt f o 1 / 16 ≠ 6 then h
  else
    let tc := beAt f o 2 / 16 % 256
    parseL4 f { h with
      dscp := tc / 4, ecn := tc % 4, proto := beAt f (o + 6) 1, ttl := beAt f (o + 7) 1, src := beAt f (o + 8) 16,
      dst := beAt f (o + 24) 16, ipEnd := o + 40 + beAt f (o + 4) 2, l4off := o + 40, ok := true }

/-- Parse a frame (R398 step 1). An S-tag or stacked tags leave it untagged, with that TPID as its EtherType
(R443). -/
def parseFrame (f : List Byte) : Hdr :=
  if f.length < 14 then {}
  else
    let h : Hdr := { dmac := beAt f 0 6, smac := beAt f 6 6 }
    let et := beAt f 12 2
    let inner := beAt f 16 2
    let h :=
      if et = 0x8100 ∧ 18 ≤ f.length ∧ inner ≠ 0x8100 ∧ inner ≠ 0x88A8 then
        { h with tagged := true, pcp := beAt f 14 2 / 8192, vid := beAt f 14 2 % 4096, etype := inner, l3off := 18 }
      else { h with etype := et, l3off := 14 }
    if h.etype = 0x0800 then parseV4 f h
    else if h.etype = 0x86DD then parseV6 f h
    else h

def padTo (n : Nat) (f : List Byte) : List Byte := f ++ List.replicate (n - f.length) 0

/-- Ethernet header. -/
def l2Header (dmac smac : Nat) (tagged : Bool) (vid pcp etype : Nat) : List Byte :=
  beBytes 6 dmac ++ beBytes 6 smac ++ (if tagged then beBytes 2 0x8100 ++ beBytes 2 (pcp % 8 * 8192 + vid % 4096) else []) ++
  beBytes 2 etype

/-- A UDP packet over IP with the header values of R447, as a frame of at least 60 bytes. -/
def buildUdp (rw : Rewrite) (v6 : Bool) (src dst dscp ecn ttl sport dport : Nat) (payload : List Byte) : List Byte :=
  let ulen := 8 + payload.length
  let seg0 := beBytes 2 sport ++ beBytes 2 dport ++ beBytes 2 ulen ++ [0, 0] ++ payload
  let tos := dscp % 64 * 4 + ecn % 4
  let l2 := l2Header rw.dmac.toNat rw.smac.toNat rw.tag rw.vid.toNat rw.pcp.toNat (if v6 then 0x86DD else 0x0800)
  if v6 then
    let ip := beBytes 4 (6 * 2 ^ 28 + tos * 2 ^ 20) ++ beBytes 2 ulen ++ [17, BitVec.ofNat 8 ttl] ++ beBytes 16 src ++ beBytes 16 dst
    let c := udp6Sum src dst seg0
    padTo 60 (l2 ++ ip ++ seg0.take 6 ++ beBytes 2 c ++ seg0.drop 8)
  else
    let ip := [0x45, BitVec.ofNat 8 tos] ++ beBytes 2 (20 + ulen) ++ [0, 0, 0x40, 0, BitVec.ofNat 8 ttl, 17, 0, 0] ++
      beBytes 4 src ++ beBytes 4 dst
    let ip := ip.take 10 ++ beBytes 2 (ipv4Sum ip) ++ ip.drop 12
    padTo 60 (l2 ++ ip ++ seg0)

/-- Rewrite a routed frame (R398 step 6): L2 header, TTL or hop limit, IPv4 checksum. -/
def rewriteFrame (f : List Byte) (h : Hdr) (rw : Rewrite) : List Byte :=
  let body := f.drop h.l3off
  let ttl := BitVec.ofNat 8 (if rw.dec then h.ttl - 1 else h.ttl)
  let body :=
    if h.l3 = 4 then
      let b := body.take 8 ++ [ttl] ++ body.drop 9
      let hd := b.take (4 * h.ihl)
      b.take 10 ++ beBytes 2 (ipv4Sum hd) ++ b.drop 12
    else body.take 7 ++ [ttl] ++ body.drop 8
  padTo 60 (l2Header rw.dmac.toNat rw.smac.toNat rw.tag rw.vid.toNat rw.pcp.toNat h.etype ++ body)

/-- Set ECN to CE, with the IPv4 checksum (R440). -/
def markCe (f : List Byte) (h : Hdr) : List Byte :=
  let o := h.l3off
  if h.l3 = 4 then
    let f := f.take (o + 1) ++ [BitVec.ofNat 8 (h.dscp * 4 + 3)] ++ f.drop (o + 2)
    f.take (o + 10) ++ beBytes 2 (ipv4Sum ((f.drop o).take (4 * h.ihl))) ++ f.drop (o + 12)
  else
    let b := beAt f (o + 1) 1
    f.take (o + 1) ++ [BitVec.ofNat 8 (b % 16 + (h.dscp % 4 * 4 + 3) * 16)] ++ f.drop (o + 2)

/-- Hash of R402: CRC-32C from a seed, without the final XOR. -/
def ecmpHash (seed : Nat) (f : List Byte) (h : Hdr) : Nat :=
  let o := h.l3off
  let addrs := if h.l3 = 6 then (f.drop (o + 8)).take 32 else (f.drop (o + 12)).take 8
  let l4 := (h.proto = 17 ∨ h.proto = 6) ∧ ¬ h.frag
  crcFeed (crcSpec 1) seed (addrs ++ [BitVec.ofNat 8 h.proto] ++
    (if l4 then beBytes 2 h.sport ++ beBytes 2 h.dport else [0, 0, 0, 0]))

/-- A frame with its FCS. -/
def withFcs (f : List Byte) : List Byte := f ++ fcsOf f

/-- A frame with a stomped FCS (R406). -/
def withStomp (f : List Byte) : List Byte := f ++ (fcsOf f).map (fun b => ~~~b)

/-! ### Ports (R390, R391) -/

def lgMode (s : State) (g : Nat) : Nat := regField s (lgRegs g) 0 2

/-- Lanes of each port of the lane group of a lane. -/
def portLanes (s : State) (lane : Nat) : Nat := 2 ^ lgMode s (lane / 8)

def isPort (s : State) (lane : Nat) : Bool := decide (lane < 1024) && decide (lane % portLanes s lane = 0)

/-- The port a lane belongs to. -/
def portOf (s : State) (lane : Nat) : Nat := lane / portLanes s lane * portLanes s lane

def getPort (s : State) (p : Nat) : PortSt := mget PortSt.reset s.ports p

def setPort (p : Nat) (x : PortSt) (s : State) : State := { s with ports := mput PortSt.reset s.ports p x }

def modPort (p : Nat) (f : PortSt → PortSt) (s : State) : State := setPort p (f (getPort s p)) s

/-- PORT_CFG of a port (R394) -/
def portCfg (s : State) (p : Nat) : W32 := getReg s (portRegs p)
def adminUp (s : State) (p : Nat) : Bool := bitOf (portCfg s p) 0
def harnessRole (s : State) (p : Nat) : Bool := decide (fld (portCfg s p) 1 2 = 1)
def ctEnabled (s : State) (p : Nat) : Bool := bitOf (portCfg s p) 3
def maxFrame (s : State) (p : Nat) : Nat := fld (portCfg s p) 16 15

/-- A port is out of service with a unit that carries it: itself, its harness link, its pipeline, or its cluster's BPM or packet
buffer slice is OFFLINE (R538). -/
def portLost (s : State) (p : Nat) : Bool :=
  let cl := p / 128
  !s.err.offline.isEmpty &&
    [unitCl 0x0B cl p, unitCl 0x13 cl p, unitCl 9 cl (p / 32), unitCl 0x0A cl 0, unitCl 0x0D cl 0].any (isOffline s)

/-- LINK_UP of a port. -/
def linkUp (s : State) (p : Nat) : Bool := isPort s p && (getPort s p).linkUp && !portLost s p

/-! ### Forwarding tables (R399-R402) -/

/-- Entries of a table (R399). -/
def ftSize (tbl : Nat) : Nat :=
  match tbl with
  | 0 => 262144
  | 1 => 4096
  | 2 => 524288
  | 3 => 131072
  | 4 => 65536
  | 5 => 16384
  | 6 => 16384
  | 7 => 64
  | 8 => 16
  | _ => 0

def ftKey (die tbl idx : Nat) : Nat := die * 2 ^ 24 + tbl * 2 ^ 20 + idx

def ftEntry (s : State) (die tbl idx : Nat) : Nat :=
  if idx < ftSize tbl then (mget 0 s.ft (ftKey die tbl idx)).toNat else 0

/-- The entries of a table that are not all 0, in ascending index: an entry of zeros is not valid. -/
def ftEntries (s : State) (die tbl : Nat) : List (Nat × Nat) :=
  (s.ft.filter (fun p => decide (ftKey die tbl 0 ≤ p.1) && decide (p.1 < ftKey die tbl 0 + 2 ^ 20))).map
    (fun p => (p.1 - ftKey die tbl 0, p.2.toNat))

/-- MAC table: a hit's action and port. -/
def lookupMac (s : State) (die vid mac : Nat) : Option (Nat × Nat) :=
  ((ftEntries s die 0).find? (fun p =>
    decide (bitsOf p.2 0 1 = 1) && decide (bitsOf p.2 1 12 = vid) && decide (bitsOf p.2 13 48 = mac) &&
    decide (bitsOf p.2 61 2 < 2))).map (fun p => (bitsOf p.2 61 2, bitsOf p.2 63 10))

def lookupRmac (s : State) (die mac : Nat) : Bool :=
  (ftEntries s die 8).any (fun p => decide (bitsOf p.2 0 1 = 1) && decide (bitsOf p.2 1 48 = mac))

/-- MAC of the lowest-numbered valid RMAC entry, or the base MAC (R447). -/
def sourceMac (s : State) (die : Nat) : Nat :=
  match (ftEntries s die 8).find? (fun p => decide (bitsOf p.2 0 1 = 1)) with
  | some p => bitsOf p.2 1 48
  | none => s.part.baseMac.toNat

/-- Is an address in LOCAL? -/
def isLocal (s : State) (die : Nat) (v6 : Bool) (a : Nat) : Bool :=
  (ftEntries s die 7).any (fun p =>
    decide (bitsOf p.2 0 1 = 1) && decide (decide (bitsOf p.2 1 1 = 1) = v6) && decide (bitsOf p.2 2 (if v6 then 128 else 32) = a))

/-- Address of LOCAL entry `i`, of the IP version asked for. -/
def localAddr (s : State) (die i : Nat) (v6 : Bool) : Option Nat :=
  let e := ftEntry s die 7 i
  if bitsOf e 0 1 = 1 ∧ decide (bitsOf e 1 1 = 1) = v6 then some (bitsOf e 2 (if v6 then 128 else 32)) else none

/-- Longest match: the ECMP bit and the NH field of the entry chosen. -/
def lookupRoute (s : State) (die : Nat) (v6 : Bool) (a : Nat) : Option (Bool × Nat) :=
  let w := if v6 then 128 else 32
  let lenOf := fun (e : Nat) => if v6 then bitsOf e 129 8 else bitsOf e 33 6
  let best := (ftEntries s die (if v6 then 3 else 2)).foldl (fun (o : Option Nat) p =>
    let e := p.2
    if bitsOf e 0 1 = 1 ∧ lenOf e ≤ w ∧ a / 2 ^ (w - lenOf e) = bitsOf e 1 w / 2 ^ (w - lenOf e) then
      match o with
      | none => some e
      | some b => if lenOf b < lenOf e then some e else o
    else o) none
  best.map (fun e => if v6 then (decide (bitsOf e 137 1 = 1), bitsOf e 138 16) else (decide (bitsOf e 39 1 = 1), bitsOf e 40 16))

/-- A next hop that is valid (R399): its entry. -/
def nextHop (s : State) (die i : Nat) : Option Nat :=
  let e := ftEntry s die 4 i
  if bitsOf e 0 1 = 1 ∧ bitsOf e 1 2 ≠ 3 then some e else none

def nhAct (e : Nat) : Nat := bitsOf e 1 2
def nhPort (e : Nat) : Nat := bitsOf e 3 10

/-- Members of an ECMP group; `none`: the group is invalid. -/
def ecmpMembers (s : State) (die g : Nat) : Option (List Nat) :=
  if 4096 ≤ g then none
  else
    let v := (List.range 4).foldl (fun a i => a + ftEntry s die 5 (4 * g + i) * 2 ^ (256 * i)) 0
    let n := bitsOf v 0 8
    if n = 0 ∨ 63 < n ∨ bitsOf v 8 8 ≠ 0 then none else some ((List.range n).map (fun i => bitsOf v (16 * i + 16) 16))

/-- Ports of a multicast group; bits of lanes that are not first lanes are ignored. -/
def mcastPorts (s : State) (die m : Nat) : List Nat :=
  (List.range 4).flatMap (fun k =>
    let v := ftEntry s die 6 (4 * m + k)
    if v = 0 then [] else
      ((List.range 256).filter (fun b => decide (bitsOf v b 1 = 1) && isPort s (256 * k + b))).map (fun b => 256 * k + b))

/-- What a route gives a routed frame (R398 step 6, R402). -/
inductive Hop where
  | entry (e : Nat)
  | ecmpDown
  | bad
  deriving DecidableEq, Repr

def chooseHop (s : State) (die : Nat) (r : Bool × Nat) (f : List Byte) (h : Hdr) : Hop :=
  if r.1 then
    match ecmpMembers s die r.2 with
    | none => .bad
    | some ms =>
      let up := ms.filter (fun i =>
        match nextHop s die i with
        | some e => decide (nhAct e = 0) && linkUp s (nhPort e)
        | none => false)
      if up = [] then .ecmpDown
      else
        let i := up.getD (ecmpHash (getReg s (ftRegs die + 8)).toNat f h % up.length) 0
        match nextHop s die i with
        | some e => .entry e
        | none => .bad
  else
    match nextHop s die r.2 with
    | some e => .entry e
    | none => .bad

/-- Rewriting that a FORWARD next hop gives, for a class and a source MAC. -/
def hopRewrite (e smac cls : Nat) : Rewrite :=
  { dmac := BitVec.ofNat 48 (bitsOf e 13 48), smac := BitVec.ofNat 48 smac, vid := BitVec.ofNat 12 (bitsOf e 61 12),
    tag := decide (bitsOf e 73 1 = 1), pcp := BitVec.ofNat 3 cls, dec := true }

end Sys2Proof.Machine
end

