-- ==== Sys2Proof/Machine/Buffers.lean ====
section
/-! DEFINITION. The buffer pool manager of a cluster's packet buffer slice (11_switch_core_and_buffers.md): pools,
owners, allocation, references, frees. Pool 6 stands for the cluster's half of the overflow area (R415). -/

namespace Sys2Proof.Machine

/-! ### Pools -/

/-- Bytes of a buffer of pool `p` (R409, R415). -/
def poolSize (p : Nat) : Nat := if p < 6 then 256 * 4 ^ p else 16384

def poolMib (s : State) (cl p : Nat) : Nat := (s.poolMib.getD cl []).getD p 0

/-- Buffers that pool `p` of a cluster has. -/
def poolCount (s : State) (cl p : Nat) : Nat :=
  if p < 6 then poolMib s cl p * 2 ^ 20 / poolSize p
  else if p = 6 then ovfGib s (cl / 2) * 32768
  else 0

def bufKey (cl p i : Nat) : Nat := cl * 2 ^ 24 + p * 2 ^ 20 + i
def bufCl (k : Nat) : Nat := k / 2 ^ 24
def bufPool (k : Nat) : Nat := k / 2 ^ 20 % 16
def bufIdx (k : Nat) : Nat := k % 2 ^ 20

def getBuf (s : State) (k : Nat) : BufRec := mget BufRec.reset s.bufs k

def setBuf (k : Nat) (r : BufRec) (s : State) : State := { s with bufs := mput BufRec.reset s.bufs k r }

/-- Address of the first byte of a buffer: pools lie in ascending order in the slice and buffers in ascending
number (DESIGN CHOICE, log entry 17); the halves of R415 in the overflow area. -/
def bufAddr (s : State) (k : Nat) : Nat :=
  let cl := bufCl k
  let p := bufPool k
  if p < 6 then
    0x4000_0000 + cl * 0x200_0000 + ((List.range p).map (poolMib s cl)).sum * 2 ^ 20 + bufIdx k * poolSize p
  else
    0x0100_0000_0000 + (cl / 2) * 0x20_0000_0000 + (80 - ovfGib s (cl / 2)) * 2 ^ 30 +
      (cl % 2) * ovfGib s (cl / 2) * 2 ^ 29 + bufIdx k * poolSize p

/-- Held buffers of a cluster: key and record, in ascending key. -/
def heldBufs (s : State) (cl : Nat) : List (Nat × BufRec) :=
  s.bufs.filter (fun b => decide (bufCl b.1 = cl) && b.2.held)

/-- Held buffers of one pool. -/
def heldIn (s : State) (cl p : Nat) : List (Nat × BufRec) :=
  (heldBufs s cl).filter (fun b => decide (bufPool b.1 = p))

/-- Free buffers of a pool that cannot be had: withdrawn, or with a record that cannot be read (R534). -/
def unusable (s : State) (cl p : Nat) : List Nat :=
  let of := fun (k : Nat) => decide (bufCl k = cl) && decide (bufPool k = p)
  (s.bufs.filter (fun b => of b.1 && b.2.lost)).map (fun b => b.1) ++
    s.bad.filterMap (fun d =>
      match d with
      | .buffer k => if of k && !(getBuf s k).held && !(getBuf s k).lost then some k else none
      | _ => none)

/-- FREE[p] -/
def poolFree (s : State) (cl p : Nat) : Nat := poolCount s cl p - (heldIn s cl p).length - (unusable s cl p).length

/-- Lowest number that a rising list of numbers leaves out. -/
def lowestGap (n : Nat) (l : List Nat) : Nat :=
  match l with
  | [] => n
  | i :: r => if i = n then lowestGap (n + 1) r else n

/-- The first number from `n` on that a list does not hold. -/
def firstOutside (fuel n : Nat) (l : List Nat) : Nat :=
  match fuel with
  | 0 => n
  | k + 1 => if l.contains n then firstOutside k (n + 1) l else n

/-! ### Owners (R411-R413) -/

def ownKey (cl o : Nat) : Nat := cl * 8192 + o

def getOwner (s : State) (cl o : Nat) : Owner := mget (Owner.reset o) s.owners (ownKey cl o)

def setOwner (cl o : Nat) (x : Owner) (s : State) : State :=
  { s with owners := mput (Owner.reset o) s.owners (ownKey cl o) x }

def modOwner (cl o : Nat) (f : Owner → Owner) (s : State) : State := setOwner cl o (f (getOwner s cl o)) s

/-- Owner of the egress queue of a port and class; 1024 + m: MGMTm (R411). -/
def egOwner (port cls : Nat) : Nat := if port < 1024 then (port % 128) * 8 + cls else 0x1401 + 8 * (port - 1024) + cls

/-- Cluster of that queue's buffers. -/
def egCluster (port : Nat) : Nat := if port < 1024 then port / 128 else 0

/-- EXISTS -/
def ownerExists (s : State) (cl o : Nat) : Bool :=
  if o < 0x400 then isPort s (128 * cl + o / 8)
  else if o < 0x1400 then (getOwner s cl o).locked
  else if o = 0x1400 ∨ o = 0x1411 then true
  else decide (0x1401 ≤ o) && decide (o ≤ 0x1410) && decide (cl = 0)

def satInc (n : Nat) (v : W32) : W32 := BitVec.ofNat 32 (Nat.min all32 (v.toNat + n))

/-- RES[p] of an owner. -/
def Owner.resOf (o : Owner) (p : Nat) : Nat := o.res.getD p 0

/-- Σ RES[p] over the owners of a cluster: the reset reservations of those that exist, and what listed owners
differ from theirs by. -/
def resSum (s : State) (cl p : Nat) : Nat :=
  let ports := ((List.range 128).filter (fun i => isPort s (128 * cl + i))).length
  let base := ports * 8 * (Owner.reset 0).resOf p + (Owner.reset 0x1400).resOf p +
    (if cl = 0 then 16 * (Owner.reset 0x1401).resOf p else 0)
  let listed := s.owners.filter (fun x => decide (x.1 / 8192 = cl) && ownerExists s cl (x.1 % 8192))
  let up := (listed.map (fun x => x.2.resOf p)).sum
  let down := (listed.map (fun x => (Owner.reset (x.1 % 8192)).resOf p)).sum
  base + up - down

/-- Buffers of pool `p` that owner `o` holds. -/
def heldBy (s : State) (cl o p : Nat) : Nat :=
  ((heldIn s cl p).filter (fun b => decide (b.2.owner = o))).length

def resLeft (s : State) (cl o p : Nat) : Nat := (getOwner s cl o).resOf p - heldBy s cl o p

/-- Σ res_left[p]: what is reserved less what the holders use of it. -/
def resLeftSum (s : State) (cl p : Nat) : Nat :=
  let os := ((heldIn s cl p).map (fun b => b.2.owner)).eraseDups
  resSum s cl p - (os.map (fun o => Nat.min ((getOwner s cl o).resOf p) (heldBy s cl o p))).sum

/-- Shared buffers free in pool `p` (R413). -/
def sharedFree (s : State) (cl p : Nat) : Nat := poolFree s cl p - resLeftSum s cl p

/-- OWN_USED: on-chip buffer bytes held. -/
def heldBytes (s : State) (cl o : Nat) : Nat :=
  ((List.range 6).map (fun p => heldBy s cl o p * poolSize p)).sum

/-- Egress and management owners: those that may overflow (R416). -/
def mayOverflow (o : Nat) : Bool := decide (o < 0x400) || (decide (0x1401 ≤ o) && decide (o ≤ 0x1410))

/-! ### Allocation and frees (R414, R417-R419) -/

/-- Which pool `alloc(o, n)` takes from. -/
def allocPool (s : State) (cl o n : Nat) : Option Nat :=
  let w := getOwner s cl o
  match (List.range 6).find? (fun p => decide (n ≤ poolSize p) && decide (0 < resLeft s cl o p) && decide (0 < poolFree s cl p)) with
  | some p => some p
  | none =>
    match (List.range 6).find? (fun p => decide (n ≤ poolSize p) && decide (0 < sharedFree s cl p) &&
        decide (heldBytes s cl o + poolSize p ≤ w.limitKib * 1024)) with
    | some p => some p
    | none =>
      if mayOverflow o && w.ovfEn && decide (n ≤ 16384) && decide (heldBy s cl o 6 < w.ovfLimit) &&
          decide (0 < poolFree s cl 6) then some 6 else none

/-- Take a buffer of a pool: the free one of the lowest number (DESIGN CHOICE, log entry 17). -/
def takeBuf (cl p o refs : Nat) (s : State) : State × Nat :=
  let held := (heldIn s cl p).map (fun b => bufIdx b.1)
  let out := (unusable s cl p).map bufIdx
  let k := bufKey cl p (if out.isEmpty then lowestGap 0 held else firstOutside (held.length + out.length) 0 (held ++ out))
  let r := getBuf s k
  (setBuf k { held := true, owner := o, refs := refs, gen := r.gen + 1, noted := none, lost := false } s, k)

/-- A REFUSED allocation counts in OWN_DROP of its owner (R414). -/
def countRefused (cl o : Nat) (s : State) : State := modOwner cl o (fun x => { x with drop := satInc 1 x.drop }) s

/-- `alloc` of R414. -/
def allocBuf (cl o n refs : Nat) (s : State) : State × Option Nat :=
  match allocPool s cl o n with
  | some p => let (s, k) := takeBuf cl p o refs s; (s, some k)
  | none => (countRefused cl o s, none)

/-- An error record of a BPM (R540): which check failed, the owner and the buffer. -/
def bpmReport (cl code o k opc : Nat) (s : State) : State :=
  let r := newReport s (unitCl 0x0A cl 0) 0x0B opc
  report { r with syndrome := BitVec.ofNat 128 (code + o % 8192 * 65536 + k * 2 ^ 32) } s

/-- Buffers an arriving frame's decision holds. -/
def decisionBufs (d : Option Decision) : List Nat :=
  match d with
  | some (.forward _ _ (some b)) => [b]
  | _ => []

/-- Remove every reference to a buffer: its frame or message is dropped, and a queue left empty has no deficit (R430). -/
def dropRefs (k : Nat) (s : State) : State :=
  { s with
    egq := s.egq.map (fun e =>
      let left := e.2.frames.filter (fun f => decide (f.buf ≠ k))
      (e.1, if left.length = e.2.frames.length then e.2
        else { e.2 with frames := left, deficit := if left.isEmpty then 0 else e.2.deficit }))
    ports := s.ports.map (fun e => (e.1, { e.2 with
      tx := e.2.tx.filter (fun t => !decide (t.frame.map (fun f => f.buf) = some k)) }))
    ingress := s.ingress.map (fun e => (e.1, e.2.map (fun i =>
      if (decisionBufs i.decided).contains k then { i with decided := some (.drop []) } else i)))
    ctxs := s.ctxs.map (fun e => (e.1, { e.2 with
      chans := e.2.chans.map (fun c => (c.1, { c.2 with
        copies := c.2.copies.filter (fun p => decide (p.buf ≠ k))
        tail := c.2.tail.filter (fun t => decide (t.1 ≠ k)) }))
      rx := e.2.rx.filter (fun r => decide (r.1 ≠ k)) }))
    groups := s.groups.map (fun e => (e.1, { e.2 with
      inputs := e.2.inputs.filter (fun b => decide (b.buf ≠ k))
      early := e.2.early.filter (fun m => decide (m.buf ≠ k))
      step := e.2.step.map (fun st => { st with taken := st.taken.filter (fun b => decide (b.buf ≠ k)) }) })) }

/-- A buffer record is met that cannot be read without an uncorrectable error (R534): the buffer is withdrawn from its pool
until reset, no owner holds it any more, and its frame or message is dropped. -/
def withdraw (k opc : Nat) (s : State) : State :=
  let r := getBuf s k
  let s := dropRefs k { s with bad := s.bad.filter (fun d => decide (d ≠ .buffer k)) }
  bpmReport (bufCl k) 5 r.owner k opc (setBuf k { r with held := false, refs := 0, noted := none, lost := true } s)

def badBuf (s : State) (k : Nat) : Bool := s.bad.contains (.buffer k)

/-- A free request in the name of `o` (R419). -/
def freeBuf (o k : Nat) (s : State) : State :=
  let r := getBuf s k
  let cl := bufCl k
  if badBuf s k then withdraw k 9 s
  else if !r.held then bpmReport cl 1 o k 9 (bumpSat (bpmRegs cl + 0x70) 1 s)
  else if r.owner ≠ o then bpmReport cl 2 o k 9 (bumpSat (bpmRegs cl + 0x74) 1 s)
  else setBuf k { r with held := false, refs := 0, noted := none } s

/-- A user gives its reference up (R417, R418): the last reference of a multicast buffer frees it. -/
def releaseRef (k : Nat) (s : State) : State :=
  let r := getBuf s k
  if r.refs ≤ 1 || badBuf s k then freeBuf r.owner k s else setBuf k { r with refs := r.refs - 1 } s

/-- A queue is done with a frame: it frees its own buffer, or releases its reference to a multicast one. -/
def dropFrameBuf (f : QFrame) (s : State) : State :=
  if f.owner = 0x1411 then releaseRef f.buf s else freeBuf f.owner f.buf s

/-- A handover moves the charge of a buffer to another owner in one step (R417). -/
def handoverBuf (k o : Nat) (s : State) : State :=
  let r := getBuf s k
  if r.held then setBuf k { r with owner := o } s else s

/-- Bytes into a buffer and out of it: the slice is memory (R47), so they carry the poison of their granules. -/
def fillBuf (k off : Nat) (bs : List PByte) (s : State) : State := writeMem (bufAddr s k + off) bs s

def loadBuf (k off len : Nat) (s : State) : List PByte × State := readMem (bufAddr s k + off) len 1 s

/-! ### Registers of the block (R410, R412, R425) -/

/-- Sum of the six values of POOL_CFG_A and POOL_CFG_B. -/
def poolCfgMib (s : State) (cl : Nat) : List Nat :=
  (List.range 4).map (fun p => regField s (bpmRegs cl + 4) (8 * p) 8) ++
  (List.range 2).map (fun p => regField s (bpmRegs cl + 8) (8 * p) 8)

/-- A write of 1 to APPLY (R410). -/
def applyPools (cl : Nat) (s : State) : State :=
  let m := poolCfgMib s cl
  let portsDown := (List.range 128).all (fun i => !adminUp s (128 * cl + i))
  let groups := s.owners.any (fun x => decide (x.1 / 8192 = cl) && x.2.locked)
  if m.sum = 32 ∧ portsDown ∧ !groups ∧ heldBufs s cl = [] then
    setField (bpmRegs cl) 0 1 0 { s with poolMib := setAt s.poolMib cl m }
  else setField (bpmRegs cl) 0 1 1 s

/-- BPM_CTL as it is written: AUDIT_EN is stored, APPLY acts. -/
def bpmCtlWrite (cl : Nat) (v : W32) (s : State) : State :=
  let s := setField (bpmRegs cl + 0xC) 1 1 (fld v 1 1) s
  if bitOf v 0 then applyPools cl s else s

/-- Owner shown by OWN_SEL. -/
def ownSel (s : State) (cl : Nat) : Nat := regField s (bpmRegs cl + 0x100) 0 13

/-- Software may write the settings of an owner that exists and is no group owner (R411, R412). -/
def ownWritable (s : State) (cl o : Nat) : Bool := ownerExists s cl o && !(decide (0x400 ≤ o) && decide (o < 0x1400))

/-- A write of OWN_RES of pools 2`pair` and 2`pair` + 1 (R412): one that would raise the sum of the reserved
counts above the pool's buffers is ignored. -/
def ownResWrite (cl pair : Nat) (v : W32) (s : State) : State :=
  let o := ownSel s cl
  if !ownWritable s cl o then s
  else
    let x := getOwner s cl o
    let lacks := fun (p n : Nat) =>
      decide (x.resOf p < n) && decide (poolCount s cl p < resSum s cl p - x.resOf p + n)
    if lacks (2 * pair) (fld v 0 16) || lacks (2 * pair + 1) (fld v 16 16) then
      setOwner cl o { x with resRefused := true } s
    else
      setOwner cl o { x with res := setAt (setAt x.res (2 * pair) (fld v 0 16)) (2 * pair + 1) (fld v 16 16) } s

/-- POOL_APPLY (R410) -/
def execPoolApply (by' : Initiator) (cl : Fin 8) (v : W32) (s : State) : Host.Outcome State Fault Refusal :=
  let a := bpmRegs cl.val + 0xC
  .next (if mayAccess s by' a 4 .write then bpmCtlWrite cl.val (v ||| 1) s else refuseAccess by' a s)

/-- OWN_RES_WRITE (R412) -/
def execOwnResWrite (by' : Initiator) (cl : Fin 8) (pair : Fin 3) (v : W32) (s : State) :
    Host.Outcome State Fault Refusal :=
  let a := bpmRegs cl.val + 0x104 + 4 * pair.val
  .next (if mayAccess s by' a 4 .write then ownResWrite cl.val pair.val v s else refuseAccess by' a s)

end Sys2Proof.Machine
end

