-- ==== Sys2Proof/Machine/Switch.lean ====
section
/-! DEFINITION. The switch core's ingress side (11_switch_core_and_buffers.md): staging, header acceptance, classes,
policers, decisions, frame ends, and the queues that take frames in. -/

namespace Sys2Proof.Machine

/-! ### Cycle counts -/

/-- FWD cycle count of a cluster's region, as far as it has been seen. -/
def fwdNow (s : State) (cl : Nat) : Nat := (s.fwdCount.getD cl 0).toNat

/-- A command that names a cycle of a region moves the count seen forward. -/
def advanceFwd (cl : Nat) (now : W64) (s : State) : State :=
  if (s.fwdCount.getD cl 0).toNat < now.toNat then { s with fwdCount := setAt s.fwdCount cl now } else s

/-! ### Shapers (R434, R435) -/

/-- TAT less now, as their signed 40-bit difference with 20 fraction bits (R438). -/
def tatAhead (tat now : Nat) : Int := sext 60 ((((tat : Int) - (now * 2 ^ 20 : Nat)) % 2 ^ 60).toNat)

/-- Does a shaper allow a start in cycle `now`? `cpu` has 20 fraction bits, as TAT has. -/
def shaperAllows (tat cpu burst now : Nat) : Bool := decide (tatAhead tat now ≤ (burst * cpu : Nat))

/-- TAT after a charge of `l` units. -/
def shaperCharge (tat cpu l now : Nat) : Nat := (now * 2 ^ 20 + (tatAhead tat now).toNat) + l * cpu

/-- A TAT of cluster `cl`'s region as the last clamp left it (R438). -/
def clamped (s : State) (cl tat : Nat) : Nat := Nat.max tat (s.clampLo.getD cl 0)

/-- OVERHEAD of a port. -/
def portOverhead (s : State) (p : Nat) : Int := sext 8 (regField s (portSched p) 8 8)

/-- Length units of a frame of `len` bytes with FCS (R434). -/
def lengthUnits (pkt : Bool) (overhead : Int) (len : Nat) : Nat :=
  if pkt then 1 else Nat.max 1 ((len : Int) + overhead).toNat

/-! ### Punted frames (R506) -/

/-- Hand a frame to the MC's management endpoint: one slot of the punt ring, and its event. -/
def puntFrame (port : Nat) (f : List PByte) (s : State) : State :=
  if regField s (evtRegs + 0x30) 0 1 = 0 then s
  else
    let slot := leBytes 2 f.length ++ leBytes 2 port ++ [BitVec.ofNat 8 (boolNat (decide (2032 < f.length)))] ++
      List.replicate 11 0
    let t := (getRing s 16).tail
    let (s, rs) := ringPut 16 2048 (clean slot ++ f.take 2032) s
    let s := reports rs s
    if (getRing s 16).tail = t then s
    else event 7 (if port < 1024 then port / 128 else 0xFF) 0 (getRing s 16).tail s

/-! ### Egress queues -/

def egKey (port cls : Nat) : Nat := port * 8 + cls

def getEq (s : State) (port cls : Nat) : EgQueue := mget EgQueue.reset s.egq (egKey port cls)

def setEq (port cls : Nat) (q : EgQueue) (s : State) : State := { s with egq := mput EgQueue.reset s.egq (egKey port cls) q }

/-- Stored bytes of frames of one arrival port and class still held in any slice (R445). -/
def pfcHeld (s : State) (port cls : Nat) : Nat :=
  let mine := fun (f : QFrame) => decide (f.inPort = port) && decide (f.inCls = cls)
  let q := s.egq.flatMap (fun e => e.2.frames.filter mine)
  let t := s.ports.flatMap (fun e => (e.2.tx.filterMap (fun t => t.frame)).filter mine)
  -- the copies of a multicast frame share a buffer
  (((q ++ t).map (fun f => (f.buf, f.len))).eraseDups.map (fun x => x.2)).sum

/-- Priority flow control of an arrival port after its held bytes have changed (R445). -/
def pfcUpdate (port : Nat) (s : State) : State :=
  if 1024 ≤ port || harnessRole s port then s
  else
    (List.range 8).foldl (fun s c =>
      let p := getPort s port
      let n := pfcHeld s port c
      let on := p.xoff.getD c false
      if !regBit s (pfcRegs port) (8 + c) then s
      else if !on && decide (regField s (pfcRegs port + 4) 0 26 ≤ n) then
        setPort port { p with xoff := setAt p.xoff c true, pfcOut := p.pfcOut ++ [(c, 0xFFFF)] } s
      else if on && decide (n ≤ regField s (pfcRegs port + 8) 0 26) then
        setPort port { p with xoff := setAt p.xoff c false, pfcOut := p.pfcOut ++ [(c, 0)] } s
      else s) s
where
  regBit (s : State) (a i : Nat) : Bool := bitOf (getReg s a) i

/-- A frame or copy leaves the machine's queues: its buffer, and the flow control of the port it came from. -/
def retireFrame (f : QFrame) (s : State) : State := pfcUpdate f.inPort (dropFrameBuf f s)

/-- While a privileged port's link is down, every frame directed to it is refused at enqueue (R421). -/
def refusedAtEnqueue (s : State) (port : Nat) : Bool :=
  if port < 1024 then harnessRole s port && !linkUp s port else s.mgmtDown.getD (port - 1024) false

def countOwnDrop (port cls : Nat) (s : State) : State :=
  modOwner (egCluster port) (egOwner port cls) (fun x => { x with drop := satInc 1 x.drop }) s

/-- Length with FCS that a frame leaves with (R431). -/
def egressLength (f : List Byte) (rw : Option Rewrite) : Nat :=
  match rw with
  | none => f.length + 4
  | some r => Nat.max 60 (f.length - (parseFrame f).l3off + (if r.tag then 18 else 14)) + 4

/-- Put a frame whose buffer is held at the end of its queue (R420); `via`: the route of one in transit through the harness. -/
def linkFrame (port cls : Nat) (buf owner : Nat) (f : List PByte) (rw : Option Rewrite) (inPort inCls : Nat) (s : State)
    (via : Option Worm := none) : State :=
  let s := fillBuf buf 0 (f.take (poolSize (bufPool buf))) s
  let q := getEq s port cls
  let e : QFrame := { buf := buf, owner := owner, len := f.length, stamp := fwdNow s (egCluster port) % 2 ^ 40,
                      inPort := inPort, inCls := inCls, rw := rw, elen := egressLength (bytesOf f) rw, via := via }
  pfcUpdate inPort (setEq port cls { q with frames := q.frames ++ [e] } s)

/-- Enqueue a frame for one port: allocate, store and link it, or refuse it (R414, R421). -/
def enqueueFrame (port cls : Nat) (f : List PByte) (rw : Option Rewrite) (inPort inCls : Nat) (s : State)
    (via : Option Worm := none) : State :=
  if refusedAtEnqueue s port then countOwnDrop port cls s
  else
    let o := egOwner port cls
    match allocBuf (egCluster port) o f.length 1 s with
    | (s, none) => s
    | (s, some b) => linkFrame port cls b o f rw inPort inCls s via

/-- Enqueue a multicast frame: one buffer for each egress cluster, one copy for each port (R418). -/
def enqueueFlood (ports : List Nat) (cls : Nat) (f : List PByte) (inPort : Nat) (s : State) : State :=
  let (s, ports) := ports.foldl (fun (x : State × List Nat) p =>
    if refusedAtEnqueue x.1 p then (countOwnDrop p cls x.1, x.2) else (x.1, x.2 ++ [p])) (s, [])
  (List.range 8).foldl (fun s cl =>
    let mine := ports.filter (fun p => decide (p / 128 = cl))
    if mine = [] then s
    else
      match allocBuf cl 0x1411 f.length mine.length s with
      | (s, none) => s
      | (s, some b) => mine.foldl (fun s p => linkFrame p cls b 0x1411 f none inPort cls s) s) s

/-! ### Header acceptance (R398, R403, R439, R444, R446) -/

/-- Class under TRUST (R398 step 2). -/
def frameClass (s : State) (p : Nat) (h : Hdr) : Nat :=
  let c := portRegs p + 4
  let fp := fpRegs (p / 32)
  if regField s c 15 2 = 1 ∧ h.tagged then regField s (fp + 0x80) (4 * h.pcp) 3
  else if regField s c 15 2 = 2 ∧ h.l3 ≠ 0 then regField s (fp + 0xA0 + 4 * (h.dscp / 8)) (4 * (h.dscp % 8)) 3
  else regField s c 12 3

/-- A policer tests a frame (R439): true when it passes. POL_DROP waits for the frame's FCS (R407). -/
def police (p cls len now : Nat) (s : State) : State × Bool :=
  let r := policerRegs p cls
  if harnessRole s p || !bitOf (getReg s r) 0 then (s, true)
  else
    let k := p * 8 + cls
    let tat := clamped s (p / 128) (mget 0 s.policers k)
    let cpu := (getReg s (r + 4)).toNat
    if shaperAllows tat cpu (regField s (r + 8) 0 24) now then
      let l := lengthUnits (bitOf (getReg s r) 1) (portOverhead s p) len
      (addCtr (r + 0x10) 1 { s with policers := mput 0 s.policers k (shaperCharge tat cpu l now) }, true)
    else (s, false)

/-- The tests of R446 on a frame for a local address. -/
def isTft (s : State) (h : Hdr) : Bool :=
  let port := regField s tftDev 0 16
  decide (port ≠ 0) && decide (h.proto = 17) && decide (h.dport = port) && decide (40 ≤ h.ulen) &&
    (decide (h.l3 = 6) || (decide (h.ihl = 5) && !h.frag))

/-- Counters of a drop in the steps of R398: FWD_DROP, and what else the step names. -/
def fwdDrop (fp : Nat) (more : List Nat) : Decision := .drop ((fpRegs fp + 0x24) :: more)

/-- A frame for one egress port (R398 step 7, R399). -/
def toPort (s : State) (p out : Nat) (rw : Option Rewrite) (routed : Bool) : Decision :=
  if !isPort s out || (decide (out = p) && !routed) then fwdDrop (p / 32) [] else .forward out rw none

/-- A frame for a local address (R398 step 5, R446). -/
def toLocal (s : State) (h : Hdr) : Decision := if isTft s h then .terminate else .punt

/-- A frame that step 1 of R398 drops (R444). -/
def malformedFrame (h : Hdr) : Bool := (h.tagged && decide (h.vid = 4095)) || (decide (h.l3 ≠ 0) && !h.ok)

/-- What a pipeline decides of a frame (R398, R444). `noTtl`: it was routed by another device of the harness
(R481). -/
def decideFrame (s : State) (p cls : Nat) (noTtl : Bool) (f : List Byte) (h : Hdr) : Decision :=
  let die := p / 256
  let fp := p / 32
  if malformedFrame h then fwdDrop fp []
  else if 0x0180_C200_0000 ≤ h.dmac ∧ h.dmac ≤ 0x0180_C200_000F then .punt
  else
    let vid := if h.tagged ∧ h.vid ≠ 0 then h.vid else regField s (portRegs p + 4) 0 12
    if lookupRmac s die h.dmac then
      if h.l3 = 0 then .punt
      else if isLocal s die (decide (h.l3 = 6)) h.dst then toLocal s h
      else
        match lookupRoute s die (decide (h.l3 = 6)) h.dst with
        | none => fwdDrop fp []
        | some r =>
          if ¬ noTtl ∧ h.ttl ≤ 1 then fwdDrop fp [fpRegs fp + 0x28]
          else
            match chooseHop s die r f h with
            | .ecmpDown => fwdDrop fp [fpRegs fp + 0x2C]
            | .bad => fwdDrop fp []
            | .entry e =>
              if nhAct e = 1 then fwdDrop fp []
              else if nhAct e = 2 then toLocal s h
              else toPort s p (nhPort e) (some { hopRewrite e h.dmac cls with dec := !noTtl }) true
    else
      let v := ftEntry s die 1 vid
      if bitsOf v 0 1 = 0 then fwdDrop fp []
      else
        match lookupMac s die vid h.dmac with
        | some (0, out) => toPort s p out none false
        | some _ => fwdDrop fp []
        | none =>
          if bitsOf v 1 1 = 1 then .flood ((mcastPorts s die (bitsOf v 2 12)).filter (fun x => decide (x ≠ p)))
          else fwdDrop fp []

/-- Stored length an IP header promises, padding included; without an IP length, the frame's own (R414). -/
def promisedLength (f : List Byte) (h : Hdr) : Nat := if h.l3 ≠ 0 then Nat.max 60 h.ipEnd else f.length

/-- The conditions of R404 on ports, rate, addressing and length, judged at the header. -/
def cutThroughOk (s : State) (p out : Nat) (h : Hdr) (n : Nat) : Bool :=
  !harnessRole s p && !harnessRole s out && ctEnabled s p && ctEnabled s out &&
    decide (portLanes s out ≤ portLanes s p) && decide (h.dmac / 2 ^ 40 % 2 = 0) && decide (h.l3 ≠ 0) &&
    decide (n + 4 ≤ maxFrame s p)

/-- Forwarding table entries that hold uncorrectable errors and that a lookup meets, the lookup being what `f` reads of the
tables of pipeline `fp`'s die: those without which its result is another. Each is recorded once. Answers whether there is one:
what looks such an entry up is dropped (R534). -/
def tablesMet {α : Type} [DecidableEq α] (fp : Nat) (f : State → α) (s : State) : State × Bool :=
  let hit := s.bad.filterMap (fun d =>
    match d with
    | .entry k met => if k / 2 ^ 24 = fp / 8 ∧ f { s with ft := mdel s.ft k } ≠ f s then some (k, met) else none
    | _ => none)
  (hit.foldl (fun s h => if h.2 then s else
    report (newReport s (unitCl 9 (fp / 4) fp) 1 1)
      { s with bad := s.bad.map (fun d => if d = .entry h.1 false then .entry h.1 true else d) }) s, !hit.isEmpty)

/-- The FWD cycle in which a pipeline accepts a header that stands ready in cycle `now`: it accepts one in each cycle (R395).
Its rotation over lane groups and ports is the order of the commands (DESIGN CHOICE, log entry 105). -/
def acceptCycle (fp now : Nat) (s : State) : Nat × State :=
  let t := Nat.max now (s.hdrAt.getD fp 0)
  (t, { s with hdrAt := setAt s.hdrAt fp (t + 1) })

/-- A pipeline accepts a header that stands ready in cycle `now` (R395, R398): the frame's class, its decision, and the cycle
in which it is a candidate for cut-through, if it is one (R432). -/
def acceptHeader (p : Nat) (noTtl : Bool) (f : List Byte) (now : Nat) (s : State) : State × Nat × Decision × Option Nat :=
  if f.length < 14 ∨ beAt f 12 2 = 0x8808 then (s, 0, .control, none)
  else
    let h := parseFrame f
    let (now, s) := acceptCycle (p / 32) now s
    let s := addCtr (fpRegs (p / 32)) 1 s
    let cls := frameClass s p h
    let n := promisedLength f h
    match if malformedFrame h then (s, true) else police p cls (n + 4) now s with
    | (s, false) => (s, cls, .drop [policerRegs p cls + 0xC], none)
    | (s, true) =>
      match tablesMet (p / 32) (fun s => decideFrame s p cls noTtl f h) s with
      | (s, true) => (s, cls, fwdDrop (p / 32) [], none)
      | (s, false) =>
        match decideFrame s p cls noTtl f h with
        | .forward out rw _ =>
          if h.l3 = 0 ∨ refusedAtEnqueue s out then (s, cls, .forward out rw none, none)
          else
            let cl := egCluster out
            let o := egOwner out cls
            match allocPool s cl o n with
            | none => (s, cls, .refused out, none)
            | some q =>
              let (s, b) := takeBuf cl q o 1 s
              (s, cls, .forward out rw (some b), if q < 6 ∧ cutThroughOk s p out h n then some (now + 1) else none)
        | d => (s, cls, d, none)

/-- The length by which a frame is policed and stored is known at its end only: it has no IP length (R414). -/
def needsEnd (f : List Byte) : Bool :=
  decide (14 ≤ f.length) && decide (beAt f 12 2 ≠ 0x8808) && decide ((parseFrame f).l3 = 0)

/-! ### The staging queue (R395) -/

/-- Bytes in a lane group's ingress staging queue: frames that wait for their headers' acceptance, and frames put together on
its harness ports (R481). -/
def stagingFill (s : State) (g : Nat) : Nat :=
  mget 0 s.staging g + (s.harness.segs.map (fun e =>
    match e.2 with
    | some x => if e.1 / 8 = g then x.bytes.length else 0
    | none => 0)).sum

/-- The staging queue is full for a frame of port `p`. -/
def stagingFull (s : State) (p : Nat) : Bool := decide (32768 - stagingFill s (p / 8) < maxFrame s p)

/-- Bytes leave a staging queue. -/
def unstage (g n : Nat) (s : State) : State := { s with staging := mput 0 s.staging g (mget 0 s.staging g - n) }

/-! ### Frame ends (R394, R406, R407) -/

/-- LEN_ERR: the frame's length differs from the one its IP header gave, padding apart (R406). -/
def lenErr (f : List Byte) : Bool :=
  let h := parseFrame f
  decide (h.l3 ≠ 0) && h.ok && (decide (f.length < h.ipEnd) || (decide (h.ipEnd < f.length) && decide (60 < f.length)))

/-- The frame in a buffer the decision had taken comes to nothing. -/
def abandonDecision (d : Decision) (s : State) : State :=
  match d with
  | .forward _ _ (some b) => freeBuf (getBuf s b).owner b s
  | _ => s

/-- The packet of a frame that came in at port `p`, to the home cluster of the context it names (R37); `damaged`: its FCS was
wrong (R453). -/
def packetIn (p : Nat) (h : Hdr) (pkt : List PByte) (damaged : Bool) (s : State) : State :=
  let a : Arrival := { ingress := p / 128, packet := bytesOf pkt, ce := decide (h.ecn = 3), v6 := decide (h.l3 = 6),
                       srcIp := BitVec.ofNat 128 h.src, damaged := damaged, shid := none, slot := none,
                       poison := if anyPoison pkt then pkt.map (fun b => b.2) else [] }
  let k := (getCtx s (leAt a.packet 0 8 / 2 ^ 16 % 2 ^ 18)).homeCl.toNat
  { s with arrivals := mput [] s.arrivals k (mget [] s.arrivals k ++ [a]) }

/-- A TFT frame whose FCS is wrong is a damaged packet of the context it names, which its home cluster counts and records
(R453). -/
def damagedFrame (p : Nat) (f : List PByte) (s : State) : State :=
  let h := parseFrame (bytesOf f)
  let pkt := ((f.drop h.l4off).take h.ulen).drop 8
  let x := getCtx s (leAt (bytesOf pkt) 0 8 / 2 ^ 16 % 2 ^ 18)
  if x.isOpen && !x.failed then packetIn p h pkt true s else s

/-- Payload of a TFT frame crosses to the home cluster of its context (R37, R446). -/
def terminateFrame (p : Nat) (bs : List PByte) (s : State) : State :=
  let f := bytesOf bs
  let h := parseFrame f
  let cl := p / 128
  let s := addCtr (fpRegs (p / 32) + 8) 1 s
  let seg := (f.drop h.l4off).take h.ulen
  let pkt := seg.drop 8
  if h.l3 = 6 ∧ (seg.length < h.ulen ∨ beAt seg 6 2 ≠ udp6Sum h.src h.dst seg) then bumpSat (tftRegs cl + 0x10) 1 s
  else
    let x := getCtx s (leAt pkt 0 8 / 2 ^ 16 % 2 ^ 18)
    if !x.isOpen || x.failed then bumpSat (tftRegs cl + 0xC) 1 s
    else packetIn p h (((bs.drop h.l4off).take h.ulen).drop 8) false s

/-- A frame that passed its checks goes where its decision says; `f` is the frame without FCS. -/
def deliverFrame (p cls : Nat) (d : Decision) (f : List PByte) (s : State) : State :=
  match d with
  | .drop cs => cs.foldl (fun s a => bumpSat a 1 s) s
  | .control => s
  | .punt => puntFrame p f s
  | .terminate => terminateFrame p f s
  | .refused out => countOwnDrop out cls s
  | .forward out rw none => enqueueFrame out cls f rw p cls s
  | .forward out rw (some b) =>
    if refusedAtEnqueue s out then freeBuf (getBuf s b).owner b (countOwnDrop out cls s)
    else linkFrame out cls b (egOwner out cls) f rw p cls s
  | .flood ports => enqueueFlood ports cls f p s

/-- Which of the FCS counters a frame with a wrong FCS counts in (R407). -/
def fcsCounter (body fcs : List Byte) : Nat := if fcs = (fcsOf body).map (fun b => ~~~b) then 0x20 else 0x1C

/-- Change the cut-through frame that a buffer feeds. -/
def modTxOf (out b : Nat) (g : TxFrame → TxFrame) (s : State) : State :=
  modPort out (fun x => { x with tx := x.tx.map (fun t =>
    if t.cutThrough ∧ (t.frame.map (fun f => f.buf)) = some b then g t else t) }) s

/-- The end of a frame that has started as a cut-through frame (R405, R406): its last bytes follow, with the FCS of
what was sent, or its inverse when a check failed. -/
def endCutThrough (i : InFrame) (body : List Byte) (bad : Bool) (s : State) : State :=
  match i.decided with
  | some (.forward out rw (some b)) =>
    let h := parseFrame body
    let s := fillBuf b 0 (clean (body.take (poolSize (bufPool b)))) s
    let s := if bad then bumpSat (fpRegs (out / 32) + 0x48) 1 s else s
    modTxOf out b (fun t =>
      let sent := match rw with
        | some r => rewriteFrame body h r
        | none => body
      let sent := if t.marked then markCe sent (parseFrame sent) else sent
      { t with bytes := if bad then withStomp sent else withFcs sent, stomped := bad, open' := false, waits := false }) s
  | _ => s

/-- A frame comes to nothing: its buffer is free again; one that has started as a cut-through frame is ended stomped. -/
def dropArrived (i : InFrame) (body : List Byte) (s : State) : State :=
  if i.started then endCutThrough i body true s
  else
    match i.decided with
    | some d => abandonDecision d s
    | none => s

/-- A frame's last byte has arrived (R394, R406, R407). `i` is the frame as its header left it, `f` all of it. Its FCS is judged
first; a frame without IP length has its header accepted now (DEDUCED, log entry 106). -/
def endFrame (p : Nat) (i : InFrame) (f : List Byte) (now : Nat) (s : State) : State :=
  let fp := fpRegs (p / 32)
  let body := f.take (f.length - 4)
  let fcs := f.drop (f.length - 4)
  let short := decide (f.length < 64)
  let long := decide (maxFrame s p < f.length)
  let (s, i) :=
    if i.decided.isSome || short || long then (s, i)
    else
      let (s, cls, d, _) := acceptHeader p false body now (unstage (p / 8) i.bytes.length s)
      (s, { i with decided := some d, cls := cls })
  let fwd := match i.decided with
    | some (.forward _ _ _) => true
    | some (.flood _) => true
    | _ => false
  if i.damaged || decide (fcs ≠ fcsOf body) then
    let s := bumpSat (fp + (if i.damaged then 0x1C else fcsCounter body fcs)) 1 s
    let s := if i.decided = some .terminate then damagedFrame p (clean body) s else s
    dropArrived i body s
  else if short || long then dropArrived i body (bumpSat (if short then fp + 0x14 else fp + 0x18) 1 s)
  else if lenErr body && fwd then dropArrived i body (bumpSat (fp + 0x30) 1 s)
  else if i.started then endCutThrough i body false s
  else
    match i.decided with
    | none => s
    | some d => deliverFrame p i.cls d (clean body) s

/-! ### Meanings -/

def ingressOf (s : State) (p : Nat) : List InFrame := mget [] s.ingress p

def setIngress (p : Nat) (l : List InFrame) (s : State) : State := { s with ingress := mput [] s.ingress p l }

/-- Frames arrive only on the first lane of an ETHERNET-role port whose link is up; another lane is no port. -/
def receiving (s : State) (p : Nat) : Bool := linkUp s p && !harnessRole s p

/-- FRAME_START (R395): `staged` bytes wait in the lane group's staging queue at the frame's first byte. -/
def execFrameStart (lane : Fin 1024) (staged : BitVec 16) (s : State) : Host.Outcome State Fault Refusal :=
  let p := lane.val
  .next (if !receiving s p then s
    else
      let told := { s with staging := mdel s.staging (p / 8) }
      let s := { s with staging := mput 0 s.staging (p / 8) (staged.toNat - stagingFill told (p / 8)) }
      let full := stagingFull s p
      let i : InFrame := { refused := full, bytes := [], cls := 0, decided := none, candAt := none, started := false, damaged := false }
      let s := if full then bumpSat (fpRegs (p / 32) + 0x10) 1 s else s
      setIngress p (ingressOf s p ++ [i]) s)

/-- FRAME_HEADER (R398): the oldest frame of the port whose header has not come. One without IP length stays in the staging
queue until its end (R414). -/
def execFrameHeader (lane : Fin 1024) (bytes : List Byte) (now : W64) (s : State) : Host.Outcome State Fault Refusal :=
  let p := lane.val
  let s := advanceFwd (p / 128) now s
  let l := ingressOf s p
  .next (match l.findIdx? (fun i => !i.refused && i.decided.isNone && i.bytes.isEmpty) with
    | none => s
    | some k =>
      match l[k]? with
      | none => s
      | some i =>
        if needsEnd bytes then setIngress p (setAt l k { i with bytes := bytes }) s
        else
          let (s, cls, d, cand) := acceptHeader p false bytes now.toNat (unstage (p / 8) bytes.length s)
          setIngress p (setAt l k { i with bytes := bytes, cls := cls, decided := some d, candAt := cand }) s)

/-- FRAME_END (R407): the oldest frame of the port has arrived whole; `rest` is what follows the bytes its header
came with, its FCS last. -/
def execFrameEnd (lane : Fin 1024) (rest : List Byte) (now : W64) (s : State) : Host.Outcome State Fault Refusal :=
  let p := lane.val
  let s := advanceFwd (p / 128) now s
  .next (match ingressOf s p with
    | [] => s
    | i :: r =>
      let s := setIngress p r s
      if i.refused then s else endFrame p i (i.bytes ++ rest) now.toNat s)

/-! ### Forwarding table window (R400, R401) -/

/-- The command of FT_CMD: WRITE, else READ. -/
def ftCommand (die : Nat) (v : W32) (s : State) : State :=
  let b := ftRegs die
  let tbl := regField s b 0 4
  let idx := regField s b 4 20
  if fld v 0 2 = 0 then s
  else if 8 < tbl ∨ ftSize tbl ≤ idx then setField (b + 4) 2 1 1 s
  else
    let s := setField (b + 4) 2 1 0 s
    let k := ftKey die tbl idx
    if bitOf v 0 then
      -- a write repairs the entry (R534)
      let s := { s with bad := s.bad.filter (fun d => !(decide (d = .entry k false) || decide (d = .entry k true))) }
      let e := (List.range 8).foldl (fun a i => a + (getReg s (b + 0x20 + 4 * i)).toNat * 2 ^ (32 * i)) 0
      { s with ft := mput 0 s.ft k (BitVec.ofNat 256 e) }
    else
      let e := (mget 0 s.ft k).toNat
      (List.range 8).foldl (fun s i => setReg (b + 0x20 + 4 * i) (BitVec.ofNat 32 (e / 2 ^ (32 * i))) s) s

/-- FT_WRITE (R401) -/
def execFtWrite (by' : Initiator) (die : Fin 4) (v : W32) (s : State) : Host.Outcome State Fault Refusal :=
  let a := ftRegs die.val + 4
  .next (if mayAccess s by' a 4 .write then ftCommand die.val (v ||| 1) s else refuseAccess by' a s)

/-- FT_READ (R400): an FT_CMD write whose WRITE bit is 0 -/
def execFtRead (by' : Initiator) (die : Fin 4) (v : W32) (s : State) : Host.Outcome State Fault Refusal :=
  let a := ftRegs die.val + 4
  .next (if mayAccess s by' a 4 .write then ftCommand die.val ((v ||| 2) &&& ~~~(1 : W32)) s else refuseAccess by' a s)

end Sys2Proof.Machine
end

