-- ==== Sys2Proof/Machine/Egress.lean ====
section
/-! DEFINITION. The switch core's egress side (12_scheduling_and_policing.md and the rest of 11): the choice of port,
class and frame, shapers and the calendar wheel, transmission, age drops, flushes, lane group modes, links and
priority flow control. -/

namespace Sys2Proof.Machine

/-! ### Queues as they stand -/

/-- Q_CFG bits of a queue: SP, PKT, SHAPE_EN, MARK_EN. -/
def qSp (s : State) (p c : Nat) : Bool := bitOf (getReg s (queueRegs p c)) 0
def qPkt (s : State) (p c : Nat) : Bool := bitOf (getReg s (queueRegs p c)) 1
def qShape (s : State) (p c : Nat) : Bool := bitOf (getReg s (queueRegs p c)) 2
def qMark (s : State) (p c : Nat) : Bool := bitOf (getReg s (queueRegs p c)) 3
def qQuantum (s : State) (p c : Nat) : Nat := regField s (queueRegs p c) 8 24
def qCpu (s : State) (p c : Nat) : Nat := (getReg s (queueRegs p c + 4)).toNat
def qBurst (s : State) (p c : Nat) : Nat := regField s (queueRegs p c + 8) 0 24
def pShape (s : State) (p : Nat) : Bool := bitOf (getReg s (portSched p)) 0
def pPkt (s : State) (p : Nat) : Bool := bitOf (getReg s (portSched p)) 1
def pCpu (s : State) (p : Nat) : Nat := (getReg s (portSched p + 4)).toNat
def pBurst (s : State) (p : Nat) : Nat := regField s (portSched p + 8) 0 24

/-- The frame being cut through that a class queue holds as its only frame (R405). -/
def ctFrames (s : State) (p c : Nat) : List QFrame :=
  ((getPort s p).tx.filter (fun t => t.cutThrough && decide (t.cls = c))).filterMap (fun t => t.frame)

/-- Frames of a class queue, both tiers, and their stored bytes: Q_FRAMES, Q_BYTES (R442). -/
def queueFrames (s : State) (p c : Nat) : Nat := (getEq s p c).frames.length + (ctFrames s p c).length
def queueBytes (s : State) (p c : Nat) : Nat := (((getEq s p c).frames ++ ctFrames s p c).map (fun f => f.len)).sum

/-- Ports of an egress stage's optical engine that exist. -/
def fpPorts (s : State) (fp : Nat) : List Nat :=
  ((List.range 32).map (fun i => 32 * fp + i)).filter (isPort s)

/-! ### Cut-through candidates (R432) -/

/-- A frame whose header was accepted as a candidate for port `p`: where it arrives, its place there, its class,
its decision's buffer and rewriting. -/
structure Cand where
  inPort : Nat
  idx : Nat
  cls : Nat
  port : Nat
  buf : Nat
  rw : Option Rewrite
  frame : InFrame

/-- The candidates of an egress stage, by ascending ingress lane. -/
def candidates (s : State) (fp : Nat) : List Cand :=
  s.ingress.flatMap (fun e =>
    ((List.range e.2.length).filterMap (fun k =>
      match e.2[k]? with
      | some i =>
        match i.candAt, i.decided with
        | some _, some (.forward out rw (some b)) =>
          if out / 32 = fp ∧ ¬ i.started then
            some { inPort := e.1, idx := k, cls := i.cls, port := out, buf := b, rw := rw, frame := i } else none
        | _, _ => none
      | none => none)))

/-- A candidate may start in cycle `now`: its cycle has come, in the count of the ingress region where that is the
same; its class queue holds no other frame and its port sends none. -/
def candOpen (s : State) (now : Nat) (c : Cand) : Bool :=
  (decide (c.inPort / 128 ≠ c.port / 128) || decide (c.frame.candAt = some now)) &&
    decide (queueFrames s c.port c.cls = 0) && (getPort s c.port).tx.isEmpty

def candFor (s : State) (now p c : Nat) (cs : List Cand) : Option Cand :=
  cs.find? (fun x => decide (x.port = p) && decide (x.cls = c) && candOpen s now x)

/-- The candidate cycle of those of an egress stage that could have started by `now` is over: they are stored frames. One of the
stage's own region whose cycle has not come stays a candidate. -/
def closeCandidates (fp now : Nat) (s : State) : State :=
  (candidates s fp).foldl (fun s c =>
    if c.inPort / 128 = c.port / 128 ∧ now < c.frame.candAt.getD 0 then s else setIngress c.inPort ((ingressOf s c.inPort).map (fun i =>
      match i.decided with
      | some (.forward _ _ b) => if b = some c.buf then { i with candAt := none } else i
      | _ => i)) s) s

/-! ### Eligibility (R429, R430, R436) -/

/-- The head of a class queue in this cycle: its egress length, from the queue or from a candidate. -/
def headLength (s : State) (now p c : Nat) (cs : List Cand) : Option Nat :=
  match (getEq s p c).frames with
  | f :: _ => some f.elen
  | [] =>
    match candFor s now p c cs with
    | some x =>
      let h := parseFrame x.frame.bytes
      some ((match x.rw with
        | none => promisedLength x.frame.bytes h
        | some r => Nat.max 60 (promisedLength x.frame.bytes h - h.l3off + (if r.tag then 18 else 14))) + 4)
    | none => none

def queueAllowed (s : State) (now p c : Nat) : Bool :=
  !qShape s p c || ((getEq s p c).wheel.isNone && shaperAllows (clamped s (p / 128) (getEq s p c).tat) (qCpu s p c) (qBurst s p c) now)

def portAllowed (s : State) (now p : Nat) : Bool :=
  !pShape s p || ((getPort s p).wheel.isNone && shaperAllows (clamped s (p / 128) (getPort s p).tat) (pCpu s p) (pBurst s p) now)

/-- A class is paused from the cycle after the one in which its pause was decoded (R441) until the pause ends. -/
def classPaused (s : State) (now p c : Nat) : Bool :=
  match (getPort s p).paused.getD c none with
  | none => false
  | some e => decide (e.1 < now) && decide (now < e.2)

def eligible (s : State) (now p c : Nat) (cs : List Cand) : Bool :=
  (headLength s now p c cs).isSome && queueAllowed s now p c && !classPaused s now p c

def portUp (s : State) (p : Nat) : Bool := adminUp s p && linkUp s p

/-- Ready with a frame of a class (R429). -/
def portReady (s : State) (now p : Nat) (cs : List Cand) : Bool :=
  portUp s p && decide ((getPort s p).tx.length < 2) && portAllowed s now p &&
    (List.range 8).any (fun c => eligible s now p c cs)

/-- A frame of priority flow control goes ahead of every queued frame, neither shaped nor charged (R445). -/
def pfcReady (s : State) (p : Nat) : Bool :=
  portUp s p && decide ((getPort s p).tx.length < 2) && !(getPort s p).pfcOut.isEmpty

/-- First in rotation after the port served last, in ascending order with wrap. -/
def rotationPick (last : Nat) (ports : List Nat) : Option Nat :=
  match ports.find? (fun p => decide (last < p)) with
  | some p => some p
  | none => ports.head?

/-! ### Choice of a class (R430) -/

/-- The loop of the deficit round: class by class from `cur`, `E` the eligible classes that are not strict, with the
units of their heads. -/
def drrLoop (fuel : Nat) (quantum : Nat → Nat) (units : Nat → Option Nat) (cur : Nat) (deficit : List Nat) :
    Option Nat × Nat × List Nat :=
  match fuel with
  | 0 => (none, cur, deficit)
  | k + 1 =>
    let hit := match units cur with
      | some u => decide (u ≤ deficit.getD cur 0)
      | none => false
    if hit then (some cur, cur, deficit)
    else
      let nx := (cur + 1) % 8
      let d := if (units nx).isSome then setAt deficit nx (deficit.getD nx 0 + quantum nx) else deficit
      drrLoop k quantum units nx d

/-- `choose_class` of R430 with its effect on the deficits and the place of the round. A round adds at least one
unit to each eligible class, and no head has more than 16,512, which bounds the loop. -/
def chooseClass (p now : Nat) (cs : List Cand) (s : State) : State × Option Nat :=
  let el := fun c => eligible s now p c cs
  match [7, 6, 5, 4, 3, 2, 1, 0].find? (fun c => qSp s p c && el c) with
  | some c => (s, some c)
  | none =>
    let units := fun c => if el c && !qSp s p c then
        (headLength s now p c cs).map (fun l => lengthUnits (qPkt s p c) (portOverhead s p) l) else none
    if (List.range 8).all (fun c => (units c).isNone) then (s, none)
    else
      let d := (List.range 8).map (fun c => (getEq s p c).deficit)
      let (r, cur, d) := drrLoop (8 * 16520) (qQuantum s p) units (getPort s p).cur d
      let s := (List.range 8).foldl (fun s c =>
        if (getEq s p c).deficit = d.getD c 0 then s else setEq p c { getEq s p c with deficit := d.getD c 0 } s) s
      (modPort p (fun x => { x with cur := cur }) s, r)

/-! ### The calendar wheel (R436) -/

def slotLog2 (s : State) (fp : Nat) : Nat := regField s (wheelRegs fp) 0 4

/-- Begin of the slot for a TAT, and whether it lies beyond the horizon: the first boundary at or after the eligible
time, at most 4,095 slots ahead of the one `now` lies in. -/
def wheelSlot (k now tat allowance : Nat) : Nat × Bool :=
  let t := now * 2 ^ 20 + (tatAhead tat now - (allowance : Int)).toNat
  let slot := cdiv t (2 ^ (20 + k))
  let last := now / 2 ^ k + 4095
  if last < slot then (last * 2 ^ k, true) else (slot * 2 ^ k, false)

/-- Enter on the wheel each queue and port of a stage whose shaper stops it while it has a frame. -/
def enterWheel (fp now : Nat) (s : State) : State :=
  let k := slotLog2 s fp
  (fpPorts s fp).foldl (fun s p =>
    let s := (List.range 8).foldl (fun s c =>
      let q := getEq s p c
      let tat := clamped s (p / 128) q.tat
      if q.frames ≠ [] ∧ qShape s p c ∧ q.wheel = none ∧ ¬ shaperAllows tat (qCpu s p c) (qBurst s p c) now then
        let (b, far) := wheelSlot k now tat (qBurst s p c * qCpu s p c)
        let s := setEq p c { q with wheel := some b } s
        if far then bumpSat (wheelRegs fp + 4) 1 s else s
      else s) s
    let x := getPort s p
    let has := (List.range 8).any (fun c => decide ((getEq s p c).frames ≠ []))
    let tat := clamped s (p / 128) x.tat
    if has ∧ pShape s p ∧ x.wheel = none ∧ ¬ shaperAllows tat (pCpu s p) (pBurst s p) now then
      let (b, far) := wheelSlot k now tat (pBurst s p * pCpu s p)
      let s := setPort p { x with wheel := some b } s
      if far then bumpSat (wheelRegs fp + 4) 1 s else s
    else s) s

/-- WHEEL_USED -/
def wheelUsed (s : State) (fp : Nat) : Nat :=
  ((fpPorts s fp).map (fun p =>
    boolNat (getPort s p).wheel.isSome + ((List.range 8).map (fun c => boolNat (getEq s p c).wheel.isSome)).sum)).sum

/-! ### Starting a frame (R397, R404-R406, R431, R440) -/

/-- Charge a started frame of egress length `len` to its queue's shaper, its port's shaper and its class deficit; `stays`: it
is a cut-through frame, which its queue holds until it has been sent (R405), so that the queue is not empty yet. -/
def chargeStart (p c len now : Nat) (stays : Bool) (s : State) : State :=
  let o := portOverhead s p
  let u := lengthUnits (qPkt s p c) o len
  let q := getEq s p c
  let d := if qSp s p c then q.deficit else q.deficit - u
  let s := setEq p c { q with tat := shaperCharge (clamped s (p / 128) q.tat) (qCpu s p c) u now,
                              deficit := if q.frames.isEmpty && !stays then 0 else d } s
  let s := modPort p (fun x => { x with tat := shaperCharge (clamped s (p / 128) x.tat) (pCpu s p) (lengthUnits (pPkt s p) o len) now }) s
  addCtr (queueRegs p c + 0x28) u (addCtr (queueRegs p c + 0x20) 1 s)

/-- A queue is to mark this start (R440): `depth` counts the frame being started. -/
def marks (s : State) (p c : Nat) (h : Hdr) (deep : Bool) : Bool :=
  qMark s p c && !harnessRole s p && deep && decide (h.l3 ≠ 0) && h.ok && (decide (h.ecn = 1) || decide (h.ecn = 2))

/-- A queue that has become empty has no deficit (R430). -/
def settleDeficit (p c : Nat) (s : State) : State :=
  if queueFrames s p c = 0 ∧ (getEq s p c).deficit ≠ 0 then setEq p c { getEq s p c with deficit := 0 } s else s

/-! ### Frames on harness links (R478, R481) -/

/-- Cut the bytes of a frame into segments of at most 71 data flits. -/
def segments (fuel : Nat) (bs : List PByte) : List (List PByte) :=
  match fuel with
  | 0 => []
  | k + 1 => if bs.length ≤ 4544 then [bs] else bs.take 4544 :: segments k (bs.drop 4544)

/-- Poison bits of the data flits that carry bytes. -/
def flitPoison (bs : List PByte) : List Bool :=
  if anyPoison bs then (List.range ((bs.length + 63) / 64)).map (fun i => anyPoison ((bs.drop (64 * i)).take 64)) else []

/-- The bytes a frame leaves with, with the poison of the granules they came from: a new L2 header has none. -/
def sentPoison (f : QFrame) (stored : List PByte) (sent : List Byte) : List PByte :=
  let old := stored.map (fun b => b.2)
  let marks := match f.rw with
    | some r => List.replicate (if r.tag then 18 else 14) false ++ old.drop (parseFrame (bytesOf stored)).l3off
    | none => old
  sent.zipIdx.map (fun x => (x.1, marks.getD x.2 false))

/-- The worms a frame is sent in on harness port `p` (R478, R481). A frame that the tables forward to the port is for the device
at the other end; one in transit keeps its route (DEDUCED, log entry 107). -/
def frameWorms (s : State) (p : Nat) (f : QFrame) (sent : List PByte) : List Worm :=
  let h := parseFrame (bytesOf sent)
  let seed := (getReg s (ftRegs ((if f.inPort < 1024 then f.inPort else p) / 256) + 8)).toNat
  let route : Worm := f.via.getD
    { cls := .pkt, dhid := (getPort s p).peer, shid := s.harness.addr, hops := 0, routed := f.rw.isSome, first := true,
      last := true, bytes := [], poison := [],
      hash := BitVec.ofNat 32 (if h.l3 = 0 then 0 else ecmpHash seed (bytesOf sent) h) }
  let parts := segments 4 sent
  parts.zipIdx.map (fun x => { route with first := decide (x.2 = 0), last := decide (x.2 + 1 = parts.length),
                                          bytes := bytesOf x.1, poison := flitPoison x.1 })

/-- Start the head frame of a class queue. A frame whose buffer holds a poisoned granule is dropped instead, except
on a harness link, where its poison travels with it (R424). -/
def startStored (p c now : Nat) (s : State) : State :=
  let q := getEq s p c
  match q.frames with
  | [] => s
  | f :: rest =>
    if badBuf s f.buf then withdraw f.buf 1 s else
    let frames := queueFrames s p c
    let bytes := queueBytes s p c
    let (bs, s) := loadBuf f.buf 0 f.len s
    let empty := rest.isEmpty
    if anyPoison bs ∧ ¬ harnessRole s p then
      let s := setEq p c { getEq s p c with frames := rest, deficit := if empty then 0 else q.deficit } s
      retireFrame f (bumpSat (fpRegs (p / 32) + 0x38) 1 s)
    else
      let body := bytesOf bs
      let sent := match f.rw with
        | some r => rewriteFrame body (parseFrame body) r
        | none => body
      let h := parseFrame sent
      let thresh := regField s (queueRegs p c + 0xC) 0 26
      let m := marks s p c h (decide (thresh ≤ if qPkt s p c then frames else bytes))
      let sent := if m then markCe sent h else sent
      let s := if m then bumpSat (queueRegs p c + 0x1C) 1 s else s
      let s := setEq p c { getEq s p c with frames := rest } s
      let s := chargeStart p c f.elen now false s
      modPort p (fun x => { x with tx := x.tx ++
        [{ frame := some f, cls := c, bytes := if harnessRole s p then sent else withFcs sent, stomped := false, marked := m,
           open' := false, cutThrough := false, waits := false,
           worms := if harnessRole s p then frameWorms s p f (sentPoison f bs sent) else [] }] }) s

/-- Start a candidate as a cut-through frame (R405): it is charged by its IP length (R432), and marked only when
THRESH is 1 (R440). It is on its lane once the buffer holds its first 256 bytes, or all of it: where the bytes its header came
with are fewer, that is at its end, the next that the commands tell of it. -/
def startCandidate (x : Cand) (now : Nat) (s : State) : State :=
  let h := parseFrame x.frame.bytes
  let n := promisedLength x.frame.bytes h
  let elen := (match x.rw with
    | none => n
    | some r => Nat.max 60 (n - h.l3off + (if r.tag then 18 else 14))) + 4
  let m := marks s x.port x.cls h (decide (regField s (queueRegs x.port x.cls + 0xC) 0 26 = 1))
  let s := if m then bumpSat (queueRegs x.port x.cls + 0x1C) 1 s else s
  let f : QFrame := { buf := x.buf, owner := egOwner x.port x.cls, len := n, stamp := now % 2 ^ 40, inPort := x.inPort,
                      inCls := x.cls, rw := x.rw, elen := elen, via := none }
  let s := addCtr (fpRegs (x.port / 32) + 0x40) 1 s
  let s := chargeStart x.port x.cls elen now true s
  let s := setIngress x.inPort (setAt (ingressOf s x.inPort) x.idx { x.frame with started := true, candAt := none }) s
  let s := modPort x.port (fun y => { y with tx := y.tx ++
    [{ frame := some f, cls := x.cls, bytes := [], stomped := false, marked := m, open' := true, cutThrough := true,
       waits := decide (x.frame.bytes.length < Nat.min 256 n), worms := [] }] }) s
  pfcUpdate x.inPort s

/-- A frame of priority flow control (R445): MAC Control, opcode 0x0101, one class. -/
def pfcFrame (s : State) (p c quanta : Nat) : List Byte :=
  padTo 60 (beBytes 6 0x0180_C200_0001 ++ beBytes 6 (sourceMac s (p / 256)) ++ beBytes 2 0x8808 ++ beBytes 2 0x0101 ++
    beBytes 2 (2 ^ c) ++ (List.range 8).flatMap (fun i => beBytes 2 (if i = c then quanta else 0)))

/-- One FWD cycle of an egress stage (R428). -/
def egressCycle (fp now : Nat) (s : State) : State :=
  let cs := candidates s fp
  let s := enterWheel fp now s
  let ready := (fpPorts s fp).filter (fun p => pfcReady s p || portReady s now p cs)
  let s := match rotationPick (s.egLast.getD fp 0) ready with
    | none => s
    | some p =>
      let s := { s with egLast := setAt s.egLast fp p }
      if pfcReady s p then
        modPort p (fun x =>
          match x.pfcOut with
          | [] => x
          | (c, quanta) :: r =>
            { x with pfcOut := r, tx := x.tx ++
              [{ frame := none, cls := c, bytes := withFcs (pfcFrame s p c quanta), stomped := false, marked := false,
                 open' := false, cutThrough := false, waits := false, worms := [] }] }) s
      else
        match chooseClass p now cs s with
        | (s, none) => s
        | (s, some c) =>
          match (getEq s p c).frames with
          | _ :: _ => startStored p c now s
          | [] =>
            match candFor s now p c cs with
            | some x => startCandidate x now s
            | none => s
  closeCandidates fp now s

/-! ### The end of a transmission (R406, R418, R424) -/

/-- The decision of a cut-through frame whose buffer is gone. -/
def forgetBuffer (inPort buf : Nat) (s : State) : State :=
  setIngress inPort ((ingressOf s inPort).map (fun i =>
    match i.decided with
    | some (.forward o r b) => if b = some buf then { i with decided := some (.forward o r none) } else i
    | _ => i)) s

/-- The bytes a cut-through frame was sent with when its next bytes had not come: what had arrived, and a stomped FCS. -/
def cutShort (s : State) (f : QFrame) (marked : Bool) : List Byte :=
  match (ingressOf s f.inPort).find? (fun i =>
    match i.decided with
    | some (.forward _ _ b) => decide (b = some f.buf)
    | _ => false) with
  | some i =>
    let sent := match f.rw with
      | some r => rewriteFrame i.bytes (parseFrame i.bytes) r
      | none => i.bytes
    withStomp (if marked then markCe sent (parseFrame sent) else sent)
  | none => []

/-- The frame on a port's wire has been sent: its buffer is freed, or its reference released. One whose end had not
arrived was ended for want of bytes (CT_UNDERRUN); one whose buffer has come to hold poison since is ended stomped (R406); on
a harness link its worms are on their way. A frame that has not begun on its lane ends nothing (R405). -/
def txDone (p : Nat) (s : State) : State :=
  match (getPort s p).tx with
  | [] => s
  | t :: rest =>
    if t.waits then s else
    let s := modPort p (fun x => { x with tx := rest, wire := t.bytes }) s
    match t.frame with
    | none => s
    | some f =>
      let fp := fpRegs (p / 32)
      let s :=
        if t.open' then
          let s := bumpSat (fp + 0x48) 1 (bumpSat (fp + 0x34) 1 s)
          let s := modPort p (fun x => { x with wire := cutShort s f t.marked }) s
          forgetBuffer f.inPort f.buf s
        else if t.worms.isEmpty then
          let (bs, s) := loadBuf f.buf 0 f.len s
          if anyPoison bs then
            let s := bumpSat (fp + 0x38) 1 s
            let s := modPort p (fun x => { x with wire := withStomp (t.bytes.take (t.bytes.length - 4)) }) s
            if t.cutThrough ∧ ¬ t.stomped then bumpSat (fp + 0x48) 1 s else s
          else s
        else { s with wormOut := mset s.wormOut p t.worms }
      retireFrame f (if t.cutThrough then settleDeficit p t.cls s else s)

/-- FRAME_TX_DONE (R418) -/
def execFrameTxDone (lane : Fin 1024) (s : State) : Host.Outcome State Fault Refusal := .next (txDone lane.val s)

/-- MGMT_EGRESS_START (R433): strict priority, class 7 first; the buffer is freed. -/
def execMgmtEgressStart (m : Fin 2) (s : State) : Host.Outcome State Fault Refusal :=
  let p := 1024 + m.val
  .next (match [7, 6, 5, 4, 3, 2, 1, 0].find? (fun c => decide ((getEq s p c).frames ≠ [])) with
    | none => s
    | some c =>
      match (getEq s p c).frames with
      | [] => s
      | f :: rest =>
        if badBuf s f.buf then withdraw f.buf 1 s else
        let (bs, s) := loadBuf f.buf 0 f.len s
        let s := setEq p c { getEq s p c with frames := rest } s
        let s := if anyPoison bs then bumpSat (fpRegs 0 + 0x38) 1 s
          else { s with mgmtTx := setAt s.mgmtTx m.val (withFcs (bytesOf bs)) }
        retireFrame f s)

/-! ### Age limits (R420) -/

/-- Drop head frames while their age has reached the limit. -/
def ageDrop (fuel p c now : Nat) (s : State) : State :=
  match fuel with
  | 0 => s
  | k + 1 =>
    let q := getEq s p c
    let lim := (getOwner s (egCluster p) (egOwner p c)).ageLimit
    match q.frames with
    | [] => s
    | f :: rest =>
      if lim = 0 ∨ (now + 2 ^ 40 - f.stamp) % 2 ^ 40 < lim then s
      else
        let s := setEq p c { q with frames := rest, deficit := if rest.isEmpty then 0 else q.deficit } s
        let s := modOwner (egCluster p) (egOwner p c) (fun x => { x with ageDrop := satInc 1 x.ageDrop }) s
        ageDrop k p c now (retireFrame f s)

/-- AGE_DROP (R420); ports 1024 and 1025 are MGMT0 and MGMT1. -/
def execAgeDrop (port : Fin 1026) (cls : Fin 8) (now : W64) (s : State) : Host.Outcome State Fault Refusal :=
  let p := port.val
  let s := advanceFwd (egCluster p) now s
  .next (ageDrop (getEq s p cls.val).frames.length p cls.val (now.toNat % 2 ^ 40) s)

/-! ### Flushes, links, lane groups (R392, R421, R422) -/

/-- Everything a port holds for sending goes; `count`: the drops count in OWN_FLUSH_DROP. -/
def emptyPort (p : Nat) (count : Bool) (s : State) : State :=
  let s := (List.range 8).foldl (fun s c =>
    let q := getEq s p c
    let n := q.frames.length
    if n = 0 then s
    else
      let s := setEq p c { q with frames := [], deficit := 0, wheel := none } s
      let s := if count then modOwner (egCluster p) (egOwner p c) (fun x => { x with flushDrop := satInc n x.flushDrop }) s else s
      q.frames.foldl (fun s f => retireFrame f s) s) s
  let tx := (getPort s p).tx
  let s := modPort p (fun x => { x with tx := [], pfcOut := [] }) s
  tx.foldl (fun s t =>
    match t.frame with
    | none => s
    | some f =>
      let s := if count then modOwner (egCluster p) (egOwner p t.cls) (fun x => { x with flushDrop := satInc 1 x.flushDrop }) s else s
      let s := if t.open' then forgetBuffer f.inPort f.buf s else s
      retireFrame f (settleDeficit p t.cls s)) s

/-- The flush of a management port's queues (R421); the frame it sends is abandoned. -/
def flushMgmt (m : Nat) (s : State) : State :=
  emptyPort (1024 + m) true { s with mgmtTx := setAt s.mgmtTx m [] }

/-- The link of a management port falls or comes back (R421). -/
def mgmtLink (m : Nat) (down : Bool) (s : State) : State :=
  let s := { s with mgmtDown := setAt s.mgmtDown m down }
  if down then flushMgmt m s else s

/-- Frames that were arriving when the link went: they never end. A cut-through frame already started runs out of
bytes (R406). -/
def cutArrivals (p : Nat) (s : State) : State :=
  let l := ingressOf s p
  let s := setIngress p [] s
  l.foldl (fun s i => if i.started then s else
    match i.decided with
    | some d => abandonDecision d s
    | none => s) s

/-- What the harness loses with a port's link: a HELLO awaited, a frame of which segments had come, a configuration not yet
committed (R479, R481, R484). -/
def harnessDown (p : Nat) (s : State) : State :=
  let h := s.harness
  let s := if (mget none h.segs p).isSome then bumpSat (hsRegs + 0x28) 1 s else s
  { s with harness := { h with phy := h.phy.filter (fun q => decide (q ≠ p)), segs := mdel h.segs p,
                               partItems := if linkUp s p then [] else h.partItems } }

/-- An eye scan on a lane of the port ends with SCAN_ERR (R622). -/
def endScans (p : Nat) (s : State) : State :=
  (List.range (portLanes s p)).foldl (fun s i =>
    let a := laneRegs (p + i)
    if bitOf (getReg s a) 2 then setField a 2 2 2 s else s) s

/-- A port's link goes down: a privileged port is flushed at once, an ordinary port keeps its queues (R421, R422). -/
def linkDown (p : Nat) (s : State) : State :=
  let s := if harnessRole s p then harnessDown p s else s
  let s := cutArrivals p (modPort p (fun x => { x with linkUp := false, steady := false }) (endScans p s))
  if harnessRole s p then emptyPort p true s else s

/-- Forget the plain registers and counts in `[a, a + len)`: they read their reset values again. -/
def resetRegs (a len : Nat) (s : State) : State :=
  let out := fun (k : Nat) => !(decide (a ≤ k) && decide (k < a + len))
  { s with regs := s.regs.filter (fun e => out e.1), ctr64 := s.ctr64.filter (fun e => out e.1) }

/-- Every port of a lane group is a new port (R392, R441). -/
def newPorts (g : Nat) (s : State) : State :=
  (List.range 8).foldl (fun s i =>
    let p := 8 * g + i
    let s := emptyPort p false (cutArrivals p s)
    let s := resetRegs (portRegs p) 8 s
    let s := resetRegs (queueRegs p 0) 0x200 s
    let s := resetRegs (portSched p) 0x20 s
    let s := resetRegs (policerRegs p 0) 0x100 s
    let s := resetRegs (pfcRegs p) 0x10 s
    let s := (List.range 8).foldl (fun s c =>
      let s := setEq p c EgQueue.reset s
      let s := { s with policers := mdel s.policers (p * 8 + c) }
      { s with owners := mdel s.owners (ownKey (p / 128) (egOwner p c)) }) s
    setPort p PortSt.reset s) s

/-- Harness ports of a stage whose link has gone with the unit that carries it, flushed (R421, R538). -/
def flushLost (fp : Nat) (s : State) : State :=
  (fpPorts s fp).foldl (fun s p =>
    if harnessRole s p && !linkUp s p && ((getPort s p).linkUp || !(getPort s p).tx.isEmpty ||
        (List.range 8).any (fun c => !(getEq s p c).frames.isEmpty)) then linkDown p s else s) s

/-- One FWD cycle of an egress stage (R428). -/
def egressStart (fp now : Nat) (s : State) : State := egressCycle fp now (flushLost fp s)

/-- EGRESS_START (R428) -/
def execEgressStart (fp : Fin 32) (now : W64) (s : State) : Host.Outcome State Fault Refusal :=
  .next (egressStart fp.val now.toNat (advanceFwd (fp.val / 4) now s))

/-- A write of LG_CFG (R392): it takes effect only while every port of the group has ADMIN_UP 0. -/
def laneGroupMode (g mode : Nat) (s : State) : State :=
  if (List.range 8).any (fun i => adminUp s (8 * g + i)) ∨ lgMode s g = mode then s
  else setField (lgRegs g) 0 2 mode (newPorts g s)

/-- A write of PORT_CFG (R394, R421): of a lane that is no port it is ignored, fields that refuse a value keep their
own, and clearing ADMIN_UP takes the link down, as a change of ROLE does. Until a device that is not the acting master has
its first configuration, only HARNESS-role ports may come up (R485). -/
def portCfgWrite (p : Nat) (v : W32) (s : State) : State :=
  if !isPort s p then s
  else
    let role := fld v 1 2
    let mf := fld v 16 15
    let newRole := if role < 2 then role else fld (portCfg s p) 1 2
    let up := bitOf v 0 && (decide (newRole = 1) || s.harness.configured || decide (s.harness.role = 0))
    let s := if (adminUp s p && !up) || decide (newRole ≠ fld (portCfg s p) 1 2) then linkDown p s else s
    let s := setField (portRegs p) 0 1 (boolNat up) s
    let s := setField (portRegs p) 1 2 newRole s
    let s := setField (portRegs p) 3 1 (fld v 3 1) s
    if 64 ≤ mf ∧ mf ≤ 16384 then setField (portRegs p) 16 15 mf s else s

/-- LG_CFG_WRITE (R392); writes come from the MC only (R476). -/
def execLgCfgWrite (by' : Initiator) (g : Fin 128) (v : W32) (s : State) : Host.Outcome State Fault Refusal :=
  .next (if by' = .mc then laneGroupMode g.val (fld v 0 2) s
    else if mayAccess s by' (lgRegs g.val) 4 .write then s else refuseAccess by' (lgRegs g.val) s)

/-! ### Wheel, clamp, pauses -/

/-- WHEEL_SLOT (R436): the entries of every slot that has begun become allowed, or are entered again. -/
def execWheelSlot (fp : Fin 32) (now : W64) (s : State) : Host.Outcome State Fault Refusal :=
  let s := advanceFwd (fp.val / 4) now s
  let n := now.toNat
  let due := fun (w : Option Nat) => match w with
    | some b => decide (b ≤ n)
    | none => false
  let s := (fpPorts s fp.val).foldl (fun s p =>
    let s := (List.range 8).foldl (fun s c =>
      if due (getEq s p c).wheel then setEq p c { getEq s p c with wheel := none } s else s) s
    if due (getPort s p).wheel then modPort p (fun x => { x with wheel := none }) s else s) s
  .next (enterWheel fp.val n s)

/-- TAT_CLAMP (R438): every TAT of the cluster's region more than 2^37 cycles behind is set to now - 2^37. -/
def execTatClamp (cl : Fin 8) (now : W64) (s : State) : Host.Outcome State Fault Refusal :=
  let s := advanceFwd cl.val now s
  let lo := (now.toNat - 2 ^ 37) * 2 ^ 20
  let late := fun (tat : Nat) => decide (tatAhead (clamped s cl.val tat) now.toNat < -(2 ^ 57 : Nat))
  .next { s with
    clampLo := setAt s.clampLo cl.val (Nat.max lo (s.clampLo.getD cl.val 0)),
    egq := s.egq.map (fun e => if e.1 / 8 / 128 = cl.val ∧ late e.2.tat then (e.1, { e.2 with tat := lo }) else e),
    ports := s.ports.map (fun e => if e.1 / 128 = cl.val ∧ late e.2.tat then (e.1, { e.2 with tat := lo }) else e),
    policers := s.policers.map (fun e => if e.1 / 8 / 128 = cl.val ∧ late e.2 then (e.1, lo) else e) }

/-- PFC_RECEIVE (R445) -/
def execPfcReceive (lane : Fin 1024) (enable : BitVec 8) (quanta : List W16) (now : W64) (s : State) :
    Host.Outcome State Fault Refusal :=
  let p := lane.val
  let s := advanceFwd (p / 128) now s
  .next (if !linkUp s p || harnessRole s p then s
    else
      let s := bumpSat (pfcRegs p + 0xC) 1 s
      (List.range 8).foldl (fun s c =>
        if bitOf enable c ∧ bitOf (getReg s (pfcRegs p)) c then
          let q := (quanta.getD c 0).toNat
          let until' := now.toNat + cdiv (q * 512 * 16) (2000 * portLanes s p)
          -- a class that is paused stays so; else the frame chosen in this cycle still starts (R441)
          let since := if classPaused s now.toNat p c then
              (((getPort s p).paused.getD c none).map (fun e => e.1)).getD now.toNat else now.toNat
          modPort p (fun x => { x with paused := setAt x.paused c (if q = 0 then none else some (since, until')) }) s
        else s) s)

/-- PFC_PAUSE_EXPIRY (R445) -/
def execPfcPauseExpiry (lane : Fin 1024) (cls : Fin 8) (now : W64) (s : State) : Host.Outcome State Fault Refusal :=
  let p := lane.val
  let s := advanceFwd (p / 128) now s
  .next (match (getPort s p).paused.getD cls.val none with
    | none => s
    | some e => if e.2 ≤ now.toNat then modPort p (fun x => { x with paused := setAt x.paused cls.val none }) s else s)

/-- PFC_REPEAT (R445): while the held bytes stay above PFC_XON -/
def execPfcRepeat (lane : Fin 1024) (cls : Fin 8) (s : State) : Host.Outcome State Fault Refusal :=
  let p := lane.val
  .next (if isPort s p ∧ (getPort s p).xoff.getD cls.val false ∧ bitOf (getReg s (pfcRegs p)) (8 + cls.val) ∧
        regField s (pfcRegs p + 8) 0 26 < pfcHeld s p cls.val then
      modPort p (fun x => { x with pfcOut := x.pfcOut ++ [(cls.val, 0xFFFF)] }) s
    else s)

end Sys2Proof.Machine
end

