-- ==== Sys2Proof/Machine/Transport.lean ====
section
/-! DEFINITION. The fabric transport (13_transport_and_links.md): contexts, packets, the end-to-end check, sending and
resending, acknowledgement, the source rate, hand-overs of producers and the receive stream. -/

namespace Sys2Proof.Machine

/-! ### Contexts and peers (R448, R449) -/

def modCtx (c : Nat) (f : Ctx → Ctx) (s : State) : State := setCtx c (f (getCtx s c)) s

def getChan (x : Ctx) (ch : Nat) : Chan := mget Chan.reset x.chans ch

def Ctx.setChan (x : Ctx) (ch : Nat) (k : Chan) : Ctx := { x with chans := mput Chan.reset x.chans ch k }

def modChan (c ch : Nat) (f : Chan → Chan) (s : State) : State :=
  modCtx c (fun x => x.setChan ch (f (getChan x ch))) s

/-- Signed 32-bit difference of sequence numbers (R453). -/
def seqDiff (a b : W32) : Int := (a - b).toInt

/-- PEER_BASE -/
def peerBase (s : State) : Nat := (getReg s (tftDev + 4)).toNat + (getReg s (tftDev + 8)).toNat * 2 ^ 32

/-- The entry of a peer of the table of `count` entries at `base`, if it is usable (R448); reading it looks at its granule. -/
def readPeerOf (base count peer : Nat) (s : State) : Option Peer × State :=
  let a := base + 32 * peer
  if count ≤ peer ∨ ¬ memMapped s a 32 then (none, s)
  else
    let (bs, s) := readMem a 32 1 s
    let v := leNat (bytesOf bs)
    let hv := decide (bitsOf v 2 1 = 1)
    if anyPoison bs ∨ bitsOf v 0 1 = 0 ∨ bitsOf v 6 58 ≠ 0 ∨ bitsOf v 208 48 ≠ 0 ∨ (¬ hv ∧ bitsOf v 3 3 ≠ 0) then (none, s)
    else
      (some { v6 := decide (bitsOf v 1 1 = 1), hv := hv, hid := BitVec.ofNat 3 (bitsOf v 3 3),
              addr := BitVec.ofNat 128 (if bitsOf v 1 1 = 1 then bitsOf v 64 128 else bitsOf v 64 32),
              udpDst := BitVec.ofNat 16 (bitsOf v 192 16) }, s)

/-- The entry of a peer in the table that stands (R448, R470). -/
def readPeer (peer : Nat) (s : State) : Option Peer × State := readPeerOf (peerBase s) (regField s (tftDev + 0xC) 0 24) peer s

/-- A context takes TFT_PORT and the peer table as they stand when it opens (R470). -/
def ctxOpened (s : State) (x : Ctx) : Ctx :=
  { x with tftPort := BitVec.ofNat 16 (regField s tftDev 0 16), peerBase := BitVec.ofNat 48 (peerBase s),
           peerCount := BitVec.ofNat 24 (regField s (tftDev + 0xC) 0 24) }

/-- A send of a queue is lost when its context fails or closes before the acknowledgement (R458). -/
def loseSends (c : Nat) (s : State) : State :=
  { s with queues := s.queues.map (fun e =>
      if e.2.sends.any (fun x => decide (x.1 = c)) then
        (e.1, { e.2 with sends := e.2.sends.filter (fun x => decide (x.1 ≠ c)), sendsLost := true })
      else e) }

/-- Sends of queues in a channel that an acknowledgement up to `ack` covers are done (R97, R458). -/
def ackSends (c ch : Nat) (ack : W32) (s : State) : State :=
  { s with queues := s.queues.map (fun e =>
      if e.2.sends.any (fun x => decide (x.1 = c ∧ x.2.1 = ch)) then
        (e.1, { e.2 with sends := e.2.sends.filter (fun x =>
          !(decide (x.1 = c) && decide (x.2.1 = ch) && decide (0 < seqDiff ack x.2.2))) })
      else e) }

/-- A queue has handed bytes on in packet `seq` of a channel. -/
def noteSend (cl qid c ch : Nat) (seq : W32) (s : State) : State :=
  modQ cl qid (fun q => { q with
    sends := q.sends.filter (fun x => !(decide (x.1 = c) && decide (x.2.1 = ch))) ++ [(c, ch, seq)] }) s

/-- Owner of payload and copies (R411). -/
def tftOwner : Nat := 0x1400

/-- Give back the copies and the uncut bytes of every channel of a context. -/
def freeCopies (c : Nat) (s : State) : State :=
  let ks := (getCtx s c).chans
  let bufs := ks.flatMap (fun k => k.2.copies.map (fun p => p.buf) ++ (match k.2.tail with | some t => [t.1] | none => []))
  let s := bufs.foldl (fun s b => freeBuf tftOwner b s) s
  ks.foldl (fun s k => modChan c k.1 (fun x => { x with copies := [], tail := none }) s) s

/-- Oldest unacknowledged SEQ of a channel: CTX_UNACK. -/
def unackSeq (k : Chan) : W32 :=
  match k.copies with
  | p :: _ => p.seq
  | [] => k.nextSeq

/-- Next SEQ to send: the oldest packet not yet sent, else the next to be cut: CTX_NEXT. -/
def sendSeq (k : Chan) : W32 :=
  match k.copies.find? (fun p => !p.sent) with
  | some p => p.seq
  | none => k.nextSeq

/-- Unit of a context, for its records. -/
def unitOfCtx (s : State) (c : Nat) : W32 := unitCl 0x14 (getCtx s c).homeCl.toNat c

/-- A context fails (R458). -/
def failCtx (c ch : Nat) (s : State) : State :=
  let x := getCtx s c
  let oldest := unackSeq (getChan x ch)
  let s := loseSends c (freeCopies c (modCtx c (fun x => { x with failed := true }) s))
  let s := bumpSat (tftRegs x.homeCl.toNat + 0x24) 1 s
  let r := newReport s (unitOfCtx s c) 8 6
  report { r with syndrome := BitVec.ofNat 128 oldest.toNat } s

/-- A context whose state cannot be read without an uncorrectable error fails when it is met (R534, R458); one that has failed
with its unit (R538) gives its copies back. -/
def meetContext (c : Nat) (s : State) : State :=
  if s.bad.contains (.context c) then
    let s := { s with bad := s.bad.filter (fun d => decide (d ≠ .context c)) }
    if (getCtx s c).isOpen && !(getCtx s c).failed then failCtx c 0 s else s
  else if (getCtx s c).failed && (getCtx s c).chans.any (fun k => !k.2.copies.isEmpty || k.2.tail.isSome) then
    loseSends c (freeCopies c s)
  else s

/-- A context closes (R458): copies, uncut bytes and received payload go; its home cluster stays known, for what
producers hand it afterwards. -/
def closeCtx (c : Nat) (s : State) : State :=
  let x := getCtx s c
  let s := loseSends c (freeCopies c s)
  let s := x.rx.foldl (fun s r => freeBuf tftOwner r.1 s) s
  setCtx c { Ctx.reset with homeCl := x.homeCl } s

/-! ### Packets (R451, R452) -/

/-- Fields of a base header and its extension. -/
structure TftHdr where
  ver : Nat := 1
  typ : Nat := 0
  ch : Nat := 0
  resend : Bool := false
  dst : Nat := 0
  src : Nat := 0
  seq : Nat := 0
  len : Nat := 0
  poison : Nat := 0
  srcEp : Nat := 0
  ce : Nat := 0
  status : Nat := 0
  stepc : Nat := 0
  /-- a reserved bit is set -/
  rsv : Bool := false
  tag : Nat := 0
  deriving DecidableEq, Repr

def TftType.code (t : TftType) : Nat :=
  match t with
  | .data => 0
  | .tagged => 1
  | .ack => 2
  | .write => 3

/-- TAGGED and WRITE packets have the extension. -/
def tftExt (typ : Nat) : Nat := if typ = 1 ∨ typ = 3 then 16 else 0

/-- A header whose fields do not fit its TYPE: a reserved bit, or a field that the table of R451 holds at 0 there
(DEDUCED, log entry 40). -/
def tftBadFields (v tag : Nat) : Bool :=
  let typ := bitsOf v 4 4
  decide (bitsOf v 13 3 ≠ 0) || decide (bitsOf v 34 2 ≠ 0) || decide (bitsOf v 54 10 ≠ 0) || decide (bitsOf v 176 80 ≠ 0) ||
    (decide (typ ≠ 1) && (decide (bitsOf v 128 16 ≠ 0) || decide (bitsOf v 160 16 ≠ 0))) ||
    (if typ = 2 then decide (bitsOf v 96 16 ≠ 0) || decide (1 < bitsOf v 152 8) else decide (bitsOf v 144 16 ≠ 0)) ||
    (decide (typ = 3) && decide (bitsOf tag 48 80 ≠ 0))

def parseTft (p : List Byte) : TftHdr :=
  let v := leAt p 0 32
  let typ := bitsOf v 4 4
  let tag := if tftExt typ = 0 then 0 else leAt p 32 16
  { ver := bitsOf v 0 4, typ := typ, ch := bitsOf v 8 4, resend := decide (bitsOf v 12 1 = 1), dst := bitsOf v 16 18,
    src := bitsOf v 36 18, seq := bitsOf v 64 32, len := bitsOf v 96 16, poison := bitsOf v 112 16,
    srcEp := bitsOf v 128 16, ce := bitsOf v 144 8, status := bitsOf v 152 8, stepc := bitsOf v 160 16,
    rsv := tftBadFields v tag, tag := tag }

/-- E2E over a byte string with a sequence value folded in (R452). -/
def e2eOf (bs : List Byte) (v : Nat) : Nat :=
  let c := crcSpec 1
  crcFeed c (crcFeed c c.init bs) (leBytes 4 v) ^^^ c.xorOut

def buildTft (h : TftHdr) (payload : List Byte) : List Byte :=
  let v := h.ver + h.typ <<< 4 + h.ch <<< 8 + boolNat h.resend <<< 12 + h.dst <<< 16 + h.src <<< 36 + h.seq <<< 64 +
    h.len <<< 96 + h.poison <<< 112 + h.srcEp <<< 128 + h.ce <<< 144 + h.status <<< 152 + h.stepc <<< 160
  let b := leBytes 32 v ++ leBytes (tftExt h.typ) h.tag ++ payload
  b ++ leBytes 4 (e2eOf b h.seq)

/-- POISON: bit i covers payload bytes 256i to 256i + 255. -/
def poisonMask (bs : List PByte) : Nat :=
  ((List.range 16).map (fun i => if ((bs.drop (256 * i)).take 256).any (fun b => b.2) then 2 ^ i else 0)).sum

/-- Payload of a packet with the poison its header gives. -/
def tftPayload (p : List Byte) (h : TftHdr) : List PByte :=
  let bs := (p.drop (32 + tftExt h.typ)).take h.len
  (List.range bs.length).map (fun i => (bs.getD i 0, decide (bitsOf h.poison (i / 256) 1 = 1)))

/-- Payload of an arrival, with the poison its carriers gave it as well: all of a 256-byte granule is poisoned with any byte of it
(R207). -/
def arrivalPayload (a : Arrival) (h : TftHdr) : List PByte :=
  let bs := tftPayload a.packet h
  if a.poison.isEmpty then bs
  else
    let marks := a.poison.drop (32 + tftExt h.typ)
    bs.zipIdx.map (fun x => (x.1.1, x.1.2 || ((marks.drop (x.2 / 256 * 256)).take 256).any id))

/-- A TFT packet of a harness peer goes to the home cluster of its context (R482). Poison of data that the packet's POISON field
tells of travels with it (R207); any other poisoned flit met an error on the link, and damages the packet (R465; DEDUCED, log
entry 107). -/
def takePacket (cl : Nat) (w : Worm) (s : State) : State :=
  let h := parseTft w.bytes
  let x := getCtx s h.dst
  if !x.isOpen || x.failed then bumpSat (tftRegs cl + 0xC) 1 s
  else
    let pay := 32 + tftExt h.typ
    let told := fun (i : Nat) => (List.range 64).any (fun b =>
      decide (pay ≤ 64 * i + b) && decide (64 * i + b < pay + h.len) && decide (bitsOf h.poison ((64 * i + b - pay) / 256) 1 = 1))
    let a : Arrival := { ingress := cl, packet := w.bytes, ce := false, v6 := false, srcIp := 0,
                         damaged := w.poison.zipIdx.any (fun f => f.1 && !told f.2), shid := some w.shid.toNat, slot := none,
                         poison := [] }
    let k := x.homeCl.toNat
    { s with arrivals := mput [] s.arrivals k (mget [] s.arrivals k ++ [a]) }

/-! ### Sending one packet (R447, R482) -/

/-- HARNESS-role ports listed for a harness address, in list order (R483, R491). -/
def harnessRoute (s : State) (h : Nat) : List Nat :=
  let b := hsRegs + 0x100 + 0x20 * h
  (List.range (Nat.min 8 (regField s b 0 4))).map (fun i => regField s (b + 4 + 4 * (i / 2)) (16 * (i % 2)) 10)

/-- Those whose link is up. -/
def harnessUp (s : State) (h : Nat) : List Nat := (harnessRoute s h).filter (fun p => linkUp s p && harnessRole s p)

/-- The hash by which REQ and RSP worms choose a link (R483): CRC-32C over SRC_CTX, CH and PATH in one 32-bit word, lowest
byte first (DESIGN CHOICE, log entry 28). -/
def channelHash (src ch path : Nat) : Nat := crc32c (leBytes 4 (src + ch * 2 ^ 18 + path * 2 ^ 22))

/-- The link a hash chooses among those of an entry that are up (R483). -/
def harnessPick (s : State) (h hash : Nat) : Option Nat :=
  let up := harnessUp s h
  up[hash % up.length]?

/-- Counters of a packet that the tables drop: pipeline FP4cl of the home cluster. -/
def tftDropped (cl : Nat) (ecmp : Bool) (s : State) : State :=
  let s := bumpSat (fpRegs (4 * cl) + 0x24) 1 s
  if ecmp then bumpSat (fpRegs (4 * cl) + 0x2C) 1 s else s

/-- A frame of the transport in its IP and UDP headers, with the L2 header of its next hop. -/
def tftFrame (x : Ctx) (ch : Nat) (rw : Rewrite) (src : Nat) (pkt : List Byte) : List Byte :=
  let dport := if x.peer.udpDst = 0 then x.tftPort.toNat else x.peer.udpDst.toNat
  buildUdp rw x.peer.v6 src x.peer.addr.toNat x.dscp.toNat 2 x.ttl.toNat (0xC000 + x.path.toNat * 16 + ch) dport pkt

/-- Send a packet of context `x` in class `cls`: over the harness, through the home die's tables to an egress queue,
or to this device's own endpoint. Its bytes carry the poison of its payload (R207). Answers the frame's length with FCS when it
was sent (R447, R461). -/
def sendPacket (x : Ctx) (ch cls : Nat) (bs : List PByte) (s : State) : State × Option Nat :=
  let pkt := bytesOf bs
  let cl := x.homeCl.toNat
  let die := cl / 2
  let count := addCtr (tftRegs cl + 0x30) 1
  if x.peer.hv then
    let w : Worm := { cls := if (parseTft pkt).typ = 2 then .rsp else .req, dhid := BitVec.ofNat 4 x.peer.hid.toNat,
                      shid := s.harness.addr, hops := 0, routed := false, first := true, last := true, bytes := pkt,
                      poison := flitPoison bs, hash := BitVec.ofNat 32 x.path.toNat }
    -- its own address: delivered here (R483)
    if w.dhid = s.harness.addr then (takePacket cl w (count s), some pkt.length) else
    match harnessPick s x.peer.hid.toNat (channelHash (parseTft pkt).src ch x.path.toNat) with
    | none => (bumpSat (hsRegs + 0x24) 1 s, none)
    | some p => (count { s with wormOut := mset s.wormOut p [w] }, some pkt.length)
  else
    let bare : Rewrite := { dmac := 0, smac := 0, vid := 0, tag := false, pcp := 0, dec := false }
    -- what the tables say of it
    let look := fun (s : State) =>
      match localAddr s die x.srcLocal.toNat x.peer.v6, lookupRoute s die x.peer.v6 x.peer.addr.toNat with
      | some src, some r =>
        let f0 := tftFrame x ch bare src pkt
        some (src, r, chooseHop s die r f0 (parseFrame f0))
      | _, _ => none
    match tablesMet (4 * cl) look s with
    | (s, true) => (tftDropped cl false s, none)
    | (s, false) =>
    match localAddr s die x.srcLocal.toNat x.peer.v6, lookupRoute s die x.peer.v6 x.peer.addr.toNat with
    | some src, some r =>
      let f0 := tftFrame x ch bare src pkt
      match chooseHop s die r f0 (parseFrame f0) with
      | .ecmpDown => (tftDropped cl true s, none)
      | .bad => (tftDropped cl false s, none)
      | .entry e =>
        if nhAct e = 2 then
          let h := parseFrame f0
          let s := count s
          (if isTft s h then terminateFrame (128 * cl) (clean f0) s else puntFrame (128 * cl) (clean f0) s, some (f0.length + 4))
        else if nhAct e = 1 ∨ ¬ isPort s (nhPort e) then (tftDropped cl false s, none)
        else
          let f := tftFrame x ch (hopRewrite e (sourceMac s die) cls) src pkt
          (enqueueFrame (nhPort e) cls (clean f) none 1024 0 (count s), some (f.length + 4))
    | _, _ => (tftDropped cl false s, none)

/-- Send an ACK of a channel with the marks echoed since the last one (R456, R459); a failed context sends none. -/
def sendAck (c ch : Nat) (ack : W32) (refused : Bool) (s : State) : State :=
  let x := getCtx s c
  if x.failed || !x.isOpen then s
  else
    let k := getChan x ch
    let h : TftHdr := { typ := 2, ch := ch, dst := x.ackCtx.toNat, src := c, seq := ack.toNat,
                        ce := if x.peer.hv then 0 else Nat.min 255 k.ce, status := boolNat refused }
    let s := modChan c ch (fun k => { k with sinceAck := 0, ce := 0 }) s
    (sendPacket x ch x.ackClass.toNat (clean (buildTft h [])) s).1

/-- PACKET_SEND (R457, R461): the next packet of the channel, resends ahead of new ones, once the context's TAT allows
it and, for a new one, the window does. -/
def packetSend (c ch now : Nat) (s : State) : State :=
  let s := meetContext c s
  let x := getCtx s c
  let k := getChan x ch
  if !x.isOpen || x.failed || decide (now * 2 ^ 20 < x.tat) then s
  else
    let i? := match k.copies.findIdx? (fun p => p.again) with
      | some i => some i
      | none => match k.copies.findIdx? (fun (p : TxPkt) => !p.sent) with
        | some i => if i < x.winM1.toNat + 1 then some i else none
        | none => none
    match i? with
    | none => s
    | some i =>
      match k.copies[i]? with
      | none => s
      | some p =>
        if badBuf s p.buf then withdraw p.buf 1 s else
        let (bs, s) := loadBuf p.buf 0 p.len s
        let h : TftHdr := { typ := p.typ.code, ch := ch, resend := p.again, dst := x.remoteCtx.toNat, src := c,
                            seq := p.seq.toNat, len := p.len, poison := poisonMask bs, srcEp := p.srcEp.toNat,
                            stepc := p.stepc.toNat, tag := p.tag.toNat }
        let s := modChan c ch (fun k => { k with copies := setAt k.copies i { p with sent := true, again := false } }) s
        let pkt := buildTft h (bytesOf bs)
        let at' := 32 + tftExt h.typ
        let sent := pkt.zipIdx.map (fun b => (b.1, decide (at' ≤ b.2) && (bs.getD (b.2 - at') (0, false)).2))
        match sendPacket x ch x.cls.toNat sent s with
        | (s, none) => s
        | (s, some f) =>
          let d := if x.rate = 0 then 0 else (f + 20) * 1024 * 2 ^ 20 / x.rate.toNat
          modCtx c (fun x => { x with tat := Nat.max x.tat (now * 2 ^ 20) + d }) s

/-! ### Hand-overs of producers (R457, R632) -/

/-- Number the packet a buffer holds. -/
def Chan.cut (k : Chan) (buf len : Nat) : Chan :=
  { k with nextSeq := k.nextSeq + 1, tail := none,
           copies := k.copies ++ [{ seq := k.nextSeq, typ := .data, buf := buf, len := len, stepc := 0, srcEp := 0, tag := 0,
                                    sent := false, again := false }] }

/-- Take bytes into a channel's stream, cutting full packets; `none` when a buffer for a copy cannot be had. -/
def takeBytes (fuel c ch : Nat) (close : Bool) (bs : List PByte) (s : State) : Option State :=
  match fuel with
  | 0 => some s
  | n + 1 =>
    let x := getCtx s c
    let k := getChan x ch
    let pay := 2 ^ x.payLog2.toNat
    match bs with
    | [] =>
      match k.tail with
      | some (b, used) => some (if close then modChan c ch (fun k => k.cut b used) s else s)
      | none => some s
    | _ :: _ =>
      let have' : Option (State × Nat × Nat) := match k.tail with
        | some (b, used) => some (s, b, used)
        | none =>
          let want := if pay ≤ bs.length then pay else if close then bs.length else pay
          match allocPool s x.homeCl.toNat tftOwner want with
          | none => none
          | some p => let (s, b) := takeBuf x.homeCl.toNat p tftOwner 1 s; some (s, b, 0)
      match have' with
      | none => none
      | some (s, b, used) =>
        let w := Nat.min (pay - used) bs.length
        let s := fillBuf b used (bs.take w) s
        let s := if used + w = pay then modChan c ch (fun k => k.cut b pay) s
          else modChan c ch (fun k => { k with tail := some (b, used + w) }) s
        takeBytes n c ch close (bs.drop w) s

/-- The transport takes a producer's hand-over whole, or not at all: not while the window of its channel is full or copies
cannot be taken for all its bytes (R457), where the allocation REFUSED counts (R414). A failed or closed context discards the
bytes (R458). `close` ends the packet with the producer's repeat (R632). Answers whether it was taken. -/
def handOver (cl qid c : Nat) (bs : List PByte) (close : Bool) (s : State) : State × Bool :=
  let s := meetContext c s
  let x := getCtx s c
  let ch := engOf qid % 16
  if !x.isOpen || x.failed then
    let s := bumpSat (tftRegs x.homeCl.toNat + 0x28) bs.length s
    (if bs.isEmpty then s else modQ cl qid (fun q => { q with sendsLost := true }) s, true)
  else
    let k := getChan x ch
    if bs.isEmpty ∧ ¬ (close ∧ k.tail.isSome) then (s, true)
    else if ¬ bs.isEmpty ∧ x.winM1.toNat + 1 ≤ k.copies.length then (s, false)
    else
      match takeBytes (bs.length + 2) c ch close bs s with
      | none => (countRefused x.homeCl.toNat tftOwner s, false)
      | some s =>
        let k := getChan (getCtx s c) ch
        let seq := if k.tail.isSome then k.nextSeq else k.nextSeq - 1
        (if bs.isEmpty then s else noteSend cl qid c ch seq s, true)

/-- What became of a TAGGED message handed to the transport. -/
inductive Handed where
  /-- not taken now -/
  | waits
  /-- discarded: the context has failed or closed -/
  | lost
  /-- taken, with the SEQ it got -/
  | taken (seq : W32)
  deriving DecidableEq, Repr

/-- Hand a TAGGED message of a group to the context of endpoint `c`: accepted whole while the window is not full and a
copy can be taken (R457). -/
def handTagged (c ch : Nat) (bs : List PByte) (stepc srcEp : W16) (tag : BitVec 128) (s : State) : State × Handed :=
  let s := meetContext c s
  let x := getCtx s c
  if !x.isOpen || x.failed then (bumpSat (tftRegs x.homeCl.toNat + 0x28) bs.length s, .lost)
  else
    let k := getChan x ch
    if x.winM1.toNat + 1 ≤ k.copies.length then (s, .waits)
    else
      match allocBuf x.homeCl.toNat tftOwner bs.length 1 s with
      | (s, none) => (s, .waits)
      | (s, some b) =>
        let s := fillBuf b 0 bs s
        let pk : TxPkt := { seq := k.nextSeq, typ := .tagged, buf := b, len := bs.length, stepc := stepc, srcEp := srcEp,
                            tag := tag, sent := false, again := false }
        (modChan c ch (fun k => { k with nextSeq := k.nextSeq + 1, copies := k.copies ++ [pk] }) s, .taken pk.seq)

/-! ### The receive stream (R455) -/

/-- Bytes of the receive stream of a context not yet taken. -/
def rxAvail (x : Ctx) : Nat := (x.rx.map (fun r => r.2.2 - r.2.1)).sum

/-- What of it an engine of cluster `cl` is given: payload is delivered in its home cluster alone (R37). -/
def rxHere (cl : Nat) (x : Ctx) : Nat := if x.homeCl.toNat = cl then rxAvail x else 0

/-- Take up to `n` bytes of a receive stream, oldest first, freeing the buffers it empties. -/
def rxTake (fuel c n : Nat) (s : State) : List PByte × State :=
  match fuel with
  | 0 => ([], s)
  | k + 1 =>
    match (getCtx s c).rx with
    | [] => ([], s)
    | (b, taken, len) :: rest =>
      if n = 0 then ([], s)
      else
        if badBuf s b then rxTake k c n (withdraw b 1 s) else
        let w := Nat.min n (len - taken)
        let (bs, s) := loadBuf b taken w s
        let s := if taken + w = len then freeBuf tftOwner b (modCtx c (fun x => { x with rx := rest }) s)
          else modCtx c (fun x => { x with rx := (b, taken + w, len) :: rest }) s
        let (more, s) := rxTake k c (n - w) s
        (bs ++ more, s)

/-! ### Receiving: the check and the sequence (R453, R454) -/

/-- Class of a received packet. -/
inductive RxClass where
  | damaged | malformed | ack | inOrder | duplicate | outOfOrder
  deriving DecidableEq, Repr

/-- Where a packet's sequence state is kept: its own context, or that of the sender for a message of a group
(R450, R454). `none`: SRC_EP names no other endpoint of the group. -/
def seqContext (s : State) (h : TftHdr) : Option Nat :=
  let x := getCtx s h.dst
  if x.isGctx ∧ h.typ = 1 then
    let g := mget Group.reset s.groups x.gkey
    if h.srcEp = g.ep ∨ g.nmemb + g.nagg ≤ h.srcEp then none
    else some (if h.srcEp < g.ep then h.dst + 1 + h.srcEp else h.dst + h.srcEp)
  else some h.dst

/-- TYPE is allowed for the context (R454). -/
def typeAllowed (x : Ctx) (typ : Nat) : Bool :=
  if x.isGctx then decide (typ = 1)
  else if x.group then decide (typ = 2)
  else decide (typ = 0) || decide (typ = 2) || decide (typ = 3)

/-- Classify a packet at its home cluster (R453). -/
def classify (s : State) (a : Arrival) : RxClass :=
  let p := a.packet
  let h := parseTft p
  let body := p.take (p.length - 4)
  let e := leAt p (p.length - 4) 4
  let x := getCtx s h.dst
  let own := decide (e = e2eOf body h.seq)
  let sc := seqContext s h
  let exp := match sc with
    | some c => (getChan (getCtx s c) h.ch).exp
    | none => 0
  let inExp := decide (h.typ ≠ 2) && sc.isSome && decide (e = e2eOf body exp.toNat)
  if a.damaged || decide (p.length < 36) || !(own || inExp) then .damaged
  else
    let peer := match sc with
      | some c => getCtx s c
      | none => x
    let fromPeer := match a.shid with
      | some i => peer.peer.hv && decide (i = peer.peer.hid.toNat)
      | none => !peer.peer.hv && decide (a.v6 = peer.peer.v6) && decide (a.srcIp = peer.peer.addr)
    if decide (h.ver ≠ 1) || decide (3 < h.typ) || h.rsv || !typeAllowed x h.typ || sc.isNone ||
        decide (2 ^ peer.payLog2.toNat < h.len) || decide (p.length < 36 + tftExt h.typ + h.len) || !fromPeer then .malformed
    else if h.typ = 2 then .ack
    else if inExp then .inOrder
    else if seqDiff (BitVec.ofNat 32 h.seq) exp < 0 then .duplicate
    else .outOfOrder

/-- The packet at the front of a home cluster's queue, when its TYPE is one of those asked for; packets of a reserved
TYPE go with DATA. -/
def frontPacket (s : State) (cl : Nat) (typ : Nat) : Option Arrival :=
  match mget [] s.arrivals cl with
  | [] => none
  | a :: _ =>
    let t := (parseTft a.packet).typ
    if t = typ ∨ (typ = 0 ∧ 3 < t) then some a else none

def popArrival (cl : Nat) (s : State) : State :=
  { s with arrivals := mput [] s.arrivals cl ((mget [] s.arrivals cl).drop 1) }

/-- A damaged packet: counted and recorded (R453, R540). -/
def countDamaged (cl : Nat) (h : TftHdr) (s : State) : State :=
  let s := bumpSat (tftRegs cl) 1 s
  let r := newReport s (unitCl 0x14 cl h.dst) 7 5
  report { r with syndrome := BitVec.ofNat 128 (h.seq + h.dst * 2 ^ 32 + h.ch * 2 ^ 50) } s

/-- An accepted packet: EXP, the counts for the acknowledgement, and the ACK when one is due (R454, R456, R459). -/
def accepted (c ch : Nat) (ce : Bool) (s : State) : State :=
  let x := getCtx s c
  let s := addCtr (tftRegs x.homeCl.toNat + 0x38) 1 s
  let s := modChan c ch (fun k => { k with exp := k.exp + 1, sinceAck := k.sinceAck + 1, ce := k.ce + boolNat ce }) s
  let k := getChan (getCtx s c) ch
  if x.ackCount.toNat ≤ k.sinceAck ∨ x.ackDelay = 0 then sendAck c ch k.exp false s else s

/-- What every packet meets before its consumer (R446, R453): `none` when it went no further, else the context of its
sequence state and its class, in order or duplicate or ACK. -/
def receiveFront (cl : Nat) (a : Arrival) (s : State) : State × Option (Nat × RxClass) :=
  let h := parseTft a.packet
  let s := meetContext h.dst s
  let s := match seqContext s h with
    | some c => meetContext c s
    | none => s
  let x := getCtx s h.dst
  if !x.isOpen || x.failed then (bumpSat (tftRegs a.ingress + 0xC) 1 s, none)
  else
    match classify s a with
    | .damaged => (countDamaged cl h s, none)
    | .malformed => (bumpSat (tftRegs a.ingress + 0x10) 1 s, none)
    | .outOfOrder => (bumpSat (tftRegs cl + 4) 1 s, none)
    | k =>
      match seqContext s h with
      | none => (s, none)
      | some c =>
        if (getCtx s c).failed then (bumpSat (tftRegs a.ingress + 0xC) 1 s, none)
        else if k = .duplicate then (sendAck c h.ch (getChan (getCtx s c) h.ch).exp false (bumpSat (tftRegs cl + 8) 1 s), some (c, k))
        else (s, some (c, k))

/-- A packet's consumer refused it (R454, R471). -/
def notAccepted (cl : Nat) (s : State) : State := bumpSat (tftRegs cl + 0x14) 1 s

/-! ### Rate and acknowledgements (R456, R457, R460) -/

/-- RATE after an ACK that frees `n` packets, `m` of them marked. -/
def rateOnAck (x : Ctx) (n m : Nat) : BitVec 24 :=
  let r := x.rate.toNat
  if n = 0 then x.rate
  else if 0 < m then BitVec.ofNat 24 (Nat.max x.minRate.toNat (r - r * m / (2 * n)))
  else BitVec.ofNat 24 (Nat.min x.maxRate.toNat (r + x.aiStep.toNat))

/-- An ACK reaches the sending side of a context (R456, R459, R460, R462). -/
def applyAck (cl c : Nat) (h : TftHdr) (s : State) : State :=
  let x := getCtx s c
  let k := getChan x h.ch
  let ack := BitVec.ofNat 32 h.seq
  let s := if h.status = 1 then
      let addr := match k.copies.find? (fun p => decide (p.seq = ack - 1)) with
        | some p => p.tag.toNat % 2 ^ 48
        | none => 0
      let r := newReport s (unitOfCtx s c) 9 6
      report { r with syndrome := BitVec.ofNat 128 (addr + x.peerId.toNat * 2 ^ 48) } s
    else s
  if 0 < seqDiff ack (sendSeq k) then bumpSat (tftRegs cl + 0x1C) 1 s
  else
    let freed := k.copies.filter (fun p => decide (0 < seqDiff ack p.seq))
    if freed.isEmpty then s
    else
      let s := freed.foldl (fun s p => freeBuf tftOwner p.buf s) s
      let s := modChan c h.ch (fun k => { k with copies := k.copies.filter (fun p => !decide (0 < seqDiff ack p.seq)),
                                                 timeouts := 0 }) s
      let s := modCtx c (fun x => { x with rate := rateOnAck x freed.length (Nat.min h.ce freed.length) }) s
      ackSends c h.ch ack s

/-- RESEND_TIMEOUT (R457, R458, R460): the channel's timer has run out with packets unacknowledged. -/
def resendTimeout (c ch : Nat) (s : State) : State :=
  let s := meetContext c s
  let x := getCtx s c
  let k := getChan x ch
  if !x.isOpen || x.failed || k.copies.all (fun p => !p.sent) then s
  else if x.resendMax ≠ 0 ∧ x.resendMax.toNat ≤ k.timeouts + 1 then failCtx c ch s
  else
    let s := bumpSat (tftRegs x.homeCl.toNat + 0x18) 1 s
    let (p, s) := readPeerOf x.peerBase.toNat x.peerCount.toNat x.peerId.toNat s
    let s := modCtx c (fun x => { x with
      path := x.path + 1, rate := BitVec.ofNat 24 (Nat.max x.minRate.toNat (x.rate.toNat / 2)), peer := p.getD x.peer }) s
    modChan c ch (fun k => { k with timeouts := k.timeouts + 1,
                                    copies := k.copies.map (fun p => { p with again := p.again || p.sent }) }) s

/-! ### Meanings -/

/-- DATA_PACKET_RECEIVE (R454, R455): the payload joins the receive stream once it obtains a buffer. -/
def execDataPacketReceive (cl : Fin 8) (now : W64) (s : State) : Host.Outcome State Fault Refusal :=
  let s := advanceFwd cl.val now s
  .next (match frontPacket s cl.val 0 with
    | none => s
    | some a =>
      let h := parseTft a.packet
      match receiveFront cl.val a (popArrival cl.val s) with
      | (s, none) => s
      | (s, some (c, k)) =>
        if k ≠ .inOrder then s
        else if h.len = 0 then accepted c h.ch a.ce s
        else
          match allocBuf cl.val tftOwner h.len 1 s with
          | (s, none) => notAccepted cl.val s
          | (s, some b) =>
            let s := fillBuf b 0 (arrivalPayload a h) s
            accepted c h.ch a.ce (modCtx c (fun x => { x with rx := x.rx ++ [(b, 0, h.len)] }) s))

/-- ACK_PACKET_RECEIVE (R456) -/
def execAckPacketReceive (cl : Fin 8) (now : W64) (s : State) : Host.Outcome State Fault Refusal :=
  let s := advanceFwd cl.val now s
  .next (match frontPacket s cl.val 2 with
    | none => s
    | some a =>
      match receiveFront cl.val a (popArrival cl.val s) with
      | (s, some (c, .ack)) => applyAck cl.val c (parseTft a.packet) s
      | (s, _) => s)

/-- ACK_DELAY_EXPIRY (R456): packets have been accepted since the last ACK -/
def execAckDelayExpiry (ctx : BitVec 18) (ch : Fin 16) (s : State) : Host.Outcome State Fault Refusal :=
  let k := getChan (getCtx s ctx.toNat) ch.val
  .next (if (getCtx s ctx.toNat).isOpen ∧ 0 < k.sinceAck then sendAck ctx.toNat ch.val k.exp false s else s)

/-- PACKET_SEND (R461) -/
def execPacketSend (ctx : BitVec 18) (ch : Fin 16) (now : W64) (s : State) : Host.Outcome State Fault Refusal :=
  let s := advanceFwd (getCtx s ctx.toNat).homeCl.toNat now s
  .next (packetSend ctx.toNat ch.val now.toNat s)

/-- RESEND_TIMEOUT (R457) -/
def execResendTimeout (ctx : BitVec 18) (ch : Fin 16) (now : W64) (s : State) : Host.Outcome State Fault Refusal :=
  let s := advanceFwd (getCtx s ctx.toNat).homeCl.toNat now s
  .next (resendTimeout ctx.toNat ch.val s)

end Sys2Proof.Machine
end

