-- ==== Sys2Proof/Machine/Links.lean ====
section
/-! DEFINITION. Die-to-die bundles: uncorrectable flits and failing lanes (R31, R465). -/

namespace Sys2Proof.Machine

/-- Unit of a bundle: at its receiving die, with the peer die in INDEX (R540). -/
def bundleUnit (src dst b : Nat) : W32 := unitDie 0x12 dst (src * 48 + b)

/-- Frames whose segments were crossing from die `src` to die `dst` on a bundle taken out of service are dropped whole and counted
in SEG_DROP (R464): a cut-through frame that has started runs out of bytes. -/
def breakFrames (src dst : Nat) (s : State) : State :=
  s.ingress.foldl (fun s e =>
    if e.1 / 256 ≠ src then s
    else
      let crosses := fun (i : InFrame) => match i.decided with
        | some (.forward out _ (some _)) => !i.refused && decide (out / 256 = dst)
        | _ => false
      (List.range e.2.length).foldl (fun s k =>
        match (ingressOf s e.1)[k]? with
        | none => s
        | some i =>
          if !crosses i then s
          else
            let rides := Config.ridesBundle s.fresh
            let s := takeFresh s
            if !rides then s
            else
              let s := bumpSat (hsRegs + 0x28) 1 s
              let s := if i.started then s else abandonDecision (i.decided.getD (.drop [])) s
              setIngress e.1 (setAt (ingressOf s e.1) k { i with refused := true, candAt := none,
                                                                 decided := if i.started then i.decided else none }) s) s) s

/-- A bundle is taken out of service (R31): its traffic moves to the pair's other bundles, and the loss is recorded, which
closes its handling window (R535). -/
def bundleOut (src dst b : Nat) (s : State) : State :=
  let k := bundleKey src dst b
  let x := getBundle s k
  let u := bundleUnit src dst b
  let s := breakFrames src dst (setBundle k { x with out := true } s)
  let lost := (x.failed.map (fun l => 2 ^ l)).sum
  closeWindow u (report { newReport s u 6 5 with syndrome := BitVec.ofNat 128 lost } s)

/-- The record of an uncorrectable flit: its lanes are a free value. -/
def linkUe (src dst b : Nat) (s : State) : State :=
  let r := newReport s (bundleUnit src dst b) 5 5
  report { r with syndrome := (Config.failingLanes s.fresh).setWidth 128 } (takeFresh s)

/-- What an uncorrectable flit does to the message it belongs to (R465). -/
def damageCargo (src dst b : Nat) (cargo : FlitCargo) (s : State) : State :=
  match cargo with
  | .memory a =>
    if (regionOf s a.toNat).isSome then { s with poison := putMark s.poison (a.toNat / 64) true } else s
  | .payload cl i =>
    let l := mget [] s.arrivals cl.val
    match l[i]? with
    | none => s
    | some a => { s with arrivals := mput [] s.arrivals cl.val (setAt l i { a with damaged := true }) }
  | .frame lane =>
    let l := ingressOf s lane.val
    match l.getLast? with
    | none => s
    | some i => setIngress lane.val (l.dropLast ++ [{ i with damaged := true }]) s
  | .control cl qid =>
    let s := bundleOut src dst b s
    if validQid qid.toNat ∧ ¬ absent s cl.val (engOf qid.toNat) then haltInstr cl.val qid.toNat { reason := 0x0E } s else s

/-- A bundle of two dies, in service. -/
def onBundle (src dst : Fin 4) (b : Fin 48) (f : State → State) (s : State) : Host.Outcome State Fault Refusal :=
  if src = dst then .fault .noSuchUnit
  else .next (if (getBundle s (bundleKey src.val dst.val b.val)).out then s else f s)

/-- FLIT_UNCORRECTABLE (R465) -/
def execFlitUncorrectable (src dst : Fin 4) (bundle : Fin 48) (cargo : FlitCargo) (s : State) :
    Host.Outcome State Fault Refusal :=
  onBundle src dst bundle (fun s => damageCargo src.val dst.val bundle.val cargo (linkUe src.val dst.val bundle.val s)) s

/-- BUNDLE_LANE_FAIL (R31): the spare replaces the first failed lane; a second takes the bundle out of service. -/
def execBundleLaneFail (src dst : Fin 4) (bundle : Fin 48) (lane : Fin 7) (s : State) : Host.Outcome State Fault Refusal :=
  let k := bundleKey src.val dst.val bundle.val
  onBundle src dst bundle (fun s =>
    let x := getBundle s k
    if x.failed.contains lane.val then s
    else
      let s := setBundle k { x with failed := x.failed ++ [lane.val] } s
      if x.failed.isEmpty then s else bundleOut src.val dst.val bundle.val s) s

end Sys2Proof.Machine
end

