-- ==== Sys2Proof/Machine/Flags.lean ====
section
/-! DEFINITION. Number formats, exact arithmetic, rounding and the flags they raise (03_number_formats.md). A
finite value is an exact dyadic number; every operation forms its exact result and rounds it once. -/

namespace Sys2Proof.Machine

/-! ### Formats (R116, R119) -/

/-- A binary floating-point format: exponent and fraction bits, bias, and what the all-ones exponent means. -/
structure Fmt where
  eb : Nat
  fb : Nat
  bias : Nat
  /-- the all-ones exponent holds infinity and NaN; false: E4M3 and the elements of microscaled blocks -/
  ieee : Bool
  /-- E4M3: all ones is the NaN -/
  oneNan : Bool
  deriving DecidableEq, Repr

def fp64 : Fmt := ⟨11, 52, 1023, true, false⟩
def fp32 : Fmt := ⟨8, 23, 127, true, false⟩
def fp16 : Fmt := ⟨5, 10, 15, true, false⟩
def bf16 : Fmt := ⟨8, 7, 127, true, false⟩
def e4m3 : Fmt := ⟨4, 3, 7, false, true⟩
def e5m2 : Fmt := ⟨5, 2, 15, true, false⟩
def e3m2 : Fmt := ⟨3, 2, 3, false, false⟩
def e2m3 : Fmt := ⟨2, 3, 1, false, false⟩
def e2m1 : Fmt := ⟨2, 1, 1, false, false⟩
/-- ACC format of the tiles (R132) -/
def accFmt : Fmt := ⟨10, 23, 511, true, false⟩

/-- Floating-point format of a code, the element format of a microscaled one; `none`: not floating point. -/
def fmtOf (code : Nat) : Option Fmt :=
  match code with
  | 0 => some fp64
  | 1 => some fp32
  | 2 => some fp16
  | 3 => some bf16
  | 4 => some e4m3
  | 5 => some e5m2
  | 6 => some e4m3
  | 7 => some e5m2
  | 8 => some e3m2
  | 9 => some e2m3
  | 10 => some e2m1
  | _ => none

/-- Element bits of a code (R116). -/
def elemBits (code : Nat) : Nat :=
  match code with
  | 0 => 64
  | 1 => 32
  | 2 => 16
  | 3 => 16
  | 4 => 8
  | 5 => 8
  | 6 => 8
  | 7 => 8
  | 8 => 6
  | 9 => 6
  | 10 => 4
  | 11 => 8
  | 12 => 4
  | 13 => 8
  | 14 => 16
  | 15 => 32
  | 16 => 64
  | 17 => 8
  | _ => 0

def microscaled (code : Nat) : Bool := decide (6 ≤ code) && decide (code ≤ 11)

def intCode (code : Nat) : Bool := decide (12 ≤ code) && decide (code ≤ 16)

def reservedFormat (code : Nat) : Bool := decide (0x11 < code)

/-! ### Values -/

/-- A number as an engine sees it: `fin s m e` is (-1)^s m 2^e. The payload of a NaN is its fraction, left
aligned in 52 bits, quiet bit included. -/
inductive FVal where
  | nan (s : Bool) (payload : Nat)
  | inf (s : Bool)
  | fin (s : Bool) (m : Nat) (e : Int)
  deriving DecidableEq, Repr

def quietBit : Nat := 2 ^ 51

def FVal.zero (s : Bool) : FVal := .fin s 0 0

/-- The NaN an engine creates (R121). -/
def FVal.canon : FVal := .nan false quietBit

def FVal.isNan : FVal → Bool
  | .nan _ _ => true
  | _ => false

def FVal.isInf : FVal → Bool
  | .inf _ => true
  | _ => false

def FVal.sign : FVal → Bool
  | .nan s _ => s
  | .inf s => s
  | .fin s _ _ => s

def FVal.isZero : FVal → Bool
  | .fin _ m _ => decide (m = 0)
  | _ => false

/-- Signalling (R120), by the leading fraction bit; so too a NaN of E5M2, which R120 does not name (DESIGN CHOICE, log entry
97). -/
def FVal.signalling : FVal → Bool
  | .nan _ p => decide (p < quietBit)
  | _ => false

def FVal.neg : FVal → FVal
  | .nan s p => .nan (!s) p
  | .inf s => .inf (!s)
  | .fin s m e => .fin (!s) m e

def FVal.abs : FVal → FVal
  | .nan _ p => .nan false p
  | .inf _ => .inf false
  | .fin _ m e => .fin false m e

def expMask (f : Fmt) : Nat := 2 ^ f.eb - 1

def fmtWidth (f : Fmt) : Nat := 1 + f.eb + f.fb

/-- Value of an encoding (R119, R122). The one NaN of E4M3 carries no payload (DEDUCED, log entry 12). -/
def decodeF (f : Fmt) (bits : Nat) : FVal :=
  let s := decide (bitsOf bits (f.eb + f.fb) 1 = 1)
  let e := bitsOf bits f.fb f.eb
  let fr := bitsOf bits 0 f.fb
  if f.ieee && decide (e = expMask f) then
    if fr = 0 then .inf s else .nan s (fr * 2 ^ (52 - f.fb))
  else if f.oneNan && decide (e = expMask f) && decide (fr = 2 ^ f.fb - 1) then .nan s quietBit
  else if e = 0 then .fin s fr (1 - (f.bias : Int) - f.fb)
  else .fin s (2 ^ f.fb + fr) ((e : Int) - f.bias - f.fb)

def signBits (f : Fmt) (s : Bool) : Nat := if s then 2 ^ (f.eb + f.fb) else 0

/-- Encoding of infinity. -/
def encInf (f : Fmt) (s : Bool) : Nat := signBits f s + expMask f * 2 ^ f.fb

/-- Largest finite magnitude. -/
def maxFinite (f : Fmt) : Nat :=
  if f.ieee then expMask f * 2 ^ f.fb - 1
  else if f.oneNan then 2 ^ (f.eb + f.fb) - 2
  else 2 ^ (f.eb + f.fb) - 1

/-- Encoding of a NaN (R142): its sign, the leading bits of its payload that fit, quiet. -/
def encNan (f : Fmt) (s : Bool) (payload : Nat) : Nat :=
  if f.oneNan then signBits f s + (2 ^ (f.eb + f.fb) - 1)
  else signBits f s + expMask f * 2 ^ f.fb + ((payload ||| quietBit) / 2 ^ (52 - f.fb))

/-! ### Rounding (R138, R146, R154) -/

/-- RND codes of R138. -/
inductive Rnd where
  | rne | rna | rtp | rtn | rtz | sr
  deriving DecidableEq, Repr

def rndOf (code : Nat) : Rnd :=
  match code with
  | 1 => .rna
  | 2 => .rtp
  | 3 => .rtn
  | 4 => .rtz
  | 5 => .sr
  | _ => .rne

/-- R153 -/
def srBits (seed index : Nat) : Nat :=
  let mask := 2 ^ 64
  let z := (seed + (index + 1) * 0x9E37_79B9_7F4A_7C15) % mask
  let z := ((z ^^^ (z >>> 30)) * 0xBF58_476D_1CE4_E5B9) % mask
  let z := ((z ^^^ (z >>> 27)) * 0x94D0_49BB_1331_11EB) % mask
  let z := z ^^^ (z >>> 31)
  z >>> 32

/-- Exceptions of R149, in the bit order of FPSTAT. -/
structure Exc where
  invalid : Bool := false
  divzero : Bool := false
  overflow : Bool := false
  underflow : Bool := false
  inexact : Bool := false
  deriving DecidableEq, Repr

def Exc.none : Exc := {}

def Exc.or (a b : Exc) : Exc :=
  { invalid := a.invalid || b.invalid, divzero := a.divzero || b.divzero, overflow := a.overflow || b.overflow,
    underflow := a.underflow || b.underflow, inexact := a.inexact || b.inexact }

/-- FPSTAT bits (R150). -/
def Exc.bits (x : Exc) : Nat :=
  boolNat x.invalid + 2 * boolNat x.divzero + 4 * boolNat x.overflow + 8 * boolNat x.underflow + 16 * boolNat x.inexact

/-- `m 2^e` on the grid of multiples of 2^q: the multiple chosen, and whether it is exact. `r` holds the random
bits of SR. -/
def roundGrid (rnd : Rnd) (r : Nat) (s : Bool) (m : Nat) (e q : Int) : Nat × Bool :=
  if q ≤ e then (m * 2 ^ (e - q).toNat, false)
  else
    let k := (q - e).toNat
    let t := m / 2 ^ k
    let rem := m % 2 ^ k
    if rem = 0 then (t, false)
    else
      let half := 2 ^ (k - 1)
      let up := match rnd with
        | .rne => decide (half < rem) || (decide (rem = half) && decide (t % 2 = 1))
        | .rna => decide (half ≤ rem)
        | .rtp => !s
        | .rtn => s
        | .rtz => false
        | .sr => decide (2 ^ 32 ≤ rem * 2 ^ 32 / 2 ^ k + r)
      (if up then t + 1 else t, true)

/-- Exponent of the leading bit of `m 2^e`. -/
def leadExp (m : Nat) (e : Int) : Int := (Nat.log2 m : Int) + e

/-- What rounding a finite value into a format gives: the magnitude encoded, or too large. -/
structure Rounded where
  mag : Nat
  tooLarge : Bool
  inexact : Bool
  tiny : Bool
  deriving DecidableEq, Repr

/-- Round `m 2^e` to the precision of the format with an unbounded exponent, on its subnormal grid where the value
is tiny (R140); tininess is judged after rounding (R149). -/
def roundFin (f : Fmt) (rnd : Rnd) (r : Nat) (s : Bool) (m : Nat) (e : Int) : Rounded :=
  if m = 0 then { mag := 0, tooLarge := false, inexact := false, tiny := false }
  else
    let emin : Int := 1 - f.bias
    let le := leadExp m e
    let q : Int := if emin ≤ le then le - f.fb else emin - f.fb
    let (t, inex) := roundGrid rnd r s m e q
    let tiny :=
      if emin ≤ le then false
      else
        let (t', _) := roundGrid rnd r s m e (le - f.fb)
        !(decide (t' = 2 ^ (f.fb + 1)) && decide (le + 1 = emin))
    -- t 2^q, t at most 2^(fb+1)
    let (t, q) := if t = 2 ^ (f.fb + 1) then (2 ^ f.fb, q + 1) else (t, q)
    let mag : Int := if t < 2 ^ f.fb then t else (q + f.fb + f.bias) * 2 ^ f.fb + (t - 2 ^ f.fb : Nat)
    { mag := mag.toNat, tooLarge := decide ((maxFinite f : Int) < mag), inexact := inex, tiny := tiny }

/-- What a conversion does when the rounded magnitude is too large (R140). -/
inductive Over where
  /-- FP64, FP32, FP16, BF16: by the rounding mode -/
  | ieee
  /-- E4M3 and E5M2 with SAT 1, and the elements of microscaled blocks: the largest finite -/
  | sat
  /-- E4M3 with SAT 0: NaN with the sign; E5M2 with SAT 0: infinity -/
  | nonSat
  deriving DecidableEq, Repr

/-- Encoding of a finite value in a format, with the flags of R149. -/
def encFin (f : Fmt) (ov : Over) (rnd : Rnd) (r : Nat) (s : Bool) (m : Nat) (e : Int) : Nat × Exc :=
  let x := roundFin f rnd r s m e
  if x.tooLarge then
    let big := signBits f s + maxFinite f
    let inf := if f.oneNan then encNan f s quietBit else encInf f s
    let v := match ov with
      | .sat => big
      | .nonSat => inf
      | .ieee =>
        match rnd with
        | .rtz => big
        | .rtp => if s then big else inf
        | .rtn => if s then inf else big
        | _ => inf
    (v, { overflow := true, inexact := true })
  else (signBits f s + x.mag, { inexact := x.inexact, underflow := x.tiny && x.inexact })

/-! ### Exact dyadic arithmetic -/

/-- An exact value `m 2^e`. -/
structure Dy where
  m : Int
  e : Int
  deriving DecidableEq, Repr

def Dy.zero : Dy := ⟨0, 0⟩

def Dy.add (a b : Dy) : Dy :=
  let e := if a.e ≤ b.e then a.e else b.e
  ⟨a.m * 2 ^ (a.e - e).toNat + b.m * 2 ^ (b.e - e).toNat, e⟩

def Dy.mul (a b : Dy) : Dy := ⟨a.m * b.m, a.e + b.e⟩

def Dy.neg (a : Dy) : Dy := ⟨-a.m, a.e⟩

def Dy.lt (a b : Dy) : Bool := decide ((a.add b.neg).m < 0)

def dyOf (s : Bool) (m : Nat) (e : Int) : Dy := ⟨if s then -(m : Int) else m, e⟩

/-- The value of a finite number; 0 for others. -/
def FVal.dy : FVal → Dy
  | .fin s m e => dyOf s m e
  | _ => Dy.zero

/-- A dyadic number as a value; `zs` is the sign of a zero. -/
def Dy.val (d : Dy) (zs : Bool) : FVal :=
  if d.m = 0 then .zero zs else .fin (decide (d.m < 0)) d.m.natAbs d.e

/-! ### Operations of SCUs and PUEs (R146-R149) -/

/-- The quiet form of the first NaN operand, in operand order (R148). -/
def firstNan (xs : List FVal) : Option FVal :=
  (xs.find? FVal.isNan).map (fun x =>
    match x with
    | .nan s p => .nan s (p ||| quietBit)
    | y => y)

/-- INVALID for signalling operands. -/
def nanExc (xs : List FVal) : Exc := { invalid := xs.any FVal.signalling }

def invalidResult : FVal × Exc := (.canon, { invalid := true })

/-- Sign of an exact zero sum: that of both addends when they agree, else by the rounding mode. -/
def zeroSign (rnd : Rnd) (a b : Bool) : Bool := if a = b then a else decide (rnd = .rtn)

/-- Exact a + b, before rounding. -/
def addExact (rnd : Rnd) (a b : FVal) : FVal × Exc :=
  match firstNan [a, b] with
  | some n => (n, nanExc [a, b])
  | none =>
    match a, b with
    | .inf s, .inf t => if s = t then (.inf s, .none) else invalidResult
    | .inf s, _ => (.inf s, .none)
    | _, .inf s => (.inf s, .none)
    | x, y => ((x.dy.add y.dy).val (zeroSign rnd x.sign y.sign), .none)

def mulExact (a b : FVal) : FVal × Exc :=
  match firstNan [a, b] with
  | some n => (n, nanExc [a, b])
  | none =>
    let s := a.sign != b.sign
    if a.isInf || b.isInf then (if a.isZero || b.isZero then invalidResult else (.inf s, .none))
    else ((a.dy.mul b.dy).val s, .none)

/-- Exact a b + c. A quiet NaN c with a product of 0 and infinity raises nothing, which IEEE 754 leaves open (R149; DESIGN
CHOICE, log entry 99). -/
def fmaExact (rnd : Rnd) (a b c : FVal) : FVal × Exc :=
  match firstNan [a, b, c] with
  | some n => (n, nanExc [a, b, c])
  | none =>
    let (p, x) := mulExact a b
    if x.invalid then invalidResult
    else addExact rnd p c

/-- Bits beyond the precision that a quotient or a root carries before its sticky bit: more than rounding, SR
included, can look at. -/
def extraBits : Nat := 160

/-- `a / b` for positive integers, scaled: floor (a 2^k / b) with the remainder jammed into the last bit. -/
def jamDiv (a b k : Nat) : Nat :=
  let q := a * 2 ^ k / b
  2 * q + (if a * 2 ^ k % b = 0 then 0 else 1)

/-- a / b: a value that rounds as the exact quotient does. -/
def divExact (a b : FVal) : FVal × Exc :=
  match firstNan [a, b] with
  | some n => (n, nanExc [a, b])
  | none =>
    let s := a.sign != b.sign
    match a, b with
    | .inf _, .inf _ => invalidResult
    | .inf _, _ => (.inf s, .none)
    | _, .inf _ => (.zero s, .none)
    | .fin _ m e, .fin _ n g =>
      if n = 0 then (if m = 0 then invalidResult else (.inf s, { divzero := true }))
      else if m = 0 then (.zero s, .none)
      else
        let k := extraBits + Nat.log2 n
        (.fin s (jamDiv m n k) (e - g - k - 1), .none)
    | _, _ => invalidResult

/-- Integer square root by bits, from bit `i` down. -/
def isqrtBits (n : Nat) (i r : Nat) : Nat :=
  match i with
  | 0 => r
  | k + 1 =>
    let t := r + 2 ^ k
    isqrtBits n k (if t * t ≤ n then t else r)

def isqrt (n : Nat) : Nat := isqrtBits n (Nat.log2 n / 2 + 1) 0

/-- Square root: a value that rounds as the exact root does. -/
def sqrtExact (a : FVal) : FVal × Exc :=
  match firstNan [a] with
  | some n => (n, nanExc [a])
  | none =>
    match a with
    | .inf false => (.inf false, .none)
    | .fin s m e =>
      if m = 0 then (.zero s, .none)
      else if s then invalidResult
      else
        let m := if e % 2 = 0 then m else 2 * m
        let e := if e % 2 = 0 then e else e - 1
        let n := m * 2 ^ (2 * extraBits)
        let r := isqrt n
        (.fin false (2 * r + (if r * r = n then 0 else 1)) (e / 2 - extraBits - 1), .none)
    | _ => invalidResult

/-- Round a result into a format (R146, R147, R149). -/
def finish (f : Fmt) (ov : Over) (rnd : Rnd) (r : Nat) (x : FVal × Exc) : Nat × Exc :=
  match x.1 with
  | .nan s p => (encNan f s p, x.2)
  | .inf s =>
    if f.oneNan then (encNan f s quietBit, x.2) else (encInf f s, x.2)
  | .fin s m e => let (b, y) := encFin f ov rnd r s m e; (b, x.2.or y)

/-! ### Integer values -/

/-- Signed value of an integer code's element bits. -/
def decodeInt (code bits : Nat) : Int := sext (elemBits code) (bits % 2 ^ elemBits code)

/-- A finite value rounded to an integer, under a mode. -/
def roundInt (rnd : Rnd) (r : Nat) (s : Bool) (m : Nat) (e : Int) : Int × Bool :=
  let (t, inex) := roundGrid rnd r s m e 0
  (if s then -(t : Int) else t, inex)

/-- Conversion into an integer format (R140): limits under SAT, low bits otherwise. -/
def toInt (code : Nat) (sat : Bool) (rnd : Rnd) (r : Nat) (x : FVal) : Nat × Exc :=
  let w := elemBits code
  let hi : Int := 2 ^ (w - 1) - 1
  let lo : Int := -(2 ^ (w - 1))
  match x with
  | .nan _ _ => (0, { invalid := true })
  | .inf s => (if sat then (if s then lo % 2 ^ w else hi).toNat else 0, { invalid := true })
  | .fin s m e =>
    let (v, inex) := roundInt rnd r s m e
    if v < lo ∨ hi < v then
      ((if sat then (if v < lo then lo % 2 ^ w else hi) else v % 2 ^ w).toNat, { invalid := true })
    else ((v % 2 ^ w).toNat, { inexact := inex })

/-- Value of an element of a code an SCU or RL works with. -/
def valueOf (code bits : Nat) : FVal :=
  match fmtOf code with
  | some f => decodeF f (bits % 2 ^ elemBits code)
  | none =>
    let v := decodeInt code bits
    .fin (decide (v < 0)) v.natAbs 0

/-- Overflow rule of a floating destination under SAT (R138, R140). -/
def overOf (code : Nat) (sat : Bool) : Over :=
  if code < 4 then .ieee else if sat then .sat else .nonSat

/-- Conversion of a value into a format by an SCU or PUE (R140, R142). A NaN into E5M2 keeps the payload bit that fits, as
R142 and R277 say of an SCU, where the table of R140 names the canonical NaN (DESIGN CHOICE, log entry 98). -/
def convertTo (code : Nat) (sat : Bool) (rnd : Rnd) (r : Nat) (x : FVal) : Nat × Exc :=
  match fmtOf code with
  | none => toInt code sat rnd r x
  | some f =>
    match x with
    | .nan s p => (encNan f s p, { invalid := x.signalling })
    | .inf s =>
      if f.oneNan then (encNan f s quietBit, {}) else (encInf f s, {})
    | .fin s m e => encFin f (overOf code sat) rnd r s m e

/-- Set the sticky flags of an FPSTAT register (R149, R151). -/
def raiseFlags (a : Nat) (x : Exc) (s : State) : State :=
  if x.bits = 0 then s else setReg a (getReg s a ||| BitVec.ofNat 32 x.bits) s

/-! ### Packed elements (R123) -/

/-- Element `i` of a packed stream of elements of `w` bits. -/
def elemAt (bs : List Byte) (w i : Nat) : Nat :=
  let o := w * i
  bitsOf (leNat ((bs.drop (o / 8)).take 9)) (o % 8) w

/-- Bytes of `n` elements of `w` bits. -/
def packedBytes (w n : Nat) : Nat := cdiv (w * n) 8

/-- Pack elements of `w` bits, from the least significant bit upwards. -/
def packElems (w : Nat) (es : List Nat) : List Byte :=
  leBytes (packedBytes w es.length) ((es.foldr (fun e acc => acc * 2 ^ w + e % 2 ^ w) 0))

end Sys2Proof.Machine
end

