-- ==== Sys2Proof/Machine/Errors.lean ====
section
/-! DEFINITION. The error ring as software drains it, and handling windows (16_errors_and_containment.md). -/

namespace Sys2Proof.Machine

/-- Write the records of the oldest coalescing entry, when its slots are free (R545); `none`: nothing to drain. -/
def drainOne (s : State) : Option (State × List Report) :=
  match s.err.coal with
  | [] => none
  | c :: rest =>
    if 4096 - s.err.used < (if c.count = 1 then 1 else 2) then none
    else
      let s := { s with err := { s.err with coal := rest } }
      let first := s.err.next
      let (s, rs) := putRecord { c.first with count := 1 } true (ridxOf s.err c.first.linkTo) s
      let rs := nestUnder c.first.serial rs
      if c.count = 1 then some (s, rs)
      else
        let (s, rs') := putRecord { c.last with count := c.count } true (some first) s
        some (s, rs ++ nestUnder c.last.serial rs')

/-- Drain entries in order while their slots are free (R545). -/
def drainCoal (fuel : Nat) (s : State) : State :=
  match fuel with
  | 0 => s
  | k + 1 =>
    match drainOne s with
    | none => s
    | some (s, rs) => drainCoal k (reports rs s)

/-- A write of ACK (R543, R548): one behind ACK or ahead of NEXT leaves it unchanged. -/
def ackWrite (v : W32) (s : State) : State :=
  let e := s.err
  if (v - e.ack).toNat ≤ e.used then drainCoal (e.coal.length + 1) { s with err := { e with ack := v } } else s

/-- A write of ERR_HANDLED (R535): the window that record `v` opened closes. -/
def handledWrite (v : W32) (s : State) : State :=
  { s with err := { s.err with windows := s.err.windows.filter (fun w => !(decide (ridxOf s.err (some w.2) = some v))) } }

/-- Registers that take writes at PL 0 and from the MC only (R526, R548, R569, R590, R624, R625). -/
def isPl0 (init : Initiator) : Bool :=
  match init with
  | .mc => true
  | .companion pl => decide (pl.val = 0)
  | _ => false

/-- A write to a register of that kind: refused by the table, ignored below PL 0, or done. -/
def pl0Write (by' : Initiator) (a : Nat) (f : State → State) (s : State) : Host.Outcome State Fault Refusal :=
  .next (if mayAccess s by' a 4 .write then (if isPl0 by' then f s else s) else refuseAccess by' a s)

/-- ERR_ACK_WRITE (R543) -/
def execErrAckWrite (by' : Initiator) (v : W32) (s : State) : Host.Outcome State Fault Refusal :=
  pl0Write by' (errRegs + 4) (ackWrite v) s

/-- ERR_HANDLED_WRITE (R535) -/
def execErrHandledWrite (by' : Initiator) (v : W32) (s : State) : Host.Outcome State Fault Refusal :=
  pl0Write by' (errRegs + 0x14) (handledWrite v) s

end Sys2Proof.Machine
end

