-- ==== Sys2Proof/Machine/Reduction.lean ====
section
/-! DEFINITION. Exact reduction (08_exact_reduction.md): modes and paths, the accumulator, the canonical sum, the
reduction context and its store accounting. -/

namespace Sys2Proof.Machine

/-! ### Modes and paths (R298-R300) -/

def rmOp (r : Nat) : Nat := bitsOf r 0 3
def rmU (r : Nat) : Bool := decide (bitsOf r 3 1 = 1)
def rmElem (r : Nat) : Nat := bitsOf r 4 5
def rmDfmt (r : Nat) : Nat := bitsOf r 9 5
def rmSat (r : Nat) : Bool := decide (bitsOf r 14 1 = 1)

inductive RedPath where
  | exact | canonical | orderFree
  deriving DecidableEq, Repr

/-- The path of a combination of R299; `none`: the lanes do not accept it. -/
def rmPath (r : Nat) : Option RedPath :=
  let e := rmElem r
  let d := rmDfmt r
  let small := decide (1 ≤ e) && decide (e ≤ 5)
  let int := decide (e = 15) || decide (e = 16)
  if rmOp r = 0 then
    if small && (decide (d = 1) || decide (d = 3)) then some .exact
    else if small && (decide (d = 2) || decide (d = 4) || decide (d = 5)) then some .canonical
    else if e = 0 ∧ d = 0 then some .canonical
    else if int && (decide (d = 15) || decide (d = 16)) then some .exact
    else none
  else if rmOp r ≤ 2 ∧ (e ≤ 5 ∨ int) ∧ d = e then some .orderFree
  else none

/-- A SAT value that R139 forbids for a format. -/
def satForbidden (code : Nat) (sat : Bool) : Bool :=
  if !sat then decide (8 ≤ code) && decide (code ≤ 11)
  else !(decide (code = 4) || decide (code = 5) || microscaled code || intCode code)

/-- Halt reason of an RMODE that a reducing instruction carries (R300). -/
def rmReason (r : Nat) : Option Nat :=
  let e := rmElem r
  if 2 < rmOp r ∨ bitsOf r 15 1 = 1 ∨ (rmU r ∧ ¬ (rmOp r ≠ 0 ∧ (e = 15 ∨ e = 16))) ∨ reservedFormat e ∨
      reservedFormat (rmDfmt r) ∨ satForbidden (rmDfmt r) (rmSat r) then some 0x02
  else if rmPath r = none then some 0x0B
  else none

/-! ### Accumulators (R301-R306) -/

/-- `exact_fixed` of R301: a finite element in units of the lowest bit. -/
def exactFixed (code bits : Nat) : Int :=
  match valueOf code bits with
  | .fin s m e =>
    if intCode code then (if s then -(m : Int) else m)
    else (if s then -1 else 1) * (m * 2 ^ (e + 149).toNat : Nat)
  | _ => 0

/-- Key of R281: an unsigned order on the bits of a format. -/
def orderKey (code : Nat) (u : Bool) (x : Nat) : Nat :=
  let w := elemBits code
  let top := 2 ^ (w - 1)
  if intCode code then (if u then x else x ^^^ top)
  else if top ≤ x then 2 ^ w - 1 - x else x + top

/-- Add one contributed element to an accumulator (R302, R306). -/
def accAdd (r : Nat) (x : Nat) (poison : Bool) (a : Acc) : Acc :=
  let c := rmElem r
  let a := { a with poison := a.poison || poison }
  if rmOp r ≠ 0 then
    match a.best with
    | none => { a with best := some x }
    | some y =>
      let kx := orderKey c (rmU r) x
      let ky := orderKey c (rmU r) y
      if (rmOp r = 1 ∧ ky < kx) ∨ (rmOp r = 2 ∧ kx < ky) then { a with best := some x } else a
  else
    match valueOf c x with
    | .nan _ _ => { a with nan := true }
    | .inf s => if s then { a with ninf := true } else { a with pinf := true }
    | .fin s m _ =>
      { a with sum := a.sum + exactFixed c x, nz := a.nz || intCode c || !(s && decide (m = 0)) }

/-- A result element: its bits, whether it overflowed, whether it is a NaN. -/
structure RedResult where
  bits : Nat
  ovf : Bool
  nan : Bool
  poison : Bool
  deriving DecidableEq, Repr

/-- `finish` of R303, and the choice of R306. -/
def accFinish (r : Nat) (a : Acc) : RedResult :=
  let d := rmDfmt r
  if rmOp r ≠ 0 then
    let x := a.best.getD 0
    { bits := x, ovf := false, nan := (valueOf d x).isNan, poison := a.poison }
  else if intCode d then
    let w := elemBits d
    let hi : Int := 2 ^ (w - 1) - 1
    let lo : Int := -(2 ^ (w - 1))
    let v := if rmSat r then (if a.sum < lo then lo else if hi < a.sum then hi else a.sum) else a.sum
    { bits := (v % 2 ^ w).toNat, ovf := false, nan := false, poison := a.poison }
  else
    let v : FVal := if a.nan || (a.pinf && a.ninf) then .canon
      else if a.pinf then .inf false
      else if a.ninf then .inf true
      else if a.sum = 0 then .zero (!a.nz)
      else .fin (decide (a.sum < 0)) a.sum.natAbs (-149)
    let b := (convertTo d (rmSat r) .rne 0 v).1
    let finite := match v with
      | .fin _ _ _ => true
      | _ => false
    { bits := b, ovf := finite && (valueOf d b).isInf, nan := v.isNan, poison := a.poison }

/-- The rank-ordered sum of R308 over one element's contributions. -/
def canonSum (r : Nat) (xs : List Nat) : FVal :=
  let e := rmElem r
  let f := if e = 0 then fp64 else fp32
  match xs with
  | [] => .zero false
  | x :: rest =>
    rest.foldl (fun acc y =>
      let s := addExact .rne acc (valueOf e y)
      decodeF f (finish f .ieee .rne 0 s).1) (valueOf e x)

/-- The element of R308 with its counts: an overflow is an infinity that finite contributions come to, or a finite sum whose
conversion leaves the range. -/
def canonFinish (r : Nat) (xs : List (Nat × Bool)) : RedResult :=
  let d := rmDfmt r
  let v := canonSum r (xs.map (fun x => x.1))
  let b := (convertTo d (rmSat r) .rne 0 v).1
  let finite := match v with
    | .fin _ _ _ => true
    | _ => false
  let limit := decide (d = 4) && (convertTo d (rmSat r) .rne 0 v).2.overflow && rmSat r
  let grown := v.isInf && xs.all (fun x => !(valueOf (rmElem r) x.1).isInf)
  { bits := b, ovf := grown || (finite && ((valueOf d b).isInf || limit)), nan := (valueOf d b).isNan,
    poison := xs.any (fun x => x.2) }

/-! ### The store (R322-R324, R331) -/

def storeTotal : Nat := 0x6_0000

/-- groups homed in a cluster. -/
def groupsOf (s : State) (cl : Nat) : List Group :=
  (s.groups.filter (fun e => decide (e.1 / 4096 = cl) && e.2.held)).map (fun e => e.2)

def storeReserved (s : State) (cl : Nat) : Nat := ((groupsOf s cl).map (fun g => g.resGran)).sum
def storeUsed (s : State) (cl : Nat) : Nat := ((groupsOf s cl).map (fun g => g.used)).sum
def storeShared (s : State) (cl : Nat) : Nat := ((groupsOf s cl).map (fun g => g.shared)).sum

/-- Granules of the shared part that are free. -/
def storeFree (s : State) (cl : Nat) : Nat := storeTotal - storeReserved s cl - storeShared s cl

/-- STORE_HIGH after a change of use. -/
def noteStore (cl : Nat) (s : State) : State :=
  let a := rlRegs cl + 0x14
  if (getReg s a).toNat < storeUsed s cl then setReg a (BitVec.ofNat 32 (storeUsed s cl)) s else s

/-- Take granules for a group (R323): from its reservation while USED_GRAN is below RES_GRAN, otherwise from the shared part;
what the shared part has not, from the reservation's free granules (DEDUCED, log entry 103). `none`: neither has them. -/
def takeGranules (cl gq n : Nat) (s : State) : Option State :=
  let g := getGroup s cl gq
  let rest := n - (g.resGran - g.used)
  let more := Nat.min rest (storeFree s cl)
  if g.resGran < g.used + n - (g.shared + more) then none
  else some (noteStore cl (setGroup cl gq { g with used := g.used + n, shared := g.shared + more } s))

/-- Freed granules return to the reservation first (R323). -/
def freeGranules (cl gq n : Nat) (s : State) : State :=
  modGroup cl gq (fun g => { g with used := g.used - n, shared := Nat.min g.shared (g.used - n) }) s

/-- ⌈CCOUNT / 512⌉ -/
def bitmapGranules (ccount : Nat) : Nat := cdiv ccount 512

/-- Chunk record with its received bitmaps. -/
def chunkGranules (n pieces : Nat) : Nat := 1 + cdiv (n * pieces) 512

/-- An open piece. -/
def pieceGranules (r n pe : Nat) : Nat :=
  match rmPath r with
  | some .exact => pe * 48 / 64
  | some .orderFree => pe * 16 / 64
  | some .canonical => cdiv (n * pe * (elemBits (rmElem r) / 8)) 64
  | none => 0

/-- Address of the header of a reduction context (R322): 128-byte places from the base of the cluster's slice
(DESIGN CHOICE, log entry 23). -/
def headerAddr (cl slot : Nat) : Nat := 0x5000_0000 + cl * 0x180_0000 + 128 * slot

/-- The header of R322. -/
def headerBytes (g : Group) : List Byte :=
  leBytes 128 (g.gid.toNat + (g.nmemb - 1) <<< 24 + g.self <<< 40 + boolNat g.selfEn <<< 56 + 1 <<< 57 +
    g.pieceLog2 <<< 64 + (g.pieces - 1) <<< 72 + g.rmode.toNat <<< 80 + g.seq.toNat <<< 96 + g.cbase.toNat <<< 128 +
    g.ccount.toNat <<< 160 + g.resGran <<< 192 + g.used <<< 212 + (g.openPieces.length % 65536) <<< 232)

/-- The lanes write the header of a context. -/
def writeHeader (cl gq : Nat) (s : State) : State :=
  let g := getGroup s cl gq
  if g.held then writeMem (headerAddr cl g.slot) (clean (headerBytes g)) s else s

/-- Lane cycles that combining a piece takes (R325). -/
def combineCycles (r pe : Nat) : Nat :=
  cdiv pe 768 * (if rmOp r ≠ 0 ∧ elemBits (rmElem r) = 64 then 2 else 1)

/-- ADD_CYC (R316, R326). -/
def addCycles (cl gq : Nat) (s : State) : State :=
  let g := getGroup s cl gq
  addCtr (rlRegs cl + 0x40) (combineCycles g.rmode.toNat (2 ^ g.pieceLog2)) s

/-- The lanes read the header: a poisoned granule of it is an uncorrectable error (R319). -/
def headerBad (cl gq : Nat) (s : State) : Bool × State :=
  let g := getGroup s cl gq
  let (bs, s) := readMem (headerAddr cl g.slot) 128 1 s
  (anyPoison bs, s)

end Sys2Proof.Machine
end

