-- ==== Sys2Proof/Machine/Crypto.lean ====
section
/-! DEFINITION. What identity and authentication compute with (18_boot_identity_protection.md): SHA-512 of FIPS 180-4,
HMAC-SHA-512 of RFC 2104, ECDSA over P-521 of FIPS 186-5 with the nonce of RFC 6979, and the derivation of keys from
DEVSECRET (R576). The spec names these standards; their constants are the standards' own. -/

namespace Sys2Proof.Machine

/-! ### SHA-512 -/

/-- Largest r with r ^ k ≤ n, from its top bit down. -/
def rootBits (k n bit r : Nat) : Nat :=
  match bit with
  | 0 => if (r + 1) ^ k ≤ n then r + 1 else r
  | b + 1 => rootBits k n b (if (r + 2 ^ (b + 1)) ^ k ≤ n then r + 2 ^ (b + 1) else r)

/-- The first primes: those below 410 number 80. -/
def primes80 : List Nat :=
  (List.range 410).filter (fun n => decide (2 ≤ n) && (List.range 21).all (fun d => decide (d < 2) || decide (n ≤ d) || decide (n % d ≠ 0)))

/-- Round constants: the first 64 bits of the fractional parts of the cube roots of the first 80 primes. -/
def sha512K : List W64 := primes80.map (fun p => BitVec.ofNat 64 (rootBits 3 (p * 2 ^ 192) 68 0))

/-- Initial hash: the same of the square roots of the first 8. -/
def sha512Init : List W64 := (primes80.take 8).map (fun p => BitVec.ofNat 64 (rootBits 2 (p * 2 ^ 128) 70 0))

/-- Message schedule, newest word first. -/
def shaSchedule (n : Nat) (w : List W64) : List W64 :=
  match n with
  | 0 => w
  | k + 1 =>
    let at' := fun i => w.getD (i - 1) 0
    let a := at' 15
    let b := at' 2
    let s0 := a.rotateRight 1 ^^^ a.rotateRight 8 ^^^ (a >>> 7)
    let s1 := b.rotateRight 19 ^^^ b.rotateRight 61 ^^^ (b >>> 6)
    shaSchedule k ((at' 16 + s0 + at' 7 + s1) :: w)

/-- The eight working words. -/
structure ShaRegs where
  a : W64
  b : W64
  c : W64
  d : W64
  e : W64
  f : W64
  g : W64
  h : W64

def shaRound (r : ShaRegs) (kw : W64 × W64) : ShaRegs :=
  let s1 := r.e.rotateRight 14 ^^^ r.e.rotateRight 18 ^^^ r.e.rotateRight 41
  let ch := (r.e &&& r.f) ^^^ (~~~r.e &&& r.g)
  let t1 := r.h + s1 + ch + kw.1 + kw.2
  let s0 := r.a.rotateRight 28 ^^^ r.a.rotateRight 34 ^^^ r.a.rotateRight 39
  let maj := (r.a &&& r.b) ^^^ (r.a &&& r.c) ^^^ (r.b &&& r.c)
  { a := t1 + s0 + maj, b := r.a, c := r.b, d := r.c, e := r.d + t1, f := r.e, g := r.f, h := r.g }

def shaBlock (hs : List W64) (blk : List Byte) : List W64 :=
  let w0 := (List.range 16).map (fun i => BitVec.ofNat 64 (beAt blk (8 * i) 8))
  let w := (shaSchedule 64 w0.reverse).reverse
  let g := fun i => hs.getD i 0
  let r := (sha512K.zip w).foldl shaRound
    { a := g 0, b := g 1, c := g 2, d := g 3, e := g 4, f := g 5, g := g 6, h := g 7 }
  [g 0 + r.a, g 1 + r.b, g 2 + r.c, g 3 + r.d, g 4 + r.e, g 5 + r.f, g 6 + r.g, g 7 + r.h]

def shaBlocks (fuel : Nat) (hs : List W64) (bs : List Byte) : List W64 :=
  match fuel with
  | 0 => hs
  | k + 1 => if bs.isEmpty then hs else shaBlocks k (shaBlock hs (bs.take 128)) (bs.drop 128)

/-- SHA-512 of a byte string: 64 bytes. -/
def sha512 (m : List Byte) : List Byte :=
  let zeros := (240 - (m.length + 1) % 128) % 128
  let p := m ++ [0x80] ++ List.replicate zeros 0 ++ beBytes 16 (8 * m.length)
  (shaBlocks (p.length / 128) sha512Init p).flatMap (fun w => beBytes 8 w.toNat)

/-- HMAC-SHA-512. -/
def hmac512 (key msg : List Byte) : List Byte :=
  let k := if 128 < key.length then sha512 key else key
  let k := k ++ List.replicate (128 - k.length) 0
  sha512 (k.map (fun b => b ^^^ 0x5C) ++ sha512 (k.map (fun b => b ^^^ 0x36) ++ msg))

/-! ### P-521 -/

def p521P : Nat := 2 ^ 521 - 1
def p521B : Nat :=
  0x0051953EB9618E1C9A1F929A21A0B68540EEA2DA725B99B315F3B8B489918EF109E156193951EC7E937B1652C0BD3BB1BF073573DF883D2C34F1EF451FD46B503F00
def p521N : Nat :=
  0x01FFFFFFFFFFFFFFFFFFFFFFFFFFFFFFFFFFFFFFFFFFFFFFFFFFFFFFFFFFFFFFFFFA51868783BF2F966B7FCC0148F709A5D03BB5C9B8899C47AEBB6FB71E91386409
def p521G : Nat × Nat :=
  (0x00C6858E06B70404E9CD9E3ECB662395B4429C648139053FB521F828AF606B4D3DBAA14B5E77EFE75928FE1DC127A2FFA8DE3348B3C1856A429BF97E7E31C2E5BD66,
   0x011839296A789A3BC0045C8A5FB42C7D1BD998F54449579B446817AFBD17273E662C97EE72995EF42640C550B9013FAD0761353C7086A272C24088BE94769FD16650)

/-- b ^ e mod m, over the `n` low bits of e. -/
def powMod (n b e m acc : Nat) : Nat :=
  match n with
  | 0 => acc
  | k + 1 => powMod k (b * b % m) (e / 2) m (if e % 2 = 1 then acc * b % m else acc)

/-- Inverse modulo a prime of 521 bits. -/
def invMod (a m : Nat) : Nat := powMod 521 (a % m) (m - 2) m 1

/-- A point: `none` is the point at infinity. -/
abbrev Point := Option (Nat × Nat)

def onCurve (x y : Nat) : Bool :=
  decide (x < p521P) && decide (y < p521P) && decide (y * y % p521P = (x * x * x + (p521P - 3) * x + p521B) % p521P)

/-- Difference of numbers modulo p. -/
def subP (a b : Nat) : Nat := (a + (p521P - b)) % p521P

/-- A point in Jacobian coordinates: (x / z², y / z³), at infinity where z is 0. -/
structure JPoint where
  x : Nat
  y : Nat
  z : Nat

/-- 2 P (a = -3) -/
def jDouble (a : JPoint) : JPoint :=
  let m := p521P
  let d := a.z * a.z % m
  let g := a.y * a.y % m
  let b := a.x * g % m
  let al := 3 * subP a.x d * (a.x + d) % m
  let x := subP (al * al % m) (8 * b % m)
  { x := x, y := subP (al * subP (4 * b % m) x % m) (8 * g * g % m), z := 2 * a.y * a.z % m }

/-- P + Q -/
def jAdd (a b : JPoint) : JPoint :=
  let m := p521P
  if a.z = 0 then b
  else if b.z = 0 then a
  else
    let za := a.z * a.z % m
    let zb := b.z * b.z % m
    let ua := a.x * zb % m
    let ub := b.x * za % m
    let sa := a.y * zb * b.z % m
    let sb := b.y * za * a.z % m
    if ua = ub then (if sa = sb then jDouble a else { x := 1, y := 1, z := 0 })
    else
      let h := subP ub ua
      let r := subP sb sa
      let hh := h * h % m
      let v := ua * hh % m
      let x := subP (subP (r * r % m) (hh * h % m)) (2 * v % m)
      { x := x, y := subP (r * subP v x % m) (sa * hh * h % m), z := a.z * b.z * h % m }

/-- acc + k P, over the `n` low bits of k -/
def jMul (n k : Nat) (p acc : JPoint) : JPoint :=
  match n with
  | 0 => acc
  | j + 1 => jMul j (k / 2) (jDouble p) (if k % 2 = 1 then jAdd acc p else acc)

def toJ (p : Point) : JPoint :=
  match p with
  | none => { x := 1, y := 1, z := 0 }
  | some (x, y) => { x := x, y := y, z := 1 }

def ofJ (a : JPoint) : Point :=
  if a.z = 0 then none
  else
    let i := invMod a.z p521P
    some (a.x * i * i % p521P, a.y * i * i * i % p521P)

/-- A public key: the SEC 1 uncompressed point. -/
def pointBytes (p : Point) : List Byte :=
  match p with
  | none => []
  | some (x, y) => [4] ++ beBytes 66 x ++ beBytes 66 y

def publicKey (d : Nat) : List Byte := pointBytes (ofJ (jMul 521 d (toJ (some p521G)) (toJ none)))

def parsePoint (bs : List Byte) : Point :=
  let x := beAt bs 1 66
  let y := beAt bs 67 66
  if bs.length = 133 ∧ bs.getD 0 0 = 4 ∧ onCurve x y then some (x, y) else none

/-- The nonce of RFC 6979, drawn until it lies in [1, n - 1]. -/
def nonceLoop (fuel : Nat) (k v : List Byte) : Nat :=
  match fuel with
  | 0 => 1
  | f + 1 =>
    let v := hmac512 k v
    let v' := hmac512 k v
    let t := beNat (v ++ v') / 2 ^ 503
    if 1 ≤ t ∧ t < p521N then t
    else
      let k := hmac512 k (v' ++ [0])
      nonceLoop f k (hmac512 k v')

def nonce (d : Nat) (h : List Byte) : Nat :=
  let x := beBytes 66 d ++ beBytes 66 (beNat h % p521N)
  let v := List.replicate 64 1
  let k := hmac512 (List.replicate 64 0) (v ++ [0] ++ x)
  let v := hmac512 k v
  let k := hmac512 k (v ++ [1] ++ x)
  nonceLoop 64 k (hmac512 k v)

/-- ECDSA signature r ‖ s of a message under private key d. -/
def ecdsaSign (d : Nat) (msg : List Byte) : List Byte :=
  let h := sha512 msg
  let k := nonce d h
  match ofJ (jMul 521 k (toJ (some p521G)) (toJ none)) with
  | none => []
  | some (x, _) =>
    let r := x % p521N
    let s := invMod k p521N * (beNat h + r * d) % p521N
    beBytes 66 r ++ beBytes 66 s

def ecdsaVerify (pub sig msg : List Byte) : Bool :=
  let r := beAt sig 0 66
  let s := beAt sig 66 66
  match parsePoint pub with
  | none => false
  | some q =>
    if sig.length = 132 ∧ 1 ≤ r ∧ r < p521N ∧ 1 ≤ s ∧ s < p521N then
      let w := invMod s p521N
      let u := beNat (sha512 msg) * w % p521N
      let v := r * w % p521N
      match ofJ (jMul 521 v (toJ (some q)) (jMul 521 u (toJ (some p521G)) (toJ none))) with
      | none => false
      | some (x, _) => decide (x % p521N = r)
    else false

/-! ### Fuses and derived keys (R576, R579) -/

/-- A fuse word; [0] of PROD is the grade (R579). -/
def fuseWord (s : State) (w : Nat) : W32 :=
  if w = 16 then (mget 0 s.fuses 16 &&& 0xFFFF_FFFE) ||| BitVec.ofNat 32 (boolNat (decide (s.part.grade = .b))) else mget 0 s.fuses w

def fuseBytes (s : State) (w n : Nat) : List Byte := (List.range n).flatMap (fun i => leBytes 4 (fuseWord s (w + i)).toNat)

def ascii (t : String) : List Byte := t.toList.map (fun c => BitVec.ofNat 8 c.toNat)

/-- KDF(label) = HMAC-SHA-512(DEVSECRET, label) -/
def kdf (s : State) (label : List Byte) : List Byte := hmac512 (fuseBytes s 0 16) label

/-- A P-521 private key from a label. -/
def privateKey (s : State) (label : List Byte) : Nat :=
  beNat (kdf s (label ++ [1]) ++ (kdf s (label ++ [2])).take 10) % (p521N - 1) + 1

def idKey (s : State) : Nat := privateKey s (ascii "IDK")

def attestKey (s : State) (m : List Byte) : Nat := privateKey s (ascii "AK" ++ m)

/-- Bits that are 1 in a number of `n` bits. -/
def countOnes (n v : Nat) : Nat := ((List.range n).filter (fun i => decide (bitsOf v i 1 = 1))).length

/-- Blown count of SVN_FUSE. -/
def svnFuse (s : State) : Nat := countOnes 32 (fuseWord s 97).toNat + countOnes 32 (fuseWord s 98).toNat

end Sys2Proof.Machine
end

