-- ==== Sys2Proof/Machine/Scores.lean ====
section
/-! DEFINITION. Physical units, the farrier map, retirement and health scores (17_cupping_and_health.md, R560-R566), and the
faults inside engines that change them (16_errors_and_containment.md, R533). -/

namespace Sys2Proof.Machine

/-! ### Units -/

def unitKey (u : UnitRef) : Nat := hkey u.kind.toNat u.cl.val u.index

/-- The part has the unit. -/
def hUnitExists (s : State) (k : Nat) : Bool :=
  let i := keyIndex k
  decide (keyCl k < 8) &&
  (match keyKind k with
   | 1 => decide (i < 9) && !fusedOff s i
   | 2 => decide (i < 8)
   | 4 => decide (i = 0)
   | 5 => decide (i = 0)
   | _ => false)

/-- Position that a physical tile holds; 8 is the spare role. -/
def tileRole (s : State) (cl t : Nat) : Option Nat := (List.range 9).find? (fun p => decide (tileOf s cl p = t))

/-- A HEALTH event that names a unit (R563). -/
def unitEvent (sub k : Nat) (s : State) : State :=
  event 6 (keyCl k) 0 (unitInfo sub k) s

/-! ### The farrier map (R564, R565) -/

def feLevel (e : BitVec 256) : Nat := fld e 0 4
def feAction (e : BitVec 256) : Nat := fld e 4 4
def feCl (e : BitVec 256) : Nat := fld e 8 3
def feDie (e : BitVec 256) : Nat := fld e 11 2
def feLoc (e : BitVec 256) : Nat := fld e 16 32
def feBandKind (e : BitVec 256) : Nat := fld e 56 8
def feLo (e : BitVec 256) : Int := sext 16 (fld e 64 16)
def feHi (e : BitVec 256) : Int := sext 16 (fld e 80 16)

/-- Level and location of an entry. -/
def fePlace (e : BitVec 256) : Nat × Nat × Nat × Nat := (feLevel e, feCl e, feDie e, feLoc e)

def farrierEntry (s : State) (level action cl die loc source run : Nat) : BitVec 256 :=
  BitVec.ofNat 256 (level + action * 16 + cl * 2 ^ 8 + die * 2 ^ 11 + loc * 2 ^ 16 + source * 2 ^ 48 +
    s.uptime.toNat * 2 ^ 96 + run * 2 ^ 160)

/-- An entry that acts while a band is met. -/
def isBand (e : BitVec 256) : Bool := decide (feAction e = 2) || decide (feAction e = 3)

/-- Entries that no later CLEAR of the same level and location cancels. -/
def purge (es : List (BitVec 256)) : List (BitVec 256) :=
  match es with
  | [] => []
  | e :: r => if r.any (fun c => decide (feAction c = 4) && decide (fePlace c = fePlace e)) then purge r else e :: purge r

/-- Production entries: the fuse words 128 to 1023, eight words an entry, up to the first of zeros (PRESUMED, log entry
33). A CLEAR that names one is not applied. -/
def productionEntries (s : State) : List (BitVec 256) :=
  ((List.range 112).map (fun i => BitVec.ofNat 256 (leNat (fuseBytes s (128 + 8 * i) 8)))).takeWhile (fun e => decide (e ≠ 0))

/-- Write the map: the older copy takes the new generation (R571). -/
def storeMap (s : State) : State :=
  let v := some (s.health.gen, s.health.entries)
  let g : Option (W32 × List (BitVec 256)) → Nat := fun c =>
    match c with
    | some x => x.1.toNat + 1
    | none => 0
  if g s.flash.far0 ≤ g s.flash.far1 then { s with flash := { s.flash with far0 := v } }
  else { s with flash := { s.flash with far1 := v } }

/-- Append entries: all of them, or none when the map would hold more than 4,096 once cancelled entries are removed (R565,
R566); in service that is reported as MAP_FULL. -/
def appendEntries (es : List (BitVec 256)) (s : State) : State × Bool :=
  let kept := purge (s.health.entries ++ es)
  if 4096 < kept.length then
    (event 6 0xFF 0 (BitVec.ofNat 32 (7 + s.health.entries.length % 2 ^ 24 * 256)) s, false)
  else (storeMap { s with health := { s.health with
    entries := kept, gen := s.health.gen + 1, bands := s.health.bands ++ es.filter isBand } }, true)

/-! ### Retirement (R561, R562) -/

/-- The record of a case or of a replay (R559). -/
def testRecord (k outcome failRec failOwn : Nat) (bias : Int) (column : Option Nat) (d : ReplayDue) (s : State) : State :=
  report (testReport k outcome failRec failOwn bias column d s) s

/-- Replays of a unit that leaves service before they end are abandoned (R568). -/
def abandonReplays (k : Nat) (s : State) : State :=
  let l := (getHUnit s k).replays
  let s := modHUnit k (fun x => { x with replays := [] }) s
  l.foldl (fun s d => testRecord k 1 0 0 0 none d s) s

/-- A tile that is to leave service does so where it can: from the spare role at once, from a position no job holds when no
spare is fit (R562). -/
def settleTile (cl t : Nat) (s : State) : State :=
  let k := hkey 1 cl t
  let x := getHUnit s k
  if !(x.retired || x.excluded) then s
  else
    match tileRole s cl t with
    | none => s
    | some 8 => unitEvent 6 k { s with tilePhys := mput 8 s.tilePhys (cl * 9 + 8) 9 }
    | some p =>
      if jobOfQueue s cl p = 0 ∧ ¬ spareFit s cl then unitEvent 6 k { s with tilePhys := mput p s.tilePhys (cl * 9 + p) 9 } else s

/-- The same for every tile of a cluster: at a job boundary. -/
def settleTiles (cl : Nat) (s : State) : State := (List.range 9).foldl (fun s t => settleTile cl t s) s

/-- Retire a tile (R562). -/
def retireTile (cl t : Nat) (s : State) : State :=
  let k := hkey 1 cl t
  settleTile cl t (abandonReplays k (modHUnit k (fun x => { x with retired := true }) s))

/-- The health logic may retire a tile of the cluster now (R561). -/
def retireBudget (s : State) (cl : Nat) : Bool :=
  match mget none s.health.retiredAt cl with
  | some at' => decide (at'.toNat + 2 ^ 40 ≤ s.uptime.toNat)
  | none => true

/-- A retirement candidate (R560, R561). -/
def candidate (k : Nat) (run : W32) (s : State) : State :=
  let cl := keyCl k
  if keyKind k = 1 ∧ bitOf (getReg s hlRegs) 1 ∧ retireBudget s cl then
    let s := { s with health := { s.health with
      retiredAt := mput none s.health.retiredAt cl (some s.uptime), refused := mput 0 s.health.refused cl 0 } }
    let s := (appendEntries [farrierEntry s 2 1 cl (cl / 2) (keyIndex k) 1 run.toNat] s).1
    retireTile cl (keyIndex k) s
  else
    let (s, rs) := refuseCandidate k s
    reports rs s

/-- Change a score (R560): a unit that reaches SUSPECT_AT is marked, one that reaches RETIRE_AT is a candidate. -/
def changeScore (k : Nat) (f : Nat → Nat) (run : W32) (s : State) : State :=
  let old := (getHUnit s k).score.toNat
  let new := Nat.min 0xFFFF (f old)
  let suspectAt := regField s (hlRegs + 0xC) 0 16
  let retireAt := regField s (hlRegs + 0xC) 16 16
  let s := modHUnit k (fun x => { x with score := BitVec.ofNat 16 new }) s
  let s := if suspectAt ≤ new ∧ ¬ (getHUnit s k).suspect then
      unitEvent 3 k (modHUnit k (fun x => { x with suspect := true }) s)
    else s
  if old < retireAt ∧ retireAt ≤ new then candidate k run s else s

/-! ### Faults inside an engine (R533) -/

/-- Families of a unit kind (R549). -/
def familyCount (kind : Nat) : Nat :=
  match kind with
  | 1 => 6
  | 2 => 4
  | _ => 2

/-- Two temperatures lie within TEMP_TOL of each other (R556). -/
def nearTemp (s : State) (a b : W16) : Bool :=
  decide ((sext 16 a.toNat - sext 16 b.toNat).natAbs ≤ regField s (hlRegs + 0x10) 8 8)

/-- TEMP and VOLT of a unit with a score now, as a record of it takes them (R539). -/
def unitTemp (s : State) (k : Nat) : W16 := BitVec.ofNat 16 (regField s (rgRegs (keyCl k) + 0x14) 0 16)
def unitVolt (s : State) (k : Nat) : W16 := BitVec.ofNat 16 (regField s (rgRegs (keyCl k) + 8) 16 12)

/-- A record of CLASS TRANSIENT of a unit (R556): with an earlier one near its temperature it leads to a replay at the
condition of the first; both are then used up. The case is a free value (log entry 116). -/
def noteTransient (k : Nat) (s : State) : State :=
  let x := getHUnit s k
  let now := (unitTemp s k, unitVolt s k)
  match x.transients.find? (fun p => nearTemp s p.1 now.1) with
  | none => setHUnit k { x with transients := x.transients ++ [now] } s
  | some p =>
    let c := (Config.replayCase s.fresh).toNat
    let d : ReplayDue := { family := c % familyCount (keyKind k), case' := c, run := 0, temp := p.1, volt := p.2 }
    takeFresh (setHUnit k { x with transients := x.transients.erase p, replays := x.replays ++ [d] } s)

/-- An uncorrectable fault that lies in an engine, if one does, halts its queue with HW_FAULT (R218, R356). -/
def engineFault (u : W32) : QM Unit := do
  let n := mget 0 (← get).runs u.toNat
  if n ≠ 0 then
    let stage := (Config.faultStage (← get).fresh).toNat
    modify (fun s => takeFresh { s with runs := mput 0 s.runs u.toNat (n - 1) })
    throw { reason := 0x0E, detail := stage }

/-- Run `p` on a unit in which coming runs meet parity errors (R533). A failing run has no effect. The same work is run again
up to REPLAYS times: when a run succeeds the fault is transient and is recorded, else it is permanent and halts the queue;
what fails again is counted in the RECOVERY counters. `k` is the unit's score (R560), `place` the row and column, or the slot,
of the record (R540), `note` what the unit's own halt register takes; the lanes in error are a free value (log entry 101). -/
def replayed {α : Type} (u : W32) (k qid : Nat) (place : Option Nat) (note : State → State) (p : QM α) : QM α := do
  let n := mget 0 (← get).runs u.toNat
  if n = 0 then p
  else
    let most := regField (← get) (errRegs + 0x18) 0 4
    let free := (Config.parityLanes (← get).fresh).toNat
    let stage := (Config.faultStage (← get).fresh).toNat
    modify (fun s => takeFresh { s with runs := mput 0 s.runs u.toNat (n - (most + 1)) })
    modify (bumpSat (errRegs + 0x200 + 4 * 2) (Nat.min (n - 1) most))
    if n ≤ most then
      let r := newReport (← get) u 2 3
      let syn := match place with
        | some x => free % 2 ^ 32 + x % 2 ^ 16 * 2 ^ 32
        | none => free
      modify (report { r with cls := 1, count := BitVec.ofNat 32 n, qid := BitVec.ofNat 13 qid, syndrome := BitVec.ofNat 128 syn })
      modify (noteTransient k)
      modify (changeScore k (fun x => x + 1) 0)
      p
    else
      modify (changeScore k (fun _ => 0xFFFF) 0)
      modify note
      throw { reason := 0x0E, detail := stage, cls := 2, count := most + 1 }

end Sys2Proof.Machine
end

