-- ==== Sys2Proof/Machine/Collective.lean ====
section
/-! DEFINITION. Collective groups (09_collectives.md) and the receiving of contributions (08_exact_reduction.md): steps,
their messages, results, early arrivals, mismatch and abort, progress. -/

namespace Sys2Proof.Machine

/-- QID of a group queue. -/
def gqid (gq : Nat) : Nat := 0x1000 + gq

/-! ### Geometry of a step (R335, R631) -/

def Step.pe (t : Step) : Nat := 2 ^ t.pieceLog2
def Step.e (t : Step) : Nat := t.pe * t.pieces

/-- Bytes of `n` elements of FMT, without scale bytes. -/
def fmtBytes (fmt n : Nat) : Nat := n * elemBits fmt / 8

/-- The same with the scale bytes of a microscaled format. -/
def runBytes (fmt n : Nat) : Nat := fmtBytes fmt n + (if microscaled fmt then n / 32 else 0)

/-- CB -/
def Step.cb (t : Step) : Nat := runBytes t.fmt t.e

/-- Element format of results: DFMT for a reducing step. -/
def Step.outFmt (t : Step) : Nat := if t.opcode = 0x10 ∨ t.opcode = 0x11 then rmDfmt t.rmode else t.fmt

def Step.reducing (t : Step) : Bool := decide (t.opcode = 0x10) || decide (t.opcode = 0x11)

/-- Places of `el` elements from element `o` of a chunk of `ce` elements that lies at `base`: elements, then scale
bytes. -/
def chunkParts (fmt base o el ce : Nat) : List (Nat × Nat) :=
  (base + fmtBytes fmt o, fmtBytes fmt el) ::
    (if microscaled fmt then [(base + fmtBytes fmt ce + o / 32, el / 32)] else [])

/-- Pieces of a run of `len` elements. -/
def Step.runPieces (t : Step) (len : Nat) : Nat := cdiv len t.pe

/-- Piece `p` of chunk `c` of a member's part of `len` elements that lies at `base` (R341, R631). -/
def Step.cutPart (t : Step) (base len c p : Nat) : Option (List (Nat × Nat)) :=
  let ce := Nat.min t.e (len - c * t.e)
  let el := Nat.min t.pe (ce - p * t.pe)
  if el = 0 ∨ len ≤ c * t.e ∨ t.pieces ≤ p then none
  else some (chunkParts t.fmt (base + c * t.cb) (p * t.pe) el ce)

/-- Where the part for or from member `j` begins under CL_ALLTOALLV; `o`: 0 for SEND, N for RECV. -/
def Step.partBase (t : Step) (base o j : Nat) : Nat :=
  base + (((t.sizes.drop o).take j).map (runBytes t.fmt)).sum

def Step.size (t : Step) (i : Nat) : Nat := t.sizes.getD i 0

/-! ### Reducers and the ring (R329, R342, R343) -/

/-- The reducer table, read from memory (R329). -/
def reducerTable (s : State) (g : Group) : List Nat :=
  (List.range g.nred).map (fun i => (memByte s (g.redAddr.toNat + 2 * i)).toNat + (memByte s (g.redAddr.toNat + 2 * i + 1)).toNat * 256)

/-- Entry k whose slice holds chunk `c` of `sN`. -/
def sliceEntry (c sN nred : Nat) : Nat := Nat.min (cdiv ((c + 1) * nred) sN - 1) (nred - 1)

/-- First chunk and length of the slice of entry `k`. -/
def sliceOf (k sN nred : Nat) : Nat × Nat := (k * sN / nred, (k + 1) * sN / nred - k * sN / nred)

/-- Ring start of a sender: its own rank, or k mod N for an aggregator. -/
def ringStart (g : Group) (ep k : Nat) : Nat := if ep < g.nmemb then ep else k % g.nmemb

/-- Whom this member receives a piece from under RING, and whether it forwards it. -/
def ringFrom (g : Group) (sender start : Nat) : Nat × Bool :=
  (if g.self = start then sender else (g.self + g.nmemb - 1) % g.nmemb, decide ((g.self + 1) % g.nmemb ≠ start))

/-- This group's own slice in the step: first chunk and count (R340, R342). -/
def ownSlice (s : State) (g : Group) (t : Step) : Nat × Nat :=
  if t.opcode = 0x11 then (if g.selfEn then (g.self * (t.s / g.nmemb), t.s / g.nmemb) else (0, 0))
  else if t.opcode = 0x10 then
    match (reducerTable s g).findIdx? (fun e => decide (e = g.ep)) with
    | some k => sliceOf k t.s g.nred
    | none => (0, 0)
  else (0, 0)

/-- Where a piece that is no contribution is written, and whether it is forwarded: `none` when this step expects no
such piece (R340, R341, R343). A result is taken from whatever endpoint sends it: the tables, which may have been rewritten,
decide only where a forwarded piece goes (R329). -/
def recvPlace (s : State) (g : Group) (t : Step) (chunk piece member : Nat) : Option (List (Nat × Nat) × Bool) :=
  let n := g.nmemb
  let plain := fun (c : Nat) => chunkParts t.outFmt (t.dst + c * runBytes t.outFmt t.e) (piece * t.pe) t.pe t.e
  if ¬ g.selfEn ∨ t.pieces ≤ piece then none
  else
    match t.opcode with
    | 0x10 =>
      if t.s ≤ chunk then none
      else
        let k := sliceEntry chunk t.s g.nred
        let e := (reducerTable s g).getD k 0
        if member < n + g.nagg then some (plain chunk, t.dist && (ringFrom g e (ringStart g e k)).2) else none
    | 0x11 =>
      let share := t.s / n
      if member = g.ep ∧ g.self * share ≤ chunk ∧ chunk < (g.self + 1) * share then
        some (plain (chunk - g.self * share), false) else none
    | 0x12 =>
      let j := chunk / t.s
      let (frm, fwd) := if t.dist then ringFrom g j ((j + 1) % n) else (j, false)
      if j < n ∧ member = frm then some (plain chunk, fwd) else none
    | 0x13 =>
      let (frm, fwd) := if t.dist then ringFrom g t.root t.root else (t.root, false)
      if chunk < t.s ∧ member = frm then some (plain chunk, fwd) else none
    | 0x14 => if chunk < t.s ∧ member < n then some (plain (member * t.s + chunk), false) else none
    | _ =>
      if member < n then
        (t.cutPart (t.partBase t.dst n member) (t.size (n + member)) chunk piece).map (fun p => (p, false))
      else none

/-- Pieces that must be written to DST (R344). -/
def missingPieces (g : Group) (t : Step) : Nat :=
  let n := g.nmemb
  if !g.selfEn then 0
  else
    match t.opcode with
    | 0x10 => t.s * t.pieces
    | 0x11 => t.s / n * t.pieces
    | 0x12 => n * t.s * t.pieces
    | 0x13 => t.s * t.pieces
    | 0x14 => n * t.s * t.pieces
    | _ => ((List.range n).map (fun j => t.runPieces (t.size (n + j)))).sum

/-- A message of the group's own data: endpoint, CHUNK of its tag, piece, source, whether it is a contribution. -/
structure OwnMsg where
  ep : Nat
  chunk : Nat
  piece : Nat
  parts : List (Nat × Nat)
  contrib : Bool

/-- How many places the order of the group's own messages has (R340, R343). -/
def ownTotal (g : Group) (t : Step) : Nat :=
  let n := g.nmemb
  if !g.selfEn then 0
  else
    match t.opcode with
    | 0x10 => t.s * t.pieces
    | 0x11 => t.s * t.pieces
    | 0x12 => t.s * t.pieces * (if t.dist then 1 else n)
    | 0x13 => if g.self = t.root then t.s * t.pieces * (if t.dist then 1 else n) else 0
    | 0x14 => t.s * t.pieces * n
    | _ => cdiv (((List.range n).map t.size).foldl Nat.max 0) t.e * t.pieces * n

/-- The message at a place of that order: by chunk, piece and endpoint. `none`: no message at this place. -/
def ownMsg (s : State) (g : Group) (t : Step) (i : Nat) : Option OwnMsg :=
  let n := g.nmemb
  let many := t.opcode = 0x14 ∨ t.opcode = 0x15 ∨ ((t.opcode = 0x12 ∨ t.opcode = 0x13) ∧ ¬ t.dist)
  let (u, j) := if many then (i / n, i % n) else (i, 0)
  let c := u / t.pieces
  let p := u % t.pieces
  let src := fun (k : Nat) =>
    if t.srck then chunkParts t.fmt 0 (p * t.pe) t.pe t.e
    else chunkParts t.fmt (t.src + k * t.cb) (p * t.pe) t.pe t.e
  match t.opcode with
  | 0x10 => some { ep := (reducerTable s g).getD (sliceEntry c t.s g.nred) 0, chunk := c, piece := p, parts := src c, contrib := true }
  | 0x11 => some { ep := c / (t.s / n), chunk := c, piece := p, parts := src c, contrib := true }
  | 0x12 => some { ep := if t.dist then (g.self + 1) % n else j, chunk := g.self * t.s + c, piece := p, parts := src c, contrib := false }
  | 0x13 => some { ep := if t.dist then t.root else j, chunk := c, piece := p, parts := src c, contrib := false }
  | 0x14 => some { ep := j, chunk := c, piece := p, parts := src (j * t.s + c), contrib := false }
  | _ =>
    (t.cutPart (t.partBase t.src 0 j) (t.size j) c p).map (fun parts =>
      { ep := j, chunk := c, piece := p, parts := parts, contrib := false })

/-- EXPECT of endpoint `m` (R352): contributions to this reducer, and pieces of DST that come from `m`. -/
def expectOf (s : State) (g : Group) (t : Step) (m : Nat) : Nat :=
  let n := g.nmemb
  let slice := ownSlice s g t
  let contribs := if t.reducing && decide (m < n) then slice.2 * t.pieces else 0
  let before := if n = 0 then 0 else (g.self + n - 1) % n
  let data :=
    if !g.selfEn then 0
    else
      match t.opcode with
      | 0x10 =>
        let tab := reducerTable s g
        ((List.range g.nred).map (fun k =>
          let e := tab.getD k 0
          let frm := if t.dist then (ringFrom g e (ringStart g e k)).1 else e
          if frm = m then (sliceOf k t.s g.nred).2 * t.pieces else 0)).sum
      | 0x11 => 0
      | 0x12 => if t.dist then (if m = before then n * t.s * t.pieces else 0) else if m < n then t.s * t.pieces else 0
      | 0x13 =>
        let frm := if t.dist then (ringFrom g t.root t.root).1 else t.root
        if frm = m then t.s * t.pieces else 0
      | 0x14 => if m < n then t.s * t.pieces else 0
      | _ => if m < n then t.runPieces (t.size (n + m)) else 0
  if m = g.ep then 0 else contribs + data

/-! ### Tags (R309) -/

def mkTag (g : Group) (seq : W32) (chunk piece member rmode : Nat) : BitVec 128 :=
  BitVec.ofNat 128 (g.gid.toNat + (piece % 256) <<< 24 + seq.toNat <<< 32 + (chunk % 2 ^ 32) <<< 64 + (member % 65536) <<< 96 +
    (rmode % 65536) <<< 112)

def tagGroup (t : BitVec 128) : Nat := fld t 0 24
def tagPiece (t : BitVec 128) : Nat := fld t 24 8
def tagSeq (t : BitVec 128) : W32 := BitVec.ofNat 32 (fld t 32 32)
def tagChunk (t : BitVec 128) : Nat := fld t 64 32
def tagMember (t : BitVec 128) : Nat := fld t 96 16
def tagRmode (t : BitVec 128) : Nat := fld t 112 16

/-- Chunk of the slice that a tag names; `none`: out of range (R312). -/
def tagRel (g : Group) (t : BitVec 128) : Option Nat :=
  let rel := (BitVec.ofNat 32 (tagChunk t) - g.cbase).toNat
  if rel < g.ccount.toNat ∧ tagPiece t < g.pieces ∧ tagMember t < g.nmemb then some rel else none

/-- Endpoint table entry: PEER and RCTX (R328). -/
def endpointEntry (s : State) (g : Group) (e : Nat) : Nat × Nat :=
  let a := g.endpAddr.toNat + 16 * e
  let v := leNat ((List.range 8).map (fun i => memByte s (a + i)))
  (bitsOf v 0 32, bitsOf v 32 18)

/-- Own transport context for an endpoint (R450). -/
def groupCtx (g : Group) (e : Nat) : Nat := if e < g.ep then g.gctx + 1 + e else g.gctx + e

/-- Context on endpoint `e` that an ACK from this group names: that endpoint's own context for it (R450). -/
def ackCtxFor (g : Group) (e rctx : Nat) : Nat := if g.ep < e then rctx + 1 + g.ep else rctx + g.ep

/-! ### Halts of an group (R320, R349-R351) -/

/-- The group stops for good (R320): what the slots of its context hold is discarded without a report, nothing more of its own
is sent and no result follows; results already handed on stay handed on. -/
def killGroup (cl gq : Nat) (s : State) : State :=
  let g := getGroup s cl gq
  let s := { s with arrivals := s.arrivals.map (fun e =>
    (e.1, e.2.filter (fun a => a.slot.isNone || decide ((parseTft a.packet).dst ≠ g.gctx)))) }
  setGroup cl gq { g with dead := true, outq := g.outq.filter (fun m => m.result), retry := [],
                          step := g.step.map (fun t => { t with live := false }) } s

/-- Halt a group queue for a reason of its group, with what its record carries. -/
def haltGroup (cl gq reason detail : Nat) (s : State) : State :=
  let q := getQ s cl (gqid gq)
  let (a, r) := match q.cur with
    | some c => (c.slot, c.rep)
    | none => (0, 0)
  haltQueue cl (gqid gq) { reason := reason, detail := detail, wrote := match q.cur with | some c => c.wrote | none => false } a r s

/-- GROUP_MISMATCH (R349) -/
def groupMismatch (cl gq member stepc rmode : Nat) (s : State) : State :=
  let g := getGroup s cl gq
  let loc := (match g.step with | some t => t.stepc.toNat | none => 0) + g.rmode.toNat * 65536
  let rem := stepc + rmode * 65536
  let b := gsRegs cl gq
  let s := setReg (b + 0x4C) (BitVec.ofNat 32 loc) s
  let s := setReg (b + 0x50) g.seq s
  let s := setReg (b + 0x54) (BitVec.ofNat 32 rem) s
  let s := setReg (b + 0x58) (BitVec.ofNat 32 member) s
  haltGroup cl gq 0x10 (member + loc * 2 ^ 16 + rem * 2 ^ 48 + g.seq.toNat * 2 ^ 80) (killGroup cl gq s)

/-- GROUP_ABORT (R350) -/
def groupAbort (cl gq : Nat) (s : State) : State := haltGroup cl gq 0x11 0 (killGroup cl gq s)

/-- POISON_CONSUMED of a reduction context (R319), its header's address in the record (DESIGN CHOICE, log entry 104). -/
def contextLost (cl gq : Nat) (s : State) : State :=
  let g := getGroup s cl gq
  haltGroup cl gq 0x0A (headerAddr cl g.slot * 65536) s

/-! ### Progress (R352, R353) -/

/-- A message of the open step from endpoint `m` is confirmed. -/
def confirmFrom (cl gq m : Nat) (s : State) : State :=
  let s := setReg (gsRegs cl gq + 0x18) 0 s
  modGroup cl gq (fun g =>
    let e := mget 0 g.expect m
    let c := mget 0 g.conf m
    if c < e then { g with conf := mput 0 g.conf m (c + 1),
                           lastConf := if c + 1 = e ∧ m < g.nmemb then some m else g.lastConf } else g) s

/-- SLOW: the member with most outstanding, the lowest on a tie, and how much. -/
def slowest (g : Group) : Option (Nat × Nat) :=
  (g.expect.filter (fun e => decide (e.1 < g.nmemb))).foldl (fun best e =>
    let left := e.2 - mget 0 g.conf e.1
    match best with
    | none => if 0 < left then some (e.1, left) else none
    | some b => if b.2 < left then some (e.1, left) else some b) none

def slowWord (o : Option Nat) : Nat :=
  match o with
  | some m => m % 65536 + 65536
  | none => 0

/-! ### Sending (R329, R343, R457) -/

/-- Hand a message to the transport; the tables are read for it (R329). `own`: it carries the group's own data, and so a send of
the tile whose block it is made from (R97). Answers whether the transport has taken it. -/
def sendMsg (cl gq ep chunk piece member rmode : Nat) (own : Bool) (payload : List PByte) (s : State) : State × Bool :=
  let g := getGroup s cl gq
  let c := groupCtx g ep
  let (peer, rctx) := endpointEntry s g ep
  let s := modCtx c (fun x => { x with peerId := BitVec.ofNat 32 peer, remoteCtx := BitVec.ofNat 18 rctx,
                                       ackCtx := BitVec.ofNat 18 (ackCtxFor g ep rctx) }) s
  let stepc := match g.step with
    | some t => t.stepc
    | none => 0
  match handTagged c g.ch payload stepc (BitVec.ofNat 16 g.ep) (mkTag g g.seq chunk piece member rmode) s with
  | (s, .waits) => (s, false)
  | (s, .lost) => (modQ cl (gqid gq) (fun q => { q with sendsLost := true }) s, true)
  | (s, .taken seq) =>
    let s := noteSend cl (gqid gq) c g.ch seq s
    (match g.step.bind (fun t => t.taken) with
      | some b => if own then noteSend cl b.tile c g.ch seq s else s
      | none => s, true)

/-- Offer the results and forwarded pieces that wait, oldest first, until one is not taken. -/
def pumpOut (fuel cl gq : Nat) (s : State) : State :=
  match fuel with
  | 0 => s
  | k + 1 =>
    let g := getGroup s cl gq
    match g.outq with
    | [] => s
    | m :: rest =>
      match sendMsg cl gq m.ep m.chunk.toNat m.piece g.ep 0 false m.payload s with
      | (s, false) => s
      | (s, true) => pumpOut k cl gq (modGroup cl gq (fun g => { g with outq := rest }) s)

/-- Put a message behind the others. -/
def queueOut (cl gq ep chunk piece : Nat) (result : Bool) (payload : List PByte) (s : State) : State :=
  modGroup cl gq (fun g => { g with outq := g.outq ++
    [{ ep := ep, chunk := BitVec.ofNat 32 chunk, piece := piece, payload := payload, result := result }] }) s

/-- Write the parts of a piece at DST (R631, R205). -/
def writeParts (e : Eng) (parts : List (Nat × Nat)) (bs : List PByte) (s : State) : State :=
  match parts with
  | [] => s
  | (a, n) :: rest =>
    let mine := bs.take n ++ List.replicate (n - bs.length) (0, false)
    writeParts e rest (bs.drop n) (outWrite e a mine s)

/-- A piece for DST: `isLocal` for a hand-over of the group to itself, which takes no data record. Answers whether
it is accepted (R341, R343). -/
def writePiece (cl gq chunk piece member : Nat) (bs : List PByte) (isLocal : Bool) (s : State) : State × Bool :=
  let g := getGroup s cl gq
  match g.step with
  | none => (s, true)
  | some t =>
    match recvPlace s g t chunk piece member with
    | none => (bumpSat (rlRegs cl + 0x28) 1 s, true)
    | some (parts, fwd) =>
      -- one record for each destination chunk (R341)
      let k := (if t.opcode = 0x14 ∨ t.opcode = 0x15 then member * 2 ^ 32 else 0) + chunk
      let had := mlook g.dataRecs k
      let seen : Bool := match had with
        | some l => l.contains piece
        | none => false
      if seen && !isLocal then (bumpSat (rlRegs cl + 0x20) 1 s, true)
      else
        let s? := if isLocal || had.isSome then some s else takeGranules cl gq 1 s
        match s? with
        | none => (s, false)
        | some s =>
          let s := if isLocal then s
            else modGroup cl gq (fun g => { g with dataRecs := mset g.dataRecs k (had.getD [] ++ [piece]) }) s
          let s := markWrote ⟨cl, gqid gq⟩ (writeParts ⟨cl, gqid gq⟩ parts bs s)
          let s := modGroup cl gq (fun g => { g with step := g.step.map (fun t => { t with missing := t.missing - 1 }) }) s
          let s := if isLocal then s else confirmFrom cl gq member s
          (if fwd then queueOut cl gq ((g.self + 1) % g.nmemb) chunk piece false bs s else s, true)

/-! ### Commits and results (R313, R317) -/

/-- Endpoints that the reducer sends a done piece to (R343). -/
def resultTo (s : State) (g : Group) (t : Step) (chunk : Nat) : List Nat :=
  if t.opcode = 0x11 then [g.ep]
  else if t.dist then
    let k := sliceEntry chunk t.s g.nred
    [ringStart g ((reducerTable s g).getD k 0) k]
  else List.range g.nmemb

/-- Hand a done piece's results on. -/
def distribute (cl gq chunk piece : Nat) (bs : List PByte) (s : State) : State :=
  let g := getGroup s cl gq
  match g.step with
  | none => s
  | some t =>
    (resultTo s g t chunk).foldl (fun s e =>
      if e = g.ep then (writePiece cl gq chunk piece g.ep bs true s).1 else queueOut cl gq e chunk piece true bs s) s

/-- Elements of a piece with the poison of the bytes that carry them. -/
def payloadElems (code n : Nat) (bs : List PByte) : List (Nat × Bool) :=
  let w := elemBits code / 8
  (List.range n).map (fun i =>
    let e := (bs.drop (i * w)).take w
    (leNat (bytesOf e), anyPoison e))

/-- Every member has contributed to a piece (R317). -/
def finishPiece (cl gq rel piece : Nat) (s : State) : State :=
  let g := getGroup s cl gq
  let r := g.rmode.toNat
  let key := rel * 256 + piece
  match mlook g.openPieces key with
  | none => s
  | some pc =>
    let pe := 2 ^ g.pieceLog2
    let res : List RedResult := match rmPath r with
      | some .canonical =>
        (List.range pe).map (fun i => canonFinish r (pc.hold.map (fun (h : Nat × List (Nat × Bool)) => h.2.getD i (0, false))))
      | _ => pc.accs.map (accFinish r)
    let w := elemBits (rmDfmt r) / 8
    let bs : List PByte := res.flatMap (fun (x : RedResult) => (leBytes w x.bits).map (fun b => (b, x.poison)))
    let n := fun (p : RedResult → Bool) => (res.filter p).length
    let b := rlRegs cl
    let s := bumpSat (b + 0x34) (n (fun x => x.ovf)) s
    let s := bumpSat (b + 0x38) (n (fun x => x.nan)) s
    let s := bumpSat (b + 0x3C) (n (fun x => x.poison)) s
    let s := addCtr (b + 0x50) 1 s
    let recs := mget [] g.chunkRecs rel ++ [piece]
    let whole := decide (g.pieces ≤ recs.length)
    let s := setGroup cl gq { getGroup s cl gq with
      openPieces := mdel g.openPieces key,
      chunkRecs := if whole then mdel g.chunkRecs rel else mset g.chunkRecs rel recs,
      doneChunks := if whole then g.doneChunks ++ [rel] else g.doneChunks } s
    let s := freeGranules cl gq (pieceGranules r g.nmemb pe + (if whole then chunkGranules g.nmemb g.pieces else 0)) s
    let chunk := (g.cbase + BitVec.ofNat 32 rel).toNat
    distribute cl gq chunk piece bs s

/-- Poison element `i` of what a piece holds (R319). -/
def Piece.spoil (i : Nat) (p : Piece) : Piece :=
  { p with
    accs := p.accs.zipIdx.map (fun (x : Acc × Nat) => if x.2 = i then { x.1 with poison := true } else x.1)
    hold := p.hold.map (fun h => (h.1, h.2.zipIdx.map (fun (x : (Nat × Bool) × Nat) => if x.2 = i then (x.1.1, true) else x.1))) }

/-- Uncorrectable errors in the accumulators or the hold area of a piece poison the elements they cover (R319); each is
recorded. -/
def meetElements (cl gq key : Nat) (pc : Piece) (s : State) : Piece × State :=
  let mine := s.bad.filterMap (fun d =>
    match d with
    | .element g k i => if g = cl * 4096 + gq ∧ k = key then some i else none
    | _ => none)
  let s := mine.foldl (fun s i => report (newReport s (unitCl 0x0E cl 0) 1 1)
    { s with bad := s.bad.filter (fun d => decide (d ≠ .element (cl * 4096 + gq) key i)) }) s
  (mine.foldl (fun p i => p.spoil i) pc, s)

/-- A lane that meets a parity error during an addition poisons the elements of the piece that it touched, and writes a
record (R319). Lane `l` of the 768 takes every 768th element; which lane fails is a free value. -/
def laneFault (cl pe : Nat) (pc : Piece) (s : State) : Piece × State :=
  let u := unitCl 5 cl 0
  let n := mget 0 s.runs u.toNat
  if n = 0 then (pc, s)
  else
    let l := (Config.parityLanes s.fresh).toNat % Nat.min 768 pe
    let s := takeFresh { s with runs := mput 0 s.runs u.toNat (n - 1) }
    let s := report { newReport s u 2 3 with syndrome := BitVec.ofNat 128 (2 ^ (l % 32)) } s
    (((List.range pe).filter (fun i => decide (i % 768 = l))).foldl (fun p i => p.spoil i) pc, s)

/-- Commit a confirmed contribution to a piece of the slice (R313); answers whether it is accepted. `shadow`: a slot holds it
combined already. -/
def commit (cl gq rel piece member : Nat) (bs : List PByte) (shadow : Bool) (s : State) : State × Bool :=
  let g := getGroup s cl gq
  let r := g.rmode.toNat
  let pe := 2 ^ g.pieceLog2
  let key := rel * 256 + piece
  let need := (if (mlook g.chunkRecs rel).isSome then 0 else chunkGranules g.nmemb g.pieces) +
    (if (mlook g.openPieces key).isSome then 0 else pieceGranules r g.nmemb pe)
  match takeGranules cl gq need s with
  | none => (bumpSat (rlRegs cl + 0x30) 1 s, false)
  | some s =>
    let es := payloadElems (rmElem r) pe bs
    let pc := (mlook g.openPieces key).getD { accs := List.replicate pe Acc.reset, hold := [], members := [] }
    let pc := match rmPath r with
      | some .canonical => { pc with hold := mset pc.hold member es, members := pc.members ++ [member] }
      | _ => { pc with accs := List.zipWith (fun a (e : Nat × Bool) => accAdd r e.1 e.2 a) pc.accs es,
                       members := pc.members ++ [member] }
    let s := if shadow then s else addCycles cl gq s
    let (pc, s) := meetElements cl gq key pc s
    let (pc, s) := laneFault cl pe pc s
    let s := modGroup cl gq (fun g => { g with
      openPieces := mset g.openPieces key pc,
      chunkRecs := if (mlook g.chunkRecs rel).isSome then g.chunkRecs else mset g.chunkRecs rel [] }) s
    let s := addCtr (rlRegs cl + 0x18) 1 s
    (if g.nmemb ≤ pc.members.length then finishPiece cl gq rel piece s else s, true)

/-- Is a contribution's bit set, or its piece or chunk done? -/
def contributed (g : Group) (rel piece member : Nat) : Bool :=
  g.doneChunks.contains rel || (mget [] g.chunkRecs rel).contains piece ||
    (match mlook g.openPieces (rel * 256 + piece) with
     | some p => p.members.contains member
     | none => false)

/-- BAD_TAG: counted and recorded (R315). -/
def badTag (cl : Nat) (tag : BitVec 128) (s : State) : State :=
  let r := newReport s (unitCl 5 cl 0) 0x0A 5
  report { r with syndrome := tag } (bumpSat (rlRegs cl + 0x28) 1 s)

/-- A confirmed contribution of the open SEQ (R315). -/
def confirmContribution (cl gq : Nat) (tag : BitVec 128) (bs : List PByte) (isLocal shadow : Bool) (s : State) : State × Bool :=
  let g := getGroup s cl gq
  match tagRel g tag with
  | none => (badTag cl tag s, false)
  | some rel =>
    if contributed g rel (tagPiece tag) (tagMember tag) then (bumpSat (rlRegs cl + 0x20) 1 s, true)
    else
      match commit cl gq rel (tagPiece tag) (tagMember tag) bs shadow s with
      | (s, true) => (if isLocal then s else confirmFrom cl gq (tagMember tag) s, true)
      | (s, false) => (s, false)

/-- A message of the open SEQ is a contribution: its chunk lies in the own slice, or nothing but a contribution can
carry its tag. Elsewhere a tag of CL_ALLREDUCE with RMODE 0 is a result (DEDUCED, log entry 25). The tables decide nothing
here (R329). -/
def isContribution (g : Group) (t : Step) (tag : BitVec 128) : Bool :=
  t.reducing &&
    (decide ((BitVec.ofNat 32 (tagChunk tag) - g.cbase).toNat < g.ccount.toNat && t.slice.2 ≠ 0) ||
      decide (t.opcode = 0x11) || !g.selfEn || decide (tagRmode tag ≠ 0))

/-! ### Early arrivals (R345-R347) -/

def eaUsed (g : Group) : Nat := (g.early.map (fun e => e.len)).sum

/-- STEPC names an operation whose messages of this tag are contributions, before its step is known: RMODE 0 is the FP64 sum,
whose pieces are of 8-byte elements, or a result (DEDUCED, log entry 25). -/
def earlyContribution (g : Group) (stepc len : Nat) (tag : BitVec 128) : Bool :=
  decide (stepc % 256 = 0x11) || (decide (stepc % 256 = 0x10) &&
    (decide (tagRmode tag ≠ 0) || (decide (len = 8 * 2 ^ (stepc / 512 % 16)) && decide (tagMember tag < g.nmemb))))

/-- A message for the group is a contribution: judged by the open step for its SEQ, else by itself (R312). -/
def looksContribution (g : Group) (stepc len : Nat) (tag : BitVec 128) : Bool :=
  match g.step with
  | some t => if tagSeq tag = g.seq ∧ BitVec.ofNat 16 stepc = t.stepc then isContribution g t tag
    else earlyContribution g stepc len tag
  | none => earlyContribution g stepc len tag

/-- Hold a message of a later SEQ. -/
def holdEarly (cl gq : Nat) (tag : BitVec 128) (stepc : W16) (bs : List PByte) (s : State) : State × Bool :=
  let g := getGroup s cl gq
  let b := gsRegs cl gq
  if g.early.any (fun e => decide (e.tag = tag ∧ e.stepc = stepc)) then (bumpSat (b + 0x3C) 1 s, true)
  else
    let refuse := fun (s : State) =>
      let s := bumpSat (b + 0x40) 1 s
      if earlyContribution g stepc.toNat bs.length tag then bumpSat (rlRegs cl + 0x30) 1 s else s
    if g.eaKib * 1024 < eaUsed g + bs.length then (refuse s, false)
    else
      match allocPool s cl (0x400 + gq) bs.length with
      | none => (refuse (countRefused cl (0x400 + gq) s), false)
      | some p =>
        -- terminated payload becomes an early arrival: its buffer is handed over (R417)
        let (s, k) := takeBuf cl p tftOwner 1 s
        let s := handoverBuf k (0x400 + gq) (fillBuf k 0 bs s)
        let s := modGroup cl gq (fun g => { g with early := g.early ++ [{ tag := tag, stepc := stepc, buf := k, len := bs.length }] }) s
        let u := eaUsed (getGroup s cl gq)
        (if (getReg s (b + 0x38)).toNat < u then setReg (b + 0x38) (BitVec.ofNat 32 u) s else s, true)

/-- A confirmed message of an group (R315, R341, R345, R349, R351). `again`: it comes from the early-arrival area, or
is offered again, and is kept for another try when space is wanting. `shadow`: a contribution that a slot holds combined.
A contribution for the null step meets the rows of R315 that its context can: it has no STEPC. -/
def handleMsg (cl gq : Nat) (tag : BitVec 128) (stepc : W16) (bs : List PByte) (again shadow : Bool) (s : State) : State × Bool :=
  let g := getGroup s cl gq
  if g.dead then (bumpSat (gsRegs cl gq + 0x44) 1 s, true)
  else if tagGroup tag ≠ g.gid.toNat then (badTag cl tag s, false)
  else if seqDiff (tagSeq tag) g.seq < 0 then (bumpSat (rlRegs cl + 0x24) 1 s, true)
  else if 0 < seqDiff (tagSeq tag) g.seq then holdEarly cl gq tag stepc bs s
  else
    match g.step with
    | none =>
      if !earlyContribution g stepc.toNat bs.length tag then (bumpSat (rlRegs cl + 0x20) 1 s, true)
      else if tagRmode tag ≠ g.rmode.toNat then (groupMismatch cl gq (tagMember tag) stepc.toNat (tagRmode tag) s, false)
      else confirmContribution cl gq tag bs false shadow s
    | some t =>
      let contrib := isContribution g t tag
      if stepc ≠ t.stepc ∨ (contrib ∧ tagRmode tag ≠ g.rmode.toNat) then
        (groupMismatch cl gq (tagMember tag) stepc.toNat (tagRmode tag) s, false)
      else
        let (s, ok) := if contrib then confirmContribution cl gq tag bs false shadow s
          else writePiece cl gq (tagChunk tag) (tagPiece tag) (tagMember tag) bs false s
        let s := if !ok && again then
            modGroup cl gq (fun g => { g with retry := g.retry ++ [{ isLocal := false, tag := tag, stepc := stepc, payload := bs }] }) s
          else s
        (s, ok)

/-- Offer again what was refused for want of space and has no other source. -/
def offerAgain (cl gq : Nat) (s : State) : State :=
  let g := getGroup s cl gq
  let s := setGroup cl gq { g with retry := [] } s
  g.retry.foldl (fun s r =>
    let g := getGroup s cl gq
    if g.dead ∨ tagSeq r.tag ≠ g.seq then s
    else if r.isLocal then
      match confirmContribution cl gq r.tag r.payload true false s with
      | (s, true) => s
      | (s, false) => modGroup cl gq (fun g => { g with retry := g.retry ++ [r] }) s
    else (handleMsg cl gq r.tag r.stepc r.payload true false s).1) s

/-- Release the early arrivals of the open SEQ, in the order received (R346). -/
def releaseEarly (cl gq : Nat) (s : State) : State :=
  let g := getGroup s cl gq
  let mine := g.early.filter (fun e => decide (tagSeq e.tag = g.seq))
  let s := setGroup cl gq { g with early := g.early.filter (fun e => decide (tagSeq e.tag ≠ g.seq)) } s
  mine.foldl (fun s e =>
    let (bs, s) := loadBuf e.buf 0 e.len s
    let s := freeBuf (0x400 + gq) e.buf s
    (handleMsg cl gq e.tag e.stepc bs true false s).1) s

/-! ### The input area (R339) -/

def inUsed (g : Group) : Nat := (g.inputs.map (fun b => b.len)).sum + (match g.step.bind (fun t => t.taken) with | some b => b.len | none => 0)

/-- Entry of a queue's sends that stands for a block the group still holds. -/
def blockSend (cl gq serial : Nat) : Nat × Nat × W32 := (2 ^ 18 + cl * 4096 + gq, serial, 0)

/-- A tile hands a block over as an input chunk, unless the input area cannot hold it. Answers whether it was taken; an
allocation REFUSED counts (R414). -/
def takeInput (cl gq tile : Nat) (chunk : W32) (bs : List PByte) (s : State) : State × Bool :=
  let g := getGroup s cl gq
  if g.inputKib * 1024 < inUsed g + bs.length then (s, false)
  else
    match allocBuf cl (0x400 + gq) bs.length 1 s with
    | (s, none) => (s, false)
    | (s, some k) =>
      let s := fillBuf k 0 bs s
      let s := modQ cl tile (fun q => { q with sends := q.sends ++ [blockSend cl gq g.inSerial] }) s
      (modGroup cl gq (fun g => { g with
        inSerial := g.inSerial + 1,
        inputs := g.inputs ++ [{ chunk := chunk, buf := k, len := bs.length, tile := tile, serial := g.inSerial }] }) s, true)

/-- Every piece of an input block has been handed on: its place is free. -/
def freeInput (cl gq : Nat) (b : InBlock) (s : State) : State :=
  let s := freeBuf (0x400 + gq) b.buf s
  modQ cl b.tile (fun q => { q with sends := q.sends.filter (fun x => decide (x ≠ blockSend cl gq b.serial)) }) s

/-- The block that own message chunk `c` comes from, taken from the input area when the step comes to it. -/
def takeBlock (cl gq c : Nat) (s : State) : Except Halt (Option (State × InBlock)) × State :=
  let g := getGroup s cl gq
  match g.step with
  | none => (.ok none, s)
  | some t =>
    let num := BitVec.ofNat 32 (t.cbaseIn + c)
    let fresh := fun (s : State) =>
      let g := getGroup s cl gq
      match g.inputs.find? (fun b => decide (b.chunk = num)) with
      | none => ((.ok none : Except Halt (Option (State × InBlock))), s)
      | some b =>
        let s := setGroup cl gq { g with inputs := g.inputs.filter (fun x => decide (x.serial ≠ b.serial)) } s
        if b.len ≠ runBytes g.ifmt t.e then (.error { reason := 0x0B }, freeInput cl gq b s)
        else
          let s := modGroup cl gq (fun g => { g with step := g.step.map (fun t => { t with taken := some b }) }) s
          (.ok (some (s, b)), s)
    match t.taken with
    | some b => if b.chunk = num then (.ok (some (s, b)), s) else (.ok none, s)
    | none => fresh s

/-! ### Own messages (R336, R339-R343) -/

/-- Read the bytes of parts of memory. -/
def readParts (parts : List (Nat × Nat)) (s : State) : List PByte × State :=
  match parts with
  | [] => ([], s)
  | (a, n) :: rest =>
    let (bs, s) := readMem a n 1 s
    let (more, s) := readParts rest s
    (bs ++ more, s)

/-- The block of the last chunk handed on is done with: the next message, if any, is of another chunk. -/
def closeBlock (cl gq : Nat) (c : Nat) (more : Bool) (s : State) : State :=
  let g := getGroup s cl gq
  match g.step with
  | none => s
  | some t =>
    match t.taken with
    | none => s
    | some b =>
      let next := match ownMsg s g t t.cursor with
        | some m => decide (m.chunk = c) && more
        | none => false
      if next then s
      else freeInput cl gq b (modGroup cl gq (fun g => { g with step := g.step.map (fun t => { t with taken := none }) }) s)

/-- Slots in use in a cluster: SLOTS_BUSY. -/
def slotsBusy (s : State) (cl : Nat) : Nat := ((mget [] s.arrivals cl).filter (fun a => a.slot.isSome)).length

/-- Hand on own messages in order until one is not taken; answers the halt of a bad input block. A local contribution waits
for a free slot, which it gives back at once (R312). -/
def pumpOwn (fuel cl gq : Nat) (s : State) : State × Option Halt :=
  match fuel with
  | 0 => (s, none)
  | k + 1 =>
    let g := getGroup s cl gq
    match g.step with
    | none => (s, none)
    | some t =>
      let total := ownTotal g t
      let next := fun (s : State) => modGroup cl gq (fun g => { g with step := g.step.map (fun t => { t with cursor := t.cursor + 1 }) }) s
      if g.dead ∨ ¬ t.live ∨ total ≤ t.cursor then (s, none)
      else
        match ownMsg s g t t.cursor with
        | none => pumpOwn k cl gq (next s)
        | some m => if m.contrib ∧ m.ep = g.ep ∧ 32 ≤ slotsBusy s cl then (s, none) else
          let cIn := if t.opcode = 0x12 then m.chunk - g.self * t.s else m.chunk
          let got : Except Halt (Option (List PByte × State)) × State :=
            if t.srck then
              match takeBlock cl gq cIn s with
              | (.error h, s) => (.error h, s)
              | (.ok none, s) => (.ok none, s)
              | (.ok (some (s, b)), _) =>
                let (bs, s) := loadBuf b.buf 0 b.len s
                (.ok (some (m.parts.flatMap (fun p => (bs.drop p.1).take p.2), s)), s)
            else let (bs, s) := readParts m.parts s; (.ok (some (bs, s)), s)
          match got with
          | (.error h, s) => (s, some h)
          | (.ok none, s) => (s, none)
          | (.ok (some (bs, s)), _) =>
            let sent : State × Bool :=
              if m.ep = g.ep then
                if m.contrib then
                  let tag := mkTag g g.seq m.chunk m.piece g.self t.rmode
                  match confirmContribution cl gq tag bs true false s with
                  | (s, true) => (s, true)
                  | (s, false) => (modGroup cl gq (fun g => { g with
                      retry := g.retry ++ [{ isLocal := true, tag := tag, stepc := t.stepc, payload := bs }] }) s, true)
                else ((writePiece cl gq m.chunk m.piece g.ep bs true s).1, true)
              else sendMsg cl gq m.ep m.chunk m.piece (if m.contrib then g.self else g.ep) (if m.contrib then t.rmode else 0) true bs s
            match sent with
            | (s, false) => (s, none)
            | (s, true) =>
              let s := next s
              let s := if t.srck then closeBlock cl gq m.chunk (decide (t.cursor + 1 < total)) s else s
              pumpOwn k cl gq s

/-- Bytes read at SRC and written at DST (R340, R341). -/
def stepExtents (g : Group) (t : Step) : Nat × Nat :=
  let n := g.nmemb
  let rb := runBytes t.outFmt t.e
  match t.opcode with
  | 0x10 => (t.s * t.cb, t.s * rb)
  | 0x11 => (t.s * t.cb, t.s / n * rb)
  | 0x12 => (t.s * t.cb, n * t.s * t.cb)
  | 0x13 => (if g.self = t.root then t.s * t.cb else 0, t.s * t.cb)
  | 0x14 => (n * t.s * t.cb, n * t.s * t.cb)
  | _ => (((List.range n).map (fun j => runBytes t.fmt (t.size j))).sum,
          ((List.range n).map (fun j => runBytes t.fmt (t.size (n + j)))).sum)

/-- The step reads or writes a slot that a rotation copies: its accesses are held until the copy is done (R185). -/
def stepHeld (s : State) (cl gq : Nat) : Bool :=
  let g := getGroup s cl gq
  match g.step with
  | some t =>
    let (i, o) := stepExtents g t
    t.live && ((!t.srck && decide (0 < i) && inRotation s t.src i) || (decide (0 < o) && inRotation s t.dst o))
  | none => false

/-- Move everything the group has to hand on as far as it goes. -/
def pumpGroup (cl gq : Nat) (s : State) : State × Option Halt :=
  if stepHeld s cl gq then (s, none)
  else
  let s := offerAgain cl gq s
  let g := getGroup s cl gq
  let left := match g.step with
    | some t => ownTotal g t - t.cursor
    | none => 0
  let (s, h) := pumpOwn (left + 1) cl gq s
  let s := pumpOut ((getGroup s cl gq).outq.length + 1) cl gq s
  (writeHeader cl gq s, h)

/-- The same outside an engine program: the halt of a bad input block is the group queue's. A group whose reservation is lost
halts (R356). -/
def pumpHalting (cl gq : Nat) (s : State) : State :=
  if (getGroup s cl gq).lost then haltGroup cl gq 0x12 0 s
  else
  match pumpGroup cl gq s with
  | (s, some h) => haltInstr cl (gqid gq) h s
  | (s, none) => s

/-! ### Opening a step (R337, R338, R348) -/

/-- Reason of an extent for SRC, DST or SIZES. -/
def extentReason (s : State) (e : Eng) (a : Option Nat) (len align : Nat) (r : Right) : List Nat :=
  match a with
  | none => [0x04]
  | some x =>
    if len = 0 then (if x % align = 0 then [] else [0x05])
    else match accessCondition s e x len align r with
      | some c => [c]
      | none => []

/-- The step a descriptor describes, before it is opened. -/
def stepOf (op : Nat) (d : Nat) (owner : W32 × Nat) : Step :=
  { opcode := op, rmode := bitsOf d 0 16, fmt := bitsOf d 16 5, srck := decide (bitsOf d 21 1 = 1),
    dist := decide (bitsOf d 22 1 = 1), pieceLog2 := bitsOf d 24 4, pieces := bitsOf d 28 8 + 1, s := bitsOf d 64 32,
    cbaseIn := bitsOf d 96 32, root := bitsOf d 36 16, src := 0, dst := 0, sizes := [],
    stepc := BitVec.ofNat 16 (op + (bitsOf d 22 1) * 256 + (bitsOf d 24 4) * 512), slice := (0, 0), cursor := 0, missing := 0, taken := none,
    live := true, owner := owner }

/-- Conditions of R338 on the descriptor alone. -/
def stepConditions (g : Group) (t : Step) (d : Nat) : List Nat :=
  let red := t.reducing
  let a2a := decide (t.opcode = 0x14) || decide (t.opcode = 0x15)
  let b := cdiv (elemBits t.fmt) 8
  let row1 := decide (bitsOf d 23 1 ≠ 0) || decide (bitsOf d 52 12 ≠ 0) || decide (bitsOf d 128 384 ≠ 0) || reservedFormat t.fmt ||
    decide (t.pieceLog2 < 6) || decide (12 < t.pieceLog2) || decide (g.maxPieceLog2 < t.pieceLog2) ||
    decide (g.maxPieces < t.pieces) || decide (2 ^ g.maxEbLog2 < b) || decide (4096 < runBytes t.fmt t.pe) || decide (t.s = 0)
  let row2 := (!red && decide (t.rmode ≠ 0)) || (if t.opcode = 0x13 then decide (g.nmemb ≤ t.root) else decide (t.root ≠ 0)) ||
    (t.dist && a2a) || (t.srck && a2a) || (!t.srck && decide (t.cbaseIn ≠ 0)) ||
    (decide (t.opcode = 0x11) && decide (t.s % g.nmemb ≠ 0))
  (if row1 || row2 then [0x02] else []) ++
  (if red then
    (match rmReason t.rmode with
     | some r => [r]
     | none => if rmPath t.rmode = some .canonical ∧ ¬ g.canon then [0x02] else []) ++
    (if t.fmt ≠ rmElem t.rmode then [0x0B] else [])
   else []) ++
  (if t.srck ∧ t.fmt ≠ g.ifmt then [0x0B] else [])

/-- Judge and read a step (R335, R338). -/
def readStep (e : Eng) (c : Cur) : QM Step := do
  let w := c.word
  let op := wOpcode w
  let g := getGroup (← get) e.cl (e.qid - 0x1000)
  if !g.held then haltWithReason 0x03
  let q := getQ (← get) e.cl e.qid
  let base := (arOf q (wOp w 192 4)).base.toNat
  let bs ← engRead e base 64 64
  match firstPoison base bs with
  | some a => haltDetail 0x0A (a * 65536)
  | none => pure ()
  let d := leNat (bytesOf bs)
  let t := stepOf op d (c.count, c.rep)
  let conds := stepConditions g t d
  let b := Nat.max 1 (cdiv (elemBits t.fmt) 8)
  let (t, more) ← (if !g.selfEn then pure (t, []) else do
    let src := arAddress (arOf q (wOp w 196 4)) c.rep
    let dst := arAddress (arOf q (wOp w 200 4)) c.rep
    let t := { t with src := src.getD 0, dst := dst.getD 0 }
    let (t, more) ← (if op = 0x15 then do
      let sz := arAddress (arOf q (wOp w 204 4)) c.rep
      let rs := extentReason (← get) e sz (8 * g.nmemb) 4 .read
      if rs ≠ [] then pure (t, rs)
      else
        if inRotation (← get) (sz.getD 0) (8 * g.nmemb) then throw { reason := 0, held := true }
        let (raw, s) := readMem (sz.getD 0) (8 * g.nmemb) 1 (← get)
        set s
        let t := { t with sizes := (List.range (2 * g.nmemb)).map (fun i => leAt (bytesOf raw) (4 * i) 4) }
        pure (t, (if anyPoison raw then [0x0A] else []) ++
          (if microscaled t.fmt ∧ t.sizes.any (fun x => decide (x % 32 ≠ 0)) then [0x02] else []))
     else pure (t, []))
    let (ins, outs) := stepExtents g t
    let s ← get
    pure (t, more ++ (if t.srck then [] else extentReason s e src ins b .read) ++ extentReason s e dst outs b .write))
  match firstReason (conds ++ more) with
  | some r => haltWithReason r
  | none => pure t

/-- Write SEQ, RMODE, geometry and slice into the reduction context, and release the early arrivals (R337, R346). -/
def openStep (cl gq : Nat) (t : Step) (s : State) : Option State :=
  let g := getGroup s cl gq
  let (lo, cnt) := ownSlice s g t
  let old := bitmapGranules g.ccount.toNat + g.dataRecs.length
  let s := freeGranules cl gq old s
  match takeGranules cl gq (bitmapGranules (Nat.max 1 cnt)) s with
  | none => none
  | some s =>
    let g := getGroup s cl gq
    let t := { t with missing := missingPieces g t, slice := (lo, cnt) }
    let exp := ((List.range (g.nmemb + g.nagg)).map (fun m => (m, expectOf s g t m))).foldl (fun (x : SMap Nat) p => mput 0 x p.1 p.2) []
    let s := setGroup cl gq { g with
      seq := g.nextSeq, nextSeq := g.nextSeq + 1,
      cbase := BitVec.ofNat 32 (if cnt = 0 then 0 else lo), ccount := BitVec.ofNat 32 (Nat.max 1 cnt),
      doneChunks := if cnt = 0 then [0] else [], chunkRecs := [], openPieces := [], dataRecs := [],
      pieceLog2 := t.pieceLog2, pieces := t.pieces, rmode := BitVec.ofNat 16 t.rmode, step := some t, outq := [], retry := [],
      expect := exp, conf := [], lastConf := none } s
    let s := setReg (gsRegs cl gq + 0x18) 0 s
    some (releaseEarly cl gq (writeHeader cl gq s))

/-- The step of this instruction and repeat is open. -/
def stepIsOpen (g : Group) (c : Cur) : Bool :=
  match g.step with
  | some t => t.live && decide (t.owner = (c.count, c.rep))
  | none => false

/-- Release what an abandoned step still holds (a step that SKIP left). -/
def dropStep (cl gq : Nat) (s : State) : State :=
  let g := getGroup s cl gq
  match g.step with
  | some t =>
    let s := match t.taken with
      | some b => freeInput cl gq b s
      | none => s
    let held := (g.openPieces.length * pieceGranules g.rmode.toNat g.nmemb (2 ^ g.pieceLog2)) +
      g.chunkRecs.length * chunkGranules g.nmemb g.pieces
    let s := freeGranules cl gq held s
    modGroup cl gq (fun g => { g with openPieces := [], chunkRecs := [], outq := [], retry := [],
                                      step := some { t with live := false, taken := none } }) s
  | none => s

/-- Open the step if it is not open: checks, space, opening (R337, R338, R348). Answers whether it is open now. -/
def ensureOpen (e : Eng) (c : Cur) : QM Bool := do
  let gq := e.qid - 0x1000
  let g := getGroup (← get) e.cl gq
  if g.held && stepIsOpen g c then pure true
  else
    let t ← readStep e c
    modify (fun s => match (getGroup s e.cl gq).step with
      | some t => if t.live then dropStep e.cl gq s else s
      | none => s)
    match openStep e.cl gq t (← get) with
    | some s => set s; modify (modQ e.cl e.qid (fun q => { q with cur := q.cur.map (fun c => { c with liveWait := false }) })); pure true
    | none =>
      -- the wait begins: its cycles are counted from here (R109, R348)
      modify (modQ e.cl e.qid (fun q => { q with
        waitCount := if (q.cur.map (fun c => c.liveWait)).getD false then q.waitCount else 0,
        cur := q.cur.map (fun c => { c with liveWait := true }) }))
      pure false

/-- R344: everything sent is accepted, everything due is written, the slice is done. -/
def stepComplete (g : Group) : Bool :=
  match g.step with
  | some t => t.live && decide (ownTotal g t ≤ t.cursor) && g.outq.isEmpty && decide (t.missing = 0) && g.retry.isEmpty &&
      decide (g.ccount.toNat ≤ g.doneChunks.length)
  | none => false

/-- The step has completed: it is counted, LAST_SLOW is noted. -/
def closeStep (cl gq : Nat) (s : State) : State :=
  let s := addCtr (gsRegs cl gq + 0x60) 1 s
  modGroup cl gq (fun g => { g with lastSlow := g.lastConf, step := g.step.map (fun t => { t with live := false }) }) s

/-- Run a step as far as it goes; `finish`: it may complete. -/
def runStep (e : Eng) (c : Cur) (finish : Bool) : QM Bool := do
  let gq := e.qid - 0x1000
  engineFault (unitOfQueue e.cl e.qid)
  if (getGroup (← get) e.cl gq).lost then haltWithReason 0x12
  if ← ensureOpen e c then
    let (s, h) := pumpGroup e.cl gq (← get)
    set s
    match h with
    | some h => throw h
    | none =>
      if finish && stepComplete (getGroup (← get) e.cl gq) then
        modify (closeStep e.cl gq)
        pure true
      else pure false
  else pure false

/-- ARs that a collective instruction writes back: SIZES only under CL_ALLTOALLV (R89, R335). -/
def clArs (_ : State) (c : Cur) : List Nat :=
  [wOp c.word 196 4, wOp c.word 200 4] ++ (if wOpcode c.word = 0x15 then [wOp c.word 204 4] else [])

def clStep (cl gq op : Nat) (finish : Bool) (s : State) : State :=
  engineStep cl (gqid gq) op clArs (fun c => runStep ⟨cl, gqid gq⟩ c finish) s

/-! ### Meanings -/

/-- CL_ALLREDUCE (R340) -/
def execClAllreduce (cl : Fin 8) (gq : BitVec 12) (s : State) : Host.Outcome State Fault Refusal :=
  .next (clStep cl.val gq.toNat 0x10 true s)

/-- CL_REDUCESCATTER (R340) -/
def execClReducescatter (cl : Fin 8) (gq : BitVec 12) (s : State) : Host.Outcome State Fault Refusal :=
  .next (clStep cl.val gq.toNat 0x11 true s)

/-- CL_ALLGATHER (R340) -/
def execClAllgather (cl : Fin 8) (gq : BitVec 12) (s : State) : Host.Outcome State Fault Refusal :=
  .next (clStep cl.val gq.toNat 0x12 true s)

/-- CL_BROADCAST (R340) -/
def execClBroadcast (cl : Fin 8) (gq : BitVec 12) (s : State) : Host.Outcome State Fault Refusal :=
  .next (clStep cl.val gq.toNat 0x13 true s)

/-- CL_ALLTOALL (R340) -/
def execClAlltoall (cl : Fin 8) (gq : BitVec 12) (s : State) : Host.Outcome State Fault Refusal :=
  .next (clStep cl.val gq.toNat 0x14 true s)

/-- CL_ALLTOALLV (R341) -/
def execClAlltoallv (cl : Fin 8) (gq : BitVec 12) (s : State) : Host.Outcome State Fault Refusal :=
  .next (clStep cl.val gq.toNat 0x15 true s)

/-- Opcode of the collective instruction at the head of a group queue; 0: none. -/
def clOpcode (s : State) (cl gq : Nat) : Nat :=
  match headWord s cl (gqid gq) with
  | some w => if 0x10 ≤ wOpcode w ∧ wOpcode w ≤ 0x15 then wOpcode w else 0
  | none => 0

/-- STEP_OPEN (R337) -/
def execStepOpen (cl : Fin 8) (gq : BitVec 12) (s : State) : Host.Outcome State Fault Refusal :=
  let op := clOpcode s cl.val gq.toNat
  .next (if op = 0 then s else clStep cl.val gq.toNat op false s)

/-- STEP_COMPLETE (R344): only of a step that is open -/
def execStepComplete (cl : Fin 8) (gq : BitVec 12) (s : State) : Host.Outcome State Fault Refusal :=
  let g := getGroup s cl.val gq.toNat
  let op := clOpcode s cl.val gq.toNat
  .next (match (getQ s cl.val (gqid gq.toNat)).cur with
    | some c => if op ≠ 0 ∧ g.held ∧ stepIsOpen g c then clStep cl.val gq.toNat op true s else s
    | none => s)

/-- GS_ABORT (R350): a write of GS_CTL with ABORT 1; its right is DOORBELL at the group's doorbell (R355). -/
def execGsAbort (by' : Initiator) (cl : Fin 8) (gq : BitVec 12) (v : W32) (s : State) : Host.Outcome State Fault Refusal :=
  let d := qcbBase cl.val (gqid gq.toNat) + 0x14
  .next (if !mayAccess s by' d 4 .doorbell then refuseAccess by' d s
    else if !(getGroup s cl.val gq.toNat).held then s
    else groupAbort cl.val gq.toNat (setField (gsRegs cl.val gq.toNat + 0xC) 1 1 (fld v 1 1) s))

/-- GROUP_IDLE (R353): STEP_IDLE reaches a threshold that is not 0 -/
def execGroupIdle (cl : Fin 8) (gq : BitVec 12) (s : State) : Host.Outcome State Fault Refusal :=
  let b := gsRegs cl.val gq.toNat
  let g := getGroup s cl.val gq.toNat
  let live : Bool := match g.step with
    | some t => t.live
    | none => false
  let th := getReg s (b + 0x14)
  .next (if g.held ∧ live ∧ ¬ g.dead ∧ th ≠ 0 then
      let s := if (getReg s (b + 0x18)).toNat < th.toNat then setReg (b + 0x18) th s else s
      let s := setField (b + 0x10) 0 1 1 s
      if regField s (b + 0xC) 1 1 = 1 then
        event 3 cl.val (gqid gq.toNat) (BitVec.ofNat 32 (slowWord ((slowest g).map (fun x => x.1)))) s
      else s
    else s)

/-- Group that a waiting packet is a contribution to. -/
def contributionTo (s : State) (a : Arrival) : Option Nat :=
  let h := parseTft a.packet
  let x := getCtx s h.dst
  if h.typ = 1 ∧ x.isOpen ∧ x.isGctx ∧ looksContribution (mget Group.reset s.groups x.gkey) h.stepc h.len (BitVec.ofNat 128 h.tag)
    then some x.gkey else none

/-- How a contribution enters its slot (R312): as a shadow when its tag fits the open step and no other slot holds its piece. -/
def slotKindOf (s : State) (cl gkey : Nat) (a : Arrival) : SlotKind :=
  let h := parseTft a.packet
  let tag := BitVec.ofNat 128 h.tag
  let g := mget Group.reset s.groups gkey
  let pend := (mget [] s.arrivals cl).any (fun b =>
    let hb := parseTft b.packet
    decide (b.slot = some .shadow) && decide (hb.dst = h.dst) && decide (tagChunk (BitVec.ofNat 128 hb.tag) = tagChunk tag) &&
      decide (tagPiece (BitVec.ofNat 128 hb.tag) = tagPiece tag))
  match tagRel g tag with
  | some rel => if tagSeq tag = g.seq ∧ tagGroup tag = g.gid.toNat ∧ !contributed g rel (tagPiece tag) (tagMember tag) ∧ !pend
      then .shadow else .raw
  | none => .raw

/-- The next contribution without a slot takes a free one (R312), combined at once when its tag fits the open step, else held
raw. What a slot holds is combined again at its commit, so that it needs no copy here. -/
def dispatchNext (cl : Nat) (s : State) : State :=
  let l := mget [] s.arrivals cl
  if 32 ≤ slotsBusy s cl then s
  else
    match l.findIdx? (fun a => a.slot.isNone && (contributionTo s a).isSome) with
    | none => s
    | some i =>
      match l[i]? with
      | none => s
      | some a =>
        let k := (contributionTo s a).getD 0
        let kind := slotKindOf s cl k a
        let s := if kind = .shadow then addCycles (k / 4096) (k % 4096) s else s
        { s with arrivals := mput [] s.arrivals cl (setAt l i { a with slot := some kind }) }

/-- CONTRIBUTION_DISPATCH (R312) -/
def execContributionDispatch (cl : Fin 8) (s : State) : Host.Outcome State Fault Refusal := .next (dispatchNext cl.val s)

/-- A contribution at the front that has no slot yet takes one before its check ends; it waits while none is free (R312). -/
def slotFront (cl : Nat) (a : Arrival) (s : State) : Option (Arrival × State) :=
  if a.slot.isSome || (contributionTo s a).isNone then some (a, s)
  else
    let s := dispatchNext cl s
    match frontPacket s cl 1 with
    | some b => if b.slot.isSome then some (b, s) else none
    | none => none

/-- A chunk record or a received bitmap that the message reaches cannot be read (R319, R534). -/
def recordsBad (cl gq : Nat) (tag : BitVec 128) (s : State) : Bool :=
  match tagRel (getGroup s cl gq) tag with
  | some rel => s.bad.any (fun d =>
      decide (d = .chunkRecord (cl * 4096 + gq) rel) || decide (d = .bitmap (cl * 4096 + gq) (rel * 256 + tagPiece tag)))
  | none => false

/-- TAGGED_PACKET_RECEIVE (R313-R316, R345, R349, R351, R454): the checks of a TAGGED packet are complete. -/
def execTaggedPacketReceive (cl : Fin 8) (now : W64) (s : State) : Host.Outcome State Fault Refusal :=
  let s := advanceFwd cl.val now s
  .next (match (frontPacket s cl.val 1).bind (fun a => slotFront cl.val a s) with
    | none => s
    | some (a, s) =>
      let h := parseTft a.packet
      let x := getCtx s h.dst
      let gq := x.gkey % 4096
      if x.isGctx && stepHeld s cl.val gq then s else
      let (s, r) := receiveFront cl.val a (popArrival cl.val s)
      match r with
      | none => if a.slot.isSome then bumpSat (rlRegs cl.val + 0x2C) 1 s else s
      | some (c, k) =>
        let tag := BitVec.ofNat 128 h.tag
        let (bad, s) := headerBad cl.val gq s
        if bad || (a.slot.isSome && recordsBad cl.val gq tag s) then contextLost cl.val gq s
        else
          let (s, ok) := handleMsg cl.val gq tag (BitVec.ofNat 16 h.stepc) (arrivalPayload a h) false (decide (a.slot = some .shadow)) s
          let s := if k = .inOrder then (if ok then accepted c h.ch a.ce s else notAccepted cl.val s) else s
          pumpHalting cl.val gq s)

end Sys2Proof.Machine
end

