-- ==== Sys2Proof/Machine/Harness.lean ====
section
/-! DEFINITION. The harness (14_harness.md): ports and links, HELLO, master claims, worms, configuration and its COMMIT, the
group table, the standby. -/

namespace Sys2Proof.Machine

def modHs (f : Harness → Harness) (s : State) : State := { s with harness := f s.harness }

/-- Hand a SIG message on; a device held in reset sends none. -/
def sendSig (m : SigMsg) (s : State) : State := if heldInReset s then s else modHs (fun h => { h with sent := h.sent ++ [m] }) s

/-- This device acts as the master. -/
def actingMaster (s : State) : Bool := decide (s.harness.role = 0)

/-- An error record of a harness link (R540). -/
def harnessReport (port code peer : Nat) (s : State) : State :=
  let r := newReport s (unitCl 0x13 (port / 128) port) 0x0D 5
  report { r with syndrome := BitVec.ofNat 128 (code + peer * 256) } s

/-! ### Master claims (R489) -/

/-- Discard a configuration that has not been committed (R484). -/
def dropPartial (s : State) : State := modHs (fun h => { h with partItems := [] }) s

/-- Follow a claim: an EPOCH other than a strapped master's first counts as a change of master (R488). -/
def followClaim (epoch : W32) (sb : Bool) (s : State) : State :=
  let s := dropPartial (modHs (fun h => { h with epoch := epoch }) s)
  if epoch = 1 ∧ ¬ sb then s else bumpSat (hsRegs + 0x30) 1 s

/-- A claim to be master is heard, on a port where it came in a HELLO (R489). -/
def hearClaim (port : Nat) (peer : BitVec 4) (epoch : W32) (sb : Bool) (s : State) : State :=
  let h := s.harness
  if actingMaster s then
    if h.epoch < epoch ∨ (h.epoch = epoch ∧ ¬ sb ∧ s.part.harnessSb) then
      let s := followClaim epoch sb (modHs (fun h => { h with role := 3, addr := 8 }) s)
      harnessReport port 2 peer.toNat s
    else s
  else if h.epoch < epoch then followClaim epoch sb s
  else s

/-! ### The harness group table (R486) -/

def gtBase (s : State) : Nat := (getReg s (hsRegs + 0x10)).toNat + (getReg s (hsRegs + 0x14)).toNat * 2 ^ 32

def gtEntry (s : State) (i : Nat) : Nat := leNat ((List.range 8).map (fun k => memByte s (gtBase s + 8 * i + k)))

/-- Write an entry of the table, and mirror it to the standby (R484). -/
def gtPut (i v : Nat) (s : State) : State :=
  sendSig (.config 8 s.harness.epoch [(0, .groupEntry (BitVec.ofNat 16 i) (BitVec.ofNat 64 v))])
    (writeMem (gtBase s + 8 * i) (clean (leBytes 8 v)) s)

def gtEntries (s : State) : Nat := Nat.min 65536 (regField s (hsRegs + 0x18) 0 17)

/-- Set or clear a device's bit in the entry of a group; an entry no device holds is given up. -/
def gtNote (gid h : Nat) (on : Bool) (s : State) : State :=
  if !actingMaster s || decide (8 ≤ h) then s
  else
    let n := gtEntries s
    match (List.range n).find? (fun i => decide (gtEntry s i % 2 ^ 25 = gid + 2 ^ 24)) with
    | some i =>
      let v := gtEntry s i
      let hids := bitsOf v 32 8
      let hids' := if on then hids ||| 2 ^ h else hids - (hids &&& 2 ^ h)
      gtPut i (if hids' = 0 then 0 else v - hids * 2 ^ 32 + hids' * 2 ^ 32) s
    | none =>
      if !on then s
      else
        match (List.range n).find? (fun i => decide (bitsOf (gtEntry s i) 24 1 = 0)) with
        | some i => gtPut i (gid + 2 ^ 24 + 2 ^ (32 + h)) s
        | none => bumpSat (hsRegs + 0x34) 1 s

/-- A member has come out of a reset: its groups are lost, and software is told (R486, R563). -/
def gtLose (h : Nat) (s : State) : State :=
  if !actingMaster s || decide (8 ≤ h) then s
  else
    (List.range (gtEntries s)).foldl (fun s i =>
      let v := gtEntry s i
      if bitsOf v 24 1 = 1 ∧ bitsOf v (32 + h) 1 = 1 then
        let s := if bitsOf v (40 + h) 1 = 1 then s else gtPut i (v + 2 ^ (40 + h)) s
        event 6 0xFF 0 (BitVec.ofNat 32 (8 + bitsOf v 0 24 * 256)) s
      else s) s

/-! ### HELLO and links (R479, R485, R421) -/

/-- The HELLO a device sends (R479): its straps, address, role, EPOCH and serial number; the first since its reset says so. -/
def ownHello (s : State) : Hello :=
  { hid := s.part.harnessId, sb := s.part.harnessSb, addr := s.harness.addr, role := BitVec.ofNat 2 s.harness.role,
    epoch := s.harness.epoch, ident := BitVec.ofNat 64 ((fuseWord s 17).toNat + (fuseWord s 18).toNat * 2 ^ 32),
    fresh := !s.harness.greeted }

/-- Items of one device. -/
def itemsOf (dev : Nat) (items : List ConfigItem) : List (BitVec 4 × ConfigItem) := items.map (fun i => (BitVec.ofNat 4 dev, i))

/-- A device's whole part of the configuration (R485). -/
def sendWhole (dev : Nat) (s : State) : State :=
  sendSig (.config dev s.harness.epoch (itemsOf dev (mget [] s.harness.parts dev))) s

/-- The mirror that a standby gets (R484): the parts of all devices and the harness group table. -/
def mirrorItems (s : State) : List (BitVec 4 × ConfigItem) :=
  s.harness.parts.flatMap (fun e => itemsOf e.1 e.2) ++
    ((List.range (gtEntries s)).filter (fun i => decide (bitsOf (gtEntry s i) 24 1 = 1))).map (fun i =>
      (0, .groupEntry (BitVec.ofNat 16 i) (BitVec.ofNat 64 (gtEntry s i))))

/-- A port's PHY comes up, where its laser source has not failed (R620): an ordinary port is up; a harness port sends its HELLO and waits for the other's. -/
def phyUp (p : Nat) (s : State) : State :=
  if !isPort s p || !adminUp s p || linkUp s p || portLost s p || bitOf (getReg s (oeEngineRegs (p / 32) + 4)) (p % 32 / 8) then s
  else
  let s := closeWindow (unitCl 0x13 (p / 128) p) (closeWindow (unitCl 0x0B (p / 128) p) s)
  if harnessRole s p then
    if s.harness.phy.contains p then s
    else modHs (fun h => { h with greeted := h.greeted || !heldInReset s })
      (sendSig (.hello p (ownHello s)) (modHs (fun h => { h with phy := h.phy ++ [p] }) s))
  else modPort p (fun x => { x with linkUp := true }) s

/-- A HELLO on a harness port (R479, R485, R486, R489). -/
def helloReceive (p : Nat) (m : Hello) (s : State) : State :=
  let h := s.harness
  if !isPort s p || !harnessRole s p || !(h.phy.contains p || linkUp s p) then s
  else if (m.hid = s.part.harnessId ∧ m.sb = s.part.harnessSb) ∨ (m.addr = h.addr ∧ m.addr ≠ 0) ∨ 9 ≤ m.addr.toNat then
    harnessReport p 1 m.addr.toNat (bumpSat (hsRegs + 0x2C) 1 s)
  else
    let s := modHs (fun h => { h with phy := h.phy.filter (fun q => decide (q ≠ p)) }) s
    let s := modPort p (fun x => { x with linkUp := true, peer := m.addr }) s
    let s := if m.role = 0 then hearClaim p m.addr m.epoch m.sb s else s
    if !actingMaster s then s
    else
      let s := if m.fresh then gtLose m.addr.toNat s else s
      -- a master whose claim has lost answers to address 8 from now on, as a standby (R489)
      let dev := if m.role = 0 then 8 else m.addr.toNat
      let s := if m.role = 0 then modPort p (fun x => { x with peer := 8 }) s else s
      let s := sendWhole dev s
      if m.role = 3 ∨ m.role = 0 then sendSig (.config 8 s.harness.epoch (mirrorItems s)) s else s

/-! ### Configuration (R476, R484) -/

/-- Can an item be applied under the rules of a local change (R392, R394, R491)? -/
def itemApplies (s : State) (i : ConfigItem) : Bool :=
  match i with
  | .role l _ => isPort s l.val
  | .laneGroup g m => decide (lgMode s g.val = m.toNat) || !((List.range 8).any (fun k => adminUp s (8 * g.val + k)))
  | .adminUp _ _ => true
  | .route _ c _ => decide (c.toNat ≤ 8)
  | .relay _ => decide (s.part.harnessId ≠ 0)
  | .groupEntry _ _ => true
  | .groupNote _ _ => true

/-- Write a route table entry (R491). -/
def setRoute (h count : Nat) (ports : List Nat) (s : State) : State :=
  let b := hsRegs + 0x100 + 0x20 * h
  (List.range 4).foldl (fun s k =>
    setReg (b + 4 + 4 * k) (BitVec.ofNat 32 (ports.getD (2 * k) 0 % 1024 + ports.getD (2 * k + 1) 0 % 1024 * 65536)) s)
    (setField b 0 4 count s)

/-- The RELAY role: a member takes it, or leaves it (R474). -/
def setRelay (on : Bool) (s : State) : State :=
  modHs (fun h => if h.role = 1 ∨ h.role = 2 then { h with role := if on then 2 else 1 } else h) s

/-- Apply one item. -/
def applyItem (i : ConfigItem) (s : State) : State :=
  match i with
  | .role l hs => portCfgWrite l.val (BitVec.ofNat 32 ((portCfg s l.val).toNat - fld (portCfg s l.val) 1 2 * 2 + 2 * boolNat hs)) s
  | .laneGroup g m => laneGroupMode g.val m.toNat s
  | .adminUp l up => portCfgWrite l.val (BitVec.ofNat 32 ((portCfg s l.val).toNat / 2 * 2 + boolNat up)) s
  | .route h c ps => setRoute h.val c.toNat (ps.map (fun p => p.toNat)) s
  | .relay on => setRelay on s
  | .groupEntry i v => modHs (fun h => { h with gtMirror := mput 0 h.gtMirror i.toNat v }) s
  | .groupNote _ _ => s

/-- Place of an item in the order in which Tack applies a configuration. -/
def itemOrder (i : ConfigItem) : Nat :=
  match i with
  | .role _ _ => 0
  | .laneGroup _ _ => 1
  | .adminUp _ _ => 2
  | .route _ _ _ => 3
  | .relay _ => 4
  | .groupEntry _ _ => 5
  | .groupNote _ _ => 6

/-- Apply a configuration in the order of R484, or none of it when one of its items cannot be applied. -/
def applyConfig (items : List ConfigItem) (s : State) : State × Bool :=
  let ordered := (List.range 6).flatMap (fun k => items.filter (fun i => decide (itemOrder i = k)))
  if items.all (itemApplies s) then (ordered.foldl (fun s i => applyItem i s) s, true) else (s, false)

/-- The parts of other devices in what a standby has received are its mirror: each takes the place of what it held of that
device (R475, R484). -/
def mirrorParts (items : List (BitVec 4 × ConfigItem)) (own : BitVec 4) (m : SMap (List ConfigItem)) : SMap (List ConfigItem) :=
  let whole := fun (i : BitVec 4 × ConfigItem) => decide (itemOrder i.2 < 5)
  ((items.filter (fun i => whole i && decide (i.1 ≠ own))).map (fun i => i.1)).eraseDups.foldl (fun m d =>
    mset m d.toNat ((items.filter (fun i => whole i && decide (i.1 = d))).map (fun i => i.2))) m

/-- COMMIT from the master followed (R484, R485, R490): the device's own part is applied as a whole and the outcome answered. -/
def commitConfig (epoch : W32) (s : State) : State :=
  let h := s.harness
  if actingMaster s ∨ epoch ≠ h.epoch then dropPartial s
  else
    let all := if h.partEpoch = epoch then h.partItems else []
    let items := (all.filter (fun i => decide (i.1 = h.addr) || (decide (h.role = 3) && decide (itemOrder i.2 = 5)))).map (fun i => i.2)
    let s := dropPartial (modHs (fun h => { h with configured := true }) s)
    match applyConfig items s with
    | (s, true) =>
      let s := if h.role = 3 then modHs (fun x => { x with parts := mirrorParts all h.addr x.parts }) s else s
      sendSig (.outcome epoch true) s
    | (s, false) =>
      let s := modHs (fun x => { x with configured := h.configured }) s
      let r := newReport s (unitDie 0x16 0 0) 0x0D 5
      sendSig (.outcome epoch false) (report { r with syndrome := 3 } s)

/-! ### Worms (R478, R481-R483) -/

/-- A frame from another device has arrived whole on a harness port, without its FCS: its pipeline handles it (R481), within the
limits of R394. -/
def harnessFrame (p : Nat) (routed : Bool) (f : List PByte) (s : State) : State :=
  let fp := fpRegs (p / 32)
  if f.length + 4 < 64 then bumpSat (fp + 0x14) 1 s
  else if maxFrame s p < f.length + 4 then bumpSat (fp + 0x18) 1 s
  else
    let (s, cls, d, _) := acceptHeader p routed (bytesOf f) (fwdNow s (p / 128)) s
    deliverFrame p cls d f s

/-- Link chosen for a worm that goes on (R483). -/
def wormPort (s : State) (w : Worm) : Option Nat :=
  let h := w.dhid.toNat
  if 9 ≤ h then none
  else
    match w.cls with
    | .pkt => harnessPick s h w.hash.toNat
    | .sig => harnessPick s h 0
    | _ => harnessPick s h (channelHash (parseTft w.bytes).src (parseTft w.bytes).ch (w.hash.toNat % 1024))

/-- A frame in transit to another device has arrived whole (R481, R483): it is forwarded as a frame to the link chosen, in its
class of the port it came in by, with one more hop (DEDUCED, log entry 107). -/
def transitFrame (p : Nat) (head : Worm) (f : List PByte) (s : State) : State :=
  match wormPort s head with
  | none => bumpSat (hsRegs + 0x24) 1 s
  | some out =>
    let cls := frameClass s p (parseFrame (bytesOf f))
    enqueueFrame out cls f none p cls s (some { head with hops := head.hops + 1, bytes := [], poison := [] })

/-- A PKT worm: the segments of a frame are put together in the staging queue (R464, R481), which may be full for it at its
first (R395). -/
def takeSegment (p : Nat) (w : Worm) (s : State) : State :=
  let bs : List PByte := (List.range w.bytes.length).map (fun i => (w.bytes.getD i 0, w.poison.getD (i / 64) false))
  let have' := mget none s.harness.segs p
  let put := fun (v : Option Segments) (s : State) => modHs (fun h => { h with segs := mput none h.segs p v }) s
  let lost := bumpSat (hsRegs + 0x28) 1
  let s := if w.first then put none (if have'.isSome then lost s else s) else s
  let full := stagingFull s p
  let s := if w.first && full then bumpSat (fpRegs (p / 32) + 0x10) 1 s else s
  match (if w.first then some { head := w, full := full, bytes := [] } else have') with
  | none => lost s
  | some start =>
    let x : Segments := { start with bytes := if start.full then [] else start.bytes ++ bs }
    if !w.last then put (some x) s
    else
      let s := put none s
      if x.full then s
      else if x.head.dhid = s.harness.addr then harnessFrame p x.head.routed x.bytes s
      else transitFrame p x.head x.bytes s

/-- A worm arrives on a harness port, or originates here (R483, R490). A message is one worm of at most 71 data flits (R463): of
more bytes there is none. -/
def wormRoute (lane : Option Nat) (w : Worm) (s : State) : State :=
  let lost := match lane with
    | some p => !(linkUp s p && harnessRole s p)
    | none => false
  if lost || decide (4544 < w.bytes.length) then s
  else if w.dhid = s.harness.addr then
    match w.cls with
    | .pkt => match lane with
      | some p => takeSegment p w s
      | none => s
    | .sig => s
    | _ => takePacket ((lane.getD 0) / 128) w s
  else if w.hops = 3 ∧ lane.isSome then bumpSat (hsRegs + 0x20) 1 s
  else
    match wormPort s w, lane, w.cls with
    | none, _, _ => bumpSat (hsRegs + 0x24) 1 s
    | some _, some p, .pkt => takeSegment p w s
    | some p, _, _ => { s with wormOut := mset s.wormOut p [if lane.isSome then { w with hops := w.hops + 1 } else w] }

/-! ### Meanings -/

/-- PORT_CFG_WRITE (R394, R421); writes come from the MC only (R476). -/
def execPortCfgWrite (by' : Initiator) (lane : Fin 1024) (v : W32) (s : State) : Host.Outcome State Fault Refusal :=
  let a := portRegs lane.val
  .next (if by' = .mc then portCfgWrite lane.val v s else if mayAccess s by' a 4 .write then s else refuseAccess by' a s)

/-- PORT_LINK_DOWN (R421, R422); ports 1024 and 1025 are MGMT0 and MGMT1 -/
def execPortLinkDown (port : Fin 1026) (s : State) : Host.Outcome State Fault Refusal :=
  .next (if 1024 ≤ port.val then mgmtLink (port.val - 1024) true s else if isPort s port.val then linkDown port.val s else s)

/-- PORT_LINK_UP (R422, R479) -/
def execPortLinkUp (port : Fin 1026) (s : State) : Host.Outcome State Fault Refusal :=
  .next (if 1024 ≤ port.val then mgmtLink (port.val - 1024) false s else phyUp port.val s)

/-- HELLO_RECEIVE (R479) -/
def execHelloReceive (lane : Fin 1024) (m : Hello) (s : State) : Host.Outcome State Fault Refusal :=
  .next (helloReceive lane.val m s)

/-- WORM_ROUTE (R483) -/
def execWormRoute (lane : Option (Fin 1024)) (w : Worm) (s : State) : Host.Outcome State Fault Refusal :=
  .next (wormRoute (lane.map (fun l => l.val)) w s)

/-- ALIVE_SEND (R488) -/
def execAliveSend (s : State) : Host.Outcome State Fault Refusal :=
  .next (if actingMaster s then sendSig (.alive s.harness.epoch) s else s)

/-- ALIVE_RECEIVE (R489) -/
def execAliveReceive (addr : BitVec 4) (sb : Bool) (epoch : W32) (s : State) : Host.Outcome State Fault Refusal :=
  .next (hearClaim 0 addr epoch sb s)

/-- A harness link of the device is up. -/
def harnessJoined (s : State) : Bool := s.ports.any (fun e => linkUp s e.1 && harnessRole s e.1)

/-- A standby that takes over writes its mirror of the group table into its own (R486, R488). -/
def adoptTable (s : State) : State :=
  s.harness.gtMirror.foldl (fun s e => if e.1 < gtEntries s then
    writeMem (gtBase s + 8 * e.1) (clean (leBytes 8 e.2.toNat)) s else s) s

/-- STANDBY_TAKEOVER (R488): the standby has missed MISS_LIMIT intervals. With no harness link up it is a harness of one, and
waits for a master (R474). -/
def execStandbyTakeover (s : State) : Host.Outcome State Fault Refusal :=
  .next (if s.harness.role ≠ 3 || !harnessJoined s then s
    else
      let s := dropPartial (modHs (fun h => { h with epoch := h.epoch + 1, role := 0, addr := 0 }) s)
      let s := bumpSat (hsRegs + 0x30) 1 s
      s.harness.parts.foldl (fun s e => sendWhole e.1 s) (adoptTable s))

/-- CONFIG_RECEIVE (R484, R489): of the master followed only. `item` comes with the device it is for, or the one whose group an
acting master is told of (R486; DESIGN CHOICE, log entry 108). -/
def execConfigReceive (epoch : W32) (item : BitVec 4 × ConfigItem) (s : State) : Host.Outcome State Fault Refusal :=
  .next (if actingMaster s then
      match item.2 with
      | .groupNote gid created => gtNote gid.toNat item.1.toNat created s
      | _ => s
    else if epoch < s.harness.epoch then s
    else if s.harness.epoch < epoch then dropPartial s
    else modHs (fun h => { h with partEpoch := epoch, partItems := (if h.partEpoch = epoch then h.partItems else []) ++ [item] }) s)

/-- COMMIT_RECEIVE (R484) -/
def execCommitReceive (epoch : W32) (s : State) : Host.Outcome State Fault Refusal := .next (commitConfig epoch s)

end Sys2Proof.Machine
end

