-- ==== Sys2Proof/Machine/Health.lean ====
section
/-! DEFINITION. In-field testing and health (17_cupping_and_health.md). -/

namespace Sys2Proof.Machine

/-! ### Units -/

/-- No job can observe the unit now (R552). -/
def testable (s : State) (k : Nat) : Bool :=
  let cl := keyCl k
  let i := keyIndex k
  match keyKind k with
  | 1 =>
    match tileRole s cl i with
    | some p => (decide (p = 8) || decide (jobOfQueue s cl p = 0)) &&
        !(List.range 8).any (fun q => (getTile s cl q).rotating)
    | none => false
  | 2 => decide (jobOfQueue s cl (9 + i) = 0) && !absent s cl (9 + i)
  | 4 => decide (jobOfQueue s cl 25 = 0) && !absent s cl 25
  | 5 => decide (slotsBusy s cl ≤ 16)
  | _ => false

/-! ### Bands (R565) -/

/-- A region's value that a band is about. -/
def bandValue (s : State) (kind r : Nat) : Int :=
  if kind = 1 then (regField s (rgRegs r + 8) 16 12 : Int) else sext 16 (regField s (rgRegs r + 0x14) 0 16)

/-- A COND_EXCLUDE entry acts on its tile, or as a COND_GUARD when no spare is fit to take the tile's position. -/
def excludes (s : State) (e : BitVec 256) : Bool :=
  decide (feAction e = 2) && decide (feLevel e = 2) &&
    (match tileRole s (feCl e) (feLoc e % 16) with
     | some p => decide (p = 8) || spareFit s (feCl e)
     | none => true)

/-- Apply a COND_EXCLUDE entry to the region's present condition. -/
def applyExclude (e : BitVec 256) (s : State) : State :=
  let cl := feCl e
  let t := feLoc e % 16
  let k := hkey 1 cl t
  let v := bandValue s (feBandKind e) cl
  let w : Int := if feBandKind e = 1 then 2 else 16
  if feLo e ≤ v ∧ v ≤ feHi e then
    if excludes s e ∧ ¬ (getHUnit s k).excluded then settleTile cl t (modHUnit k (fun x => { x with excluded := true }) s) else s
  else if (v < feLo e - w ∨ feHi e + w < v) ∧ (getHUnit s k).excluded then
    let s := modHUnit k (fun x => { x with excluded := false }) s
    if tileOf s cl 8 = 9 ∧ (tileRole s cl t).isNone ∧ ¬ (getHUnit s k).retired then
      { s with tilePhys := mput 8 s.tilePhys (cl * 9 + 8) t }
    else s
  else s

/-- RG_GUARD of a region: the voltage floor and the throttle point (R598, R603). -/
def setGuard (r : Nat) (s : State) : State :=
  let es := (s.health.bands).filter (fun e => decide (feCl e = r) && !excludes s e)
  let floor := ((es.filter (fun e => decide (feBandKind e = 1))).map (fun e => (feHi e + 1).toNat)).foldl Nat.max 0
  let tp := ((es.filter (fun e => decide (feBandKind e = 2))).map (fun e => feLo e)).foldl
    (fun (a b : Int) => if b < a then b else a) (8 * regField s (sigRegs + 8) 8 8 : Int)
  setReg (rgRegs r + 0x10) (BitVec.ofNat 32 (floor % 2 ^ 12 + (BitVec.ofInt 16 tp).toNat * 2 ^ 12)) s

/-- Judge every band against the present conditions. -/
def applyBands (s : State) : State :=
  let s := (s.health.bands).foldl (fun s e => if feAction e = 2 then applyExclude e s else s) s
  (List.range 8).foldl (fun s r => setGuard r s) s

/-! ### Cases (R549-R553) -/

/-- Format of the operand elements of a family; `none`: bytes as drawn (R549). -/
def caseFmt (kind family : Nat) : Option Fmt :=
  match kind, family with
  | 1, 2 => some e2m1
  | 1, 3 => some bf16
  | 1, 4 => some fp32
  | 1, _ => some e4m3
  | 2, 1 => some fp64
  | 2, 3 => none
  | _, _ => some fp32

/-- The operand words of a case as one number: word w is drawn as R153 draws (R549). -/
def caseWord (seed : W64) (k w : Nat) : Nat := srBits seed.toNat ((k * 2 ^ 32 + w) % 2 ^ 64)

/-- Byte `i` of the operand words. -/
def caseByte (seed : W64) (k i : Nat) : Nat := bitsOf (caseWord seed k (i / 4)) (8 * (i % 4)) 8

/-- An element with its exponent field kept near the bias, so that results stay finite (R549). -/
def nearBias (f : Fmt) (v : Nat) : Nat :=
  if f = e3m2 ∨ f = e2m3 ∨ f = e2m1 then v
  else
    let e := bitsOf v f.fb f.eb
    v - e * 2 ^ f.fb + (f.bias - 4 + e % 8) * 2 ^ f.fb

/-- Operand element `i` of a case: elements lie in the operand words from the lowest bit on (DEDUCED, log entry 110). -/
def caseElem (kind family : Nat) (seed : W64) (k i : Nat) : Nat :=
  match caseFmt kind family with
  | some f =>
    let w := fmtWidth f
    let words := caseWord seed k (i * w / 32) + caseWord seed k (i * w / 32 + 1) * 2 ^ 32
    nearBias f (bitsOf words (i * w % 32) w)
  | none => caseByte seed k i

/-- E8M0 scale byte `i` of a case (R549). -/
def caseScale (seed : W64) (k i : Nat) : Nat := 123 + caseByte seed k i % 9

/-- Words that follow the output bytes in a signature (R550). -/
def caseFlagCount (kind : Nat) : Nat :=
  match kind with
  | 1 => 3
  | 5 => 0
  | _ => 1

/-- Signature of a case's output (R550). -/
def caseSignature (kind : Nat) (o : CaseOut) : W32 :=
  BitVec.ofNat 32 (crc32c (o.bytes ++ (List.range (caseFlagCount kind)).flatMap (fun j => leBytes 4 (o.flags.getD j 0).toNat)))

/-- What every sound unit of a kind gives for a case (R549, R550): a function of its kind, family, seed and index alone. -/
def soundCase (kind : Nat) (seed : W64) (k : Nat) : CaseOut :=
  let fam := k % familyCount kind
  let e := caseElem kind fam seed k
  let x := caseScale seed k
  { bytes := Config.caseBytes kind fam e x, flags := (List.range (caseFlagCount kind)).map (Config.caseFlag kind fam e x) }

/-- Signature of a case run on a unit: a sound one's, or that of what a faulty one gives. -/
def signatureOf (kind : Nat) (seed : W64) (k : Nat) (fault : Option CaseOut) : W32 :=
  caseSignature kind (fault.getD (soundCase kind seed k))

/-- Issue a run number: from 1, modulo 2^32, skipping 0. -/
def nextRun (s : State) : State × W32 :=
  let r := if s.health.run + 1 = 0 then 1 else s.health.run + 1
  ({ s with health := { s.health with run := r } }, r)

/-- Schedule `n` cases of a run for a unit. -/
def scheduleCases (k n : Nat) (run : W32) (seed : W64) (bias : Int) (s : State) : State :=
  modHUnit k (fun x => { x with todo := x.todo ++ [{ run := run, bias := bias, seed := seed, next := 0, stop := n }] }) s

/-- RG_BIAS of a region (R598). -/
def setBias (r : Nat) (bias : Int) (s : State) : State := setField (rgRegs r + 0xC) 0 8 (BitVec.ofInt 8 bias).toNat s

/-- A job holds an engine of the cluster. -/
def jobInRegion (s : State) (cl : Nat) : Bool := (List.range 26).any (fun e => decide (jobOfQueue s cl e ≠ 0))

/-- A run that is over no longer biases a region: no unit of it has cases of that run left. -/
def endBias (cl : Nat) (run : W32) (s : State) : State :=
  if s.health.units.any (fun e => decide (keyCl e.1 = cl) && e.2.todo.any (fun d => decide (d.run = run))) then s
  else setBias cl 0 s

/-- RUN_CUPPING (R553): a run over the units that the masks name; its number. Its bias is asked of the regions of its
clusters while they have cases of the run, a negative one only where no job holds an engine (R556). -/
def runCupping (clusters units iterations : Nat) (seed : W64) (bias : Int) (s : State) : State × W32 :=
  let (s, r) := nextRun s
  let ks := (List.range 8).flatMap (fun cl => if bitsOf clusters cl 1 = 0 then [] else
    (if bitsOf units 0 1 = 1 then (List.range 9).map (hkey 1 cl) else []) ++
    (if bitsOf units 1 1 = 1 then (List.range 8).map (hkey 2 cl) else []) ++
    (if bitsOf units 2 1 = 1 then [hkey 5 cl 0] else []) ++ (if bitsOf units 3 1 = 1 then [hkey 4 cl 0] else []))
  let s := (ks.filter (fun k => hUnitExists s k && !(getHUnit s k).retired)).foldl (fun s k => scheduleCases k iterations r seed bias s) s
  ((List.range 8).foldl (fun s cl =>
    let due := s.health.units.any (fun e => decide (keyCl e.1 = cl) && e.2.todo.any (fun d => decide (d.run = r)))
    if due ∧ bias ≠ 0 ∧ (0 < bias ∨ ¬ jobInRegion s cl) then setBias cl bias s else s) s, r)

/-- A mismatch (R551): counted, and the conditional replay of the run that gave it is due (R556). -/
def noteMismatch (family case' : Nat) (g : CaseRun) (s : State) : State :=
  let d : ReplayDue := { family := family, case' := case', run := g.run, temp := g.temp, volt := g.volt }
  modHUnit g.unit (fun x => { x with passed := false, mismatch := true, replays := x.replays ++ [d] }) (bumpSat (hlRegs + 0x80) 1 s)

/-- Judge a finished case (R551). -/
def judgeCase (k family : Nat) (run : W32) (seed : W64) (case' : Nat) (sig : W32) (s : State) : State :=
  let h := s.health
  let kind := keyKind k
  let mine : CaseRun := { unit := k, sig := sig, run := run, temp := unitTemp s k, volt := unitVolt s k }
  let same := fun (a : Agreement) => decide (a.kind = kind) && decide (a.family = family) && decide (a.seed = seed) &&
    decide (a.case' = case')
  let put := fun (a : Agreement) (s : State) =>
    { s with health := { s.health with agree := s.health.agree.map (fun b => if same b then a else b) } }
  let again := fun (but : List Nat) (s : State) =>
    { s with health := { s.health with extra := s.health.extra ++ [{ kind := kind, run := run, seed := seed, case' := case', but := but }] } }
  match h.agree.find? same with
  | none =>
    let a : Agreement := { kind := kind, family := family, seed := seed, case' := case', given := [mine], agreed := none }
    let l := if h.agree.length < 4096 then h.agree else h.agree.drop 1
    { s with health := { h with agree := l ++ [a] } }
  | some a =>
    match a.agreed with
    | some g => if g = sig then s else noteMismatch family case' mine s
    | none =>
      match a.given with
      | [g] =>
        if g.unit = k then again [k] s
        else if g.sig = sig then put { a with agreed := some sig } s
        else again [g.unit, k] (put { a with given := [g, mine] } s)
      | [g, h] =>
        if k = g.unit ∨ k = h.unit then s
        else if sig = g.sig then noteMismatch family case' h (put { a with agreed := some sig } s)
        else if sig = h.sig then noteMismatch family case' g (put { a with agreed := some sig } s)
        else
          let s := { s with health := { s.health with agree := s.health.agree.filter (fun b => !same b) } }
          [g, h, mine].foldl (fun s j => noteMismatch family case' j s) s
      | _ => s

/-- A unit has run a case of its own: the next is due, or its test is completed (R553, R555), and perhaps its run. -/
def ownCaseRun (k : Nat) (t : TestTodo) (rest : List TestTodo) (s : State) : State :=
  if t.next + 1 < t.stop then modHUnit k (fun x => { x with todo := { t with next := t.next + 1 } :: rest }) s
  else
    let s := modHUnit k (fun x => { x with todo := rest, due := false, overdue := false, defer := 0, tested := some s.uptime,
                                           passed := !x.mismatch, mismatch := false }) s
    let s := if t.bias = 0 then s else endBias (keyCl k) t.run s
    if s.health.units.any (fun e => e.2.todo.any (fun d => decide (d.run = t.run))) then s
    else event 6 0xFF 0 (BitVec.ofNat 32 (2 + t.run.toNat % 2 ^ 24 * 256)) s

/-- The case a unit runs now: of the run with the lower number, its own or one queued for another unit. -/
def caseDone (k : Nat) (fault : Option CaseOut) (s : State) : State :=
  let x := getHUnit s k
  let fits := fun (e : ExtraCase) => decide (e.kind = keyKind k) && !e.but.contains k
  let ex := s.health.extra.findIdx? fits
  let exCase := ex.bind (fun i => s.health.extra[i]?)
  let own := x.todo.head?
  let useExtra := match exCase, own with
    | some e, some t => decide (e.run < t.run)
    | some _, none => true
    | none, _ => false
  let fam := fun (c : Nat) => c % familyCount (keyKind k)
  if !testable s k then s
  else
    match useExtra, ex, exCase, x.todo with
    | true, some i, some e, _ =>
      let s := addCtr (hlRegs + 0x88) 1 s
      let s := { s with health := { s.health with extra := removeAt s.health.extra i } }
      judgeCase k (fam e.case') e.run e.seed e.case' (signatureOf (keyKind k) e.seed e.case' fault) s
    | false, _, _, t :: rest =>
      let s := addCtr (hlRegs + 0x88) 1 s
      ownCaseRun k t rest (judgeCase k (fam t.next) t.run t.seed t.next (signatureOf (keyKind k) t.seed t.next fault) s)
    | _, _, _, _ => s

/-- Condition band of a CONDITIONAL fault (R557): about the recorded VOLT or TEMP. -/
def bandOf (bias : Int) (d : ReplayDue) : Nat × Int × Int :=
  let v : Int := sext 16 d.volt.toNat
  let t : Int := sext 16 d.temp.toNat
  if 5 ≤ bias.natAbs then (1, v - 10, v + 10) else (2, t - 40, t + 40)

/-- Class of a fault by the failing runs of its replay (R557, R558), its score and its record (R559). -/
def replayEnds (k failRec failOwn : Nat) (bias : Int) (column : Option Nat) (d : ReplayDue) (s : State) : State :=
  let retireAt := regField s (hlRegs + 0xC) 16 16
  if failOwn ≠ 0 then
    match keyKind k, column with
    | 1, some c =>
      let s := (appendEntries [farrierEntry s 0 0 (keyCl k) (keyCl k / 2) (keyIndex k + c * 16) 1 d.run.toNat] s).1
      let s := changeScore k (fun _ => retireAt - 1) d.run s
      testRecord k 4 failRec failOwn bias (some c) d s
    | _, _ => changeScore k (fun _ => 0xFFFF) d.run (testRecord k 4 failRec failOwn bias none d s)
  else if failRec ≠ 0 then
    let s := modHUnit k (fun x => { x with conditional := true, condBand := some (bandOf bias d) }) s
    changeScore k (fun n => n + 32) d.run (testRecord k 3 failRec failOwn bias none d s)
  else changeScore k (fun n => n + 4) d.run (testRecord k 2 failRec failOwn bias none d s)

/-! ### Meanings -/

/-- A command that names a unit the part has. -/
def onUnit (s : State) (u : UnitRef) (s' : State) : Host.Outcome State Fault Refusal :=
  if hUnitExists s (unitKey u) ∧ u.index < 16 then .next (if heldInReset s then s else s') else .fault .noSuchUnit

/-- TEST_DUE (R553): Tack schedules ITER cases from a seed of its own. -/
def execTestDue (u : UnitRef) (s : State) : Host.Outcome State Fault Refusal :=
  let k := unitKey u
  let s1 := modHUnit k (fun x => { x with due := true }) s
  onUnit s u
    (if bitOf (getReg s hlRegs) 0 ∧ (getHUnit s k).todo.isEmpty ∧ ¬ (getHUnit s k).retired then
      let (s, r) := nextRun s1
      scheduleCases k (regField s (hlRegs + 8) 16 16) r (Config.testSeed r.toNat) 0 s
    else s1)

/-- CASE_DONE (R550, R551) -/
def execCaseDone (u : UnitRef) (fault : Option CaseOut) (s : State) : Host.Outcome State Fault Refusal :=
  onUnit s u (caseDone (unitKey u) fault s)

/-- DEFER_INTERVAL (R555) -/
def execDeferInterval (u : UnitRef) (s : State) : Host.Outcome State Fault Refusal :=
  let k := unitKey u
  let x := getHUnit s k
  onUnit s u
    (if (x.due || !x.replays.isEmpty) && !testable s k then
      let n := Nat.min 255 (x.defer + 1)
      let s := setHUnit k { x with defer := n } s
      if regField s (hlRegs + 8) 0 8 < n ∧ ¬ x.overdue then unitEvent 4 k (setHUnit k { x with defer := n, overdue := true } s) else s
    else s)

/-- CONDITIONAL_REPLAY (R556-R559): the oldest replay due for the unit has run, where no job can observe the unit (R552). -/
def execConditionalReplay (u : UnitRef) (failRec failOwn : BitVec 8) (bias : Int) (column : Option (BitVec 8)) (s : State) :
    Host.Outcome State Fault Refusal :=
  let k := unitKey u
  let x := getHUnit s k
  onUnit s u
    (match testable s k, x.replays with
     | true, d :: rest =>
       replayEnds k failRec.toNat failOwn.toNat bias (column.map (fun c => c.toNat)) d (setHUnit k { x with replays := rest } s)
     | _, _ => s)

/-- SCORE_HALVING (R560) -/
def execScoreHalving (s : State) : Host.Outcome State Fault Refusal :=
  .next (s.health.units.foldl (fun s e => setHUnit e.1 { e.2 with score := e.2.score / 2 } s) s)

/-- Unit that HL_SEL names, if it has a score. -/
def selectedUnit (s : State) : Option Nat :=
  let v := getReg s (hlRegs + 0x60)
  let k := hkey (fld v 0 8) (fld v 8 3) (fld v 14 18)
  if bitOf v 11 ∧ fld v 14 18 < 16 ∧ hUnitExists s k then some k else none

/-- HL_CLEAR (R569) -/
def execHlClear (by' : Initiator) (_ : W32) (s : State) : Host.Outcome State Fault Refusal :=
  pl0Write by' (hlRegs + 0x70)
    (fun s => match selectedUnit s with
      | some k => modHUnit k (fun x => { x with score := 0, suspect := false }) s
      | none => s) s

end Sys2Proof.Machine
end

