-- ==== Sys2Proof/Machine/Power.lean ====
section
/-! DEFINITION. Regions, levels, voltages, temperatures, resets, pins and optical lanes
(19_power_clocks_signals.md). -/

namespace Sys2Proof.Machine

def getRg (s : State) (r : Nat) : RegionSt := mget RegionSt.reset s.power r

def setRg (r : Nat) (x : RegionSt) (s : State) : State := { s with power := mput RegionSt.reset s.power r x }

def modRg (r : Nat) (f : RegionSt → RegionSt) (s : State) : State := setRg r (f (getRg s r)) s

def modSig (f : Signals → Signals) (s : State) : State := { s with sig := f s.sig }

/-- R593 -/
def neighbours (r : Nat) : List Nat :=
  (List.range 8).filter (fun q => decide (q ≠ r) && (decide (q / 2 = r / 2) || (decide (q % 2 = 0) && decide (r % 2 = 0))))

/-- RG_TEMP, in units of 0.125 °C. -/
def rgTemp (s : State) (r : Nat) : Int := sext 16 (regField s (rgRegs r + 0x14) 0 16)

def rgMeas (s : State) (r : Nat) : Nat := regField s (rgRegs r + 8) 16 12
def rgReq (s : State) (r : Nat) : Nat := regField s (rgRegs r + 8) 0 12

/-! ### Levels (R603, R604) -/

/-- Least level a neighbour may have beside one at level `l`. -/
def minLevel (l : Nat) : Nat := 64 - 1000 * (64 - l) / 945

/-- The causes of a region other than FOLLOW, in the order of the CAUSE bits; FOLLOW's place holds 0. -/
def ownCauses (s : State) (r : Nat) : List Nat :=
  let x := getRg s r
  [x.thermal, x.current, x.skew, 0, if x.rail then 32 else 0, x.cold, regField s (rgRegs r + 4) 0 6]

def ownLevel (s : State) (r : Nat) : Nat := (ownCauses s r).foldl Nat.max 0

/-- FOLLOW level of a region beside neighbours at levels `ls`. -/
def followLevel (ls : List Nat) (r : Nat) : Nat := ((neighbours r).map (fun q => minLevel (ls.getD q 0))).foldl Nat.max 0

/-- Levels of all regions: own causes carried to neighbours as far as they must; no chain is longer than the regions. -/
def levels (s : State) : List Nat :=
  (List.range 8).foldl (fun ls _ => (List.range 8).map (fun r => Nat.max (ownLevel s r) (followLevel ls r)))
    ((List.range 8).map (ownLevel s))

/-- RG_LEVEL: the level and the causes at it. -/
def levelReg (s : State) (ls : List Nat) (r : Nat) : W32 :=
  let l := ls.getD r 0
  let cs := setAt (ownCauses s r) 3 (followLevel ls r)
  let bits := (cs.zipIdx.map (fun (p : Nat × Nat) => if p.1 = l ∧ l ≠ 0 then 2 ^ p.2 else 0)).sum
  BitVec.ofNat 32 (l + bits * 256)

/-! ### Voltages and glides (R598, R602) -/

def baseMv (s : State) (r : Nat) : Int :=
  let bias := sext 8 (regField s (rgRegs r + 0xC) 0 8)
  let want : Int := 750 - 4 * ((getRg s r).level : Int) + bias
  let want := if want < (regField s (rgRegs r + 0x10) 0 12 : Int) then (regField s (rgRegs r + 0x10) 0 12 : Int) else want
  if want < 650 then 650 else if 850 < want then 850 else want

/-- req(r) -/
def requestMv (s : State) (r : Nat) : Nat :=
  let all := (List.range 8).map (fun q => if q = r then (baseMv s r).toNat else (baseMv s q).toNat - 30)
  all.foldl Nat.max 0

/-- Send what may be sent now: a voltage step once the one before has settled, a glide once the voltage allows it. A lower
voltage waits until the clocks are down. -/
def drive (r : Nat) (s : State) : State :=
  let x := getRg s r
  let want := requestMv s r
  let now := rgReq s r
  if x.clk < x.level then
    -- the frequency falls first
    let s := setRg r { x with gliding := true } s
    if ¬ x.settling ∧ now < want then
      setField (rgRegs r + 8) 0 12 (Nat.min want (now + 10)) (modRg r (fun x => { x with settling := true }) s)
    else s
  else if x.settling then s
  else if now = want then (if x.level < x.clk then setRg r { x with gliding := true } s else s)
  else
    let next := if now < want then Nat.min want (now + 10) else Nat.max want (now - 10)
    setField (rgRegs r + 8) 0 12 next (setRg r { x with settling := true } s)

/-- Put the levels in force and let clocks and voltages follow them. -/
def putLevels (s : State) : State :=
  let ls := levels s
  let s := (List.range 8).foldl (fun s r =>
    setReg (rgRegs r) (levelReg s ls r) (modRg r (fun x => { x with level := ls.getD r 0 }) s)) s
  (List.range 8).foldl (fun s r => drive r s) s

/-! ### Rail faults (R599) and limits between neighbours (R605) -/

/-- A DOMAIN_SKEW record. -/
def skewRecord (r limit other : Nat) (own theirs : Int) (s : State) : State :=
  let rep := newReport s (unitCl 0x18 r r) 0x0E 0
  report { rep with syndrome := BitVec.ofNat 128 (limit + other * 2 ^ 8 + (BitVec.ofInt 16 own).toNat * 2 ^ 16 +
    (BitVec.ofInt 16 theirs).toNat * 2 ^ 32 + (getRg s r).level * 2 ^ 48) } s

def railRecord (r : Nat) (s : State) : State := skewRecord r 4 0xFF (rgMeas s r) (rgReq s r) s

/-- The value of a region that a limit compares: 1 FREQ, 2 VOLT, 3 TEMP. -/
def skewValue (s : State) (limit r : Nat) : Int :=
  match limit with
  | 1 => (regField s (rgRegs r + 0x18) 0 16 : Int)
  | 2 => (rgMeas s r : Int)
  | _ => rgTemp s r

/-- Region `r` is the side that exceeds the limit against `q`. -/
def exceeds (s : State) (limit r q : Nat) : Bool :=
  let a := skewValue s limit r
  let b := skewValue s limit q
  match limit with
  | 1 => decide (b < a) && decide (6 * a < 100 * (a - b))
  | 2 => decide (40 < b - a)
  | _ => decide (160 < a - b)

/-- The pair is within the hysteresis bound of the limit. -/
def within (s : State) (limit r q : Nat) : Bool :=
  let a := skewValue s limit r
  let b := skewValue s limit q
  let hi := if a < b then b else a
  let d := if a < b then b - a else a - b
  match limit with
  | 1 => decide (100 * d ≤ 5 * hi)
  | 2 => decide (d ≤ 32)
  | _ => decide (d ≤ 128)

/-- Limits a region exceeds now: limit and neighbour. -/
def skewHits (s : State) (r : Nat) : List (Nat × Nat) :=
  [1, 2, 3].flatMap (fun l => ((neighbours r).filter (exceeds s l r)).map (fun q => (l, q)))

/-- The SKEW cause of a region at a check. The pairs of an episode stand in `partners`, each as limit * 8 + neighbour. -/
def skewCheck (r : Nat) (s : State) : State :=
  let x := getRg s r
  let hits := skewHits s r
  if hits ≠ [] then
    let ps := (x.partners ++ hits.map (fun (h : Nat × Nat) => h.1 * 8 + h.2)).eraseDups
    let s := setRg r { x with skew := Nat.min 32 (x.skew + 4), partners := ps, calm := 0 } s
    if x.skew = 0 then bumpSat (rgRegs r + 0x24) 1 s else s
  else if x.skew = 0 then s
  else
    let calm := if x.partners.all (fun p => within s (p / 8) r (p % 8)) then x.calm + 1 else 0
    let k := if 2 ^ 10 ≤ calm then x.skew - 1 else x.skew
    setRg r { x with skew := k, calm := if k = 0 then 0 else calm, partners := if k = 0 then [] else x.partners } s

/-- The causes of a region at a check (R603, R599). -/
def causeCheck (r : Nat) (s : State) : State :=
  let x := getRg s r
  let t := rgTemp s r
  let tp := sext 16 (regField s (rgRegs r + 0x10) 12 16)
  let cur := regField s (rgRegs r + 0x1C) 0 12
  let lim := regField s (rgRegs r + 0x20) 0 12
  let off : Int := (rgMeas s r : Int) - (rgReq s r : Int)
  let bad := decide (25 < off) || decide (off < -25)
  let railBad := if bad then x.railBad + 1 else 0
  let railGood := if bad then 0 else x.railGood + 1
  let rail := if x.rail then decide (railGood < 4) else decide (4 ≤ railBad)
  setRg r { x with
    thermal := if tp ≤ t then Nat.min 32 (x.thermal + 1) else if 32 < tp - t then x.thermal - 1 else x.thermal,
    current := if lim < cur then Nat.min 32 (x.current + 1) else if 100 * cur < 95 * lim then x.current - 1 else x.current,
    cold := if t < 0 then 16 else if 80 ≤ t then 0 else x.cold,
    rail := rail, railBad := Nat.min 4 railBad, railGood := Nat.min 4 railGood } s

/-- What the check reads of a region. -/
def takeReading (r : Nat) (m : RegionReading) (s : State) : State :=
  let s := setField (rgRegs r + 8) 16 12 (Nat.min m.mv 0xFFF) s
  let s := setReg (rgRegs r + 0x1C) (BitVec.ofNat 32 (Nat.min m.amps 0xFFF)) s
  setReg (rgRegs r + 0x18) (BitVec.ofNat 32 (Nat.min m.arith 0xFFFF + Nat.min m.fwd 0xFFFF * 65536)) s

/-- One check of every region (R603): readings, bands, causes, limits between neighbours, levels with FOLLOW last, then the
records of what began. -/
def regionCheck (readings : List RegionReading) (s : State) : State :=
  let rs := List.range 8
  let s := rs.foldl (fun s r =>
    match readings[r]? with
    | some m => takeReading r m s
    | none => s) s
  let s := applyBands s
  let old := s
  let s := rs.foldl (fun s r => causeCheck r s) s
  let s := rs.foldl (fun s r => skewCheck r s) s
  let s := putLevels s
  rs.foldl (fun s r =>
    let s := if (getRg s r).rail ∧ ¬ (getRg old r).rail then railRecord r s else s
    if (getRg old r).skew = 0 ∧ (getRg s r).skew ≠ 0 then
      match skewHits old r with
      | (l, q) :: _ => skewRecord r l q (skewValue s l r) (skewValue s l q) s
      | [] => s
    else s) s

/-! ### Reset (R596, R600, R609, R613) -/

/-- A device reset: no state survives it but board flash and the fuses; pins keep what they have accepted. -/
def deviceReset (s : State) : State :=
  { State.reset with
    pending := s.pending, part := s.part, fresh := s.fresh, flash := s.flash, fuses := s.fuses
    harness := Harness.reset s.part
    sig := { Signals.reset with
      accepted := s.sig.accepted
      resetLow := s.sig.resetLow
      refBad := s.sig.refBad
      tripped := s.sig.tripped } }

/-- The device leaves reset: the straps are sampled (R473, R613). -/
def leaveReset (s : State) : State :=
  let a := fun i => s.sig.accepted.getD i false
  let id := boolNat (a 4) + 2 * boolNat (a 5) + 4 * boolNat (a 6)
  deviceReset { s with part := { s.part with harnessId := BitVec.ofNat 3 id, harnessSb := a 7 } }

/-- R609 -/
def thermalTrip (s : State) : State := deviceReset (modSig (fun g => { g with tripped := true }) s)

/-- One sample of the sensors, region r reading sensors 4r to 4r + 3 (R608). -/
def tempSample (sensors : List Int) (s : State) : State :=
  let s := (List.range 8).foldl (fun s r =>
    match (sensors.drop (4 * r)).take 4 with
    | [] => s
    | t :: ts =>
      let m := ts.foldl (fun (a b : Int) => if a < b then b else a) t
      setReg (rgRegs r + 0x14) (BitVec.ofNat 32 (BitVec.ofInt 16 m).toNat) s) s
  if (List.range 8).any (fun r => decide (920 ≤ rgTemp s r)) then thermalTrip s else s

/-- A command of the running device: one held in reset does nothing. -/
def running (s s' : State) : Host.Outcome State Fault Refusal := .next (if heldInReset s then s else s')

/-- REGION_CHECK (R603) -/
def execRegionCheck (readings : List RegionReading) (s : State) : Host.Outcome State Fault Refusal :=
  running s (regionCheck readings s)

/-- TEMP_SAMPLE (R608, R609) -/
def execTempSample (sensors : List Int) (s : State) : Host.Outcome State Fault Refusal := running s (tempSample sensors s)

/-- VOLTAGE_STEP (R598): the step sent last has settled. -/
def execVoltageStep (r : Fin 8) (s : State) : Host.Outcome State Fault Refusal :=
  running s (if (getRg s r.val).settling then drive r.val (modRg r.val (fun x => { x with settling := false }) s) else s)

/-- RAIL_SETTLE_TIMEOUT (R599): a rail fault. -/
def execRailSettleTimeout (r : Fin 8) (s : State) : Host.Outcome State Fault Refusal :=
  let x := getRg s r.val
  running s (if x.settling ∧ ¬ x.rail then
      railRecord r.val (putLevels (setRg r.val { x with rail := true, railGood := 0 } s))
    else s)

/-- RAIL_RETRY (R599): the failed request is sent again. -/
def execRailRetry (r : Fin 8) (s : State) : Host.Outcome State Fault Refusal :=
  let x := getRg s r.val
  running s (if x.rail then setRg r.val { x with settling := true } s else s)

/-- PLL_GLIDE_DONE (R602) -/
def execPllGlideDone (r : Fin 8) (s : State) : Host.Outcome State Fault Refusal :=
  let x := getRg s r.val
  running s (if x.gliding then drive r.val (setRg r.val { x with clk := x.level, gliding := false } s) else s)

/-- REF_LOSS (R600) -/
def execRefLoss (s : State) : Host.Outcome State Fault Refusal :=
  .next (if s.sig.refBad then s else deviceReset (modSig (fun g => { g with refBad := true }) s))

/-- REF_GOOD (R600): the device leaves reset if RESET_N is released. -/
def execRefGood (s : State) : Host.Outcome State Fault Refusal :=
  let s1 := modSig (fun g => { g with refBad := false }) s
  .next (if ¬ s.sig.refBad then s else if s.sig.resetLow ∨ s.sig.tripped then s1 else leaveReset s1)

/-- RESET_ASSERT (R613): a trip ends with it (R609). -/
def execResetAssert (s : State) : Host.Outcome State Fault Refusal :=
  .next (if s.sig.resetLow then s else deviceReset (modSig (fun g => { g with resetLow := true, tripped := false }) s))

/-- RESET_RELEASE (R613): with REF good the device leaves reset. -/
def execResetRelease (s : State) : Host.Outcome State Fault Refusal :=
  let s1 := modSig (fun g => { g with resetLow := false }) s
  .next (if ¬ s.sig.resetLow then s else if s.sig.refBad then s1 else leaveReset s1)

/-- RAIL_REMOVED (R596, R609): the pins start from their first levels with the rails. -/
def execRailRemoved (s : State) : Host.Outcome State Fault Refusal :=
  .next (if s.sig.resetLow then s else deviceReset { s with sig := Signals.reset })

/-! ### Pins and the seal (R611-R614) -/

/-- INPUT_ACCEPT (R611, R612). RESET_N has no debounce. -/
def execInputAccept (pin : Fin 8) (level : Bool) (s : State) : Host.Outcome State Fault Refusal :=
  let p := pin.val
  .next (if p = 0 ∨ s.sig.accepted.getD p false = level then s
    else modSig (fun g => { g with
      accepted := setAt g.accepted p level
      notes := mput PinNote.reset g.notes p { mget PinNote.reset g.notes p with noted := false }
      stuck := g.stuck && !(decide (p = 1) && level) }) s)

/-- An INPUT record of a pin. -/
def inputRecord (pin code : Nat) (s : State) : State :=
  let r := newReport s (unitDie 0x19 0 pin) 0x0F 0
  report { r with syndrome := BitVec.ofNat 128 code } s

/-- INPUT_TOGGLE (R611, R613): RESET_N's ignored pulses are only counted. -/
def execInputToggle (pin : Fin 8) (s : State) : Host.Outcome State Fault Refusal :=
  let p := pin.val
  let n := mget PinNote.reset s.sig.notes p
  let late : Bool := match n.last with
    | some t => decide (t.toNat + 2 ^ 30 ≤ s.uptime.toNat)
    | none => true
  let s1 := bumpSat (sigRegs + 0x40 + 4 * p) 1 s
  let mark := fun (x : PinNote) (s : State) => modSig (fun g => { g with notes := mput PinNote.reset g.notes p x }) s
  running s (if p = 0 ∨ n.noted then s1
    else if late then inputRecord p 2 (mark { noted := true, last := some s.uptime } s1)
    else mark { n with noted := true } s1)

/-- PRESENCE_STUCK (R612) -/
def execPresenceStuck (s : State) : Host.Outcome State Fault Refusal :=
  running s (if ¬ s.sig.accepted.getD 1 true ∧ ¬ s.sig.stuck then
      inputRecord 1 1 (modSig (fun g => { g with stuck := true }) s)
    else s)

/-- Level of SEAL_A in period n (R614). -/
def sealLevel (s : State) (n : Nat) : Bool := decide (srBits (leNat ((kdf s (ascii "SEAL")).take 8)) n % 2 = 1)

/-- SEAL_A begins to drive at the end of FUSE_READ. -/
def sealStart (s : State) : State := modSig (fun g => { g with sealN := some 0, sealBit := sealLevel s 0 }) s

/-- SEAL_DRIVE (R614) -/
def execSealDrive (s : State) : Host.Outcome State Fault Refusal :=
  running s (match s.sig.sealN with
    | none => s
    | some n => modSig (fun g => { g with sealN := some (n + 1), sealBit := sealLevel s (n + 1) }) s)

/-! ### Lasers and lanes (R620-R622) -/

/-- LASER_FAULT (R620): the ports of the lane group go down, each with its record. -/
def execLaserFault (g : Fin 128) (s : State) : Host.Outcome State Fault Refusal :=
  let a := oeEngineRegs (g.val / 4) + 4
  running s (if bitOf (getReg s a) (g.val % 4) then s
    else
      let s := setField a (g.val % 4) 1 1 s
      (List.range 8).foldl (fun s i =>
        let p := 8 * g.val + i
        if isPort s p then
          let s := linkDown p s
          let r := newReport s (unitCl 0x0B (p / 128) p) 5 0
          report { r with syndrome := BitVec.ofNat 128 ((2 ^ portLanes s p - 1) * 2 ^ i) } s
        else s) s)

/-- A lane with its link up has received codewords: its counters, its histogram and the worst of the window move on by
free amounts (R621). The uncorrectable codewords of the window are counted beside the histogram, where no register is. -/
def laneProgress (l : Nat) (s : State) : State :=
  if !linkUp s (portOf s l) then s
  else
    let a := laneRegs l
    let n := Config.laneBin s.fresh l
    let s := takeFresh s
    let s := addCtr (a + 0x10) (((List.range 17).map n).sum) s
    let s := addCtr (a + 0x18) (((List.range 16).map (fun i => i * n i)).sum) s
    let s := bumpSat (a + 0x20) (n 16) s
    let s := (List.range 15).foldl (fun s i => bumpSat (a + 0x34 + 4 * i) (n (i + 1)) s) s
    let worst := (List.range 16).foldl (fun m i => if n i ≠ 0 then i else m) 0
    let s := setField (a + 0xC) 4 4 (Nat.max worst (regField s (a + 0xC) 4 4)) s
    if n 16 ≠ 0 then setCtr (a + 0x30) 1 s else s

/-- The margin window of a lane ends (R621). -/
def laneWindow (l : Nat) (s : State) : State :=
  let s := laneProgress l s
  let a := laneRegs l
  let unc := decide (getCtr s (a + 0x30) ≠ 0)
  let worst := regField s (a + 0xC) 4 4
  let ok := linkUp s (portOf s l) && (getPort s (portOf s l)).steady
  setCtr (a + 0x30) 0 (setReg (a + 0xC) (BitVec.ofNat 32 ((if unc then 0 else 15 - worst) + boolNat unc * 256 + boolNat ok * 512)) s)

/-- MARGIN_WINDOW (R621): of every lane; the next window begins. A lane whose link has not been up since reset stays at its
reset value. -/
def execMarginWindow (s : State) : Host.Outcome State Fault Refusal :=
  let used := fun (s : State) (l : Nat) => linkUp s (portOf s l) || decide (getReg s (laneRegs l + 0xC) ≠ 0) ||
    decide (getCtr s (laneRegs l + 0x10) ≠ 0)
  running s
    (let s := (List.range 1024).foldl (fun s l => if used s l then laneWindow l s else s) s
     { s with ports := s.ports.map (fun e => (e.1, { e.2 with steady := e.2.linkUp })) })

/-- A write of OL_CTL (R622). -/
def olCtlWrite (l : Nat) (v : W32) (s : State) : State :=
  let a := laneRegs l
  let s := setField (a + 4) 0 1 (fld v 0 1) s
  let log := regField s (a + 0x24) 24 6
  if !bitOf v 1 || bitOf (getReg s a) 2 then s
  else if linkUp s (portOf s l) ∧ 20 ≤ log ∧ log ≤ 40 then setField a 2 2 1 s
  else setField a 2 2 2 s

/-- SCAN_GO (R622): a write of OL_CTL with SCAN_GO 1 -/
def execScanGo (by' : Initiator) (lane : Fin 1024) (v : W32) (s : State) : Host.Outcome State Fault Refusal :=
  let a := laneRegs lane.val + 4
  .next (if mayAccess s by' a 4 .write then olCtlWrite lane.val (v ||| 2) s else refuseAccess by' a s)

/-- SCAN_DONE (R622) -/
def execScanDone (lane : Fin 1024) (disagreements : W64) (s : State) : Host.Outcome State Fault Refusal :=
  let a := laneRegs lane.val
  running s (if bitOf (getReg s a) 2 then
      let n := Nat.min disagreements.toNat (2 ^ regField s (a + 0x24) 24 6)
      setCtr (a + 0x28) (BitVec.ofNat 64 n) (setField a 2 1 0 s)
    else s)

end Sys2Proof.Machine
end

