-- ==== Sys2Proof/Machine/Boot.lean ====
section
/-! DEFINITION. Boot, the boot attempt record, the firmware image check and attestation
(18_boot_identity_protection.md). -/

namespace Sys2Proof.Machine

def modBoot (f : Boot → Boot) (s : State) : State := { s with boot := f s.boot }

/-! ### The boot attempt record (R574, R575) -/

/-- Methods of a step, and whether it is optional (R572). -/
def methods (step : Nat) : Nat :=
  match step with
  | 2 => 2
  | 4 => 2
  | 5 => 2
  | 7 => 2
  | 8 => 3
  | 11 => 2
  | 12 => 2
  | _ => 1

def optionalStep (step : Nat) : Bool :=
  decide (step = 2) || decide (step = 4) || decide (step = 11) || decide (step = 12) || decide (step = 14)

/-- What the entries read so far say. -/
structure RecState where
  /-- NEXT[1..14] -/
  next : List Nat
  fails : Nat
  attempt : W16
  /-- step of the present attempt that has failed, or that has a START and nothing after it -/
  failed : Option Nat
  started : Option Nat
  /-- last failure code, and step -/
  code : Nat
  last : Nat
  /-- step that this attempt skips -/
  skip : List Nat
  deriving DecidableEq, Repr

def RecState.reset : RecState :=
  { next := List.replicate 14 1, fails := 0, attempt := 0, failed := none, started := none, code := 0, last := 0, skip := [] }

def nextOf (next : List Nat) (step : Nat) : Nat := next.getD (step - 1) 1

/-- A new start: the failure of the attempt before it moves FAILS and NEXT (R574). -/
def RecState.newStart (r : RecState) : RecState :=
  match (match r.failed with
    | some f => some f
    | none => r.started) with
  | none => { r with failed := none, started := none, skip := [] }
  | some f =>
    let n := nextOf r.next f + 1
    let wrap := decide (methods f < n)
    { r with failed := none, started := none, fails := r.fails + 1, last := f,
             next := setAt r.next (f - 1) (if wrap then 1 else n), skip := if wrap && optionalStep f then [f] else [] }

/-- Read one entry. -/
def RecState.read (r : RecState) (e : BootEntry) : RecState :=
  match e.event with
  | 1 => { r.newStart with attempt := e.attempt }
  | 2 => { r with started := some e.step }
  | 3 => { r with started := none }
  | 4 => { r with started := none, failed := some e.step, code := e.data.toNat % 256 }
  | 5 => { r with started := none }
  | 6 => { r with started := none, failed := none, fails := 0 }
  | 7 =>
    { r with next := (List.range 14).map (fun i => bitsOf e.data.toNat (4 * i) 4), fails := bitsOf e.data.toNat 56 8,
             attempt := e.attempt }
  | _ => r

/-- What the active sector says. -/
def readRecord (s : State) : RecState := s.flash.record.foldl (fun r e => r.read e) RecState.reset

/-- DATA of a SUMMARY. -/
def summaryData (next : List Nat) (fails : Nat) : Nat :=
  ((List.range 14).map (fun i => next.getD i 1 % 16 * 2 ^ (4 * i))).sum + Nat.min fails 255 * 2 ^ 56

def summaryEntry (next : List Nat) (fails : Nat) (attempt : W16) : BootEntry :=
  { step := 0, method := 0, event := 7, attempt := attempt, data := BitVec.ofNat 64 (summaryData next fails) }

/-- Append an entry; a full sector of 4,096 entries gives way to the other, which starts with a SUMMARY: before an ATTEMPT, of
what the failure of the attempt before it has made of NEXT and FAILS. -/
def appendEntry (e : BootEntry) (s : State) : State :=
  let r := if e.event = 1 then (readRecord s).newStart else readRecord s
  if 4096 ≤ s.flash.record.length then
    { s with flash := { s.flash with record := [summaryEntry r.next r.fails r.attempt, e], sector := 1 - s.flash.sector } }
  else { s with flash := { s.flash with record := s.flash.record ++ [e] } }

/-- An entry of the present attempt; without a record there is none. -/
def note (step method event data : Nat) (s : State) : State :=
  if s.boot.noRecord then s
  else appendEntry { step := step, method := method, event := event, attempt := s.boot.attempt, data := BitVec.ofNat 64 data } s

/-- Write NEXT and FAILS into the record now. -/
def writeSummary (next : List Nat) (fails : Nat) (attempt : W16) (s : State) : State :=
  modBoot (fun b => { b with next := next }) (appendEntry (summaryEntry next fails attempt) s)

/-! ### Firmware images (R577) -/

def zeroBytes (img : List Byte) (a b : Nat) : Bool := ((img.drop a).take (b - a)).all (fun x => decide (x = 0))

def payloadLen (img : List Byte) : Nat := leAt img 20 4

def imageFormat (img : List Byte) : Bool :=
  decide (img.take 8 = ascii "NRN-TACK") && decide (leAt img 8 2 = 1) && decide (leAt img 10 1 < 4) && zeroBytes img 11 12 &&
    decide (leAt img 12 4 ≤ 64) && decide (1 ≤ payloadLen img) && decide (payloadLen img ≤ 16776704) && zeroBytes img 24 32 &&
    zeroBytes img 165 256 && zeroBytes img 388 512 && decide (512 + payloadLen img ≤ img.length)

def imagePayload (img : List Byte) : List Byte := (img.drop 512).take (payloadLen img)

def rootOk (s : State) (img : List Byte) : Bool :=
  let k := leAt img 10 1
  let ctl := (fuseWord s 96).toNat
  decide (bitsOf ctl k 1 = 1) && decide (bitsOf ctl (4 + k) 1 = 0) &&
    decide (sha512 ((img.drop 32).take 133) = fuseBytes s (32 + 16 * k) 16)

def signatureOk (img : List Byte) : Bool :=
  ecdsaVerify ((img.drop 32).take 133) ((img.drop 256).take 132) (img.take 256 ++ imagePayload img)

/-- The failure code of R573 that an image meets; 0: accepted. -/
def imageCheck (s : State) (img : List Byte) : Nat :=
  if !imageFormat img then 2
  else if !rootOk s img then 5
  else if leAt img 12 4 < svnFuse s then 6
  else if !signatureOk img then 2
  else 0

/-- M of R577. -/
def measurement (s : State) (img : List Byte) (source : Nat) : List Byte :=
  sha512 (img.take 512 ++ sha512 (imagePayload img) ++ leBytes 4 (fuseWord s 16).toNat ++
    [96, 97, 98, 99].flatMap (fun w => leBytes 4 (fuseWord s w).toNat) ++ [BitVec.ofNat 8 source] ++ leBytes 4 s.boot.farGen.toNat)

/-- Zero bytes up to a length. -/
def padBytes (n : Nat) (l : List Byte) : List Byte := l ++ List.replicate (n - l.length) (0 : Byte)

/-- The attestation window (R577, R580). -/
def attestWindow (s : State) (m : List Byte) : List Byte :=
  let ak := publicKey (attestKey s m)
  padBytes 512 (padBytes 136 ak ++ (padBytes 136 (ecdsaSign (idKey s) (ak ++ m)) ++ (padBytes 136 (publicKey (idKey s)) ++ (fuseBytes s 17 2 ++ m))))

/-- The ROM runs an image it has accepted. -/
def runImage (img : List Byte) (source : Nat) (s : State) : State :=
  let m := measurement s img source
  modBoot (fun b => { b with running := true, version := BitVec.ofNat 32 (leAt img 16 4), svn := leAt img 12 4, source := source,
                             measBoot := m, meas := m, window := attestWindow s m, evtWait := false }) s

/-- The slot that method 1 or 2 of FW_LOAD takes: slot B or not. -/
def slotChoice (s : State) (method : Nat) : Bool :=
  let a := s.flash.slotA
  let b := s.flash.slotB
  let best := imageFormat b && (!imageFormat a || decide (leAt a 16 4 < leAt b 16 4))
  if method = 1 then best else !best

/-! ### The farrier map at boot (R55, R564, R565) -/

/-- Unit that a UNIT entry names. -/
def feUnit (e : BitVec 256) : W32 :=
  let ty := feLoc e % 256
  let i := feLoc e / 256
  if ty ≤ 0x0F ∨ ty = 0x13 ∨ ty = 0x14 ∨ ty = 0x18 then unitCl ty (feCl e) i else unitDie ty (feDie e) i

/-- A tile leaves the logical map. -/
def retireAtBoot (cl t : Nat) (s : State) : State :=
  let s := modHUnit (hkey 1 cl t) (fun x => { x with retired := true }) s
  match tileRole s cl t with
  | some p => { s with tilePhys := mput p s.tilePhys (cl * 9 + p) 9 }
  | none => s

/-- A unit is OFFLINE from the start. -/
def offlineAtBoot (u : W32) (s : State) : State :=
  if isOffline s u then s
  else offlineEffect u { s with err := { s.err with offline := s.err.offline ++ [u], offlineCount := s.err.offlineCount + 1 } }

/-- Apply one entry, with the earlier ones: a REPAIR beyond the level's spares retires the tile or the unit. -/
def applyMapEntry (before : List (BitVec 256)) (e : BitVec 256) (s : State) : State :=
  let t := feLoc e % 16
  let same := ((before.filter (fun (x : BitVec 256) =>
    decide (feAction x = 0) && decide (feLevel x = feLevel e) && decide (feCl x = feCl e) && decide (feLoc x % 16 = t))).map feLoc).eraseDups
  match feAction e, feLevel e with
  | 0, 0 => if 4 ≤ (same.filter (fun l => decide (l ≠ feLoc e))).length then retireAtBoot (feCl e) t s else s
  | 0, 1 => if 1 ≤ (same.filter (fun l => decide (l ≠ feLoc e))).length then retireAtBoot (feCl e) t s else s
  | 0, 3 =>
    let b := feLoc e % 64
    let peer := feLoc e / 64 % 4
    let lane := feLoc e / 256 % 8
    let k := bundleKey peer (feDie e) b
    let x := getBundle s k
    if x.failed.contains lane then s
    else
      let s := setBundle k { x with failed := x.failed ++ [lane] } s
      if x.failed.isEmpty then s else offlineAtBoot (bundleUnit peer (feDie e) b) s
  | 1, 2 => retireAtBoot (feCl e) t s
  | 1, _ => offlineAtBoot (feUnit e) s
  | _, _ => s

/-- Apply a list of entries in order. -/
def applyMapList (before es : List (BitVec 256)) (s : State) : State :=
  match es with
  | [] => s
  | e :: r => applyMapList (before ++ [e]) r (applyMapEntry before e s)

/-- Boot applies both parts of the map. -/
def applyMap (s : State) : State :=
  let es := productionEntries s ++ purge s.health.entries
  applyBands (applyMapList [] es { s with health := { s.health with bands := es.filter isBand } })

/-- The copy a method takes: 1 the newest valid copy, 2 the other; `none`: it is not valid. -/
def chooseCopy {α : Type} (a b : Option (W32 × α)) (method : Nat) : Option (W32 × α) :=
  let newestA : Bool := match a, b with
    | some x, some y => decide (0 ≤ (x.1 - y.1).toInt)
    | some _, none => true
    | none, _ => false
  if decide (method = 1) = newestA then a else b

/-! ### The configuration store (R570, R572) -/

/-- Registers that Tack's configuration commands set: lane groups, ports, harness route table. -/
def isConfigReg (a : Nat) : Bool :=
  (List.range 32).any (fun k => (decide (oeRegs k ≤ a) && decide (a < oeRegs k + 0x10)) ||
    (decide (oeRegs k + 0x100 ≤ a) && decide (a < oeRegs k + 0x300) && decide (a % 16 = 0))) ||
  (decide (hsRegs + 0x100 ≤ a) && decide (a < hsRegs + 0x220))

def configNow (s : State) : ConfigStore :=
  { regs := (if s.harness.role = 2 then [(0, 1)] else []) ++ s.regs.filter (fun e => isConfigReg e.1), mgmt := s.mgmt,
    parts := s.harness.parts }

/-- Step PORTS: the store's settings, lane groups before ports (R484's rules hold). -/
def restoreConfig (c : ConfigStore) (s : State) : State :=
  let get := fun (a : Nat) => mget (regReset a) c.regs a
  let s := { s with mgmt := c.mgmt, harness := { s.harness with parts := c.parts } }
  let s := if (mget 0 c.regs 0) = 1 then setRelay true s else s
  let s := (List.range 128).foldl (fun s g => laneGroupMode g (fld (get (lgRegs g)) 0 2) s) s
  let s := c.regs.foldl (fun s e => if hsRegs ≤ e.1 then setReg e.1 e.2 s else s) s
  (List.range 1024).foldl (fun s l => if isPort s l then portCfgWrite l (get (portRegs l)) s else s) s

/-! ### Steps (R572, R573) -/

/-- LPD_CFG of every die, as trained (R200): one rate for all channels; method 2 trains at 8,533 MT/s only. -/
def trainLpddr (method dead : Nat) (s : State) : State :=
  let rate := if method = 2 then 1 else 1 + Config.lpdRate s.fresh % 3
  let ranks := fun (d : Nat) => boolNat (Config.lpdTwoRanks (s.fresh + d))
  let s' := (List.range 4).foldl (fun s d =>
    let cap := match s.part.lpdGib.getD d 0 with
      | 16 => 1
      | 32 => 2
      | 64 => 3
      | _ => 0
    setReg (memRegs d + 0x20)
      (BitVec.ofNat 32 (if cap = 0 ∨ bitsOf dead d 1 = 1 then 0 else rate + cap * 4 + ranks d * 16)) s) s
  { s' with fresh := s.fresh + 4 }

/-- What a step's success does; `data`: the dies that LPD_TRAIN leaves unpopulated. -/
def stepEffect (step method data : Nat) (s : State) : State :=
  match step with
  | 1 => sealStart s
  | 4 =>
    match chooseCopy s.flash.far0 s.flash.far1 method with
    | some c => applyMap (modBoot (fun b => { b with farGen := c.1 }) { s with health := { s.health with entries := c.2, gen := c.1 } })
    | none => s
  | 10 => { s with err := { s.err with recEn := true } }
  | 11 => trainLpddr method data s
  | 12 =>
    match chooseCopy s.flash.keys0 s.flash.keys1 method with
    | some c => { s with keys := c.2 }
    | none => s
  | 14 =>
    match s.flash.store with
    | some c => restoreConfig c s
    | none => s
  | _ => s

/-- What skipping an optional step leaves to do: the production part still applies. -/
def skipEffect (step : Nat) (s : State) : State := if step = 4 then applyMap s else s

/-- The attempt without a record skips these (R575). -/
def skipped (s : State) (step : Nat) : Bool :=
  s.boot.skip.contains step || (s.boot.noRecord && (decide (step = 4) || decide (step = 12) || decide (step = 14)))

/-- Begin a step with a method. Method 3 of FW_LOAD brings up the Evtos link and waits for an image, unless fuses forbid. -/
def beginStep (step method : Nat) (tried : List Nat) (s : State) : State :=
  let evt := decide (step = 8) && decide (method = 3) && !bitOf (fuseWord s 99) 1
  let s := note step method 2 s.uptime.toNat (modBoot (fun b => { b with step := step, method := method, tried := tried, evtWait := evt }) s)
  if evt ∧ s.evtWidth = 0 then { s with evtWidth := 16 } else s

/-- Go on to a step, skipping those the attempt skips; after the last one the attempt has reached BOOTED. -/
def goOn (fuel step : Nat) (s : State) : State :=
  match fuel with
  | 0 => s
  | k + 1 =>
    if 14 < step then note 0 0 6 s.uptime.toNat (modBoot (fun b => { b with booted := true, active := false }) s)
    else if skipped s step then
      let s := note step 0 5 0 (modBoot (fun b => { b with step := step, method := 0 }) s)
      goOn k (step + 1) (skipEffect step s)
    else beginStep step (if s.boot.noRecord then (if step = 8 then 3 else 1) else nextOf s.boot.next step) [] s

/-- BOOT_FAILED (R575) -/
def bootFailed (step code : Nat) (s : State) : State :=
  modBoot (fun b => { b with failed := true, active := false, step := step, code := code, failedAt := s.uptime }) s

/-- The method in progress fails (R573-R575). -/
def stepFails (code : Nat) (s : State) : State :=
  let b := s.boot
  let s := modBoot (fun b => { b with code := code, evtWait := false }) s
  let twice := decide (b.step = 2) || decide (b.step = 4) || decide (b.step = 12)
  if twice ∧ b.tried = [] then beginStep b.step (3 - b.method) [b.method] s
  else if b.step = 2 then
    goOn 15 3 (modBoot (fun b => { b with noRecord := true, next := List.replicate 14 1, skip := [] }) s)
  else if b.noRecord then bootFailed b.step code s
  else leaveReset (note b.step b.method 4 code s)

/-- The step in progress completes. -/
def stepDone (data : Nat) (s : State) : State :=
  let b := s.boot
  let d := if b.step = 11 then s.uptime.toNat / 16 * 16 + data % 16 else s.uptime.toNat
  goOn 15 (b.step + 1) (note b.step b.method 3 d (stepEffect b.step b.method data s))

/-- What the ROM or Tack finds of its own accord in a step whose outcome the state decides: a failure code, or 0. -/
def stepFinding (s : State) : Nat :=
  let b := s.boot
  match b.step with
  | 4 => if (chooseCopy s.flash.far0 s.flash.far1 b.method).isNone then 2 else 0
  | 12 => if (chooseCopy s.flash.keys0 s.flash.keys1 b.method).isNone then 2 else 0
  | 8 =>
    if b.method = 3 then 7
    else imageCheck s (if slotChoice s b.method then s.flash.slotB else s.flash.slotA)
  | _ => 0

/-- BOOT_ATTEMPT (R574): at the release of reset the ROM reads the record. -/
def bootAttempt (s : State) : State :=
  if heldInReset s || s.boot.active || s.boot.booted || s.boot.failed then s
  else
    let rearmed := !s.sig.accepted.getD 1 true && !s.sig.stuck
    let s := if rearmed then
        let a := (readRecord s).attempt
        modBoot (fun b => { b with rearmed := true }) (appendEntry (summaryEntry (List.replicate 14 1) 0 a) s)
      else s
    let r := (readRecord s).newStart
    let s := modBoot (fun b => { b with next := r.next, fails := r.fails, code := r.code, skip := r.skip, attempt := r.attempt + 1 }) s
    if 4 ≤ r.fails then bootFailed r.last r.code s
    else goOn 15 1 (note 0 0 1 s.uptime.toNat (modBoot (fun b => { b with active := true }) s))

/-- BOOT_ATTEMPT (R574) -/
def execBootAttempt (s : State) : Host.Outcome State Fault Refusal := .next (bootAttempt s)

/-- BOOT_STEP_COMPLETE (R572, R573): the method in progress reports success (0) or a failure code of R573. A step that the
state decides fails with what it finds; method 3 of FW_LOAD completes with BOOT_EVT_LEN. -/
def execBootStepComplete (code : BitVec 8) (data : W64) (s : State) : Host.Outcome State Fault Refusal :=
  .next (if !s.boot.active || decide (8 < code.toNat) || (s.boot.evtWait && decide (code = 0)) then s
    else if code ≠ 0 then stepFails code.toNat s
    else if stepFinding s ≠ 0 then stepFails (stepFinding s) s
    else if s.boot.step = 8 then
      let b := slotChoice s s.boot.method
      stepDone 0 (runImage (if b then s.flash.slotB else s.flash.slotA) (boolNat b) s)
    else stepDone data.toNat s)

/-- BOOT_STEP_TIMEOUT (R573) -/
def execBootStepTimeout (s : State) : Host.Outcome State Fault Refusal :=
  .next (if s.boot.active then stepFails 1 s else s)

/-- A write of BOOT_EVT_LEN (R578): acts only while EVT_WAIT is 1. -/
def evtLenWrite (v : W32) (s : State) : State :=
  let n := fld v 0 25
  if !s.boot.evtWait || decide (n < 513) || decide (16777216 < n) then s
  else
    let (bs, s) := readMem 0 n 1 s
    let img := bytesOf bs
    let c := imageCheck s img
    if anyPoison bs then stepFails 4 s
    else if c ≠ 0 then stepFails c s
    else stepDone 0 (runImage img 2 s)

/-- BOOT_EVT_LEN (R578) -/
def execBootEvtLen (by' : Initiator) (v : W32) (s : State) : Host.Outcome State Fault Refusal :=
  pl0Write by' (bootRegs + 8) (evtLenWrite v) s

/-- A write of BOOT_CTL (R590): REARM. Without a record nothing can be written into one. -/
def rearmWrite (v : W32) (s : State) : State :=
  if bitOf v 0 ∧ ¬ s.boot.noRecord then writeSummary (List.replicate 14 1) 0 s.boot.attempt s else s

/-- REARM (R590) -/
def execRearm (by' : Initiator) (v : W32) (s : State) : Host.Outcome State Fault Refusal :=
  pl0Write by' (bootRegs + 0x14) (rearmWrite v) s

end Sys2Proof.Machine
end

