-- ==== Sys2Proof/Machine/Cvu.lean ====
section
/-! DEFINITION. Check-value units (13_transport_and_links.md, R466-R469). A write takes effect at once, in order; what it takes
to consume it shows in BUSY, by the ARITH cycles of the cluster's region. -/

namespace Sys2Proof.Machine

def getCvu (s : State) (cl n : Nat) : Cvu := mget Cvu.reset s.cvus (cl * 16 + n)

def setCvu (cl n : Nat) (x : Cvu) (s : State) : State := { s with cvus := mput Cvu.reset s.cvus (cl * 16 + n) x }

/-- CRC that POLY selects, as it is in force. -/
def cvuSpec (s : State) (cl n : Nat) : CrcSpec := crcSpec ((getCvu s cl n).cfg.toNat % 4)

def cvuNow (s : State) (cl : Nat) : Nat := (s.arithCount.getD cl 0).toNat

/-- BUSY (R469): the unit is still consuming a write. -/
def cvuBusy (s : State) (cl n : Nat) : Bool := decide (cvuNow s cl < (getCvu s cl n).busyTo)

/-- Feed bytes (R466). -/
def cvuFeed (cl n : Nat) (bs : List Byte) (s : State) : State :=
  let x := getCvu s cl n
  let c := cvuSpec s cl n
  setCvu cl n { x with reg := BitVec.ofNat 64 (crcFeed c (x.reg.toNat % 2 ^ c.width) bs) } s

/-- A write of data (R466): a write that comes while another is being consumed waits its turn; words take two ARITH cycles. -/
def cvuData (cl n : Nat) (bs : List Byte) (s : State) : State :=
  let s := cvuFeed cl n bs s
  let x := getCvu s cl n
  setCvu cl n { x with busyTo := Nat.max x.busyTo (cvuNow s cl) + (if bs.length = 4 then 2 else 1) } s

/-- CVU_CFG has been written: while data is being consumed, the new setting waits for the next START (R469). -/
def cvuConfigured (cl n : Nat) (s : State) : State :=
  if cvuBusy s cl n then s
  else setCvu cl n { getCvu s cl n with cfg := BitVec.ofNat 4 (regField s (cvuRegs cl n) 0 4) } s

/-- START (R467) -/
def cvuStart (cl n : Nat) (s : State) : State :=
  let x := getCvu s cl n
  let s := setCvu cl n { x with cfg := BitVec.ofNat 4 (regField s (cvuRegs cl n) 0 4) } s
  setCvu cl n { getCvu s cl n with reg := BitVec.ofNat 64 (cvuSpec s cl n).init, matched := false } s

/-- The value FOLD selects (R468). -/
def cvuFold (s : State) (cl n : Nat) : List Byte :=
  let b := cvuRegs cl n
  match (getCvu s cl n).cfg.toNat / 4 with
  | 1 => leBytes 4 (getReg s (b + 0xC)).toNat
  | 2 => leBytes 4 (getReg s (b + 0x1C)).toNat
  | _ => []

/-- FINISH (R467): fold, final XOR, RESULT, MATCH, then ALIVE. The register keeps what the folded value left. -/
def cvuFinish (cl n : Nat) (s : State) : State :=
  let b := cvuRegs cl n
  let s := cvuFeed cl n (cvuFold s cl n) s
  let x := getCvu s cl n
  let c := cvuSpec s cl n
  let r := (x.reg.toNat % 2 ^ c.width) ^^^ c.xorOut
  let e := (getReg s (b + 0x28)).toNat + (getReg s (b + 0x2C)).toNat * 2 ^ 32
  let s := setCtr (b + 0x20) (BitVec.ofNat 64 r) s
  let s := if r = e then setCvu cl n { x with matched := true } s else s
  if (getCvu s cl n).cfg.toNat / 4 = 1 then bumpWrap (b + 0xC) 1 s else s

/-- A write to one of the unit's acting registers. -/
def cvuWrite (by' : Initiator) (cl n off : Nat) (f : State → State) (s : State) : Host.Outcome State Fault Refusal :=
  let a := cvuRegs cl n + off
  .next (if mayAccess s by' a 4 .write then f s else refuseAccess by' a s)

/-- CVU_CTL as it is written: both bits act as START. -/
def cvuCtl (cl n : Nat) (v : W32) (s : State) : State :=
  if bitOf v 0 then cvuStart cl n s else if bitOf v 1 then cvuFinish cl n s else s

/-- CVU_DATA8 (R466) -/
def execCvuData8 (by' : Initiator) (cl : Fin 8) (n : Fin 16) (v : W32) (s : State) : Host.Outcome State Fault Refusal :=
  cvuWrite by' cl.val n.val 0x10 (cvuData cl.val n.val (leBytes 1 v.toNat)) s

/-- CVU_DATA16 (R466) -/
def execCvuData16 (by' : Initiator) (cl : Fin 8) (n : Fin 16) (v : W32) (s : State) : Host.Outcome State Fault Refusal :=
  cvuWrite by' cl.val n.val 0x14 (cvuData cl.val n.val (leBytes 2 v.toNat)) s

/-- CVU_DATA32 (R466) -/
def execCvuData32 (by' : Initiator) (cl : Fin 8) (n : Fin 16) (v : W32) (s : State) : Host.Outcome State Fault Refusal :=
  cvuWrite by' cl.val n.val 0x18 (cvuData cl.val n.val (leBytes 4 v.toNat)) s

/-- CVU_START (R467) -/
def execCvuStart (by' : Initiator) (cl : Fin 8) (n : Fin 16) (s : State) : Host.Outcome State Fault Refusal :=
  cvuWrite by' cl.val n.val 4 (cvuCtl cl.val n.val 1) s

/-- CVU_FINISH (R467) -/
def execCvuFinish (by' : Initiator) (cl : Fin 8) (n : Fin 16) (s : State) : Host.Outcome State Fault Refusal :=
  cvuWrite by' cl.val n.val 4 (cvuCtl cl.val n.val 2) s

end Sys2Proof.Machine
end

