-- ==== Sys2Proof/Machine/Dose.lean ====
section
/-! DEFINITION. The dose engine (10_parameter_update.md): schedule descriptors, their evaluation in FP64 with the
correctly rounded pown and cospi, requests and answers. -/

namespace Sys2Proof.Machine

/-! ### Rounded arithmetic that gathers flags (R146-R149) -/

/-- Arithmetic that gathers the exceptions of its operations. -/
abbrev FM (α : Type) := StateM Exc α

/-- Round an exact result into a format: the encoding. -/
def encodeM (f : Fmt) (rnd : Rnd) (r : Nat) (x : FVal × Exc) : FM Nat := fun e =>
  let (b, y) := finish f .ieee rnd r x
  (b, e.or y)

/-- One operation rounded under RNE into a format. -/
def opM (f : Fmt) (x : FVal × Exc) : FM FVal := do
  let b ← encodeM f .rne 0 x
  pure (decodeF f b)

def op32 (x : FVal × Exc) : FM FVal := opM fp32 x
def op64 (x : FVal × Exc) : FM FVal := opM fp64 x

/-- A value converted: a signalling NaN raises invalid (R142). -/
def asIs (x : FVal) : FVal × Exc := (x, { invalid := x.signalling })

def natVal (n : Nat) : FVal := .fin false n 0

def oneVal : FVal := natVal 1

/-- a - b (R148: a NaN operand keeps its sign). -/
def subExact (a b : FVal) : FVal × Exc := addExact .rne a (if b.isNan then b else b.neg)

/-- Is a smaller than b, for finite values? -/
def ltVal (a b : FVal) : Bool := a.dy.lt b.dy

/-- x^n before rounding: exact for a finite x; pown(x, 0) is 1 (R366). -/
def pownExact (x : FVal) (n : Nat) : FVal × Exc :=
  if n = 0 then (oneVal, Exc.none)
  else
    match x with
    | .fin s m e => (.fin (s && decide (n % 2 = 1)) (m ^ n) (e * n), Exc.none)
    | .inf s => (.inf (s && decide (n % 2 = 1)), Exc.none)
    | .nan s p => (.nan s (p ||| quietBit), { invalid := x.signalling })

/-! ### cospi, correctly rounded (R380; DEDUCED, log entry 27)

An enclosure of cos(pi x) of `w` fraction bits is narrowed until both of its ends round alike. -/

/-- arctan(1/n) in units of 2^-w, cut off. -/
def atanInv (fuel n : Nat) (power : Nat) (k : Nat) : Int :=
  match fuel with
  | 0 => 0
  | j + 1 =>
    let t : Int := (power / (2 * k + 1) : Nat)
    (if k % 2 = 0 then t else -t) + atanInv j n (power / (n * n)) (k + 1)

/-- pi in units of 2^-w, by Machin's formula. -/
def piFixed (w : Nat) : Int :=
  16 * atanInv (w / 4 + 8) 5 (2 ^ w / 5) 0 - 4 * atanInv (w / 4 + 8) 239 (2 ^ w / 239) 0

/-- Terms of the series of sine (from degree 1) or cosine (from degree 0) of y, all in units of 2^-w. -/
def trigSeries (fuel w : Nat) (y2 term : Int) (deg : Nat) : Int :=
  match fuel with
  | 0 => 0
  | j + 1 => term + trigSeries j w y2 (-(term * y2 / 2 ^ w / ((deg + 1) * (deg + 2) : Nat))) (deg + 2)

/-- cos(pi x) for x = m / 2^k in [0, 1/2], in units of 2^-w. -/
def cosHalf (w m k : Nat) : Int :=
  let pi := piFixed w
  if 4 * m ≤ 2 ^ k then
    let y := pi * m / 2 ^ k
    trigSeries (w / 4 + 8) w (y * y / 2 ^ w) (2 ^ w) 0
  else
    let y := pi * ((2 ^ k : Nat) - 2 * m : Int) / 2 ^ (k + 1)
    trigSeries (w / 4 + 8) w (y * y / 2 ^ w) y 1

/-- FP64 bits of v 2^-w. -/
def roundFixed (v : Int) (w : Nat) : Nat := (finish fp64 .ieee .rne 0 (.fin (decide (v < 0)) v.natAbs (-(w : Int)), Exc.none)).1

/-- Narrow the enclosure until its ends agree. -/
def cosRound (fuel w m k : Nat) : Nat :=
  let v := cosHalf w m k
  let lo := roundFixed (v - 2 ^ 20) w
  let hi := roundFixed (v + 2 ^ 20) w
  match fuel with
  | 0 => lo
  | j + 1 => if lo = hi then lo else cosRound j (2 * w) m k

/-- cospi of x in [0, 1]: exact at 0, 1/2 and 1. -/
def cospi (x : FVal) : FVal :=
  match x with
  | .fin _ m e =>
    -- x = m / 2^k
    let k := (-e).toNat
    let m := if e < 0 then m else m * 2 ^ e.toNat
    if m = 0 then oneVal
    else if 2 * m = 2 ^ k then .zero false
    else if m = 2 ^ k then oneVal.neg
    else if 2 * m < 2 ^ k then decodeF fp64 (cosRound 6 256 m k)
    else (decodeF fp64 (cosRound 6 256 (2 ^ k - m) k)).neg
  | _ => .canon

/-! ### The schedule (R378-R380) -/

def scKind (d : Nat) : Nat := bitsOf d 0 2
def scRestart (d : Nat) : Bool := decide (bitsOf d 2 1 = 1)
def scMult (d : Nat) : Nat := bitsOf d 3 5
def scW (d : Nat) : Nat := bitsOf d 32 32
def scD (d : Nat) : Nat := bitsOf d 64 32
def scInit (d : Nat) : Nat := bitsOf d 128 64
def scPeak (d : Nat) : Nat := bitsOf d 192 64
def scMin (d : Nat) : Nat := bitsOf d 256 64
def scGamma (d : Nat) : Nat := bitsOf d 320 64
def scPeakMult (d : Nat) : Nat := bitsOf d 384 64

/-- A rate of R379: finite, sign bit 0, at most the largest finite FP32 value. -/
def rateOk (x : Nat) : Bool := decide (x ≤ 0x47EF_FFFF_E000_0000)

/-- In (0, 1]. -/
def unitOk (x : Nat) : Bool := decide (0 < x) && decide (x ≤ 0x3FF0_0000_0000_0000)

def scheduleBad (d : Nat) : Bool :=
  decide (bitsOf d 8 24 ≠ 0) || decide (bitsOf d 96 32 ≠ 0) || decide (bitsOf d 448 64 ≠ 0) || decide (scD d = 0) ||
    (if scRestart d then decide (scMult d = 0) || decide (16 < scMult d) || !unitOk (scPeakMult d)
     else decide (scMult d ≠ 0) || decide (scPeakMult d ≠ 0)) ||
    (if scKind d = 3 then !unitOk (scGamma d) else decide (scGamma d ≠ 0)) ||
    !(rateOk (scInit d) && rateOk (scPeak d) && rateOk (scMin d))

/-- The restarts of a growing cycle: what is left of u, the cycle's length, its peak. -/
def restartLoop (fuel mult : Nat) (pm : FVal) (u l : Nat) (peak : FVal) : FM (Nat × Nat × FVal) :=
  match fuel with
  | 0 => pure (u, l, peak)
  | k + 1 =>
    if u < l then pure (u, l, peak)
    else do
      let p ← op64 (mulExact peak pm)
      restartLoop k mult pm (u - l) (Nat.min (l * mult) (2 ^ 40)) p

/-- The FP64 rate of step `t`, before to_f32 (R380). -/
def doseRate (d t : Nat) : FM FVal := do
  let w := scW d
  let peak0 := decodeF fp64 (scPeak d)
  let ini := decodeF fp64 (scInit d)
  let mn := decodeF fp64 (scMin d)
  if t < w then
    let x ← op64 (divExact (natVal t) (natVal w))
    let y ← op64 (subExact peak0 ini)
    let z ← op64 (mulExact y x)
    op64 (addExact .rne ini z)
  else
    let u := t - w
    let pm := decodeF fp64 (scPeakMult d)
    let (u, l, peak) ← (if scRestart d ∧ scMult d = 1 then do
        let k := u / scD d
        let p ← op64 (pownExact pm k)
        let p ← op64 (mulExact peak0 p)
        pure (u - k * scD d, scD d, p)
      else if scRestart d then restartLoop 40 (scMult d) pm u (scD d) peak0
      else pure (Nat.min u (scD d), scD d, peak0))
    let f ← op64 (divExact (natVal u) (natVal l))
    match scKind d with
    | 0 => pure peak
    | 1 =>
      let a ← op64 (subExact peak mn)
      let b ← op64 (subExact oneVal f)
      let c ← op64 (mulExact a b)
      op64 (addExact .rne mn c)
    | 2 =>
      let a ← op64 (subExact peak mn)
      let b ← op64 (addExact .rne oneVal (cospi f))
      let c ← op64 (mulExact (.fin false 1 (-1)) b)
      let e ← op64 (mulExact a c)
      op64 (addExact .rne mn e)
    | _ =>
      let g ← op64 (pownExact (decodeF fp64 (scGamma d)) u)
      let p ← op64 (mulExact peak g)
      pure (if ltVal p mn then mn else p)

/-- FP64 and FP32 answers. -/
def doseValue (d t : Nat) : W64 × W32 :=
  let x := (doseRate d t Exc.none).1
  (BitVec.ofNat 64 (finish fp64 .ieee .rne 0 (x, Exc.none)).1, BitVec.ofNat 32 (finish fp32 .ieee .rne 0 (x, Exc.none)).1)

/-! ### Requests (R381, R382, R389) -/

/-- The dose engine reads a schedule for a requester: the descriptor, or the reason it would halt with (R379). -/
def readSchedule (r : DoseReq) (s : State) : Except Nat Nat × State :=
  let a := r.addr.toNat
  let bad := (if closedRegion s a 64 || !allowed s r.init a 64 .read then [0x0D] else []) ++
    (if decide (a + 64 ≤ 2 ^ 48) && memMapped s a 64 then [] else [0x04])
  match firstReason bad with
  | some x => (.error x, s)
  | none =>
    let (bs, s) := readMem a 64 1 s
    let d := leNat (bytesOf bs)
    if anyPoison bs then (.error 0x0A, s)
    else if scheduleBad d then (.error 0x02, s)
    else (.ok d, s)

/-- Evaluate, or recall one of the 16 most recent evaluations. -/
def recallOrEvaluate (d t : Nat) (s : State) : State × W64 × W32 :=
  match s.dose.recent.find? (fun e => decide (e.desc.toNat = d ∧ e.t.toNat = t)) with
  | some e => (bumpWrap (doseRegs + 8) 1 s, e.lr64, e.lr)
  | none =>
    let (x, y) := doseValue d t
    let e : DoseEval := { desc := BitVec.ofNat 512 d, t := BitVec.ofNat 32 t, lr64 := x, lr := y }
    (bumpWrap (doseRegs + 4) 1 { s with dose := { s.dose with recent := (e :: s.dose.recent).take 16 } }, x, y)

/-- Hand an answer to its requester: a PUE's waits for DOSE_ANSWER; a test request's goes to the test registers. -/
def giveAnswer (r : DoseReq) (reason : Nat) (lr64 : W64) (lr : W32) (s : State) : State :=
  match r.cl with
  | some cl => { s with dose := { s.dose with answers := mset s.dose.answers cl { serial := r.serial, reason := reason, lr := lr } } }
  | none =>
    let a := doseRegs + 0x1C
    if reason = 0 then setReg a 2 (setReg (doseRegs + 0x20) lr (setCtr (doseRegs + 0x24) lr64 s))
    else setReg a (BitVec.ofNat 32 (6 + reason * 256)) s

/-- DOSE_EVALUATE (R380, R381): the oldest request is served. -/
def execDoseEvaluate (s : State) : Host.Outcome State Fault Refusal :=
  .next (match s.dose.reqs with
    | [] => s
    | r :: rest =>
      let s := { s with dose := { s.dose with reqs := rest } }
      match readSchedule r s with
      | (.error x, s) => giveAnswer r x 0 0 s
      | (.ok d, s) =>
        let (s, x, y) := recallOrEvaluate d r.t.toNat s
        giveAnswer r 0 x y s)

/-- Queue a request (R382). -/
def askDose (cl : Option Nat) (addr : W48) (t : W32) (init : Initiator) (s : State) : State :=
  let d := s.dose
  let r : DoseReq := { cl := cl, serial := d.serial, addr := addr, t := t, init := init }
  { s with dose := { d with
      serial := d.serial + 1,
      reqs := d.reqs.filter (fun x => decide (x.cl ≠ cl)) ++ [r],
      answers := match cl with
        | some c => mdel d.answers c
        | none => d.answers } }

/-- A write of GO (R389). -/
def doseTestGo (by' : Initiator) (s : State) : State :=
  if s.dose.reqs.any (fun r => r.cl.isNone) then s
  else
    let addr := (getReg s (doseRegs + 0x10)).toNat + (getReg s (doseRegs + 0x14)).toNat * 2 ^ 32
    askDose none (BitVec.ofNat 48 addr) (getReg s (doseRegs + 0x18)) by' (setReg (doseRegs + 0x1C) 0 s)

/-- DOSE_TEST_GO (R389): a write of TEST_CTL with GO 1 -/
def execDoseTestGo (by' : Initiator) (_ : W32) (s : State) : Host.Outcome State Fault Refusal :=
  let a := doseRegs + 0x1C
  .next (if mayAccess s by' a 4 .write then doseTestGo by' s else refuseAccess by' a s)

end Sys2Proof.Machine
end

