-- ==== Sys2Proof/Machine/Evtos.lean ====
section
/-! DEFINITION. The Evtos link as a link, its rings, injected frames, and what Tack answers on the management ports
(15_evtos_and_commands.md). -/

namespace Sys2Proof.Machine

/-! ### Rings (R499-R501, R503) -/

def ringRegs (i : Nat) : Nat := evtRegs + 0x100 + 0x20 * i

/-- Rings the device consumes: commands and injected frames. -/
def deviceConsumes (i : Nat) : Bool := decide (i < 4) || decide (i = 17)

def isEventRing (i : Nat) : Bool := decide (8 ≤ i) && decide (i < 16)

def slotBytes (i : Nat) : Nat := if isEventRing i then 16 else 2048

/-- Highest PL that may write a ring's registers. -/
def ringPl (i : Nat) : Nat := if i < 8 then i % 4 else 0

/-- SIZE_LOG2 lies in the ring's range. -/
def sizeOk (i n : Nat) : Bool :=
  if i < 8 then decide (n ≤ 8) else if i < 16 then decide (4 ≤ n) && decide (n ≤ 16) else decide (n ≤ 10)

/-- The ring lies in memory that R500 allows. -/
def ringPlaceOk (s : State) (a len : Nat) : Bool :=
  extentAll (fun x =>
    match regionOf s x with
    | some (.tile _ _) => true
    | some (.bonded _) => !inOverflow s x
    | some (.lpddr _ _) => true
    | _ => false) (mibCount a len) a len

/-- A write of RB_CFG (R500). -/
def ringCfgWrite (i : Nat) (v : W32) (s : State) : State :=
  let g := getRing s i
  let en := bitOf v 8
  if g.en then (if en then s else setRing i { g with en := false } s)
  else
    let n := fld v 0 5
    let g := { g with sizeLog2 := BitVec.ofNat 5 n }
    if en && sizeOk i n && ringPlaceOk s g.base.toNat (2 ^ n * slotBytes i) then
      setRing i { g with en := true, head := 0, tail := 0 } s
    else setRing i g s

/-- A write of RB_BASE_LO or RB_BASE_HI (R500). -/
def ringBaseWrite (i : Nat) (hi : Bool) (v : W32) (s : State) : State :=
  let g := getRing s i
  if g.en then s
  else
    let b := g.base.toNat
    setRing i { g with base := BitVec.ofNat 48 (if hi then b % 2 ^ 32 + fld v 0 16 * 2 ^ 32 else b / 2 ^ 32 * 2 ^ 32 + v.toNat / 64 * 64) } s

/-- A write of RB_HEAD, where the companion consumes. -/
def ringHeadWrite (i : Nat) (v : W32) (s : State) : State :=
  if deviceConsumes i then s else setRing i { getRing s i with head := v } s

/-- A write of RB_DOORBELL, where the device consumes (R500); a ring not in use has no free space. -/
def ringDoorbellWrite (i count : Nat) (s : State) : State :=
  let g := getRing s i
  if !deviceConsumes i || decide (count = 0) then s
  else if g.en ∧ count ≤ 2 ^ g.sizeLog2.toNat - (g.tail - g.head).toNat then
    setRing i { g with tail := g.tail + BitVec.ofNat 32 count } s
  else setRing i { g with lost := BitVec.ofNat 32 (Nat.min all32 (g.lost.toNat + 1)) } s

/-- A write of RB_IRQ (R503): VEC and ARM of an event ring. -/
def ringIrqWrite (i : Nat) (v : W32) (s : State) : State :=
  if !isEventRing i then s
  else
    let g := getRing s i
    let s := setRing i { g with vec := BitVec.ofNat 16 (fld v 0 16), arm := bitOf v 16 } s
    if bitOf v 16 ∧ g.tail ≠ g.head then ringIrq i s else s

/-- A write to a register of ring `i`, by an initiator the table lets write it and whose PL the ring allows (R501). -/
def ringWrite (by' : Initiator) (i off : Nat) (f : State → State) (s : State) : State :=
  let a := ringRegs i + off
  if !mayAccess s by' a 4 .write then refuseAccess by' a s
  else
    match by' with
    | .mc => f s
    | .companion pl => if pl.val ≤ ringPl i then f s else companionDenied 2 a s
    | _ => s

/-- RING_ENABLE (R500): a write of RB_CFG with EN 1 -/
def execRingEnable (by' : Initiator) (ring : Fin 18) (v : W32) (s : State) : Host.Outcome State Fault Refusal :=
  .next (ringWrite by' ring.val 8 (ringCfgWrite ring.val (v ||| 0x100)) s)

/-- RING_DOORBELL (R500) -/
def execRingDoorbell (by' : Initiator) (ring : Fin 18) (count : BitVec 17) (s : State) : Host.Outcome State Fault Refusal :=
  .next (ringWrite by' ring.val 0x14 (ringDoorbellWrite ring.val count.toNat) s)

/-- IRQ_ARM (R503): a write of RB_IRQ with ARM 1 -/
def execIrqArm (by' : Initiator) (ring : Fin 18) (v : W32) (s : State) : Host.Outcome State Fault Refusal :=
  .next (ringWrite by' ring.val 0x1C (ringIrqWrite ring.val (v ||| 0x1_0000)) s)

/-! ### The link (R492, R498) -/

/-- Active lanes the link can train: all sixteen, one half, or none. -/
def evtTrains (s : State) : Nat :=
  if s.evtFailed = [] then 16
  else if s.evtFailed.all (fun l => decide (l < 8)) || s.evtFailed.all (fun l => decide (8 ≤ l)) then 8
  else 0

/-- A granule the companion held Exclusive is lost (R498). -/
def loseGranule (e : Snoop) (s : State) : State :=
  if e.exclusive then
    let s := { s with poison := putMark (putMark s.poison (2 * e.granule) true) (2 * e.granule + 1) true }
    let s := bumpSat (evtRegs + 0x18) 1 s
    let r := newReport s (unitDie 0x15 0 0) 0x0C 0
    report { r with addr := BitVec.ofNat 48 (128 * e.granule), syndrome := BitVec.ofNat 128 (2 + 128 * e.granule * 65536) } s
  else s

/-- The link goes down (R498). -/
def evtDown (s : State) : State :=
  let held := s.snoop
  held.foldl (fun s e => loseGranule e s) { s with evtWidth := 0, snoop := [] }

/-- The link comes up (R498): one message for each armed event ring with unread records. -/
def evtUp (s : State) : State :=
  let n := evtTrains s
  if n = 0 ∨ s.evtWidth ≠ 0 ∨ heldInReset s then s
  else
    (List.range 8).foldl (fun s v =>
      let g := getRing s (eventRing v)
      if g.tail ≠ g.head then ringIrq (eventRing v) s else s) { s with evtWidth := n }

/-- EVTOS_FLIT_REPLAY (R492) -/
def execEvtosFlitReplay (s : State) : Host.Outcome State Fault Refusal :=
  .next (if s.evtWidth = 0 then s else bumpSat (evtRegs + 0xC) 1 s)

/-- EVTOS_LANE_FAIL (R492): the link retrains on the half that has no failed lane; with none, it is down. -/
def execEvtosLaneFail (lane : Fin 16) (s : State) : Host.Outcome State Fault Refusal :=
  let s1 := if s.evtFailed.contains lane.val then s else { s with evtFailed := s.evtFailed ++ [lane.val] }
  .next (if s.evtWidth = 0 then s1 else if evtTrains s1 = 0 then evtDown s1 else { s1 with evtWidth := evtTrains s1 })

/-- EVTOS_LINK_DOWN (R498) -/
def execEvtosLinkDown (s : State) : Host.Outcome State Fault Refusal := .next (if s.evtWidth = 0 then s else evtDown s)

/-- EVTOS_LINK_UP (R498) -/
def execEvtosLinkUp (s : State) : Host.Outcome State Fault Refusal := .next (evtUp s)

/-! ### Injected frames (R506) -/

/-- Take the slot at HEAD of the inject ring. -/
def injectSlot (s : State) : State :=
  let g := getRing s 17
  if !g.en || decide (g.head = g.tail) then s
  else
    let a := g.base.toNat + g.head.toNat % 2 ^ g.sizeLog2.toNat * 2048
    let (bs, s) := readMem a 2048 1 s
    let b := bytesOf bs
    let len := leAt b 0 2
    let port := leAt b 2 2
    let cls := leAt b 4 1
    let s := setRing 17 { g with head := g.head + 1 } s
    if 60 ≤ len ∧ len ≤ 2032 ∧ cls < 8 ∧ (port = 0x400 ∨ port = 0x401 ∨ isPort s port) then
      enqueueFrame port cls ((bs.drop 16).take len) none 1024 0 s
    else
      let g := getRing s 17
      setRing 17 { g with lost := BitVec.ofNat 32 (Nat.min all32 (g.lost.toNat + 1)) } s

/-- INJECT (R506) -/
def execInject (s : State) : Host.Outcome State Fault Refusal := .next (injectSlot s)

/-! ### Management ports (R504, R505) -/

def mgmtOf (s : State) (m : Nat) : MgmtPort := s.mgmt.getD m MgmtPort.reset

/-- MAC address of a management port. -/
def mgmtMac (s : State) (m : Nat) : Nat := (s.part.baseMac.toNat + m) % 2 ^ 48

/-- Link-local address of a management port: fe80::/64 with the EUI-64 of its MAC. -/
def linkLocal (s : State) (m : Nat) : Nat :=
  let a := mgmtMac s m
  let top := (a / 2 ^ 24) ^^^ 0x02_0000
  0xFE80 * 2 ^ 112 + top * 2 ^ 40 + 0xFFFE * 2 ^ 24 + a % 2 ^ 24

/-- A frame the port carries (R504): untagged, or with one tag of MGMT_VID, to the port's address or to a group. -/
def mgmtCarries (s : State) (m : Nat) (f : List Byte) : Bool :=
  let h := parseFrame f
  let p := mgmtOf s m
  decide (14 ≤ f.length) && decide (f.length ≤ 1518) && (decide (h.dmac = mgmtMac s m) || decide (h.dmac / 2 ^ 40 % 2 = 1)) &&
    (!h.tagged || (decide (p.vid ≠ 0) && decide (h.vid = p.vid.toNat)))

/-- Class in which Tack queues what it sends on a management port (DESIGN CHOICE). -/
def tackClass : Nat := 7

/-- Tack sends a frame from a management port. -/
def mgmtSend (m : Nat) (f : List Byte) (s : State) : State := enqueueFrame (1024 + m) tackClass (clean (padTo 60 f)) none 1024 0 s

/-- The L2 header of an answer: to the sender, under the same tag. -/
def answerHeader (s : State) (m : Nat) (h : Hdr) (etype : Nat) : List Byte := l2Header h.smac (mgmtMac s m) h.tagged h.vid h.pcp etype

/-- Checksum of an ICMPv6 message whose checksum field is taken as 0. -/
def icmp6Sum (src dst : Nat) (msg : List Byte) : Nat :=
  let b := msg.take 2 ++ [0, 0] ++ msg.drop 4
  0xFFFF - onesSum (beBytes 16 src ++ beBytes 16 dst ++ beBytes 4 b.length ++ [0, 0, 0, 58] ++ b)

def icmp6Frame (s : State) (m : Nat) (h : Hdr) (src dst hop : Nat) (msg : List Byte) : List Byte :=
  let c := icmp6Sum src dst msg
  answerHeader s m h 0x86DD ++ (beBytes 4 (6 * 2 ^ 28) ++ beBytes 2 msg.length ++ [58, BitVec.ofNat 8 hop] ++ beBytes 16 src ++
    beBytes 16 dst) ++ msg.take 2 ++ beBytes 2 c ++ msg.drop 4

/-- The port's answer to an ARP request or a neighbour solicitation; `none`: it is neither, or not for the port. -/
def arpAnswer (s : State) (m : Nat) (f : List Byte) : Option (List Byte) :=
  let h := parseFrame f
  let p := mgmtOf s m
  let mac := mgmtMac s m
  let o := h.l3off
  if !mgmtCarries s m f then none
  else if h.etype = 0x0806 then
    if p.v4En ∧ o + 28 ≤ f.length ∧ beAt f o 8 = 0x0001_0800_0604_0001 ∧ beAt f (o + 24) 4 = p.ip4.toNat then
      some (answerHeader s m h 0x0806 ++ beBytes 8 0x0001_0800_0604_0002 ++ beBytes 6 mac ++ beBytes 4 p.ip4.toNat ++
        (f.drop (o + 8)).take 10)
    else none
  else if h.l3 = 6 ∧ h.ok ∧ h.proto = 58 ∧ p.v6En ∧ h.l4off + 24 ≤ f.length ∧ beAt f h.l4off 1 = 135 ∧ h.ttl = 255 then
    let target := beAt f (h.l4off + 8) 16
    if target = linkLocal s m ∨ target = p.ip6.toNat then
      let dad := decide (h.src = 0)
      let msg := [136, 0, 0, 0, if dad then 0x20 else 0x60, 0, 0, 0] ++ beBytes 16 target ++ [2, 1] ++ beBytes 6 mac
      let h' := if dad then { h with smac := 0x3333_0000_0001 } else h
      some (icmp6Frame s m h' target (if dad then 0xFF02 * 2 ^ 112 + 1 else h.src) 255 msg)
    else none
  else none

/-- The port's answer to an echo request. -/
def echoAnswer (s : State) (m : Nat) (f : List Byte) : Option (List Byte) :=
  let h := parseFrame f
  let p := mgmtOf s m
  let msg := (f.take h.ipEnd).drop h.l4off
  if !mgmtCarries s m f || !h.ok || decide (msg.length < 8) || h.frag then none
  else if h.l3 = 4 ∧ p.v4En ∧ h.dst = p.ip4.toNat ∧ h.proto = 1 ∧ beAt msg 0 1 = 8 ∧ onesSum msg = 0xFFFF then
    let r : List Byte := [0, 0, 0, 0] ++ msg.drop 4
    let c := 0xFFFF - onesSum r
    let ip := [0x45, BitVec.ofNat 8 (h.dscp * 4)] ++ beBytes 2 (20 + msg.length) ++ [0, 0, 0x40, 0, 64, 1, 0, 0] ++
      beBytes 4 h.dst ++ beBytes 4 h.src
    some (answerHeader s m h 0x0800 ++ (ip.take 10 ++ beBytes 2 (ipv4Sum ip) ++ ip.drop 12) ++ (r.take 2 ++ beBytes 2 c ++ r.drop 4))
  else if h.l3 = 6 ∧ p.v6En ∧ (h.dst = p.ip6.toNat ∨ h.dst = linkLocal s m) ∧ h.proto = 58 ∧ beAt msg 0 1 = 128 ∧
      icmp6Sum h.src h.dst msg = beAt msg 2 2 then
    some (icmp6Frame s m h h.dst h.src 64 ([129] ++ msg.drop 1))
  else none

def sendAnswer (m : Nat) (a : Option (List Byte)) (s : State) : State :=
  match a with
  | some f => if heldInReset s then s else mgmtSend m f s
  | none => s

/-- ARP_REPLY (R505) -/
def execArpReply (m : Fin 2) (frame : List Byte) (s : State) : Host.Outcome State Fault Refusal :=
  .next (sendAnswer m.val (arpAnswer s m.val frame) s)

/-- ECHO_REPLY (R505) -/
def execEchoReply (m : Fin 2) (frame : List Byte) (s : State) : Host.Outcome State Fault Refusal :=
  .next (sendAnswer m.val (echoAnswer s m.val frame) s)

/-- A UDP datagram to MGMT_UDP of the port is a command packet (R505). -/
def isCommandFrame (s : State) (m : Nat) (f : List Byte) : Bool :=
  let h := parseFrame f
  let p := mgmtOf s m
  mgmtCarries s m f && h.ok && decide (h.proto = 17) && decide (h.dport = p.udp.toNat) &&
    ((decide (h.l3 = 4) && p.v4En && decide (h.dst = p.ip4.toNat)) ||
     (decide (h.l3 = 6) && p.v6En && (decide (h.dst = p.ip6.toNat) || decide (h.dst = linkLocal s m))))

/-- MGMT_FRAME_PUNT (R506): a frame that R505 consumes is not punted. -/
def execMgmtFramePunt (m : Fin 2) (frame : List Byte) (s : State) : Host.Outcome State Fault Refusal :=
  .next (if heldInReset s || (arpAnswer s m.val frame).isSome || (echoAnswer s m.val frame).isSome || isCommandFrame s m.val frame then s
    else puntFrame (0x400 + m.val) (clean frame) s)

end Sys2Proof.Machine
end

