-- ==== Sys2Proof/Machine/Mmio.lean ====
section
/-! DEFINITION. Reading and writing registers (R19, R51): which block an MMIO address falls in, the value of every
register that typed state holds, and what a write to each does. A register with no treatment of its own here is a plain
one, and acts as its definition in Machine/RegMap.lean says. -/

namespace Sys2Proof.Machine

/-! ### Where an address falls -/

/-- What a register belongs to, with the offset into it. -/
inductive Place where
  | queue (cl qid off : Nat)
  | reduction (cl off : Nat)
  | dose (off : Nat)
  | cvu (cl n off : Nat)
  | detector (cl off : Nat)
  | counter (cl n : Nat)
  | buffers (cl off : Nat)
  | engine (oe off : Nat)
  | schedQueue (lane cls off : Nat)
  | schedPort (lane off : Nat)
  | policer (lane cls off : Nat)
  | wheel (fp off : Nat)
  | tile (cl p off : Nat)
  | memory (die off : Nat)
  | group (cl gq off : Nat)
  | tables (die off : Nat)
  | transport (cl off : Nat)
  | harness (off : Nat)
  | evtos (off : Nat)
  | errors (off : Nat)
  | record (slot word : Nat)
  | health (off : Nat)
  | boot (off : Nat)
  | signals (off : Nat)
  | uptime (off : Nat)
  | plain
  deriving DecidableEq, Repr

/-- Place of an offset into a cluster window (R52). -/
def clusterPlace (cl o : Nat) : Place :=
  if o < 0x9000 then .queue cl (o / 0x1000) (o % 0x1000)
  else if o < 0x1_0000 then .plain
  else if o < 0x3_0000 then
    if o % 0x2000 < 0x1000 then .queue cl (9 + (o - 0x1_0000) / 0x2000) (o % 0x1000) else .plain
  else if o < 0x3_1000 then .queue cl 25 (o % 0x1000)
  else if o < 0x3_8000 then .plain
  else if o < 0x4_0000 then (if cl = 0 then .dose (o - 0x3_8000) else .plain)
  else if o < 0x5_0000 then .reduction cl (o - 0x4_0000)
  else if o < 0x6_0000 then .cvu cl ((o - 0x5_0000) / 0x1000) (o % 0x1000)
  else if o < 0x7_0000 then .detector cl (o - 0x6_0000)
  else if o < 0x7_8000 then .buffers cl (o - 0x7_0000)
  else if o < 0x8_0000 then .plain
  else if o < 0x9_0000 then .engine (4 * cl + (o - 0x8_0000) / 0x4000) (o % 0x4000)
  else if o < 0x10_0000 then .plain
  else if o < 0x10_4000 then .counter cl ((o - 0x10_0000) / 4)
  else if o < 0x40_0000 then .plain
  else if o < 0x41_0000 then .schedQueue (128 * cl + (o - 0x40_0000) / 0x200) ((o - 0x40_0000) / 0x40 % 8) (o % 0x40)
  else if o < 0x41_1000 then .schedPort (128 * cl + (o - 0x41_0000) / 0x20) (o % 0x20)
  else if o < 0x42_0000 then .plain
  else if o < 0x42_8000 then .policer (128 * cl + (o - 0x42_0000) / 0x100) ((o - 0x42_0000) / 0x20 % 8) (o % 0x20)
  else if o < 0x43_0000 then .plain
  else if o < 0x43_0400 then .wheel (4 * cl + (o - 0x43_0000) / 0x100) (o % 0x100)
  else if o < 0x100_0000 then .plain
  else if o < 0x200_0000 then .queue cl (0x1000 + (o - 0x100_0000) / 0x1000) (o % 0x1000)
  else .plain

/-- Place of an offset into a die block. -/
def diePlace (d o : Nat) : Place :=
  if o < 0x10_0000 then .plain
  else if o < 0x12_0000 then .tile (2 * d + (o - 0x10_0000) / 0x1_0000) (o % 0x1_0000 / 0x1000) (o % 0x1000)
  else if o < 0x20_0000 then .plain
  else if o < 0x20_1000 then .memory d (o % 0x1000)
  else if o < 0x40_0000 then .plain
  else if o < 0x60_0000 then .group (2 * d + (o - 0x40_0000) / 0x10_0000) (o % 0x10_0000 / 0x100) (o % 0x100)
  else if o < 0x80_0000 then .plain
  else if o < 0x80_1000 then .tables d (o % 0x1000)
  else if o < 0xC0_0000 then .plain
  else if o < 0xC2_0000 then .transport (2 * d + (o - 0xC0_0000) / 0x1_0000) (o % 0x1_0000)
  else .plain

/-- Place of an offset into the device block. -/
def devicePlace (o : Nat) : Place :=
  if o < 0x1000 then .uptime o
  else if o < 0x18_0000 then .plain
  else if o < 0x18_1000 then .harness (o - 0x18_0000)
  else if o < 0x20_0000 then .plain
  else if o < 0x20_1000 then .evtos (o - 0x20_0000)
  else if o < 0x30_0000 then .plain
  else if o < 0x34_0000 then .errors (o - 0x30_0000)
  else if o < 0x38_0000 then .record ((o - 0x34_0000) / 64) (o / 4 % 16)
  else if o < 0x38_1000 then .health (o - 0x38_0000)
  else if o < 0x40_0000 then .plain
  else if o < 0x40_2000 then .boot (o - 0x40_0000)
  else if o < 0x48_0000 then .plain
  else if o < 0x48_1000 then .signals (o - 0x48_0000)
  else .plain

def placeOf (a : Nat) : Place :=
  if 0xF000_0000_0000 ≤ a ∧ a < 0xF000_8000_0000 then
    clusterPlace ((a - 0xF000_0000_0000) / 0x1000_0000) ((a - 0xF000_0000_0000) % 0x1000_0000)
  else if 0xF001_0000_0000 ≤ a ∧ a < 0xF001_0400_0000 then
    diePlace ((a - 0xF001_0000_0000) / 0x100_0000) ((a - 0xF001_0000_0000) % 0x100_0000)
  else if 0xF002_0000_0000 ≤ a ∧ a < 0xF002_0400_0000 then devicePlace (a - 0xF002_0000_0000)
  else .plain

/-! ### Values held in typed state -/

def w32 (n : Nat) : W32 := BitVec.ofNat 32 n

def lowWord (v : Nat) : W32 := w32 v
def highWord (v : Nat) : W32 := w32 (v / 2 ^ 32)

/-- Bit i of the word is set for each i below `n` that satisfies `p`. -/
def bitWord (n : Nat) (p : Nat → Bool) : W32 := w32 (((List.range n).map (fun i => boolNat (p i) * 2 ^ i)).sum)

/-- STATUS of a queue (R72). -/
def queueStatus (s : State) (cl qid : Nat) : W32 :=
  let q := getQ s cl qid
  let st := queueState s cl qid
  let wait : Nat × Nat := match q.cur with
    | some c => if st = 2 then (unmetWait s cl c.word).getD (0, 0) else (0, 0)
    | none => (0, 0)
  w32 (st + wait.1 * 8 + wait.2 * 16 + boolNat q.cfgErr * 65536 + boolNat q.dlMember * 131072)

/-- A register of a control block (R72, R113). -/
def queueReg (s : State) (cl qid off : Nat) : W32 :=
  let q := getQ s cl qid
  if absent s cl (engOf qid) then (if off = 4 then 5 else 0)
  else if 0x100 ≤ off then
    let r := arOf q ((off - 0x100) / 16)
    if 0x200 ≤ off then 0
    else match off % 16 with
      | 0 => lowWord r.base.toNat
      | 4 => highWord r.base.toNat
      | 8 => r.stride.setWidth 32
      | 12 => r.wrap.setWidth 32
      | _ => 0
  else match off with
    | 0x00 => w32 (boolNat q.run + 32 * boolNat q.haltIrqEn + 64 * boolNat q.emptyIrqEn + 256 * q.sizeLog2.toNat)
    | 0x04 => queueStatus s cl qid
    | 0x08 => q.head
    | 0x0C => q.tail
    | 0x10 => w32 ((q.tail - q.head).toNat % 2 ^ 17)
    | 0x18 => lowWord q.qbase.toNat
    | 0x1C => highWord q.qbase.toNat
    | 0x20 => lowWord q.haltAddr.toNat
    | 0x24 => highWord q.haltAddr.toNat
    | 0x28 => haltReg q
    | 0x2C => lowWord q.waitLimit.toNat
    | 0x30 => highWord q.waitLimit.toNat
    | 0x34 => lowWord q.waitCount.toNat
    | 0x38 => w32 (engOf qid + 256 * (if qid < 9 then tileOf s cl qid else 0))
    | 0x3C => q.dbReject
    | 0x40 => q.waitCountHi
    | _ => 0

/-- The array of a position has a started instruction or a block to emit. -/
def tileBusy (s : State) (cl p : Nat) : Bool :=
  (match (getQ s cl p).cur with
   | some c => c.started && !c.parked && decide (wOpcode c.word = 0x10) && !(getQ s cl p).halted
   | none => false) || !(getTile s cl p).held.isEmpty

/-- MT_STATUS (R180) -/
def tileStatus (s : State) (cl p : Nat) : W32 :=
  let t := getTile s cl p
  w32 (fld (getReg s (tileRegs cl p)) 0 1 + 2 * boolNat (tileBusy s cl p) + 4 * boolNat t.wb0.valid + 8 * boolNat t.wb1.valid +
    16 * t.active + 32 * boolNat (t.wb0.poison || t.wb1.poison) + 256 * tileOf s cl p)

/-- A register of the block of R425. -/
def bufferReg (s : State) (cl off a : Nat) : W32 :=
  let o := ownSel s cl
  let w := getOwner s cl o
  if 0x20 ≤ off ∧ off < 0x38 then w32 (poolFree s cl ((off - 0x20) / 4))
  else if 0x40 ≤ off ∧ off < 0x58 then w32 (resSum s cl ((off - 0x40) / 4))
  else if off = 0x60 then w32 (poolFree s cl 6)
  else if off < 0x104 then getReg s a
  else if off = 0x130 then w32 (boolNat (ownerExists s cl o) + 2 * boolNat w.resRefused + 4 * boolNat w.locked)
  else if !ownerExists s cl o then 0
  else match off with
    | 0x104 => w32 (w.resOf 0 + w.resOf 1 * 65536)
    | 0x108 => w32 (w.resOf 2 + w.resOf 3 * 65536)
    | 0x10C => w32 (w.resOf 4 + w.resOf 5 * 65536)
    | 0x110 => w32 (w.limitKib % 65536 + boolNat w.ovfEn * 65536)
    | 0x114 => w32 w.ovfLimit
    | 0x118 => w32 w.ageLimit
    | 0x11C => w32 (heldBytes s cl o)
    | 0x120 => w32 (heldBy s cl o 6)
    | 0x124 => w.drop
    | 0x128 => w.ageDrop
    | 0x12C => w.flushDrop
    | _ => 0

/-- A register of an optical engine's block (R394, R623). The receiver's signal and lock show with the link (log entry 35). -/
def engineReg (s : State) (oe off a : Nat) : W32 :=
  if off < 0x100 then getReg s a
  else if off < 0x300 then
    let lane := 32 * oe + (off - 0x100) / 16
    if !isPort s lane then 0
    else if off % 16 = 0 then getReg s a + w32 (16 * boolNat (linkUp s lane))
    else getReg s a
  else if off < 0x2000 then
    let lane := 32 * oe + (off - 0x1000) / 0x80
    match (off - 0x1000) % 0x80 with
    | 0 => getReg s a + w32 (3 * boolNat (linkUp s (portOf s lane)))
    | 8 => w32 ((Config.telemetry s.fresh a).toNat % 65536)
    | _ => getReg s a
  else match off with
    | 0x2000 => w32 ((Config.telemetry s.fresh a).toNat % 65536)
    | 0x2004 => w32 (fld (getReg s a) 0 4 + (Config.telemetry s.fresh a).toNat % 2 * 16)
    | _ => Config.telemetry s.fresh a

/-- A register of a group's status block (R355). -/
def groupReg (s : State) (cl gq off a : Nat) : W32 :=
  let g := getGroup s cl gq
  if !g.held then 0
  else
    let live := match g.step with
      | some t => t.live
      | none => false
    let slow := if live then slowest g else none
    match off with
    | 0x00 => w32 (g.gid.toNat + 2 ^ 24 * boolNat g.selfEn)
    | 0x04 => w32 (g.nmemb - 1 + g.self * 65536)
    | 0x08 => g.seq
    | 0x1C => w32 (slowWord (slow.map (fun x => x.1)))
    | 0x20 => w32 ((slow.map (fun x => x.2)).getD 0)
    | 0x24 => w32 (slowWord g.lastSlow)
    | 0x2C => let r := regField s (gsRegs cl gq + 0x28) 0 16; if r < g.nmemb then w32 (mget 0 g.conf r) else 0
    | 0x30 => let r := regField s (gsRegs cl gq + 0x28) 0 16; if r < g.nmemb then w32 (mget 0 g.expect r) else 0
    | 0x34 => w32 (eaUsed g)
    | 0x48 => w32 (inUsed g)
    | _ => getReg s a

/-- A register of a transport block (R471, R472). -/
def transportReg (s : State) (cl off a : Nat) : W32 :=
  if 0x8000 ≤ off then
    let lane := 128 * cl + (off - 0x8000) / 16
    if isPort s lane && !harnessRole s lane then getReg s a else 0
  else if off < 0x104 then getReg s a
  else
    let sel := getReg s (tftRegs cl + 0x100)
    let x := getCtx s (fld sel 0 18)
    let k := getChan x (fld sel 18 4)
    if x.homeCl.toNat ≠ cl ∨ (!x.isOpen && !x.failed) then 0
    else match off with
      | 0x104 => w32 (boolNat x.isOpen + 2 * boolNat x.failed + 4 * boolNat x.group + 8 * x.path.toNat)
      | 0x108 => sendSeq k
      | 0x10C => unackSeq k
      | 0x110 => k.exp
      | 0x114 => x.rate.setWidth 32
      | _ => 0

/-- PRESENCE (R612) -/
def presence (s : State) : Bool := !s.sig.accepted.getD 1 true && !s.sig.stuck

/-- A register of the harness block (R491). -/
def harnessReg (s : State) (off a : Nat) : W32 :=
  let h := s.harness
  match off with
  | 0 => w32 (s.part.harnessId.toNat + 8 * boolNat s.part.harnessSb + 16 * h.role + 64 * boolNat h.configured +
      128 * boolNat (s.part.harnessSb && decide (s.part.harnessId ≠ 0)) + 256 * h.addr.toNat)
  | 4 => h.epoch
  | 8 => bitWord 9 (fun e => !(harnessUp s e).isEmpty)
  | _ => getReg s a

/-- A register of a ring (R499). -/
def ringReg (s : State) (i off : Nat) : W32 :=
  let g := getRing s i
  match off with
  | 0x00 => lowWord g.base.toNat
  | 0x04 => highWord g.base.toNat
  | 0x08 => w32 (g.sizeLog2.toNat + 256 * boolNat g.en)
  | 0x0C => g.head
  | 0x10 => g.tail
  | 0x18 => g.lost
  | 0x1C => w32 (g.vec.toNat + 65536 * boolNat g.arm)
  | _ => 0

/-- A register of the Evtos block (R526). -/
def evtosReg (s : State) (off a : Nat) : W32 :=
  if 0x100 ≤ off then ringReg s ((off - 0x100) / 0x20) (off % 0x20)
  else match off with
    | 0 => w32 (boolNat (decide (s.evtWidth ≠ 0)) + 2 * s.evtWidth)
    | 4 => w32 s.snoop.length
    | 0x24 => w32 (boolNat (presence s) + 2 * boolNat s.sig.sealClosed + 4 * boolNat s.presWait.isSome)
    | _ => getReg s a

/-- A register of the error block (R548). -/
def errorReg (s : State) (off a : Nat) : W32 :=
  let e := s.err
  match off with
  | 0 => e.next
  | 4 => e.ack
  | 8 => e.overflow
  | 0xC => e.dropped
  | 0x10 => w32 (boolNat e.recEn + 2 * boolNat e.full + 4 * e.coal.length)
  | 0x1C => e.offlineCount.setWidth 32
  | _ => getReg s a

/-- A register of the health block (R569). -/
def healthReg (s : State) (off a : Nat) : W32 :=
  let x : Option HUnit := (selectedUnit s).map (getHUnit s)
  if 0x20 ≤ off ∧ off < 0x40 then
    let cl := (off - 0x20) / 4
    let spare := tileOf s cl 8
    bitWord 9 (fun t => (getHUnit s (hkey 1 cl t)).suspect) + bitWord 9 (fun t => (getHUnit s (hkey 1 cl t)).overdue) * 512 +
      w32 ((if spare = 9 then 15 else spare) * 2 ^ 18 + boolNat (retireBudget s cl) * 2 ^ 22)
  else match off with
    | 0x14 => s.health.run
    | 0x18 => w32 s.health.entries.length
    | 0x64 => match x with
      | none => 0
      | some u => w32 (u.score.toNat + boolNat u.suspect * 2 ^ 16 + boolNat u.retired * 2 ^ 17 + boolNat u.conditional * 2 ^ 18 +
          boolNat u.overdue * 2 ^ 19 + Nat.min 255 u.defer * 2 ^ 20)
    | 0x68 => lowWord ((x.bind (fun u => u.tested)).getD 0).toNat
    | 0x6C => highWord ((x.bind (fun u => u.tested)).getD 0).toNat
    | _ => getReg s a

/-- A register of the boot block (R580, R590). -/
def bootReg (s : State) (off a : Nat) : W32 :=
  let b := s.boot
  if 0x1000 ≤ off then w32 (leAt b.window (off - 0x1000) 4)
  else if 0x40 ≤ off ∧ off < 0x80 then w32 (leAt b.meas (off - 0x40) 4)
  else match off with
    | 0x00 => w32 (b.step + b.method * 256 + boolNat b.evtWait * 2 ^ 12 + boolNat b.booted * 2 ^ 13 + boolNat b.failed * 2 ^ 14 +
        boolNat b.noRecord * 2 ^ 15 + b.code * 2 ^ 16 + b.fails * 2 ^ 24)
    | 0x04 => w32 (b.source + 4 * boolNat b.rearmed)
    | 0x0C => w32 (((List.range 8).map (fun i => b.next.getD i 0 % 16 * 16 ^ i)).sum)
    | 0x10 => w32 (((List.range 6).map (fun i => b.next.getD (8 + i) 0 % 16 * 16 ^ i)).sum)
    | 0x18 => w32 (b.svn % 128 + svnFuse s * 256)
    | 0x20 => w32 ((newestGen s).toNat + (match s.prot with
        | g :: _ => g.gen.toNat
        | [] => 0) * 65536)
    | 0x24 => w32 (tableOf s (newestGen s)).length
    | 0x28 => w32 b.debugLevel
    | 0x104 => let n := regField s (bootRegs + 0x100) 0 10; if n < 16 then 0 else fuseWord s n
    | _ => getReg s a

/-- Conditions of ALERT_N (R616). -/
def alertConditions (s : State) : List Bool :=
  let rs := List.range 8
  let warn : Int := (regField s (sigRegs + 8) 0 8 : Int) * 8
  [rs.any (fun r => decide (warn ≤ rgTemp s r)), rs.any (fun r => decide (regField s (rgRegs r) 8 6 ≠ 0)),
   rs.any (fun r => !(getRg s r).partners.isEmpty), s.err.full, decide (s.evtWidth = 0), s.sig.stuck, !s.sig.sealClosed,
   rs.any (fun r => (getRg s r).rail)]

/-- ALERT_N is asserted. -/
def alert (s : State) : Bool :=
  (List.range 8).any (fun i => (alertConditions s).getD i false && bitOf (getReg s (sigRegs + 4)) i)

/-- STATUS[3:0] (R617). The sequence of a failed boot begins at its first value when the boot fails (DEDUCED, log entry 111). -/
def statusPins (s : State) : Nat :=
  let b := s.boot
  if heldInReset s then 0
  else if b.booted then 0xF
  else if b.failed then
    match (s.uptime - b.failedAt).toNat / 2 ^ 26 % 3 with
    | 0 => 0
    | 1 => b.step
    | _ => b.code
  else if b.active then b.step else 0

/-- A register of the signals block (R625). -/
def signalsReg (s : State) (off a : Nat) : W32 :=
  if off = 0 then
    w32 (boolNat (presence s) + 2 * boolNat s.sig.stuck + 4 * boolNat s.sig.sealClosed + 8 * boolNat s.sig.tripped +
      16 * boolNat (alert s)) + bitWord 8 (fun p => s.sig.accepted.getD p false) * 256
  else getReg s a

/-- The uptime count that a reader outside REF sees (R45). -/
def uptimeSeen (s : State) : Nat := s.uptime.toNat - Config.uptimeAge s.fresh % 3

/-- What the register at an address holds now. -/
def regValue (s : State) (a : Nat) : W32 :=
  match regDef a with
  | none => 0
  | some d =>
    match placeOf a with
    | .queue cl qid off => queueReg s cl qid off
    | .reduction cl off =>
      (match off with
       | 0 => w32 (slotsBusy s cl)
       | 8 => w32 (storeReserved s cl)
       | 0xC => w32 (storeUsed s cl)
       | 0x10 => w32 (storeShared s cl)
       | _ => if d.lo then lowWord (getCtr s a).toNat else getReg s a)
    | .dose off => if off = 0 then w32 s.dose.reqs.length else if d.lo then lowWord (getCtr s a).toNat else getReg s a
    | .cvu cl n off =>
      if off = 8 then w32 (boolNat (cvuBusy s cl n) + 2 * boolNat (getCvu s cl n).matched) else if d.lo then lowWord (getCtr s a).toNat else getReg s a
    | .detector cl off =>
      if off = 0x100 then bitWord 26 (fun e => decide (queueState s cl e = 3))
      else if 0x200 ≤ off ∧ off < 0x400 then bitWord 32 (fun b => decide (queueState s cl (0x1000 + (off - 0x200) * 8 + b) = 3))
      else if 0x400 ≤ off ∧ off < 0x600 then bitWord 32 (fun b => (getSem s cl ((off - 0x400) * 8 + b)).ovf)
      else getReg s a
    | .counter cl n => (getSem s cl n).value
    | .buffers cl off => bufferReg s cl off a
    | .engine oe off => if d.lo then lowWord (getCtr s a).toNat else engineReg s oe off a
    | .schedQueue l c off =>
      if !isPort s l then 0
      else (match off with
        | 0x10 => w32 (queueBytes s l c)
        | 0x14 => w32 (queueFrames s l c)
        | 0x18 => w32 (getEq s l c).deficit
        | _ => if d.lo then lowWord (getCtr s a).toNat else getReg s a)
    | .schedPort l off =>
      if !isPort s l then 0
      else if off = 0xC then bitWord 8 (fun c => ((getPort s l).paused.getD c none).isSome)
      else getReg s a
    | .policer l _ _ => if !isPort s l || harnessRole s l then 0 else if d.lo then lowWord (getCtr s a).toNat else getReg s a
    | .wheel fp off => if off = 8 then w32 (Nat.min 4095 (wheelUsed s fp)) else getReg s a
    | .tile cl p off =>
      if absent s cl p then 0
      else if off = 0 then tileStatus s cl p
      else if d.lo then lowWord (getCtr s a).toNat else getReg s a
    | .group cl gq off =>
      if d.lo then (if (getGroup s cl gq).held then lowWord (getCtr s a).toNat else 0) else groupReg s cl gq off a
    | .transport cl off => if d.lo then lowWord (getCtr s a).toNat else transportReg s cl off a
    | .harness off => harnessReg s off a
    | .evtos off => evtosReg s off a
    | .errors off => errorReg s off a
    | .record slot word => w32 (fld (mget 0 s.err.ring slot) (32 * word) 32)
    | .health off => if d.lo then lowWord (getCtr s a).toNat else healthReg s off a
    | .boot off => bootReg s off a
    | .signals off => signalsReg s off a
    | .uptime off => if off = 0x10 then lowWord (uptimeSeen s) else getReg s a
    | _ => if d.lo then lowWord (getCtr s a).toNat else getReg s a

/-! ### What a read does beside answering (R19, R46) -/

/-- A read-clear register clears. -/
def clearRead (a : Nat) (s : State) : State :=
  match placeOf a with
  | .queue cl qid _ => modQ cl qid (fun q => { q with dbReject := 0 }) s
  | .buffers cl off =>
    if off < 0x100 then setReg a 0 s
    else
      let o := ownSel s cl
      if !ownerExists s cl o then s
      else modOwner cl o (fun w => match off with
        | 0x124 => { w with drop := 0 }
        | 0x128 => { w with ageDrop := 0 }
        | 0x12C => { w with flushDrop := 0 }
        | _ => w) s
  | .evtos off => if 0x100 ≤ off then setRing ((off - 0x100) / 0x20) { getRing s ((off - 0x100) / 0x20) with lost := 0 } s else setReg a 0 s
  | .group cl gq _ => if (getGroup s cl gq).held then setReg a 0 s else s
  | .schedQueue l _ _ => if isPort s l then setReg a 0 s else s
  | .policer l _ _ => if isPort s l && !harnessRole s l then setReg a 0 s else s
  | .tile cl p _ => if absent s cl p then s else setReg a 0 s
  | _ => setReg a 0 s

/-- Reading a LO register latches the upper half. -/
def latchRead (a : Nat) (s : State) : State :=
  match placeOf a with
  | .queue cl qid _ => modQ cl qid (fun q => { q with waitCountHi := highWord q.waitCount.toNat }) s
  | .uptime _ => takeFresh (setReg (a + 4) (highWord (uptimeSeen s)) s)
  | _ => setReg (a + 4) (highWord (getCtr s a).toNat) s

/-- Read a register: its value, and what the read does. A lane's counters first move on by what it has received (R621). -/
def regRead (a : Nat) (s : State) : W32 × State :=
  match regDef a with
  | none => (0, s)
  | some d =>
    let s := match placeOf a with
      | .engine oe off => if 0x1000 ≤ off ∧ off < 0x2000 then laneProgress (32 * oe + (off - 0x1000) / 0x80) s
          else if 0x2000 ≤ off then takeFresh s else s
      | _ => s
    let v := regValue s a
    (v, if d.lo then latchRead a s else if d.rc then clearRead a s else s)

/-! ### Writes -/

/-- A write to a plain register: fields that refuse a value keep theirs, W1C bits clear, the others ignore. -/
def plainWrite (a : Nat) (d : RegDef) (v : W32) (s : State) : State :=
  let o := getReg s a
  let n := w32 (d.fix o.toNat v.toNat)
  let rw := w32 d.rw
  setReg a ((o &&& ~~~rw &&& ~~~(v &&& w32 d.w1c)) ||| (n &&& rw)) s

/-- A write inside a control block (R72, R73, R113, R183). -/
def queueRegWrite (init : Initiator) (cl qid off : Nat) (v : W32) (s : State) : State :=
  let q := getQ s cl qid
  let still := decide (queueState s cl qid = 3) || decide (queueState s cl qid = 4)
  let ar := fun (f : AR → AR) =>
    if still then modQ cl qid (fun q => { q with ars := setAt q.ars ((off - 0x100) / 16) (f (arOf q ((off - 0x100) / 16))) }) s else s
  let half := fun (n : Nat) (hi : Bool) => if hi then n % 2 ^ 32 + v.toNat * 2 ^ 32 else n / 2 ^ 32 * 2 ^ 32 + v.toNat
  if absent s cl (engOf qid) || (decide (qid = 8) && decide (init ≠ .mc)) || decide (0x200 ≤ off) then s
  else if 0x100 ≤ off then
    match off % 16 with
    | 0 => ar (fun r => { r with base := BitVec.ofNat 48 (half r.base.toNat false) })
    | 4 => ar (fun r => { r with base := BitVec.ofNat 48 (half r.base.toNat true) })
    | 8 => ar (fun r => { r with stride := v.setWidth 28 })
    | 12 => ar (fun r => { r with wrap := v.setWidth 28 })
    | _ => s
  else match off with
    | 0x00 => ctlWrite cl qid v s
    | 0x14 => doorbellArrive cl qid (fld v 0 17) s
    | 0x18 => if still && decide (q.head = q.tail) then
        setQ cl qid { q with qbase := BitVec.ofNat 48 (q.qbase.toNat / 2 ^ 32 * 2 ^ 32 + v.toNat / 32 * 32) } s else s
    | 0x1C => if still && decide (q.head = q.tail) then setQ cl qid { q with qbase := BitVec.ofNat 48 (half q.qbase.toNat true) } s else s
    | 0x2C => setQ cl qid { q with waitLimit := BitVec.ofNat 64 (half q.waitLimit.toNat false) } s
    | 0x30 => setQ cl qid { q with waitLimit := BitVec.ofNat 64 (half q.waitLimit.toNat true) } s
    | _ => s

/-- A write of the settings of the owner that OWN_SEL names (R412, R425). -/
def ownerWrite (cl off : Nat) (v : W32) (s : State) : State :=
  let o := ownSel s cl
  let set := fun (f : Owner → Owner) => if ownWritable s cl o then modOwner cl o f s else s
  match off with
  | 0x104 => ownResWrite cl 0 v s
  | 0x108 => ownResWrite cl 1 v s
  | 0x10C => ownResWrite cl 2 v s
  | 0x110 => set (fun w => { w with limitKib := fld v 0 16, ovfEn := bitOf v 16 })
  | 0x114 => set (fun w => { w with ovfLimit := fld v 0 20 })
  | 0x118 => set (fun w => { w with ageLimit := v.toNat })
  | 0x130 => if bitOf v 1 then set (fun w => { w with resRefused := false }) else s
  | _ => s

/-- A write of OVF_CFG (R227): out of range, or while a port of the die's clusters is up, it is ignored. -/
def ovfCfgWrite (d : Nat) (v : W32) (s : State) : State :=
  let up := (List.range 256).any (fun i => linkUp s (256 * d + i))
  if 16 < fld v 0 5 || up then s else setField (memRegs d) 0 5 (fld v 0 5) s

/-- A write of GS_CTL (R350, R355). -/
def gsCtlWrite (cl gq : Nat) (v : W32) (s : State) : State :=
  let s := setField (gsRegs cl gq + 0xC) 1 1 (fld v 1 1) s
  if bitOf v 0 then groupAbort cl gq s else s

/-- A write of HL_CLEAR (R569). -/
def hlClearWrite (v : W32) (s : State) : State :=
  match selectedUnit s with
  | some k => if bitOf v 0 then modHUnit k (fun x => { x with score := 0, suspect := false }) s else s
  | none => s

/-- A write to a ring's register at offset `off` of its block (R499-R503). -/
def ringRegWrite (i off : Nat) (v : W32) (s : State) : State :=
  match off with
  | 0x00 => ringBaseWrite i false v s
  | 0x04 => ringBaseWrite i true v s
  | 0x08 => ringCfgWrite i v s
  | 0x0C => ringHeadWrite i v s
  | 0x14 => ringDoorbellWrite i (fld v 0 17) s
  | 0x1C => ringIrqWrite i v s
  | _ => s

/-- A write of TJ_CFG takes the guards of the condition bands with it (R565, R603). -/
def tjWrite (a : Nat) (d : RegDef) (v : W32) (s : State) : State :=
  let s := plainWrite a d v s
  (List.range 8).foldl (fun s r => setGuard r s) s

/-- SLOT_LOG2 is not written while a port of the pipeline has ADMIN_UP 1 (R441). -/
def wheelWrite (fp a : Nat) (d : RegDef) (v : W32) (s : State) : State :=
  if (List.range 32).any (fun i => adminUp s (32 * fp + i)) then s else plainWrite a d v s

/-- What writing `v` to the register at `a` does, once the initiator is one that may write it. -/
def regAct (init : Initiator) (a : Nat) (d : RegDef) (v : W32) (s : State) : State :=
  match placeOf a with
  | .queue cl qid off => queueRegWrite init cl qid off v s
  | .dose off => if off = 0x1C then (if bitOf v 0 then doseTestGo init s else s) else plainWrite a d v s
  | .cvu cl n off =>
    (match off with
     | 4 => cvuCtl cl n v s
     | 0x10 => cvuData cl n (leBytes 1 v.toNat) s
     | 0x14 => cvuData cl n (leBytes 2 v.toNat) s
     | 0x18 => cvuData cl n (leBytes 4 v.toNat) s
     | 0 => cvuConfigured cl n (plainWrite a d v s)
     | _ => plainWrite a d v s)
  | .detector cl off =>
    if off = 0x600 then semAddWrite init cl v s
    else if 0x400 ≤ off ∧ off < 0x600 then
      (List.range 32).foldl (fun s b =>
        let n := (off - 0x400) * 8 + b
        if bitOf v b then setSem cl n { getSem s cl n with ovf := false } s else s) s
    else plainWrite a d v s
  | .counter cl n => scopeCheck cl n (setSem cl n { value := v, ovf := false } (meetCounter cl n s))
  | .buffers cl off => if off = 0xC then bpmCtlWrite cl v s else if 0x104 ≤ off then ownerWrite cl off v s else plainWrite a d v s
  | .engine oe off =>
    if off < 0x100 then laneGroupMode (4 * oe + off / 4) (fld v 0 2) s
    else if off < 0x300 then
      let lane := 32 * oe + (off - 0x100) / 16
      if !isPort s lane then s
      else if off % 16 = 0 then portCfgWrite lane v s
      else plainWrite a d v s
    else if 0x1000 ≤ off ∧ off < 0x2000 ∧ off % 0x80 = 4 then olCtlWrite (32 * oe + (off - 0x1000) / 0x80) v s
    else plainWrite a d v s
  | .schedQueue l _ _ => if isPort s l then plainWrite a d v s else s
  | .schedPort l _ => if isPort s l then plainWrite a d v s else s
  | .policer l _ _ => if isPort s l && !harnessRole s l then plainWrite a d v s else s
  | .wheel fp _ => wheelWrite fp a d v s
  | .tile cl p _ => if absent s cl p then s else plainWrite a d v s
  | .memory die off => if off = 0 then ovfCfgWrite die v s else plainWrite a d v s
  | .group cl gq off =>
    if !(getGroup s cl gq).held then s else if off = 0xC then gsCtlWrite cl gq v s else plainWrite a d v s
  | .tables die off => if off = 4 then ftCommand die v s else plainWrite a d v s
  | .transport cl off =>
    let lane := 128 * cl + (off - 0x8000) / 16
    if off < 0x8000 ∨ (isPort s lane ∧ ¬ harnessRole s lane) then plainWrite a d v s else s
  | .evtos off => if 0x100 ≤ off then ringRegWrite ((off - 0x100) / 0x20) (off % 0x20) v s else plainWrite a d v s
  | .errors off =>
    if off = 4 then ackWrite v s else if off = 0x14 then handledWrite v s else plainWrite a d v s
  | .health off => if off = 0x70 then hlClearWrite v s else plainWrite a d v s
  | .boot off => if off = 8 then evtLenWrite v s else if off = 0x14 then rearmWrite v s else plainWrite a d v s
  | .signals off => if off = 8 then tjWrite a d v s else plainWrite a d v s
  | _ => plainWrite a d v s

/-- Whether the register takes writes from this initiator beside what the table says; a ring also has its PL (R501). -/
def writerOk (init : Initiator) (d : RegDef) : Bool :=
  match d.writer with
  | .any => true
  | .pl0 => isPl0 init
  | .mcOnly => decide (init = .mc)

/-- Write a register: what a write by an initiator with the right does. -/
def regWrite (init : Initiator) (a : Nat) (v : W32) (s : State) : State :=
  match regDef a with
  | none => s
  | some d => if writerOk init d then regAct init a d v s else s

/-! ### Rights over registers (R355, R580, R584, R585) -/

/-- The performance counter window of a cluster: no access in it is refused (R628). -/
def inCounterWindow (a : Nat) : Bool :=
  decide (0xF000_0000_0000 ≤ a) && decide (a < 0xF000_8000_0000) && decide (a / 0x10_0000 % 256 = 2)

/-- The address and the right that a read or a write of a register is judged with; `none`: no right is needed. -/
def regRight (a : Nat) (v : W32) (write : Bool) : Option (Nat × Right) :=
  if inCounterWindow a then none else
  match placeOf a with
  | .queue _ _ _ => some (a, if write then .doorbell else .read)
  | .group cl gq _ => some (qcbBase cl (0x1000 + gq) + 0x14, if write then .doorbell else .read)
  | .detector cl off => if write ∧ off = 0x600 then some (semRegs cl + 4 * fld v 0 12, .signal) else some (a, if write then .write else .read)
  | .boot off => if 0x1000 ≤ off ∧ !write then none else some (a, if write then .write else .read)
  | _ => some (a, if write then .write else .read)

/-- Rings refuse writes of a PL they do not allow (R501). -/
def ringRefuses (init : Initiator) (a : Nat) (write : Bool) : Bool :=
  match placeOf a, init with
  | .evtos off, .companion pl => write && decide (0x100 ≤ off) && decide (ringPl ((off - 0x100) / 0x20) < pl.val)
  | _, _ => false

/-- Rings take writes from the companion and the MC only. -/
def ringIgnores (init : Initiator) (a : Nat) : Bool :=
  match placeOf a, init with
  | .evtos off, .engine _ _ => decide (0x100 ≤ off)
  | .evtos off, .peer _ => decide (0x100 ≤ off)
  | _, _ => false

/-- The control block of the spare role takes writes from the MC only (R183). -/
def spareRefuses (init : Initiator) (a : Nat) (write : Bool) : Bool :=
  match placeOf a with
  | .queue _ qid _ => write && decide (qid = 8) && decide (init ≠ .mc)
  | _ => false

/-- An initiator may make this register access. -/
def regAllowed (s : State) (init : Initiator) (a : Nat) (v : W32) (write : Bool) : Bool :=
  !ringRefuses init a write && !spareRefuses init a write &&
    (match regRight a v write with
     | some (x, r) => mayAccess s init x 4 r
     | none => !unreachable s init && (match init with
        | .companion _ => companionGate s a 4
        | _ => true))

/-- A register access in a mapped block (R53, R628). -/
def regMapped (a : Nat) : Bool := decide (a % 4 = 0) && (blockOf a).isSome

/-- What an engine halts for whose access of a register is not mapped (R53, R103). -/
def regReason (a : Nat) : Nat := if (blockOf a).isNone then 0x04 else 0x05

/-- A read, as its initiator has it answered. -/
def answerWith (st : Completion) (data : List Byte) (poison : List Bool) (s : State) : State :=
  { s with answer := { status := st, data := data, poison := poison } }

/-- An access to nothing, or of a wrong shape (R53): counted when the companion made it (R495), and a halt of the queue whose
engine made it. -/
def unmappedAccess (init : Initiator) (reason len : Nat) (s : State) : State :=
  if unreachable s init then s
  else
    let s := match init with
      | .companion _ => bumpSat (evtRegs + 0x10) 1 s
      | .engine cl qid => haltAccess cl.val qid.toNat reason s
      | _ => s
    answerWith .unmapped (List.replicate len 0) [] s

/-- A register whose own storage holds an error is met: a counter, a control block or an AR (R534). -/
def meetReg (a : Nat) (s : State) : State :=
  match placeOf a with
  | .counter cl n => meetCounter cl n s
  | .queue cl qid _ =>
    if s.bad.contains (.queue cl qid) then hwHalt cl qid { s with bad := s.bad.filter (fun d => decide (d ≠ .queue cl qid)) } else s
  | _ => s

/-- Read one register for an initiator. -/
def readRegister (init : Initiator) (a : Nat) (s : State) : State :=
  if !regMapped a then unmappedAccess init (regReason a) 4 s
  else if regAllowed s init a 0 false then
    let (v, s) := regRead a (meetReg a s)
    answerWith .ok (leBytes 4 v.toNat) [] s
  else if unreachable s init then s
  else answerWith .denied (List.replicate 4 0) [] (refuseReg 1 init a s)

/-- Write one register for an initiator. -/
def writeRegister (init : Initiator) (a : Nat) (v : W32) (s : State) : State :=
  if !regMapped a then unmappedAccess init (regReason a) 0 s
  else if regAllowed s init a v true then (if ringIgnores init a then s else regWrite init a v (meetReg a s))
  else if unreachable s init then s
  else answerWith .denied [] [] (refuseAccess init a s)

/-! ### Meanings -/

/-- LATCHED_READ (R46, R181) -/
def execLatchedRead (by' : Initiator) (addr : W48) (s : State) : Host.Outcome State Fault Refusal :=
  .next (readRegister by' addr.toNat s)

/-- READ_CLEAR (R19) -/
def execReadClear (by' : Initiator) (addr : W48) (s : State) : Host.Outcome State Fault Refusal :=
  .next (readRegister by' addr.toNat s)

/-- REGISTER_WRITE (R19) -/
def execRegisterWrite (by' : Initiator) (addr : W48) (v : W32) (s : State) : Host.Outcome State Fault Refusal :=
  .next (writeRegister by' addr.toNat v s)

/-- OVF_CFG_WRITE (R227, R228): from the MC and at PL 0 -/
def execOvfCfgWrite (by' : Initiator) (die : Fin 4) (v : W32) (s : State) : Host.Outcome State Fault Refusal :=
  pl0Write by' (memRegs die.val) (ovfCfgWrite die.val v) s

end Sys2Proof.Machine
end

