-- ==== Sys2Proof/Machine/Access.lean ====
section
/-! DEFINITION. Accesses from outside the engines: the companion over Evtos with its snoop filter
(15_evtos_and_commands.md, R493-R498), TFT WRITE packets (R462), the debug port (R582, R618). -/

namespace Sys2Proof.Machine

/-! ### Registers and memory, as an initiator reaches them -/

/-- An access to registers of the width and alignment of R51. -/
def mmioShape (a len : Nat) : Bool :=
  (decide (len = 4) || decide (len = 8)) && decide (a % len = 0) && (blockOf a).isSome

/-- Some byte of the access lies in the register part of the map. -/
def touchesMmio (a len : Nat) : Bool := isMmio a || (decide (0 < len) && isMmio (a + len - 1))

/-- The registers that an access of the right shape reaches. -/
def mmioWords (a len : Nat) : List Nat := if len = 8 then [a, a + 4] else [a]

/-- Read registers in ascending order. -/
def mmioRead (a len : Nat) (s : State) : List Byte × State :=
  (mmioWords a len).foldl (fun (p : List Byte × State) x =>
    let (v, s) := regRead x (meetReg x p.2)
    (p.1 ++ leBytes 4 v.toNat, s)) ([], s)

/-- Write registers in ascending order. -/
def mmioWrite (init : Initiator) (a : Nat) (bs : List Byte) (s : State) : State :=
  (mmioWords a bs.length).foldl (fun s x =>
    if ringIgnores init x then s else regWrite init x (w32 (leAt bs (x - a) 4)) (meetReg x s)) s

def mmioAllowed (s : State) (init : Initiator) (a len : Nat) (data : List Byte) (write : Bool) : Bool :=
  (mmioWords a len).all (fun x => regAllowed s init x (w32 (leAt data (x - a) 4)) write)

/-- Poison bits of the 64-byte granules that bytes at `a` touch. -/
def granuleBits (a : Nat) (bs : List PByte) : List Bool :=
  (granules a bs.length).map (fun g => (bs.zipIdx).any (fun (x : PByte × Nat) => x.1.2 && decide ((a + x.2) / 64 = g)))

/-- Bytes with the poison bits that came for their granules. -/
def withBits (a : Nat) (data : List Byte) (poison : List Bool) : List PByte :=
  data.zipIdx.map (fun (x : Byte × Nat) => (x.1, poison.getD ((a + x.2) / 64 - a / 64) false))

/-! ### The snoop filter (R497) -/

def snoopSize : Nat := 4194304

def heldGranule (s : State) (g : Nat) : Option Snoop := s.snoop.find? (fun e => decide (e.granule = g))

/-- Memory's contents of a 128-byte granule, read for the companion. -/
def granuleData (g : Nat) (s : State) : List Byte × List Bool × State :=
  let (bs, s) := readMem (128 * g) 128 1 s
  (bytesOf bs, granuleBits (128 * g) bs, s)

/-- An entry for a granule; a full filter gives up the one allocated earliest. -/
def snoopAlloc (e : Snoop) (s : State) : State :=
  if s.snoop.length < snoopSize then { s with snoop := s.snoop ++ [e] }
  else match s.snoop with
    | [] => s
    | f :: rest => bumpSat (evtRegs + 8) 1 (recallOne { s with snoop := rest ++ [e] } f)

/-- The companion takes a granule, Shared or Exclusive: its data, and the entry. -/
def takeGranule (g : Nat) (excl : Bool) (s : State) : List Byte × List Bool × State :=
  match heldGranule s g with
  | some e =>
    if e.exclusive then (e.data, e.poison, s)
    else
      let (d, p, s) := granuleData g s
      if excl then
        (d, p, { s with snoop := s.snoop.map (fun x => if x.granule = g then { x with exclusive := true, data := d, poison := p } else x) })
      else (d, p, s)
  | none =>
    let (d, p, s) := granuleData g s
    (d, p, snoopAlloc { granule := g, exclusive := excl, data := if excl then d else [], poison := if excl then p else [] } s)

/-- The 128-byte granules an access touches. -/
def coherenceGranules (a len : Nat) : List Nat :=
  if len = 0 then [] else (List.range ((a + len - 1) / 128 - a / 128 + 1)).map (fun i => a / 128 + i)

/-- A cacheable read (R494, R497): the granules come to the companion whole, and one with a poisoned half is poisoned. -/
def coherentRead (a len : Nat) (excl : Bool) (s : State) : List PByte × State :=
  let (bs, s) := (coherenceGranules a len).foldl (fun (p : List PByte × State) g =>
    let (d, po, s) := takeGranule g excl p.2
    (p.1 ++ d.map (fun b => (b, po.any id)), s)) ([], s)
  ((bs.drop (a % 128)).take len, s)

/-- A cacheable write: the companion takes the granule Exclusive and changes its copy. -/
def coherentWrite (a : Nat) (bs : List PByte) (s : State) : State :=
  (coherenceGranules a bs.length).foldl (fun s g =>
    let (d, po, s) := takeGranule g true s
    let mine := fun (i : Nat) => decide (a ≤ 128 * g + i) && decide (128 * g + i < a + bs.length)
    let at' := fun (i : Nat) => bs.getD (128 * g + i - a) (0, false)
    let data := d.zipIdx.map (fun (x : Byte × Nat) => if mine x.2 then (at' x.2).1 else x.1)
    let poison := po.zipIdx.map (fun (x : Bool × Nat) =>
      let half := (List.range 64).map (fun i => 64 * x.2 + i)
      half.any (fun i => mine i && (at' i).2) || (x.1 && !half.all mine))
    { s with snoop := s.snoop.map (fun e => if e.granule = g then { e with data := data, poison := poison } else e) }) s

/-! ### Companion requests (R494-R496) -/

/-- How a companion request to memory completes. -/
def companionStatus (s : State) (pl : Fin 4) (a len : Nat) (coherent write : Bool) : Completion :=
  let init : Initiator := .companion pl
  if !companionGate s a len then .denied
  else if 2 ^ 48 < a + len || !memMapped s a len then .unmapped
  else if closedRegion s a len then
    (if coherent then .unsupported else if write || decide (pl.val ≠ 0) then .denied else .ok)
  else if mayAccess s init a len (if write then .write else .read) then .ok else .denied

/-- What a request that is not applied leaves: its count, its record, its status; `opc` as in R541. -/
def companionFails (opc : Nat) (st : Completion) (a : Nat) (len : Nat) (s : State) : State :=
  let s := match st with
    | .denied => companionDenied opc a s
    | _ => bumpSat (evtRegs + 0x10) 1 s
  answerWith st (List.replicate len 0) [] s

/-- A companion read (R495); one of a slot that is being copied is held (R185). -/
def companionRead (pl : Fin 4) (a len : Nat) (coherent exclusive : Bool) (s : State) : State :=
  let init : Initiator := .companion pl
  if unreachable s init then s
  else if touchesMmio a len then
    if coherent then companionFails 1 .unsupported a len s
    else if !companionGate s a len then companionFails 1 .denied a len s
    else if !mmioShape a len then companionFails 1 .unmapped a len s
    else if mmioAllowed s init a len [] false then
      let (bs, s) := mmioRead a len s
      answerWith .ok bs [] s
    else companionFails 1 .denied a len s
  else
    match companionStatus s pl a len coherent false with
    | .ok =>
      if inRotation s a len then { s with heldAcc := s.heldAcc ++ [.read pl a len coherent exclusive] } else
      let (bs, s) := if coherent then coherentRead a len exclusive s else readMem a len 1 s
      answerWith (if anyPoison bs then .poisoned else .ok) (bytesOf bs) (granuleBits a bs) s
    | st => companionFails 1 st a len s

/-- A companion write (R495, R205); one to a slot that is being copied is held (R185). -/
def companionWrite (pl : Fin 4) (a : Nat) (data : List Byte) (poison : List Bool) (coherent : Bool) (s : State) : State :=
  let init : Initiator := .companion pl
  let len := data.length
  if unreachable s init then s
  else if touchesMmio a len then
    if coherent then companionFails 2 .unsupported a 0 s
    else if !companionGate s a len then companionFails 2 .denied a 0 s
    else if !mmioShape a len then companionFails 2 .unmapped a 0 s
    else if mmioAllowed s init a len data true then answerWith .ok [] [] (mmioWrite init a data s)
    else companionFails 2 .denied a 0 s
  else
    match companionStatus s pl a len coherent true with
    | .ok =>
      if inRotation s a len then { s with heldAcc := s.heldAcc ++ [.write pl a data poison coherent] } else
      let bs := withBits a data poison
      answerWith .ok [] [] (if coherent then coherentWrite a bs s else writeMem a bs s)
    | st => companionFails 2 st a 0 s

/-- COMPANION_READ -/
def execCompanionRead (pl : Fin 4) (addr : W48) (len : Nat) (coherent exclusive : Bool) (s : State) :
    Host.Outcome State Fault Refusal :=
  .next (companionRead pl addr.toNat len coherent exclusive s)

/-- COMPANION_WRITE -/
def execCompanionWrite (pl : Fin 4) (addr : W48) (data : List Byte) (poison : List Bool) (coherent : Bool) (s : State) :
    Host.Outcome State Fault Refusal :=
  .next (companionWrite pl addr.toNat data poison coherent s)

/-! ### TFT WRITE packets (R462) -/

/-- The write of a packet is one the device makes. -/
def peerMayWrite (s : State) (init : Initiator) (a len : Nat) (data : List Byte) : Bool :=
  if touchesMmio a len then mmioShape a len && mmioAllowed s init a len data true
  else decide (a + len ≤ 2 ^ 48) && memMapped s a len && !closedRegion s a len && mayAccess s init a len .write

/-- The packet's write waits for the copy of a rotation (R185): the packet stays where it is. -/
def writeWaits (s : State) (p : Arrival) : Bool :=
  let h := parseTft p.packet
  inRotation s (h.tag % 2 ^ 48) h.len

/-- WRITE_PACKET_RECEIVE (R462) -/
def execWritePacketReceive (cl : Fin 8) (now : W64) (s : State) : Host.Outcome State Fault Refusal :=
  let s := advanceFwd cl.val now s
  .next (match frontPacket s cl.val 3 with
    | none => s
    | some p =>
      if writeWaits s p then s else
      let h := parseTft p.packet
      match receiveFront cl.val p (popArrival cl.val s) with
      | (s, none) => s
      | (s, some (c, k)) =>
        if k ≠ .inOrder then s
        else
          let init : Initiator := .peer (BitVec.ofNat 18 c)
          let a := h.tag % 2 ^ 48
          let bs := arrivalPayload p h
          if peerMayWrite s init a h.len (bytesOf bs) then
            accepted c h.ch p.ce (if touchesMmio a h.len then mmioWrite init a (bytesOf bs) s else writeMem a bs s)
          else
            let s := bumpSat (tftRegs cl.val + 0x20) 1 s
            let s := addCtr (tftRegs cl.val + 0x38) 1 s
            let s := modChan c h.ch (fun k => { k with exp := k.exp + 1, sinceAck := k.sinceAck + 1, ce := k.ce + boolNat p.ce }) s
            sendAck c h.ch (getChan (getCtx s c) h.ch).exp true s)

/-! ### The debug port (R582, R618) -/

/-- Debug level that an access needs. -/
def tapLevel (op : TapOp) : Nat :=
  match op with
  | .bypass => 0
  | .readReg _ => 1
  | .readMem _ _ => 1
  | .readMc => 1
  | .writeReg _ _ => 2
  | .writeMem _ _ => 2
  | .haltMc => 2
  | .stepMc => 2
  | .resumeMc => 2

/-- What an access does at a level that allows it: registers and memory are reached as the MC reaches them. -/
def tapDo (op : TapOp) (s : State) : State :=
  match op with
  | .bypass => s
  | .readReg a => readRegister .mc a.toNat s
  | .readMem a len =>
    if memMapped s a.toNat len then
      let (bs, s) := readMem a.toNat len 1 s
      answerWith (if anyPoison bs then .poisoned else .ok) (bytesOf bs) (granuleBits a.toNat bs) s
    else unmappedAccess .mc 0x04 len s
  | .readMc => answerWith .ok (leBytes 4 (Config.mcState s.fresh).toNat) [] (takeFresh s)
  | .writeReg a v => writeRegister .mc a.toNat v s
  | .writeMem a data =>
    if !memMapped s a.toNat data.length then unmappedAccess .mc 0x04 0 s
    else if closedRegion s a.toNat data.length then answerWith .denied [] [] s
    else answerWith .ok [] [] (writeMem a.toNat (clean data) s)
  | .haltMc => modBoot (fun b => { b with mcHalted := true }) s
  | .stepMc => s
  | .resumeMc => modBoot (fun b => { b with mcHalted := false }) s

/-- DEBUG_TAP_ACCESS -/
def execDebugTapAccess (op : TapOp) (s : State) : Host.Outcome State Fault Refusal :=
  running s (if tapLevel op ≤ s.boot.debugLevel then tapDo op s else s)

end Sys2Proof.Machine
end

