-- ==== Sys2Proof/Machine/Tile.lean ====
section
/-! DEFINITION. Matrix tiles (04_matrix_tiles.md), weight expansion and accumulation (03_number_formats.md), and
stored activation tiles as a tile reads them (06_compressed_tiles.md). -/

namespace Sys2Proof.Machine

/-! ### Stored activation tiles (R230, R231) -/

/-- The form record of a stored activation tile, as a number of 256 bits. -/
def frForm (r : Nat) : Nat := bitsOf r 0 2
def frElem (r : Nat) : Nat := bitsOf r 2 5
def frNelem (r : Nat) : Nat := bitsOf r 8 24
def frNnz (r : Nat) : Nat := bitsOf r 32 24
def frTbytes (r : Nat) : Nat := bitsOf r 56 24
def frReserved (r : Nat) : Nat := bitsOf r 80 176

/-- Sizes of the streams of a form (R231): values held, VLEN, ILEN. -/
def formValues (form nelem nnz : Nat) : Nat :=
  match form with
  | 0 => nelem
  | 1 => nelem / 2
  | _ => nnz

def formVlen (form w nelem nnz : Nat) : Nat := packedBytes w (formValues form nelem nnz)

/-- Four bits for each group of SPARSE24: where NELEM / 8 is no whole number, the last half byte is a byte of the stream
(DEDUCED, log entry 42). -/
def formIlen (form nelem : Nat) : Nat :=
  match form with
  | 0 => 0
  | _ => cdiv nelem 8

def formVpad (form w nelem nnz : Nat) : Nat := roundUp 32 (formVlen form w nelem nnz)

/-- TREQ (R231) -/
def formTreq (form w nelem nnz : Nat) : Nat := 32 + formVpad form w nelem nnz + roundUp 32 (formIlen form nelem)

/-- Bit `k` of a little-endian bit string. -/
def streamBit (bs : List Byte) (k : Nat) : Bool :=
  match bs[k / 8]? with
  | some b => bitOf b (k % 8)
  | none => false

/-- Dense element codes of a stored row from its value and index streams (R232-R234). -/
def expandForm (form w nelem : Nat) (values index : List Byte) : List Nat :=
  match form with
  | 0 => (List.range nelem).map (fun k => elemAt values w k)
  | 1 =>
    (List.range nelem).map (fun k =>
      let g := k / 4
      let f := elemAt index 4 g
      if k % 4 = f % 4 then elemAt values w (2 * g)
      else if k % 4 = f / 4 then elemAt values w (2 * g + 1)
      else 0)
  | _ =>
    ((List.range nelem).foldl (fun (p : List Nat × Nat) k =>
      if streamBit index k then (elemAt values w p.2 :: p.1, p.2 + 1) else (0 :: p.1, p.2)) ([], 0)).1.reverse

/-! ### The tile descriptor (R168) and the expansion descriptor (R128) -/

abbrev TileDesc := BitVec 512 × BitVec 128

def tdAfmt (d : TileDesc) : Nat := fld d.1 0 5
def tdBfmt (d : TileDesc) : Nat := fld d.1 5 5
def tdCvt (d : TileDesc) : Nat := fld d.1 10 16
def tdAform (d : TileDesc) : Nat := fld d.1 26 2
def tdDest (d : TileDesc) : Nat := fld d.1 28 2
def tdK (d : TileDesc) : Nat := fld d.1 32 24
def tdCols (d : TileDesc) : Nat := fld d.1 56 8 + 1
def tdLda (d : TileDesc) : Nat := fld d.1 64 32
def tdLdb (d : TileDesc) : Nat := fld d.1 96 32
def tdLdc (d : TileDesc) : Nat := fld d.1 128 32
def tdExpd (d : TileDesc) : Nat := fld d.1 160 48
def tdTarget (d : TileDesc) : Nat := fld d.1 208 18
def tdSeed (d : TileDesc) : Nat := fld d.1 256 64
def tdChunk0 (d : TileDesc) : Nat := fld d.1 320 32

def exMode (d : TileDesc) : Nat := fld d.2 0 2
def exTgt (d : TileDesc) : Nat := fld d.2 2 1
def exSrc (d : TileDesc) : Nat := fld d.2 3 1
def exSigned (d : TileDesc) : Bool := bitOf d.2 4
def exZp (d : TileDesc) : Bool := bitOf d.2 5
def exA (d : TileDesc) : Nat := fld d.2 8 48
def exB (d : TileDesc) : Nat := fld d.2 56 48

/-- CVT (R138) -/
def cvtFmt (c : Nat) : Nat := bitsOf c 0 5
def cvtSat (c : Nat) : Bool := decide (bitsOf c 5 1 = 1)
def cvtRnd (c : Nat) : Nat := bitsOf c 6 3

/-- The conditions a CVT field meets, for an engine that accepts the formats `fmts` and the modes `rnds`
(R117, R139). -/
def cvtConditions (c : Nat) (fmts rnds : Nat → Bool) : List Nat :=
  let f := cvtFmt c
  (if reservedFormat f || decide (6 ≤ cvtRnd c) || decide (bitsOf c 9 7 ≠ 0) ||
      (!cvtSat c && decide (8 ≤ f) && decide (f ≤ 11)) ||
      (cvtSat c && !(decide (4 ≤ f) && decide (f ≤ 16)))
    then [0x02] else []) ++
  (if (!reservedFormat f && !fmts f) || (decide (cvtRnd c < 6) && !rnds (cvtRnd c)) then [0x0B] else [])

/-- Weights are INT4 or INT8, and expand (R128). -/
def tdExpands (d : TileDesc) : Bool := decide (tdBfmt d = 0x0C) || decide (tdBfmt d = 0x0D)

/-- Format the weights multiply in: the element format of the stream, or the expansion target. -/
def tdWeightCode (d : TileDesc) : Nat := if tdExpands d then (if exTgt d = 0 then 4 else 3) else tdBfmt d

/-- KB of a dense activation (R155) for an accepted pair (R118, R131); `none`: the pair is not accepted. -/
def tdKb (d : TileDesc) : Option Nat :=
  let a := tdAfmt d
  let b := tdBfmt d
  let fp8 := fun f => decide (f = 4) || decide (f = 5)
  if tdExpands d then
    if exTgt d = 0 then (if fp8 a then some 256 else none) else (if a = 3 then some 128 else none)
  else if fp8 a && fp8 b then some 256
  else if microscaled a && microscaled b then some (if a = 10 ∧ b = 10 then 512 else 256)
  else if a = b ∧ (a = 2 ∨ a = 3) then some 128
  else if a = 1 ∧ b = 1 then some 64
  else none

/-- FP32 matrix mode (R136), four cycles a row (R155). -/
def tdFp32 (d : TileDesc) : Bool := decide (tdAfmt d = 1)

/-- Conditions of the expansion descriptor alone (R129). -/
def expConditions (d : TileDesc) : List Nat :=
  (if exMode d = 3 ∨ exMode d = 0 ∨ fld d.2 6 2 ≠ 0 ∨ fld d.2 104 24 ≠ 0 ∨
      (exMode d = 1 ∧ (exSrc d = 1 ∨ exSigned d ∨ exZp d ∨ exB d ≠ 0)) ∨ (exMode d = 2 ∧ exZp d = false ∧ exB d ≠ 0)
    then [0x02] else []) ++
  (if exA d % 32 ≠ 0 ∨ exB d % 32 ≠ 0 then [0x05] else []) ++
  (if (exSrc d = 1) ≠ (tdBfmt d = 0x0D) then [0x0B] else [])

/-- Conditions of the tile descriptor that need no memory (R117, R118, R127, R139, R143, R168, R170, R176). `whole`: the
expansion descriptor it names, if any, has been read; what depends on it is judged then. -/
def descConditions (s : State) (e : Eng) (w : BitVec 256) (d : TileDesc) (whole : Bool) : List Nat :=
  let a := tdAfmt d
  let b := tdBfmt d
  let dest := tdDest d
  let pair := whole || !tdExpands d
  let kb := (tdKb d).getD 0 * (if tdAform d = 1 then 2 else 1)
  let out := cvtFmt (tdCvt d)
  cvtConditions (tdCvt d) (fun f => decide (1 ≤ f) && decide (f ≤ 11)) (fun r => decide (r = 0) || decide (r = 5)) ++
  (if fld d.1 30 2 ≠ 0 ∨ fld d.1 226 30 ≠ 0 ∨ fld d.1 352 160 ≠ 0 ∨ dest = 3 ∨ tdK d = 0 ∨
      (tdExpd d ≠ 0 ∧ tdExpands d = false) ∨ (dest = 0 ∧ tdTarget d ≠ 0) ∨ (dest = 1 ∧ 0x1000 ≤ tdTarget d) ∨
      (dest ≠ 1 ∧ tdChunk0 d ≠ 0) ∨ reservedFormat a ∨ reservedFormat b
    then [0x02] else []) ++
  (if pair ∧ tdAform d ≠ 3 ∧ bitOf w 220 ∧ (tdKb d).isSome ∧ kb < tdK d then [0x02] else []) ++
  (if (¬ reservedFormat a ∧ (a = 0 ∨ 11 < a)) ∨ (¬ reservedFormat b ∧ (b = 0 ∨ 0x0D < b)) ∨
      (pair ∧ ¬ reservedFormat a ∧ ¬ reservedFormat b ∧ tdKb d = none) ∨
      ((microscaled a ∨ (pair ∧ tdExpands d ∧ exMode d = 2)) ∧ tdK d % 32 ≠ 0) ∨ (microscaled out ∧ tdCols d % 32 ≠ 0)
    then [0x0B] else []) ++
  (if whole ∧ tdExpands d then expConditions d else []) ++
  (if dest = 1 then
     match groupFormat s e.cl (tdTarget d) with
     | none => [0x03]
     | some f => if f = out then [] else [0x0B]
   else if dest = 2 then (if ctxGranted s e.cl e.qid (tdTarget d) then [] else [0x0D])
   else [])

/-! ### Arithmetic of a tile (R125, R126, R130, R133-R136) -/

/-- Value of an operand element in its element format; MXINT8 is q 2^-6 (R126). -/
def tileValue (code bits : Nat) : FVal :=
  match fmtOf code with
  | some f => decodeF f (bits % 2 ^ elemBits code)
  | none =>
    let v := sext 8 (bits % 256)
    .fin (decide (v < 0)) v.natAbs (-6)

/-- The exact sum of R133, with the rules of R134. -/
def exactSum (ts : List FVal) : FVal :=
  let pos := ts.any (fun t => decide (t = .inf false))
  let neg := ts.any (fun t => decide (t = .inf true))
  if ts.any FVal.isNan || (pos && neg) then .canon
  else if pos then .inf false
  else if neg then .inf true
  else (ts.foldl (fun d t => d.add t.dy) Dy.zero).val (ts.all (fun t => t.isZero && t.sign))

/-- acc + s with one rounding to ACC (R133, R136). -/
def tileAcc (acc s : FVal) : FVal :=
  match exactSum [acc, s] with
  | .fin g m e => decodeF accFmt (encFin accFmt .ieee .rne 0 g m e).1
  | x => x

/-- Multiply by a power of two; `none` is the scale that is NaN (R125). -/
def scaleBy (x : FVal) (k : Option Int) : FVal :=
  match k with
  | none => .canon
  | some k =>
    match x with
    | .fin s m e => .fin s m (e + k)
    | y => y

/-- Groups of 32 of a list. -/
def groups32 {α : Type} (fuel : Nat) (l : List α) : List (List α) :=
  match fuel with
  | 0 => []
  | n + 1 => if l.isEmpty then [] else l.take 32 :: groups32 n (l.drop 32)

/-- One output element before conversion (R133, R136). `sc` holds the exponent of each group's block scales. -/
def tileElement (fp32 : Bool) (a b : List FVal) (sc : List (Option Int)) : FVal :=
  let ps := (a.zip b).map (fun p => (mulExact p.1 p.2).1)
  if fp32 then ps.foldl tileAcc (.zero false)
  else
    ((groups32 (ps.length / 32 + 1) ps).foldl (fun (q : FVal × Nat) g =>
      (tileAcc q.1 (scaleBy (exactSum g) (sc.getD q.2 (some 0))), q.2 + 1)) (.zero false, 0)).1

/-- Exponent that two scale bytes give together (R125, R133). -/
def scaleExp (a b : Nat) : Option Int := if a = 0xFF ∨ b = 0xFF then none else some ((a : Int) + b - 254)

/-- One expanded weight (R130) and whether it was saturated. `t` is the table, `s` and `z` the scale and zero
point of the weight's block. -/
def expandWeight (d : TileDesc) (t : List Byte) (q s z : Nat) : Nat × Bool :=
  if exMode d = 1 then (leAt t (q % 16 * (exTgt d + 1)) (exTgt d + 1), false)
  else
    let w := elemBits (tdBfmt d)
    let qv : Int := if exSigned d then sext w q else q
    let v := qv - sext 8 z
    let p := (mulExact (.fin (decide (v < 0)) v.natAbs 0) (decodeF bf16 s)).1
    if exTgt d = 0 then
      match p with
      | .fin g m e => let (b, x) := encFin e4m3 .sat .rne 0 g m e; (b, x.overflow)
      | y => (encNan e4m3 y.sign quietBit, false)
    else ((finish bf16 .ieee .rne 0 (p, .none)).1, false)

/-! ### Output conversion (R140-R145) -/

/-- An element written: its bits, whether it is NaN or infinity, whether R141 counts it. -/
structure OutElem where
  bits : Nat
  special : Bool
  saturated : Bool

/-- Conversion of an ACC value to a floating format that is not microscaled, or to an element format of a
microscaled one. -/
def tileConvert (code : Nat) (sat : Bool) (rnd : Rnd) (r : Nat) (x : FVal) : OutElem :=
  match fmtOf code with
  | none =>
    -- MXINT8 (R126, R143)
    match x with
    | .fin s m e =>
      let (v, _) := roundInt rnd r s m (e + 6)
      let v := if 127 < v then 127 else if v < -127 then -127 else v
      ⟨(v % 256).toNat, false, false⟩
    | _ => ⟨0, false, false⟩
  | some f =>
    let fp8 := decide (4 ≤ code) && decide (code ≤ 7)
    match x with
    | .nan s _ => ⟨encNan f (s && fp8) quietBit, true, false⟩
    | .inf s => ⟨if f.oneNan then encNan f s quietBit else encInf f s, true, false⟩
    | .fin s m e =>
      let ov := if code < 4 then Over.ieee else if sat || decide (8 ≤ code) then Over.sat else Over.nonSat
      let (b, y) := encFin f ov rnd r s m e
      ⟨b, y.overflow && (if ov = .sat then false else match decodeF f b with
          | .fin _ _ _ => false
          | _ => true),
        y.overflow && fp8 && sat⟩

/-- EMAX of an element format (R143). -/
def emaxOf (code : Nat) : Int :=
  match code with
  | 6 => 8
  | 7 => 15
  | 8 => 4
  | 9 => 2
  | 10 => 2
  | _ => 0

/-- One microscaled block (R143): scale byte, elements, and the place of the first element that sets EXC. -/
def mxBlock (code : Nat) (sat : Bool) (rnd : Rnd) (seed idx : Nat) (vs : List FVal) : Nat × List OutElem :=
  let isFin := fun (x : FVal) => match x with
    | .fin _ _ _ => true
    | _ => false
  let dead := fun (i : Nat) => (0xFF, (List.range vs.length).map (fun j => OutElem.mk 0 (decide (j = i)) false))
  match vs.findIdx? (fun x => !isFin x) with
  | some i => dead i
  | none =>
    let le := vs.foldl (fun (o : Option Int) x =>
      match x with
      | .fin _ m e =>
        if m = 0 then o
        else match o with
          | none => some (leadExp m e)
          | some l => some (if l < leadExp m e then leadExp m e else l)
      | _ => o) none
    let x : Int := match le with
      | none => -127
      | some l => l - emaxOf code
    if 127 < x then dead 0
    else
      let x := if x < -127 then -127 else x
      ((x + 127).toNat,
       (List.range vs.length).map (fun j =>
         tileConvert code sat rnd (srBits seed (idx + j)) (scaleBy (vs.getD j (.zero false)) (some (-x)))))

/-- An output row: its elements and its scale bytes (R143, R153). -/
def convertRow (cvt seed rep row : Nat) (vs : List FVal) : List OutElem × List Byte :=
  let code := cvtFmt cvt
  let rnd := rndOf (cvtRnd cvt)
  let base := rep * 65536 + row * 256
  if microscaled code then
    let bs := groups32 (vs.length / 32 + 1) vs
    let out := (List.range bs.length).map (fun b => mxBlock code (cvtSat cvt) rnd seed (base + 32 * b) (bs.getD b []))
    ((out.map (fun p => p.2)).flatten, out.map (fun p => BitVec.ofNat 8 p.1))
  else ((List.range vs.length).map (fun j =>
    tileConvert code (cvtSat cvt) rnd (srBits seed (base + j)) (vs.getD j (.zero false))), [])

/-! ### Status (R144, R145, R180) -/

/-- Record the first element that is NaN or infinity (R145). -/
def noteExc (cl p rep : Nat) (rows : List (List OutElem)) (s : State) : State :=
  let a := tileRegs cl p
  let hit := (List.range rows.length).findSome? (fun i =>
    ((rows.getD i []).findIdx? (fun o => o.special)).map (fun j => (i, j)))
  match hit with
  | none => s
  | some (i, j) =>
    if bitOf (getReg s a) 0 then s
    else setReg (a + 4) (BitVec.ofNat 32 (rep + i * 65536 + j * 2 ^ 24)) (setField a 0 1 1 s)

/-! ### Reading operands (R169-R171, R242-R247) -/

/-- Byte distance rows: `n` extents of `len` bytes, `stride` apart from `base`. -/
def extents (base n stride len : Nat) : List (Nat × Nat) := (List.range n).map (fun i => (base + i * stride, len))

/-- The conditions of a list of extents, all at a row alignment of 32 bytes. -/
def extentConditions (s : State) (e : Eng) (r : Right) (xs : List (Nat × Nat)) : List Nat :=
  xs.filterMap (fun x => accessCondition s e x.1 x.2 32 r)

/-- Addresses of one repeat (R169). -/
structure RepAddr where
  a : Nat
  sa : Nat
  b : Nat
  sb : Nat
  c : Nat
  sc : Nat

/-- ARs that an instruction uses (R166, R89). -/
def mmulArs (w : BitVec 256) (d : TileDesc) : List Nat :=
  let mem := decide (tdDest d = 0)
  [wOp w 196 4, wOp w 204 4] ++ (if microscaled (tdAfmt d) then [wOp w 200 4] else []) ++
  (if microscaled (tdBfmt d) then [wOp w 208 4] else []) ++ (if mem then [wOp w 212 4] else []) ++
  (if mem && microscaled (cvtFmt (tdCvt d)) then [wOp w 216 4] else [])

def engArIf (b : Bool) (e : Eng) (a rep : Nat) : QM Nat := if b then engAr e a rep else pure 0

def repAddrs (e : Eng) (w : BitVec 256) (d : TileDesc) (rep : Nat) : QM RepAddr := do
  let mem := decide (tdDest d = 0)
  let a ← engAr e (wOp w 196 4) rep
  let sa ← engArIf (microscaled (tdAfmt d)) e (wOp w 200 4) rep
  let b ← engAr e (wOp w 204 4) rep
  let sb ← engArIf (microscaled (tdBfmt d)) e (wOp w 208 4) rep
  let c ← engArIf mem e (wOp w 212 4) rep
  let sc ← engArIf (mem && microscaled (cvtFmt (tdCvt d))) e (wOp w 216 4) rep
  pure ⟨a, sa, b, sb, c, sc⟩

/-- Every extent of a repeat that R171 checks before any operand is read. A stored row is checked for its record
here, and for the bytes its record gives once that is read. -/
def repeatExtents (d : TileDesc) (m : Nat) (x : RepAddr) : List (Nat × Nat) × List (Nat × Nat) :=
  let k := tdK d
  let nc := tdCols d
  let g := k / 32
  let out := cvtFmt (tdCvt d)
  let rowA := if tdAform d = 0 then packedBytes (elemBits (tdAfmt d)) k else 32
  let rd := extents x.a m (tdLda d) rowA ++ extents x.b k (tdLdb d) (packedBytes (elemBits (tdBfmt d)) nc) ++
    (if microscaled (tdAfmt d) then [(x.sa, m * g)] else []) ++ (if microscaled (tdBfmt d) then [(x.sb, nc * g)] else []) ++
    (if tdExpands d then
       (if exMode d = 1 then [(exA d, 16 * (exTgt d + 1))]
        else [(exA d, nc * g * 2)] ++ (if exZp d then [(exB d, nc * g)] else []))
     else [])
  let wr := if tdDest d = 0 then
      extents x.c m (tdLdc d) (packedBytes (elemBits out) nc) ++ (if microscaled out then [(x.sc, m * (nc / 32))] else [])
    else []
  (rd, wr)

/-- The conditions of the record of a stored row (R242, R245). -/
def recordConditions (d : TileDesc) (r : Nat) : List Nat :=
  let f := frForm r
  let w := elemBits (tdAfmt d)
  (if f = 3 ∨ frReserved r ≠ 0 ∨ (f ≠ 2 ∧ frNnz r ≠ 0) ∨ frTbytes r % 32 ≠ 0 then [0x02] else []) ++
  (if frElem r ≠ tdAfmt d ∨ frNelem r ≠ tdK d ∨ (f = 1 ∧ frNelem r % 4 ≠ 0) ∨ (tdAform d ≠ 3 ∧ f ≠ tdAform d)
    then [0x0B] else []) ++
  (if frTbytes r < formTreq f w (frNelem r) (frNnz r) ∨ tdLda d < frTbytes r ∨ (f = 2 ∧ frNelem r < frNnz r)
    then [0x07] else [])

/-- Index of the first 2:4 group with equal positions. -/
def dupGroup (nelem : Nat) (index : List Byte) : Option Nat :=
  (List.range (nelem / 4)).find? (fun g => decide (elemAt index 4 g % 4 = elemAt index 4 g / 4))

/-- Read the records of every row of a repeat (R243, R245): row addresses with records. -/
def readRecords (e : Eng) (d : TileDesc) (a m : Nat) : QM (List (Nat × Nat)) := do
  let mut out : List (Nat × Nat) := []
  for i in List.range m do
    let row := a + i * tdLda d
    let bs ← engConsume e row 32 32 0
    let r := leNat bs
    match firstReason (recordConditions d r) with
    | some x => haltDetail x i
    | none => pure ()
    checkAccess e row (frTbytes r) 32 .read
    out := out ++ [(row, r)]
  pure out

/-- The streams of one stored row, checked (R245) and expanded. SYNDROME holds the row index in [7:0] and the
group in [31:8] (DESIGN CHOICE, log entry 13). -/
def readStoredRow (e : Eng) (d : TileDesc) (i row r : Nat) : QM (List Nat) := do
  let f := frForm r
  let w := elemBits (tdAfmt d)
  let n := frNelem r
  let vp := formVpad f w n (frNnz r)
  let index ← if f = 0 then pure [] else engConsume e (row + 32 + vp : Nat) (formIlen f n) 1 0
  if f = 1 then
    match dupGroup n index with
    | some g => haltDetail 0x06 (i + g * 256)
    | none => pure ()
  if f = 2 then
    let bits := (List.range (8 * formIlen 2 n)).filter (fun k => streamBit index k)
    if bits.length ≠ frNnz r ∨ bits.any (fun k => decide (n ≤ k)) then haltDetail 0x07 i
  let values ← engConsume e (row + 32 : Nat) (formVlen f w n (frNnz r)) 1 0
  pure (expandForm f w n values index)

/-! ### Weight buffers (R155, R156, R170, R178) -/

def loadTarget (t : Tile) : Nat :=
  let act := if t.active = 0 then t.wb0 else t.wb1
  if act.valid then 1 - t.active else t.active

def getWb (t : Tile) (i : Nat) : TileBuf := if i = 0 then t.wb0 else t.wb1

def setWb (t : Tile) (i : Nat) (b : TileBuf) : Tile := if i = 0 then { t with wb0 := b } else { t with wb1 := b }

/-- Put a loaded block into the buffer that loads, and make it the active one (R156; the first block after both
buffers were invalid goes to the buffer that is active: DEDUCED from the timing example, log entry 14). -/
def putBlock (t : Tile) (b : TileBuf) : Tile :=
  let i := loadTarget t
  { setWb t i b with active := i }

/-- Weight rows `[lo, hi)` as they lie in memory, their scale bytes, and their expansion (R130), with the weights
saturated. -/
def readWeights (e : Eng) (d : TileDesc) (x : RepAddr) (lo hi : Nat) : QM (List (List Nat) × List (List Nat) × Nat) := do
  let nc := tdCols d
  let g := tdK d / 32
  let w := elemBits (tdBfmt d)
  -- the groups of 32 that the rows lie in
  let gs := (List.range (cdiv hi 32 - lo / 32)).map (fun q => lo / 32 + q)
  let column := fun (base width j : Nat) => engConsume e (base + (j * g + lo / 32) * width : Nat) (gs.length * width) 1 0
  let mut rows : List (List Nat) := []
  for r in List.range (hi - lo) do
    let bs ← engConsume e (x.b + (lo + r) * tdLdb d : Nat) (packedBytes w nc) 1 0
    rows := rows ++ [(List.range nc).map (fun j => elemAt bs w j)]
  let mut scales : List (List Nat) := []
  if microscaled (tdBfmt d) then
    for j in List.range nc do
      let bs ← column x.sb 1 j
      scales := scales ++ [bs.map (fun b => b.toNat)]
  if tdExpands d then
    let t ← if exMode d = 1 then engConsume e (exA d) (16 * (exTgt d + 1)) 1 0 else pure []
    let mut ss : List (List Byte) := []
    let mut zs : List (List Byte) := []
    if exMode d = 2 then
      for j in List.range nc do
        let sj ← column (exA d) 2 j
        let zj ← if exZp d then column (exB d) 1 j else pure []
        ss := ss ++ [sj]
        zs := zs ++ [zj]
    let out := (List.range (hi - lo)).map (fun r => (List.range nc).map (fun j =>
      let q := (lo + r) / 32 - lo / 32
      expandWeight d t ((rows.getD r []).getD j 0) (leAt (ss.getD j []) (2 * q) 2) (leAt (zs.getD j []) q 1)))
    let sat := (out.map (fun l => (l.filter (fun p => p.2)).length)).foldl (fun a b => a + b) 0
    pure (out.map (fun l => l.map (fun p => p.1)), scales, sat)
  else pure (rows, scales, 0)

/-- Cycles that loading a block of `n` K steps takes (R155, R161). -/
def loadCycles (n kb : Nat) (sparse : Bool) : Nat :=
  let full := if sparse then 512 else 256
  if n = kb then full else cdiv (full * n) kb

/-- Load block `j` of a repeat's weights into the buffer that loads (R156, R170). Its tag names its own first row and the K
steps it holds (DESIGN CHOICE, log entry 102). Poison that is read marks the buffer and halts the tile (R178). -/
def loadBlock (e : Eng) (d : TileDesc) (x : RepAddr) (kb : Nat) (sparse : Bool) (j : Nat) : QM TileBuf := do
  let lo := j * kb
  let hi := Nat.min (tdK d) (lo + kb)
  let regs := tileRegs e.cl e.qid
  let tag := [x.b + lo * tdLdb d, tdBfmt d, hi - lo, tdCols d, tdExpd d, boolNat sparse]
  let empty : TileBuf := { valid := true, tag := tag, poison := false, fmt := tdWeightCode d, rows := [], scales := [] }
  match (readWeights e d x lo hi).run (← get) with
  | .error h s =>
    set (modTile e.cl e.qid (fun t => putBlock t { empty with poison := true }) s)
    throw h
  | .ok (rows, scales, sat) s =>
    let buf : TileBuf := { empty with rows := rows, scales := scales }
    set (bumpSat (regs + 0xC) sat (modTile e.cl e.qid (fun t => putBlock t buf) s))
    modify (addCtr (regs + 0x20) (loadCycles (hi - lo) kb sparse))
    pure buf

/-- The weights of a repeat (R170, R178): the resident block, or those loaded from B, block after block. -/
def weightsFor (e : Eng) (w : BitVec 256) (d : TileDesc) (x : RepAddr) (kb : Nat) (sparse : Bool) : QM TileBuf := do
  let resident := bitOf w 220
  let t := getTile (← get) e.cl e.qid
  let act := getWb t t.active
  let tag := [x.b, tdBfmt d, tdK d, tdCols d, tdExpd d, boolNat sparse]
  if resident && act.valid && decide (act.tag = tag) then
    if act.poison then haltDetail 0x0A (x.b / 64 * 64 * 65536) else pure act
  else
    if resident then modify (bumpSat (tileRegs e.cl e.qid + 0x10) 1)
    let mut all : TileBuf := { TileBuf.reset with fmt := tdWeightCode d, scales := List.replicate (tdCols d) [] }
    for j in List.range (cdiv (tdK d) kb) do
      let b ← loadBlock e d x kb sparse j
      all := { all with rows := all.rows ++ b.rows, scales := List.zipWith (fun l r => l ++ r) all.scales b.scales }
    pure all

/-! ### MT_MMUL -/

/-- Read the tile descriptor and the expansion descriptor it names (R167, R129). Where that one cannot be reached, its access
is judged together with the tile descriptor's own conditions (R103). -/
def readDesc (e : Eng) (w : BitVec 256) : QM TileDesc := do
  let base := (arOf (getQ (← get) e.cl e.qid) (wOp w 192 4)).base.toNat
  let bs ← engConsume e base 64 64 0
  let d1 := BitVec.ofNat 512 (leNat bs)
  let d : TileDesc := (d1, 0)
  if tdExpands d then
    match accessCondition (← get) e (tdExpd d) 16 16 .read with
    | some r => stopOn (descConditions (← get) e w d false ++ [r])
    | none => pure ()
    let xs ← engConsume e (tdExpd d) 16 16 0
    pure (d1, BitVec.ofNat 128 (leNat xs))
  else pure d

/-- Hand a finished block to its destination through the bank that holds it (R172, R173, R95): the queue goes on,
and the signals follow when the block is accepted. -/
def holdBlock (e : Eng) (c : Cur) (d : TileDesc) (bytes : List Byte) (elems : Nat) (s : State) : State :=
  let last := decide (wRepeat c.word ≤ c.rep)
  let b : HeldBlock :=
    { collective := decide (tdDest d = 1), target := tdTarget d,
      chunk := BitVec.ofNat 32 (tdChunk0 d + c.rep), bytes := bytes, elems := elems,
      each := if wEach c.word then some c.word else none,
      last := if last then some { word := c.word, count := c.count } else none }
  let s := modTile e.cl e.qid (fun t => { t with held := t.held ++ [b] }) s
  if last then
    let s := if wArwb c.word then
        modQ e.cl e.qid (fun q => { q with ars := (mmulArs c.word d).eraseDups.foldl (fun l a =>
          setAt l a (arWriteBack (l.getD a AR.reset) (wRepeat c.word + 1))) q.ars }) s
      else s
    atBoundary e.cl e.qid (modQ e.cl e.qid (fun q => { q with cur := none }) s)
  else modQ e.cl e.qid (fun q => { q with cur := some { c with rep := c.rep + 1, wrote := false, undo := [] } }) s

/-- The output block of one repeat: rows of converted elements with their scale bytes. -/
def outputBlock (c : Cur) (d : TileDesc) (rows : List (List Nat)) (asc : List Nat) (b : TileBuf) :
    List (List OutElem × List Byte) :=
  let g := tdK d / 32
  let nc := tdCols d
  let mx := microscaled (tdAfmt d)
  let wv := b.rows.map (fun r => r.map (fun x => tileValue b.fmt x))
  let cols := (List.range nc).map (fun j => wv.map (fun r => r.getD j (.zero false)))
  (List.range rows.length).map (fun i =>
    let av := (rows.getD i []).map (fun x => tileValue (tdAfmt d) x)
    let vs := (List.range nc).map (fun j =>
      let sc := if mx then
          (List.range g).map (fun q => scaleExp (asc.getD (i * g + q) 0) ((b.scales.getD j []).getD q 0))
        else []
      tileElement (tdFp32 d) av (cols.getD j []) sc)
    convertRow (tdCvt d) (tdSeed d) c.rep i vs)

/-- One repeat of MT_MMUL (R167-R177). -/
def mmulRun (e : Eng) (c : Cur) : QM Bool := do
    let w := c.word
    let s0 ← get
    let d ← match (if c.rep = 0 then none else (getTile s0 e.cl e.qid).desc) with
      | some d => pure d
      | none => readDesc e w
    modify (modTile e.cl e.qid (fun t => { t with desc := some d }))
    stopOn (descConditions (← get) e w d true)
    let m := wOp w 224 8 + 1
    let x ← repAddrs e w d c.rep
    if tdAform d ≠ 0 ∧ tdLda d % 32 ≠ 0 then haltWithReason 0x05
    let xs := repeatExtents d m x
    stopOn (extentConditions (← get) e .read xs.1 ++ extentConditions (← get) e .write xs.2)
    -- records of stored rows, and the density class of the repeat (R243)
    let recs ← if tdAform d = 0 then pure [] else readRecords e d x.a m
    let sparse := decide (tdAform d ≠ 0) && recs.all (fun p => decide (frForm p.2 = 1))
    let kb := (tdKb d).getD 1 * (if sparse then 2 else 1)
    if bitOf w 220 ∧ kb < tdK d then haltWithReason 0x02
    let buf ← weightsFor e w d x kb sparse
    -- activation rows and their scales
    let mut rows : List (List Nat) := []
    let wa := elemBits (tdAfmt d)
    if tdAform d = 0 then
      for i in List.range m do
        let bs ← engConsume e (x.a + i * tdLda d : Nat) (packedBytes wa (tdK d)) 1 0
        rows := rows ++ [(List.range (tdK d)).map (fun k => elemAt bs wa k)]
    else
      for i in List.range m do
        let p := recs.getD i (0, 0)
        let r ← readStoredRow e d i p.1 p.2
        rows := rows ++ [r]
    let asc ← if microscaled (tdAfmt d) then engConsume e x.sa (m * (tdK d / 32)) 1 0 else pure []
    let nb := cdiv (tdK d) kb
    let regs := tileRegs e.cl e.qid
    modify (fun s => addCtr (regs + 0x18) (m * nb * (if tdFp32 d then 4 else 1)) (addCtr (regs + 0x30) (m * nb) s))
    let out := outputBlock c d rows (asc.map (fun b => b.toNat)) buf
    let els := out.map (fun p => p.1)
    let scl := (out.map (fun p => p.2)).flatten
    let wo := elemBits (cvtFmt (tdCvt d))
    modify (fun s => noteExc e.cl e.qid c.rep els
      (bumpSat (regs + 8) ((els.map (fun l => (l.filter (fun o => o.saturated)).length)).foldl (fun a b => a + b) 0) s))
    if tdDest d = 0 then
      for i in List.range m do
        engWrite e (x.c + i * tdLdc d : Nat) (clean (packElems wo ((els.getD i []).map (fun o => o.bits)))) 1
      if microscaled (cvtFmt (tdCvt d)) then engWrite e x.sc (clean scl) 1
      pure true
    else
      let all := (els.map (fun l => l.map (fun o => o.bits))).flatten
      modify (holdBlock e c d (packElems wo all ++ scl) all.length)
      pure false

/-- One repeat of MT_MMUL: not while both banks hold a block (R173), and again after a parity error (R533). -/
def mmulRepeat (e : Eng) (c : Cur) : QM Bool := do
  if 2 ≤ (getTile (← get) e.cl e.qid).held.length then pure false
  else replayed (unitCl 1 e.cl e.qid) (hkey 1 e.cl (tileOf (← get) e.cl e.qid)) e.qid none id (mmulRun e c)

/-- ARs an MT_MMUL in progress uses, by the descriptor it has read. -/
def mmulArsOf (s : State) (cl t : Nat) (c : Cur) : List Nat :=
  match (getTile s cl t).desc with
  | some d => mmulArs c.word d
  | none => []

/-- MT_MMUL (R166-R178): one repeat -/
def execMtMmul (cl : Fin 8) (t : Fin 9) (s : State) : Host.Outcome State Fault Refusal :=
  .next (engineStep cl.val t.val 0x10 (fun s c => mmulArsOf s cl.val t.val c) (mmulRepeat ⟨cl.val, t.val⟩) s)

/-- Both weight buffers invalid (R166, R178, R179, R185). -/
def clearBuffers (cl t : Nat) (s : State) : State :=
  modTile cl t (fun x => { x with wb0 := TileBuf.reset, wb1 := TileBuf.reset }) s

/-- MT_WCLEAR (R166, R176, R178): earlier instructions of the queue have read their weights by the time it runs. -/
def execMtWclear (cl : Fin 8) (t : Fin 9) (s : State) : Host.Outcome State Fault Refusal :=
  .next (engineStep cl.val t.val 0x11 (fun _ _ => []) (fun _ => do
    modify (clearBuffers cl.val t.val)
    pure true) s)

/-! ### Blocks of a group that is destroyed (R334) -/

/-- Slot and repeat of the instruction that a held block belongs to. -/
def blockPlace (s : State) (cl t : Nat) (b : HeldBlock) : W48 × Nat :=
  let q := getQ s cl t
  match b.last with
  | some e => (BitVec.ofNat 48 (slotAddr q e.count), wRepeat e.word)
  | none =>
    match q.cur, (getTile s cl t).desc with
    | some c, some d => (c.slot, (b.chunk - BitVec.ofNat 32 (tdChunk0 d)).toNat)
    | some c, none => (c.slot, c.rep)
    | none, _ => (0, 0)

/-- A tile that holds blocks for a group that has been destroyed halts with ENGINE_ABSENT (R334, R176); the blocks come to
nothing. -/
def dropGroupBlocks (cl gq t : Nat) (s : State) : State :=
  let mine := fun (b : HeldBlock) => b.collective && decide (b.target % 4096 = gq)
  match (getTile s cl t).held.find? mine with
  | none => s
  | some b =>
    let p := blockPlace s cl t b
    haltQueue cl t { reason := 3 } p.1 p.2 (modTile cl t (fun x => { x with held := x.held.filter (fun b => !mine b) }) s)

end Sys2Proof.Machine
end

