-- ==== Sys2Proof/Machine/Mover.lean ====
section
/-! DEFINITION. Data movers (05_memory_and_movers.md, R209-R220), the stored activation tiles they write
(06_compressed_tiles.md, R229-R241), the patrol scrub and row repair. One MV_MOVE command moves one descriptor of the
chain, until it is done or waits; DESCRIPTOR_FETCH fetches ahead. -/

namespace Sys2Proof.Machine

def getMover (s : State) (cl m : Nat) : Mover := mget Mover.reset s.movers (cl * 8 + m)

def setMover (cl m : Nat) (x : Mover) (s : State) : State := { s with movers := mput Mover.reset s.movers (cl * 8 + m) x }

def modMover (cl m : Nat) (f : Mover → Mover) (s : State) : State := setMover cl m (f (getMover s cl m)) s

/-! ### The descriptor (R210) -/

def mdSrck (d : BitVec 512) : Nat := fld d 0 2
def mdDstk (d : BitVec 512) : Nat := fld d 2 2
def mdSrel (d : BitVec 512) : Bool := bitOf d 4
def mdDrel (d : BitVec 512) : Bool := bitOf d 5
def mdChain (d : BitVec 512) : Bool := bitOf d 6
def mdElem (d : BitVec 512) : Nat := fld d 8 5
def mdComp (d : BitVec 512) : Nat := fld d 13 2
def mdLen (d : BitVec 512) : Nat := fld d 112 24
def mdCnt1 (d : BitVec 512) : Nat := fld d 136 16
def mdCnt2 (d : BitVec 512) : Nat := fld d 152 16
def mdSstr1 (d : BitVec 512) : Int := sext 32 (fld d 168 32)
def mdDstr1 (d : BitVec 512) : Int := sext 32 (fld d 200 32)
def mdSstr2 (d : BitVec 512) : Int := sext 40 (fld d 232 40)
def mdDstr2 (d : BitVec 512) : Int := sext 40 (fld d 272 40)
def mdCtx (d : BitVec 512) : Nat := fld d 312 18
def mdNext (d : BitVec 512) : Nat := fld d 336 48
def mdFill (d : BitVec 512) : Nat := fld d 384 64

def mdRows (d : BitVec 512) : Nat := (mdCnt1 d + 1) * (mdCnt2 d + 1)

/-- Elements of a row under ELEM. -/
def mdNelem (d : BitVec 512) : Nat := mdLen d * 8 / elemBits (mdElem d)

/-- A field that R210 or R211 requires to be 0 is not, or a value is reserved. -/
def mdReserved (d : BitVec 512) : Bool :=
  let noSrc := decide (mdSrck d ≠ 0)
  let noDst := decide (mdDstk d ≠ 0)
  decide (mdSrck d = 3) || decide (2 ≤ mdDstk d) || bitOf d 7 || bitOf d 15 || decide (fld d 330 6 ≠ 0) ||
  decide (fld d 448 64 ≠ 0) || decide (mdLen d = 0) ||
  (noSrc && (mdSrel d || decide (fld d 16 48 ≠ 0) || decide (fld d 168 32 ≠ 0) || decide (fld d 232 40 ≠ 0))) ||
  (noDst && (mdDrel d || decide (fld d 64 48 ≠ 0) || decide (fld d 200 32 ≠ 0) || decide (fld d 272 40 ≠ 0))) ||
  (decide (mdComp d = 0) && decide (mdElem d ≠ 0)) || reservedFormat (mdElem d) ||
  (decide (mdSrck d ≠ 1) && decide (mdDstk d ≠ 1) && decide (mdCtx d ≠ 0)) ||
  (!mdChain d && decide (mdNext d ≠ 0)) || (decide (mdSrck d ≠ 2) && decide (mdFill d ≠ 0))

/-- Geometry of R235. -/
def mdGeometryBad (d : BitVec 512) : Bool :=
  let f := mdElem d
  let unit := match f with
    | 1 => 4
    | 2 => 2
    | 3 => 2
    | _ => if elemBits f = 6 then 3 else 1
  !(decide (1 ≤ f) && decide (f ≤ 0x0B)) || decide (65536 < mdLen d) || decide (mdLen d % unit ≠ 0) ||
  (decide (mdComp d = 2) && decide (mdNelem d % 4 ≠ 0)) ||
  (decide (mdDstk d = 0) && decide ((mdDstr1 d).natAbs < 32 + roundUp 32 (mdLen d)))

/-- Source and destination base of the repeat. -/
def mdSource (d : BitVec 512) (src : Option Nat) : Int :=
  if mdSrel d then (src.getD 0 : Int) + sext 48 (fld d 16 48) else fld d 16 48

def mdDest (d : BitVec 512) (dst : Option Nat) : Int :=
  if mdDrel d then (dst.getD 0 : Int) + sext 48 (fld d 64 48) else fld d 64 48

/-- Address of row `i` from a base, in the order of R211. -/
def mdRowAddr (d : BitVec 512) (base s1 s2 : Int) (i : Nat) : Int :=
  base + (i / (mdCnt1 d + 1) : Nat) * s2 + (i % (mdCnt1 d + 1) : Nat) * s1

/-- What reaching `[a, a + len)` meets, for one row (R218, R219, R627). -/
def rowReason (s : State) (e : Eng) (d : BitVec 512) (a : Int) (len : Nat) (write : Bool) : List Nat :=
  if a < 0 ∨ (2 : Int) ^ 48 < a + len then [0x04]
  else
    let n := a.toNat
    if touchesMmio n len then
      if mdComp d = 0 ∧ (mdLen d = 4 ∨ mdLen d = 8) ∧ n % mdLen d = 0 then
        if (blockOf n).isNone then [0x04]
        else
          -- SEM_ADD's right is judged with the counter it names, when the row is written
          let later : Nat → Bool := fun x => match placeOf x with
            | .detector _ off => write && decide (off = 0x600)
            | _ => false
          if (mmioWords n len).all (fun x => later x || regAllowed s e.init x 0 write) then [] else [0x0D]
      else [0x05]
    else
      (if closedRegion s n len || !allowed s e.init n len (if write then .write else .read) then [0x0D] else []) ++
      (if memMapped s n len then [] else [0x04]) ++ (if write ∧ mdComp d ≠ 0 ∧ n % 32 ≠ 0 then [0x05] else [])

/-- Every check on a descriptor before its first byte moves (R218, R219, R235). -/
def mdReasons (s : State) (e : Eng) (d : BitVec 512) (src dst : Option Nat) : List Nat :=
  let rows := List.range (mdRows d)
  (if (mdSrel d ∧ src.isNone) ∨ (mdDrel d ∧ dst.isNone) then [0x04] else []) ++
  (if mdReserved d then [0x02] else []) ++
  (if mdComp d ≠ 0 ∧ !reservedFormat (mdElem d) ∧ mdGeometryBad d then [0x0B] else []) ++
  (if mdNext d % 64 ≠ 0 then [0x05] else []) ++
  (if (mdSrck d = 1 ∨ mdDstk d = 1) ∧ !ctxGranted s e.cl e.qid (mdCtx d) then [0x0D] else []) ++
  (if mdSrck d = 0 then
    rows.flatMap (fun i => rowReason s e d (mdRowAddr d (mdSource d src) (mdSstr1 d) (mdSstr2 d) i) (mdLen d) false) else []) ++
  (if mdDstk d = 0 then
    rows.flatMap (fun i => rowReason s e d (mdRowAddr d (mdDest d dst) (mdDstr1 d) (mdDstr2 d) i)
      (if mdComp d = 0 then mdLen d else (mdDstr1 d).natAbs) true) else [])

/-! ### Compression (R229-R238) -/

/-- Pack bits into bytes, lowest first. -/
def packBits (bs : List Bool) : List Byte := packElems 1 (bs.map boolNat)

/-- The two places a group stores (R237). -/
def groupPlaces (g : List Nat) : Nat × Nat :=
  match ((List.range 4).filter (fun i => decide (g.getD i 0 ≠ 0))) with
  | [] => (0, 1)
  | [p] => if p = 0 then (0, 1) else (0, p)
  | p :: q :: _ => (p, q)

/-- Elements in groups of four. -/
def groups4 (fuel : Nat) (es : List Nat) : List (List Nat) :=
  match fuel, es with
  | 0, _ => []
  | _, [] => []
  | k + 1, _ => es.take 4 :: groups4 k (es.drop 4)

/-- The form record of a row (R230). -/
def formRecord (form elem : Nat) (poison : Bool) (nelem nnz tbytes : Nat) : List Byte :=
  leBytes 32 (form + elem * 4 + boolNat poison * 128 + nelem * 2 ^ 8 + nnz * 2 ^ 32 + tbytes * 2 ^ 56)

def padTo32 (bs : List PByte) : List PByte := bs ++ clean (List.replicate (roundUp 32 bs.length - bs.length) 0)

/-- The form that R236 chooses: the form, and which fallback counter moves. -/
def chooseForm (comp w nelem nnz : Nat) (ok24 : Bool) : Nat × Bool × Bool :=
  let size := fun (f : Nat) => formTreq f w nelem nnz
  match comp with
  | 1 =>
    let best := if size 2 < size 0 then 2 else 0
    let best := if ok24 && decide (size 1 ≤ size best) then 1 else best
    (best, decide (best = 0) && decide (size 0 < size 2) && (!ok24 || decide (size 0 < size 1)), false)
  | 2 =>
    if !ok24 then (if size 2 < size 0 then 2 else 0, false, true)
    else if size 0 < size 1 then (0, true, false)
    else (1, false, false)
  | _ => if size 0 < size 2 then (0, true, false) else (2, false, false)

/-- Store one row (R236-R238): its bytes, and how it was stored. -/
def storeRow (comp elem : Nat) (row : List PByte) : List PByte × RowNote :=
  let w := elemBits elem
  let nelem := row.length * 8 / w
  let poison := anyPoison row
  let es := (List.range nelem).map (elemAt (bytesOf row) w)
  let nz := fun (x : Nat) => decide (x ≠ 0)
  let nnz := (es.filter nz).length
  let gs := groups4 nelem es
  let ok24 := decide (nelem % 4 = 0) && gs.all (fun g => decide ((g.filter nz).length ≤ 2))
  let (form, fbDense, fb24) := if poison then (0, false, false) else chooseForm comp w nelem nnz ok24
  let places := gs.map (fun g => (g, groupPlaces g))
  let (values, index) : List PByte × List Byte :=
    if form = 1 then
      (clean (packElems w (places.flatMap (fun (x : List Nat × Nat × Nat) => [x.1.getD x.2.1 0, x.1.getD x.2.2 0]))),
       packElems 4 (places.map (fun (x : List Nat × Nat × Nat) => x.2.1 + 4 * x.2.2)))
    else if form = 2 then (clean (packElems w (es.filter nz)), packBits (es.map nz))
    else (row, [])
  let rec' := formRecord form elem poison nelem (if form = 2 then nnz else 0) (formTreq form w nelem nnz)
  let bytes := clean rec' ++ padTo32 values ++ padTo32 (clean index)
  (bytes, { form := form, fbDense := fbDense, fb24 := fb24, poison := poison, len := bytes.length })

/-- Count a stored row that is complete (R249). -/
def countRow (b : Nat) (r : RowNote) (s : State) : State :=
  let s := bumpSat (b + 0x40) 1 s
  let s := bumpSat (b + (if r.form = 0 then 0x44 else if r.form = 1 then 0x48 else 0x4C)) 1 s
  let s := if r.fbDense then bumpSat (b + 0x50) 1 s else s
  let s := if r.fb24 then bumpSat (b + 0x54) 1 s else s
  let s := if r.poison then bumpSat (b + 0x58) 1 s else s
  addCtr (b + 0x68) r.len s

/-- Check a record that a placing descriptor receives (R241): a halt reason, or TBYTES. -/
def placeRecord (d : BitVec 512) (rec' : List PByte) : Except Nat Nat :=
  let r := leNat (bytesOf rec')
  let treq := formTreq (frForm r) (elemBits (mdElem d)) (frNelem r) (frNnz r)
  let bad := (if anyPoison rec' then [0x0A] else []) ++ (if frForm r = 3 ∨ frReserved r ≠ 0 then [0x02] else []) ++
    (if frElem r ≠ mdElem d ∨ frNelem r ≠ mdNelem d then [0x0B] else []) ++
    (if frTbytes r % 32 ≠ 0 ∨ frTbytes r < treq ∨ (mdDstk d = 0 ∧ (mdDstr1 d).natAbs < frTbytes r) then [0x07] else [])
  match firstReason bad with
  | some x => .error x
  | none => .ok (frTbytes r)

/-! ### Moving bytes -/

/-- A mover at work. -/
structure Mv where
  cl : Nat
  m : Nat
  deriving DecidableEq, Repr

def Mv.eng (x : Mv) : Eng := ⟨x.cl, 17 + x.m⟩
def Mv.regs (x : Mv) : Nat := mvRegs x.cl x.m
def Mv.get (x : Mv) (s : State) : Mover := getMover s x.cl x.m
def Mv.mod (x : Mv) (f : Mover → Mover) : QM Unit := modify (modMover x.cl x.m f)

/-- Take bytes of a receive stream. -/
def rxGet (c n : Nat) : QM (List PByte) := do
  let (bs, s) := rxTake ((getCtx (← get) c).rx.length + 1) c n (← get)
  set s
  pure bs

def countPoison (x : Mv) (a : Nat) (bs : List PByte) : QM Unit :=
  modify (fun s =>
    let n := ((granuleBits a bs).filter (fun b => b)).length
    if n = 0 then s else bumpSat (x.regs + 0x20) n s)

/-- Bytes have reached the destination: MV_BYTES, and MV_RXDONE for received payload. -/
def countMoved (x : Mv) (rx : Bool) (n : Nat) : QM Unit := do
  modify (addCtr (x.regs + 0x10) n)
  if rx then modify (bumpSat (x.regs + 0xC) n)

/-- Write a row, or a part of one, to memory or to registers. -/
def mvWrite (x : Mv) (rx : Bool) (a : Nat) (bs : List PByte) : QM Unit := do
  if touchesMmio a bs.length then
    if mmioAllowed (← get) x.eng.init a bs.length (bytesOf bs) true then
      modify (fun s => markWrote x.eng (mmioWrite x.eng.init a (bytesOf bs) s))
    else haltWithReason 0x0D
  else if rx then do
    holdFor a bs.length
    modify (fun s => markWrote x.eng (writeMem a bs s))
  else outWriteWhenFree x.eng a bs
  countMoved x rx bs.length

/-- How far moving came. -/
inductive MvGo where
  | done | waitRx | waitTx
  deriving DecidableEq, Repr

/-- Hand the waiting row to the transport, which takes it whole or not at all (R215, R457). -/
def mvSend (x : Mv) (rx : Bool) (c : Nat) : QM MvGo := do
  let bs := (x.get (← get)).out.getD []
  match handOver x.cl (17 + x.m) c bs false (← get) with
  | (s, false) =>
    set s
    pure .waitTx
  | (s, true) =>
    set (markWrote x.eng s)
    countMoved x rx bs.length
    x.mod (fun v => { v with out := none, ctxs := if v.ctxs.contains c then v.ctxs else v.ctxs ++ [c] })
    pure .done

/-- Received payload is at hand: the wait for it has ended. -/
def mvLiveEnd (x : Mv) : QM Unit :=
  modify (modQ x.cl (17 + x.m) (fun q => { q with cur := q.cur.map (fun c => { c with liveWait := false }) }))

/-- Gather received payload for the row at hand until it holds `want` bytes: the bytes are taken as they come, and each
arrival ends a wait (R211, R214). Answers whether they are all here. -/
def rxGather (x : Mv) (c want : Nat) : QM Bool := do
  let v := x.get (← get)
  if want ≤ v.pos then pure true
  else
    let n := Nat.min (rxHere x.cl (getCtx (← get) c)) (want - v.pos)
    if n = 0 then pure false
    else
      let bs ← rxGet c n
      mvLiveEnd x
      x.mod (fun v => { v with pos := v.pos + n, out := some (v.out.getD [] ++ bs) })
      pure (decide (v.pos + n = want))

/-- A row of received payload is whole: it is written, or handed to the transport. -/
def rxDeliver (x : Mv) (d : BitVec 512) (da : Int) (new : Bool) : QM MvGo := do
  let bs := (x.get (← get)).out.getD []
  if new then countPoison x 0 bs
  if mdDstk d = 1 then mvSend x true (mdCtx d)
  else
    mvWrite x true da.toNat bs
    pure .done

/-- A dense row of received payload (R211). -/
def mvRxDense (x : Mv) (d : BitVec 512) (da : Int) : QM MvGo := do
  let was := (x.get (← get)).pos
  if ← rxGather x (mdCtx d) (mdLen d) then rxDeliver x d da (decide (was < mdLen d)) else pure .waitRx

/-- A stored tile that is placed from received payload: its record first, then the rest of it (R241). -/
def mvPlace (x : Mv) (d : BitVec 512) (da : Int) : QM MvGo := do
  let was := (x.get (← get)).pos
  if ← rxGather x (mdCtx d) 32 then
    match placeRecord d (((x.get (← get)).out.getD []).take 32) with
    | .error r => haltWithReason r
    | .ok t =>
      if ← rxGather x (mdCtx d) t then
        let r ← rxDeliver x d da (decide (was < t))
        if r = .done then modify (bumpSat (x.regs + 0x5C) 1)
        pure r
      else pure .waitRx
  else pure .waitRx

/-- Source bytes of a row that does not come from a context. -/
def mvSource (x : Mv) (d : BitVec 512) (sa : Int) : QM (List PByte) := do
  if mdSrck d = 2 then
    pure (clean ((List.range (mdLen d)).map (fun i => BitVec.ofNat 8 (mdFill d >>> (8 * (i % 8))))))
  else if touchesMmio sa.toNat (mdLen d) then
    let (bs, s) := mmioRead sa.toNat (mdLen d) (← get)
    set s
    pure (clean bs)
  else
    let bs ← readWhenFree sa.toNat (mdLen d) 1
    countPoison x sa.toNat bs
    pure bs

/-- A row that has been compressed is complete. -/
def mvCounted (x : Mv) (r : MvGo) : QM MvGo := do
  match (x.get (← get)).note with
  | some n => if r = .done then modify (countRow x.regs n)
  | none => pure ()
  pure r

/-- Move one row (R211). -/
def mvRow (x : Mv) (d : BitVec 512) (src dst : Option Nat) : QM MvGo := do
  let v := x.get (← get)
  let sa := mdRowAddr d (mdSource d src) (mdSstr1 d) (mdSstr2 d) v.row
  let da := mdRowAddr d (mdDest d dst) (mdDstr1 d) (mdDstr2 d) v.row
  if mdSrck d = 1 then (if mdComp d = 0 then mvRxDense x d da else mvPlace x d da)
  else if v.out.isSome then mvCounted x (← mvSend x false (mdCtx d))
  else
    let row ← mvSource x d sa
    let bs ← (if mdComp d = 0 then pure row else do
      let r := storeRow (mdComp d) (mdElem d) row
      modify (addCtr (x.regs + 0x60) (mdLen d))
      x.mod (fun v => { v with note := some r.2 })
      pure r.1)
    if mdDstk d = 1 then
      x.mod (fun v => { v with out := some bs })
      mvCounted x (← mvSend x false (mdCtx d))
    else
      mvWrite x false da.toNat bs
      mvCounted x .done

/-- Move the rows that remain. -/
def mvRows (fuel : Nat) (x : Mv) (d : BitVec 512) (src dst : Option Nat) : QM MvGo := do
  match fuel with
  | 0 => pure .done
  | k + 1 =>
    let r ← mvRow x d src dst
    if r = .done then
      x.mod (fun v => { v with row := v.row + 1, pos := 0, out := none, note := none })
      mvRows k x d src dst
    else pure r

/-! ### Descriptors in order (R62, R63, R212, R213) -/

/-- Fetch a descriptor of repeat `rep`: what is wrong with it has no effect until it is reached. -/
def fetchDesc (x : Mv) (a rep : Nat) (s : State) : MvDesc × State :=
  match accessCondition s x.eng a 64 64 .read with
  | some r => ({ addr := a, reason := some r, bits := 0, poison := false, rep := rep }, s)
  | none =>
    let (bs, s) := readMem a 64 4 s
    ({ addr := a, reason := none, bits := BitVec.ofNat 512 (leNat (bytesOf bs)), poison := anyPoison bs, rep := rep }, s)

/-- Address an AR gives in a repeat, if it is one. -/
def arOr (e : Eng) (a rep : Nat) (s : State) : Option Nat := arAddress (arOf (getQ s e.cl e.qid) a) rep

/-- Address and repeat of the descriptor that follows the last one known: the next of its chain, or the first of the next
repeat (R62, R212). `none`: there is none, or it cannot be told. -/
def nextFetch (s : State) (x : Mv) : Option (Nat × Nat) :=
  let v := x.get s
  match (getQ s x.cl (17 + x.m)).cur with
  | none => none
  | some c =>
    let last : Option (BitVec 512 × Nat) := match v.pref.getLast? with
      | some p => if p.reason.isSome || p.poison then none else some (p.bits, p.rep)
      | none => v.desc.map (fun d => (d, c.rep))
    match last with
    | some (d, r) =>
      if mdChain d then some (mdNext d, r)
      else if r < wRepeat c.word then (arOr x.eng (wOp c.word 192 4) (r + 1) s).map (fun a => (a, r + 1))
      else none
    | none => none

/-- Prefetch one descriptor, if fewer than `n` are held. -/
def prefetch (n : Nat) (x : Mv) (s : State) : State :=
  match nextFetch s x with
  | some (a, r) =>
    if (x.get s).pref.length < n ∧ ¬ inRotation s a 64 then
      let (p, s) := fetchDesc x a r s
      modMover x.cl x.m (fun v => { v with pref := v.pref ++ [p] }) s
    else s
  | none => s

/-- A chain, as it stands in memory from address `a` on, has an RXCTX source (R216). -/
def chainRx (s : State) (fuel a : Nat) : Bool :=
  match fuel with
  | 0 => false
  | k + 1 =>
    let d := BitVec.ofNat 512 (leNat ((List.range 64).map (fun i => memByte s (a + i))))
    memMapped s a 64 && (decide (mdSrck d = 1) || (mdChain d && chainRx s k (mdNext d)))

/-- Bring the next descriptor of the chain to hand, checked. -/
def openDesc (x : Mv) (rep : Nat) (src dst : Option Nat) : QM (BitVec 512) := do
  let v := x.get (← get)
  match v.desc with
  | some d => pure d
  | none =>
    modify (setReg x.regs (w32 v.idx))
    modify (setReg (x.regs + 4) (w32 v.addr))
    modify (setReg (x.regs + 8) (w32 (v.addr / 2 ^ 32)))
    if 65536 ≤ v.idx then haltWithReason 0x02
    let p ← (match v.pref with
      | p :: rest => do
        x.mod (fun v => { v with pref := rest })
        pure p
      | [] => do
        holdFor v.addr 64
        let (p, s) := fetchDesc x v.addr rep (← get)
        set s
        pure p)
    match p.reason with
    | some r => haltWithReason r
    | none => pure ()
    if p.poison then haltDetail 0x0A (p.addr / 64 * 64 * 65536)
    let d := p.bits
    if mdSrck d = 1 ∨ (mdChain d ∧ chainRx (← get) 65536 (mdNext d)) then x.mod (fun v => { v with rxSeen := true })
    -- bytes that a repeat with received payload has written stay written (R216)
    if (x.get (← get)).rxSeen then
      modify (modQ x.cl (17 + x.m) (fun q => { q with cur := q.cur.map (fun c => { c with undo := [] }) }))
    stopOn (mdReasons (← get) x.eng d src dst)
    x.mod (fun v => { v with desc := some d, srcUsed := v.srcUsed || mdSrel d, dstUsed := v.dstUsed || mdDrel d })
    modify (prefetch 1 x)
    pure d

/-- The position at the start of a repeat, with the descriptors held for it. -/
def startRepeat (x : Mv) (a : Nat) (held : List MvDesc) : QM Unit := do
  modify (setReg (x.regs + 0xC) 0)
  x.mod (fun v => { Mover.reset with begun := true, addr := a, pref := held, srcUsed := v.srcUsed, dstUsed := v.dstUsed })

def mvWaiting (x : Mv) (live tx : Bool) : QM Unit := do
  let was := match (getQ (← get) x.cl (17 + x.m)).cur with
    | some c => c.liveWait
    | none => false
  modify (modQ x.cl (17 + x.m) (fun q => { q with
    waitCount := if live && !was then 0 else q.waitCount
    cur := q.cur.map (fun c => { c with liveWait := live }) }))
  x.mod (fun v => { v with txWait := tx })

/-- One descriptor of MV_MOVE. Answers whether the repeat is done. -/
def mvStep (x : Mv) (c : Cur) : QM Bool := do
  let e := x.eng
  let fresh := !c.begun
  if fresh then x.mod (fun _ => Mover.reset)
  let first := !(x.get (← get)).begun
  let again := c.resumed && !first
  modify (modQ x.cl (17 + x.m) (fun q => { q with cur := q.cur.map (fun c => { c with begun := true, resumed := false }) }))
  let a ← engAr e (wOp c.word 192 4) c.rep
  let src := arOr e (wOp c.word 196 4) c.rep (← get)
  let dst := arOr e (wOp c.word 200 4) c.rep (← get)
  engineFault (unitCl 3 x.cl x.m)
  if first then startRepeat x a (x.get (← get)).pref
  else if again then
    -- R216: received payload is not delivered twice; every other repeat is rewritten. A descriptor that stopped the mover is
    -- fetched again (DESIGN CHOICE, log entry 49).
    if (x.get (← get)).rxSeen then
      if (x.get (← get)).desc.isNone then x.mod (fun v => { v with pref := [], addr := if v.idx = 0 then a else v.addr })
    else startRepeat x a []
  let d ← openDesc x c.rep src dst
  let v := x.get (← get)
  let r ← mvRows (mdRows d - v.row) x d src dst
  match r with
  | .waitRx =>
    mvWaiting x true false
    pure false
  | .waitTx =>
    mvWaiting x false true
    pure false
  | .done =>
    mvWaiting x false false
    if mdChain d then
      x.mod (fun v => { v with idx := v.idx + 1, addr := mdNext d, desc := none, row := 0, pos := 0, out := none, note := none })
      pure false
    else
      -- R632: the repeat ends the packet it has begun
      for k in (x.get (← get)).ctxs do
        modify (fun s => (handOver x.cl (17 + x.m) k [] true s).1)
      x.mod (fun v => { Mover.reset with pref := v.pref, srcUsed := v.srcUsed, dstUsed := v.dstUsed })
      pure true

/-- ARs that MV_MOVE has used (R89, R209). -/
def mvArs (cl m : Nat) (s : State) (c : Cur) : List Nat :=
  [wOp c.word 192 4] ++ (if (getMover s cl m).srcUsed then [wOp c.word 196 4] else []) ++
    (if (getMover s cl m).dstUsed then [wOp c.word 200 4] else [])

def mvGo (cl m : Nat) (s : State) : State := engineStep cl (17 + m) 0x10 (mvArs cl m) (mvStep ⟨cl, m⟩) s

/-! ### Meanings -/

/-- MV_MOVE (R209-R219): the next descriptor of the repeat -/
def execMvMove (cl : Fin 8) (m : Fin 8) (s : State) : Host.Outcome State Fault Refusal :=
  .next (mvGo cl.val m.val s)

/-- DESCRIPTOR_FETCH (R62, R213): up to two descriptors ahead of the one at hand -/
def execDescriptorFetch (cl : Fin 8) (m : Fin 8) (s : State) : Host.Outcome State Fault Refusal :=
  .next (if queueState s cl.val (17 + m.val) = 1 then prefetch 2 ⟨cl.val, m.val⟩ s else s)

/-- MOVER_RX_DATA (R214): payload has come for a mover that waits -/
def execMoverRxData (cl : Fin 8) (m : Fin 8) (s : State) : Host.Outcome State Fault Refusal :=
  .next (match (getQ s cl.val (17 + m.val)).cur with
    | some c => if c.liveWait then mvGo cl.val m.val s else s
    | none => s)

/-- MOVER_TX_ACCEPT (R215): the transport accepts what a mover waits to hand it -/
def execMoverTxAccept (cl : Fin 8) (m : Fin 8) (s : State) : Host.Outcome State Fault Refusal :=
  .next (if (getMover s cl.val m.val).txWait then mvGo cl.val m.val s else s)

/-- PATROL_SCRUB (R206): the granule of an address is read and checked; SCRUB_EN turns the DRAM tiers off. -/
def execPatrolScrub (addr : W48) (s : State) : Host.Outcome State Fault Refusal :=
  let g := addr.toNat / 64
  running s (match regionOf s (64 * g) with
    | none => s
    | some r =>
      let on : Bool := match r with
        | .bonded d => regField s (memRegs d + 4) 0 1 = 1
        | .lpddr d _ => regField s (memRegs d + 4) 0 1 = 1
        | _ => true
      if on then
        let (s, rs) := checkGranule r g (granWords g) 7 s
        reports rs s
      else s)

/-- ROW_REPAIR (R197, R565): a row of a stack is replaced; nothing that software reads of it changes. -/
def execRowRepair (die : Fin 4) (row : Nat) (s : State) : Host.Outcome State Fault Refusal :=
  running s
    (let s := bumpWrap (memRegs die.val + 0x10) 1 s
     (appendEntries [farrierEntry s 4 0 0 die.val (row % 2 ^ 32) 1 0] s).1)

end Sys2Proof.Machine
end

