-- ==== Sys2Proof/Machine/Scu.lean ====
section
/-! DEFINITION. Stream compute units (07_stream_recipes.md): loading and starting recipes, the recipe instructions,
streams, the local store, sorting and checksums. A SCU_RUN command starts a repeat; each recipe instruction is a
command of its own, which acts when the SCU stands at an instruction of that opcode. -/

namespace Sys2Proof.Machine

/-! ### Formats (R116, R251) -/

/-- An SCU format. -/
def scuFormat (f : Nat) : Bool := decide (f ≤ 5) || (decide (13 ≤ f) && decide (f ≤ 16))

/-- What a register holds for a value of a format: integers sign-extended, others with clear high bits. -/
def regVal (fmt v : Nat) : W64 :=
  let w := elemBits fmt
  if intCode fmt then BitVec.ofInt 64 (sext w (v % 2 ^ w)) else BitVec.ofNat 64 (v % 2 ^ w)

def lowBits (fmt : Nat) (v : W64) : Nat := v.toNat % 2 ^ elemBits fmt

/-! ### The recipe instruction word (R267, R270, R271) -/

/-- A recipe instruction with what it needs to know of its run. -/
structure RInstr where
  cl : Nat
  u : Nat
  rep : Nat
  slot : Nat
  /-- earlier executions of the slot in this repeat -/
  nth : Nat
  word : W64
  deriving DecidableEq, Repr

def rOp (w : W64) : Nat := fld w 0 8
def rFmt (w : W64) : Nat := fld w 8 5
def rMode (w : W64) : Nat := fld w 13 3
def rD (w : W64) : Nat := fld w 16 4
def rA (w : W64) : Nat := fld w 20 4
def rB (w : W64) : Nat := fld w 24 4
def rC (w : W64) : Nat := fld w 28 4
def rP (w : W64) : Nat := fld w 32 3
def rPn (w : W64) : Bool := bitOf w 35
def rImm (w : W64) : Nat := fld w 36 28

/-- Formats an opcode takes. -/
inductive FmtClass where
  | any | float | int | none
  deriving DecidableEq, Repr

/-- What an opcode uses a register field for. -/
inductive FieldUse where
  | unused | reg | pred | predWrite | stream
  deriving DecidableEq, Repr

/-- A row of the instruction set (R271). -/
structure ROpInfo where
  fmt : FmtClass
  lanewise : Bool
  d : FieldUse := .unused
  a : FieldUse := .unused
  b : FieldUse := .unused
  c : FieldUse := .unused
  /-- IMM bits the opcode defines -/
  imm : Nat := 0
  /-- a rounding operation, which takes MODE -/
  rounds : Bool := false
  /-- integer SAT is accepted although it does not round -/
  intSat : Bool := false
  deriving DecidableEq, Repr

def imm28 : Nat := 0xFFF_FFFF

def rOpInfo (op : Nat) : Option ROpInfo :=
  match op with
  | 0x00 => some { fmt := .none, lanewise := false }
  | 0x01 => some { fmt := .none, lanewise := false, imm := 0x7FF }
  | 0x02 => some { fmt := .none, lanewise := false, a := .reg, imm := 0x7FF }
  | 0x03 => some { fmt := .none, lanewise := false, a := .reg, imm := 0x7FF }
  | 0x04 => some { fmt := .none, lanewise := false, b := .stream, imm := 0xFFF }
  | 0x08 => some { fmt := .none, lanewise := false, d := .reg, imm := imm28 }
  | 0x09 => some { fmt := .none, lanewise := false, d := .reg, a := .reg, b := .reg, imm := imm28 }
  | 0x0A => some { fmt := .none, lanewise := false, d := .reg, a := .reg, imm := 0x1F }
  | 0x0B => some { fmt := .any, lanewise := true, d := .reg, a := .reg }
  | 0x0C => some { fmt := .none, lanewise := false, d := .reg, a := .reg, imm := imm28 }
  | 0x0D => some { fmt := .none, lanewise := false, a := .reg, b := .reg, imm := imm28 }
  | 0x10 => some { fmt := .any, lanewise := false, d := .reg, b := .stream, c := .predWrite, imm := 1, rounds := true }
  | 0x11 => some { fmt := .any, lanewise := true, a := .reg, b := .stream, rounds := true }
  | 0x12 => some { fmt := .any, lanewise := false, d := .reg, a := .reg, imm := imm28 }
  | 0x13 => some { fmt := .any, lanewise := true, a := .reg, imm := imm28 }
  | 0x14 => some { fmt := .any, lanewise := true, d := .reg, a := .reg, b := .reg }
  | 0x15 => some { fmt := .any, lanewise := true, a := .reg, b := .reg, c := .reg }
  | 0x16 => some { fmt := .any, lanewise := true, d := .reg, a := .reg, b := .reg }
  | 0x17 => some { fmt := .int, lanewise := true, d := .reg, a := .reg }
  | 0x20 => some { fmt := .any, lanewise := true, d := .reg, a := .reg, b := .reg, rounds := true }
  | 0x21 => some { fmt := .any, lanewise := true, d := .reg, a := .reg, b := .reg, rounds := true }
  | 0x22 => some { fmt := .any, lanewise := true, d := .reg, a := .reg, b := .reg, rounds := true }
  | 0x23 => some { fmt := .float, lanewise := true, d := .reg, a := .reg, b := .reg, c := .reg, rounds := true }
  | 0x24 => some { fmt := .float, lanewise := true, d := .reg, a := .reg, b := .reg, rounds := true }
  | 0x25 => some { fmt := .float, lanewise := true, d := .reg, a := .reg, rounds := true }
  | 0x26 => some { fmt := .any, lanewise := true, d := .reg, a := .reg, b := .reg, imm := 3 }
  | 0x27 => some { fmt := .any, lanewise := true, d := .reg, a := .reg, b := .reg, imm := 3 }
  | 0x28 => some { fmt := .any, lanewise := true, d := .reg, a := .reg, intSat := true }
  | 0x29 => some { fmt := .any, lanewise := true, d := .reg, a := .reg, intSat := true }
  | 0x2A => some { fmt := .any, lanewise := true, d := .reg, a := .reg, imm := 0x3F, rounds := true }
  | 0x30 => some { fmt := .int, lanewise := true, d := .reg, a := .reg, b := .reg }
  | 0x31 => some { fmt := .int, lanewise := true, d := .reg, a := .reg, b := .reg }
  | 0x32 => some { fmt := .int, lanewise := true, d := .reg, a := .reg, b := .reg }
  | 0x33 => some { fmt := .int, lanewise := true, d := .reg, a := .reg, b := .reg, intSat := true }
  | 0x34 => some { fmt := .int, lanewise := true, d := .reg, a := .reg, b := .reg, imm := 1 }
  | 0x38 => some { fmt := .any, lanewise := true, d := .predWrite, a := .reg, b := .reg, imm := 0x1F }
  | 0x39 => some { fmt := .none, lanewise := false, d := .predWrite, a := .pred, b := .pred, imm := 3 }
  | 0x40 => some { fmt := .any, lanewise := true, d := .reg, a := .reg, rounds := true }
  | 0x41 => some { fmt := .any, lanewise := true, d := .reg, a := .reg, imm := 3 }
  | 0x42 => some { fmt := .any, lanewise := true, d := .reg, a := .reg, imm := 3 }
  | 0x43 => some { fmt := .none, lanewise := true, d := .reg }
  | 0x48 => some { fmt := .none, lanewise := false, a := .reg }
  | 0x49 => some { fmt := .none, lanewise := false, a := .reg }
  | 0x4A => some { fmt := .none, lanewise := false, a := .reg }
  | 0x4B => some { fmt := .any, lanewise := true, d := .reg, a := .reg, imm := 0xF }
  | _ => none

/-- A register field holds only what its use allows. -/
def fieldOk (u : FieldUse) (v : Nat) : Bool :=
  match u with
  | .unused => decide (v = 0)
  | .reg => true
  | .pred => decide (v < 8)
  | .predWrite => decide (v < 8) && decide (v ≠ 0)
  | .stream => decide (v < 4)

def fmtAllowed (c : FmtClass) (f : Nat) : Bool :=
  match c with
  | .any => scuFormat f
  | .float => decide (f ≤ 5)
  | .int => scuFormat f && intCode f
  | .none => true

/-- A SAT value that R139 does not allow for the destination format. -/
def scuSatBad (fmt : Nat) (sat : Bool) : Bool :=
  if sat then !((decide (4 ≤ fmt) && decide (fmt ≤ 0xB)) || intCode fmt) else decide (8 ≤ fmt) && decide (fmt ≤ 0xB)

/-- The check of one slot image (R270), in the order of its table. -/
def slotReason (w : W64) : Option Nat :=
  match rOpInfo (rOp w) with
  | none => some 0x01
  | some o =>
    let f := rFmt w
    let m := rMode w
    let i := rImm w
    if reservedFormat f then some 0x02
    else if !fmtAllowed o.fmt f then some 0x0B
    else if o.fmt = .none ∧ f ≠ 0 then some 0x02
    else if 6 ≤ m ∨ (m ≠ 0 ∧ !o.rounds ∧ !(o.intSat && intCode f)) ∨ (intCode f ∧ 2 ≤ m) then some 0x02
    else if !(fieldOk o.d (rD w) && fieldOk o.a (rA w) && fieldOk o.b (rB w) && fieldOk o.c (rC w)) then some 0x02
    else if !o.lanewise ∧ (rP w ≠ 0 ∨ rPn w) then some 0x02
    else if i &&& o.imm ≠ i ∨ (rOp w = 0x38 ∧ 6 ≤ i % 8) then some 0x02
    else if rOp w = 0x2A then
      let g := i % 32
      if reservedFormat g then some 0x02
      else if !scuFormat g then some 0x0B
      else if scuSatBad g (decide (i / 32 % 2 = 1)) then some 0x02 else none
    else if rOp w = 0x10 ∧ scuSatBad f (decide (i % 2 = 1)) then some 0x02
    else none

/-! ### Registers -/

def RInstr.eng (i : RInstr) : Eng := ⟨i.cl, 9 + i.u⟩

def RInstr.get (i : RInstr) (s : State) : Scu := getScu s i.cl i.u

/-- Lane `l` of V[r], all 64 bits, and its poison. -/
def Scu.lane (x : Scu) (r l : Nat) : W64 × Bool := (mget 0 x.v (32 * r + l), mget false x.vp (32 * r + l))

def Scu.setLane (x : Scu) (r l : Nat) (v : W64) (p : Bool) : Scu :=
  { x with v := mput 0 x.v (32 * r + l) v, vp := mput false x.vp (32 * r + l) p }

def Scu.scal (x : Scu) (r : Nat) : W64 × Bool := (mget 0 x.sr r, mget false x.sp r)

def Scu.setScal (x : Scu) (r : Nat) (v : W64) (p : Bool) : Scu :=
  { x with sr := mput 0 x.sr r v, sp := mput false x.sp r p }

/-- Bit `l` of P[r]: P0 reads all ones. -/
def Scu.predBit (x : Scu) (r l : Nat) : Bool × Bool :=
  if r = 0 then (true, false) else (mget false x.pr (32 * r + l), mget false x.pp (32 * r + l))

def Scu.setPredBit (x : Scu) (r l : Nat) (v p : Bool) : Scu :=
  { x with pr := mput false x.pr (32 * r + l) v, pp := mput false x.pp (32 * r + l) p }

/-- Halt the recipe at this instruction, with SCU_HALT (R295). -/
def scuStop {α : Type} (i : RInstr) (reason lane sub : Nat) : QM α := do
  modify (noteScuHalt i.cl i.u i.slot lane sub)
  throw { reason := reason, detail := if reason = 0x0A then sub else 0 }

/-- A scalar that decides more than a value (R292). -/
def useScalar (i : RInstr) (r sub : Nat) : QM Nat := do
  let (v, p) := (i.get (← get)).scal r
  if p then scuStop i 0x0A 0 sub
  pure v.toNat

/-- The active lanes (R268, R292). -/
def activeLanes (i : RInstr) : QM (List Nat) := do
  let x := i.get (← get)
  let p := rP i.word
  match (List.range 32).find? (fun l => (x.predBit p l).2) with
  | some l => scuStop i 0x0A l 8
  | none => pure ((List.range 32).filter (fun l => (x.predBit p l).1 != rPn i.word))

/-- Random bits of a rounding that is not a PUT's (R289). -/
def rRand (i : RInstr) (s : State) (l : Nat) : Nat :=
  srBits (i.get s).rseed.toNat ((i.rep * 2 ^ 48 + i.slot * 2 ^ 37 + i.nth % 2 ^ 32 * 32 + l) % 2 ^ 64)

def RInstr.mod (i : RInstr) (f : Scu → Scu) : QM Unit := modify (modScu i.cl i.u f)

/-- Raise FPSTAT flags (R149). -/
def scuFlags (i : RInstr) (x : Exc) : QM Unit := modify (raiseFlags (scuRegs i.cl i.u) x)

/-- A lanewise operation (R268, R290): V[D] of each active lane from the same lanes of the source registers. -/
def lanewiseOp (i : RInstr) (srcs : List Nat) (fd : Nat) (f : State → Nat → List W64 → Nat × Exc) : QM Unit := do
  let act ← activeLanes i
  let s ← get
  let x := i.get s
  let out := act.map (fun l =>
    let ops := srcs.map (fun r => x.lane r l)
    let p := ops.any (fun o => o.2)
    let (v, e) := f s l (ops.map (fun o => o.1))
    (l, v, p, if p then Exc.none else e))
  i.mod (fun x => out.foldl (fun x o => x.setLane (rD i.word) o.1 (regVal fd o.2.1) o.2.2.1) x)
  scuFlags i (out.foldl (fun e o => e.or o.2.2.2) Exc.none)

/-! ### Arithmetic (R146-R149, R269, R277-R279) -/

/-- Wrap or saturate an integer result into a format (R269). -/
def fitInt (fmt : Nat) (sat : Bool) (v : Int) : Nat :=
  let w := elemBits fmt
  let hi : Int := 2 ^ (w - 1) - 1
  let lo : Int := -(2 ^ (w - 1))
  let v := if sat then (if v < lo then lo else if hi < v then hi else v) else v
  (v % 2 ^ w).toNat

/-- One arithmetic operation of a format: an exact operation on values, rounded once, or an integer one. -/
def arithOp (fmt mode r : Nat) (g : Rnd → List FVal → FVal × Exc) (h : List Int → Int) (ops : List Nat) : Nat × Exc :=
  match fmtOf fmt with
  | some f =>
    let rnd := rndOf mode
    finish f (overOf fmt false) rnd r (g rnd (ops.map (fun v => decodeF f v)))
  | none => (fitInt fmt (decide (mode % 2 = 1)) (h (ops.map (fun v => decodeInt fmt v))), Exc.none)

/-- A lanewise arithmetic instruction. -/
def laneArith (i : RInstr) (srcs : List Nat) (g : Rnd → List FVal → FVal × Exc) (h : List Int → Int) : QM Unit :=
  let f := rFmt i.word
  lanewiseOp i srcs f (fun s l ops => arithOp f (rMode i.word) (rRand i s l) g h (ops.map (lowBits f)))

def fAdd (rnd : Rnd) (xs : List FVal) : FVal × Exc := addExact rnd (xs.getD 0 .canon) (xs.getD 1 .canon)

/-- a - b: a NaN operand keeps its own sign (R148). -/
def fSub (rnd : Rnd) (xs : List FVal) : FVal × Exc :=
  let a := xs.getD 0 .canon
  let b := xs.getD 1 .canon
  addExact rnd a (if b.isNan then b else b.neg)

def fMul (_ : Rnd) (xs : List FVal) : FVal × Exc := mulExact (xs.getD 0 .canon) (xs.getD 1 .canon)

def fFma (rnd : Rnd) (xs : List FVal) : FVal × Exc :=
  fmaExact rnd (xs.getD 0 .canon) (xs.getD 1 .canon) (xs.getD 2 .canon)

def fDiv (_ : Rnd) (xs : List FVal) : FVal × Exc := divExact (xs.getD 0 .canon) (xs.getD 1 .canon)

def fSqrt (_ : Rnd) (xs : List FVal) : FVal × Exc := sqrtExact (xs.getD 0 .canon)

/-- The sign operations raise nothing; a NaN operand gives its quiet form (R148; DEDUCED, log entry 26). -/
def fSign (g : FVal → FVal) (_ : Rnd) (xs : List FVal) : FVal × Exc :=
  let a := xs.getD 0 .canon
  match firstNan [a] with
  | some n => (n, Exc.none)
  | none => (g a, Exc.none)

/-- MIN and MAX of R278; the keys of R281 order numbers as IEEE 754 does, with -0 below +0. -/
def minMax (isMax tot u : Bool) (fmt a b : Nat) : Nat × Exc :=
  let byKey := fun (_ : Unit) =>
    let ka := orderKey fmt u a
    let kb := orderKey fmt u b
    if (isMax && decide (ka < kb)) || (!isMax && decide (kb < ka)) then b else a
  match fmtOf fmt with
  | none => (byKey (), Exc.none)
  | some f =>
    if tot then (byKey (), Exc.none)
    else
      match firstNan [decodeF f a, decodeF f b] with
      | some n => finish f (overOf fmt false) .rne 0 (n, nanExc [decodeF f a, decodeF f b])
      | none => (byKey (), Exc.none)

/-- COND of R279 from the sign of a comparison. -/
def condHolds (c : Nat) (o : Ordering) : Bool :=
  match c with
  | 0 => decide (o = .eq)
  | 1 => decide (o ≠ .eq)
  | 2 => decide (o = .lt)
  | 3 => decide (o ≠ .gt)
  | 4 => decide (o = .gt)
  | _ => decide (o ≠ .lt)

def compareNat (a b : Nat) : Ordering := if a < b then .lt else if a = b then .eq else .gt

/-- CMP on one lane (R279). -/
def cmpLane (cond : Nat) (tot u : Bool) (fmt a b : Nat) : Bool × Exc :=
  match fmtOf fmt with
  | none => (condHolds cond (compareNat (orderKey fmt u a) (orderKey fmt u b)), Exc.none)
  | some f =>
    if tot then (condHolds cond (compareNat (orderKey fmt u a) (orderKey fmt u b)), Exc.none)
    else
      let x := decodeF f a
      let y := decodeF f b
      if x.isNan || y.isNan then
        (decide (cond = 1), { invalid := decide (2 ≤ cond) || (nanExc [x, y]).invalid })
      else if x.isZero && y.isZero then (condHolds cond .eq, Exc.none)
      else (condHolds cond (compareNat (orderKey fmt u a) (orderKey fmt u b)), Exc.none)

/-- Conversion of R277 from one SCU format into another. -/
def scuConvert (src dst : Nat) (sat : Bool) (mode r v : Nat) : Nat × Exc :=
  if intCode src && intCode dst then (fitInt dst sat (decodeInt src v), Exc.none)
  else convertTo dst sat (rndOf mode) r (valueOf src v)

/-! ### Local store (R276) -/

def scuBase (cl u : Nat) : Nat := 0x5C00_0000 + cl * 0x80_0000 + u * 0x10_0000

/-- Judge accesses of `len` bytes at offsets, each with its lane. -/
def checkOffsets (i : RInstr) (len : Nat) (offs : List (Nat × Nat)) : QM Unit :=
  match offs.find? (fun o => decide (0x10_0000 < o.2 + len)) with
  | some o => scuStop i 0x04 o.1 4
  | none =>
    match offs.find? (fun o => decide (o.2 % len ≠ 0)) with
    | some o => scuStop i 0x05 o.1 0
    | none => pure ()

/-- Read `len` bytes of the store at an offset already judged. -/
def lsRead (i : RInstr) (off len : Nat) : QM (List PByte) := do
  let (bs, s) := readMem (scuBase i.cl i.u + off) len 1 (← get)
  set s
  pure bs

/-- Write the store: no output that PARTIAL counts (SORT, MERGE, TOPK; R295). -/
def lsPut (i : RInstr) (off : Nat) (bs : List PByte) : QM Unit := modify (writeMem (scuBase i.cl i.u + off) bs)

/-- Write the store by ST, SST or SCATTER, which PARTIAL counts (R295). -/
def lsWrite (i : RInstr) (off : Nat) (bs : List PByte) : QM Unit := do
  lsPut i off bs
  modify (markWrote i.eng)

/-- Bytes of a value of `n` bytes with one poison bit. -/
def valBytes (n v : Nat) (p : Bool) : List PByte := (leBytes n v).map (fun b => (b, p))

/-! ### Running a recipe instruction (R253, R265, R272, R295) -/

/-- The recipe instruction an SCU stands at, when a repeat runs in it. -/
def recipeAt (s : State) (cl u : Nat) : Option RInstr :=
  let x := getScu s cl u
  match (getQ s cl (9 + u)).cur with
  | some c =>
    if c.started && c.begun && x.running then
      some { cl := cl, u := u, rep := c.rep, slot := x.pc, nth := mget 0 x.execs x.pc, word := mget 0 x.recipe x.pc }
    else none
  | none => none

def stepLimitOf (s : State) (cl u : Nat) : Nat :=
  (getReg s (scuRegs cl u + 8)).toNat + (getReg s (scuRegs cl u + 0xC)).toNat * 2 ^ 32

/-- The step limit is reached. -/
def limitReached (s : State) (cl u : Nat) : Bool :=
  decide (stepLimitOf s cl u ≠ 0) && decide (stepLimitOf s cl u ≤ (getCtr s (scuRegs cl u + 0x10)).toNat)

/-- Where a recipe goes after an instruction. -/
inductive RNext where
  | next
  | jump (slot : Nat)
  /-- the instruction waits and is not executed (R274, R275) -/
  | wait
  | finish
  deriving DecidableEq, Repr

/-- ARs of SCU_RUN: TABLE and BASE, which advance per repeat (R89, R259). -/
def scuRunArs (c : Cur) : List Nat := [wOp c.word 192 4, wOp c.word 196 4]

/-- Set the instruction's flags of waiting: `live` waits count against the wait limit. -/
def scuWaiting (i : RInstr) (live tx : Bool) : QM Unit := do
  let was := match (getQ (← get) i.cl (9 + i.u)).cur with
    | some c => c.liveWait
    | none => false
  modify (modQ i.cl (9 + i.u) (fun q => { q with
    waitCount := if live && !was then 0 else q.waitCount,
    cur := q.cur.map (fun c => { c with liveWait := live }) }))
  i.mod (fun x => { x with txWait := tx })

/-- A recipe slot that cannot be read without an uncorrectable error halts the SCU with HW_FAULT when it reaches it (R534,
R295). -/
def reachSlot (i : RInstr) : QM Unit := do
  if (← get).bad.contains (.recipe i.cl i.u i.slot) then
    let stage := (Config.faultStage (← get).fresh).toNat
    modify takeFresh
    modify (noteScuHalt i.cl i.u i.slot 0 0)
    haltDetail 0x0E stage

/-- One recipe instruction: RESUME restarts STEPS (R265); at the step limit the SCU halts (R295). What a completed instruction
has written stands at a later halt (R265). -/
def recipeProgram (i : RInstr) (c : Cur) (p : RInstr → QM RNext) : QM Bool := do
  if c.resumed then
    modify (setCtr (scuRegs i.cl i.u + 0x10) 0)
    modify (modQ i.cl (9 + i.u) (fun q => { q with cur := q.cur.map (fun c => { c with resumed := false }) }))
  if limitReached (← get) i.cl i.u then scuStop i 0x08 0 1
  reachSlot i
  let n ← replayed (unitCl 2 i.cl i.u) (hkey 2 i.cl i.u) (9 + i.u) (some i.slot) (noteScuHalt i.cl i.u i.slot 0 0) (p i)
  modify (modQ i.cl (9 + i.u) (fun q => { q with cur := q.cur.map (fun c => { c with undo := [] }) }))
  if n = .wait then pure false
  else
    scuWaiting i false false
    modify (addCtr (scuRegs i.cl i.u + 0x10) 1)
    i.mod (fun x => { x with
      execs := mput 0 x.execs i.slot (i.nth + 1),
      pc := match n with
        | .jump t => t % 2048
        | _ => (i.slot + 1) % 2048 })
    if n = .finish then
      i.mod (fun x => { x with running := false })
      pure true
    else pure false

/-- Run the recipe instruction at hand if it has this opcode. -/
def recipeRun (cl u op : Nat) (p : RInstr → QM RNext) (s : State) : State :=
  match recipeAt s cl u with
  | none => s
  | some i =>
    if rOp i.word ≠ op then s
    else engineStep cl (9 + u) 0x11 (fun _ c => scuRunArs c) (fun c => recipeProgram i c p) s

def recipeStep (cl u op : Nat) (p : RInstr → QM RNext) (s : State) : Host.Outcome State Fault Refusal :=
  .next (recipeRun cl u op p s)

/-- A lanewise or scalar instruction that goes on to the next slot. -/
def thenNext (m : QM Unit) : QM RNext := do
  m
  pure .next

/-! ### SCU_LOAD and SCU_RUN (R255-R263) -/

/-- One repeat of SCU_LOAD. -/
def scuLoadRepeat (cl u : Nat) (c : Cur) : QM Bool := do
  let e : Eng := ⟨cl, 9 + u⟩
  let slot := wOp c.word 196 11
  let n := wOp c.word 207 12
  modify (noteScuHalt cl u slot 0 0)
  let a ← engAr e (wOp c.word 192 4) c.rep
  let bs ← engRead e a (8 * n) 8
  match bs.findIdx? (fun b => b.2) with
  | some j =>
    modify (noteScuHalt cl u (slot + j / 8) 0 0)
    haltDetail 0x0A ((a + j) / 64 * 64 * 65536)
  | none => pure ()
  let raw := bytesOf bs
  let ws := (List.range n).map (fun k => BitVec.ofNat 64 (leAt raw (8 * k) 8))
  match (List.range n).find? (fun k => (slotReason (ws.getD k 0)).isSome) with
  | some k =>
    modify (noteScuHalt cl u (slot + k) 0 0)
    haltWithReason ((slotReason (ws.getD k 0)).getD 0)
  | none =>
    modify (modScu cl u (fun x => { x with
      recipe := (List.range n).foldl (fun m k => mput 0 m (slot + k) (ws.getD k 0)) x.recipe }))
    -- a slot written anew holds no error (log entry 85)
    modify (fun s => { s with bad := s.bad.filter (fun d => !(List.range n).any (fun k => decide (d = .recipe cl u (slot + k)))) })
    modify (setReg (scuRegs cl u + 0x18) (BitVec.ofNat 32 (crc32c raw)))
    pure true

/-- SCU_LOAD (R255, R256): one repeat -/
def execScuLoad (cl : Fin 8) (u : Fin 8) (s : State) : Host.Outcome State Fault Refusal :=
  let h := getReg s (scuRegs cl.val u.val + 4)
  let s' := engineStep cl.val (9 + u.val) 0x10 (fun _ c => [wOp c.word 192 4]) (scuLoadRepeat cl.val u.val) s
  -- SCU_HALT keeps what the last halt left there unless this command halts the SCU
  .next (if (getQ s' cl.val (9 + u.val)).halted ∧ ¬ (getQ s cl.val (9 + u.val)).halted then s'
    else setReg (scuRegs cl.val u.val + 4) h s')

/-- A stream descriptor (R261), the start address of a relative one resolved against BASE. -/
def streamOf (d : Nat) (base : Nat) : SStream :=
  let w := elemBits (bitsOf d 2 5) / 8
  let st := sext 32 (bitsOf d 88 32)
  let a := bitsOf d 8 48
  { kind := bitsOf d 0 2, fmt := bitsOf d 2 5, rel := decide (bitsOf d 7 1 = 1),
    start := if bitsOf d 7 1 = 1 then ((base : Int) + sext 48 a).toNat else a,
    count := bitsOf d 56 32, stride := if st = 0 then w else st, ctx := bitsOf d 120 18,
    sat := decide (bitsOf d 138 1 = 1), seed := BitVec.ofNat 64 (bitsOf d 144 64), done := bitsOf d 208 48, pos := 0,
    poison := false }

/-- Conditions of R261 and R139 on descriptor `k`. -/
def streamConditions (k d : Nat) : List Nat :=
  let kind := bitsOf d 0 2
  let f := bitsOf d 2 5
  let sat := decide (bitsOf d 138 1 = 1)
  (if bitsOf d 139 5 ≠ 0 ∨ kind = 3 ∨ (kind = 0 ∧ d ≠ 0) ∨
      (kind ≠ 1 ∧ (bitsOf d 8 48 ≠ 0 ∨ bitsOf d 88 32 ≠ 0)) ∨ (kind ≠ 2 ∧ bitsOf d 120 18 ≠ 0) ∨
      (k < 4 ∧ (sat ∨ bitsOf d 144 64 ≠ 0 ∨ bitsOf d 208 48 ≠ 0)) ∨ (kind ≠ 0 ∧ reservedFormat f) ∨
      (kind ≠ 0 ∧ 4 ≤ k ∧ scuSatBad f sat)
    then [0x02] else []) ++
  (if kind ≠ 0 ∧ ¬ reservedFormat f ∧ ¬ scuFormat f then [0x0B] else [])

/-- The condition that a stream's elements meet in the address map (R262, step 4). -/
def streamReach (s : State) (e : Eng) (r : Right) (t : SStream) (rel : Int) : List Nat :=
  let w := elemBits t.fmt / 8
  if t.kind ≠ 1 ∨ t.count = 0 then []
  else if t.stride = w then (accessCondition s e rel (t.count * w) 1 r).toList
  else (firstReason ((List.range t.count).filterMap (fun (n : Nat) => accessCondition s e (rel + n * t.stride) w 1 r))).toList

/-- The checks of R262 and the state of R263. -/
def startRecipe (cl u : Nat) (c : Cur) : QM Unit := do
  let e : Eng := ⟨cl, 9 + u⟩
  let entry := wOp c.word 200 11
  modify (noteScuHalt cl u entry 0 0)
  let a ← engAr e (wOp c.word 192 4) c.rep
  let bs ← engRead e a 384 64
  match firstPoison a bs with
  | some g =>
    modify (noteScuHalt cl u entry 0 6)
    haltDetail 0x0A (6 + g * 65536)
  | none => pure ()
  let raw := bytesOf bs
  let ds := (List.range 8).map (fun k => leAt raw (32 * k) 32)
  let rel := fun (d : Nat) => decide (bitsOf d 0 2 = 1) && decide (bitsOf d 7 1 = 1)
  let base ← (if ds.any rel then engAr e (wOp c.word 196 4) c.rep else pure 0)
  stopOn ((if leAt raw 328 56 = 0 then [] else [0x02]) ++
    (List.range 8).flatMap (fun k => streamConditions k (ds.getD k 0)))
  let ts := ds.map (fun d => streamOf d base)
  -- a start below 0 counts as an address beyond the map
  let at' := fun (k : Nat) =>
    let d := ds.getD k 0
    if rel d then (base : Int) + sext 48 (bitsOf d 8 48) else (bitsOf d 8 48 : Int)
  stopOn ((List.range 8).flatMap (fun k =>
    let t := ts.getD k (streamOf 0 0)
    let w : Int := (elemBits t.fmt / 8 : Nat)
    if t.kind = 0 then []
    else if (t.kind = 1 ∧ ((bitsOf (ds.getD k 0) 8 48 : Int) % w ≠ 0 ∨ t.stride % w ≠ 0)) ∨ t.done % 8 ≠ 0 then [0x05] else []))
  let s ← get
  stopOn ((List.range 8).flatMap (fun k =>
    match ts[k]? with
    | none => []
    | some t =>
      streamReach s e (if k < 4 then .read else .write) t (at' k) ++
        (if t.done = 0 then [] else (accessCondition s e t.done 8 8 .write).toList)))
  stopOn (ts.filterMap (fun t => if t.kind = 2 ∧ ¬ ctxGranted s cl (9 + u) t.ctx then some 0x0D else none))
  let args := (List.range 8).foldl (fun m k => mput 0 m k (BitVec.ofNat 64 (leAt raw (256 + 8 * k) 8))) ([] : SMap W64)
  modify (modScu cl u (fun x => { x with
    running := true, pc := entry, v := [], vp := [], sr := args, sp := [], pr := [], pp := [], streams := ts,
    rseed := BitVec.ofNat 64 (leAt raw 320 8), execs := [], txWait := false }))
  modify (setCtr (scuRegs cl u + 0x10) 0)
  modify (modQ cl (9 + u) (fun q => { q with cur := q.cur.map (fun c => { c with begun := true, resumed := false }) }))

/-- SCU_RUN (R259-R263): the repeat starts; its recipe instructions follow as commands of their own. -/
def execScuRun (cl : Fin 8) (u : Fin 8) (s : State) : Host.Outcome State Fault Refusal :=
  let h := getReg s (scuRegs cl.val u.val + 4)
  let s' := engineStep cl.val (9 + u.val) 0x11 (fun _ c => scuRunArs c) (fun c => do
    if c.begun && (getScu (← get) cl.val u.val).running then pure false
    else
      startRecipe cl.val u.val c
      pure false) s
  .next (if (getQ s' cl.val (9 + u.val)).halted ∧ ¬ (getQ s cl.val (9 + u.val)).halted then s'
    else setReg (scuRegs cl.val u.val + 4) h s')

/-! ### Control and scalar instructions -/

/-- The completion words of a repeat (R264), and the end of its packets (R632). -/
def finishStreams (i : RInstr) : QM Unit := do
  for t in (i.get (← get)).streams.drop 4 do
    if t.done ≠ 0 then
      outWriteWhenFree i.eng t.done (clean (leBytes 8 (t.pos % 2 ^ 32 + boolNat t.poison * 2 ^ 32)))
    if t.kind = 2 then
      modify (fun s => (handOver i.cl (9 + i.u) t.ctx [] true s).1)

/-- END (R264) -/
def execREnd (cl : Fin 8) (u : Fin 8) (s : State) : Host.Outcome State Fault Refusal :=
  recipeStep cl.val u.val 0x00 (fun i => do
    finishStreams i
    modify (bumpSat (scuRegs i.cl i.u + 0x1C) 1)
    pure .finish) s

/-- JMP (R271) -/
def execRJmp (cl : Fin 8) (u : Fin 8) (s : State) : Host.Outcome State Fault Refusal :=
  recipeStep cl.val u.val 0x01 (fun i => pure (.jump (rImm i.word % 2048))) s

/-- BRNZ (R271) -/
def execRBrnz (cl : Fin 8) (u : Fin 8) (s : State) : Host.Outcome State Fault Refusal :=
  recipeStep cl.val u.val 0x02 (fun i => do
    let v ← useScalar i (rA i.word) 6
    if v = 0 then pure .next
    else
      i.mod (fun x => x.setScal (rA i.word) (BitVec.ofNat 64 (v - 1)) false)
      pure (.jump (rImm i.word % 2048))) s

/-- BRZ (R271) -/
def execRBrz (cl : Fin 8) (u : Fin 8) (s : State) : Host.Outcome State Fault Refusal :=
  recipeStep cl.val u.val 0x03 (fun i => do
    let v ← useScalar i (rA i.word) 6
    pure (if v = 0 then .jump (rImm i.word % 2048) else .next)) s

/-- An input stream is exhausted; one of KIND NONE always is (R261). -/
def streamOut (t : SStream) : Bool := decide (t.kind = 0) || decide (t.count ≤ t.pos)

/-- BEOS (R271) -/
def execRBeos (cl : Fin 8) (u : Fin 8) (s : State) : Host.Outcome State Fault Refusal :=
  recipeStep cl.val u.val 0x04 (fun i => do
    let out := match (i.get (← get)).streams[rB i.word]? with
      | some t => streamOut t
      | none => true
    pure (if out != decide (rImm i.word / 2048 % 2 = 1) then .jump (rImm i.word % 2048) else .next)) s

/-- SMOVI (R271) -/
def execRSmovi (cl : Fin 8) (u : Fin 8) (s : State) : Host.Outcome State Fault Refusal :=
  recipeStep cl.val u.val 0x08 (fun i => thenNext
    (i.mod (fun x => x.setScal (rD i.word) (BitVec.ofInt 64 (sext 28 (rImm i.word))) false))) s

/-- SADD (R271) -/
def execRSadd (cl : Fin 8) (u : Fin 8) (s : State) : Host.Outcome State Fault Refusal :=
  recipeStep cl.val u.val 0x09 (fun i => thenNext (i.mod (fun x =>
    let a := x.scal (rA i.word)
    let b := x.scal (rB i.word)
    x.setScal (rD i.word) (a.1 + b.1 + BitVec.ofInt 64 (sext 28 (rImm i.word))) (a.2 || b.2)))) s

/-- SMOV (R271) -/
def execRSmov (cl : Fin 8) (u : Fin 8) (s : State) : Host.Outcome State Fault Refusal :=
  recipeStep cl.val u.val 0x0A (fun i => thenNext (i.mod (fun x =>
    let a := x.lane (rA i.word) (rImm i.word % 32)
    x.setScal (rD i.word) a.1 a.2))) s

/-- VBCAST (R271, R290) -/
def execRVbcast (cl : Fin 8) (u : Fin 8) (s : State) : Host.Outcome State Fault Refusal :=
  recipeStep cl.val u.val 0x0B (fun i => thenNext (do
    let act ← activeLanes i
    let f := rFmt i.word
    i.mod (fun x =>
      let a := x.scal (rA i.word)
      act.foldl (fun x l => x.setLane (rD i.word) l (regVal f a.1.toNat) a.2) x))) s

/-- SLD (R271) -/
def execRSld (cl : Fin 8) (u : Fin 8) (s : State) : Host.Outcome State Fault Refusal :=
  recipeStep cl.val u.val 0x0C (fun i => thenNext (do
    let o := (← useScalar i (rA i.word) 5) + rImm i.word
    checkOffsets i 8 [(0, o)]
    let bs ← lsRead i o 8
    i.mod (fun x => x.setScal (rD i.word) (BitVec.ofNat 64 (leNat (bytesOf bs))) (anyPoison bs)))) s

/-- SST (R271) -/
def execRSst (cl : Fin 8) (u : Fin 8) (s : State) : Host.Outcome State Fault Refusal :=
  recipeStep cl.val u.val 0x0D (fun i => thenNext (do
    let o := (← useScalar i (rA i.word) 5) + rImm i.word
    checkOffsets i 8 [(0, o)]
    let b := (i.get (← get)).scal (rB i.word)
    lsWrite i o (valBytes 8 b.1.toNat b.2))) s

/-! ### Streams (R273-R275) -/

def modStream (i : RInstr) (k : Nat) (f : SStream → SStream) : QM Unit :=
  i.mod (fun x => { x with streams := match x.streams[k]? with
    | some t => setAt x.streams k (f t)
    | none => x.streams })

/-- Put converted elements into V[D] and the lanes filled into P[C]. -/
def fillLanes (i : RInstr) (t : SStream) (es : List (Nat × Bool)) : QM Unit := do
  let f := rFmt i.word
  let s ← get
  let out := (List.range es.length).map (fun l =>
    let e := es.getD l (0, false)
    let (v, x) := if t.fmt = f then (e.1, Exc.none)
      else scuConvert t.fmt f (decide (rImm i.word % 2 = 1)) (rMode i.word) (rRand i s l) e.1
    (v, e.2, if e.2 then Exc.none else x))
  i.mod (fun x => (List.range 32).foldl (fun x l =>
    let o := out[l]?
    let x := match o with
      | some o => x.setLane (rD i.word) l (regVal f o.1) o.2.1
      | none => x.setLane (rD i.word) l 0 false
    x.setPredBit (rC i.word) l o.isSome false) x)
  scuFlags i (out.foldl (fun e o => e.or o.2.2) Exc.none)

/-- The elements that bytes hold. -/
def elemsOf (w : Nat) (bs : List PByte) : List (Nat × Bool) :=
  (List.range (bs.length / w)).map (fun k =>
    let e := (bs.drop (k * w)).take w
    (leNat (bytesOf e), anyPoison e))

/-- GET (R274) -/
def getElems (i : RInstr) : QM RNext := do
  let k := rB i.word
  match (i.get (← get)).streams[k]? with
  | none => pure .next
  | some t =>
    let w := elemBits t.fmt / 8
    let n := if t.kind = 0 then 0 else Nat.min 32 (t.count - t.pos)
    if t.kind = 2 ∧ rxHere i.cl (getCtx (← get) t.ctx) < n * w then
      scuWaiting i true false
      pure .wait
    else
      let es ← (if t.kind = 2 then do
          let (bs, s) := rxTake ((getCtx (← get) t.ctx).rx.length + 1) t.ctx (n * w) (← get)
          set s
          pure (elemsOf w bs)
        else do
          let mut out : List (Nat × Bool) := []
          for j in List.range n do
            let a := ((t.start : Int) + ((t.pos + j : Nat) : Int) * t.stride).toNat
            let bs ← readWhenFree a w 1
            out := out ++ elemsOf w bs
          pure out)
      modify (addCtr (scuRegs i.cl i.u + 0x20) n)
      modStream i k (fun t => { t with pos := t.pos + n })
      fillLanes i t es
      pure .next

def execRGet (cl : Fin 8) (u : Fin 8) (s : State) : Host.Outcome State Fault Refusal :=
  recipeStep cl.val u.val 0x10 getElems s

/-- GET_RX_DATA (R274): payload has come for a GET that waits. -/
def execGetRxData (cl : Fin 8) (u : Fin 8) (s : State) : Host.Outcome State Fault Refusal :=
  match (getQ s cl.val (9 + u.val)).cur with
  | some c => if c.liveWait then recipeStep cl.val u.val 0x10 getElems s else .next s
  | none => .next s

/-- PUT (R275) -/
def putElems (i : RInstr) : QM RNext := do
  let k := 4 + rB i.word
  let act ← activeLanes i
  let s ← get
  let x := i.get s
  match x.streams[k]? with
  | none => pure .next
  | some t =>
    let f := rFmt i.word
    let w := elemBits t.fmt / 8
    let m := act.length
    if (t.kind = 0 ∧ m ≠ 0) ∨ (t.kind ≠ 0 ∧ t.count < t.pos + m) then scuStop i 0x04 0 3
    else
      let out := (List.range m).map (fun j =>
        let v := x.lane (rA i.word) (act.getD j 0)
        let b := lowBits f v.1
        let (r, e) := if t.fmt = f then (b, Exc.none)
          else scuConvert f t.fmt t.sat (rMode i.word) (srBits t.seed.toNat ((i.rep * 2 ^ 32 + t.pos + j) % 2 ^ 64)) b
        (r, v.2, if v.2 then Exc.none else e))
      let after : QM Unit := do
        modify (addCtr (scuRegs i.cl i.u + 0x28) m)
        modStream i k (fun t => { t with pos := t.pos + m, poison := t.poison || out.any (fun o => o.2.1) })
        scuFlags i (out.foldl (fun e o => e.or o.2.2) Exc.none)
      if t.kind = 2 then
        match handOver i.cl (9 + i.u) t.ctx (out.flatMap (fun o => valBytes w o.1 o.2.1)) false (← get) with
        | (s', false) =>
          set s'
          scuWaiting i false true
          pure .wait
        | (s', true) =>
          set (if m = 0 then s' else markWrote i.eng s')
          after
          pure .next
      else
        for j in List.range m do
          let o := out.getD j (0, false, Exc.none)
          let a := ((t.start : Int) + ((t.pos + j : Nat) : Int) * t.stride).toNat
          outWriteWhenFree i.eng a (valBytes w o.1 o.2.1)
        after
        pure .next

def execRPut (cl : Fin 8) (u : Fin 8) (s : State) : Host.Outcome State Fault Refusal :=
  recipeStep cl.val u.val 0x11 putElems s

/-- PUT_TX_ACCEPT (R275): the transport accepts the elements of a PUT that waits. -/
def execPutTxAccept (cl : Fin 8) (u : Fin 8) (s : State) : Host.Outcome State Fault Refusal :=
  if (getScu s cl.val u.val).txWait then recipeStep cl.val u.val 0x11 putElems s else .next s

/-! ### Local store accesses by lanes (R276) -/

/-- LD (R271) -/
def execRLd (cl : Fin 8) (u : Fin 8) (s : State) : Host.Outcome State Fault Refusal :=
  recipeStep cl.val u.val 0x12 (fun i => thenNext (do
    let f := rFmt i.word
    let w := elemBits f / 8
    let o := (← useScalar i (rA i.word) 5) + rImm i.word
    checkOffsets i w ((List.range 32).map (fun l => (l, o + l * w)))
    let bs ← lsRead i o (32 * w)
    let es := elemsOf w bs
    i.mod (fun x => (List.range 32).foldl (fun x l =>
      let e := es.getD l (0, false)
      x.setLane (rD i.word) l (regVal f e.1) e.2) x))) s

/-- ST (R271): A names both the scalar of the offset and the vector stored. -/
def execRSt (cl : Fin 8) (u : Fin 8) (s : State) : Host.Outcome State Fault Refusal :=
  recipeStep cl.val u.val 0x13 (fun i => thenNext (do
    let f := rFmt i.word
    let w := elemBits f / 8
    let act ← activeLanes i
    let o := (← useScalar i (rA i.word) 5) + rImm i.word
    checkOffsets i w (act.map (fun l => (l, o + l * w)))
    let x := i.get (← get)
    for l in act do
      let v := x.lane (rA i.word) l
      lsWrite i (o + l * w) (valBytes w (lowBits f v.1) v.2))) s

/-- Element offsets of GATHER and SCATTER; a poisoned index halts (R292). -/
def indexOffsets (i : RInstr) (act : List Nat) (w : Nat) : QM (List (Nat × Nat)) := do
  let base ← useScalar i (rA i.word) 5
  let x := i.get (← get)
  match act.find? (fun l => (x.lane (rB i.word) l).2) with
  | some l => scuStop i 0x0A l 5
  | none => pure (act.map (fun l => (l, base + (x.lane (rB i.word) l).1.toNat % 2 ^ 32 * w)))

/-- GATHER (R271) -/
def execRGather (cl : Fin 8) (u : Fin 8) (s : State) : Host.Outcome State Fault Refusal :=
  recipeStep cl.val u.val 0x14 (fun i => thenNext (do
    let f := rFmt i.word
    let w := elemBits f / 8
    let act ← activeLanes i
    let offs ← indexOffsets i act w
    checkOffsets i w offs
    let mut out : List (Nat × List PByte) := []
    for o in offs do
      let bs ← lsRead i o.2 w
      out := out ++ [(o.1, bs)]
    i.mod (fun x => out.foldl (fun x o => x.setLane (rD i.word) o.1 (regVal f (leNat (bytesOf o.2))) (anyPoison o.2)) x))) s

/-- SCATTER (R271): of lanes that name one element the highest remains. -/
def execRScatter (cl : Fin 8) (u : Fin 8) (s : State) : Host.Outcome State Fault Refusal :=
  recipeStep cl.val u.val 0x15 (fun i => thenNext (do
    let f := rFmt i.word
    let w := elemBits f / 8
    let act ← activeLanes i
    let offs ← indexOffsets i act w
    checkOffsets i w offs
    let x := i.get (← get)
    for o in offs do
      let v := x.lane (rC i.word) o.1
      lsWrite i o.2 (valBytes w (lowBits f v.1) v.2))) s

/-- COMPACT (R271) -/
def execRCompact (cl : Fin 8) (u : Fin 8) (s : State) : Host.Outcome State Fault Refusal :=
  recipeStep cl.val u.val 0x16 (fun i => thenNext (do
    let act ← activeLanes i
    let f := rFmt i.word
    i.mod (fun x =>
      let src := act.map (fun l => x.lane (rA i.word) l)
      let x := (List.range 32).foldl (fun x l =>
        match src[l]? with
        | some v => x.setLane (rD i.word) l (regVal f v.1.toNat) v.2
        | none => x.setLane (rD i.word) l 0 false) x
      x.setScal (rB i.word) (BitVec.ofNat 64 act.length) false))) s

/-- LANEID (R271) -/
def execRLaneid (cl : Fin 8) (u : Fin 8) (s : State) : Host.Outcome State Fault Refusal :=
  recipeStep cl.val u.val 0x17 (fun i => thenNext (do
    let act ← activeLanes i
    let v ← useScalar i (rA i.word) 5
    i.mod (fun x => act.foldl (fun x l => x.setLane (rD i.word) l (regVal (rFmt i.word) (v + l)) false) x))) s

/-! ### Arithmetic and logic -/

/-- ADD (R271) -/
def execRAdd (cl : Fin 8) (u : Fin 8) (s : State) : Host.Outcome State Fault Refusal :=
  recipeStep cl.val u.val 0x20 (fun i => thenNext
    (laneArith i [rA i.word, rB i.word] fAdd (fun xs => xs.getD 0 0 + xs.getD 1 0))) s

/-- SUB (R271) -/
def execRSub (cl : Fin 8) (u : Fin 8) (s : State) : Host.Outcome State Fault Refusal :=
  recipeStep cl.val u.val 0x21 (fun i => thenNext
    (laneArith i [rA i.word, rB i.word] fSub (fun xs => xs.getD 0 0 - xs.getD 1 0))) s

/-- MUL (R271) -/
def execRMul (cl : Fin 8) (u : Fin 8) (s : State) : Host.Outcome State Fault Refusal :=
  recipeStep cl.val u.val 0x22 (fun i => thenNext
    (laneArith i [rA i.word, rB i.word] fMul (fun xs => xs.getD 0 0 * xs.getD 1 0))) s

/-- FMA (R271) -/
def execRFma (cl : Fin 8) (u : Fin 8) (s : State) : Host.Outcome State Fault Refusal :=
  recipeStep cl.val u.val 0x23 (fun i => thenNext
    (laneArith i [rA i.word, rB i.word, rC i.word] fFma (fun xs => xs.getD 0 0 * xs.getD 1 0 + xs.getD 2 0))) s

/-- DIV (R271) -/
def execRDiv (cl : Fin 8) (u : Fin 8) (s : State) : Host.Outcome State Fault Refusal :=
  recipeStep cl.val u.val 0x24 (fun i => thenNext (laneArith i [rA i.word, rB i.word] fDiv (fun _ => 0))) s

/-- SQRT (R271) -/
def execRSqrt (cl : Fin 8) (u : Fin 8) (s : State) : Host.Outcome State Fault Refusal :=
  recipeStep cl.val u.val 0x25 (fun i => thenNext (laneArith i [rA i.word] fSqrt (fun _ => 0))) s

/-- MIN and MAX on lanes. -/
def laneMinMax (i : RInstr) (isMax : Bool) : QM Unit :=
  let f := rFmt i.word
  lanewiseOp i [rA i.word, rB i.word] f (fun _ _ ops =>
    minMax isMax (decide (rImm i.word % 2 = 1)) (decide (rImm i.word / 2 % 2 = 1)) f
      (lowBits f (ops.getD 0 0)) (lowBits f (ops.getD 1 0)))

/-- MIN (R278) -/
def execRMin (cl : Fin 8) (u : Fin 8) (s : State) : Host.Outcome State Fault Refusal :=
  recipeStep cl.val u.val 0x26 (fun i => thenNext (laneMinMax i false)) s

/-- MAX (R278) -/
def execRMax (cl : Fin 8) (u : Fin 8) (s : State) : Host.Outcome State Fault Refusal :=
  recipeStep cl.val u.val 0x27 (fun i => thenNext (laneMinMax i true)) s

/-- ABS (R271) -/
def execRAbs (cl : Fin 8) (u : Fin 8) (s : State) : Host.Outcome State Fault Refusal :=
  recipeStep cl.val u.val 0x28 (fun i => thenNext
    (laneArith i [rA i.word] (fSign FVal.abs) (fun xs => ((xs.getD 0 0).natAbs : Int)))) s

/-- NEG (R271) -/
def execRNeg (cl : Fin 8) (u : Fin 8) (s : State) : Host.Outcome State Fault Refusal :=
  recipeStep cl.val u.val 0x29 (fun i => thenNext
    (laneArith i [rA i.word] (fSign FVal.neg) (fun xs => -(xs.getD 0 0)))) s

/-- CVT (R277) -/
def execRCvt (cl : Fin 8) (u : Fin 8) (s : State) : Host.Outcome State Fault Refusal :=
  recipeStep cl.val u.val 0x2A (fun i => thenNext
    (let f := rFmt i.word
     let g := rImm i.word % 32
     lanewiseOp i [rA i.word] g (fun s l ops =>
       scuConvert f g (decide (rImm i.word / 32 % 2 = 1)) (rMode i.word) (rRand i s l) (lowBits f (ops.getD 0 0))))) s

/-- A lanewise operation on the bits of two integer lanes. -/
def laneBits (i : RInstr) (g : Nat → Nat → Nat) : QM Unit :=
  let f := rFmt i.word
  lanewiseOp i [rA i.word, rB i.word] f (fun _ _ ops => (g (lowBits f (ops.getD 0 0)) (lowBits f (ops.getD 1 0)), Exc.none))

/-- AND (R271) -/
def execRAnd (cl : Fin 8) (u : Fin 8) (s : State) : Host.Outcome State Fault Refusal :=
  recipeStep cl.val u.val 0x30 (fun i => thenNext (laneBits i (fun a b => a &&& b))) s

/-- OR (R271) -/
def execROr (cl : Fin 8) (u : Fin 8) (s : State) : Host.Outcome State Fault Refusal :=
  recipeStep cl.val u.val 0x31 (fun i => thenNext (laneBits i (fun a b => a ||| b))) s

/-- XOR (R271) -/
def execRXor (cl : Fin 8) (u : Fin 8) (s : State) : Host.Outcome State Fault Refusal :=
  recipeStep cl.val u.val 0x32 (fun i => thenNext (laneBits i (fun a b => a ^^^ b))) s

/-- SHL (R271, R269) -/
def execRShl (cl : Fin 8) (u : Fin 8) (s : State) : Host.Outcome State Fault Refusal :=
  recipeStep cl.val u.val 0x33 (fun i => thenNext
    (let f := rFmt i.word
     lanewiseOp i [rA i.word, rB i.word] f (fun _ _ ops =>
       (fitInt f (decide (rMode i.word % 2 = 1))
         (decodeInt f (ops.getD 0 0).toNat * 2 ^ ((ops.getD 1 0).toNat % 64)), Exc.none)))) s

/-- SHR (R271) -/
def execRShr (cl : Fin 8) (u : Fin 8) (s : State) : Host.Outcome State Fault Refusal :=
  recipeStep cl.val u.val 0x34 (fun i => thenNext
    (let f := rFmt i.word
     lanewiseOp i [rA i.word, rB i.word] f (fun _ _ ops =>
       let n := (ops.getD 1 0).toNat % 64
       (if rImm i.word % 2 = 1 then lowBits f (ops.getD 0 0) / 2 ^ n
        else fitInt f false (decodeInt f (ops.getD 0 0).toNat / 2 ^ n), Exc.none)))) s

/-- CMP (R279, R290) -/
def execRCmp (cl : Fin 8) (u : Fin 8) (s : State) : Host.Outcome State Fault Refusal :=
  recipeStep cl.val u.val 0x38 (fun i => thenNext (do
    let act ← activeLanes i
    let f := rFmt i.word
    let m := rImm i.word
    let x := i.get (← get)
    let out := act.map (fun l =>
      let a := x.lane (rA i.word) l
      let b := x.lane (rB i.word) l
      let (r, e) := cmpLane (m % 8) (decide (m / 8 % 2 = 1)) (decide (m / 16 % 2 = 1)) f (lowBits f a.1) (lowBits f b.1)
      (l, r, a.2 || b.2, if a.2 || b.2 then Exc.none else e))
    i.mod (fun x => (List.range 32).foldl (fun x l =>
      match out.find? (fun o => decide (o.1 = l)) with
      | some o => x.setPredBit (rD i.word) l o.2.1 o.2.2.1
      | none => x.setPredBit (rD i.word) l false false) x)
    scuFlags i (out.foldl (fun e o => e.or o.2.2.2) Exc.none))) s

/-- PLOG (R271); a bit of the result is poisoned if one it comes from is. -/
def execRPlog (cl : Fin 8) (u : Fin 8) (s : State) : Host.Outcome State Fault Refusal :=
  recipeStep cl.val u.val 0x39 (fun i => thenNext (i.mod (fun x =>
    (List.range 32).foldl (fun y l =>
      let a := x.predBit (rA i.word % 8) l
      let b := x.predBit (rB i.word % 8) l
      let r := match rImm i.word % 4 with
        | 0 => a.1 && b.1
        | 1 => a.1 || b.1
        | 2 => a.1 != b.1
        | _ => a.1 && !b.1
      y.setPredBit (rD i.word % 8) l r (a.2 || b.2)) x))) s

/-! ### Reductions (R280) -/

/-- A lane of the tree: its value, its poison, the flags so far; absent lanes are `none`. -/
abbrev TreeLane := Option (Nat × Bool)

/-- The fixed tree of R280: the value that is left, with the flags of its combinations. -/
def reduceTree (op : Nat → Nat → Nat → Nat × Exc) (xs : List TreeLane) : TreeLane × Exc :=
  let lvl := fun (st : List TreeLane × Nat × Exc) (width : Nat) =>
    (List.range (16 / width)).foldl (fun (st : List TreeLane × Nat × Exc) k =>
      let i := 2 * width * k
      let a := st.1.getD i none
      let b := st.1.getD (i + width) none
      let (r, e) : TreeLane × Exc := match a, b with
        | none, y => (y, Exc.none)
        | x, none => (x, Exc.none)
        | some x, some y =>
          let (v, e) := op st.2.1 x.1 y.1
          let p := x.2 || y.2
          (some (v, p), if p then Exc.none else e)
      (setAt st.1 i r, st.2.1 + 1, st.2.2.or e)) st
  let st := [1, 2, 4, 8, 16].foldl lvl (xs, 0, Exc.none)
  (st.1.getD 0 none, st.2.2)

/-- A reduction of the active lanes of V[A] into S[D]. -/
def reduceLanes (i : RInstr) (op : State → Nat → Nat → Nat → Nat × Exc) : QM Unit := do
  let act ← activeLanes i
  let f := rFmt i.word
  let s ← get
  let x := i.get s
  let xs : List TreeLane := (List.range 32).map (fun l =>
    if act.contains l then let v := x.lane (rA i.word) l; some (lowBits f v.1, v.2) else none)
  match reduceTree (op s) xs with
  | (none, _) => pure ()
  | (some (v, p), e) =>
    let d := x.scal (rD i.word)
    let (r, e') := op s 31 (lowBits f d.1) v
    let q := p || d.2
    i.mod (fun x => x.setScal (rD i.word) (regVal f r) q)
    scuFlags i (e.or (if q then Exc.none else e'))

/-- RSUM (R280) -/
def execRRsum (cl : Fin 8) (u : Fin 8) (s : State) : Host.Outcome State Fault Refusal :=
  recipeStep cl.val u.val 0x40 (fun i => thenNext (reduceLanes i (fun s n a b =>
    arithOp (rFmt i.word) (rMode i.word) (rRand i s n) fAdd (fun xs => xs.getD 0 0 + xs.getD 1 0) [a, b]))) s

/-- RMAX (R280) -/
def execRRmax (cl : Fin 8) (u : Fin 8) (s : State) : Host.Outcome State Fault Refusal :=
  recipeStep cl.val u.val 0x41 (fun i => thenNext (reduceLanes i (fun _ _ a b =>
    minMax true (decide (rImm i.word % 2 = 1)) (decide (rImm i.word / 2 % 2 = 1)) (rFmt i.word) a b))) s

/-- RMIN (R280) -/
def execRRmin (cl : Fin 8) (u : Fin 8) (s : State) : Host.Outcome State Fault Refusal :=
  recipeStep cl.val u.val 0x42 (fun i => thenNext (reduceLanes i (fun _ _ a b =>
    minMax false (decide (rImm i.word % 2 = 1)) (decide (rImm i.word / 2 % 2 = 1)) (rFmt i.word) a b))) s

/-- RCOUNT (R271) -/
def execRRcount (cl : Fin 8) (u : Fin 8) (s : State) : Host.Outcome State Fault Refusal :=
  recipeStep cl.val u.val 0x43 (fun i => thenNext (do
    let act ← activeLanes i
    i.mod (fun x =>
      let d := x.scal (rD i.word)
      x.setScal (rD i.word) (d.1 + BitVec.ofNat 64 act.length) d.2))) s

/-! ### Sort, merge, top-k (R282-R287) -/

/-- Merge two lists: the head of the first goes unless the head of the second comes strictly earlier. -/
def mergeBy {α : Type} (fuel : Nat) (lt : α → α → Bool) (xs ys : List α) : List α :=
  match fuel, xs, ys with
  | 0, _, _ => xs ++ ys
  | _, [], ys => ys
  | _, xs, [] => xs
  | n + 1, x :: xs, y :: ys => if lt y x then y :: mergeBy n lt (x :: xs) ys else x :: mergeBy n lt xs (y :: ys)

/-- A stable sort; `depth` halvings reach lists of one element. -/
def stableSort {α : Type} (depth : Nat) (lt : α → α → Bool) (xs : List α) : List α :=
  match depth with
  | 0 => xs
  | k + 1 =>
    if xs.length ≤ 1 then xs
    else
      let h := xs.length / 2
      mergeBy xs.length lt (stableSort k lt (xs.take h)) (stableSort k lt (xs.drop h))

/-- An extent of the store: offset, length, alignment. -/
abbrev Extent := Nat × Nat × Nat

def overlaps (a b : Extent) : Bool := decide (0 < a.2.1) && decide (0 < b.2.1) && decide (a.1 < b.1 + b.2.1) && decide (b.1 < a.1 + a.2.1)

/-- Read and judge a parameter block (R287). -/
def readBlock (i : RInstr) : QM (Nat × Nat) := do
  let o ← useScalar i (rA i.word) 5
  checkOffsets i 32 [(0, o)]
  let bs ← lsRead i o 32
  if anyPoison bs then scuStop i 0x0A 0 6
  pure (o, leNat (bytesOf bs))

/-- The outcomes of R287 on a block's fields and extents. -/
def checkBlock (i : RInstr) (bad : Bool) (xs : List Extent) : QM Unit := do
  if bad then scuStop i 0x02 0 0
  if xs.any (fun x => decide (0x10_0000 < x.1 + x.2.1)) then scuStop i 0x04 0 4
  if xs.any (fun x => decide (x.1 % x.2.2 ≠ 0)) then scuStop i 0x05 0 0

/-- Keys of the store, which the SCU consumes (R292). -/
def readKeys (i : RInstr) (off n w : Nat) : QM (List Nat) := do
  let bs ← lsRead i off (n * w)
  if anyPoison bs then scuStop i 0x0A 0 7
  pure ((elemsOf w bs).map (fun e => e.1))

/-- Payload entries, each with the poison of its bytes. -/
def readPays (i : RInstr) (off n w : Nat) : QM (List (List PByte)) := do
  if w = 0 then pure (List.replicate n [])
  else
    let bs ← lsRead i off (n * w)
    pure ((List.range n).map (fun k => (bs.drop (k * w)).take w))

def payWidth (pw : Nat) : Nat := if pw = 1 then 4 else if pw = 2 then 8 else 0

/-- Strictly earlier in the order of DESC. -/
def keyBefore (fmt : Nat) (desc u : Bool) (a b : Nat × List PByte) : Bool :=
  let ka := orderKey fmt u a.1
  let kb := orderKey fmt u b.1
  if desc then decide (kb < ka) else decide (ka < kb)

def keyBytes (w : Nat) (xs : List (Nat × List PByte)) : List PByte := xs.flatMap (fun x => valBytes w x.1 false)

def payBytes (xs : List (Nat × List PByte)) : List PByte := xs.flatMap (fun x => x.2)

/-- SORT (R282, R283) -/
def execRSort (cl : Fin 8) (u : Fin 8) (s : State) : Host.Outcome State Fault Refusal :=
  recipeStep cl.val u.val 0x48 (fun i => thenNext (do
    let (_, b) ← readBlock i
    let f := bitsOf b 81 5
    let n := bitsOf b 64 17
    let w := elemBits f / 8
    let pw := payWidth (bitsOf b 88 2)
    let keys : Extent := (bitsOf b 0 20, n * w, w)
    let pay : Extent := (bitsOf b 20 20, n * pw, pw)
    let scr : Extent := (bitsOf b 40 20, n * (w + pw), 8)
    let xs := if pw = 0 then [keys, scr] else [keys, pay, scr]
    checkBlock i (decide (bitsOf b 60 4 ≠ 0) || decide (bitsOf b 90 166 ≠ 0) || decide (bitsOf b 88 2 = 3) || decide (65536 < n) ||
      !scuFormat f || overlaps keys scr || (decide (pw ≠ 0) && (overlaps keys pay || overlaps pay scr))) xs
    let ks ← readKeys i keys.1 n w
    let ps ← readPays i pay.1 n pw
    let es := ks.zip ps
    let out := stableSort 18 (keyBefore f (decide (bitsOf b 86 1 = 1)) (decide (bitsOf b 87 1 = 1))) es
    if n ≠ 0 then
      lsPut i scr.1 (keyBytes w es ++ payBytes es)
      lsPut i keys.1 (keyBytes w out)
      if pw ≠ 0 then lsPut i pay.1 (payBytes out))) s

/-- MERGE (R284) -/
def execRMerge (cl : Fin 8) (u : Fin 8) (s : State) : Host.Outcome State Fault Refusal :=
  recipeStep cl.val u.val 0x49 (fun i => thenNext (do
    let (_, b) ← readBlock i
    let f := bitsOf b 154 5
    let na := bitsOf b 120 17
    let nb := bitsOf b 137 17
    let w := elemBits f / 8
    let pw := payWidth (bitsOf b 161 2)
    let ins : List Extent := [(bitsOf b 0 20, na * w, w), (bitsOf b 20 20, nb * w, w)] ++
      (if pw = 0 then [] else [(bitsOf b 60 20, na * pw, pw), (bitsOf b 80 20, nb * pw, pw)])
    let outs : List Extent := [(bitsOf b 40 20, (na + nb) * w, w)] ++
      (if pw = 0 then [] else [(bitsOf b 100 20, (na + nb) * pw, pw)])
    checkBlock i (decide (bitsOf b 163 93 ≠ 0) || decide (bitsOf b 161 2 = 3) || decide (65536 < na) || decide (65536 < nb) ||
      !scuFormat f || ins.any (fun x => outs.any (fun y => overlaps x y))) (ins ++ outs)
    let ka ← readKeys i (bitsOf b 0 20) na w
    let kb ← readKeys i (bitsOf b 20 20) nb w
    let pa ← readPays i (bitsOf b 60 20) na pw
    let pb ← readPays i (bitsOf b 80 20) nb pw
    let out := mergeBy (na + nb) (keyBefore f (decide (bitsOf b 159 1 = 1)) (decide (bitsOf b 160 1 = 1))) (ka.zip pa) (kb.zip pb)
    if na + nb ≠ 0 then
      lsPut i (bitsOf b 40 20) (keyBytes w out)
      if pw ≠ 0 then lsPut i (bitsOf b 100 20) (payBytes out))) s

/-- An entry of TOPK: key, index with its bytes' poison, whether it comes from the list. -/
structure TopEntry where
  key : Nat
  idx : Nat
  poison : Bool
  listed : Bool
  deriving DecidableEq, Repr

/-- Rank of R286. -/
def topBefore (fmt : Nat) (small u : Bool) (a b : TopEntry) : Bool :=
  let ka := orderKey fmt u a.key
  let kb := orderKey fmt u b.key
  if ka ≠ kb then (if small then decide (ka < kb) else decide (kb < ka))
  else if a.idx ≠ b.idx then decide (a.idx < b.idx)
  else a.listed && !b.listed

/-- TOPK (R285, R286) -/
def execRTopk (cl : Fin 8) (u : Fin 8) (s : State) : Host.Outcome State Fault Refusal :=
  recipeStep cl.val u.val 0x4A (fun i => thenNext (do
    let (o, b) ← readBlock i
    let f := bitsOf b 77 5
    let n := bitsOf b 60 17
    let k := bitsOf b 84 13
    let ln := bitsOf b 97 13
    let w := elemBits f / 8
    let xs : List Extent := [(bitsOf b 0 20, n * w, w), (bitsOf b 20 20, k * w, w), (bitsOf b 40 20, k * 4, 4)]
    checkBlock i (decide (bitsOf b 110 18 ≠ 0) || decide (bitsOf b 160 96 ≠ 0) || decide (65536 < n) || decide (k = 0) || decide (4096 < k) ||
      decide (k < ln) || !scuFormat f) xs
    let ins ← readKeys i (bitsOf b 0 20) n w
    let lks ← readKeys i (bitsOf b 20 20) ln w
    let lxs ← readPays i (bitsOf b 40 20) ln 4
    let base := bitsOf b 128 32
    let es := (List.zipWith (fun x p => TopEntry.mk x (leNat (bytesOf p)) (anyPoison p) true) lks lxs) ++
      (List.range n).map (fun j => TopEntry.mk (ins.getD j 0) ((base + j) % 2 ^ 32) false false)
    let out := (stableSort 18 (topBefore f (decide (bitsOf b 82 1 = 1)) (decide (bitsOf b 83 1 = 1))) es).take (Nat.min k (ln + n))
    if out.length ≠ 0 then
      lsPut i (bitsOf b 20 20) (out.flatMap (fun e => valBytes w e.key false))
      lsPut i (bitsOf b 40 20) (out.flatMap (fun e => valBytes 4 e.idx e.poison))
    lsPut i (o + 12) (valBytes 2 (bitsOf b 96 1 + out.length * 2) false))) s

/-! ### Checksums (R288) and the step limit -/

/-- CRC (R288): with INIT the old value of S[D] is not read. -/
def execRCrc (cl : Fin 8) (u : Fin 8) (s : State) : Host.Outcome State Fault Refusal :=
  recipeStep cl.val u.val 0x4B (fun i => thenNext (do
    let act ← activeLanes i
    let f := rFmt i.word
    let m := rImm i.word
    let c := crcSpec (m % 4)
    i.mod (fun x =>
      let d := x.scal (rD i.word)
      let vs := act.map (fun l => x.lane (rA i.word) l)
      let bs := vs.flatMap (fun v => leBytes (elemBits f / 8) (lowBits f v.1))
      let ini := decide (m / 4 % 2 = 1)
      let r := crcFeed c (if ini then c.init else d.1.toNat % 2 ^ c.width) bs
      let r := if m / 8 % 2 = 1 then r ^^^ c.xorOut else r
      x.setScal (rD i.word) (BitVec.ofNat 64 r) ((!ini && d.2) || vs.any (fun v => v.2))))) s

/-- STEP_LIMIT (R295): STEPS has reached a step limit that is not 0. -/
def execStepLimit (cl : Fin 8) (u : Fin 8) (s : State) : Host.Outcome State Fault Refusal :=
  .next (match recipeAt s cl.val u.val with
    | none => s
    | some i =>
      if limitReached s cl.val u.val then
        engineStep cl.val (9 + u.val) 0x11 (fun _ c => scuRunArs c)
          (fun c => if c.resumed then pure false else scuStop i 0x08 0 1) s
      else s)

end Sys2Proof.Machine
end

