-- ==== Sys2Proof/Machine/Handover.lean ====
section
/-! DEFINITION. Hand-overs that wait: a tile's held blocks (04_matrix_tiles.md, R172-R177) and every producer that the
transport has not accepted (13_transport_and_links.md, R457). -/

namespace Sys2Proof.Machine

/-- The oldest held block goes to its destination; answers whether the destination has accepted it (R173). -/
def offerBlock (cl t : Nat) (b : HeldBlock) (s : State) : State × Bool :=
  if b.collective then takeInput cl (b.target % 4096) t b.chunk (clean b.bytes) s
  else handOver cl t b.target (clean b.bytes) true s

/-- The block has been accepted: SIGNAL0 under SIG0_EACH, and what ends its instruction (R81, R95, R174). -/
def blockDone (cl t : Nat) (b : HeldBlock) (s : State) : State :=
  let s := match b.each with
    | some w => issueSignal cl t 0 w s
    | none => s
  match b.last with
  | none => s
  | some e =>
    let s := if wEach e.word then s else issueSignal cl t 0 e.word s
    let s := issueSignal cl t 1 e.word s
    let s := if wIrq e.word then event 2 cl t e.count s else s
    atBoundary cl t s

def dropFront (cl t : Nat) (s : State) : State := modTile cl t (fun x => { x with held := x.held.drop 1 }) s

/-- Offer the oldest held block; the blocks for a group that does not exist halt the tile (R334). -/
def offerHeld (cl t : Nat) (s : State) : State :=
  match (getTile s cl t).held with
  | [] => s
  | b :: _ =>
    let gq := b.target % 4096
    if b.collective && !(getGroup s cl gq).held then dropGroupBlocks cl gq t s
    else
      match offerBlock cl t b s with
      | (s, false) => s
      | (s, true) =>
        let s := blockDone cl t b (dropFront cl t s)
        if b.collective then pumpHalting cl gq s else s

/-- BLOCK_ACCEPTED (R173, R174, R334) -/
def execBlockAccepted (cl : Fin 8) (t : Fin 9) (s : State) : Host.Outcome State Fault Refusal :=
  .next (offerHeld cl.val t.val s)

/-- What a queue waits to hand to the transport, offered again (R173, R215, R275, R343, R457). -/
def retryHandover (cl qid : Nat) (s : State) : State :=
  if qid < 9 then
    match (getTile s cl qid).held with
    | b :: _ => if b.collective then s else offerHeld cl qid s
    | [] => s
  else if qid < 17 then
    if (getScu s cl (qid - 9)).txWait then recipeRun cl (qid - 9) 0x11 putElems s else s
  else if qid < 25 then
    if (getMover s cl (qid - 17)).txWait then mvGo cl (qid - 17) s else s
  else if qid = 25 then s
  else pumpHalting cl (qid - 0x1000) s

/-- TX_HANDOVER (R457) -/
def execTxHandover (cl : Fin 8) (qid : BitVec 13) (s : State) : Host.Outcome State Fault Refusal :=
  onQueue qid (retryHandover cl.val qid.toNat s)

end Sys2Proof.Machine
end

