-- ==== Sys2Proof/Machine/Commands.lean ====
section
/-! DEFINITION. Command packets and replies: framing, authentication, targets, presence, delivery
(15_evtos_and_commands.md, R507-R518). What each command does is in Jobs.lean, Groups.lean and Admin.lean. -/

namespace Sys2Proof.Machine

/-! ### Packets (R507, R508) -/

/-- What a command is answered with: STATUS, DETAIL, payload. -/
structure Reply where
  status : Nat
  detail : Nat := 0
  payload : List Byte := []
  deriving DecidableEq, Repr

def Reply.ok : Reply := { status := 0 }

/-- BAD_PARAM: an offence of the packet, of a structure it names, of the group transport template (R515). -/
def badPacket (off : Nat) : Reply := { status := 2, detail := off }
def badStruct (off : Nat) : Reply := { status := 2, detail := off + 2 ^ 31 }
def badTemplate (off : Nat) : Reply := { status := 2, detail := off + 2 ^ 31 + 2 ^ 30 }

/-- NO_RESOURCE with its detail word (R521). -/
def noResource (kind cl index : Nat) : Reply := { status := 3, detail := kind + cl * 2 ^ 8 + Nat.min index 0xFFFF * 2 ^ 16 }

def denied (detail : Nat) : Reply := { status := 5, detail := detail }

/-- A command at hand: its source, its PL, its header and parameters. -/
structure Cmd where
  src : CmdSource
  pl : Fin 4
  packet : List Byte
  deriving DecidableEq, Repr

def pkIsReply (p : List Byte) : Bool := decide (leAt p 1 1 % 2 = 1)
def pkAuth (p : List Byte) : Bool := decide (leAt p 1 1 / 2 % 2 = 1)
def pkNoWait (p : List Byte) : Bool := decide (leAt p 1 1 / 4 % 2 = 1)
def pkOp (p : List Byte) : Nat := leAt p 2 2
def pkTag (p : List Byte) : W32 := BitVec.ofNat 32 (leAt p 4 4)
def pkTarget (p : List Byte) : Nat := leAt p 8 1 % 16
def pkKey (p : List Byte) : Nat := leAt p 8 1 / 16
def pkLen (p : List Byte) : Nat := leAt p 10 2
def pkAseq (p : List Byte) : Nat := leAt p 12 8

/-- Parameter of `n` bytes at parameter byte `o`. -/
def Cmd.par (c : Cmd) (o n : Nat) : Nat := leAt c.packet (32 + o) n

/-- Bytes between the parameters of a layout, which are pad bytes: the first that is not 0 offends (R516; DEDUCED, log entry
39). -/
def Cmd.gap (c : Cmd) (o n : Nat) : Nat × Bool :=
  match (List.range n).find? (fun i => decide (c.par (o + i) 1 ≠ 0)) with
  | some i => (32 + o + i, true)
  | none => (32 + o, false)

/-- The lowest offset of those that offend (R515). -/
def offence (l : List (Nat × Bool)) : Option Nat :=
  l.foldl (fun (o : Option Nat) x =>
    if x.2 then some (match o with
      | some y => Nat.min y x.1
      | none => x.1) else o) none

def isRing (src : CmdSource) : Bool :=
  match src with
  | .ring _ => true
  | _ => false

def isMgmt (src : CmdSource) : Bool :=
  match src with
  | .mgmt _ _ _ _ _ _ => true
  | _ => false

/-- First offence of a header; `len`: bytes of header and parameters that came. -/
def headerOffence (src : CmdSource) (p : List Byte) (len : Nat) : Option Nat :=
  offence
    [(0, decide (leAt p 0 1 ≠ 1)), (1, isRing src && pkAuth p), (1, decide (leAt p 1 1 / 8 ≠ 0)),
     (8, decide (9 ≤ pkTarget p) && decide (pkTarget p ≤ 14)), (8, decide (pkKey p ≠ 0) && !pkAuth p),
     (9, decide (leAt p 9 1 ≠ 0)), (10, decide (pkLen p % 8 ≠ 0) || decide (1024 < pkLen p) || decide (len ≠ 32 + pkLen p)),
     (12, decide (pkAseq p ≠ 0) && !pkAuth p), (20, decide (leAt p 20 12 ≠ 0))]

/-- Row of the opcode table (R516): highest PL, whether presence is needed, whether it is the acting master's. -/
def opRow (op : Nat) : Option (Nat × Bool × Bool) :=
  match op with
  | 0x01 => some (3, false, false)
  | 0x02 => some (3, false, false)
  | 0x03 => some (3, false, false)
  | 0x04 => some (3, false, false)
  | 0x05 => some (3, false, false)
  | 0x10 => some (1, false, false)
  | 0x11 => some (1, false, false)
  | 0x12 => some (1, false, false)
  | 0x13 => some (1, false, false)
  | 0x14 => some (1, false, false)
  | 0x15 => some (1, false, false)
  | 0x16 => some (1, false, false)
  | 0x17 => some (1, false, false)
  | 0x18 => some (1, false, false)
  | 0x20 => some (0, false, true)
  | 0x21 => some (0, false, true)
  | 0x22 => some (0, false, false)
  | 0x23 => some (0, false, false)
  | 0x24 => some (0, false, false)
  | 0x30 => some (0, true, false)
  | 0x31 => some (0, true, false)
  | 0x32 => some (0, true, false)
  | 0x33 => some (0, true, false)
  | _ => none

/-- Parameter bytes that a command's layout uses (R517): the least number of bytes, and the number for this packet. `none`:
the field that decides it has no meaning. -/
def layoutBytes (p : List Byte) : Nat × Option Nat :=
  let fixed := fun (n : Nat) => (n, some n)
  match pkOp p with
  | 0x02 => fixed 6
  | 0x03 => fixed 64
  | 0x04 => fixed 10
  | 0x05 => (16, if 1 ≤ leAt p 40 2 ∧ leAt p 40 2 ≤ 992 then some (16 + leAt p 40 2) else none)
  | 0x10 => fixed 8
  | 0x11 => fixed 2
  | 0x12 => fixed 5
  | 0x13 => fixed 72
  | 0x14 => fixed 4
  | 0x15 => fixed 8
  | 0x16 => fixed 4
  | 0x17 => fixed 4
  | 0x18 => fixed 18
  | 0x20 => (4, if leAt p 34 1 < 4 then some (4 + 4 * (8 / 2 ^ leAt p 34 1)) else none)
  | 0x21 => fixed 20
  | 0x22 => fixed 33
  | 0x23 => fixed 12
  | 0x24 => fixed 12
  | 0x30 => (8, if 1 ≤ leAt p 36 2 ∧ leAt p 36 2 ≤ 136 then some (8 + leAt p 36 2) else none)
  | 0x31 => fixed 1
  | 0x32 => fixed 8
  | 0x33 => fixed 12
  | _ => fixed 0

/-- A PLEN other than the layout's: R516 names the PLEN as what offends (DEDUCED, log entry 39). -/
def lengthOffence (p : List Byte) : Option Nat :=
  let (least, n?) := layoutBytes p
  if pkLen p < roundUp 8 least then some 10
  else
    match n? with
    | none => none
    | some n => if pkLen p ≠ roundUp 8 n then some 10 else none

/-- A pad byte that is not 0 (R516): the first. -/
def padOffence (p : List Byte) : Option Nat :=
  match (layoutBytes p).2 with
  | none => none
  | some n => ((p.drop (32 + n)).findIdx? (fun x => decide (x ≠ 0))).map (fun i => 32 + n + i)

/-! ### Replies -/

/-- Header and payload of a reply (R508). -/
def replyBytes (s : State) (p : List Byte) (r : Reply) : List Byte :=
  let pay := if r.status = 0 then r.payload ++ List.replicate (roundUp 8 r.payload.length - r.payload.length) (0 : Byte) else []
  [(1 : Byte), BitVec.ofNat 8 (1 + 2 * boolNat (pkAuth p))] ++ leBytes 2 (pkOp p) ++ leBytes 4 (pkTag p).toNat ++
    [BitVec.ofNat 8 (s.harness.addr.toNat + 16 * pkKey p), (0 : Byte)] ++ leBytes 2 pay.length ++ leBytes 2 r.status ++ leBytes 2 0 ++
    leBytes 4 r.detail ++ leBytes 8 (pkAseq p) ++ leBytes 4 0 ++ pay

/-- The UDP frame of a reply on a management port (R505, R447), under the port's own settings before the command. -/
def replyFrame (s : State) (g : MgmtPort) (m : Nat) (mac : W48) (ip : BitVec 128) (v6 : Bool) (port : W16) (bytes : List Byte) :
    List Byte :=
  let linkLocalPeer := decide (ip.toNat / 2 ^ 118 = 0x3FA)
  let src := if !v6 then g.ip4.toNat else if linkLocalPeer then linkLocal s m else g.ip6.toNat
  let rw : Rewrite := { dmac := mac, smac := BitVec.ofNat 48 (mgmtMac s m), vid := g.vid, tag := decide (g.vid ≠ 0), pcp := 0, dec := false }
  buildUdp rw v6 src ip.toNat 0 0 64 g.udp.toNat port.toNat bytes

/-- Deliver a reply (R505, R509, R513). -/
def sendReply (ports : List MgmtPort) (src : CmdSource) (bytes : List Byte) (s : State) : State :=
  match src with
  | .ring q =>
    let (s, rs) := ringPut (4 + q.val) 2048 (clean bytes) s
    event 4 0xFF 0 (BitVec.ofNat 32 q.val) (reports rs s)
  | .mgmt m _ mac ip v6 port => mgmtSend m.val (replyFrame s (ports.getD m.val MgmtPort.reset) m.val mac ip v6 port bytes) s
  | .harness _ _ => sendSig (.reply bytes) s

def keySlot (s : State) (k : Nat) : Option KeySlot := mget none s.keys k

def setKeySlot (k : Nat) (x : Option KeySlot) (s : State) : State := { s with keys := mput none s.keys k x }

/-- Key that authenticates the reply to an accepted command of a management port. -/
def replyKey (s : State) (src : CmdSource) (p : List Byte) : Option (List Byte) :=
  if isMgmt src && pkAuth p then (keySlot s (pkKey p)).map (fun k => k.key) else none

/-- The trailer of a reply (R508, R510); a device that answers its master leaves it to the master. -/
def withTrailer (key : Option (List Byte)) (src : CmdSource) (p bytes : List Byte) (s : State) : List Byte × State :=
  if !pkAuth p then (bytes, s)
  else
    match key, src with
    | some k, _ => (bytes ++ (hmac512 k bytes).take 32, s)
    | none, .harness _ _ => (bytes, s)
    | none, _ => (bytes ++ leBytes 32 (Config.keylessTrailer s.fresh).toNat, takeFresh s)

/-- The packet a source gives, with the trailer it came with. -/
def givenPacket (src : CmdSource) (p : List Byte) : List Byte :=
  match src with
  | .mgmt _ q _ _ _ _ => q
  | .harness q _ => q
  | .ring _ => p

/-- A reply goes out to its source, and to those that sent the same authenticated packet (R510); the slot keeps it. -/
def deliver (ports : List MgmtPort) (key : Option (List Byte)) (src : CmdSource) (also : List CmdSource) (p bytes : List Byte)
    (s : State) : State :=
  let (b, s) := withTrailer key src p bytes s
  let s := (src :: also).foldl (fun s x => sendReply ports x b s) s
  match key, keySlot s (pkKey p) with
  | some _, some k => if k.lastPacket = givenPacket src p then setKeySlot (pkKey p) (some { k with lastReply := b }) s else s
  | _, _ => s

/-- Answer a command: CMDS counts those executed (R526). -/
def answerCmd (ports : List MgmtPort) (key : Option (List Byte)) (src : CmdSource) (also : List CmdSource) (p : List Byte) (r : Reply)
    (s : State) : State :=
  let s := if r.status = 0 then bumpSat (evtRegs + 0x28) 1 s else s
  deliver ports key src also p (replyBytes s p r) s

/-! ### Authentication (R510, R511) -/

/-- Write the key store: the older copy takes the next generation (R571). What lies in flash holds no packets. -/
def storeKeys (s : State) : State :=
  let v : SMap (Option KeySlot) := s.keys.map (fun e => (e.1, e.2.map (fun k => { k with lastPacket := [], lastReply := [] })))
  let g : Option (W32 × SMap (Option KeySlot)) → Nat := fun c =>
    match c with
    | some x => x.1.toNat + 1
    | none => 0
  let next := BitVec.ofNat 32 (Nat.max (g s.flash.keys0) (g s.flash.keys1))
  if g s.flash.keys0 ≤ g s.flash.keys1 then { s with flash := { s.flash with keys0 := some (next, v) } }
  else { s with flash := { s.flash with keys1 := some (next, v) } }

/-- What authentication makes of a packet. -/
inductive AuthStep where
  | refused (r : Reply)
  /-- it is answered, or will be, with the reply to the packet it repeats -/
  | again
  | go (pl : Fin 4)
  deriving DecidableEq, Repr

/-- The packet repeats one that still executes: its source will get that reply. -/
def joinWait (src : CmdSource) (q : List Byte) (s : State) : Option State :=
  match s.presWait with
  | some w =>
    if givenPacket w.src w.packet = q then some { s with presWait := some { w with also := w.also ++ [src] } } else none
  | none => none

def joinCarried (src : CmdSource) (q : List Byte) (s : State) : Option State :=
  match s.harness.carried.find? (fun e => decide (givenPacket e.2.1 e.2.2.2 = q)) with
  | some e => some (modHs (fun h => { h with carried := h.carried ++ [(e.1, src, e.2.2.1, e.2.2.2)] }) s)
  | none => none

/-- Authenticate a packet of a management port. -/
def authenticate (src : CmdSource) (q : List Byte) (s : State) : AuthStep × State :=
  let n := 32 + pkLen q
  let fail : AuthStep × State := (.refused (denied 3), bumpSat (evtRegs + 0x2C) 1 s)
  match keySlot s (pkKey q) with
  | none => fail
  | some k =>
    if q.length ≠ n + 32 ∨ q.drop n ≠ (hmac512 k.key (q.take n)).take 32 then fail
    else if pkAseq q < k.aseq.toNat ∨ (pkAseq q = k.aseq.toNat ∧ q ≠ k.lastPacket) then fail
    else if q = k.lastPacket then
      match joinWait src q s, joinCarried src q s with
      | some s, _ => (.again, s)
      | none, some s => (.again, s)
      | none, none => (.again, sendReply s.mgmt src k.lastReply s)
    else
      (.go (BitVec.toFin k.pl),
       storeKeys (setKeySlot (pkKey q) (some { k with aseq := BitVec.ofNat 64 (pkAseq q), lastPacket := q, lastReply := [] }) s))

/-- The rights a packet acts with. -/
def rightsOf (src : CmdSource) (q : List Byte) (s : State) : AuthStep × State :=
  match src with
  | .ring p => (.go p, s)
  | .harness _ pl => (.go pl, s)
  | .mgmt m _ _ _ _ _ =>
    if pkAuth q then authenticate src q s
    else if (mgmtOf s m.val).openAccess ∧ 1 ≤ pkOp q ∧ pkOp q ≤ 3 then (.go 3, s)
    else (.refused (denied 4), s)

/-! ### Taking and running a command (R509, R512, R513, R518) -/

/-- Tack takes commands: boot has reached its last step, and the debug port has not halted the MC. -/
def tackServes (s : State) : Bool := !heldInReset s && decide (s.boot.step = 14) && !s.boot.failed && !s.boot.mcHalted

def sameSource (a b : CmdSource) : Bool :=
  match a, b with
  | .ring p, .ring q => decide (p = q)
  | .mgmt m _ _ _ _ _, .mgmt n _ _ _ _ _ => decide (m = n)
  | .harness _ _, .harness _ _ => true
  | _, _ => false

/-- The source waits for its command in the presence wait. -/
def sourcePaused (s : State) (src : CmdSource) : Bool :=
  match s.presWait with
  | some w => sameSource w.src src || w.also.any (fun x => sameSource x src)
  | none => false

/-- The next packet of a source: a ring's slot at HEAD, while the reply ring has room. -/
def takePacketFrom (src : CmdSource) (s : State) : Option (List Byte × State) :=
  match src with
  | .ring p =>
    let g := getRing s p.val
    let r := getRing s (4 + p.val)
    if !g.en || decide (g.head = g.tail) || !r.en || decide (2 ^ r.sizeLog2.toNat ≤ (r.tail - r.head).toNat) then none
    else
      let (bs, s) := readMem (g.base.toNat + g.head.toNat % 2 ^ g.sizeLog2.toNat * 2048) 2048 1 s
      let b := bytesOf bs
      some (b.take (32 + Nat.min 1024 (pkLen b)), setRing p.val { g with head := g.head + 1 } s)
  | .mgmt m q _ _ v6 _ =>
    if 32 ≤ q.length ∧ (if v6 then (mgmtOf s m.val).v6En else (mgmtOf s m.val).v4En) then some (q, s) else none
  | .harness q _ => if 32 ≤ q.length then some (q, s) else none

abbrev CmdRun := Cmd → State → Reply × State

/-- Run a command whose rights are settled: its parameters are judged, then it acts (R515, R516). Pad bytes come after every
parameter, so that an offence of a parameter is named before theirs; both come before any structure. -/
def runLocal (run : CmdRun) (c : Cmd) (s : State) : Reply × State :=
  match lengthOffence c.packet, padOffence c.packet with
  | some off, _ => (badPacket off, s)
  | none, none => run c s
  | none, some off =>
    let r := (run c s).1
    (if r.status = 2 ∧ r.detail < off then r else badPacket off, s)

/-- A command that this device carries to another (R513). -/
def carry (c : Cmd) (dest : Nat) (s : State) : State :=
  modHs (fun h => { h with carried := h.carried ++ [(pkTag c.packet, c.src, dest, c.packet)] })
    (sendSig (.command dest c.pl.val c.packet) s)

/-- Judge a command by its place in R516 and run it; `none`: it will be answered later. -/
def judgeAndRun (run : CmdRun) (onCarry : Cmd → Nat → State → State) (c : Cmd) (s : State) : Option Reply × State :=
  match opRow (pkOp c.packet) with
  | none => (some { status := 1 }, s)
  | some (maxPl, pres, master) =>
    let t := pkTarget c.packet
    if t ≠ 15 ∧ t ≠ s.harness.addr.toNat then
      if !actingMaster s then (some { status := 10 }, s)
      else if (harnessPick s t 0).isNone then (some (noResource 0x20 0xFF t), s)
      else (none, carry c t (onCarry c t s))
    else if maxPl < c.pl.val then (some (denied 1), s)
    else if master && !actingMaster s && !(match c.src with
        | .harness _ _ => true
        | _ => false) then (some { status := 10 }, s)
    else if (s.harness.role = 2 ∨ s.harness.role = 3) ∧ (pkOp c.packet = 0x10 ∨ pkOp c.packet = 0x15 ∨ pkOp c.packet = 0x13) then
      (some (denied 2), s)
    else if !pres then
      let (r, s) := runLocal run c s
      (some r, s)
    else if !s.sig.sealClosed then (some { status := 9 }, s)
    else if presence s then
      let (r, s) := runLocal run c s
      (some r, s)
    else if pkNoWait c.packet then (some { status := 4 }, s)
    else if s.presWait.isSome then (some { status := 6 }, s)
    else (none, { s with presWait := some { src := c.src, packet := c.packet, also := [] } })

/-- Handle one packet of a source: rights, header, then the command. -/
def handlePacket (run : CmdRun) (onCarry : Cmd → Nat → State → State) (src : CmdSource) (q : List Byte) (s : State) : State :=
  let ports := s.mgmt
  match rightsOf src q s with
  | (.again, s) => s
  | (.refused r, s) => answerCmd ports none src [] q r s
  | (.go pl, s) =>
    let key := replyKey s src q
    let n := 32 + pkLen q
    let p := if key.isSome then q.take n else q
    match headerOffence src p p.length with
    | some off => answerCmd ports key src [] p (badPacket off) s
    | none =>
      match judgeAndRun run onCarry { src := src, pl := pl, packet := p } s with
      | (none, s) => s
      | (some r, s) => answerCmd ports key src [] p r s

/-- A command is taken from its source when its packet is one this row of the table is for. -/
def takeCommand (wanted : List Byte → Bool) (run : CmdRun) (onCarry : Cmd → Nat → State → State) (src : CmdSource) (s : State) : State :=
  if !tackServes s || sourcePaused s src then s
  else
    match takePacketFrom src s with
    | none => s
    | some (q, s') => if wanted q then handlePacket run onCarry src q s' else s

/-- A command of the opcode table. -/
def command (op : Nat) (run : CmdRun) (src : CmdSource) (s : State) : Host.Outcome State Fault Refusal :=
  .next (takeCommand (fun q => !pkIsReply q && decide (pkOp q = op)) run (fun _ _ s => s) src s)

/-- A configuration command, which the master also notes for the device it is carried to. -/
def configCommand (op : Nat) (run : CmdRun) (onCarry : Cmd → Nat → State → State) (src : CmdSource) (s : State) :
    Host.Outcome State Fault Refusal :=
  .next (takeCommand (fun q => !pkIsReply q && decide (pkOp q = op)) run onCarry src s)

/-! ### What a command's PL may reach (R517, R584) -/

/-- A structure of `len` bytes that a command names at parameter offset `o`, aligned to `align`: an offence of the naming
field, or a refusal by the table; `none`: Tack may read it. -/
def structRefusal (s : State) (pl : Fin 4) (a len align o : Nat) : Option Reply :=
  if 2 ^ 48 ≤ a ∨ a % align ≠ 0 ∨ ¬ memMapped s a len ∨ 2 ^ 48 < a + len then some (badPacket (32 + o))
  else if pl ≠ 0 ∧ (closedRegion s a len ∨ !allowed s (.companion pl) a len .read) then some (denied 5)
  else none

/-- BAD_OPCODE (R508, R516): a packet whose OPCODE is no command's is answered; one with REPLY 1 is dropped. -/
def execBadOpcode (src : CmdSource) (s : State) : Host.Outcome State Fault Refusal :=
  .next (if !tackServes s || sourcePaused s src then s
    else
      match takePacketFrom src s with
      | none => s
      | some (q, s') =>
        if pkIsReply q then s'
        else if (opRow (pkOp q)).isNone then handlePacket (fun _ s => ({ status := 1 }, s)) (fun _ _ s => s) src q s'
        else s)

/-- HARNESS_REPLY_RECEIVE (R513, R517): the reply of the device that executed a carried command, or, empty, the outcome of a
COMMIT that was applied, is returned with SOURCE set to that device, to every source of the packet. -/
def execHarnessReplyReceive (tag : W32) (reply : List Byte) (s : State) : Host.Outcome State Fault Refusal :=
  .next (if heldInReset s || !actingMaster s then s
    else
      match s.harness.carried.find? (fun e => decide (e.1 = tag)) with
      | none => s
      | some e =>
        let p := e.2.2.2
        let dest := e.2.2.1
        let same := s.harness.carried.filter (fun x => decide (x.1 = tag ∧ x.2.2.2 = p ∧ x.2.2.1 = dest))
        let b := if reply.isEmpty then replyBytes s p Reply.ok else reply
        let b := b.take 8 ++ [BitVec.ofNat 8 (dest + leAt b 8 1 / 16 * 16)] ++ b.drop 9
        let s := modHs (fun h => { h with carried := h.carried.filter (fun x => !same.contains x) }) s
        -- a GROUP_DESTROY that succeeded on the device (R486)
        let s := if pkOp p = 0x16 ∧ leAt b 12 2 = 0 then gtNote (leAt p 32 4 % 2 ^ 24) dest false s else s
        deliver s.mgmt (replyKey s e.2.1 p) e.2.1 ((same.drop 1).map (fun x => x.2.1)) p b s)

end Sys2Proof.Machine
end

