-- ==== Sys2Proof/Machine/Jobs.lean ====
section
/-! DEFINITION. Jobs and data contexts as commands load, unload and reset them (15_evtos_and_commands.md, R519-R524, R630;
13_transport_and_links.md, R449). -/

namespace Sys2Proof.Machine

/-! ### The job descriptor (R519) -/

def jdId (d : Nat) : Nat := bitsOf d 0 16
def jdEngines (d cl : Nat) : Nat := bitsOf d (64 + 32 * cl) 32
def jdSems (d cl : Nat) : Nat × Nat := (bitsOf d (320 + 32 * cl) 12, bitsOf d (332 + 32 * cl) 13)
def jdDctx (d : Nat) : Nat := bitsOf d 576 18

/-- ENG code that bit `b` of an ENGINES word names. -/
def engineOfBit (b : Nat) : Nat := if b < 8 then b else b + 1

/-- Engines of a descriptor in ascending cluster and ENG code. -/
def jdNamed (d : Nat) : List (Nat × Nat) :=
  (List.range 8).flatMap (fun cl =>
    ((List.range 25).filter (fun b => decide (bitsOf (jdEngines d cl) b 1 = 1))).map (fun b => (cl, engineOfBit b)))

/-- First offending field of the descriptor (R520, 1). -/
def jdOffence (d : Nat) : Option Nat :=
  offence ([(0, decide (jdId d = 0)), (2, decide (bitsOf d 16 48 ≠ 0)), (74, decide (bitsOf d 594 430 ≠ 0))] ++
    (List.range 8).map (fun cl => (11 + 4 * cl, decide (bitsOf (jdEngines d cl) 25 7 ≠ 0))) ++
    (List.range 8).map (fun cl => (41 + 4 * cl, decide (4096 < (jdSems d cl).1 + (jdSems d cl).2))) ++
    (List.range 8).map (fun cl => (43 + 4 * cl, decide (bitsOf d (345 + 32 * cl) 7 ≠ 0))))

/-- No engine stands ready behind the code (R520, 2). -/
def engineGone (s : State) (e : Nat × Nat) : Bool := absent s e.1 e.2 || isOffline s (unitOfQueue e.1 e.2)

def absentReply (e : Nat × Nat) : Reply := { status := 7, detail := e.2 + 256 * e.1 }

/-- A counter lies in the range of a job in a cluster. -/
def jobHoldsSem (j : Job) (cl n : Nat) : Bool :=
  let r := j.sems.getD cl (0, 0)
  decide (r.1 ≤ n) && decide (n < r.1 + r.2)

/-- Contexts that neither a group nor a job's reservation takes (R520, R521). -/
def freeContexts (s : State) : Nat :=
  262144 - ((s.ctxs.filter (fun e => e.2.isOpen && e.2.group)).length + (s.jobs.map (fun j => j.dctx)).sum)

/-- The engines of one kind that another job holds, lowest cluster and ENG first. -/
def heldEngine (s : State) (d lo hi : Nat) : Option (Nat × Nat) :=
  (jdNamed d).find? (fun e => decide (lo ≤ e.2) && decide (e.2 < hi) && decide (jobOfQueue s e.1 e.2 ≠ 0))

/-- The resource that cannot be had (R521), in the order of its kinds. -/
def jobShortage (s : State) (d : Nat) : Option Reply :=
  let held := fun (kind lo hi : Nat) => (heldEngine s d lo hi).map (fun e => noResource kind e.1 e.2)
  let sem : Option (Nat × Nat) := (List.range 8).findSome? (fun cl =>
    let r := jdSems d cl
    ((List.range r.2).find? (fun i => s.jobs.any (fun j => jobHoldsSem j cl (r.1 + i)))).map (fun i => (cl, r.1 + i)))
  if 256 ≤ s.jobs.length then some (noResource 1 0xFF 0)
  else if s.jobs.any (fun j => decide (j.id.toNat = jdId d)) then some (noResource 2 0xFF 0)
  else (held 3 0 9).orElse (fun _ => (held 4 9 17).orElse (fun _ => (held 5 17 25).orElse (fun _ => (held 6 25 26).orElse (fun _ =>
    (sem.map (fun x => noResource 7 x.1 x.2)).orElse (fun _ =>
      if freeContexts s < jdDctx d then some (noResource 8 0xFF (jdDctx d - freeContexts s)) else none)))))

/-! ### Stopping a queue for good (R523, R524) -/

/-- Abandon what a queue does, at its next element boundary: signals are not issued, blocks go nowhere. -/
def abandonQueue (cl qid : Nat) (s : State) : State :=
  let s := dropHeld cl qid (settleHalted cl qid s)
  let s := stepQueue cl qid (fun q => { q with
    run := false, halted := false, cfgErr := false, dlMember := false, head := 0, tail := 0, cur := none, ovfReq := none,
    stopReq := none, sends := [], sendsLost := false }) s
  let s := if qid < 9 then modTile cl qid (fun t => { t with desc := none }) s
    else if qid < 17 then modScu cl (qid - 9) (fun x => { Scu.reset with recipe := x.recipe }) s
    else if qid < 25 then { s with movers := mput Mover.reset s.movers (cl * 8 + (qid - 17)) Mover.reset }
    else { s with pues := mput Pue.reset s.pues cl Pue.reset }
  trimGens s

/-- The halt record of a queue reads as if it had none. -/
def clearHalt (cl qid : Nat) (s : State) : State :=
  modQ cl qid (fun q => { q with haltAddr := 0, haltReason := 0, partialOut := false, repeatIdx := 0 }) s

/-- Engine queues of a job. -/
def jobQueues (j : Job) : List (Nat × Nat) :=
  (List.range 8).flatMap (fun cl =>
    ((List.range 25).filter (fun b => bitOf (j.engines.getD cl 0) b)).map (fun b => (cl, engineOfBit b)))

/-! ### LOAD_JOB (R520, R522) -/

/-- A counter of the job starts from 0, outside the detector's scope. -/
def clearSem (cl n : Nat) (s : State) : State :=
  setField (dldRegs cl + 0x800 + 4 * (n / 32)) (n % 32) 1 0 (setSem cl n Sem.reset s)

def applyJob (d : Nat) (s : State) : State :=
  let j : Job := { id := BitVec.ofNat 16 (jdId d), engines := (List.range 8).map (fun cl => BitVec.ofNat 32 (jdEngines d cl)),
                   sems := (List.range 8).map (jdSems d), dctx := jdDctx d, ctxs := [] }
  let s := (jobQueues j).foldl (fun s e => abandonQueue e.1 e.2 s) s
  let s := (List.range 8).foldl (fun s cl =>
    (List.range (jdSems d cl).2).foldl (fun s i => clearSem cl ((jdSems d cl).1 + i) s) s) s
  let s := { s with jobs := s.jobs ++ [j] }
  -- a negative bias of a cupping run ends where a job comes (R556)
  (List.range 8).foldl (fun s cl =>
    if jdEngines d cl ≠ 0 ∧ sext 8 (regField s (rgRegs cl + 0xC) 0 8) < 0 then setBias cl 0 s else s) s

def loadJob (c : Cmd) (s : State) : Reply × State :=
  let a := c.par 0 8
  match structRefusal s c.pl a 128 64 0 with
  | some r => (r, s)
  | none =>
    let (bs, s') := readMem a 128 1 s
    let d := leNat (bytesOf bs)
    match jdOffence d, (jdNamed d).find? (engineGone s'), jobShortage s' d with
    | some off, _, _ => (badStruct off, s')
    | none, some e, _ => (absentReply e, s')
    | none, none, some r => (r, s')
    | none, none, none => (Reply.ok, applyJob d s')

/-- LOAD_JOB (R519-R522) -/
def execLoadJob (src : CmdSource) (s : State) : Host.Outcome State Fault Refusal := command 0x10 loadJob src s

/-! ### UNLOAD_JOB and RESET_UNIT (R523, R524) -/

def jobById (s : State) (id : Nat) : Option Job := s.jobs.find? (fun j => decide (j.id.toNat = id))

/-- Step 3 of R523 for one queue: recipe memory and weight buffers do not outlive the job (R179, R257). -/
def unloadQueue (cl qid : Nat) (s : State) : State :=
  let s := clearHalt cl qid (abandonQueue cl qid s)
  let s := if qid < 9 then clearBuffers cl qid s else if qid < 17 then setScu cl (qid - 9) Scu.reset s else s
  closeWindow (unitOfQueue cl qid) s

def removeJob (j : Job) (s : State) : State :=
  let s := (jobQueues j).foldl (fun s e => unloadQueue e.1 e.2 s) s
  let s := j.ctxs.foldl (fun s c => closeCtx c s) s
  let s := { s with jobs := s.jobs.filter (fun x => decide (x.id ≠ j.id)) }
  (List.range 8).foldl (fun s cl => settleTiles cl s) s

def unloadJob (c : Cmd) (s : State) : Reply × State :=
  match jobById s (c.par 0 2) with
  | none => (badPacket 32, s)
  | some j => (Reply.ok, removeJob j s)

/-- UNLOAD_JOB (R523, R630) -/
def execUnloadJob (src : CmdSource) (s : State) : Host.Outcome State Fault Refusal := command 0x11 unloadJob src s

def resetQueue (cl qid : Nat) (s : State) : State :=
  let s := clearHalt cl qid (abandonQueue cl qid s)
  let s := modQ cl qid (fun q => { q with ars := List.replicate 16 AR.reset }) s
  closeWindow (unitOfQueue cl qid) (if qid < 9 then clearBuffers cl qid s else s)

def resetUnit (c : Cmd) (s : State) : Reply × State :=
  let qid := c.par 2 2
  let cl := c.par 4 1
  match jobById s (c.par 0 2) with
  | none => (badPacket 32, s)
  | some j =>
    match offence [(34, !(decide (qid < 0x1A))), (36, decide (8 ≤ cl))] with
    | some off => (badPacket off, s)
    | none =>
      if !(jobQueues j).contains (cl, qid) then (badPacket 34, s)
      else
        let q := getQ s cl qid
        if q.halted ∧ terminal q.haltReason.toNat then (denied (6 + 256 * q.haltReason.toNat), s)
        else if qid < 9 ∧ (getTile s cl qid).rotating then ({ status := 6 }, s)
        else (Reply.ok, resetQueue cl qid s)

/-- RESET_UNIT (R524, R630) -/
def execResetUnit (src : CmdSource) (s : State) : Host.Outcome State Fault Refusal := command 0x12 resetUnit src s

/-! ### Context descriptors (R449) -/

def cdPeer (d : Nat) : Nat := bitsOf d 0 32
def cdHomeCl (d : Nat) : Nat := bitsOf d 50 3
def cdSrcLocal (d : Nat) : Nat := bitsOf d 76 6
def cdMaxRate (d : Nat) : Nat := bitsOf d 176 24
def cdMinRate (d : Nat) : Nat := bitsOf d 200 24

/-- Byte offsets of the fields of a context descriptor that break the limits of R449; `peer`: what its peer entry holds. -/
def ctxOffences (s : State) (d : Nat) (peer : Option Peer) : List (Nat × Bool) :=
  [(0, peer.isNone), (7, decide (bitsOf d 62 2 ≠ 0)), (8, decide (bitsOf d 64 8 = 0)),
   (9, decide (bitsOf d 72 4 < 8) || decide (12 < bitsOf d 72 4)),
   (9, (match peer with
     | some p => (localAddr s (cdHomeCl d / 2) (cdSrcLocal d) p.v6).isNone
     | none => false)),
   (10, decide (bitsOf d 82 2 ≠ 0)), (11, decide (bitsOf d 92 6 = 0)), (14, decide (bitsOf d 116 12 ≠ 0)),
   (16, decide (bitsOf d 128 32 < 4096)), (21, decide (bitsOf d 168 8 ≠ 0)),
   (25, decide (cdMinRate d = 0) || decide (cdMaxRate d < cdMinRate d)), (31, decide (bitsOf d 250 262 ≠ 0))]

/-- A context as a descriptor describes it, just opened (R449, R453, R460). -/
def ctxOf (d : Nat) (p : Peer) : Ctx :=
  { Ctx.reset with
    isOpen := true, peerId := BitVec.ofNat 32 (cdPeer d), peer := p, remoteCtx := BitVec.ofNat 18 (bitsOf d 32 18),
    ackCtx := BitVec.ofNat 18 (bitsOf d 32 18), homeCl := BitVec.ofNat 3 (cdHomeCl d), cls := BitVec.ofNat 3 (bitsOf d 53 3),
    dscp := BitVec.ofNat 6 (bitsOf d 56 6), ttl := BitVec.ofNat 8 (bitsOf d 64 8), payLog2 := BitVec.ofNat 4 (bitsOf d 72 4),
    srcLocal := BitVec.ofNat 6 (cdSrcLocal d), winM1 := BitVec.ofNat 8 (bitsOf d 84 8), ackCount := BitVec.ofNat 6 (bitsOf d 92 6),
    ackClass := BitVec.ofNat 3 (bitsOf d 98 3), ackDelay := BitVec.ofNat 15 (bitsOf d 101 15),
    resendCyc := BitVec.ofNat 32 (bitsOf d 128 32), resendMax := BitVec.ofNat 8 (bitsOf d 160 8),
    maxRate := BitVec.ofNat 24 (cdMaxRate d), minRate := BitVec.ofNat 24 (cdMinRate d), aiStep := BitVec.ofNat 16 (bitsOf d 224 16),
    path := BitVec.ofNat 10 (bitsOf d 240 10), rate := BitVec.ofNat 24 (cdMaxRate d) }

/-! ### CTX_OPEN and CTX_CLOSE -/

def ctxOpen (c : Cmd) (s : State) : Reply × State :=
  let n := c.par 0 4
  let d := leNat ((c.packet.drop 40).take 64)
  let (peer, s') := readPeer (cdPeer d) s
  match offence ([(32, decide (262144 ≤ n)), (36, (jobById s (c.par 4 2)).isNone), c.gap 6 2] ++
      (ctxOffences s' d peer).map (fun x => (x.1 + 40, x.2))), peer, jobById s (c.par 4 2) with
  | some off, _, _ => (badPacket off, s')
  | none, some p, some j =>
    if (getCtx s' n).isOpen then (noResource 0x18 0xFF 0, s')
    else if j.dctx ≤ j.ctxs.length then (noResource 0x19 0xFF 0, s')
    else
      (Reply.ok, setCtx n { ctxOpened s' (ctxOf d p) with job := j.id } { s' with
        jobs := s'.jobs.map (fun x => if x.id = j.id then { x with ctxs := x.ctxs ++ [n] } else x) })
  | none, _, _ => (badPacket 36, s')

/-- CTX_OPEN (R449, R475, R630) -/
def execCtxOpen (src : CmdSource) (s : State) : Host.Outcome State Fault Refusal := command 0x13 ctxOpen src s

def ctxClose (c : Cmd) (s : State) : Reply × State :=
  let n := c.par 0 4
  if n < 262144 ∧ (getCtx s n).isOpen ∧ ¬ (getCtx s n).group then
    (Reply.ok, closeCtx n { s with jobs := s.jobs.map (fun j => { j with ctxs := j.ctxs.filter (fun x => decide (x ≠ n)) }) })
  else (badPacket 32, s)

/-- CTX_CLOSE (R458, R630) -/
def execCtxClose (src : CmdSource) (s : State) : Host.Outcome State Fault Refusal := command 0x14 ctxClose src s

end Sys2Proof.Machine
end

