-- ==== Sys2Proof/Machine/Groups.lean ====
section
/-! DEFINITION. Group instances as commands create, destroy and abort them (09_collectives.md, R327-R334, R350). -/

namespace Sys2Proof.Machine

/-! ### The creation descriptor (R327) -/

def gdGid (d : Nat) : Nat := bitsOf d 0 24
def gdCl (d : Nat) : Nat := bitsOf d 24 3
def gdSelfEn (d : Nat) : Bool := decide (bitsOf d 27 1 = 1)
def gdGq (d : Nat) : Nat := bitsOf d 28 12
def gdN (d : Nat) : Nat := bitsOf d 40 16 + 1
def gdSelf (d : Nat) : Nat := bitsOf d 56 16
def gdNagg (d : Nat) : Nat := bitsOf d 72 4
def gdNred (d : Nat) : Nat := bitsOf d 76 12 + 1
def gdIfmt (d : Nat) : Nat := bitsOf d 92 5
def gdMp (d : Nat) : Nat := bitsOf d 97 4
def gdPieces (d : Nat) : Nat := bitsOf d 101 8 + 1
def gdEb (d : Nat) : Nat := bitsOf d 109 3
def gdCanon (d : Nat) : Bool := decide (bitsOf d 112 1 = 1)
def gdEndp (d : Nat) : Nat := bitsOf d 128 48
def gdRed (d : Nat) : Nat := bitsOf d 176 48
def gdGctx (d : Nat) : Nat := bitsOf d 224 18
def gdResGran (d : Nat) : Nat := bitsOf d 256 20
def gdInput (d : Nat) : Nat := bitsOf d 276 16
def gdEa (d : Nat) : Nat := bitsOf d 292 16

/-- Endpoints: members and aggregators. -/
def gdEnds (d : Nat) : Nat := gdN d + gdNagg d

/-- Bytes of one input chunk of the largest geometry. -/
def gdChunk (d : Nat) : Nat := runBytes (gdIfmt d) (2 ^ gdMp d * gdPieces d)

/-- The reservation minimum (R331). -/
def gdMinimum (d : Nat) : Nat :=
  let pe := 2 ^ gdMp d
  let piece := pe * 48 / 64
  2 + 1 + cdiv (gdN d) 8 + (1 + cdiv (gdN d * gdPieces d) 512) +
    (if gdCanon d then Nat.max piece (cdiv (gdN d * pe * 2 ^ gdEb d) 64) else piece) + 1

/-- Offences of the descriptor's own fields (R330). -/
def gdOffences (s : State) (d : Nat) : List (Nat × Bool) :=
  [(0, s.groups.any (fun e => e.2.held && decide (e.2.gid.toNat = gdGid d))),
   (7, gdSelfEn d && decide (gdN d ≤ gdSelf d)), (9, decide (65536 < gdEnds d)), (9, decide (gdEnds d < gdNred d)),
   (11, decide (0 < gdInput d) && !(decide (1 ≤ gdIfmt d) && decide (gdIfmt d ≤ 0x0B))), (11, reservedFormat (gdIfmt d)),
   (12, decide (gdMp d < 6) || decide (12 < gdMp d)), (12, decide (65536 < 2 ^ gdMp d * gdPieces d)),
   (13, decide (3 < gdEb d) || decide (4096 < 2 ^ gdMp d * 2 ^ gdEb d)), (14, decide (bitsOf d 113 15 ≠ 0)),
   (16, decide (gdEndp d % 16 ≠ 0)), (22, decide (gdRed d % 2 ≠ 0)), (30, decide (bitsOf d 242 14 ≠ 0)),
   (32, decide (gdResGran d < gdMinimum d)),
   (34, decide (gdInput d = 0) && decide (gdIfmt d ≠ 0)),
   (34, decide (0 < gdInput d) && decide (gdInput d * 1024 < gdChunk d)), (36, decide (gdEa d < 4)),
   (38, decide (bitsOf d 308 204 ≠ 0))]

/-! ### The tables it reaches (R328) -/

/-- Endpoint table entries, as numbers. -/
def endpointTable (s : State) (d : Nat) : List Nat :=
  (List.range (gdEnds d)).map (fun i => leNat ((List.range 16).map (fun k => memByte s (gdEndp d + 16 * i + k))))

def creationReducers (s : State) (d : Nat) : List Nat :=
  (List.range (gdNred d)).map (fun i => leNat ((List.range 2).map (fun k => memByte s (gdRed d + 2 * i + k))))

/-- Index of the one LOCAL entry; `none`: there is not exactly one. -/
def localEntry (tab : List Nat) : Option Nat :=
  match (List.range tab.length).filter (fun i => decide (bitsOf (tab.getD i 0) 50 1 = 1)) with
  | [i] => some i
  | _ => none

/-- Offences of the tables, at the fields that reach them (R330, R515). -/
def tableOffences (s : State) (d : Nat) : List (Nat × Bool) :=
  let tab := endpointTable s d
  let red := creationReducers s d
  let endOk := memMapped s (gdEndp d) (16 * gdEnds d)
  let redOk := memMapped s (gdRed d) (2 * gdNred d)
  [(16, !endOk || tab.any (fun e => decide (bitsOf e 51 77 ≠ 0)) ||
     (match localEntry tab with
      | none => true
      | some i => if gdSelfEn d then decide (i ≠ gdSelf d) else decide (i < gdN d))),
   (22, !redOk || red.any (fun e => decide (gdEnds d ≤ e)) || decide (red.eraseDups.length ≠ red.length))]

/-! ### The transport template (R470) -/

/-- TFT_GDEF as a descriptor. -/
def templateBits (s : State) : Nat := leNat ((List.range 16).flatMap (fun i => leBytes 4 (getReg s (tftDev + 0x100 + 4 * i)).toNat))

/-- The template with the instance's own fields for an endpoint. -/
def templateFor (s : State) (d peer rctx : Nat) : Nat :=
  let t := templateBits s
  t - bitsOf t 0 53 + (peer + rctx * 2 ^ 32 + gdCl d * 2 ^ 50)

/-- Contexts of the other endpoints: number, descriptor, peer entry (R450). -/
def groupPeers (d : Nat) (ep : Nat) (s : State) : List (Nat × Nat × Option Peer) × State :=
  let tab := endpointTable s d
  (List.range (gdEnds d)).foldl (fun (acc : List (Nat × Nat × Option Peer) × State) e =>
    if e = ep then acc
    else
      let x := tab.getD e 0
      let (p, s) := readPeer (bitsOf x 0 32) acc.2
      let n := if e < ep then gdGctx d + 1 + e else gdGctx d + e
      (acc.1 ++ [(n, templateFor s d (bitsOf x 0 32) (bitsOf x 32 18), p)], s)) ([], s)

/-! ### Resources (R332, R412) -/

/-- RES of the group owner. -/
def groupRes (d : Nat) : List Nat :=
  let q := ((List.range 6).find? (fun p => decide (gdChunk d ≤ poolSize p))).getD 5
  (List.range 6).map (fun p =>
    (if 0 < gdInput d ∧ p = q then gdInput d * 1024 / poolSize q else 0) + (if p = 2 then gdEa d / 4 else 0))

/-- Shortfall in KiB of the first pool that cannot take the reservation. -/
def poolShortfall (s : State) (d : Nat) : Option Nat :=
  let cl := gdCl d
  let res := groupRes d
  let q := ((List.range 6).find? (fun p => decide (gdChunk d ≤ poolSize p))).getD 5
  (List.range 6).findSome? (fun p =>
    let missing := resSum s cl p + res.getD p 0 - poolCount s cl p
    let none' := decide (0 < gdInput d) && decide (p = q) && decide (poolCount s cl p = 0)
    if 0 < res.getD p 0 ∧ 0 < missing then some (cdiv (missing * poolSize p) 1024)
    else if none' then some (cdiv (poolSize p) 1024) else none)

/-- Contexts beyond GCTX that are wanting. -/
def ctxShortfall (s : State) (d : Nat) : Nat :=
  let need := gdEnds d - 1
  let taken := ((List.range need).filter (fun i =>
    decide (262144 ≤ gdGctx d + 1 + i) || (getCtx s (gdGctx d + 1 + i)).isOpen)).length
  Nat.max taken (need + 1 - freeContexts s)

/-- The first resource that cannot be had (R332, R521, R538). -/
def groupShortage (s : State) (d : Nat) : Option Reply :=
  let cl := gdCl d
  let gq := gdGq d
  let unreserved := storeTotal - storeReserved s cl - storeShared s cl
  if (getGroup s cl gq).held || isOffline s (unitCl 7 cl gq) then some (noResource 0x10 cl gq)
  else if (getCtx s (gdGctx d)).isOpen then some (noResource 0x11 0xFF (gdGctx d))
  else if 0 < ctxShortfall s d then some (noResource 0x12 0xFF (ctxShortfall s d))
  else if isOffline s (unitCl 5 cl 0) || isOffline s (unitCl 0x0E cl 0) then some (noResource 0x13 cl (gdResGran d))
  else if unreserved < gdResGran d then some (noResource 0x13 cl (gdResGran d - unreserved))
  else (poolShortfall s d).map (fun n => noResource 0x14 cl n)

/-! ### GROUP_CREATE (R333) -/

/-- The lowest place of the cluster's slice that no header takes (log entry 23). -/
def freeHeader (s : State) (cl : Nat) : Nat :=
  let used := (groupsOf s cl).map (fun g => g.slot)
  ((List.range (used.length + 1)).find? (fun i => !used.contains i)).getD 0

/-- The instance after its creation: the null step. -/
def newGroup (s : State) (d ep : Nat) : Group :=
  { Group.reset with
    held := true, gid := BitVec.ofNat 24 (gdGid d), selfEn := gdSelfEn d, nmemb := gdN d, self := gdSelf d, nagg := gdNagg d,
    nred := gdNred d, ch := bitsOf d 88 4, ifmt := gdIfmt d, maxPieceLog2 := gdMp d, maxPieces := gdPieces d, maxEbLog2 := gdEb d,
    canon := gdCanon d, endpAddr := BitVec.ofNat 48 (gdEndp d), redAddr := BitVec.ofNat 48 (gdRed d), gctx := gdGctx d,
    resGran := gdResGran d, inputKib := gdInput d, eaKib := gdEa d, ep := ep, slot := freeHeader s (gdCl d),
    seq := 0xFFFF_FFFF, nextSeq := 0, cbase := 0, ccount := 1, pieceLog2 := 6, pieces := 1, doneChunks := [0],
    used := 3 }

/-- A device tells the acting master of an instance, or notes it itself (R486). -/
def noteGroup (gid : Nat) (on : Bool) (s : State) : State :=
  if actingMaster s then gtNote gid s.harness.addr.toNat on s else sendSig (.groupNote gid on) s

/-- Reserve everything at once. -/
def applyGroup (d ep : Nat) (peers : List (Nat × Nat × Option Peer)) (s : State) : State :=
  let cl := gdCl d
  let gq := gdGq d
  let key := cl * 4096 + gq
  let own : Owner := { Owner.reset (0x400 + gq) with res := groupRes d, limitKib := gdInput d + gdEa d, ovfEn := false, locked := true }
  let s := setOwner cl (0x400 + gq) own s
  let mark := fun (x : Ctx) => { ctxOpened s x with group := true, gkey := key }
  let s := setCtx (gdGctx d) { mark (ctxOf (templateFor s d 0 0) Peer.none) with isGctx := true } s
  let s := peers.foldl (fun s x =>
    let c := mark (ctxOf x.2.1 (x.2.2.getD Peer.none))
    let rctx := c.remoteCtx.toNat
    -- an ACK names the sender's own context (R450, R456)
    let ack := if gdGctx d + ep < x.1 then rctx + 1 + ep else rctx + ep
    setCtx x.1 { c with ackCtx := BitVec.ofNat 18 ack } s) s
  let s := setGroup cl gq (newGroup s d ep) s
  noteGroup (gdGid d) true (writeHeader cl gq (noteStore cl s))

def groupCreate (c : Cmd) (s : State) : Reply × State :=
  let a := c.par 0 8
  match structRefusal s c.pl a 64 64 0 with
  | some r => (r, s)
  | none =>
    let (bs, s) := readMem a 64 1 s
    let d := leNat (bytesOf bs)
    match offence (gdOffences s d) with
    | some off => (badStruct off, s)
    | none =>
      match offence (tableOffences s d) with
      | some off => (badStruct off, s)
      | none =>
        let ep := (localEntry (endpointTable s d)).getD 0
        let (peers, s) := groupPeers d ep s
        -- GCTX takes the template too, with no peer
        let own := (ctxOffences s (templateFor s d 0 0) none).filter (fun x => decide (x.1 ≠ 0))
        match offence (own ++ peers.flatMap (fun x => ctxOffences s x.2.1 x.2.2)), groupShortage s d with
        | some off, _ => (badTemplate off, s)
        | none, some r => (r, s)
        | none, none => (Reply.ok, applyGroup d ep peers s)

/-- GROUP_CREATE (R327-R333, R475) -/
def execGroupCreate (src : CmdSource) (s : State) : Host.Outcome State Fault Refusal := command 0x15 groupCreate src s

/-! ### GROUP_DESTROY and ABORT_GROUP (R334, R350) -/

/-- Cluster and group queue of an instance. -/
def groupById (s : State) (gid : Nat) : Option (Nat × Nat) :=
  (s.groups.find? (fun e => e.2.held && decide (e.2.gid.toNat = gid))).map (fun e => (e.1 / 4096, e.1 % 4096))

/-- The group queue is left STOPPED with HEAD and TAIL at 0, its halt cleared (R101). -/
def stopGroupQueue (cl gq : Nat) (s : State) : State :=
  let qid := gqid gq
  let s := stepQueue cl qid (fun q => { q with
    run := false, halted := false, cfgErr := false, dlMember := false, head := 0, tail := 0, cur := none, ovfReq := none,
    stopReq := none, sends := [], sendsLost := false }) (settleHalted cl qid s)
  trimGens (clearHalt cl qid s)

/-- Blocks of tiles that the instance still held are lost to their fences (R97, R458). -/
def loseBlocks (key : Nat) (s : State) : State :=
  { s with queues := s.queues.map (fun e =>
      if e.2.sends.any (fun x => decide (x.1 = 2 ^ 18 + key)) then
        (e.1, { e.2 with sends := e.2.sends.filter (fun x => decide (x.1 ≠ 2 ^ 18 + key)), sendsLost := true })
      else e) }

/-- The group status registers of a queue that no group holds. -/
def clearGroupRegs (cl gq : Nat) (s : State) : State :=
  let b := gsRegs cl gq
  let s := resetRegs b 0x100 s
  { s with ctr64 := s.ctr64.filter (fun e => !(decide (b ≤ e.1) && decide (e.1 < b + 0x100))) }

def destroyGroup (cl gq : Nat) (s : State) : State :=
  let g := getGroup s cl gq
  let key := cl * 4096 + gq
  let s := stopGroupQueue cl gq (killGroup cl gq s)
  let s := (List.range (g.nmemb + g.nagg)).foldl (fun s i => closeCtx (g.gctx + i) s) s
  let s := (heldBufs s cl).foldl (fun s b => if b.2.owner = 0x400 + gq then freeBuf (0x400 + gq) b.1 s else s) s
  let s := clearGroupRegs cl gq (loseBlocks key s)
  let s := { s with groups := mdel s.groups key, owners := mdel s.owners (ownKey cl (0x400 + gq)) }
  let s := (List.range 9).foldl (fun s t => dropGroupBlocks cl gq t s) s
  noteGroup g.gid.toNat false (closeWindow (unitOfQueue cl (gqid gq)) s)

def groupDestroy (c : Cmd) (s : State) : Reply × State :=
  match groupById s (c.par 0 4) with
  | none => (badPacket 32, s)
  | some k => (Reply.ok, destroyGroup k.1 k.2 s)

/-- GROUP_DESTROY (R334, R630) -/
def execGroupDestroy (src : CmdSource) (s : State) : Host.Outcome State Fault Refusal := command 0x16 groupDestroy src s

def abortGroup (c : Cmd) (s : State) : Reply × State :=
  match groupById s (c.par 0 4) with
  | none => (badPacket 32, s)
  | some k => (Reply.ok, groupAbort k.1 k.2 s)

/-- ABORT_GROUP (R350, R630) -/
def execAbortGroup (src : CmdSource) (s : State) : Host.Outcome State Fault Refusal := command 0x17 abortGroup src s

end Sys2Proof.Machine
end

