-- ==== Sys2Proof/Machine/Admin.lean ====
section
/-! DEFINITION. Management commands about the device itself: status, memory, cupping runs, configuration, protection,
firmware, keys, debug, fuses, the farrier map; the presence wait and the seal (15_evtos_and_commands.md, R517, R518;
16_errors_and_containment.md, R547; 17_cupping_and_health.md, R553, R566; 18_boot_identity_protection.md). -/

namespace Sys2Proof.Machine

/-- Refuse the packet at its first offence, or go on. -/
def unlessOffence (l : List (Nat × Bool)) (s : State) (go : Unit → Reply × State) : Reply × State :=
  match offence l with
  | some off => (badPacket off, s)
  | none => go ()

/-! ### GET_STATUS, READ_ERRORS, ATTEST (R517, R547, R580) -/

/-- Temperature of a die: of its warmer region. -/
def dieTemp (s : State) (d : Nat) : Int :=
  let a := rgTemp s (2 * d)
  let b := rgTemp s (2 * d + 1)
  if a < b then b else a

def statusFlags (s : State) : Nat :=
  boolNat (presence s) + 2 * boolNat s.sig.sealClosed + 4 * boolNat (decide (s.boot.debugLevel ≠ 0)) + 8 * boolNat (decide (s.evtWidth ≠ 0))

/-- The 64 bytes of a GET_STATUS reply. -/
def statusBytes (s : State) : List Byte :=
  let present := fun (cl : Nat) => ((List.range 8).map (fun p => if absent s cl p then 0 else 2 ^ p)).sum
  leBytes 1 (boolNat (decide (s.part.grade = .b))) ++ leBytes 1 (if s.part.grade = .b then 6 else 8) ++ leBytes 1 s.harness.role ++
    leBytes 1 s.harness.addr.toNat ++ leBytes 4 s.boot.version.toNat ++ leBytes 8 (uptimeSeen s) ++
    (List.range 8).flatMap (fun cl => leBytes 1 (present cl)) ++ leBytes 4 s.jobs.length ++ leBytes 4 s.err.next.toNat ++
    (List.range 4).flatMap (fun d => leBytes 2 (BitVec.ofInt 16 (dieTemp s d)).toNat) ++
    (List.range 4).flatMap (fun d => leBytes 2 (rgMeas s (2 * d))) ++ leBytes 6 s.part.baseMac.toNat ++ leBytes 1 (statusFlags s) ++
    List.replicate 9 (0 : Byte)

def getStatus (_ : Cmd) (s : State) : Reply × State := ({ status := 0, payload := statusBytes s }, takeFresh s)

/-- Index of the first record returned, and how many (R547). -/
def errorSpan (s : State) (first : W32) (most : Nat) : W32 × Nat :=
  let behind := (s.err.next - first).toInt
  if behind ≤ 0 then (first, 0)
  else
    let start := if 4096 < behind then s.err.next - 4096 else first
    (start, Nat.min most (s.err.next - start).toNat)

def readErrors (c : Cmd) (s : State) : Reply × State :=
  let most := c.par 4 2
  unlessOffence [(36, decide (most = 0) || decide (15 < most))] s (fun _ =>
    let (start, n) := errorSpan s (BitVec.ofNat 32 (c.par 0 4)) most
    let recs := (List.range n).flatMap (fun i => leBytes 64 (mget 0 s.err.ring ((start.toNat + i) % 4096)).toNat)
    ({ status := 0, payload := leBytes 4 start.toNat ++ leBytes 4 s.err.next.toNat ++ leBytes 4 s.err.overflow.toNat ++ leBytes 4 n ++ recs }, s))

/-- ATTEST (R580): AK stays the key derived at boot. -/
def attest (c : Cmd) (s : State) : Reply × State :=
  let body := (c.packet.drop 32).take 64 ++ s.boot.meas ++ leBytes 8 (uptimeSeen s)
  ({ status := 0, payload := body ++ ecdsaSign (attestKey s s.boot.measBoot) body ++ List.replicate 4 (0 : Byte) }, takeFresh s)

/-! ### MEM_READ, MEM_WRITE (R517) -/

/-- The device as an Evtos initiator finds it, whether or not its link is up: Tack makes the access. -/
def linkAside (s : State) : State := { s with evtWidth := 16 }

/-- What stops an access of `len` bytes by a command's PL, if anything does (R495, R51, R194). -/
def accessRefusal (s : State) (pl : Fin 4) (a len : Nat) (data : List Byte) (write : Bool) : Option Reply :=
  let init : Initiator := .companion pl
  if 2 ^ 48 ≤ a then some (badPacket 32)
  else if touchesMmio a len then
    if (blockOf a).isNone then some (badPacket 32)
    else if !mmioShape a len then some (badPacket 40)
    else if mmioAllowed (linkAside s) init a len data write then none else some (denied 5)
  else if !memMapped s a 1 then some (badPacket 32)
  else if 2 ^ 48 < a + len ∨ ¬ memMapped s a len then some (badPacket 40)
  else if closedRegion s a len then (if write ∨ pl.val ≠ 0 then some (denied 5) else none)
  else if allowed s init a len (if write then .write else .read) then none else some (denied 5)

def memLenBad (c : Cmd) : Bool := decide (c.par 8 2 = 0) || decide (992 < c.par 8 2)

def cmdMemRead (c : Cmd) (s : State) : Reply × State :=
  let a := c.par 0 8
  let len := c.par 8 2
  unlessOffence [(32, decide (2 ^ 48 ≤ a)), (40, memLenBad c)] s (fun _ =>
    match accessRefusal s c.pl a len [] false with
    | some r => (r, s)
    | none =>
      if touchesMmio a len then
        let (bs, s) := mmioRead a len s
        ({ status := 0, payload := bs }, s)
      else
        let (bs, s) := readMem a len 1 s
        let bits := ((granuleBits a bs).zipIdx.map (fun (x : Bool × Nat) => if x.1 then 2 ^ x.2 else 0)).sum
        ({ status := 0, detail := bits, payload := bytesOf bs }, s))

def cmdMemWrite (c : Cmd) (s : State) : Reply × State :=
  let a := c.par 0 8
  let len := c.par 8 2
  let data := (c.packet.drop 48).take len
  unlessOffence [(32, decide (2 ^ 48 ≤ a)), (40, memLenBad c), c.gap 10 6] s (fun _ =>
    match accessRefusal s c.pl a len data true with
    | some r => (r, s)
    | none => (Reply.ok, if touchesMmio a len then mmioWrite (.companion c.pl) a data s else writeMem a (clean data) s))

/-! ### RUN_CUPPING (R553) -/

def cmdRunCupping (c : Cmd) (s : State) : Reply × State :=
  let bias : Int := sext 16 (c.par 16 2)
  unlessOffence [(32, decide (c.par 0 1 = 0)), (33, decide (c.par 1 1 = 0) || decide (15 < c.par 1 1)), c.gap 2 2,
      (36, decide (c.par 4 4 = 0) || decide (65536 < c.par 4 4)), (48, decide (bias < -25) || decide (25 < bias))] s (fun _ =>
    let (s, r) := runCupping (c.par 0 1) (c.par 1 1) (c.par 4 4) (BitVec.ofNat 64 (c.par 8 8)) bias s
    ({ status := 0, detail := r.toNat }, s))

/-! ### The harness configuration: PORT_CONFIG, HARNESS_SET (R392, R476, R484, R517) -/

/-- Tack may store the configuration in board flash (R487, R570). -/
def maybeStore (s : State) : State :=
  takeFresh { s with flash := { s.flash with store := if Config.tackStores s.fresh then some (configNow s) else s.flash.store } }

/-- A later item takes the place of an earlier one about the same thing; a lane group's mode ends what was said of its ports. -/
def supersedes (new old : ConfigItem) : Bool :=
  match new, old with
  | .laneGroup g _, .laneGroup h _ => decide (g = h)
  | .laneGroup g _, .role l _ => decide (l.val / 8 = g.val)
  | .laneGroup g _, .adminUp l _ => decide (l.val / 8 = g.val)
  | .role l _, .role k _ => decide (l = k)
  | .adminUp l _, .adminUp k _ => decide (l = k)
  | .route h _ _, .route k _ _ => decide (h = k)
  | .relay _, .relay _ => true
  | _, _ => false

def mergeItems (old new : List ConfigItem) : List ConfigItem := old.filter (fun o => !new.any (fun n => supersedes n o)) ++ new

/-- The master notes a device's part of the configuration and mirrors it to the standby. -/
def notePart (dest : Nat) (items : List ConfigItem) (s : State) : State :=
  let s := modHs (fun h => { h with parts := mset h.parts dest (mergeItems (mget [] h.parts dest) items) }) s
  sendSig (.config 8 s.harness.epoch (itemsOf dest (mget [] s.harness.parts dest))) s

/-- The master notes a part and sends it to its device. -/
def sendPart (dest : Nat) (items : List ConfigItem) (s : State) : State :=
  sendWhole dest (notePart dest items s)

/-- Parameters of PORT_CONFIG. -/
def pcGroup (c : Cmd) : Nat := c.par 0 2
def pcMode (c : Cmd) : Nat := c.par 2 1
def pcPorts (c : Cmd) : Nat := 8 / 2 ^ pcMode c
def pcEntry (c : Cmd) (k : Nat) : Nat := c.par (4 + 4 * k) 4

def pcOffence (c : Cmd) : Option Nat :=
  offence ([(32, decide (127 < pcGroup c)), (34, decide (3 < pcMode c)), c.gap 3 1] ++
    (List.range (pcPorts c)).flatMap (fun k =>
      let e := pcEntry c k
      [(36 + 4 * k, decide (1 < bitsOf e 1 2) || decide (bitsOf e 4 15 < 64) || decide (16384 < bitsOf e 4 15)),
       (38 + 4 * k, decide (bitsOf e 19 13 ≠ 0))]))

def finOf (n v : Nat) (h : 0 < n) : Fin n := ⟨v % n, Nat.mod_lt v h⟩

def pcItems (c : Cmd) : List ConfigItem :=
  let g := pcGroup c
  let lane := fun (k : Nat) => finOf 1024 (8 * g + k * 2 ^ pcMode c) (by decide)
  [.laneGroup (finOf 128 g (by decide)) (BitVec.ofNat 2 (pcMode c))] ++
    (List.range (pcPorts c)).map (fun k => .role (lane k) (decide (bitsOf (pcEntry c k) 1 2 = 1))) ++
    (List.range (pcPorts c)).map (fun k => .adminUp (lane k) (decide (bitsOf (pcEntry c k) 0 1 = 1)))

/-- Value of PORT_CFG that a port entry asks for. -/
def pcValue (e : Nat) : W32 := BitVec.ofNat 32 (bitsOf e 0 4 + bitsOf e 4 15 * 65536)

/-- A change of mode takes the group's ports down first, as R392 requires. -/
def applyPortConfig (c : Cmd) (s : State) : State :=
  let g := pcGroup c
  let m := pcMode c
  let s := if lgMode s g = m then s
    else laneGroupMode g m ((List.range 8).foldl (fun s i =>
      portCfgWrite (8 * g + i) (BitVec.ofNat 32 ((portCfg s (8 * g + i)).toNat / 2 * 2)) s) s)
  (List.range (pcPorts c)).foldl (fun s k => portCfgWrite (8 * g + k * 2 ^ m) (pcValue (pcEntry c k)) s) s

def cmdPortConfig (c : Cmd) (s : State) : Reply × State :=
  match pcOffence c with
  | some off => (badPacket off, s)
  | none =>
    let s := applyPortConfig c s
    (Reply.ok, maybeStore (if actingMaster s then notePart s.harness.addr.toNat (pcItems c) s else s))

def carryPortConfig (c : Cmd) (dest : Nat) (s : State) : State :=
  if (lengthOffence c.packet).isSome || (padOffence c.packet).isSome || (pcOffence c).isSome then s else sendPart dest (pcItems c) s

/-- Parameters of HARNESS_SET. -/
def hsLane (c : Cmd) (k : Nat) : Nat := c.par (4 + 2 * k) 2
def hsRelay (c : Cmd) : Bool := decide (c.par 2 1 % 2 = 1)

def hsOffence (c : Cmd) (hidZero : Bool) : Option Nat :=
  offence ([(32, decide (8 < c.par 0 1)), (33, decide (8 < c.par 1 1)), (34, decide (1 < c.par 2 1) || (hidZero && hsRelay c)),
      c.gap 3 1] ++ (List.range 8).map (fun k => (36 + 2 * k, decide (1023 < hsLane c k))))

def hsItems (c : Cmd) : List ConfigItem :=
  [.route (finOf 9 (c.par 0 1) (by decide)) (BitVec.ofNat 4 (c.par 1 1)) ((List.range 8).map (fun k => BitVec.ofNat 10 (hsLane c k))),
   .relay (hsRelay c)]

def cmdHarnessSet (c : Cmd) (s : State) : Reply × State :=
  match hsOffence c (decide (s.part.harnessId = 0)) with
  | some off => (badPacket off, s)
  | none =>
    let s := setRelay (hsRelay c) (setRoute (c.par 0 1) (c.par 1 1) ((List.range 8).map (hsLane c)) s)
    (Reply.ok, maybeStore (if actingMaster s then notePart s.harness.addr.toNat (hsItems c) s else s))

def carryHarnessSet (c : Cmd) (dest : Nat) (s : State) : State :=
  if (lengthOffence c.packet).isSome || (padOffence c.packet).isSome || (hsOffence c (decide (dest = 0 ∨ dest = 8))).isSome then s else sendPart dest (hsItems c) s

/-! ### MGMT_CONFIG (R505, R517) -/

def cmdMgmtConfig (c : Cmd) (s : State) : Reply × State :=
  unlessOffence [(32, decide (1 < c.par 0 1)), (33, decide (15 < c.par 1 1)), (36, decide (4096 ≤ c.par 4 2)), c.gap 6 2,
      (44, decide (32 < c.par 12 1)), c.gap 13 3, (64, decide (128 < c.par 32 1))] s (fun _ =>
    let fl := c.par 1 1
    let p : MgmtPort := { fec := decide (bitsOf fl 0 1 = 1), openAccess := decide (bitsOf fl 1 1 = 1), v4En := decide (bitsOf fl 2 1 = 1),
                          v6En := decide (bitsOf fl 3 1 = 1), udp := BitVec.ofNat 16 (c.par 2 2), vid := BitVec.ofNat 12 (c.par 4 2),
                          ip4 := BitVec.ofNat 32 (c.par 8 4), ip4Len := BitVec.ofNat 8 (c.par 12 1), ip6 := BitVec.ofNat 128 (c.par 16 16),
                          ip6Len := BitVec.ofNat 8 (c.par 32 1) }
    (Reply.ok, maybeStore { s with mgmt := setAt s.mgmt (c.par 0 1) p }))

/-! ### SET_PROTECTION (R584, R587) -/

/-- First offending field of an entry. -/
def protOffence (e : Nat) : List (Nat × Bool) :=
  let kind := bitsOf e 0 2
  let m := bitsOf e 32 64
  [(0, decide (kind = 3) || decide (bitsOf e 3 29 ≠ 0)),
   (4, decide (kind = 0) && (decide (m % 2 = 1) || decide (16 ≤ m))),
   (8, decide (kind = 1) && decide (bitsOf m 35 13 ≠ 0)),
   (8, decide (kind = 2) && decide (m / 2 ^ 32 < m % 2 ^ 32)),
   (18, decide (bitsOf e 144 48 < bitsOf e 96 48)), (24, decide (bitsOf e 197 59 ≠ 0))]

def protEntry (e : Nat) : ProtEntry :=
  { kind := BitVec.ofNat 2 (bitsOf e 0 2), valid := decide (bitsOf e 2 1 = 1), mtch := BitVec.ofNat 64 (bitsOf e 32 64),
    base := BitVec.ofNat 48 (bitsOf e 96 48), limit := BitVec.ofNat 48 (bitsOf e 144 48), read := decide (bitsOf e 192 1 = 1),
    write := decide (bitsOf e 193 1 = 1), doorbell := decide (bitsOf e 194 1 = 1), signal := decide (bitsOf e 195 1 = 1),
    deny := decide (bitsOf e 196 1 = 1) }

/-- Entries of 32 bytes of a list. -/
def entries32 (n : Nat) (bs : List Byte) : List Nat := (List.range n).map (fun i => leAt bs (32 * i) 32)

/-- Offences of every entry of a list, each at its place. -/
def listOffences (f : Nat → List (Nat × Bool)) (es : List Nat) : List (Nat × Bool) :=
  (es.zipIdx).flatMap (fun (x : Nat × Nat) => (f x.1).map (fun (o : Nat × Bool) => (32 * x.2 + o.1, o.2)))

/-- The table as the next generation; BUSY when that would be a fifth. -/
def loadTable (t : List ProtEntry) (s : State) : Reply × State :=
  let s := trimGens s
  if 4 ≤ s.prot.length then ({ status := 6 }, s)
  else (Reply.ok, trimGens { s with prot := s.prot ++ [{ gen := newestGen s + 1, table := t }] })

def cmdSetProtection (c : Cmd) (s : State) : Reply × State :=
  let a := c.par 0 8
  let n := c.par 8 4
  let bad := decide (n = 0) || decide (1024 < n)
  unlessOffence [(32, decide (2 ^ 48 ≤ a) || decide (a % 32 ≠ 0) || !memMapped s a (if bad then 32 else 32 * n)), (40, bad)] s (fun _ =>
    match structRefusal s c.pl a (32 * n) 32 0 with
    | some r => (r, s)
    | none =>
      let (bs, s) := readMem a (32 * n) 1 s
      let es := entries32 n (bytesOf bs)
      match offence (listOffences protOffence es) with
      | some off => (badStruct off, s)
      | none => loadTable (es.map protEntry) s)

/-! ### FW_UPDATE (R588) -/

/-- Status of an image; `none`: accepted. -/
def fwRefusal (s : State) (img : List Byte) : Option Reply :=
  if !imageFormat img || !rootOk s img || !signatureOk img then some { status := 8 }
  else if leAt img 12 4 < svnFuse s then some (badStruct 12)
  else if leAt img 16 4 ≤ s.boot.version.toNat then some (badStruct 16)
  else none

/-- The image goes to the slot that does not hold the running one, and NEXT of FW_LOAD becomes 1. -/
def writeImage (img : List Byte) (s : State) : State :=
  let img := img.take (512 + payloadLen img)
  let s := if s.boot.source = 0 then { s with flash := { s.flash with slotB := img } } else { s with flash := { s.flash with slotA := img } }
  if s.boot.noRecord then s
  else
    let r := readRecord s
    writeSummary (setAt r.next 7 1) r.fails r.attempt s

def cmdFwUpdate (c : Cmd) (s : State) : Reply × State :=
  let a := c.par 0 8
  let len := c.par 8 4
  match structRefusal s c.pl a len 1 0 with
  | some r => (r, s)
  | none =>
    let (bs, s) := readMem a (Nat.min len 16777216) 1 s
    let img := bytesOf bs
    match fwRefusal s img with
    | some r => (r, s)
    | none => (Reply.ok, writeImage img s)

/-! ### The presence commands (R566, R579, R581, R582) -/

/-- ENROL_KEY (R581): the reply follows both copies. -/
def cmdEnrolKey (c : Cmd) (s : State) : Reply × State :=
  let slot := c.par 0 1
  let kind := c.par 1 1
  let pl := c.par 2 1
  let len := c.par 4 2
  let lenBad := if kind = 0 then decide (len ≠ 8) else decide (len < 32) || decide (128 < len)
  unlessOffence [(32, decide (7 < slot)), (33, decide (1 < kind)), (34, decide (kind ≠ 0) && decide (3 < pl)), c.gap 3 1,
      (36, lenBad), c.gap 6 2] s (fun _ =>
    let x : Option KeySlot := if kind = 0 then none
      else some { key := (c.packet.drop 40).take len, pl := BitVec.ofNat 2 pl, aseq := 0, lastPacket := [], lastReply := [] }
    (Reply.ok, storeKeys (storeKeys (setKeySlot slot x s))))

/-- DEBUG_UNLOCK (R582, R580) -/
def cmdDebugUnlock (c : Cmd) (s : State) : Reply × State :=
  let l := c.par 0 1
  unlessOffence [(32, decide (2 < l) || (decide (l ≠ 0) && bitOf (fuseWord s 99) 0))] s (fun _ =>
    (Reply.ok, modBoot (fun b => { b with
      debugLevel := l
      meas := if l = 0 then b.meas else sha512 (b.meas ++ [BitVec.ofNat 8 l]) }) s))

/-- A word that FUSE_WRITE accepts. -/
def fuseAccepts (s : State) (w : Nat) : Bool :=
  (decide (48 ≤ w) && decide (w < 96) && !bitOf (fuseWord s 96) (w / 16 - 2)) || (decide (96 ≤ w) && decide (w ≤ 99))

/-- Bits that may not be blown in the word. -/
def fuseBitsBad (s : State) (w : Nat) (bits : W32) : Bool :=
  let old := fuseWord s w
  let new := old ||| bits
  let slots := List.range 4
  if w = 96 then
    !slots.any (fun k => bitOf new k && !bitOf new (4 + k)) ||
      slots.any (fun k => bitOf new k && !bitOf old k && (fuseBytes s (32 + 16 * k) 16).all (fun x => decide (x = 0)))
  else if w = 97 ∨ w = 98 then
    let n := svnFuse s + countOnes 32 new.toNat - countOnes 32 old.toNat
    decide (svnFuse s < n) && decide (s.boot.svn < n)
  else false

/-- FUSE_WRITE (R579): bits that fail to blow read 0, and DETAIL names them. -/
def cmdFuseWrite (c : Cmd) (s : State) : Reply × State :=
  let w := c.par 0 2
  let bits := BitVec.ofNat 32 (c.par 4 4)
  unlessOffence [(32, !fuseAccepts s w), c.gap 2 2, (36, fuseBitsBad s w bits)] s (fun _ =>
    let old := fuseWord s w
    let fails := Config.fuseFails s.fresh &&& bits &&& ~~~old
    ({ status := 0, detail := fails.toNat }, takeFresh { s with fuses := mput 0 s.fuses w (old ||| (bits &&& ~~~fails)) }))

/-- Units of each TYPE of R540, in one place. -/
def unitCount (ty : Nat) : Nat :=
  match ty with
  | 0x01 => 9
  | 0x02 => 8
  | 0x03 => 8
  | 0x04 => 1
  | 0x05 => 1
  | 0x06 => 16
  | 0x07 => 4096
  | 0x08 => 1
  | 0x09 => 32
  | 0x0A => 1
  | 0x0B => 1024
  | 0x0C => 9
  | 0x0D => 1
  | 0x0E => 1
  | 0x0F => 8
  | 0x10 => 1
  | 0x11 => 32
  | 0x12 => 192
  | 0x13 => 1024
  | 0x14 => 262144
  | 0x15 => 1
  | 0x16 => 1
  | 0x17 => 1
  | 0x18 => 8
  | 0x19 => 8
  | 0x1A => 1
  | _ => 0

/-- The location of an entry lies in the device and its grade (R564, R566). -/
def locationOk (s : State) (level die loc : Nat) : Bool :=
  let tile := loc % 16
  let tileOk := decide (tile < 9) && !fusedOff s tile
  match level with
  | 0 => tileOk && decide (loc < 4096)
  | 1 => tileOk && decide (loc < 256)
  | 2 => tileOk && decide (loc < 16)
  | 3 => decide (loc % 64 < 48) && decide (loc / 64 % 4 ≠ die) && decide (loc / 256 < 7)
  | 4 => true
  | _ => decide (loc < 2 ^ 26) && decide (loc / 256 < unitCount (loc % 256)) &&
      !((decide (loc % 256 = 1) || decide (loc % 256 = 0x0C)) && fusedOff s (loc / 256))

/-- LEVEL and ACTION that R565 pairs. -/
def pairOk (level action : Nat) : Bool :=
  match action with
  | 0 => decide (level = 0) || decide (level = 1) || decide (level = 3) || decide (level = 4)
  | 1 => decide (level = 2) || decide (level = 5)
  | 2 => decide (level = 2)
  | 3 => decide (level = 2) || decide (level = 5)
  | 4 => decide (level ≤ 5)
  | _ => false

/-- Offences of an entry of a farrier update (R566). -/
def farrierOffence (s : State) (e : Nat) : List (Nat × Bool) :=
  let action := bitsOf e 4 4
  let kind := bitsOf e 56 8
  [(0, !pairOk (bitsOf e 0 4) action), (1, decide (bitsOf e 13 3 ≠ 0)), (2, !locationOk s (bitsOf e 0 4) (bitsOf e 11 2) (bitsOf e 16 32)),
   (6, decide (bitsOf e 48 8 ≠ 3)), (7, decide (2 < kind) || ((decide (action = 2) || decide (action = 3)) && decide (kind = 0))),
   (10, decide ((sext 16 (bitsOf e 80 16) : Int) < sext 16 (bitsOf e 64 16))), (24, decide (bitsOf e 192 64 ≠ 0))]

/-- The entry as Tack appends it: UPTIME is its own. -/
def stampEntry (s : State) (e : Nat) : BitVec 256 := BitVec.ofNat 256 (e - bitsOf e 96 64 * 2 ^ 96 + s.uptime.toNat * 2 ^ 96)

/-- What an accepted list does in service: retirements of tiles, bands (R562, R565). -/
def applyUpdate (es : List (BitVec 256)) (s : State) : State :=
  let s := (es.filter (fun e => decide (feAction e = 1) && decide (feLevel e = 2))).foldl (fun s e => retireTile (feCl e) (feLoc e % 16) s) s
  if es.any isBand then applyBands s else s

/-- FARRIER_UPDATE (R566) -/
def cmdFarrierUpdate (c : Cmd) (s : State) : Reply × State :=
  let a := c.par 0 8
  let len := c.par 8 4
  let bad := decide (len % 32 ≠ 0) || decide (len < 32) || decide (1024 < len)
  unlessOffence [(32, decide (2 ^ 48 ≤ a) || !memMapped s a (if bad then 1 else len)), (40, bad)] s (fun _ =>
    match structRefusal s c.pl a len 1 0 with
    | some r => (r, s)
    | none =>
      let (bs, s) := readMem a len 1 s
      let es := entries32 (len / 32) (bytesOf bs)
      let stamped := es.map (stampEntry s)
      if 4096 < (purge (s.health.entries ++ stamped)).length then (badPacket 40, s)
      else
        match offence (listOffences (farrierOffence s) es) with
        | some off => (badStruct off, s)
        | none => (Reply.ok, applyUpdate stamped (appendEntries stamped s).1))

/-! ### The presence wait and the seal (R518, R583, R614) -/

/-- What a presence command does, by its opcode. -/
def presenceRun (op : Nat) : CmdRun :=
  match op with
  | 0x30 => cmdEnrolKey
  | 0x31 => cmdDebugUnlock
  | 0x32 => cmdFuseWrite
  | _ => cmdFarrierUpdate

/-- The waiting command is answered, to all its sources. -/
def endWait (w : PresWait) (r : Reply) (ports : List MgmtPort) (key : Option (List Byte)) (s : State) : State :=
  answerCmd ports key w.src w.also w.packet r { s with presWait := none }

/-- The waiting command gets a status without executing. -/
def failWait (status : Nat) (s : State) : State :=
  match s.presWait with
  | none => s
  | some w => endWait w { status := status } s.mgmt (replyKey s w.src w.packet) s

/-- The wait ends: the seal is open, or presence is asserted and the command executes (R518, R525). -/
def presenceWaitEnd (s : State) : State :=
  match s.presWait with
  | none => s
  | some w =>
    if !tackServes s then s
    else if !s.sig.sealClosed then failWait 9 s
    else if presence s then
      let key := replyKey s w.src w.packet
      let ports := s.mgmt
      let (r, s) := runLocal (presenceRun (pkOp w.packet)) { src := w.src, pl := 0, packet := w.packet } { s with presWait := none }
      endWait w r ports key s
    else s

/-- The seal loop opens (R583). -/
def sealOpens (s : State) : State :=
  let s := modSig (fun g => { g with sealClosed := false }) s
  let s := modBoot (fun b => { b with debugLevel := 0 }) s
  failWait 9 (bumpSat (bootRegs + 0x2C) 1 s)

/-- A comparison of SEAL_B with SEAL_A (R614). -/
def sealCompare (s : State) : State :=
  match s.sig.sealN with
  | none => s
  | some _ =>
    if s.sig.accepted.getD 2 true = s.sig.sealBit then
      modSig (fun g => { g with sealMatches := Nat.min 2 (g.sealMatches + 1), sealClosed := g.sealClosed || decide (1 ≤ g.sealMatches) }) s
    else
      let s' := modSig (fun g => { g with sealMatches := 0 }) s
      if s.sig.sealClosed then sealOpens s' else s'

/-! ### Meanings -/

/-- GET_STATUS (R517) -/
def execGetStatus (src : CmdSource) (s : State) : Host.Outcome State Fault Refusal := command 0x01 getStatus src s

/-- READ_ERRORS (R547) -/
def execReadErrors (src : CmdSource) (s : State) : Host.Outcome State Fault Refusal := command 0x02 readErrors src s

/-- ATTEST (R580) -/
def execAttest (src : CmdSource) (s : State) : Host.Outcome State Fault Refusal := command 0x03 attest src s

/-- MEM_READ (R517) -/
def execMemRead (src : CmdSource) (s : State) : Host.Outcome State Fault Refusal := command 0x04 cmdMemRead src s

/-- MEM_WRITE (R517) -/
def execMemWrite (src : CmdSource) (s : State) : Host.Outcome State Fault Refusal := command 0x05 cmdMemWrite src s

/-- RUN_CUPPING (R553) -/
def execRunCupping (src : CmdSource) (s : State) : Host.Outcome State Fault Refusal := command 0x18 cmdRunCupping src s

/-- PORT_CONFIG (R392, R476) -/
def execPortConfig (src : CmdSource) (s : State) : Host.Outcome State Fault Refusal :=
  configCommand 0x20 cmdPortConfig carryPortConfig src s

/-- HARNESS_SET (R476) -/
def execHarnessSet (src : CmdSource) (s : State) : Host.Outcome State Fault Refusal :=
  configCommand 0x21 cmdHarnessSet carryHarnessSet src s

/-- MGMT_CONFIG (R505) -/
def execMgmtConfig (src : CmdSource) (s : State) : Host.Outcome State Fault Refusal := command 0x22 cmdMgmtConfig src s

/-- SET_PROTECTION (R584) -/
def execSetProtection (src : CmdSource) (s : State) : Host.Outcome State Fault Refusal := command 0x23 cmdSetProtection src s

/-- FW_UPDATE (R588) -/
def execFwUpdate (src : CmdSource) (s : State) : Host.Outcome State Fault Refusal := command 0x24 cmdFwUpdate src s

/-- ENROL_KEY (R581) -/
def execEnrolKey (src : CmdSource) (s : State) : Host.Outcome State Fault Refusal := command 0x30 cmdEnrolKey src s

/-- DEBUG_UNLOCK (R582) -/
def execDebugUnlock (src : CmdSource) (s : State) : Host.Outcome State Fault Refusal := command 0x31 cmdDebugUnlock src s

/-- FUSE_WRITE (R579) -/
def execFuseWrite (src : CmdSource) (s : State) : Host.Outcome State Fault Refusal := command 0x32 cmdFuseWrite src s

/-- FARRIER_UPDATE (R566) -/
def execFarrierUpdate (src : CmdSource) (s : State) : Host.Outcome State Fault Refusal := command 0x33 cmdFarrierUpdate src s

/-- PRESENCE_WAIT_END (R518) -/
def execPresenceWaitEnd (s : State) : Host.Outcome State Fault Refusal := .next (presenceWaitEnd s)

/-- TIMEOUT_PRESENCE (R518) -/
def execTimeoutPresence (s : State) : Host.Outcome State Fault Refusal := .next (if tackServes s then failWait 11 s else s)

/-- SEAL_COMPARE (R614) -/
def execSealCompare (s : State) : Host.Outcome State Fault Refusal := running s (sealCompare s)

end Sys2Proof.Machine
end

