-- ==== Sys2Proof/Machine/Audit.lean ====
section
/-! DEFINITION. The audit pass of a buffer pool manager (R423). -/

namespace Sys2Proof.Machine

/-- Every reference to a buffer that the machine holds. -/
def bufferRefs (s : State) : List Nat :=
  s.egq.flatMap (fun e => e.2.frames.map (fun f => f.buf)) ++
  s.ports.flatMap (fun e => (e.2.tx.filterMap (fun t => t.frame)).map (fun f => f.buf)) ++
  s.ingress.flatMap (fun e => e.2.flatMap (fun i => decisionBufs i.decided)) ++
  s.ctxs.flatMap (fun e => e.2.chans.flatMap (fun k => k.2.copies.map (fun p => p.buf) ++
      (match k.2.tail with
       | some t => [t.1]
       | none => [])) ++ e.2.rx.map (fun r => r.1)) ++
  s.groups.flatMap (fun e => e.2.inputs.map (fun b => b.buf) ++ e.2.early.map (fun m => m.buf) ++
      (match e.2.step with
       | some st => (match st.taken with
         | some b => [b.buf]
         | none => [])
       | none => []))

/-- One record of the walk: noted, reclaimed, or left. -/
def auditHeld (cl : Nat) (refs : List Nat) (k : Nat) (r : BufRec) (s : State) : State :=
  if refs.contains k then setBuf k { r with noted := none } s
  else if r.noted = some r.gen then
    bpmReport cl 3 r.owner k 10 (freeBuf r.owner k (bumpSat (bpmRegs cl + 0x78) 1 s))
  else setBuf k { r with noted := some r.gen } s

/-- One audit pass of a cluster's slice and its overflow half. -/
def auditPass (cl : Nat) (s : State) : State :=
  let s := (s.bad.filterMap (fun d =>
    match d with
    | .buffer k => if bufCl k = cl then some k else none
    | _ => none)).foldl (fun s k => withdraw k 10 s) s
  let refs := (bufferRefs s).filter (fun k => decide (bufCl k = cl))
  let stale := (refs.filter (fun k => !(getBuf s k).held)).eraseDups
  let s := (heldBufs s cl).foldl (fun s e => auditHeld cl refs e.1 e.2 s) s
  stale.foldl (fun s k => bpmReport cl 4 (getBuf s k).owner k 10 (bumpSat (bpmRegs cl + 0x7C) 1 (dropRefs k s))) s

/-- AUDIT_PASS (R423), while AUDIT_EN is 1 -/
def execAuditPass (cl : Fin 8) (s : State) : Host.Outcome State Fault Refusal :=
  .next (if regField s (bpmRegs cl.val + 0xC) 1 1 = 1 then auditPass cl.val s else s)

end Sys2Proof.Machine
end

