-- ==== Sys2Proof/Machine/Pue.lean ====
section
/-! DEFINITION. Parameter update engines (10_parameter_update.md): descriptors, headers, the optimisers, embedding
rows. -/

namespace Sys2Proof.Machine

/-! ### The update descriptor (R359, R360) -/

def pdOpt (d : Nat) : Nat := bitsOf d 0 3
def pdStrict (d : Nat) : Bool := decide (bitsOf d 3 1 = 1)
def pdGuard (d : Nat) : Bool := decide (bitsOf d 4 1 = 1)
def pdNesterov (d : Nat) : Bool := decide (bitsOf d 5 1 = 1)
def pdCopy (d : Nat) : Bool := decide (bitsOf d 6 1 = 1)
def pdPfmt (d : Nat) : Nat := bitsOf d 8 5
def pdGfmt (d : Nat) : Nat := bitsOf d 13 5
def pdSfmt (d : Nat) : Nat := bitsOf d 18 5
def pdCfmt (d : Nat) : Nat := bitsOf d 23 5
def pdPrnd (d : Nat) : Nat := bitsOf d 28 3
def pdSrnd (d : Nat) : Nat := bitsOf d 31 3
def pdRows (d : Nat) : Nat := bitsOf d 36 24
def pdCols (d : Nat) : Nat := bitsOf d 64 24
def pdGstep (d : Nat) : Nat := bitsOf d 96 32
def pdSched (d : Nat) : Nat := bitsOf d 128 48
def pdLr (d : Nat) : Nat := bitsOf d 192 32
def pdLrScale (d : Nat) : Nat := bitsOf d 224 32
def pdGscale (d : Nat) : Nat := bitsOf d 256 32
def pdBeta1 (d : Nat) : Nat := bitsOf d 288 32
def pdBeta2 (d : Nat) : Nat := bitsOf d 320 32
def pdEps (d : Nat) : Nat := bitsOf d 352 32
def pdWd (d : Nat) : Nat := bitsOf d 384 32
def pdTrust (d : Nat) : Nat := bitsOf d 416 32
def pdSeed (d : Nat) : Nat := bitsOf d 448 64
def pdNlist (d : Nat) : Nat := bitsOf d 512 24

/-- ADAFACTOR with factored second moments (R373). -/
def pdFactored (d : Nat) : Bool := decide (pdOpt d = 4) && decide (2 ≤ pdRows d) && decide (2 ≤ pdCols d)

/-- S1, S2 and S3 are used (R370-R373). -/
def pdUsesS1 (d : Nat) : Bool := !((decide (pdOpt d = 0) || decide (pdOpt d = 4)) && decide (pdBeta1 d = 0))
def pdUsesS2 (d : Nat) : Bool := decide (pdOpt d ≠ 0)
def pdUsesS3 (d : Nat) : Bool := pdFactored d

/-- FP32 encoding that is finite with sign bit 0. -/
def finitePos (x : Nat) : Bool := decide (x < 0x7F80_0000)

/-- Conditions of the descriptor (R360, R385). -/
def puDescConditions (rows : Bool) (d : Nat) : List Nat :=
  let fmts := [pdPfmt d, pdGfmt d, pdSfmt d, pdCfmt d]
  let small := fun f => decide (1 ≤ f) && decide (f ≤ 3)
  let beta := fun b => decide (b < 0x3F80_0000)
  let gs := pdGscale d % 2 ^ 31
  (if bitsOf d 7 1 ≠ 0 ∨ bitsOf d 34 2 ≠ 0 ∨ bitsOf d 60 4 ≠ 0 ∨ bitsOf d 88 8 ≠ 0 ∨ bitsOf d 176 16 ≠ 0 ∨ bitsOf d 536 488 ≠ 0 ∨
      4 < pdOpt d ∨ 5 < pdPrnd d ∨ 5 < pdSrnd d ∨ fmts.any reservedFormat ∨ pdRows d = 0 ∨ pdCols d = 0 ∨
      2 ^ 32 ≤ pdRows d * pdCols d ∨ (¬ pdCopy d ∧ pdCfmt d ≠ 0) ∨ (pdSched d ≠ 0 ∧ pdLr d ≠ 0) ∨
      !([pdLr d, pdLrScale d, pdEps d, pdWd d, pdTrust d].all finitePos) ∨ !(beta (pdBeta1 d) && beta (pdBeta2 d)) ∨
      gs = 0 ∨ 0x7F80_0000 ≤ gs ∨ (pdOpt d = 4 ∧ pdEps d = 0) ∨ (pdNesterov d ∧ pdOpt d ≠ 0) ∨ (pdTrust d ≠ 0 ∧ pdOpt d ≠ 3) ∨
      (rows ∧ 2 < pdOpt d) ∨ (if rows then pdNlist d = 0 else pdNlist d ≠ 0)
    then [0x02] else []) ++
  (if (fmts.take 3).any (fun f => !reservedFormat f && !small f) ∨ pdSfmt d = 2 ∨
      (pdCopy d ∧ ¬ reservedFormat (pdCfmt d) ∧ ¬ small (pdCfmt d))
    then [0x0B] else []) ++
  (if pdSched d % 64 = 0 then [] else [0x05])

/-! ### Addresses (R358, R362) -/

/-- What a repeat works with. -/
structure PuRun where
  e : Eng
  c : Cur
  rows : Bool
  d : Nat
  p : Nat
  g : Nat
  s1 : Nat
  s2 : Nat
  s3 : Nat
  hdr : Nat
  cpy : Nat
  idx : Nat
  cnt : Nat

/-- ARs that an instruction with this descriptor uses (R358, R89). -/
def puArs (rows : Bool) (w : BitVec 256) (d : Nat) : List Nat :=
  [wOp w 192 4, wOp w 196 4, wOp w 200 4, wOp w 216 4] ++ (if pdUsesS1 d then [wOp w 204 4] else []) ++
  (if pdUsesS2 d then [wOp w 208 4] else []) ++ (if pdUsesS3 d then [wOp w 212 4] else []) ++
  (if pdCopy d then [wOp w 220 4] else []) ++ (if rows then [wOp w 224 4, wOp w 228 4] else [])

def engArWhen (b : Bool) (e : Eng) (a rep : Nat) : QM Nat := if b then engAr e a rep else pure 0

def puRun (e : Eng) (c : Cur) (rows : Bool) (d : Nat) : QM PuRun := do
  let w := c.word
  let p ← engAr e (wOp w 196 4) c.rep
  let g ← engAr e (wOp w 200 4) c.rep
  let s1 ← engArWhen (pdUsesS1 d) e (wOp w 204 4) c.rep
  let s2 ← engArWhen (pdUsesS2 d) e (wOp w 208 4) c.rep
  let s3 ← engArWhen (pdUsesS3 d) e (wOp w 212 4) c.rep
  let hdr ← engAr e (wOp w 216 4) c.rep
  let cpy ← engArWhen (pdCopy d) e (wOp w 220 4) c.rep
  let idx ← engArWhen rows e (wOp w 224 4) c.rep
  let cnt ← engArWhen rows e (wOp w 228 4) c.rep
  pure { e := e, c := c, rows := rows, d := d, p := p, g := g, s1 := s1, s2 := s2, s3 := s3, hdr := hdr, cpy := cpy,
         idx := idx, cnt := cnt }

def fmtWidthB (f : Nat) : Nat := elemBits f / 8

/-- Extents of a repeat: base, length, alignment, read, written (R360, R363 step 4). A table counts whole. -/
def PuRun.extents (x : PuRun) : List (Nat × Nat × Nat × Bool × Bool) :=
  let d := x.d
  let n := pdRows d * pdCols d
  let pb := fmtWidthB (pdPfmt d)
  let gb := fmtWidthB (pdGfmt d)
  let sb := fmtWidthB (pdSfmt d)
  [(x.p, n * pb, pb, true, true), (x.g, (if x.rows then pdNlist d * pdCols d else n) * gb, gb, true, false),
   (x.hdr, 64, 64, true, true)] ++
  (if pdUsesS1 d then [(x.s1, n * sb, sb, true, true)] else []) ++
  (if pdUsesS2 d then (if pdFactored d then [(x.s2, 4 * pdRows d, 4, true, true)] else [(x.s2, n * sb, sb, true, true)]) else []) ++
  (if pdUsesS3 d then [(x.s3, 4 * pdCols d, 4, true, true)] else []) ++
  (if pdCopy d then [(x.cpy, n * fmtWidthB (pdCfmt d), fmtWidthB (pdCfmt d), false, true)] else []) ++
  (if x.rows then [(x.idx, 4 * pdNlist d, 4, true, false), (x.cnt, 4 * pdRows d, 4, true, true)] else [])

/-- Two of the extents overlap. -/
def anyOverlap (xs : List (Nat × Nat)) : Bool :=
  match xs with
  | [] => false
  | x :: r => r.any (fun y => decide (x.1 < y.1 + y.2) && decide (y.1 < x.1 + x.2)) || anyOverlap r

/-! ### Halts (R385-R387) -/

/-- PU_HALT and PU_HALT_INFO. -/
def notePuHalt (cl idx pass : Nat) (rows : Bool) (s : State) : State :=
  setReg (puRegs cl + 8) (BitVec.ofNat 32 (pass + 4 * boolNat rows)) (setReg (puRegs cl + 4) (BitVec.ofNat 32 idx) s)

/-- Halt a PUE at an element or list entry. -/
def puStop {α : Type} (cl reason idx pass : Nat) (rows : Bool) (granule : Nat) : QM α := do
  modify (notePuHalt cl idx pass rows)
  throw { reason := reason, detail := if reason = 0x0A then pass + granule * 65536 else 0 }

/-- An uncorrectable fault of the PUE that lies at this element halts it there (R385, R386): `runs` holds the element's
number plus 1. -/
def puFault (cl idx pass : Nat) (rows : Bool) : QM Unit := do
  let u := (unitCl 4 cl 0).toNat
  if mget 0 (← get).runs u = idx + 1 then
    let stage := (Config.faultStage (← get).fresh).toNat
    modify (fun s => notePuHalt cl idx pass rows (takeFresh { s with runs := mput 0 s.runs u 0 }))
    throw { reason := 0x0E, detail := stage }

/-- Read a value that a pass consumes; poison halts at `idx`. -/
def puRead (cl a n idx pass : Nat) (rows : Bool) : QM Nat := do
  puFault cl idx pass rows
  let bs ← readWhenFree a n 1
  match firstPoison a bs with
  | some g => puStop cl 0x0A idx pass rows g
  | none => pure (leNat (bytesOf bs))

def puWrite (e : Eng) (a n v : Nat) : QM Unit := outWriteWhenFree e a (clean (leBytes n v))

/-- Run arithmetic and raise its flags (R367). -/
def puCalc {α : Type} (cl : Nat) (m : FM α) : QM α := do
  let (a, x) := m Exc.none
  modify (raiseFlags (puRegs cl) x)
  pure a

/-! ### Steps 1 to 4 of R363 -/

/-- Steps 1 to 4; answers what the repeat works with, T and the index list, or nothing for a frozen block. -/
def puPrepare (e : Eng) (c : Cur) (rows : Bool) : QM (Option (PuRun × Nat × List Nat)) := do
  let da ← engAr e (wOp c.word 192 4) c.rep
  let bs ← engConsume e da 128 64 0
  let d := leNat bs
  stopOn (puDescConditions rows d)
  modify (fun s => { s with pues := mput Pue.reset s.pues e.cl { mget Pue.reset s.pues e.cl with desc := BitVec.ofNat 1024 d } })
  let ha ← engAr e (wOp c.word 216 4) c.rep
  let hb ← engConsume e ha 64 64 0
  let h := leNat hb
  if bitsOf h 33 479 ≠ 0 then haltWithReason 0x02
  if bitsOf h 32 1 = 1 then
    if pdStrict d then haltWithReason 0x0F
    modify (bumpSat (puRegs e.cl + 0xC) 1)
    pure none
  else
    let x ← puRun e c rows d
    let ex := x.extents
    let s ← get
    stopOn ((if anyOverlap (ex.map (fun y => (y.1, y.2.1))) then [0x02] else []) ++
      ex.flatMap (fun y =>
        (if y.2.2.2.1 then (accessCondition s e y.1 y.2.1 y.2.2.1 .read).toList else []) ++
        (if y.2.2.2.2 then (accessCondition s e y.1 y.2.1 y.2.2.1 .write).toList else [])))
    if rows then
      let mut idx : List Nat := []
      for k in List.range (pdNlist d) do
        let r ← puRead e.cl (x.idx + 4 * k) 4 k 0 true
        idx := idx ++ [r]
      match idx.findIdx? (fun r => decide (pdRows d ≤ r)) with
      | some k => puStop e.cl 0x07 k 0 true 0
      | none => pure (some (x, bitsOf h 0 32, idx))
    else pure (some (x, bitsOf h 0 32, []))

/-! ### Arithmetic (R366-R373) -/

/-- Values formed once for a repeat, or once for a row (R366). -/
structure PuK where
  t : Nat
  lrE : FVal
  lrwd : FVal
  ob1 : FVal
  ob2 : FVal
  bc1 : FVal
  bc2 : FVal

def f32v (bits : Nat) : FVal := decodeF fp32 bits

def negVal (x : FVal) : FVal := if x.isNan then x else x.neg

/-- 1 - pown(beta, t), in FP64, to FP32. -/
def biasOf (beta t : Nat) : FM FVal := do
  let p ← op64 (pownExact (f32v beta) t)
  let d ← op64 (subExact oneVal p)
  op32 (asIs d)

/-- The rates of a repeat (R366), the bias corrections not yet formed. -/
def puRates (d lr t : Nat) : FM PuK := do
  let lrE ← op32 (mulExact (f32v lr) (f32v (pdLrScale d)))
  let lrwd ← op32 (mulExact lrE (f32v (pdWd d)))
  let ob1 ← op32 (subExact oneVal (f32v (pdBeta1 d)))
  let ob2 ← op32 (subExact oneVal (f32v (pdBeta2 d)))
  pure { t := t, lrE := lrE, lrwd := lrwd, ob1 := ob1, ob2 := ob2, bc1 := oneVal, bc2 := oneVal }

/-- The bias corrections for a step count (R366). -/
def puBias (d t : Nat) (k : PuK) : FM PuK := do
  let bc1 ← biasOf (pdBeta1 d) t
  let bc2 ← biasOf (pdBeta2 d) t
  pure { k with t := t, bc1 := bc1, bc2 := bc2 }

def puConst (d lr t : Nat) : FM PuK := do
  let k ← puRates d lr t
  puBias d t k

/-- fma_to of R367: stream 0 the parameter, 1 the first moment, 2 the second (R369). -/
def fmaTo (d stream t e : Nat) (a b c : FVal) : FM Nat :=
  let code := if stream = 0 then pdPfmt d else pdSfmt d
  let rnd := rndOf (if stream = 0 then pdPrnd d else pdSrnd d)
  let r := srBits ((pdSeed d + stream) % 2 ^ 64) ((t * 2 ^ 32 + e) % 2 ^ 64)
  encodeM ((fmtOf code).getD fp32) rnd r (fmaExact rnd a b c)

/-- The copy-out of a stored parameter (R367). -/
def copyOutBits (d t e w : Nat) : FM Nat :=
  let rnd := rndOf (pdPrnd d)
  let r := srBits ((pdSeed d + 3) % 2 ^ 64) ((t * 2 ^ 32 + e) % 2 ^ 64)
  encodeM ((fmtOf (pdCfmt d)).getD fp32) rnd r (asIs (valueOf (pdPfmt d) w))

/-- g = f32(GSCALE * graw) -/
def gradOf (d raw : Nat) : FM FVal := op32 (mulExact (f32v (pdGscale d)) (valueOf (pdGfmt d) raw))

def fma32 (a b c : FVal) : FM FVal := op32 (fmaExact .rne a b c)

/-- What an element becomes: moments stored, parameter stored. -/
structure PuOut where
  ms : Option Nat := none
  vs : Option Nat := none
  w : Nat

/-- SGDM (R370) -/
def sgdm (d : Nat) (k : PuK) (e : Nat) (w g m : FVal) : FM PuOut := do
  let gd ← fma32 (f32v (pdWd d)) w g
  if pdBeta1 d = 0 then
    let w' ← fmaTo d 0 k.t e (negVal k.lrE) gd w
    pure { w := w' }
  else
    let b1 := f32v (pdBeta1 d)
    let ms ← fmaTo d 1 k.t e b1 m gd
    let mv := valueOf (pdSfmt d) ms
    let dd ← (if pdNesterov d then fma32 b1 mv gd else pure mv)
    let w' ← fmaTo d 0 k.t e (negVal k.lrE) dd w
    pure { ms := some ms, w := w' }

/-- The moments of R371 and the step from stored ones. -/
def adamMoments (d : Nat) (k : PuK) (e : Nat) (gd m v : FVal) : FM (Nat × Nat) := do
  let x ← op32 (mulExact k.ob1 gd)
  let ms ← fmaTo d 1 k.t e (f32v (pdBeta1 d)) m x
  let gg ← op32 (mulExact gd gd)
  let y ← op32 (mulExact k.ob2 gg)
  let vs ← fmaTo d 2 k.t e (f32v (pdBeta2 d)) v y
  pure (ms, vs)

def adamStep (d : Nat) (k : PuK) (ms vs : Nat) : FM FVal := do
  let a ← op32 (divExact (valueOf (pdSfmt d) ms) k.bc1)
  let b ← op32 (divExact (valueOf (pdSfmt d) vs) k.bc2)
  let q ← op32 (sqrtExact b)
  let den ← op32 (addExact .rne q (f32v (pdEps d)))
  op32 (divExact a den)

/-- ADAM and ADAMW (R371) -/
def adam (d : Nat) (k : PuK) (e : Nat) (w g m v : FVal) : FM PuOut := do
  let gd ← (if pdOpt d = 1 then fma32 (f32v (pdWd d)) w g else pure g)
  let (ms, vs) ← adamMoments d k e gd m v
  let u ← adamStep d k ms vs
  let w1 ← (if pdOpt d = 2 then fma32 (negVal k.lrwd) w w else pure w)
  let w' ← fmaTo d 0 k.t e (negVal k.lrE) u w1
  pure { ms := some ms, vs := some vs, w := w' }

/-- Add a chunk of values to the 256 lanes of R368. -/
def addChunk (s xs : List FVal) : FM (List FVal) :=
  match s, xs with
  | a :: s, x :: xs => do
    let y ← op64 (addExact .rne a x)
    let r ← addChunk s xs
    pure (y :: r)
  | s, _ => pure s

def addChunks (fuel : Nat) (s xs : List FVal) : FM (List FVal) :=
  match fuel with
  | 0 => pure s
  | k + 1 => if xs.isEmpty then pure s else do
    let s ← addChunk s (xs.take 256)
    addChunks k s (xs.drop 256)

/-- Add neighbours. -/
def addPairs (xs : List FVal) : FM (List FVal) :=
  match xs with
  | a :: b :: r => do
    let y ← op64 (addExact .rne a b)
    let r ← addPairs r
    pure (y :: r)
  | xs => pure xs

def addLevels (n : Nat) (xs : List FVal) : FM (List FVal) :=
  match n with
  | 0 => pure xs
  | k + 1 => do
    let ys ← addPairs xs
    addLevels k ys

/-- sum64 of R368 -/
def sum64 (xs : List FVal) : FM FVal := do
  let s ← addChunks (xs.length / 256 + 1) (List.replicate 256 (.zero false)) xs
  let r ← addLevels 8 s
  pure (r.getD 0 (.zero false))

/-- A plain running sum in FP64 (the column sums of R368). -/
def runSum (acc : FVal) (xs : List FVal) : FM FVal :=
  match xs with
  | [] => pure acc
  | x :: r => do
    let a ← op64 (addExact .rne acc x)
    runSum a r

/-! ### Passes -/

/-- Addresses of element `e`, its gradient at `ge`. -/
def PuRun.readElem (x : PuRun) (e ge at' pass : Nat) : QM (Nat × Nat × Nat × Nat) := do
  let d := x.d
  let cl := x.e.cl
  let pb := fmtWidthB (pdPfmt d)
  let gb := fmtWidthB (pdGfmt d)
  let sb := fmtWidthB (pdSfmt d)
  let g ← puRead cl (x.g + ge * gb) gb at' pass x.rows
  let w ← puRead cl (x.p + e * pb) pb at' pass x.rows
  let m ← (if pdUsesS1 d then puRead cl (x.s1 + e * sb) sb at' pass x.rows else pure 0)
  let v ← (if pdUsesS2 d ∧ ¬ pdFactored d then puRead cl (x.s2 + e * sb) sb at' pass x.rows else pure 0)
  pure (g, w, m, v)

/-- Write what an element has become. -/
def PuRun.store (x : PuRun) (e t : Nat) (o : PuOut) : QM Unit := do
  let d := x.d
  let sb := fmtWidthB (pdSfmt d)
  match o.ms with
  | some v => puWrite x.e (x.s1 + e * sb) sb v
  | none => pure ()
  match o.vs with
  | some v => puWrite x.e (x.s2 + e * sb) sb v
  | none => pure ()
  puWrite x.e (x.p + e * fmtWidthB (pdPfmt d)) (fmtWidthB (pdPfmt d)) o.w
  if pdCopy d then
    let c ← puCalc x.e.cl (copyOutBits d t e o.w)
    puWrite x.e (x.cpy + e * fmtWidthB (pdCfmt d)) (fmtWidthB (pdCfmt d)) c
  modify (addCtr (puRegs x.e.cl + 0x28) 1)

/-- One element of SGDM, ADAM or ADAMW. -/
def PuRun.simpleElem (x : PuRun) (k : PuK) (e ge at' : Nat) : QM Unit := do
  let d := x.d
  let (g, w, m, v) ← x.readElem e ge at' 1
  let sv := valueOf (pdSfmt d)
  let wv := valueOf (pdPfmt d) w
  let o ← puCalc x.e.cl (do
    let gv ← gradOf d g
    if pdOpt d = 0 then sgdm d k e wv gv (sv m) else adam d k e wv gv (sv m) (sv v))
  x.store e k.t o

/-- LAMB (R372) -/
def PuRun.lamb (x : PuRun) (k : PuK) (n : Nat) : QM Unit := do
  let d := x.d
  let cl := x.e.cl
  let sb := fmtWidthB (pdSfmt d)
  let sv := valueOf (pdSfmt d)
  let mut ws : List FVal := []
  let mut us : List FVal := []
  for e in List.range n do
    let (g, w, m, v) ← x.readElem e e e 1
    let wv := valueOf (pdPfmt d) w
    let (ms, vs, u2) ← puCalc cl (do
      let gv ← gradOf d g
      let (ms, vs) ← adamMoments d k e gv (sv m) (sv v)
      let u ← adamStep d k ms vs
      let u2 ← fma32 (f32v (pdWd d)) wv u
      pure (ms, vs, u2))
    puWrite x.e (x.s1 + e * sb) sb ms
    puWrite x.e (x.s2 + e * sb) sb vs
    ws := ws ++ [wv]
    us := us ++ [u2]
  let wl := ws
  let ul := us
  let r ← puCalc cl (do
    let sq := fun (xs : List FVal) => xs.mapM (fun y => op64 (mulExact y y))
    let w2 ← sq wl
    let u2 ← sq ul
    let wn ← sum64 w2
    let un ← sum64 u2
    let r ← (if wn.isZero || un.isZero then pure oneVal
      else do
        let a ← op64 (sqrtExact wn)
        let b ← op64 (sqrtExact un)
        let q ← op64 (divExact a b)
        op32 (asIs q))
    let tm := f32v (pdTrust d)
    pure (if pdTrust d ≠ 0 ∧ !r.isNan ∧ (r.isInf || ltVal tm r) then tm else r))
  modify (setReg (puRegs cl + 0x1C) (BitVec.ofNat 32 (finish fp32 .ieee .rne 0 (r, Exc.none)).1))
  let lrr ← puCalc cl (op32 (mulExact k.lrE r))
  for e in List.range n do
    let (_, w, ms, vs) ← x.readElem e e e 2
    let wv := valueOf (pdPfmt d) w
    let w' ← puCalc cl (do
      let u ← adamStep d k ms vs
      let u2 ← fma32 (f32v (pdWd d)) wv u
      fmaTo d 0 k.t e (negVal lrr) u2 wv)
    x.store e k.t { w := w' }

/-- The end of an ADAFACTOR element, from its second moment estimate (R373). -/
def adafactorEnd (d : Nat) (k : PuK) (e : Nat) (w g m vh : FVal) : FM PuOut := do
  let q ← op32 (sqrtExact vh)
  let u0 ← op32 (divExact g q)
  let (ms, u) ← (if pdBeta1 d = 0 then pure (none, u0) else do
    let y ← op32 (mulExact k.ob1 u0)
    let ms ← fmaTo d 1 k.t e (f32v (pdBeta1 d)) m y
    let u ← op32 (divExact (valueOf (pdSfmt d) ms) k.bc1)
    pure (some ms, u))
  let w1 ← fma32 (negVal k.lrwd) w w
  let w' ← fmaTo d 0 k.t e (negVal k.lrE) u w1
  pure { ms := ms, w := w' }

/-- ADAFACTOR without factors: one pass (R373). -/
def PuRun.adafactorFull (x : PuRun) (k : PuK) (n : Nat) : QM Unit := do
  let d := x.d
  for e in List.range n do
    let (g, w, m, v) ← x.readElem e e e 1
    let o ← puCalc x.e.cl (do
      let gv ← gradOf d g
      let q ← fma32 gv gv (f32v (pdEps d))
      let y ← op32 (mulExact k.ob2 q)
      let vs ← fmaTo d 2 k.t e (f32v (pdBeta2 d)) (valueOf (pdSfmt d) v) y
      let vh ← op32 (divExact (valueOf (pdSfmt d) vs) k.bc2)
      let o ← adafactorEnd d k e (valueOf (pdPfmt d) w) gv (valueOf (pdSfmt d) m) vh
      pure { o with vs := some vs })
    x.store e k.t o

/-- New factors from sums (R373). -/
def PuRun.factors (x : PuRun) (k : PuK) (base n len at' : Nat) (sums : List FVal) : QM (List FVal) := do
  let d := x.d
  let mut out : List FVal := []
  for i in List.range n do
    let old ← puRead x.e.cl (base + 4 * i) 4 (at' * i) 1 x.rows
    let r ← puCalc x.e.cl (do
      let q ← op64 (divExact (sums.getD i (.zero false)) (natVal len))
      let q ← op32 (asIs q)
      let y ← op32 (mulExact k.ob2 q)
      fma32 (f32v (pdBeta2 d)) (f32v old) y)
    puWrite x.e (base + 4 * i) 4 (finish fp32 .ieee .rne 0 (r, Exc.none)).1
    out := out ++ [r]
  pure out

/-- ADAFACTOR with factors: two passes (R373). -/
def PuRun.adafactor (x : PuRun) (k : PuK) : QM Unit := do
  let d := x.d
  let cl := x.e.cl
  let rows := pdRows d
  let cols := pdCols d
  let mut qs : List (List FVal) := []
  for i in List.range rows do
    let mut row : List FVal := []
    for j in List.range cols do
      let e := i * cols + j
      let g ← puRead cl (x.g + e * fmtWidthB (pdGfmt d)) (fmtWidthB (pdGfmt d)) e 1 false
      let q ← puCalc cl (do
        let gv ← gradOf d g
        fma32 gv gv (f32v (pdEps d)))
      row := row ++ [q]
    qs := qs ++ [row]
  let ql := qs
  let rs ← puCalc cl (ql.mapM sum64)
  let cs ← puCalc cl ((List.range cols).mapM (fun j => runSum (.zero false) (ql.map (fun r => r.getD j (.zero false)))))
  let rf ← x.factors k x.s2 rows cols cols rs
  let cf ← x.factors k x.s3 cols rows 1 cs
  let rm ← puCalc cl (do
    let s ← sum64 rf
    let q ← op64 (divExact s (natVal rows))
    op32 (asIs q))
  for i in List.range rows do
    for j in List.range cols do
      let e := i * cols + j
      let (g, w, m, _) ← x.readElem e e e 2
      let o ← puCalc cl (do
        let gv ← gradOf d g
        let a ← op32 (mulExact (rf.getD i (.zero false)) (cf.getD j (.zero false)))
        let b ← op32 (divExact a rm)
        let vh ← op32 (divExact b k.bc2)
        adafactorEnd d k e (valueOf (pdPfmt d) w) gv (valueOf (pdSfmt d) m) vh)
      x.store e k.t o

/-! ### Steps 5 to 8 of R363 -/

/-- The gradient scan of R365: true when a scaled gradient is not finite. -/
def PuRun.scan (x : PuRun) (n : Nat) : QM Bool := do
  let d := x.d
  let gb := fmtWidthB (pdGfmt d)
  let mut bad := false
  for e in List.range n do
    let g ← puRead x.e.cl (x.g + e * gb) gb (if x.rows then e / pdCols d else e) 0 x.rows
    let v ← puCalc x.e.cl (gradOf d g)
    bad := bad || v.isNan || v.isInf
  pure bad

/-- T + 1, limited (R361, R366). -/
def nextT (t : Nat) : Nat := Nat.min (t + 1) all32

/-- Entries whose row appeared earlier. -/
def dupCount (seen idx : List Nat) : Nat :=
  match idx with
  | [] => 0
  | r :: rest => boolNat (seen.contains r) + dupCount (r :: seen) rest

/-- PU_ROWS, entry by entry (R374-R376). -/
def PuRun.rowsPass (x : PuRun) (rates : PuK) (idx : List Nat) : QM Unit := do
  let d := x.d
  let cl := x.e.cl
  for k in List.range idx.length do
    let r := idx.getD k 0
    let c ← puRead cl (x.cnt + 4 * r) 4 k 1 true
    let kk ← puCalc cl (puBias d (nextT c) rates)
    for j in List.range (pdCols d) do
      x.simpleElem kk (r * pdCols d + j) (k * pdCols d + j) k
    puWrite x.e (x.cnt + 4 * r) 4 kk.t
    modify (addCtr (puRegs cl + 0x30) 1)

/-- The rest of a repeat once its rate is known. -/
def puFinish (x : PuRun) (t : Nat) (idx : List Nat) (lr : Nat) : QM Bool := do
  let d := x.d
  let cl := x.e.cl
  let n := pdRows d * pdCols d
  -- PU_ROWS forms the bias corrections row by row
  let k ← puCalc cl (if x.rows then puRates d lr (nextT t) else puConst d lr (nextT t))
  let bad ← (if pdGuard d then x.scan (if x.rows then idx.length * pdCols d else n) else pure false)
  if bad then
    modify (bumpSat (puRegs cl + 0x10) 1)
    pure true
  else
    if x.rows then
      modify (bumpSat (puRegs cl + 0x14) (dupCount [] idx))
      x.rowsPass k idx
    else if pdOpt d ≤ 2 then
      for e in List.range n do
        x.simpleElem k e e e
    else if pdOpt d = 3 then x.lamb k n
    else if pdFactored d then x.adafactor k
    else x.adafactorFull k n
    puWrite x.e x.hdr 4 (nextT t)
    modify (setReg (puRegs cl + 0x18) (BitVec.ofNat 32 (finish fp32 .ieee .rne 0 (k.lrE, Exc.none)).1))
    modify (addCtr (puRegs cl + 0x20) 1)
    pure true

def getPue (s : State) (cl : Nat) : Pue := mget Pue.reset s.pues cl

def modPue (cl : Nat) (f : Pue → Pue) (s : State) : State := { s with pues := mput Pue.reset s.pues cl (f (getPue s cl)) }

/-- A PUE waits for the dose engine's answer to its request. -/
def awaitsDose (s : State) (cl : Nat) (c : Cur) : Bool := c.begun && !c.resumed && (getPue s cl).ask.isSome

/-- One repeat, up to the request to the dose engine or to its end. -/
def puRepeat (cl : Nat) (rows : Bool) (c : Cur) : QM Bool := do
  let e : Eng := ⟨cl, 25⟩
  if awaitsDose (← get) cl c then pure false
  else
    match ← puChecksIndexed e c rows with
    | none => pure true
    | some (x, t, idx) =>
      if pdSched x.d = 0 then puFinish x t idx (pdLr x.d)
      else
        modify (fun s =>
          let n := s.dose.serial
          let s := askDose (some cl) (BitVec.ofNat 48 (pdSched x.d)) (BitVec.ofNat 32 (pdGstep x.d)) e.init s
          let s := modPue cl (fun p => { p with t := BitVec.ofNat 32 t, idx := idx, ask := some n }) s
          modQ cl 25 (fun q => { q with cur := q.cur.map (fun c => { c with begun := true, resumed := false }) }) s)
        pure false
where
  /-- Steps 1 to 4; PU_HALT names an entry when the halt stands at one, else nothing. -/
  puChecksIndexed (e : Eng) (c : Cur) (rows : Bool) : QM (Option (PuRun × Nat × List Nat)) := do
    let old := (getReg (← get) (puRegs e.cl + 4), getReg (← get) (puRegs e.cl + 8))
    modify (notePuHalt e.cl 0 0 false)
    let r ← puPrepare e c rows
    modify (fun s => setReg (puRegs e.cl + 8) old.2 (setReg (puRegs e.cl + 4) old.1 s))
    pure r

/-- ARs of the last descriptor read. -/
def puArsOf (s : State) (cl : Nat) (rows : Bool) (c : Cur) : List Nat := puArs rows c.word (getPue s cl).desc.toNat

def puCommand (cl op : Nat) (s : State) : State :=
  let rows := decide (op = 0x11)
  engineStep cl 25 op (fun s c => puArsOf s cl rows c) (puRepeat cl rows) s

/-- PU_STEP (R363): one repeat -/
def execPuStep (cl : Fin 8) (s : State) : Host.Outcome State Fault Refusal := .next (puCommand cl.val 0x10 s)

/-- PU_ROWS (R374): one repeat -/
def execPuRows (cl : Fin 8) (s : State) : Host.Outcome State Fault Refusal := .next (puCommand cl.val 0x11 s)

/-- What a PUE does with its answer: halt for a failed request (R379), or go on with the repeat. -/
def takeAnswer (cl : Nat) (rows : Bool) (a : DoseAns) (c : Cur) : QM Bool := do
  let e : Eng := ⟨cl, 25⟩
  if !awaitsDose (← get) cl c ∨ (getPue (← get) cl).ask ≠ some a.serial then pure false
  else
    modify (modPue cl (fun p => { p with ask := none }))
    if a.reason ≠ 0 then puStop cl a.reason 0 0 false 0
    let p := getPue (← get) cl
    let x ← puRun e c rows p.desc.toNat
    puFinish x p.t.toNat p.idx a.lr.toNat

/-- DOSE_ANSWER (R382): the answer reaches the PUE that waits for it. -/
def execDoseAnswer (cl : Fin 8) (s : State) : Host.Outcome State Fault Refusal :=
  .next (match mlook s.dose.answers cl.val with
    | none => s
    | some a =>
      let s := { s with dose := { s.dose with answers := mdel s.dose.answers cl.val } }
      match headWord s cl.val 25 with
      | none => s
      | some w =>
        let rows := decide (wOpcode w = 0x11)
        engineStep cl.val 25 (wOpcode w) (fun s c => puArsOf s cl.val rows c) (takeAnswer cl.val rows a) s)

end Sys2Proof.Machine
end

