-- ==== Sys2Proof/Machine/Rotation.lean ====
section
/-! DEFINITION. Rotation of a logical position to another physical tile (04_matrix_tiles.md, R183-R188). -/

namespace Sys2Proof.Machine

/-! ### Rotation (R57, R183-R188) -/

/-- A position is at a yield point: its next instruction carries YIELD, its fence condition is met and its waits
are not yet evaluated (R184). -/
def atYield (s : State) (cl p : Nat) : Bool :=
  let q := getQ s cl p
  !q.halted && queueDrained s cl p &&
  (match q.cur with
   | some c => !c.started && !c.waiting && wYield c.word
   | none =>
     match headWord s cl p with
     | some w => wYield w
     | none => false)

/-- A position is at a job boundary: no job holds it. -/
def atJobBoundary (s : State) (cl p : Nat) : Bool :=
  decide (jobOfQueue s cl p = 0) && decide (queueState s cl p ≠ 1) && decide (queueState s cl p ≠ 2)

/-- ROTATION (R184-R187, R554): a spare tile fit to serve takes a position that calls for one, starting with invalid
buffers; the copy runs until ROTATION_COPY_DONE. The outgoing tile takes the spare role at the end of the copy. -/
def execRotation (cl : Fin 8) (p : Fin 8) (s : State) : Host.Outcome State Fault Refusal :=
  .next
    (if fusedOff s p.val || !spareFit s cl.val || !rotationWanted s cl.val p.val || (getTile s cl.val p.val).rotating ||
        !(atYield s cl.val p.val || atJobBoundary s cl.val p.val) then s
     else modTile cl.val p.val (fun t => { t with rotating := true }) s)

/-- The copy reads every word of the outgoing tile: errors that lie there are found, corrected or carried on as
poison (R203, R204). What is found is counted as found in a recovery action (R542). -/
def copyOut (cl p : Nat) (s : State) : State :=
  let lo := (cl * 8 + p) * 0x10_0000 / 4
  let gs := ((s.flaws.map (fun m => m.1 / 8)).filter (fun g => decide (lo ≤ g) && decide (g < lo + 0x4_0000))).eraseDups
  recovering (unitCl 0x0C cl p) (fun s => gs.foldl (fun s g => let (s, rs) := checkGranule (.tile cl p) g (granWords g) 1 s; reports rs s) s) s

/-- The slot of a position that was absent: its earlier contents are lost (R193), and it reads as memory that nothing has
written (log entry 3). -/
def dropSlot (cl p : Nat) (s : State) : State :=
  let lo := (cl * 8 + p) * 0x100_0000
  let out := fun (unit k : Nat) => !(decide (lo ≤ k * unit) && decide (k * unit < lo + 0x100_0000))
  { s with mem := s.mem.filter (fun e => out 1 e.1), poison := s.poison.filter (fun e => out 64 e.1),
           flaws := s.flaws.filter (fun e => out 8 e.1) }

/-- A companion request that was held is made (R185). -/
def runHeld (s : State) (x : HeldAccess) : State :=
  match x with
  | .read pl a len coherent exclusive => companionRead pl a len coherent exclusive s
  | .write pl a data poison coherent => companionWrite pl a data poison coherent s

/-- ROTATION_COPY_DONE (R185, R186, R562): PHYS changes, the slot's bytes are those of before, and both buffers of the
incoming tile are invalid; accesses that were held complete in their order. A position that had no tile starts with nothing
in its slot (R193). A tile that is to leave service takes no role, and software is told. -/
def execRotationCopyDone (cl : Fin 8) (p : Fin 8) (s : State) : Host.Outcome State Fault Refusal :=
  .next
    (if (getTile s cl.val p.val).rotating then
       let a := tileOf s cl.val p.val
       let s := if a = 9 then dropSlot cl.val p.val s else copyOut cl.val p.val s
       let b := tileOf s cl.val 8
       let x := getHUnit s (hkey 1 cl.val a)
       let leaves := decide (a < 9) && (x.retired || x.excluded)
       let s := { s with tilePhys := mput p.val (mput 8 s.tilePhys (cl.val * 9 + 8) (if leaves then 9 else a)) (cl.val * 9 + p.val) b }
       let s := clearBuffers cl.val p.val (clearBuffers cl.val 8 (modTile cl.val p.val (fun t => { t with rotating := false }) s))
       let s := s.heldAcc.foldl runHeld { s with heldAcc := [] }
       if leaves then event 6 cl.val 0 (BitVec.ofNat 32 (6 + cl.val * 256 + a * 4096 + 65536)) s else s
     else s)

end Sys2Proof.Machine
end

