-- ==== Sys2Proof/Machine/Dispatch.lean ====
section
/-! DEFINITION. One arm for each command: a direct call of its meaning. -/

namespace Sys2Proof.Machine

/-- The effect of a command on everything but the queue. -/
def exec (i : Instr) (s : State) : Host.Outcome State Fault Refusal :=
  match i with
  | .doorbell by' cl qid count => Sys2Proof.Machine.execDoorbell by' cl qid count s
  | .runSet by' cl qid ctl => Sys2Proof.Machine.execRunSet by' cl qid ctl s
  | .runClear by' cl qid ctl => Sys2Proof.Machine.execRunClear by' cl qid ctl s
  | .resume by' cl qid ctl => Sys2Proof.Machine.execResume by' cl qid ctl s
  | .skip by' cl qid ctl => Sys2Proof.Machine.execSkip by' cl qid ctl s
  | .resetPtrs by' cl qid ctl => Sys2Proof.Machine.execResetPtrs by' cl qid ctl s
  | .waitMet cl qid => Sys2Proof.Machine.execWaitMet cl qid s
  | .waitTimeout cl qid => Sys2Proof.Machine.execWaitTimeout cl qid s
  | .nop cl qid => Sys2Proof.Machine.execNop cl qid s
  | .fence cl qid => Sys2Proof.Machine.execFence cl qid s
  | .fenceComplete cl qid => Sys2Proof.Machine.execFenceComplete cl qid s
  | .arbase cl qid => Sys2Proof.Machine.execArbase cl qid s
  | .arstep cl qid => Sys2Proof.Machine.execArstep cl qid s
  | .semset cl qid => Sys2Proof.Machine.execSemset cl qid s
  | .halt cl qid => Sys2Proof.Machine.execHalt cl qid s
  | .signalApply srcCl srcQid cl sem => Sys2Proof.Machine.execSignalApply srcCl srcQid cl sem s
  | .semWrite by' cl sem v => Sys2Proof.Machine.execSemWrite by' cl sem v s
  | .semAdd by' cl v => Sys2Proof.Machine.execSemAdd by' cl v s
  | .deadlockConfirm cl => Sys2Proof.Machine.execDeadlockConfirm cl s
  | .dldRecordRelease by' cl v => Sys2Proof.Machine.execDldRecordRelease by' cl v s
  | .mtMmul cl t => Sys2Proof.Machine.execMtMmul cl t s
  | .mtWclear cl t => Sys2Proof.Machine.execMtWclear cl t s
  | .blockAccepted cl t => Sys2Proof.Machine.execBlockAccepted cl t s
  | .rotation cl p => Sys2Proof.Machine.execRotation cl p s
  | .rotationCopyDone cl p => Sys2Proof.Machine.execRotationCopyDone cl p s
  | .mvMove cl m => Sys2Proof.Machine.execMvMove cl m s
  | .descriptorFetch cl m => Sys2Proof.Machine.execDescriptorFetch cl m s
  | .moverRxData cl m => Sys2Proof.Machine.execMoverRxData cl m s
  | .moverTxAccept cl m => Sys2Proof.Machine.execMoverTxAccept cl m s
  | .patrolScrub addr => Sys2Proof.Machine.execPatrolScrub addr s
  | .rowRepair die row => Sys2Proof.Machine.execRowRepair die row s
  | .ovfCfgWrite by' die v => Sys2Proof.Machine.execOvfCfgWrite by' die v s
  | .scuLoad cl u => Sys2Proof.Machine.execScuLoad cl u s
  | .scuRun cl u => Sys2Proof.Machine.execScuRun cl u s
  | .rEnd cl u => Sys2Proof.Machine.execREnd cl u s
  | .rJmp cl u => Sys2Proof.Machine.execRJmp cl u s
  | .rBrnz cl u => Sys2Proof.Machine.execRBrnz cl u s
  | .rBrz cl u => Sys2Proof.Machine.execRBrz cl u s
  | .rBeos cl u => Sys2Proof.Machine.execRBeos cl u s
  | .rSmovi cl u => Sys2Proof.Machine.execRSmovi cl u s
  | .rSadd cl u => Sys2Proof.Machine.execRSadd cl u s
  | .rSmov cl u => Sys2Proof.Machine.execRSmov cl u s
  | .rVbcast cl u => Sys2Proof.Machine.execRVbcast cl u s
  | .rSld cl u => Sys2Proof.Machine.execRSld cl u s
  | .rSst cl u => Sys2Proof.Machine.execRSst cl u s
  | .rGet cl u => Sys2Proof.Machine.execRGet cl u s
  | .getRxData cl u => Sys2Proof.Machine.execGetRxData cl u s
  | .rPut cl u => Sys2Proof.Machine.execRPut cl u s
  | .putTxAccept cl u => Sys2Proof.Machine.execPutTxAccept cl u s
  | .rLd cl u => Sys2Proof.Machine.execRLd cl u s
  | .rSt cl u => Sys2Proof.Machine.execRSt cl u s
  | .rGather cl u => Sys2Proof.Machine.execRGather cl u s
  | .rScatter cl u => Sys2Proof.Machine.execRScatter cl u s
  | .rCompact cl u => Sys2Proof.Machine.execRCompact cl u s
  | .rLaneid cl u => Sys2Proof.Machine.execRLaneid cl u s
  | .rAdd cl u => Sys2Proof.Machine.execRAdd cl u s
  | .rSub cl u => Sys2Proof.Machine.execRSub cl u s
  | .rMul cl u => Sys2Proof.Machine.execRMul cl u s
  | .rFma cl u => Sys2Proof.Machine.execRFma cl u s
  | .rDiv cl u => Sys2Proof.Machine.execRDiv cl u s
  | .rSqrt cl u => Sys2Proof.Machine.execRSqrt cl u s
  | .rMin cl u => Sys2Proof.Machine.execRMin cl u s
  | .rMax cl u => Sys2Proof.Machine.execRMax cl u s
  | .rAbs cl u => Sys2Proof.Machine.execRAbs cl u s
  | .rNeg cl u => Sys2Proof.Machine.execRNeg cl u s
  | .rCvt cl u => Sys2Proof.Machine.execRCvt cl u s
  | .rAnd cl u => Sys2Proof.Machine.execRAnd cl u s
  | .rOr cl u => Sys2Proof.Machine.execROr cl u s
  | .rXor cl u => Sys2Proof.Machine.execRXor cl u s
  | .rShl cl u => Sys2Proof.Machine.execRShl cl u s
  | .rShr cl u => Sys2Proof.Machine.execRShr cl u s
  | .rCmp cl u => Sys2Proof.Machine.execRCmp cl u s
  | .rPlog cl u => Sys2Proof.Machine.execRPlog cl u s
  | .rRsum cl u => Sys2Proof.Machine.execRRsum cl u s
  | .rRmax cl u => Sys2Proof.Machine.execRRmax cl u s
  | .rRmin cl u => Sys2Proof.Machine.execRRmin cl u s
  | .rRcount cl u => Sys2Proof.Machine.execRRcount cl u s
  | .rSort cl u => Sys2Proof.Machine.execRSort cl u s
  | .rMerge cl u => Sys2Proof.Machine.execRMerge cl u s
  | .rTopk cl u => Sys2Proof.Machine.execRTopk cl u s
  | .rCrc cl u => Sys2Proof.Machine.execRCrc cl u s
  | .stepLimit cl u => Sys2Proof.Machine.execStepLimit cl u s
  | .contributionDispatch cl => Sys2Proof.Machine.execContributionDispatch cl s
  | .clAllreduce cl gq => Sys2Proof.Machine.execClAllreduce cl gq s
  | .clReducescatter cl gq => Sys2Proof.Machine.execClReducescatter cl gq s
  | .clAllgather cl gq => Sys2Proof.Machine.execClAllgather cl gq s
  | .clBroadcast cl gq => Sys2Proof.Machine.execClBroadcast cl gq s
  | .clAlltoall cl gq => Sys2Proof.Machine.execClAlltoall cl gq s
  | .clAlltoallv cl gq => Sys2Proof.Machine.execClAlltoallv cl gq s
  | .stepOpen cl gq => Sys2Proof.Machine.execStepOpen cl gq s
  | .stepComplete cl gq => Sys2Proof.Machine.execStepComplete cl gq s
  | .gsAbort by' cl gq v => Sys2Proof.Machine.execGsAbort by' cl gq v s
  | .groupIdle cl gq => Sys2Proof.Machine.execGroupIdle cl gq s
  | .puStep cl => Sys2Proof.Machine.execPuStep cl s
  | .puRows cl => Sys2Proof.Machine.execPuRows cl s
  | .doseEvaluate => Sys2Proof.Machine.execDoseEvaluate s
  | .doseAnswer cl => Sys2Proof.Machine.execDoseAnswer cl s
  | .doseTestGo by' v => Sys2Proof.Machine.execDoseTestGo by' v s
  | .frameStart lane staged => Sys2Proof.Machine.execFrameStart lane staged s
  | .frameHeader lane bytes now => Sys2Proof.Machine.execFrameHeader lane bytes now s
  | .frameEnd lane rest now => Sys2Proof.Machine.execFrameEnd lane rest now s
  | .egressStart fp now => Sys2Proof.Machine.execEgressStart fp now s
  | .frameTxDone lane => Sys2Proof.Machine.execFrameTxDone lane s
  | .ageDrop port cls now => Sys2Proof.Machine.execAgeDrop port cls now s
  | .auditPass cl => Sys2Proof.Machine.execAuditPass cl s
  | .poolApply by' cl v => Sys2Proof.Machine.execPoolApply by' cl v s
  | .ownResWrite by' cl pair v => Sys2Proof.Machine.execOwnResWrite by' cl pair v s
  | .lgCfgWrite by' g v => Sys2Proof.Machine.execLgCfgWrite by' g v s
  | .portCfgWrite by' lane v => Sys2Proof.Machine.execPortCfgWrite by' lane v s
  | .portLinkDown port => Sys2Proof.Machine.execPortLinkDown port s
  | .portLinkUp port => Sys2Proof.Machine.execPortLinkUp port s
  | .ftWrite by' die v => Sys2Proof.Machine.execFtWrite by' die v s
  | .ftRead by' die v => Sys2Proof.Machine.execFtRead by' die v s
  | .wheelSlot fp now => Sys2Proof.Machine.execWheelSlot fp now s
  | .tatClamp cl now => Sys2Proof.Machine.execTatClamp cl now s
  | .pfcReceive lane enable quanta now => Sys2Proof.Machine.execPfcReceive lane enable quanta now s
  | .pfcPauseExpiry lane cls now => Sys2Proof.Machine.execPfcPauseExpiry lane cls now s
  | .pfcRepeat lane cls => Sys2Proof.Machine.execPfcRepeat lane cls s
  | .dataPacketReceive cl now => Sys2Proof.Machine.execDataPacketReceive cl now s
  | .taggedPacketReceive cl now => Sys2Proof.Machine.execTaggedPacketReceive cl now s
  | .writePacketReceive cl now => Sys2Proof.Machine.execWritePacketReceive cl now s
  | .ackPacketReceive cl now => Sys2Proof.Machine.execAckPacketReceive cl now s
  | .ackDelayExpiry ctx ch => Sys2Proof.Machine.execAckDelayExpiry ctx ch s
  | .txHandover cl qid => Sys2Proof.Machine.execTxHandover cl qid s
  | .packetSend ctx ch now => Sys2Proof.Machine.execPacketSend ctx ch now s
  | .resendTimeout ctx ch now => Sys2Proof.Machine.execResendTimeout ctx ch now s
  | .flitUncorrectable src dst bundle cargo => Sys2Proof.Machine.execFlitUncorrectable src dst bundle cargo s
  | .bundleLaneFail src dst bundle lane => Sys2Proof.Machine.execBundleLaneFail src dst bundle lane s
  | .cvuData8 by' cl n v => Sys2Proof.Machine.execCvuData8 by' cl n v s
  | .cvuData16 by' cl n v => Sys2Proof.Machine.execCvuData16 by' cl n v s
  | .cvuData32 by' cl n v => Sys2Proof.Machine.execCvuData32 by' cl n v s
  | .cvuStart by' cl n => Sys2Proof.Machine.execCvuStart by' cl n s
  | .cvuFinish by' cl n => Sys2Proof.Machine.execCvuFinish by' cl n s
  | .helloReceive lane m => Sys2Proof.Machine.execHelloReceive lane m s
  | .wormRoute lane w => Sys2Proof.Machine.execWormRoute lane w s
  | .aliveSend => Sys2Proof.Machine.execAliveSend s
  | .aliveReceive addr sb epoch => Sys2Proof.Machine.execAliveReceive addr sb epoch s
  | .standbyTakeover => Sys2Proof.Machine.execStandbyTakeover s
  | .configReceive epoch item => Sys2Proof.Machine.execConfigReceive epoch item s
  | .commitReceive epoch => Sys2Proof.Machine.execCommitReceive epoch s
  | .companionRead pl addr len coherent exclusive => Sys2Proof.Machine.execCompanionRead pl addr len coherent exclusive s
  | .companionWrite pl addr data poison coherent => Sys2Proof.Machine.execCompanionWrite pl addr data poison coherent s
  | .evtosFlitReplay => Sys2Proof.Machine.execEvtosFlitReplay s
  | .evtosLaneFail lane => Sys2Proof.Machine.execEvtosLaneFail lane s
  | .evtosLinkDown => Sys2Proof.Machine.execEvtosLinkDown s
  | .evtosLinkUp => Sys2Proof.Machine.execEvtosLinkUp s
  | .ringEnable by' ring v => Sys2Proof.Machine.execRingEnable by' ring v s
  | .ringDoorbell by' ring count => Sys2Proof.Machine.execRingDoorbell by' ring count s
  | .irqArm by' ring v => Sys2Proof.Machine.execIrqArm by' ring v s
  | .inject => Sys2Proof.Machine.execInject s
  | .arpReply m frame => Sys2Proof.Machine.execArpReply m frame s
  | .echoReply m frame => Sys2Proof.Machine.execEchoReply m frame s
  | .getStatus src => Sys2Proof.Machine.execGetStatus src s
  | .readErrors src => Sys2Proof.Machine.execReadErrors src s
  | .attest src => Sys2Proof.Machine.execAttest src s
  | .memRead src => Sys2Proof.Machine.execMemRead src s
  | .memWrite src => Sys2Proof.Machine.execMemWrite src s
  | .loadJob src => Sys2Proof.Machine.execLoadJob src s
  | .unloadJob src => Sys2Proof.Machine.execUnloadJob src s
  | .resetUnit src => Sys2Proof.Machine.execResetUnit src s
  | .ctxOpen src => Sys2Proof.Machine.execCtxOpen src s
  | .ctxClose src => Sys2Proof.Machine.execCtxClose src s
  | .groupCreate src => Sys2Proof.Machine.execGroupCreate src s
  | .groupDestroy src => Sys2Proof.Machine.execGroupDestroy src s
  | .abortGroup src => Sys2Proof.Machine.execAbortGroup src s
  | .runCupping src => Sys2Proof.Machine.execRunCupping src s
  | .portConfig src => Sys2Proof.Machine.execPortConfig src s
  | .harnessSet src => Sys2Proof.Machine.execHarnessSet src s
  | .mgmtConfig src => Sys2Proof.Machine.execMgmtConfig src s
  | .setProtection src => Sys2Proof.Machine.execSetProtection src s
  | .fwUpdate src => Sys2Proof.Machine.execFwUpdate src s
  | .enrolKey src => Sys2Proof.Machine.execEnrolKey src s
  | .debugUnlock src => Sys2Proof.Machine.execDebugUnlock src s
  | .fuseWrite src => Sys2Proof.Machine.execFuseWrite src s
  | .farrierUpdate src => Sys2Proof.Machine.execFarrierUpdate src s
  | .presenceWaitEnd => Sys2Proof.Machine.execPresenceWaitEnd s
  | .timeoutPresence => Sys2Proof.Machine.execTimeoutPresence s
  | .jobStop cl qid => Sys2Proof.Machine.execJobStop cl qid s
  | .errAckWrite by' v => Sys2Proof.Machine.execErrAckWrite by' v s
  | .errHandledWrite by' v => Sys2Proof.Machine.execErrHandledWrite by' v s
  | .testDue u => Sys2Proof.Machine.execTestDue u s
  | .caseDone u fault => Sys2Proof.Machine.execCaseDone u fault s
  | .deferInterval u => Sys2Proof.Machine.execDeferInterval u s
  | .conditionalReplay u failRec failOwn bias column => Sys2Proof.Machine.execConditionalReplay u failRec failOwn bias column s
  | .scoreHalving => Sys2Proof.Machine.execScoreHalving s
  | .hlClear by' v => Sys2Proof.Machine.execHlClear by' v s
  | .bootAttempt => Sys2Proof.Machine.execBootAttempt s
  | .bootStepComplete code data => Sys2Proof.Machine.execBootStepComplete code data s
  | .bootStepTimeout => Sys2Proof.Machine.execBootStepTimeout s
  | .bootEvtLen by' v => Sys2Proof.Machine.execBootEvtLen by' v s
  | .rearm by' v => Sys2Proof.Machine.execRearm by' v s
  | .regionCheck readings => Sys2Proof.Machine.execRegionCheck readings s
  | .tempSample sensors => Sys2Proof.Machine.execTempSample sensors s
  | .voltageStep r => Sys2Proof.Machine.execVoltageStep r s
  | .railSettleTimeout r => Sys2Proof.Machine.execRailSettleTimeout r s
  | .railRetry r => Sys2Proof.Machine.execRailRetry r s
  | .pllGlideDone r => Sys2Proof.Machine.execPllGlideDone r s
  | .refLoss => Sys2Proof.Machine.execRefLoss s
  | .refGood => Sys2Proof.Machine.execRefGood s
  | .resetAssert => Sys2Proof.Machine.execResetAssert s
  | .resetRelease => Sys2Proof.Machine.execResetRelease s
  | .railRemoved => Sys2Proof.Machine.execRailRemoved s
  | .inputAccept pin level => Sys2Proof.Machine.execInputAccept pin level s
  | .inputToggle pin => Sys2Proof.Machine.execInputToggle pin s
  | .presenceStuck => Sys2Proof.Machine.execPresenceStuck s
  | .sealDrive => Sys2Proof.Machine.execSealDrive s
  | .sealCompare => Sys2Proof.Machine.execSealCompare s
  | .laserFault g => Sys2Proof.Machine.execLaserFault g s
  | .marginWindow => Sys2Proof.Machine.execMarginWindow s
  | .scanGo by' lane v => Sys2Proof.Machine.execScanGo by' lane v s
  | .scanDone lane disagreements => Sys2Proof.Machine.execScanDone lane disagreements s
  | .latchedRead by' addr => Sys2Proof.Machine.execLatchedRead by' addr s
  | .readClear by' addr => Sys2Proof.Machine.execReadClear by' addr s
  | .registerWrite by' addr v => Sys2Proof.Machine.execRegisterWrite by' addr v s
  | .illegalOpcode cl qid => Sys2Proof.Machine.execIllegalOpcode cl qid s
  | .badOpcode src => Sys2Proof.Machine.execBadOpcode src s
  | .mgmtFramePunt m frame => Sys2Proof.Machine.execMgmtFramePunt m frame s
  | .mgmtEgressStart m => Sys2Proof.Machine.execMgmtEgressStart m s
  | .harnessReplyReceive tag reply => Sys2Proof.Machine.execHarnessReplyReceive tag reply s
  | .debugTapAccess op => Sys2Proof.Machine.execDebugTapAccess op s

end Sys2Proof.Machine
end

