-- ==== Sys2Proof/Machine/Tick.lean ====
section
/-! DEFINITION. What passes with time: one REF tick, taken when no command waits (R44, R83, R607). The clocks of a region
advance by free amounts, and the counts that a state goes on making are counted. What a limit brings about when a count
reaches it is a command of its own. -/

namespace Sys2Proof.Machine

/-- A live 64-bit count of cycles. -/
def countCycles (a n : Nat) (on : Bool) (s : State) : State := if on then addCtr a n s else s

/-- WAIT_COUNT of a queue that waits (R109, R214, R274, R348); it stops at a wait limit, whose WAIT_TIMEOUT is due. -/
def waitTick (n : Nat → Nat) (s : State) (k : Nat) (q : Queue) : Queue :=
  let cl := k / 8192
  let top := if q.waitLimit = 0 then 2 ^ 64 - 1 else Nat.max q.waitCount.toNat q.waitLimit.toNat
  if countsWait s cl (k % 8192) then { q with waitCount := BitVec.ofNat 64 (Nat.min top (q.waitCount.toNat + n cl)) } else q

/-- The wait-for detector of a cluster looks (R106): the closed set it saw before has stood for the cycles that have passed,
or another one begins to stand. A set is compared tick by tick (DESIGN CHOICE, log entry 94). -/
def dldTick (n cl : Nat) (s : State) : State :=
  let w := mget DldWatch.reset s.dld cl
  let m := closedSet s cl
  { s with dld := mput DldWatch.reset s.dld cl (if m = [] then DldWatch.reset
      else if w.members = m then { w with stood := w.stood + n } else { members := m, stood := 0 }) }

/-- The next message that a group hands on is a contribution to itself (R312). -/
def localWaits (s : State) (g : Group) : Bool :=
  match g.step with
  | some t => g.held && !g.dead && t.live && (match ownMsg s g t t.cursor with
      | some m => m.contrib && decide (m.ep = g.ep)
      | none => false)
  | none => false

/-- Counts of the engines of a cluster (R173, R215, R274, R382, R326). -/
def clusterTick (n cl : Nat) (s : State) : State :=
  let s := (List.range 9).foldl (fun s p => countCycles (tileRegs cl p + 0x28) n (!(getTile s cl p).held.isEmpty) s) s
  let s := (List.range 8).foldl (fun s u =>
    countCycles (scuRegs cl u + 0x38) n ((getScu s cl u).txWait && atWork s cl (9 + u))
      (countCycles (scuRegs cl u + 0x30) n (liveWaiting s cl (9 + u)) s)) s
  let s := (List.range 8).foldl (fun s m => countCycles (mvRegs cl m + 0x18) n ((mget Mover.reset s.movers (cl * 8 + m)).txWait && atWork s cl (17 + m)) s) s
  let s := countCycles (puRegs cl + 0x38) n (mget Pue.reset s.pues cl).ask.isSome s
  let late := decide (32 ≤ slotsBusy s cl) &&
    ((mget [] s.arrivals cl).any (fun a => a.slot.isNone && (contributionTo s a).isSome) || s.groups.any (fun e => decide (e.1 / 4096 = cl) && localWaits s e.2))
  countCycles (rlRegs cl + 0x48) n late s

/-- STEP_IDLE of a group with an open step (R353): it saturates. -/
def groupTick (n : Nat → Nat) (k : Nat) (g : Group) (s : State) : State :=
  let live : Bool := match g.step with
    | some t => t.live
    | none => false
  if g.held && live && !g.dead then bumpSat (gsRegs (k / 4096) (k % 4096) + 0x18) (n (k / 4096)) s else s

/-- The device reads what the on-die ECC of its DRAM has reported, and counts it (R199, R227). -/
def readOdecc (s : State) : State :=
  s.odecc.foldl (fun s e => bumpSat (memRegs (e.1 / 8) + 0x80 + 4 * (e.1 % 8)) e.2 s) { s with odecc := [] }

/-- One REF tick; a device held in reset counts nothing. -/
def tick (s : State) : State :=
  if heldInReset s then s
  else
    let ar := Config.arithPerTick s.fresh
    let fw := Config.fwdPerTick s.fresh
    let up := fun (f : Nat → Nat) (l : List W64) => l.zipIdx.map (fun (x : W64 × Nat) => x.1 + BitVec.ofNat 64 (f x.2))
    let s := (List.range 8).foldl (fun s cl => clusterTick (ar cl) cl s) s
    let s := (List.range 8).foldl (fun s cl => dldTick (ar cl) cl s) s
    let s := readOdecc s
    let s := s.groups.foldl (fun s e => groupTick ar e.1 e.2 s) s
    let s := (List.range 8).foldl (fun s r => countCycles (rgRegs r + 0x28) 1 (decide ((getRg s r).level ≠ 0)) s) s
    { s with uptime := s.uptime + 1, arithCount := up ar s.arithCount, fwdCount := up fw s.fwdCount,
             queues := s.queues.map (fun e => (e.1, waitTick ar s e.1 e.2)), fresh := s.fresh + 1 }

end Sys2Proof.Machine
end

