-- ==== Sys2Proof/Safety.lean ====
section
/-! DEFINITION. What statements about runs are made in: a command that completes, an instruction in progress, what an
access or a command leaves alone, and the canonical form of memory. -/

namespace Sys2Proof.Machine

/-- The command answers a next state that satisfies `P`. -/
def Completes (c : Instr) (s : State) (P : State → Prop) : Prop := ∃ t, exec c s = .next t ∧ P t

/-- Memory and poison marks are in their one canonical form (R191). -/
def MemoryWf (s : State) : Prop := canonical 0 s.mem = true ∧ canonical 0 s.poison = true

/-- Every byte and every poison mark of memory is as it was. -/
def KeepsMemory (s t : State) : Prop := (∀ a, memByte t a = memByte s a) ∧ t.poison = s.poison

/-- Instruction `c` of the queue is in progress (R75): read and decoded, its waits met, none of its engine's work held
back. The queue is present and not halted, its tile is not being replaced, and neither its control block (R534) nor the run of
the engine that comes next (R533) meets an error. -/
structure Running (s : State) (cl qid : Nat) (c : Cur) : Prop where
  cur : (getQ s cl qid).cur = some c
  live : (getQ s cl qid).halted = false
  present : absent s cl (engOf qid) = false
  stays : (decide (qid < 9) && (getTile s cl qid).rotating) = false
  started : c.started = true
  decoded : c.decoded = true
  read : c.reread = false
  going : c.parked = false
  busy : c.draining = false
  block : s.bad.contains (.queue cl qid) = false
  healthy : mget 0 s.runs (unitOfQueue cl qid).toNat = 0

/-- Instruction `c` of the queue has been read and decoded and has not started: only its fence and its waits hold it
back (R83). No doorbell has been refused (R71), and neither the control block nor a counter it waits on is lost (R534). -/
structure Ready (s : State) (cl qid : Nat) (c : Cur) : Prop where
  named : validQid qid = true
  cur : (getQ s cl qid).cur = some c
  live : (getQ s cl qid).halted = false
  run : (getQ s cl qid).run = true
  present : absent s cl (engOf qid) = false
  stays : (decide (qid < 9) && (getTile s cl qid).rotating) = false
  started : c.started = false
  decoded : c.decoded = true
  read : c.reread = false
  accepted : (getQ s cl qid).ovfReq = none
  block : s.bad.contains (.queue cl qid) = false
  counters : c.badWait = false ∧ ∀ i < 2, (waitField c.word i).en = true → s.bad.contains (.counter cl (waitField c.word i).sem) = false

/-- Only the queues' registers and the protection generations held have changed. -/
def OnlyQueues (s t : State) : Prop := ∃ qs ps, t = { s with queues := qs, prot := ps }

/-- Queues other than this one read as before. -/
def OtherQueues (cl qid : Nat) (s t : State) : Prop :=
  ∀ cl2 q2, qkey cl2 q2 ≠ qkey cl qid → getQ t cl2 q2 = getQ s cl2 q2

/-- The queue has halted (R100): reason, address of the slot, repeat and PARTIAL are recorded; HEAD and TAIL stand. -/
def HaltedAs (s t : State) (cl qid reason : Nat) (addr : W48) (rep : Nat) (partialOut : Bool) : Prop :=
  (getQ t cl qid).halted = true ∧ (getQ t cl qid).haltReason = BitVec.ofNat 8 reason ∧ (getQ t cl qid).haltAddr = addr ∧
  (getQ t cl qid).repeatIdx = BitVec.ofNat 16 rep ∧ (getQ t cl qid).partialOut = partialOut ∧
  (getQ t cl qid).head = (getQ s cl qid).head ∧ (getQ t cl qid).tail = (getQ s cl qid).tail

/-- The signals a word issues when its instruction completes (R84, R95), the first field's first. -/
def signalsOf (cl qid : Nat) (w : BitVec 256) : List Flight :=
  ((List.range 2).map (sigField w)).filterMap (fun f =>
    if f.en then some { srcCl := cl, srcQid := qid, cl := f.target cl, sem := f.sem, inc := f.inc, remote := f.remote } else none)

/-- Counters of memory errors (R227), of reports that are only counted (R542) and of units that go OFFLINE and are not retired
(R561): what recording an error counts. -/
def recordReg (a : Nat) : Prop :=
  (errRegs + 0x100 ≤ a ∧ a < errRegs + 0x700) ∨ (∃ d < 4, memRegs d ≤ a ∧ a < memRegs d + 0x100) ∨
    (hlRegs + 0x40 ≤ a ∧ a < hlRegs + 0x60)

/-- `x` lies in a 128-byte granule that `[a, a + len)` touches. -/
def near (a len x : Nat) : Prop := 128 * (x / 128) < a + len ∧ a < 128 * (x / 128) + 128

/-- `x` lies in a granule of an event ring in use (R499, R503): where an event or a record is written. -/
def inEventRing (s : State) (x : Nat) : Prop :=
  ∃ v < 8, (getRing s (8 + v)).en = true ∧ near (getRing s (8 + v)).base.toNat (16 * 2 ^ (getRing s (8 + v)).sizeLog2.toNat) x

/-- Registers keep their values but for error counters; bytes and poison marks of memory but for the event rings in use. -/
def RecordsOnly (s t : State) : Prop :=
  (∀ a, ¬ recordReg a → getReg t a = getReg s a) ∧
  ∀ a, ¬ inEventRing s a → memByte t a = memByte s a ∧ granPoison t (a / 64) = granPoison s (a / 64)

/-- The state an engine's program starts from: the instruction in progress is noted in its queue, as it was. -/
def taken (s : State) (cl qid : Nat) (c : Cur) : State := modQ cl qid (fun q => { q with cur := some c }) s

/-- Memory holds no error and no poison, none of it is OFFLINE, the companion holds none of it, and no rotation copies any of
it: what is read is what was written. -/
structure Sound (s : State) : Prop where
  snoop : s.snoop = []
  flaws : s.flaws = []
  poison : s.poison = []
  online : s.err.offline = []
  still : s.tiles.all (fun t => !t.2.rotating) = true

/-- `n` bytes of memory. -/
def bytesAt (s : State) (a n : Nat) : List Byte := (List.range n).map (fun i => memByte s (a + i))

/-- The next `n` bytes of a receive stream (R455), its buffers with what of each is taken and how much it holds. -/
def rxBytes (s : State) (l : List (Nat × Nat × Nat)) (n : Nat) : List Byte :=
  match l with
  | [] => []
  | (b, at', len) :: r =>
    let w := Nat.min n (len - at')
    bytesAt s (bufAddr s b + at') w ++ rxBytes s r (n - w)

/-- The receive stream of a context is in order (R455): its buffers are distinct, can be read (R534) and are the transport's, and
no more of one is taken than it holds. -/
structure RxSound (s : State) (x : Ctx) : Prop where
  distinct : (x.rx.map (fun b => b.1)).Nodup
  whole : ∀ b ∈ x.rx, badBuf s b.1 = false ∧ (getBuf s b.1).held = true ∧ (getBuf s b.1).owner = tftOwner ∧ b.2.1 ≤ b.2.2

/-- The state of a context can be read (R534), and none of a failed one's copies are left (R458). -/
def ContextSound (s : State) (c : Nat) : Prop :=
  s.bad.contains (.context c) = false ∧
  ((getCtx s c).failed = true → ∀ k ∈ (getCtx s c).chans, k.2.copies = [] ∧ k.2.tail = none)

/-- The storage behind a register can be read (R534): a control block, an AR, a counter. -/
def RegSound (s : State) (a : Nat) : Prop :=
  (∀ cl q off, placeOf a = .queue cl q off → s.bad.contains (.queue cl q) = false) ∧
  ∀ cl n, placeOf a = .counter cl n → s.bad.contains (.counter cl n) = false

/-- What memory holds after writes made in this order. -/
def written (s : State) (ws : List (Nat × List Byte)) (x : Nat) : Byte :=
  match ws.reverse.find? (fun w => decide (w.1 ≤ x) && decide (x < w.1 + w.2.length)) with
  | some w => w.2.getD (x - w.1) 0
  | none => memByte s x

/-- A repeat of the instruction has been done (R80, R81, R95): the next one follows, or the instruction has completed; its
signals have been issued; HEAD and TAIL stand, and no other queue has changed. -/
structure RepeatDone (s t : State) (cl qid : Nat) (c : Cur) : Prop where
  more : c.rep < wRepeat c.word → ∃ d, (getQ t cl qid).cur = some d ∧ d.rep = c.rep + 1 ∧ d.word = c.word ∧
    d.slot = c.slot ∧ d.started = true
  last : wRepeat c.word ≤ c.rep → (getQ t cl qid).cur = none
  flights : t.flights = s.flights ++
    (if wRepeat c.word ≤ c.rep then signalsOf cl qid c.word
     else if wEach c.word && (sigField c.word 0).en then (signalsOf cl qid c.word).take 1 else [])
  head : (getQ t cl qid).head = (getQ s cl qid).head
  tail : (getQ t cl qid).tail = (getQ s cl qid).tail
  others : OtherQueues cl qid s t

/-- The instruction is still in progress, in the same repeat: nothing has been signalled, and no other queue has changed. -/
structure StaysInProgress (s t : State) (cl qid : Nat) (c : Cur) : Prop where
  cur : ∃ d, (getQ t cl qid).cur = some d ∧ d.rep = c.rep ∧ d.word = c.word ∧ d.slot = c.slot ∧ d.started = true
  live : (getQ t cl qid).halted = false
  flights : t.flights = s.flights
  head : (getQ t cl qid).head = (getQ s cl qid).head
  tail : (getQ t cl qid).tail = (getQ s cl qid).tail
  others : OtherQueues cl qid s t

/-- Plain registers keep their values but for `[a, a + n)` and error counters. -/
def RegsBut (s t : State) (a n : Nat) : Prop := ∀ x, ¬ recordReg x → ¬ (a ≤ x ∧ x < a + n) → getReg t x = getReg s x

/-- A repeat of a recipe runs in the SCU and stands at instruction `i`, of opcode `op` (R265, R295): its step limit is not
reached, and its slot can be read (R534). -/
structure AtRecipe (s : State) (cl u : Nat) (c : Cur) (i : RInstr) (op : Nat) : Prop where
  running : Running s cl (9 + u) c
  opcode : wOpcode c.word = 0x11
  going : c.resumed = false
  here : recipeAt s cl u = some i
  op : rOp i.word = op
  free : limitReached s cl u = false
  sound : s.bad.contains (.recipe cl u i.slot) = false

/-- No bit of the predicate an instruction executes under is poisoned (R292). -/
def predClean (x : Scu) (i : RInstr) : Prop := ∀ l < 32, (x.predBit (rP i.word) l).2 = false

/-- The active lanes (R268). -/
def activeOf (x : Scu) (i : RInstr) : List Nat :=
  (List.range 32).filter (fun l => (x.predBit (rP i.word) l).1 != rPn i.word)

/-- A recipe instruction has been executed: `x` is the SCU with the effect of the instruction itself, and the recipe goes on
at slot `pc` (R253, R265, R295). The other SCUs, the queue's own state and the counters are as they were. -/
structure RecipeGoes (s t : State) (cl u : Nat) (c : Cur) (i : RInstr) (x : Scu) (pc : Nat) : Prop where
  scu : getScu t cl u = { x with txWait := false, execs := mput 0 x.execs i.slot (i.nth + 1), pc := pc % 2048 }
  others : ∀ cl2 < 8, ∀ u2 < 8, ¬ (cl2 = cl ∧ u2 = u) → getScu t cl2 u2 = getScu s cl2 u2
  steps : getCtr t (scuRegs cl u + 0x10) = getCtr s (scuRegs cl u + 0x10) + 1
  queue : StaysInProgress s t cl (9 + u) c
  sems : t.sems = s.sems

/-- Registers of the block keep their values but for the sticky flags of FPSTAT, which take those of `e` (R149); memory
stays as it is. -/
structure OnlyFlags (s t : State) (cl u : Nat) (e : Exc) : Prop where
  fpstat : getReg t (scuRegs cl u) = getReg (raiseFlags (scuRegs cl u) e s) (scuRegs cl u)
  regs : ∀ a, a ≠ scuRegs cl u → getReg t a = getReg s a
  mem : KeepsMemory s t

/-- Of the vector registers, the lanes `act` of V[D] have changed, to what `f` gives, value and poison; nothing else of the
SCU has. -/
def LanesSet (x y : Scu) (d : Nat) (act : List Nat) (f : Nat → W64 × Bool) : Prop :=
  (∃ v p, y = { x with v := v, vp := p }) ∧
  ∀ r < 16, ∀ l < 32, y.lane r l = if r = d ∧ l ∈ act then f l else x.lane r l

/-- A command has come from its source and its rights are settled (R509 to R512): `u` is the state it is judged in. -/
structure Judged (s u : State) (src : CmdSource) (c : Cmd) : Prop where
  serves : tackServes s = true
  free : sourcePaused s src = false
  packet : ∃ q w, takePacketFrom src s = some (q, w) ∧ pkIsReply q = false ∧ pkOp q = pkOp c.packet ∧
    rightsOf src q w = (.go c.pl, u) ∧ c.packet = if (replyKey u src q).isSome then q.take (32 + pkLen q) else q
  source : c.src = src

/-- The command is for this device. -/
def ForThis (u : State) (c : Cmd) : Prop := pkTarget c.packet = 15 ∨ pkTarget c.packet = u.harness.addr.toNat

/-- Its header is well formed, it is for this device, its source may send it now, and its PLEN and pad bytes are those of
its layout (R475, R476, R508, R513, R516, R518). -/
structure Entitled (u : State) (c : Cmd) : Prop where
  header : headerOffence c.src c.packet c.packet.length = none
  here : ForThis u c
  right : ∃ pl pres master, opRow (pkOp c.packet) = some (pl, pres, master) ∧ c.pl.val ≤ pl ∧
    (master = true → actingMaster u = true ∨ ∃ q p, c.src = .harness q p) ∧
    (pres = true → u.sig.sealClosed = true ∧ presence u = true)
  role : ¬ ((u.harness.role = 2 ∨ u.harness.role = 3) ∧ pkOp c.packet ∈ [0x10, 0x13, 0x15])
  fits : lengthOffence c.packet = none ∧ padOffence c.packet = none

/-- Groups are as they were, but that one may have lost a reservation to an error (R356, R538). -/
def GroupsKept (s t : State) : Prop :=
  ∀ k, ∃ b, mget Group.reset t.groups k = { mget Group.reset s.groups k with lost := b }

/-- The command has been answered with `r`; beside that, `t` is `v` in all that a reply does not carry. -/
structure Answered (v t : State) (c : Cmd) (r : Reply) : Prop where
  kept : t.jobs = v.jobs ∧ t.ctxs = v.ctxs ∧ GroupsKept v t ∧ t.queues = v.queues ∧ t.sems = v.sems ∧ t.prot = v.prot ∧
    t.boot = v.boot ∧ t.fuses = v.fuses ∧ t.flash = v.flash ∧ t.mgmt = v.mgmt ∧ t.presWait = v.presWait
  counted : getReg t (evtRegs + 0x28) = if r.status = 0 then satInc 1 (getReg v (evtRegs + 0x28)) else getReg v (evtRegs + 0x28)
  sent : ∀ q p, c.src = .harness q p → heldInReset v = false →
    t.harness.sent = v.harness.sent ++ [.reply (replyBytes v c.packet r)]

/-- The rows of the command table with their opcodes (R516). -/
def commandRows (src : CmdSource) : List (Instr × Nat) :=
  [(.getStatus src, 0x01), (.readErrors src, 0x02), (.attest src, 0x03), (.memRead src, 0x04), (.memWrite src, 0x05),
   (.loadJob src, 0x10), (.unloadJob src, 0x11), (.resetUnit src, 0x12), (.ctxOpen src, 0x13), (.ctxClose src, 0x14),
   (.groupCreate src, 0x15), (.groupDestroy src, 0x16), (.abortGroup src, 0x17), (.runCupping src, 0x18),
   (.portConfig src, 0x20), (.harnessSet src, 0x21), (.mgmtConfig src, 0x22), (.setProtection src, 0x23),
   (.fwUpdate src, 0x24), (.enrolKey src, 0x30), (.debugUnlock src, 0x31), (.fuseWrite src, 0x32), (.farrierUpdate src, 0x33)]

end Sys2Proof.Machine
end

