-- ==== Sys2Proof/WellFormed.lean ====
section
/-! DEFINITION. Which commands name things the device has, with operands of the shape their rule gives: a check of
syntax alone. The machine does not need it: `exec` gives every command an outcome. -/

namespace Sys2Proof

/-- A queue identifier of R112: an engine of a cluster, 0x00 to 0x19, or a collective group queue, 0x1000 to 0x1FFF. -/
def qidWf (q : BitVec 13) : Bool := decide (q.toNat < 26) || decide (0x1000 ≤ q.toNat)

/-- A command packet fits its slot of a ring (R499, R506), and has its header. -/
def packetWf (p : List Byte) : Bool := decide (32 ≤ p.length) && decide (p.length ≤ 2048)

/-- Where a command packet comes from: an IPv4 peer has 32 bits of address. -/
def CmdSource.wf : CmdSource → Bool
  | .ring _ => true
  | .mgmt _ p _ ip v6 _ => packetWf p && (v6 || decide (ip.toNat < 2 ^ 32))
  | .harness p _ => packetWf p

/-- A queue initiator names a queue. -/
def Initiator.wf : Initiator → Bool
  | .engine _ q => qidWf q
  | _ => true

/-- One poison bit for each aligned 64-byte granule that `len` bytes at offset `a` touch, or none at all. -/
def poisonWf (a len : Nat) (poison : List Bool) : Bool :=
  poison.isEmpty || decide (poison.length = (a % 64 + len + 63) / 64)

/-- A worm has one head flit and at most 71 data flits (R463, R464). -/
def Worm.wf (w : Worm) : Bool := decide (w.bytes.length ≤ 4544) && poisonWf 0 w.bytes.length w.poison

def ConfigItem.wf : ConfigItem → Bool
  | .route _ n ports => decide (n.toNat ≤ 8) && decide (ports.length = n.toNat)
  | _ => true

/-- Kinds of unit that in-field testing knows, by TYPE of R540, with their numbers (R549). -/
def UnitRef.wf (u : UnitRef) : Bool :=
  match u.kind.toNat with
  | 1 => decide (u.index < 9)
  | 2 => decide (u.index < 8)
  | 4 => decide (u.index = 0)
  | 5 => decide (u.index = 0)
  | _ => false

def FlitCargo.wf : FlitCargo → Bool
  | .control _ q => qidWf q
  | _ => true

/-- Bytes of an access: not none, and inside the address space (R47). -/
def spanWf (a : W48) (len : Nat) : Bool := decide (0 < len) && decide (a.toNat + len ≤ 2 ^ 48)

def TapOp.wf : TapOp → Bool
  | .readMem a n => spanWf a n
  | .writeMem a d => spanWf a d.length
  | _ => true

/-- The command is well formed. -/
def Instr.wf : Instr → Bool
  | .doorbell i _ q _ => i.wf && qidWf q
  | .runSet i _ q _ => i.wf && qidWf q
  | .runClear i _ q _ => i.wf && qidWf q
  | .resume i _ q _ => i.wf && qidWf q
  | .skip i _ q _ => i.wf && qidWf q
  | .resetPtrs i _ q _ => i.wf && qidWf q
  | .waitMet _ q => qidWf q
  | .waitTimeout _ q => qidWf q
  | .nop _ q => qidWf q
  | .fence _ q => qidWf q
  | .fenceComplete _ q => qidWf q
  | .arbase _ q => qidWf q
  | .arstep _ q => qidWf q
  | .semset _ q => qidWf q
  | .halt _ q => qidWf q
  | .signalApply _ q _ _ => qidWf q
  | .semWrite i _ _ _ => i.wf
  | .semAdd i _ _ => i.wf
  | .dldRecordRelease i _ _ => i.wf
  | .ovfCfgWrite i _ _ => i.wf
  | .gsAbort i _ _ _ => i.wf
  | .doseTestGo i _ => i.wf
  | .poolApply i _ _ => i.wf
  | .ownResWrite i _ _ _ => i.wf
  | .lgCfgWrite i _ _ => i.wf
  | .portCfgWrite i _ _ => i.wf
  | .ftWrite i _ _ => i.wf
  | .ftRead i _ _ => i.wf
  | .pfcReceive _ _ quanta _ => decide (quanta.length = 8)
  | .txHandover _ q => qidWf q
  | .flitUncorrectable src dst _ c => decide (src ≠ dst) && c.wf
  | .bundleLaneFail src dst _ _ => decide (src ≠ dst)
  | .cvuData8 i _ _ _ => i.wf
  | .cvuData16 i _ _ _ => i.wf
  | .cvuData32 i _ _ _ => i.wf
  | .cvuStart i _ _ => i.wf
  | .cvuFinish i _ _ => i.wf
  | .wormRoute _ w => w.wf
  | .configReceive _ c => decide (c.1.toNat ≤ 8) && c.2.wf
  | .companionRead _ a n _ _ => spanWf a n
  | .companionWrite _ a d p _ => spanWf a d.length && poisonWf a.toNat d.length p
  | .ringEnable i _ _ => i.wf
  | .ringDoorbell i _ _ => i.wf
  | .irqArm i _ _ => i.wf
  | .getStatus c => c.wf
  | .readErrors c => c.wf
  | .attest c => c.wf
  | .memRead c => c.wf
  | .memWrite c => c.wf
  | .loadJob c => c.wf
  | .unloadJob c => c.wf
  | .resetUnit c => c.wf
  | .ctxOpen c => c.wf
  | .ctxClose c => c.wf
  | .groupCreate c => c.wf
  | .groupDestroy c => c.wf
  | .abortGroup c => c.wf
  | .runCupping c => c.wf
  | .portConfig c => c.wf
  | .harnessSet c => c.wf
  | .mgmtConfig c => c.wf
  | .setProtection c => c.wf
  | .fwUpdate c => c.wf
  | .enrolKey c => c.wf
  | .debugUnlock c => c.wf
  | .fuseWrite c => c.wf
  | .farrierUpdate c => c.wf
  | .jobStop _ q => qidWf q
  | .errAckWrite i _ => i.wf
  | .errHandledWrite i _ => i.wf
  | .testDue u => u.wf
  | .caseDone u _ => u.wf
  | .deferInterval u => u.wf
  | .conditionalReplay u _ _ _ _ => u.wf
  | .hlClear i _ => i.wf
  | .bootEvtLen i _ => i.wf
  | .rearm i _ => i.wf
  | .regionCheck r => decide (r.length = 8)
  | .tempSample t => decide (t.length = 32)
  | .scanGo i _ _ => i.wf
  | .latchedRead i a => i.wf && decide (a.toNat % 4 = 0)
  | .readClear i a => i.wf && decide (a.toNat % 4 = 0)
  | .registerWrite i a _ => i.wf && decide (a.toNat % 4 = 0)
  | .illegalOpcode _ q => qidWf q
  | .badOpcode c => c.wf
  | .debugTapAccess op => op.wf
  | .deadlockConfirm _ => true
  | .mtMmul _ _ => true
  | .mtWclear _ _ => true
  | .blockAccepted _ _ => true
  | .rotation _ _ => true
  | .rotationCopyDone _ _ => true
  | .mvMove _ _ => true
  | .descriptorFetch _ _ => true
  | .moverRxData _ _ => true
  | .moverTxAccept _ _ => true
  | .patrolScrub _ => true
  | .rowRepair _ _ => true
  | .scuLoad _ _ => true
  | .scuRun _ _ => true
  | .rEnd _ _ => true
  | .rJmp _ _ => true
  | .rBrnz _ _ => true
  | .rBrz _ _ => true
  | .rBeos _ _ => true
  | .rSmovi _ _ => true
  | .rSadd _ _ => true
  | .rSmov _ _ => true
  | .rVbcast _ _ => true
  | .rSld _ _ => true
  | .rSst _ _ => true
  | .rGet _ _ => true
  | .getRxData _ _ => true
  | .rPut _ _ => true
  | .putTxAccept _ _ => true
  | .rLd _ _ => true
  | .rSt _ _ => true
  | .rGather _ _ => true
  | .rScatter _ _ => true
  | .rCompact _ _ => true
  | .rLaneid _ _ => true
  | .rAdd _ _ => true
  | .rSub _ _ => true
  | .rMul _ _ => true
  | .rFma _ _ => true
  | .rDiv _ _ => true
  | .rSqrt _ _ => true
  | .rMin _ _ => true
  | .rMax _ _ => true
  | .rAbs _ _ => true
  | .rNeg _ _ => true
  | .rCvt _ _ => true
  | .rAnd _ _ => true
  | .rOr _ _ => true
  | .rXor _ _ => true
  | .rShl _ _ => true
  | .rShr _ _ => true
  | .rCmp _ _ => true
  | .rPlog _ _ => true
  | .rRsum _ _ => true
  | .rRmax _ _ => true
  | .rRmin _ _ => true
  | .rRcount _ _ => true
  | .rSort _ _ => true
  | .rMerge _ _ => true
  | .rTopk _ _ => true
  | .rCrc _ _ => true
  | .stepLimit _ _ => true
  | .contributionDispatch _ => true
  | .clAllreduce _ _ => true
  | .clReducescatter _ _ => true
  | .clAllgather _ _ => true
  | .clBroadcast _ _ => true
  | .clAlltoall _ _ => true
  | .clAlltoallv _ _ => true
  | .stepOpen _ _ => true
  | .stepComplete _ _ => true
  | .groupIdle _ _ => true
  | .puStep _ => true
  | .puRows _ => true
  | .doseEvaluate => true
  | .doseAnswer _ => true
  | .frameStart _ _ => true
  | .frameHeader _ _ _ => true
  | .frameEnd _ _ _ => true
  | .egressStart _ _ => true
  | .frameTxDone _ => true
  | .ageDrop _ _ _ => true
  | .auditPass _ => true
  | .portLinkDown _ => true
  | .portLinkUp _ => true
  | .wheelSlot _ _ => true
  | .tatClamp _ _ => true
  | .pfcPauseExpiry _ _ _ => true
  | .pfcRepeat _ _ => true
  | .dataPacketReceive _ _ => true
  | .taggedPacketReceive _ _ => true
  | .writePacketReceive _ _ => true
  | .ackPacketReceive _ _ => true
  | .ackDelayExpiry _ _ => true
  | .packetSend _ _ _ => true
  | .resendTimeout _ _ _ => true
  | .helloReceive _ _ => true
  | .aliveSend => true
  | .aliveReceive _ _ _ => true
  | .standbyTakeover => true
  | .commitReceive _ => true
  | .evtosFlitReplay => true
  | .evtosLaneFail _ => true
  | .evtosLinkDown => true
  | .evtosLinkUp => true
  | .inject => true
  | .arpReply _ _ => true
  | .echoReply _ _ => true
  | .presenceWaitEnd => true
  | .timeoutPresence => true
  | .scoreHalving => true
  | .bootAttempt => true
  | .bootStepComplete _ _ => true
  | .bootStepTimeout => true
  | .voltageStep _ => true
  | .railSettleTimeout _ => true
  | .railRetry _ => true
  | .pllGlideDone _ => true
  | .refLoss => true
  | .refGood => true
  | .resetAssert => true
  | .resetRelease => true
  | .railRemoved => true
  | .inputAccept _ _ => true
  | .inputToggle _ => true
  | .presenceStuck => true
  | .sealDrive => true
  | .sealCompare => true
  | .laserFault _ => true
  | .marginWindow => true
  | .scanDone _ _ => true
  | .mgmtFramePunt _ _ => true
  | .mgmtEgressStart _ => true
  | .harnessReplyReceive _ _ => true

end Sys2Proof
end

