-- ==== Sys2Proof/Certificates/Slice0/Obligations.lean ====
section
/-! DEFINITION. What is claimed of the machine. Each statement names the rule of the spec it formalises, or says that it is
derived. A command "completes" where `exec` answers a next state: the hypotheses speak of the state and the operands alone. -/

open Sys2Proof Sys2Proof.Machine

/-! ### The machine as a whole -/

/-- A step runs the command at the front of the queue, with the rest of the queue waiting. -/
def Obligations.StepRunsFrontCommand : Prop :=
  ∀ (c : Instr) (rest : List Instr) (s : State), s.pending = c :: rest → step s = exec c { s with pending := rest }

/-- With no command waiting, one REF tick passes (log entry 8): out of reset the uptime count moves on by 1 and memory stays
as it is; held in reset nothing moves. -/
def Obligations.IdleStepTicks : Prop :=
  ∀ s : State, s.pending = [] →
    ∃ t, step s = .next t ∧ t.pending = [] ∧ KeepsMemory s t ∧
      (heldInReset s = true → t = s) ∧ (heldInReset s = false → t.uptime = s.uptime + 1)

/-- Every command answers a next state, but for those that name what the device does not have: a queue that is not one of
R112, a unit that in-field testing does not know, the bundle of a die to itself. -/
def Obligations.EveryCommandAnswers : Prop :=
  ∀ (c : Instr) (s : State), c.wf = true →
    (∀ u, (c = .testDue u ∨ (∃ x, c = .caseDone u x) ∨ c = .deferInterval u ∨ ∃ a b d e, c = .conditionalReplay u a b d e) →
      hUnitExists s (unitKey u) = true) →
    ∃ t, exec c s = .next t

/-- A command that names no queue of R112 stops with the fault that says so, whatever the state. -/
def namelessQueueFaultsClaim : Prop :=
  ∀ (i : Initiator) (cl : Fin 8) (q : BitVec 13) (ctl : W32) (n : BitVec 17) (s : State), qidWf q = false →
    ∀ c ∈ [Instr.doorbell i cl q n, .runSet i cl q ctl, .runClear i cl q ctl, .resume i cl q ctl, .skip i cl q ctl,
      .resetPtrs i cl q ctl, .waitMet cl q, .waitTimeout cl q, .nop cl q, .fence cl q, .fenceComplete cl q, .arbase cl q,
      .arstep cl q, .semset cl q, .halt cl q, .illegalOpcode cl q, .txHandover cl q, .jobStop cl q],
      exec c s = .fault .noSuchUnit

/-- After reset every queue that is present is STOPPED with HEAD and TAIL at 0, every counter is 0 with its overflow flag
clear, no ring is enabled, no context is open, no job is loaded, no record has been written, and the uptime count is 0. -/
def Obligations.ResetState : Prop :=
  (∀ cl < 8, ∀ q, validQid q = true → absent State.reset cl (engOf q) = false →
    queueState State.reset cl q = 4 ∧ (getQ State.reset cl q).head = 0 ∧ (getQ State.reset cl q).tail = 0) ∧
  (∀ cl n, getSem State.reset cl n = { value := 0, ovf := false }) ∧
  (∀ r, (getRing State.reset r).en = false) ∧ (∀ c, (getCtx State.reset c).isOpen = false) ∧
  State.reset.jobs = [] ∧ State.reset.err.next = 0 ∧ State.reset.uptime = 0 ∧ State.reset.pending = []

/-- Memory and the poison marks after reset are in their canonical form. -/
def Obligations.MemoryWfAtReset : Prop := MemoryWf State.reset

/-- No step ever leaves the canonical form of memory and poison marks. -/
def Obligations.MemoryWfKept : Prop :=
  ∀ s t : State, MemoryWf s → step s = .next t → MemoryWf t

/-- No step changes what part the device is: its grade, its LPDDR6 and its base MAC address. Its straps are sampled anew
only where it leaves reset, with the uptime count at 0 (R473, R613). -/
def Obligations.PartIsFixed : Prop :=
  ∀ s t : State, step s = .next t → t.part.grade = s.part.grade ∧ t.part.lpdGib = s.part.lpdGib ∧
    t.part.baseMac = s.part.baseMac ∧ (t.uptime ≠ 0 → t.part = s.part)

/-- No command takes from the commands that wait behind it, or adds to them: only a step takes the one in front. -/
def Obligations.PendingUntouched : Prop :=
  ∀ (c : Instr) (s t : State), exec c s = .next t → t.pending = s.pending

/-! ### Engine queues (02_queues_and_instructions.md) -/

/-- An initiator may write an offset of a queue's control block: it has the DOORBELL right there, and the spare role is
written by the MC only. -/
def MayRing (s : State) (i : Initiator) (cl qid off : Nat) : Prop :=
  validQid qid = true ∧ (qid = 8 → i = .mc) ∧ mayAccess s i (qcbBase cl qid + off) 4 .doorbell = true ∧
    absent s cl (engOf qid) = false

/-- R68, R71: a doorbell of COUNT that fits the free space adds COUNT to TAIL and changes nothing else but the protection
generations held; a COUNT of 0 has no effect; one beyond the free space leaves TAIL as it is and counts in DB_REJECT, and
the queue halts with QUEUE_OVERFLOW at the slot of TAIL: at once where no instruction has started and no block of one is
held, else at the boundary of the one in progress. A queue that is already HALTED keeps its record. -/
def Obligations.Doorbell : Prop :=
  ∀ (i : Initiator) (cl : Fin 8) (q : BitVec 13) (n : BitVec 17) (s : State), MayRing s i cl.val q.toNat 0x14 →
    let x := getQ s cl.val q.toNat
    let free := 2 ^ x.sizeLog2.toNat - (x.tail - x.head).toNat
    let rejects := BitVec.ofNat 32 (Nat.min 0xFFFF_FFFF (x.dbReject.toNat + 1))
    let slot := BitVec.ofNat 48 (x.qbase.toNat + x.tail.toNat % 2 ^ x.sizeLog2.toNat * 32)
    let busy := (∃ c, x.cur = some c ∧ c.started = true) ∨ queueDrained s cl.val q.toNat = false
    (n.toNat = 0 → exec (.doorbell i cl q n) s = .next s) ∧
    (0 < n.toNat → n.toNat ≤ free → Completes (.doorbell i cl q n) s (fun t =>
      (∃ g, getQ t cl.val q.toNat = { x with tail := x.tail + BitVec.ofNat 32 n.toNat, gen := g }) ∧
      OtherQueues cl.val q.toNat s t ∧ OnlyQueues s t)) ∧
    (free < n.toNat → x.halted = true → Completes (.doorbell i cl q n) s (fun t =>
      getQ t cl.val q.toNat = { x with dbReject := rejects } ∧ OtherQueues cl.val q.toNat s t ∧ OnlyQueues s t)) ∧
    (free < n.toNat → x.halted = false → busy → Completes (.doorbell i cl q n) s (fun t =>
      getQ t cl.val q.toNat = { x with dbReject := rejects, ovfReq := some (x.ovfReq.getD slot) } ∧
      OtherQueues cl.val q.toNat s t ∧ OnlyQueues s t)) ∧
    (free < n.toNat → x.halted = false → ¬ busy → Completes (.doorbell i cl q n) s (fun t =>
      HaltedAs s t cl.val q.toNat 0x0C slot 0 false ∧ (getQ t cl.val q.toNat).dbReject = rejects ∧
      OtherQueues cl.val q.toNat s t ∧ t.flights = s.flights ∧ t.sems = s.sems))

/-- R74 and R76 on a queue that is present: a write with RUN 1 starts a stopped queue whose configuration is valid and sets
CFG_ERR, leaving RUN 0, where it is not valid; a write with RUN 0 clears RUN. RESET_PTRS (R77) in STOPPED, and in HALTED for
a reason that is not terminal, clears HEAD and TAIL and the record of a halt. (That a HALTED queue stays so is the model's
choice, log entry 89.) -/
def runBitsClaim : Prop :=
  ∀ (i : Initiator) (cl : Fin 8) (q : BitVec 13) (s : State), MayRing s i cl.val q.toNat 0 →
    let x := getQ s cl.val q.toNat
    -- a CTL write that keeps SIZE_LOG2 and both interrupt enables as they are
    let ctl : W32 := BitVec.ofNat 32 (x.sizeLog2.toNat * 256 + boolNat x.haltIrqEn * 32 + boolNat x.emptyIrqEn * 64)
    (x.run = false → queueConfigOk s x = true →
      Completes (.runSet i cl q ctl) s (fun t => (getQ t cl.val q.toNat).run = true ∧ (getQ t cl.val q.toNat).cfgErr = false ∧
        (getQ t cl.val q.toNat).head = x.head ∧ (getQ t cl.val q.toNat).tail = x.tail ∧
        ∃ qs ps, t = { s with queues := qs, prot := ps })) ∧
    (x.run = false → queueConfigOk s x = false →
      Completes (.runSet i cl q ctl) s (fun t => getQ t cl.val q.toNat = { x with cfgErr := true } ∧ ∃ qs, t = { s with queues := qs })) ∧
    (x.run = true →
      Completes (.runClear i cl q ctl) s (fun t => (getQ t cl.val q.toNat).run = false ∧
        (getQ t cl.val q.toNat).head = x.head ∧ (getQ t cl.val q.toNat).tail = x.tail ∧
        ∃ qs ps, t = { s with queues := qs, prot := ps })) ∧
    (x.run = false →
      (queueState s cl.val q.toNat = 4 ∨ (queueState s cl.val q.toNat = 3 ∧ terminal x.haltReason.toNat = false)) →
      Completes (.resetPtrs i cl q ctl) s (fun t => (getQ t cl.val q.toNat).head = 0 ∧ (getQ t cl.val q.toNat).tail = 0 ∧
        (getQ t cl.val q.toNat).haltReason = 0 ∧ (getQ t cl.val q.toNat).cur = none ∧
        (getQ t cl.val q.toNat).halted = x.halted ∧ OtherQueues cl.val q.toNat s t ∧ RecordsOnly s t ∧
        ((x.emptyIrqEn = false ∨ x.head = x.tail) → ∃ qs, t = { s with queues := qs }))) ∧
    (x.run = false → (queueState s cl.val q.toNat ≠ 4 ∧ (queueState s cl.val q.toNat ≠ 3 ∨ terminal x.haltReason.toNat = true)) →
      Completes (.resetPtrs i cl q ctl) s (fun t => getQ t cl.val q.toNat = x))

/-- R77, R78, R79: in HALTED for a reason that is not terminal, with a valid configuration, RESUME keeps the halted
instruction, to be read again, and SKIP abandons it (but for QUEUE_OVERFLOW, which halts no instruction, and NONE, whose
instruction has run); both leave HALTED. Where no instruction is in progress then, a doorbell refused meanwhile halts the
queue with QUEUE_OVERFLOW (R71). A terminal reason ignores both. -/
def resumeAndSkipClaim : Prop :=
  ∀ (i : Initiator) (cl : Fin 8) (q : BitVec 13) (s : State), MayRing s i cl.val q.toNat 0 →
    let x := getQ s cl.val q.toNat
    let ctl : W32 := BitVec.ofNat 32 (boolNat x.run + x.sizeLog2.toNat * 256 + boolNat x.haltIrqEn * 32 + boolNat x.emptyIrqEn * 64)
    x.halted = true →
    (terminal x.haltReason.toNat = true →
      Completes (.resume i cl q ctl) s (fun t => getQ t cl.val q.toNat = x) ∧
      Completes (.skip i cl q ctl) s (fun t => getQ t cl.val q.toNat = x)) ∧
    (terminal x.haltReason.toNat = false → queueConfigOk s x = true → x.haltReason ≠ 0 → x.haltReason ≠ 0x0C →
      let drained := queueDrained s cl.val q.toNat
      let begun := ∃ c, x.cur = some c ∧ c.started = true
      let refused := fun (t : State) (a : W48) => (getQ t cl.val q.toNat).halted = true ∧
        (getQ t cl.val q.toNat).haltReason = 0x0C ∧ (getQ t cl.val q.toNat).haltAddr = a ∧ (getQ t cl.val q.toNat).ovfReq = none
      (x.ovfReq = none ∨ drained = false ∨ begun → Completes (.resume i cl q ctl) s (fun t =>
        (getQ t cl.val q.toNat).halted = false ∧ (getQ t cl.val q.toNat).head = x.head ∧
        (getQ t cl.val q.toNat).cur = x.cur.map (fun c => { c with reread := true, liveWait := false, parked := !x.run }) ∧
        KeepsMemory s t)) ∧
      (x.ovfReq = none ∨ drained = false → Completes (.skip i cl q ctl) s (fun t =>
        (getQ t cl.val q.toNat).halted = false ∧ (getQ t cl.val q.toNat).head = x.head ∧
        (getQ t cl.val q.toNat).cur = none ∧ KeepsMemory s t)) ∧
      (∀ a, x.ovfReq = some a → drained = true → ¬ begun → Completes (.resume i cl q ctl) s (fun t => refused t a)) ∧
      (∀ a, x.ovfReq = some a → drained = true → Completes (.skip i cl q ctl) s (fun t => refused t a)))

/-- How software starts, stops, resumes and resets a queue. -/
def Obligations.QueueControl : Prop := runBitsClaim ∧ resumeAndSkipClaim

/-- R83: an instruction that has been decoded starts only when every enabled wait field is met, and else its queue is
WAITING, its count starting from 0 (R109); a fence of its flags is met first (R97), and moves the queue to the newest
protection generation (R98). No wait changes a counter. -/
def waitStartsOrWaitsClaim : Prop :=
  ∀ (cl : Fin 8) (q : BitVec 13) (s : State) (c : Cur), Ready s cl.val q.toNat c →
    let x := getQ s cl.val q.toNat
    let fenced := wFence c.word || wYield c.word
    let met := ∀ i < 2, (waitField c.word i).en = true →
      (waitField c.word i).thresh ≤ (getSem s cl.val (waitField c.word i).sem).value.toNat
    (fenced = true → queueDrained s cl.val q.toNat = false →
      Completes (.waitMet cl q) s (fun t => getQ t cl.val q.toNat = x ∧ OtherQueues cl.val q.toNat s t ∧ OnlyQueues s t)) ∧
    ((fenced = true → queueDrained s cl.val q.toNat = true) →
      (met → Completes (.waitMet cl q) s (fun t =>
        getQ t cl.val q.toNat = { x with cur := some { c with waiting := false, started := true },
                                         gen := if fenced then newestGen s else x.gen } ∧
        OtherQueues cl.val q.toNat s t ∧ OnlyQueues s t)) ∧
      (¬ met → Completes (.waitMet cl q) s (fun t =>
        getQ t cl.val q.toNat = { x with cur := some { c with waiting := true },
                                         waitCount := if c.waiting then x.waitCount else 0,
                                         gen := if fenced then newestGen s else x.gen } ∧
        OtherQueues cl.val q.toNat s t ∧ OnlyQueues s t)))

/-- R67: the slot at HEAD is read as one word, HEAD moving past it. The slot is clean mapped memory that the companion does
not hold and no rotation copies, no doorbell has been refused, and DEPTH does not reach 0 under EMPTY_IRQ_EN. -/
def slotReadClaim : Prop :=
  ∀ (cl : Fin 8) (q : BitVec 13) (s : State),
    let x := getQ s cl.val q.toNat
    let a := slotAddr x x.head
    validQid q.toNat = true → x.cur = none → x.run = true → x.halted = false → x.head ≠ x.tail →
    (x.emptyIrqEn = false ∨ x.head + 1 ≠ x.tail) → absent s cl.val (engOf q.toNat) = false →
    (decide (q.toNat < 9) && (getTile s cl.val q.toNat).rotating) = false →
    x.ovfReq = none → s.bad.contains (.queue cl.val q.toNat) = false → inRotation s a 32 = false →
    memMapped s a 32 = true → s.snoop = [] → s.flaws = [] →
    (∀ i < 32, granPoison s ((a + i) / 64) = false ∧ ∀ r, regionOf s (a + i) = some r → regionOffline s r = false) →
    Completes (.waitMet cl q) s (fun t =>
      (getQ t cl.val q.toNat).head = x.head + 1 ∧ (getQ t cl.val q.toNat).tail = x.tail ∧
      ∃ c, (getQ t cl.val q.toNat).cur = some c ∧ c.slot = BitVec.ofNat 48 a ∧ c.count = x.head ∧ c.reread = false ∧
        c.word = BitVec.ofNat 256 (leNat ((List.range 32).map (fun i => memByte s (a + i)))))

/-- R109: a queue that waits, or that its engine makes wait (R214, R274, R348), halts with WAIT_TIMEOUT at its instruction
when its count has reached its wait limit, not before, its signals not issued (R104). Where the closed set that holds it is
due, the set halts (R110). -/
def waitTimeoutHaltsClaim : Prop :=
  ∀ (cl : Fin 8) (q : BitVec 13) (s : State) (c : Cur), validQid q.toNat = true →
    (getQ s cl.val q.toNat).cur = some c → countsWait s cl.val q.toNat = true →
    let x := getQ s cl.val q.toNat
    (x.waitLimit ≠ 0 → x.waitLimit ≤ x.waitCount → (∀ m ∈ dueSet s cl.val, m.1 ≠ q.toNat) →
      Completes (.waitTimeout cl q) s (fun t =>
        HaltedAs s t cl.val q.toNat 0x08 c.slot c.rep c.wrote ∧ (getQ t cl.val q.toNat).waitCount = x.waitCount ∧
        OtherQueues cl.val q.toNat s t ∧ t.flights = s.flights ∧ t.sems = s.sems)) ∧
    ((x.waitLimit = 0 ∨ x.waitCount < x.waitLimit) → exec (.waitTimeout cl q) s = .next s) ∧
    (x.waitLimit ≠ 0 → x.waitLimit ≤ x.waitCount → (∃ m ∈ dueSet s cl.val, m.1 = q.toNat) →
      exec (.waitTimeout cl q) s = exec (.deadlockConfirm cl) s)

/-- How a queue reads its slot, meets its waits, and runs out of them. -/
def Obligations.QueueProgress : Prop := slotReadClaim ∧ waitStartsOrWaitsClaim ∧ waitTimeoutHaltsClaim

/-- R86 and R95: NOP, ARBASE, ARSTEP and SEMSET, once running, complete: their signals are issued, HEAD and TAIL stand,
and beside what the opcode names nothing of the queue changes, unless a refused doorbell halts it at the boundary (R71).
SEMSET sets a counter that an error had lost (R534) all the same. -/
def Obligations.CommonOpcodes : Prop :=
  ∀ (cl : Fin 8) (q : BitVec 13) (s : State) (c : Cur), validQid q.toNat = true → Running s cl.val q.toNat c →
    wRepeat c.word ≤ c.rep →
    let x := getQ s cl.val q.toNat
    let w := c.word
    let a := wOp w 192 4
    let refused := queueDrained s cl.val q.toNat && x.ovfReq.isSome
    let done := fun (i : Instr) (ars : List AR) => Completes i s (fun t =>
      t.flights = s.flights ++ signalsOf cl.val q.toNat w ∧ (getQ t cl.val q.toNat).cur = none ∧
      (getQ t cl.val q.toNat).ars = ars ∧ (getQ t cl.val q.toNat).head = x.head ∧ (getQ t cl.val q.toNat).tail = x.tail ∧
      (getQ t cl.val q.toNat).halted = refused ∧ (refused = true → (getQ t cl.val q.toNat).haltReason = 0x0C) ∧
      OtherQueues cl.val q.toNat s t ∧ RecordsOnly s t ∧
      ∀ cl2 n, ¬ (i = .semset cl q ∧ cl2 = cl.val ∧ n = wOp w 192 12) → n < 4096 → getSem t cl2 n = getSem s cl2 n)
    (wOpcode w = 0 → done (.nop cl q) x.ars) ∧
    (wOpcode w = 2 → done (.arbase cl q)
      (setAt x.ars a { arOf x a with base := BitVec.ofNat 48 (wOp w 200 48) })) ∧
    (wOpcode w = 3 → done (.arstep cl q)
      (setAt x.ars a { arOf x a with stride := BitVec.ofNat 28 (wOp w 200 28), wrap := BitVec.ofNat 28 (wOp w 228 28) })) ∧
    (wOpcode w = 4 → (s.bad.contains (.counter cl.val (wOp w 192 12)) = false → done (.semset cl q) x.ars) ∧
      Completes (.semset cl q) s (fun t =>
        getSem t cl.val (wOp w 192 12) = { value := BitVec.ofNat 32 (wOp w 208 32), ovf := false }))

/-- R86: HALT halts with NONE at its own slot, without signalling. -/
def haltOpcodeClaim : Prop :=
  ∀ (cl : Fin 8) (q : BitVec 13) (s : State) (c : Cur), validQid q.toNat = true → Running s cl.val q.toNat c →
    wOpcode c.word = 5 →
    Completes (.halt cl q) s (fun t =>
      HaltedAs s t cl.val q.toNat 0 c.slot c.rep c.wrote ∧ t.flights = s.flights ∧ t.sems = s.sems ∧
      OtherQueues cl.val q.toNat s t)

/-- R97: a FENCE occupies its queue until its condition is met; then its signals are issued and the queue goes on. PEER
waits for the acknowledgement of every send, and a send that is lost halts the queue with RESOURCE_LOST (R458). -/
def Obligations.Fence : Prop :=
  ∀ (cl : Fin 8) (q : BitVec 13) (s : State) (c : Cur), validQid q.toNat = true → wOpcode c.word = 1 →
    let x := getQ s cl.val q.toNat
    let peer := wOp c.word 192 2 = 2
    (Running s cl.val q.toNat c →
      Completes (.fence cl q) s (fun t =>
        getQ t cl.val q.toNat = { x with cur := some { c with draining := true } } ∧ ∃ qs, t = { s with queues := qs })) ∧
    (x.cur = some c → c.draining = true → x.halted = false → queueDrained s cl.val q.toNat = true →
      wRepeat c.word ≤ c.rep →
      (¬ peer ∨ (x.sends = [] ∧ x.sendsLost = false) →
        Completes (.fenceComplete cl q) s (fun t =>
          t.flights = s.flights ++ signalsOf cl.val q.toNat c.word ∧ (getQ t cl.val q.toNat).cur = none ∧
          (getQ t cl.val q.toNat).head = x.head ∧ (getQ t cl.val q.toNat).gen = newestGen s ∧
          OtherQueues cl.val q.toNat s t ∧ RecordsOnly s t)) ∧
      (peer → x.sendsLost = false → x.sends ≠ [] → exec (.fenceComplete cl q) s = .next s) ∧
      (peer → x.sendsLost = true →
        Completes (.fenceComplete cl q) s (fun t =>
          HaltedAs s t cl.val q.toNat 0x12 c.slot c.rep c.wrote ∧ t.flights = s.flights)))

/-- R101, R102: a word whose opcode is reserved, or that the engine does not define, halts its queue with ILLEGAL_OPCODE
before any condition of its own, at its slot, without signalling. -/
def illegalOpcodeClaim : Prop :=
  ∀ (cl : Fin 8) (q : BitVec 13) (s : State) (c : Cur),
    let x := getQ s cl.val q.toNat
    let op := wOpcode c.word
    validQid q.toNat = true → x.cur = some c → x.halted = false → ((x.run = true ∧ x.ovfReq = none) ∨ c.started = true) →
    (c.parked = false ∨ x.run = true) → s.bad.contains (.queue cl.val q.toNat) = false →
    absent s cl.val (engOf q.toNat) = false →
    (decide (q.toNat < 9) && (getTile s cl.val q.toNat).rotating) = false → c.reread = false → c.decoded = false →
    0x05 < op → (op < 0x10 ∨ engineDefines (engOf q.toNat) op = false) →
    Completes (.illegalOpcode cl q) s (fun t =>
      HaltedAs s t cl.val q.toNat 0x01 c.slot c.rep false ∧ t.flights = s.flights ∧ t.sems = s.sems ∧
      OtherQueues cl.val q.toNat s t)

/-- How a queue halts at HALT or at an opcode it does not define, and that a command for no queue stops. -/
def Obligations.QueueStops : Prop := haltOpcodeClaim ∧ illegalOpcodeClaim ∧ namelessQueueFaultsClaim

/-- R90, R93: the oldest signal of a queue to a counter is applied: the counter saturates and sets its overflow flag where
it would exceed 2^32 - 1. No other counter and no other signal is touched; a remote one sets SCOPE_VIOL where DLD_SCOPE is
1 (R107). A counter that an error has lost reads 0 with its overflow flag set before the signal reaches it (R534). -/
def signalAppliedClaim : Prop :=
  ∀ (srcCl : Fin 8) (srcQid : BitVec 13) (cl : Fin 8) (n : BitVec 12) (s : State) (pre post : List Flight) (f : Flight),
    validQid srcQid.toNat = true → s.flights = pre ++ f :: post →
    (f.srcCl = srcCl.val ∧ f.srcQid = srcQid.toNat ∧ f.cl = cl.val ∧ f.sem = n.toNat) →
    (∀ g ∈ pre, ¬ (g.srcCl = srcCl.val ∧ g.srcQid = srcQid.toNat ∧ g.cl = cl.val ∧ g.sem = n.toNat)) →
    (s.bad.contains (.counter cl.val n.toNat) = true → Completes (.signalApply srcCl srcQid cl n) s (fun t =>
      t.flights = pre ++ post ∧ getSem t cl.val n.toNat = semInc f.inc { value := 0, ovf := true } ∧
      t.bad.contains (.counter cl.val n.toNat) = false)) ∧
    (s.bad.contains (.counter cl.val n.toNat) = false → Completes (.signalApply srcCl srcQid cl n) s (fun t =>
      t.flights = pre ++ post ∧
      getSem t cl.val n.toNat = (let v := getSem s cl.val n.toNat
        if v.value.toNat + f.inc < 2 ^ 32 then { v with value := v.value + BitVec.ofNat 32 f.inc }
        else { value := 0xFFFF_FFFF, ovf := true }) ∧
      (∀ cl2 m, ¬ (cl2 = cl.val ∧ m = n.toNat) → m < 4096 → getSem t cl2 m = getSem s cl2 m) ∧
      getReg t (dldRegs cl.val + 4) =
        (if f.remote ∧ scopeBit s cl.val n.toNat then getReg s (dldRegs cl.val + 4) ||| 2 else getReg s (dldRegs cl.val + 4)) ∧
      (∀ a, a ≠ dldRegs cl.val + 4 → getReg t a = getReg s a) ∧ t.queues = s.queues ∧ t.mem = s.mem))

/-- R91, R107: a software write sets the counter and clears its overflow flag, and an addition through SEM_ADD saturates
as a signal does; either sets SCOPE_VIOL where DLD_SCOPE is 1. Without the right nothing of the counters changes. (A counter
that an error has lost takes a write as any other does; what meeting the error does beside is R534.) -/
def counterWritesClaim : Prop :=
  ∀ (i : Initiator) (cl : Fin 8) (n : BitVec 12) (v : W32) (s : State),
    let viol := fun (m : Nat) (t : State) => ∀ a, getReg t a =
      if a = dldRegs cl.val + 4 ∧ scopeBit s cl.val m then getReg s a ||| 2 else getReg s a
    let lost := fun (m : Nat) => s.bad.contains (.counter cl.val m)
    (mayAccess s i (semRegs cl.val + 4 * n.toNat) 4 .write = true →
      Completes (.semWrite i cl n v) s (fun t => getSem t cl.val n.toNat = { value := v, ovf := false })) ∧
    (mayAccess s i (semRegs cl.val + 4 * n.toNat) 4 .write = true → lost n.toNat = false →
      Completes (.semWrite i cl n v) s (fun t =>
        (∀ cl2 m, ¬ (cl2 = cl.val ∧ m = n.toNat) → m < 4096 → getSem t cl2 m = getSem s cl2 m) ∧ viol n.toNat t ∧ t.mem = s.mem)) ∧
    (let m := fld v 0 12
     mayAccess s i (semRegs cl.val + 4 * m) 4 .signal = true → lost m = false →
      Completes (.semAdd i cl v) s (fun t =>
        getSem t cl.val m = (let x := getSem s cl.val m
          if x.value.toNat + fld v 12 20 < 2 ^ 32 then { x with value := x.value + BitVec.ofNat 32 (fld v 12 20) }
          else { value := 0xFFFF_FFFF, ovf := true }) ∧
        (∀ cl2 k, ¬ (cl2 = cl.val ∧ k = m) → k < 4096 → getSem t cl2 k = getSem s cl2 k) ∧ viol m t ∧ t.mem = s.mem)) ∧
    (mayAccess s i (semRegs cl.val + 4 * n.toNat) 4 .write = false →
      Completes (.semWrite i cl n v) s (fun t => t.sems = s.sems))

/-- How event counters change. -/
def Obligations.EventCounters : Prop := signalAppliedClaim ∧ counterWritesClaim

/-- R106, R108, R111: when the closed set of a cluster has stood for the window of its detector, every member halts with
DEADLOCK; a record is stored and its members are marked (R72), or it is counted as lost while one is held. Nothing halts
before. A write of VALID releases the record. -/
def Obligations.DeadlockDetector : Prop :=
  ∀ (cl : Fin 8) (s : State),
    let b := dldRegs cl.val
    let w := mget DldWatch.reset s.dld cl.val
    let held := bitOf (getReg s (b + 4)) 0
    ((bitOf (getReg s b) 0 = false ∨ closedSet s cl.val = [] ∨ w.members ≠ closedSet s cl.val ∨ w.stood < 16 * regField s b 16 16) →
      exec (.deadlockConfirm cl) s = .next s) ∧
    (bitOf (getReg s b) 0 = true → closedSet s cl.val ≠ [] → w.members = closedSet s cl.val → 16 * regField s b 16 16 ≤ w.stood →
      Completes (.deadlockConfirm cl) s (fun t =>
        (∀ m ∈ closedSet s cl.val, (getQ t cl.val m.1).halted = true ∧ (getQ t cl.val m.1).haltReason = 0x09 ∧
          (getQ t cl.val m.1).dlMember = ((getQ s cl.val m.1).dlMember || !held)) ∧
        (∀ q, (∀ m ∈ closedSet s cl.val, qkey cl.val m.1 ≠ qkey cl.val q) → getQ t cl.val q = getQ s cl.val q) ∧
        (held = true → getReg t (b + 0x10) = getReg s (b + 0x10) + 1 ∧ getReg t (b + 4) = getReg s (b + 4)) ∧
        (held = false → bitOf (getReg t (b + 4)) 0 = true ∧
          fld (getReg t (b + 4)) 8 8 = Nat.min 255 (closedSet s cl.val).length ∧
          getReg t (b + 8) = s.uptime.setWidth 32 ∧
          ∀ i < 16, ∀ m, (closedSet s cl.val)[i]? = some m →
            getReg t (b + 0x40 + 4 * i) = BitVec.ofNat 32 (m.1 + m.2.1 * 0x2000 + m.2.2 * 65536)))) ∧
    (∀ (i : Initiator) (v : W32), mayAccess s i (b + 4) 4 .write = true →
      Completes (.dldRecordRelease i cl v) s (fun t =>
        getReg t (b + 4) = getReg s (b + 4) &&& ~~~((v ||| 1) &&& 3) ∧ ∀ a, a ≠ b + 4 → getReg t a = getReg s a))

/-- R530, R177: a queue that its job's stop holds halts at its next element boundary, for the reason of the queue that met the
fault. Blocks a tile still holds of repeats that are done stay, and issue no signal. -/
def Obligations.JobStopHalts : Prop :=
  ∀ (cl : Fin 8) (q : BitVec 13) (s : State) (reason : BitVec 8) (link : Nat), validQid q.toNat = true →
    (getQ s cl.val q.toNat).stopReq = some (reason, link) →
    Completes (.jobStop cl q) s (fun t =>
      HaltedAs s t cl.val q.toNat reason.toNat
        (match (getQ s cl.val q.toNat).cur with | some c => c.slot | none => 0)
        (match (getQ s cl.val q.toNat).cur with | some c => c.rep | none => 0)
        (match (getQ s cl.val q.toNat).cur with | some c => c.wrote | none => false) ∧
      (getQ t cl.val q.toNat).stopReq = none ∧ OtherQueues cl.val q.toNat s t ∧ t.flights = s.flights ∧
      (q.toNat < 9 → (getTile t cl.val q.toNat).held =
        (getTile s cl.val q.toNat).held.map (fun b => { b with each := none, last := none })))

/-! ### Matrix tiles (03_number_formats.md, 04_matrix_tiles.md, 06_compressed_tiles.md) -/

/-- The addresses of a repeat of MT_MMUL: those its ARs give (R169), 0 where an AR is not used. -/
def RepeatAddrs (q : Queue) (w : BitVec 256) (d : TileDesc) (rep : Nat) (x : RepAddr) : Prop :=
  let ar := fun (used : Bool) (lo v : Nat) =>
    if used then arAddress (arOf q (wOp w lo 4)) rep = some v else v = 0
  let mem := decide (tdDest d = 0)
  ar true 196 x.a ∧ ar (microscaled (tdAfmt d)) 200 x.sa ∧ ar true 204 x.b ∧ ar (microscaled (tdBfmt d)) 208 x.sb ∧
    ar mem 212 x.c ∧ ar (mem && microscaled (cvtFmt (tdCvt d))) 216 x.sc

/-- The descriptor of the instruction: in its first repeat read from memory with the expansion descriptor it names
(R129, R167), after that the one at hand. -/
def DescriptorOf (s : State) (e : Eng) (c : Cur) (d : TileDesc) : Prop :=
  if c.rep ≠ 0 ∧ (getTile s e.cl e.qid).desc.isSome then (getTile s e.cl e.qid).desc = some d
  else
    let a := (arOf (getQ s e.cl e.qid) (wOp c.word 192 4)).base.toNat
    accessCondition s e a 64 64 .read = none ∧ d.1 = BitVec.ofNat 512 (leNat (bytesAt s a 64)) ∧
      (tdExpands d = true → accessCondition s e (tdExpd d) 16 16 .read = none ∧
        d.2 = BitVec.ofNat 128 (leNat (bytesAt s (tdExpd d) 16))) ∧
      (tdExpands d = false → d.2 = 0)

/-- The record of the stored row at `a`. -/
def rowRecord (s : State) (a : Nat) : Nat := leNat (bytesAt s a 32)

/-- The element codes of the activation row at `a` (R168, R232 to R234). -/
def activationRow (s : State) (d : TileDesc) (a : Nat) : List Nat :=
  let w := elemBits (tdAfmt d)
  if tdAform d = 0 then
    let bs := bytesAt s a (packedBytes w (tdK d))
    (List.range (tdK d)).map (fun k => elemAt bs w k)
  else
    let r := rowRecord s a
    let f := frForm r
    let n := frNelem r
    let index := if f = 0 then [] else bytesAt s (a + 32 + formVpad f w n (frNnz r)) (formIlen f n)
    expandForm f w n (bytesAt s (a + 32) (formVlen f w n (frNnz r))) index

/-- A stored row that meets no condition of R242 to R245: its record, its bytes, and its index. -/
def StoredRowOk (s : State) (e : Eng) (d : TileDesc) (a : Nat) : Prop :=
  let r := rowRecord s a
  let f := frForm r
  let n := frNelem r
  let index := bytesAt s (a + 32 + formVpad f (elemBits (tdAfmt d)) n (frNnz r)) (formIlen f n)
  let places := (List.range (8 * formIlen 2 n)).filter (fun k => streamBit index k)
  recordConditions d r = [] ∧ accessCondition s e a (frTbytes r) 32 .read = none ∧
    (f = 1 → dupGroup n index = none) ∧ (f = 2 → places.length = frNnz r ∧ ∀ k ∈ places, k < n)

/-- The weights of a repeat as they lie in memory: codes, expanded where the format expands (R130), and scale bytes. -/
def weightBlock (s : State) (d : TileDesc) (x : RepAddr) : TileBuf :=
  let k := tdK d
  let nc := tdCols d
  let g := k / 32
  let w := elemBits (tdBfmt d)
  let q := fun (r j : Nat) => elemAt (bytesAt s (x.b + r * tdLdb d) (packedBytes w nc)) w j
  let t := bytesAt s (exA d) (if exMode d = 1 then 16 * (exTgt d + 1) else nc * g * 2)
  let z := if exMode d = 2 ∧ exZp d then bytesAt s (exB d) (nc * g) else []
  let rows := (List.range k).map (fun r => (List.range nc).map (fun j =>
    if tdExpands d then (expandWeight d t (q r j) (leAt t (2 * (j * g + r / 32)) 2) (leAt z (j * g + r / 32) 1)).1 else q r j))
  let sb := bytesAt s x.sb (nc * g)
  { valid := true, tag := [], poison := false, fmt := tdWeightCode d, rows := rows,
    scales := if microscaled (tdBfmt d) then
      (List.range nc).map (fun j => (List.range g).map (fun i => leAt sb (j * g + i) 1)) else [] }

/-- R133, R136, R141 to R143, R169 to R178: one repeat of MT_MMUL whose operands meet no condition multiplies the activation
rows by the weights, which it loads or, under WRES, finds resident, and converts the sums. For memory, the rows and their
scale bytes are written where C and the AR of scales say; for a group or a context, the block is held for its
destination and the queue goes on. -/
def Obligations.MatrixProduct : Prop :=
  ∀ (cl : Fin 8) (p : Fin 9) (s : State) (c : Cur) (d : TileDesc) (x : RepAddr),
    let e : Eng := ⟨cl.val, p.val⟩
    let tile := getTile s cl.val p.val
    let m := wOp c.word 224 8 + 1
    let rowAt := fun (i : Nat) => x.a + i * tdLda d
    let sparse := decide (tdAform d ≠ 0) && (List.range m).all (fun i => decide (frForm (rowRecord s (rowAt i)) = 1))
    let kb := (tdKb d).getD 1 * (if sparse then 2 else 1)
    let act := if tile.active = 0 then tile.wb0 else tile.wb1
    let tag := [x.b, tdBfmt d, tdK d, tdCols d, tdExpd d, boolNat sparse]
    let hit := bitOf c.word 220 = true ∧ act.valid = true ∧ act.tag = tag
    Running s cl.val p.val c → wOpcode c.word = 0x10 → Sound s → tile.held.length < 2 → DescriptorOf s e c d →
    descConditions s e c.word d true = [] → RepeatAddrs (getQ s cl.val p.val) c.word d c.rep x →
    (tdAform d ≠ 0 → tdLda d % 32 = 0 ∧ ∀ i < m, StoredRowOk s e d (rowAt i)) →
    extentConditions s e .read (repeatExtents d m x).1 = [] → extentConditions s e .write (repeatExtents d m x).2 = [] →
    (bitOf c.word 220 = true → tdK d ≤ kb) → (hit → act.poison = false) →
    let wts : TileBuf := if hit then act else weightBlock s d x
    let asc := if microscaled (tdAfmt d) then (bytesAt s x.sa (m * (tdK d / 32))).map (fun b => b.toNat) else []
    let out := outputBlock c d ((List.range m).map (fun i => activationRow s d (rowAt i))) asc wts
    let scales := (out.map (fun r => r.2)).flatten
    let width := elemBits (cvtFmt (tdCvt d))
    let rowBytes := fun (r : List OutElem × List Byte) => packElems width (r.1.map (fun o => o.bits))
    Completes (.mtMmul cl p) s (fun t =>
      t.sems = s.sems ∧ t.ctxs = s.ctxs ∧ RegsBut s t (tileRegs cl.val p.val) 0x40 ∧
      (tdDest d = 0 →
        RepeatDone s t cl.val p.val c ∧ (getTile t cl.val p.val).held = tile.held ∧
        ∀ a, ¬ inEventRing s a → memByte t a = written s
          ((List.range m).map (fun i => (x.c + i * tdLdc d, rowBytes (out.getD i ([], [])))) ++
            if microscaled (cvtFmt (tdCvt d)) then [(x.sc, scales)] else []) a) ∧
      (tdDest d ≠ 0 →
        (getTile t cl.val p.val).held = tile.held ++ [{
          collective := decide (tdDest d = 1), target := tdTarget d, chunk := BitVec.ofNat 32 (tdChunk0 d + c.rep),
          bytes := packElems width ((out.map (fun r => r.1.map (fun o => o.bits))).flatten) ++ scales,
          elems := ((out.map (fun r => r.1)).flatten).length,
          each := if wEach c.word then some c.word else none,
          last := if wRepeat c.word ≤ c.rep then some { word := c.word, count := c.count } else none }] ∧
        t.flights = s.flights ∧ OtherQueues cl.val p.val s t ∧
        (c.rep < wRepeat c.word → ∃ c2, (getQ t cl.val p.val).cur = some c2 ∧ c2.rep = c.rep + 1 ∧ c2.word = c.word) ∧
        (wRepeat c.word ≤ c.rep → (getQ t cl.val p.val).cur = none) ∧
        ∀ a, ¬ inEventRing s a → memByte t a = memByte s a))

/-- R178: MT_WCLEAR leaves both weight buffers invalid; it changes no other memory, register or counter. -/
def weightsClearedClaim : Prop :=
  ∀ (cl : Fin 8) (p : Fin 9) (s : State) (c : Cur), Running s cl.val p.val c → wOpcode c.word = 0x11 →
    Completes (.mtWclear cl p) s (fun t =>
      getTile t cl.val p.val = { getTile s cl.val p.val with wb0 := TileBuf.reset, wb1 := TileBuf.reset } ∧
      (∀ p2 < 9, p2 ≠ p.val → getTile t cl.val p2 = getTile s cl.val p2) ∧ RepeatDone s t cl.val p.val c ∧
      t.sems = s.sems ∧ RecordsOnly s t)

/-- R173, R174, R334: the oldest block a tile holds goes to its destination once that takes it, and with the last block of
an instruction its signals are issued; one that is not taken stays held, and what the destination refused may be counted
(R414); blocks for a group that no longer holds its queue halt the tile with ENGINE_ABSENT, and are dropped. -/
def heldBlocksClaim : Prop :=
  ∀ (cl : Fin 8) (p : Fin 9) (s : State) (b : HeldBlock) (rest : List HeldBlock),
    let gq := b.target % 4096
    (getTile s cl.val p.val).held = b :: rest →
    (b.collective = false →
      (∀ u, handOver cl.val p.val b.target (clean b.bytes) true s = (u, false) → exec (.blockAccepted cl p) s = .next u ∧
        (getTile u cl.val p.val).held = b :: rest ∧ u.ctxs = s.ctxs ∧ u.mem = s.mem) ∧
      (∀ u, handOver cl.val p.val b.target (clean b.bytes) true s = (u, true) → b.last = none →
        Completes (.blockAccepted cl p) s (fun t =>
          (getTile t cl.val p.val).held = rest ∧ t.ctxs = u.ctxs ∧ t.mem = u.mem ∧
          t.flights = s.flights ++ (match b.each with
            | some w => if (sigField w 0).en then (signalsOf cl.val p.val w).take 1 else []
            | none => []))) ∧
      (∀ u f, handOver cl.val p.val b.target (clean b.bytes) true s = (u, true) → b.last = some f →
        (b.each = if wEach f.word then some f.word else none) →
        Completes (.blockAccepted cl p) s (fun t =>
          (getTile t cl.val p.val).held = rest ∧ t.flights = s.flights ++ signalsOf cl.val p.val f.word ∧ t.sems = s.sems))) ∧
    (b.collective = true → (getGroup s cl.val gq).held = false → (getQ s cl.val p.val).halted = false →
      Completes (.blockAccepted cl p) s (fun t =>
        (getTile t cl.val p.val).held = rest.filter (fun d => !(d.collective && decide (d.target % 4096 = gq))) ∧ (getQ t cl.val p.val).halted = true ∧ (getQ t cl.val p.val).haltReason = 0x03 ∧
        t.flights = s.flights)) ∧
    (b.collective = true → (getGroup s cl.val gq).held = true →
      (∀ u, takeInput cl.val gq p.val b.chunk (clean b.bytes) s = (u, false) → exec (.blockAccepted cl p) s = .next u ∧
        (getTile u cl.val p.val).held = b :: rest) ∧
      (∀ u, takeInput cl.val gq p.val b.chunk (clean b.bytes) s = (u, true) →
        Completes (.blockAccepted cl p) s (fun t => (getTile t cl.val p.val).held = rest)))

/-- How a tile's weights are cleared and its held blocks leave. -/
def Obligations.TileBlocks : Prop := weightsClearedClaim ∧ heldBlocksClaim

/-- R184 to R186, R562: a position that calls for a rotation and stands at a yield point or a job boundary starts one when
the spare is fit; when the copy is done the spare's tile takes the position, with both weight buffers invalid, and the
tile that leaves takes the spare role unless it is to leave service. No byte that software reads changes, but for the slot
of a position that had no tile, whose earlier contents are lost (R193). Accesses that were held are then made in their
order. -/
def Obligations.Rotation : Prop :=
  ∀ (cl : Fin 8) (p : Fin 8) (s : State),
    let out := tileOf s cl.val p.val
    let x := getHUnit s (hkey 1 cl.val out)
    (fusedOff s p.val = false → spareFit s cl.val = true → rotationWanted s cl.val p.val = true →
      (getTile s cl.val p.val).rotating = false → (atYield s cl.val p.val = true ∨ atJobBoundary s cl.val p.val = true) →
      Completes (.rotation cl p) s (fun t =>
        getTile t cl.val p.val = { getTile s cl.val p.val with rotating := true } ∧ ∃ ts, t = { s with tiles := ts })) ∧
    ((spareFit s cl.val = false ∨ rotationWanted s cl.val p.val = false) → exec (.rotation cl p) s = .next s) ∧
    ((getTile s cl.val p.val).rotating = true → s.flaws = [] → ¬ (out < 9 ∧ (x.retired = true ∨ x.excluded = true)) →
      ∀ u, exec (.rotationCopyDone cl p) { s with heldAcc := [] } = .next u →
        exec (.rotationCopyDone cl p) s = .next (s.heldAcc.foldl runHeld u)) ∧
    ((getTile s cl.val p.val).rotating = true → s.flaws = [] → s.heldAcc = [] →
      Completes (.rotationCopyDone cl p) s (fun t =>
        tileOf t cl.val p.val = tileOf s cl.val 8 ∧
        tileOf t cl.val 8 = (if out < 9 ∧ (x.retired = true ∨ x.excluded = true) then 9 else out) ∧
        (∀ q < 9, q ≠ p.val → q ≠ 8 → tileOf t cl.val q = tileOf s cl.val q) ∧
        (getTile t cl.val p.val).rotating = false ∧ (getTile t cl.val p.val).wb0 = TileBuf.reset ∧
        (getTile t cl.val p.val).wb1 = TileBuf.reset ∧ (getTile t cl.val p.val).held = (getTile s cl.val p.val).held ∧
        t.queues = s.queues ∧ t.sems = s.sems ∧
        (out ≠ 9 → RecordsOnly s t) ∧
        (out = 9 → (∀ a, getReg t a = getReg s a) ∧ ∀ a, memByte t a =
          if (cl.val * 8 + p.val) * 0x100_0000 ≤ a ∧ a < (cl.val * 8 + p.val) * 0x100_0000 + 0x100_0000 then 0 else memByte s a)))

/-- R80, R81, R95, R104: whatever one repeat of an engine's instruction does, its end is the same. A repeat that is done
issues SIGNAL0 under SIG0_EACH, and the last one the instruction's signals; one that waits leaves the instruction in
progress; one that meets a condition halts the queue with that reason at the instruction's slot, without signalling; one
that meets an access that is held (R185) leaves everything as it was. Where more runs of a repeat meet a parity error than
there are replays (R533), and where a mover meets an uncorrectable fault, the queue halts with HW_FAULT and memory keeps its
bytes. What the repeat itself does is its engine's program, which the statements of each engine speak of. -/
def Obligations.EngineRepeats : Prop :=
  ∀ (cl : Fin 8) (s u : State) (c d : Cur) (h : Halt),
    let runs := fun (i : Instr) (qid op : Nat) (p : QM Bool) => Running s cl.val qid c → wOpcode c.word = op →
      (p.run (taken s cl.val qid c) = .ok false u → exec i s = .next u) ∧
      (p.run (taken s cl.val qid c) = .error h u → h.held = true → exec i s = .next (taken s cl.val qid c)) ∧
      ((getQ u cl.val qid).cur = some d → d.started = true → (getQ u cl.val qid).halted = false →
        (p.run (taken s cl.val qid c) = .ok true u →
          Completes i s (fun t => t.sems = u.sems ∧ RepeatDone u t cl.val qid d ∧ RecordsOnly u t)) ∧
        ((getQ u cl.val qid).stopReq = none → p.run (taken s cl.val qid c) = .error h u → h.held = false →
          Completes i s (fun t => HaltedAs u t cl.val qid h.reason d.slot d.rep (h.wrote || d.wrote) ∧
            t.flights = u.flights ∧ t.sems = u.sems)))
    let faulty := fun (qid n : Nat) => { s with runs := mput 0 s.runs (unitOfQueue cl.val qid).toNat n }
    let fails := fun (i : Instr) (qid op n : Nat) => Running s cl.val qid c → wOpcode c.word = op →
      Completes i (faulty qid n) (fun t => HaltedAs s t cl.val qid 0x0E c.slot c.rep c.wrote ∧ t.flights = s.flights ∧
        ∀ a, ¬ inEventRing s a → (∀ x ∈ c.undo, x.1 ≠ a) → memByte t a = memByte s a)
    (∀ (p : Fin 9) (n : Nat), (getTile s cl.val p.val).held.length < 2 → regField s (errRegs + 0x18) 0 4 < n →
      fails (.mtMmul cl p) p.val 0x10 n) ∧
    (∀ (m : Fin 8) (n : Nat), 0 < n → c.begun = true → c.resumed = false →
      (arAddress (arOf (getQ s cl.val (17 + m.val)) (wOp c.word 192 4)) c.rep).isSome = true → fails (.mvMove cl m) (17 + m.val) 0x10 n) ∧
    (∀ p : Fin 9, runs (.mtMmul cl p) p.val 0x10 (mmulRepeat ⟨cl.val, p.val⟩ c)) ∧
    (∀ m : Fin 8, runs (.mvMove cl m) (17 + m.val) 0x10 (mvStep ⟨cl.val, m.val⟩ c)) ∧
    (∀ (gq : BitVec 12), ∀ x ∈ [(Instr.clAllreduce cl gq, 0x10), (.clReducescatter cl gq, 0x11), (.clAllgather cl gq, 0x12),
        (.clBroadcast cl gq, 0x13), (.clAlltoall cl gq, 0x14), (.clAlltoallv cl gq, 0x15)],
      runs x.1 (gqid gq.toNat) x.2 (runStep ⟨cl.val, gqid gq.toNat⟩ c true))

/-! ### Data movers and memory (05_memory_and_movers.md, 06_compressed_tiles.md) -/

/-- The two addresses of row `i` of a descriptor. -/
def rowSource (d : BitVec 512) (src : Option Nat) (i : Nat) : Nat := (mdRowAddr d (mdSource d src) (mdSstr1 d) (mdSstr2 d) i).toNat
def rowDest (d : BitVec 512) (dst : Option Nat) (i : Nat) : Nat := (mdRowAddr d (mdDest d dst) (mdDstr1 d) (mdDstr2 d) i).toNat

/-- What memory holds after row `i`, from what it held before it: a row that is stored compressed takes the form of R236. -/
def rowMoved (d : BitVec 512) (src dst : Option Nat) (m : Nat → Byte) (i : Nat) : Nat → Byte :=
  let row := (List.range (mdLen d)).map (fun k =>
    if mdSrck d = 2 then BitVec.ofNat 8 (mdFill d >>> (8 * (k % 8))) else m (rowSource d src i + k))
  let bs := if mdComp d = 0 then row else bytesOf (storeRow (mdComp d) (mdElem d) (clean row)).1
  let a := rowDest d dst i
  fun x => if a ≤ x ∧ x < a + bs.length then bs.getD (x - a) 0 else m x

/-- R210 to R212, R236: the first descriptor of a repeat of MV_MOVE, fetched ahead or read now, from memory or a fill pattern
to memory, moves its rows in order, each as though read in full before it is written; a chain goes on with the descriptor at NEXT in the same
repeat, and without one the repeat is done. (Rows that are registers, and rows of a context, are other statements.) -/
def moverRowsClaim : Prop :=
  ∀ (cl : Fin 8) (m : Fin 8) (s : State) (c : Cur) (a : Nat) (d : BitVec 512),
    let qid := 17 + m.val
    let e : Eng := ⟨cl.val, qid⟩
    let q := getQ s cl.val qid
    let src := arAddress (arOf q (wOp c.word 196 4)) c.rep
    let dst := arAddress (arOf q (wOp c.word 200 4)) c.rep
    Running s cl.val qid c → wOpcode c.word = 0x10 → Sound s →
    (c.begun = false ∨ (getMover s cl.val m.val).begun = false) →
    let ahead := if c.begun then (getMover s cl.val m.val).pref else []
    arAddress (arOf q (wOp c.word 192 4)) c.rep = some a →
    (ahead = [] → accessCondition s e a 64 64 .read = none ∧ d = BitVec.ofNat 512 (leNat (bytesAt s a 64))) →
    (∀ p r, ahead = p :: r → p.reason = none ∧ p.poison = false ∧ d = p.bits) → mdReasons s e d src dst = [] → mdSrck d ≠ 1 → mdDstk d = 0 →
    (∀ i < mdRows d, (mdSrck d = 0 → touchesMmio (rowSource d src i) (mdLen d) = false) ∧
      touchesMmio (rowDest d dst i) (if mdComp d = 0 then mdLen d else (mdDstr1 d).natAbs) = false) →
    Completes (.mvMove cl m) s (fun t =>
      (∀ x, ¬ inEventRing s x → memByte t x = ((List.range (mdRows d)).foldl (rowMoved d src dst) (memByte s)) x) ∧
      t.sems = s.sems ∧ t.ctxs = s.ctxs ∧ RegsBut s t (mvRegs cl.val m.val) 0x80 ∧
      (mdChain d = false → RepeatDone s t cl.val qid c) ∧
      (mdChain d = true → StaysInProgress s t cl.val qid c ∧ (getMover t cl.val m.val).idx = 1 ∧
        (getMover t cl.val m.val).addr = mdNext d ∧ (getMover t cl.val m.val).desc = none))

/-- R62, R213: while a mover runs, a descriptor whose address is known, the next of its chain or the first of the next repeat,
is fetched ahead, at most two of them, each as memory holds it then; what is wrong with it has no effect yet. -/
def descriptorPrefetchClaim : Prop :=
  ∀ (cl : Fin 8) (m : Fin 8) (s : State) (a rep : Nat),
    let v := getMover s cl.val m.val
    let bad := accessCondition s ⟨cl.val, 17 + m.val⟩ a 64 64 .read
    queueState s cl.val (17 + m.val) = 1 → nextFetch s ⟨cl.val, m.val⟩ = some (a, rep) → Sound s →
    (v.pref.length < 2 → Completes (.descriptorFetch cl m) s (fun t =>
      (getMover t cl.val m.val).pref = v.pref ++
        [{ addr := a, reason := bad, bits := if bad = none then BitVec.ofNat 512 (leNat (bytesAt s a 64)) else 0, poison := false,
           rep := rep }] ∧
      (getMover t cl.val m.val).row = v.row ∧ (getMover t cl.val m.val).desc = v.desc ∧ ∃ ms, t = { s with movers := ms })) ∧
    (2 ≤ v.pref.length → exec (.descriptorFetch cl m) s = .next s) ∧
    (∀ (c : Cur) (d : BitVec 512), (getQ s cl.val (17 + m.val)).cur = some c → v.pref = [] → v.desc = some d →
      (mdChain d = true → a = mdNext d ∧ rep = c.rep) ∧
      (mdChain d = false → rep = c.rep + 1 ∧ rep ≤ wRepeat c.word ∧
        arAddress (arOf (getQ s cl.val (17 + m.val)) (wOp c.word 192 4)) rep = some a))

/-- How a mover works through its descriptors. -/
def Obligations.MoverDescriptors : Prop := moverRowsClaim ∧ descriptorPrefetchClaim

/-- R211, R214: payload that arrives for a mover that waits lets it go on as MV_MOVE does; a mover of another cluster than the
context's home is given none (R37). A dense row of received payload is written when all of it is here, and the last row of a
repeat ends it; until then the mover stays RUNNING, and what it has taken is kept. (That a row is gathered in the mover and
written whole is the model's, log entry 41.) -/
def Obligations.MoverReceives : Prop :=
  ∀ (cl : Fin 8) (m : Fin 8) (s : State) (c : Cur) (d : BitVec 512),
    let qid := 17 + m.val
    let q := getQ s cl.val qid
    let v := getMover s cl.val m.val
    let x := getCtx s (mdCtx d)
    let dst := arAddress (arOf q (wOp c.word 200 4)) c.rep
    let n := mdLen d - v.pos
    let here := rxHere cl.val x
    let bs := v.out.getD [] ++ clean (rxBytes s x.rx n)
    Running s cl.val qid c → wOpcode c.word = 0x10 → c.liveWait = true → Sound s → c.begun = true → c.resumed = false →
    v.begun = true → v.desc = some d → mdSrck d = 1 → mdComp d = 0 → mdDstk d = 0 → v.row < mdRows d →
    (arAddress (arOf q (wOp c.word 192 4)) c.rep).isSome = true → v.pos < mdLen d → RxSound s x →
    exec (.moverRxData cl m) s = exec (.mvMove cl m) s ∧
    (here < n → Completes (.moverRxData cl m) s (fun t =>
      StaysInProgress s t cl.val qid c ∧ (getMover t cl.val m.val).pos = v.pos + here ∧
      (getMover t cl.val m.val).row = v.row ∧ ∀ a, ¬ inEventRing s a → memByte t a = memByte s a)) ∧
    (n ≤ here → v.row + 1 = mdRows d → mdChain d = false → v.ctxs = [] → bs.length = mdLen d →
      touchesMmio (rowDest d dst v.row) (mdLen d) = false → memMapped s (rowDest d dst v.row) (mdLen d) = true →
      Completes (.moverRxData cl m) s (fun t =>
        RepeatDone s t cl.val qid c ∧ t.sems = s.sems ∧
        ∀ a, ¬ inEventRing s a → memByte t a = written s [(rowDest d dst v.row, bytesOf bs)] a))

/-- R215, R457: a mover whose row the transport has not taken waits without limit; when the transport takes it, the mover
goes on as MV_MOVE does, and the last row of a repeat ends it, closing the packets the repeat has begun (R632). -/
def Obligations.MoverSends : Prop :=
  ∀ (cl : Fin 8) (m : Fin 8) (s : State) (c : Cur) (d : BitVec 512) (bs : List PByte),
    let qid := 17 + m.val
    let q := getQ s cl.val qid
    let v := getMover s cl.val m.val
    let k := mdCtx d
    Running s cl.val qid c → wOpcode c.word = 0x10 → v.txWait = true → c.begun = true → c.resumed = false →
    v.begun = true → v.desc = some d → v.out = some bs → mdSrck d ≠ 1 → mdDstk d = 1 → v.row < mdRows d →
    (arAddress (arOf q (wOp c.word 192 4)) c.rep).isSome = true →
    exec (.moverTxAccept cl m) s = exec (.mvMove cl m) s ∧
    ((handOver cl.val qid k bs false s).2 = false → Completes (.moverTxAccept cl m) s (fun t =>
      StaysInProgress s t cl.val qid c ∧ (getMover t cl.val m.val).txWait = true ∧ (getMover t cl.val m.val).out = some bs ∧
      t.ctxs = s.ctxs ∧ t.mem = s.mem)) ∧
    (∀ u, handOver cl.val qid k bs false s = (u, true) → v.row + 1 = mdRows d → mdChain d = false →
      Completes (.moverTxAccept cl m) s (fun t =>
        RepeatDone s t cl.val qid c ∧
        getCtr t (mvRegs cl.val m.val + 0x10) = getCtr s (mvRegs cl.val m.val + 0x10) + BitVec.ofNat 64 bs.length ∧
        t.ctxs = ((if v.ctxs.contains k then v.ctxs else v.ctxs ++ [k]).foldl
          (fun r j => (handOver cl.val qid j [] true r).1) u).ctxs))

/-- R203, R204, R206: a scrub of a mapped granule, where it is on, corrects what its codes correct: one wrong bit of each 8
bytes in SRAM, three wrong bytes of the granule in DRAM. What they only detect, two bits or up to five bytes, leaves the
granule marked as poisoned. A granule without errors is left as it is. R197: row repair changes nothing that software reads. R227: OVF_CFG takes a size up to 16 from PL 0 while no port of the die is up. -/
def Obligations.MemoryUpkeep : Prop :=
  (∀ (addr : W48) (s : State) (r : Region),
    let g := addr.toNat / 64
    let off := (match r with
      | .bonded d => regField s (memRegs d + 4) 0 1 ≠ 1
      | .lpddr d _ => regField s (memRegs d + 4) 0 1 ≠ 1
      | _ => False)
    heldInReset s = false → regionOf s (64 * g) = some r →
    (off → exec (.patrolScrub addr) s = .next s) ∧
    let bits := fun (w : Nat) => (flawsOf s w).length
    let dram := granuleCheck r
    let clean := ∀ w ∈ granWords g, bits w = 0
    let mends := if dram then wrongBytes s g ≤ 3 else ∀ w ∈ granWords g, bits w ≤ 1
    let marks := if dram then 3 < wrongBytes s g ∧ wrongBytes s g ≤ 5
      else (∀ w ∈ granWords g, bits w ≤ 2) ∧ ∃ w ∈ granWords g, bits w = 2
    (¬ off → clean → exec (.patrolScrub addr) s = .next s) ∧
    (¬ off → ¬ clean → mends → Completes (.patrolScrub addr) s (fun t =>
      (∀ w ∈ granWords g, flawsOf t w = []) ∧ KeepsMemory s t ∧ (∀ a, ¬ recordReg a → getReg t a = getReg s a) ∧
      t.queues = s.queues ∧ t.sems = s.sems ∧ t.ctxs = s.ctxs ∧ t.err = s.err)) ∧
    (¬ off → marks → Completes (.patrolScrub addr) s (fun t =>
      (∀ w ∈ granWords g, flawsOf t w = []) ∧ (∀ a, ¬ inEventRing s a → memByte t a = memByte s a) ∧
      (¬ inEventRing s (64 * g) → granPoison t g = true) ∧
      (∀ a, ¬ inEventRing s a → a / 64 ≠ g → granPoison t (a / 64) = granPoison s (a / 64)) ∧
      (∀ a, ¬ recordReg a → getReg t a = getReg s a) ∧ t.queues = s.queues ∧ t.sems = s.sems ∧ t.ctxs = s.ctxs))) ∧
  (∀ (die : Fin 4) (row : Nat) (s : State), heldInReset s = false →
    Completes (.rowRepair die row) s (fun t => RecordsOnly s t ∧ t.queues = s.queues ∧ t.sems = s.sems ∧ t.ctxs = s.ctxs)) ∧
  (∀ (i : Initiator) (die : Fin 4) (v : W32) (s : State),
    let a := memRegs die.val
    mayAccess s i a 4 .write = true →
    ((isPl0 i = false ∨ 16 < fld v 0 5 ∨ ∃ l < 256, linkUp s (256 * die.val + l) = true) →
      exec (.ovfCfgWrite i die v) s = .next s) ∧
    (isPl0 i = true → fld v 0 5 ≤ 16 → (∀ l < 256, linkUp s (256 * die.val + l) = false) →
      Completes (.ovfCfgWrite i die v) s (fun t =>
        regField t a 0 5 = fld v 0 5 ∧ getReg t a >>> 5 = getReg s a >>> 5 ∧
        (∀ b, b ≠ a → getReg t b = getReg s b) ∧ ∃ rs, t = { s with regs := rs })))

/-! ### Stream compute units (07_stream_recipes.md) -/

/-- R255, R256, R258: a repeat of SCU_LOAD whose slot images all pass the checks of R270 copies them into recipe memory, and
writes no other slot. -/
def Obligations.RecipeLoaded : Prop :=
  ∀ (cl : Fin 8) (u : Fin 8) (s : State) (c : Cur) (a : Nat),
    let n := wOp c.word 207 12
    let slot := wOp c.word 196 11
    let image := fun (k : Nat) => BitVec.ofNat 64 (leNat (bytesAt s (a + 8 * k) 8))
    Running s cl.val (9 + u.val) c → wOpcode c.word = 0x10 → Sound s →
    arAddress (arOf (getQ s cl.val (9 + u.val)) (wOp c.word 192 4)) c.rep = some a →
    accessCondition s ⟨cl.val, 9 + u.val⟩ a (8 * n) 8 .read = none → (∀ k < n, slotReason (image k) = none) →
    Completes (.scuLoad cl u) s (fun t =>
      (∀ k < n, mget 0 (getScu t cl.val u.val).recipe (slot + k) = image k) ∧
      (∀ j, (j < slot ∨ slot + n ≤ j) → mget 0 (getScu t cl.val u.val).recipe j = mget 0 (getScu s cl.val u.val).recipe j) ∧
      (∃ r, getScu t cl.val u.val = { getScu s cl.val u.val with recipe := r }) ∧
      RepeatDone s t cl.val (9 + u.val) c ∧ RegsBut s t (scuRegs cl.val u.val) 0x20 ∧ t.sems = s.sems ∧ t.ctxs = s.ctxs ∧
      ∀ x, ¬ inEventRing s x → memByte t x = memByte s x)

/-- R259 to R263: a repeat of SCU_RUN whose run table passes every check starts at ENTRY with the arguments in S0 to S7,
every other register 0 and nothing poisoned, its streams at element 0 and STEPS 0; it touches no memory. A repeat that
is in progress is left alone: its recipe instructions are commands of their own. -/
def recipeStartedClaim : Prop :=
  ∀ (cl : Fin 8) (u : Fin 8) (s : State) (c : Cur) (a base : Nat),
    let qid := 9 + u.val
    let e : Eng := ⟨cl.val, qid⟩
    let q := getQ s cl.val qid
    let x := getScu s cl.val u.val
    let desc := fun (k : Nat) => leNat (bytesAt s (a + 32 * k) 32)
    let rel := fun (k : Nat) => decide (bitsOf (desc k) 0 2 = 1) && decide (bitsOf (desc k) 7 1 = 1)
    let start := fun (k : Nat) =>
      if rel k then (base : Int) + sext 48 (bitsOf (desc k) 8 48) else (bitsOf (desc k) 8 48 : Int)
    let strm := fun (k : Nat) => streamOf (desc k) base
    Running s cl.val qid c → wOpcode c.word = 0x11 →
    ((c.begun = true → x.running = true →
      Completes (.scuRun cl u) s (fun t => getQ t cl.val qid = q ∧ getScu t cl.val u.val = x ∧ OtherQueues cl.val qid s t ∧
        KeepsMemory s t ∧ (∀ r, getReg t r = getReg s r) ∧ t.flights = s.flights)) ∧
    (c.begun = false ∨ x.running = false) →
    Sound s → arAddress (arOf q (wOp c.word 192 4)) c.rep = some a → accessCondition s e a 384 64 .read = none →
    (if (List.range 8).any rel then arAddress (arOf q (wOp c.word 196 4)) c.rep = some base else base = 0) →
    leNat (bytesAt s (a + 328) 56) = 0 →
    (∀ k < 8, streamConditions k (desc k) = [] ∧
      ((strm k).kind = 1 → bitsOf (desc k) 8 48 % (elemBits (strm k).fmt / 8) = 0 ∧ (strm k).stride % (elemBits (strm k).fmt / 8 : Nat) = 0) ∧
      (strm k).done % 8 = 0 ∧ streamReach s e (if k < 4 then .read else .write) (strm k) (start k) = [] ∧
      ((strm k).done ≠ 0 → accessCondition s e (strm k).done 8 8 .write = none) ∧
      ((strm k).kind = 2 → ctxGranted s cl.val qid (strm k).ctx = true)) →
    Completes (.scuRun cl u) s (fun t =>
      let y := getScu t cl.val u.val
      y.running = true ∧ y.pc = wOp c.word 200 11 ∧ y.recipe = x.recipe ∧ y.streams = (List.range 8).map strm ∧
      y.rseed = BitVec.ofNat 64 (leNat (bytesAt s (a + 320) 8)) ∧
      (∀ k < 16, y.scal k = (if k < 8 then BitVec.ofNat 64 (leNat (bytesAt s (a + 256 + 8 * k) 8)) else 0, false)) ∧
      (∀ r < 16, ∀ l < 32, y.lane r l = (0, false)) ∧ (∀ r, 0 < r → r < 8 → ∀ l < 32, y.predBit r l = (false, false)) ∧
      getCtr t (scuRegs cl.val u.val + 0x10) = 0 ∧ StaysInProgress s t cl.val qid c ∧ KeepsMemory s t ∧
      (∀ r, getReg t r = getReg s r) ∧ t.sems = s.sems ∧ t.ctxs = s.ctxs))

/-- R295: at a step limit that is not 0 and that STEPS has reached, the SCU halts with WAIT_TIMEOUT at the instruction it
stands at; SCU_HALT names the slot with SUB 1, and no register, stream or memory has changed. -/
def stepLimitHaltsClaim : Prop :=
  ∀ (cl : Fin 8) (u : Fin 8) (s : State) (c : Cur) (i : RInstr),
    Running s cl.val (9 + u.val) c → wOpcode c.word = 0x11 → c.resumed = false → recipeAt s cl.val u.val = some i →
    limitReached s cl.val u.val = true →
    Completes (.stepLimit cl u) s (fun t =>
      HaltedAs s t cl.val (9 + u.val) 0x08 c.slot c.rep c.wrote ∧
      getReg t (scuRegs cl.val u.val + 4) = BitVec.ofNat 32 (i.slot % 2048 + 65536) ∧ t.scus = s.scus ∧
      t.flights = s.flights ∧ t.sems = s.sems ∧ OtherQueues cl.val (9 + u.val) s t)

/-- R271, R272: the branches. A poisoned scalar that decides one halts instead (R292). -/
def recipeBranchesClaim : Prop :=
  ∀ (cl : Fin 8) (u : Fin 8) (s : State) (c : Cur) (i : RInstr),
    let x := getScu s cl.val u.val
    let v := x.scal (rA i.word)
    let target := rImm i.word % 2048
    let goes := fun (t : State) (y : Scu) (pc : Nat) => RecipeGoes s t cl.val u.val c i y pc ∧ OnlyFlags s t cl.val u.val Exc.none
    let out := (match x.streams[rB i.word]? with
      | some t => decide (t.kind = 0) || decide (t.count ≤ t.pos)
      | none => true)
    (AtRecipe s cl.val u.val c i 0x01 → Completes (.rJmp cl u) s (fun t => goes t x target)) ∧
    (AtRecipe s cl.val u.val c i 0x02 → v.2 = false → Completes (.rBrnz cl u) s (fun t =>
      if v.1 = 0 then goes t x (i.slot + 1) else goes t (x.setScal (rA i.word) (v.1 - 1) false) target)) ∧
    (AtRecipe s cl.val u.val c i 0x03 → v.2 = false → Completes (.rBrz cl u) s (fun t =>
      goes t x (if v.1 = 0 then target else i.slot + 1))) ∧
    (AtRecipe s cl.val u.val c i 0x04 → Completes (.rBeos cl u) s (fun t =>
      goes t x (if out = true ↔ rImm i.word / 2048 % 2 = 0 then target else i.slot + 1)))

/-- R264: END ends the repeat: the completion word of each output stream that names one is written, in order, and the
repeat is done. -/
def recipeEndClaim : Prop :=
  ∀ (cl : Fin 8) (u : Fin 8) (s : State) (c : Cur) (i : RInstr),
    let outs := ((getScu s cl.val u.val).streams.drop 4).filter (fun t => decide (t.done ≠ 0))
    AtRecipe s cl.val u.val c i 0x00 → Sound s → (∀ t ∈ outs, memMapped s t.done 8 = true) →
    Completes (.rEnd cl u) s (fun t =>
      RepeatDone s t cl.val (9 + u.val) c ∧ (getScu t cl.val u.val).running = false ∧
      (getScu t cl.val u.val).recipe = (getScu s cl.val u.val).recipe ∧ t.sems = s.sems ∧
      ∀ a, ¬ inEventRing s a → memByte t a =
        written s (outs.map (fun o => (o.done, leBytes 8 (o.pos % 2 ^ 32 + boolNat o.poison * 2 ^ 32)))) a)

/-- How a recipe starts and ends. -/
def Obligations.RecipeRuns : Prop := recipeStartedClaim ∧ recipeEndClaim ∧ stepLimitHaltsClaim

/-- R271, R290: the scalar instructions, VBCAST, LANEID and COMPACT. -/
def recipeMovesClaim : Prop :=
  ∀ (cl : Fin 8) (u : Fin 8) (s : State) (c : Cur) (i : RInstr),
    let x := getScu s cl.val u.val
    let d := rD i.word
    let f := rFmt i.word
    let a := x.scal (rA i.word)
    let b := x.scal (rB i.word)
    let act := activeOf x i
    let picked := act.map (fun l => x.lane (rA i.word) l)
    let goes := fun (t : State) (y : Scu) =>
      RecipeGoes s t cl.val u.val c i y (i.slot + 1) ∧ OnlyFlags s t cl.val u.val Exc.none
    (AtRecipe s cl.val u.val c i 0x08 → Completes (.rSmovi cl u) s (fun t =>
      goes t (x.setScal d (BitVec.ofInt 64 (sext 28 (rImm i.word))) false))) ∧
    (AtRecipe s cl.val u.val c i 0x09 → Completes (.rSadd cl u) s (fun t =>
      goes t (x.setScal d (a.1 + b.1 + BitVec.ofInt 64 (sext 28 (rImm i.word))) (a.2 || b.2)))) ∧
    (AtRecipe s cl.val u.val c i 0x0A → Completes (.rSmov cl u) s (fun t =>
      goes t (x.setScal d (x.lane (rA i.word) (rImm i.word % 32)).1 (x.lane (rA i.word) (rImm i.word % 32)).2))) ∧
    (AtRecipe s cl.val u.val c i 0x0B → predClean x i → Completes (.rVbcast cl u) s (fun t =>
      ∃ y, goes t y ∧ LanesSet x y d act (fun _ => (regVal f a.1.toNat, a.2)))) ∧
    (AtRecipe s cl.val u.val c i 0x17 → predClean x i → a.2 = false → Completes (.rLaneid cl u) s (fun t =>
      ∃ y, goes t y ∧ LanesSet x y d act (fun l => (regVal f (a.1.toNat + l), false)))) ∧
    (AtRecipe s cl.val u.val c i 0x16 → predClean x i → Completes (.rCompact cl u) s (fun t =>
      ∃ y, goes t (y.setScal (rB i.word) (BitVec.ofNat 64 act.length) false) ∧
        LanesSet x y d (List.range 32) (fun l => match picked[l]? with
          | some v => (regVal f v.1.toNat, v.2)
          | none => (0, false))))

/-- The scalar instructions and the branches. -/
def Obligations.RecipeScalars : Prop := recipeMovesClaim ∧ recipeBranchesClaim

/-- R271, R279, R288, R290: CMP and PLOG write a predicate register, RCOUNT and CRC a scalar. -/
def Obligations.RecipeTests : Prop :=
  ∀ (cl : Fin 8) (u : Fin 8) (s : State) (c : Cur) (i : RInstr),
    let x := getScu s cl.val u.val
    let d := rD i.word
    let f := rFmt i.word
    let m := rImm i.word
    let act := activeOf x i
    let goes := fun (t : State) (y : Scu) => RecipeGoes s t cl.val u.val c i y (i.slot + 1)
    let preds := fun (y : Scu) (r : Nat) (g : Nat → Bool × Bool) => (∃ v p, y = { x with pr := v, pp := p }) ∧
      ∀ k < 8, 0 < k → ∀ l < 32, y.predBit k l = if k = r then g l else x.predBit k l
    let cmp := fun (l : Nat) => cmpLane (m % 8) (decide (m / 8 % 2 = 1)) (decide (m / 16 % 2 = 1)) f
      (lowBits f (x.lane (rA i.word) l).1) (lowBits f (x.lane (rB i.word) l).1)
    let bad := fun (l : Nat) => (x.lane (rA i.word) l).2 || (x.lane (rB i.word) l).2
    let p := fun (l : Nat) => x.predBit (rA i.word % 8) l
    let q := fun (l : Nat) => x.predBit (rB i.word % 8) l
    let k := crcSpec (m % 4)
    let old := x.scal d
    let lanes := act.map (fun l => x.lane (rA i.word) l)
    let fed := crcFeed k (if m / 4 % 2 = 1 then k.init else old.1.toNat % 2 ^ k.width)
      (lanes.flatMap (fun v => leBytes (elemBits f / 8) (lowBits f v.1)))
    (AtRecipe s cl.val u.val c i 0x38 → predClean x i → 0 < d → d < 8 → Completes (.rCmp cl u) s (fun t =>
      ∃ y, goes t y ∧ preds y d (fun l => if l ∈ act then ((cmp l).1, bad l) else (false, false)) ∧
        OnlyFlags s t cl.val u.val ((act.filter (fun l => !bad l)).foldl (fun e l => e.or (cmp l).2) Exc.none))) ∧
    (AtRecipe s cl.val u.val c i 0x39 → 0 < d → d < 8 → Completes (.rPlog cl u) s (fun t =>
      ∃ y, goes t y ∧ OnlyFlags s t cl.val u.val Exc.none ∧ preds y d (fun l =>
        (match m % 4 with
          | 0 => (p l).1 && (q l).1
          | 1 => (p l).1 || (q l).1
          | 2 => (p l).1 != (q l).1
          | _ => (p l).1 && !(q l).1, (p l).2 || (q l).2)))) ∧
    (AtRecipe s cl.val u.val c i 0x43 → predClean x i → Completes (.rRcount cl u) s (fun t =>
      goes t (x.setScal d (old.1 + BitVec.ofNat 64 act.length) old.2) ∧ OnlyFlags s t cl.val u.val Exc.none)) ∧
    (AtRecipe s cl.val u.val c i 0x4B → predClean x i → Completes (.rCrc cl u) s (fun t =>
      goes t (x.setScal d (BitVec.ofNat 64 (if m / 8 % 2 = 1 then fed ^^^ k.xorOut else fed))
        ((decide (m / 4 % 2 ≠ 1) && old.2) || lanes.any (fun v => v.2))) ∧ OnlyFlags s t cl.val u.val Exc.none))

/-- R268, R269, R271, R277, R278, R289, R290: the lanewise arithmetic and logic. Each active lane of V[D] becomes the result
on the same lanes of the sources, sign-extended for an integer format; it is poisoned if one of them is, and such a lane
raises no flag; no inactive lane and no other register changes. -/
def Obligations.RecipeLanes : Prop :=
  ∀ (cl : Fin 8) (u : Fin 8) (s : State) (c : Cur) (i : RInstr),
    let x := getScu s cl.val u.val
    let f := rFmt i.word
    let m := rMode i.word
    let imm := rImm i.word
    let act := activeOf x i
    let (a, b, d) := (rA i.word, rB i.word, rC i.word)
    let low := fun (vs : List W64) (k : Nat) => lowBits f (vs.getD k 0)
    let does := fun (cmd : Instr) (op fd : Nat) (srcs : List Nat) (g : Nat → List W64 → Nat × Exc) =>
      AtRecipe s cl.val u.val c i op → predClean x i →
      let vals := fun (l : Nat) => srcs.map (fun r => (x.lane r l).1)
      let bad := fun (l : Nat) => srcs.any (fun r => (x.lane r l).2)
      Completes cmd s (fun t => ∃ y, RecipeGoes s t cl.val u.val c i y (i.slot + 1) ∧
        LanesSet x y (rD i.word) act (fun l => (regVal fd (g l (vals l)).1, bad l)) ∧
        OnlyFlags s t cl.val u.val ((act.filter (fun l => !bad l)).foldl (fun e l => e.or (g l (vals l)).2) Exc.none))
    let arith := fun (g : Rnd → List FVal → FVal × Exc) (h : List Int → Int) (l : Nat) (vs : List W64) =>
      arithOp f m (rRand i s l) g h (vs.map (lowBits f))
    let bits := fun (g : Nat → Nat → Nat) (_ : Nat) (vs : List W64) => (g (low vs 0) (low vs 1), Exc.none)
    does (.rAdd cl u) 0x20 f [a, b] (arith fAdd (fun v => v.getD 0 0 + v.getD 1 0)) ∧
    does (.rSub cl u) 0x21 f [a, b] (arith fSub (fun v => v.getD 0 0 - v.getD 1 0)) ∧
    does (.rMul cl u) 0x22 f [a, b] (arith fMul (fun v => v.getD 0 0 * v.getD 1 0)) ∧
    (fmtOf f ≠ none → does (.rFma cl u) 0x23 f [a, b, d] (arith fFma (fun _ => 0)) ∧
      does (.rDiv cl u) 0x24 f [a, b] (arith fDiv (fun _ => 0)) ∧ does (.rSqrt cl u) 0x25 f [a] (arith fSqrt (fun _ => 0))) ∧
    does (.rMin cl u) 0x26 f [a, b] (fun _ vs =>
      minMax false (decide (imm % 2 = 1)) (decide (imm / 2 % 2 = 1)) f (low vs 0) (low vs 1)) ∧
    does (.rMax cl u) 0x27 f [a, b] (fun _ vs =>
      minMax true (decide (imm % 2 = 1)) (decide (imm / 2 % 2 = 1)) f (low vs 0) (low vs 1)) ∧
    does (.rAbs cl u) 0x28 f [a] (arith (fSign FVal.abs) (fun v => ((v.getD 0 0).natAbs : Int))) ∧
    does (.rNeg cl u) 0x29 f [a] (arith (fSign FVal.neg) (fun v => -(v.getD 0 0))) ∧
    does (.rCvt cl u) 0x2A (imm % 32) [a] (fun l vs =>
      scuConvert f (imm % 32) (decide (imm / 32 % 2 = 1)) m (rRand i s l) (low vs 0)) ∧
    does (.rAnd cl u) 0x30 f [a, b] (bits (fun p q => p &&& q)) ∧
    does (.rOr cl u) 0x31 f [a, b] (bits (fun p q => p ||| q)) ∧
    does (.rXor cl u) 0x32 f [a, b] (bits (fun p q => p ^^^ q)) ∧
    does (.rShl cl u) 0x33 f [a, b] (fun _ vs =>
      (fitInt f (decide (m % 2 = 1)) (decodeInt f (vs.getD 0 0).toNat * 2 ^ ((vs.getD 1 0).toNat % 64)), Exc.none)) ∧
    does (.rShr cl u) 0x34 f [a, b] (fun _ vs =>
      (if imm % 2 = 1 then low vs 0 / 2 ^ ((vs.getD 1 0).toNat % 64)
       else fitInt f false (decodeInt f (vs.getD 0 0).toNat / 2 ^ ((vs.getD 1 0).toNat % 64)), Exc.none))

/-- R280: RSUM, RMAX and RMIN combine the active lanes in the fixed tree, each combination with its own addition number,
and then with S[D]; with no active lane nothing changes. -/
def Obligations.RecipeReductions : Prop :=
  ∀ (cl : Fin 8) (u : Fin 8) (s : State) (c : Cur) (i : RInstr),
    let x := getScu s cl.val u.val
    let f := rFmt i.word
    let imm := rImm i.word
    let act := activeOf x i
    let old := x.scal (rD i.word)
    let lanes : List TreeLane := (List.range 32).map (fun l =>
      if act.contains l then some (lowBits f (x.lane (rA i.word) l).1, (x.lane (rA i.word) l).2) else none)
    let does := fun (cmd : Instr) (op : Nat) (g : Nat → Nat → Nat → Nat × Exc) =>
      AtRecipe s cl.val u.val c i op → predClean x i →
      (act = [] → Completes cmd s (fun t =>
        RecipeGoes s t cl.val u.val c i x (i.slot + 1) ∧ OnlyFlags s t cl.val u.val Exc.none)) ∧
      (∀ v p e, reduceTree g lanes = (some (v, p), e) → Completes cmd s (fun t =>
        RecipeGoes s t cl.val u.val c i (x.setScal (rD i.word) (regVal f (g 31 (lowBits f old.1) v).1) (p || old.2))
          (i.slot + 1) ∧
        OnlyFlags s t cl.val u.val (e.or (if p || old.2 then Exc.none else (g 31 (lowBits f old.1) v).2))))
    does (.rRsum cl u) 0x40 (fun n a b =>
      arithOp f (rMode i.word) (rRand i s n) fAdd (fun v => v.getD 0 0 + v.getD 1 0) [a, b]) ∧
    does (.rRmax cl u) 0x41 (fun _ a b => minMax true (decide (imm % 2 = 1)) (decide (imm / 2 % 2 = 1)) f a b) ∧
    does (.rRmin cl u) 0x42 (fun _ a b => minMax false (decide (imm % 2 = 1)) (decide (imm / 2 % 2 = 1)) f a b)

/-- R271, R276, R291: loads and stores of the local store. A load gives the elements as memory holds them; a store writes
those bytes and no other, in ascending lane order; the offsets lie within the store and are aligned. -/
def Obligations.RecipeStore : Prop :=
  ∀ (cl : Fin 8) (u : Fin 8) (s : State) (c : Cur) (i : RInstr),
    let x := getScu s cl.val u.val
    let f := rFmt i.word
    let w := elemBits f / 8
    let base := scuBase cl.val u.val
    let a := x.scal (rA i.word)
    let o := a.1.toNat + rImm i.word
    let act := activeOf x i
    let inside := fun (len off : Nat) => off + len ≤ 0x10_0000 ∧ off % len = 0
    let index := fun (l : Nat) => a.1.toNat + (x.lane (rB i.word) l).1.toNat % 2 ^ 32 * w
    let goes := fun (t : State) (y : Scu) => RecipeGoes s t cl.val u.val c i y (i.slot + 1)
    let loads := fun (t : State) => OnlyFlags s t cl.val u.val Exc.none
    let stores := fun (t : State) (ws : List (Nat × List Byte)) => goes t x ∧
      (∀ r, getReg t r = getReg s r) ∧ ∀ y, memByte t y = written s (ws.map (fun p => (base + p.1, p.2))) y
    Sound s → a.2 = false →
    (AtRecipe s cl.val u.val c i 0x0C → inside 8 o → Completes (.rSld cl u) s (fun t =>
      goes t (x.setScal (rD i.word) (BitVec.ofNat 64 (leNat (bytesAt s (base + o) 8))) false) ∧ loads t)) ∧
    (AtRecipe s cl.val u.val c i 0x0D → inside 8 o → Completes (.rSst cl u) s (fun t =>
      stores t [(o, leBytes 8 (x.scal (rB i.word)).1.toNat)])) ∧
    (0 < w →
      (AtRecipe s cl.val u.val c i 0x12 → (∀ l < 32, inside w (o + l * w)) → Completes (.rLd cl u) s (fun t =>
        ∃ y, goes t y ∧ loads t ∧ LanesSet x y (rD i.word) (List.range 32)
          (fun l => (regVal f (leNat (bytesAt s (base + o + l * w) w)), false)))) ∧
      (AtRecipe s cl.val u.val c i 0x13 → predClean x i → (∀ l ∈ act, inside w (o + l * w)) → Completes (.rSt cl u) s (fun t =>
        stores t (act.map (fun l => (o + l * w, leBytes w (lowBits f (x.lane (rA i.word) l).1)))))) ∧
      (AtRecipe s cl.val u.val c i 0x14 → predClean x i → (∀ l ∈ act, (x.lane (rB i.word) l).2 = false ∧ inside w (index l)) →
        Completes (.rGather cl u) s (fun t => ∃ y, goes t y ∧ loads t ∧ LanesSet x y (rD i.word) act
          (fun l => (regVal f (leNat (bytesAt s (base + index l) w)), false)))) ∧
      (AtRecipe s cl.val u.val c i 0x15 → predClean x i → (∀ l ∈ act, (x.lane (rB i.word) l).2 = false ∧ inside w (index l)) →
        Completes (.rScatter cl u) s (fun t =>
          stores t (act.map (fun l => (index l, leBytes w (lowBits f (x.lane (rC i.word) l).1)))))))

/-- R273, R274, R277: GET delivers n = min(32, COUNT - taken) elements of an input stream, converted, into the first lanes
of V[D], 0 into the others, and the lanes filled into P[C]; a CTX stream that has fewer waits, taking nothing, and one whose
context is homed in another cluster has none (R37). Payload that comes lets a GET that waits go on. -/
def Obligations.RecipeGet : Prop :=
  ∀ (cl : Fin 8) (u : Fin 8) (s : State) (c : Cur) (i : RInstr) (st : SStream),
    let x := getScu s cl.val u.val
    let f := rFmt i.word
    let w := elemBits st.fmt / 8
    let n := if st.kind = 0 then 0 else Nat.min 32 (st.count - st.pos)
    let place := fun (j : Nat) => ((st.start : Int) + ((st.pos + j : Nat) : Int) * st.stride).toNat
    let stored := (List.range n).map (fun j => (leNat (bytesAt s (place j) w), false))
    let got := if st.kind = 2 then elemsOf w (clean (rxBytes s (getCtx s st.ctx).rx (n * w))) else stored
    let conv := fun (l : Nat) => if st.fmt = f then ((got.getD l (0, false)).1, Exc.none)
      else scuConvert st.fmt f (decide (rImm i.word % 2 = 1)) (rMode i.word) (rRand i s l) (got.getD l (0, false)).1
    let clean := (List.range got.length).filter (fun l => !(got.getD l (0, false)).2)
    let fills := fun (y : Scu) =>
      (∃ v vp p pp, y = { x with v := v, vp := vp, pr := p, pp := pp,
                                 streams := setAt x.streams (rB i.word) { st with pos := st.pos + n } }) ∧
      (∀ r < 16, ∀ l < 32, y.lane r l = if r = rD i.word then
        (if l < got.length then (regVal f (conv l).1, (got.getD l (0, false)).2) else (0, false)) else x.lane r l) ∧
      ∀ r < 8, 0 < r → ∀ l < 32, y.predBit r l = if r = rC i.word then (decide (l < got.length), false) else x.predBit r l
    AtRecipe s cl.val u.val c i 0x10 → x.streams[rB i.word]? = some st → 0 < rC i.word → rC i.word < 8 → 0 < w → Sound s →
    (c.liveWait = true → exec (.getRxData cl u) s = exec (.rGet cl u) s) ∧
    (c.liveWait = false → exec (.getRxData cl u) s = .next s) ∧
    ((st.kind ≠ 2 ∨ (n * w ≤ rxHere cl.val (getCtx s st.ctx) ∧ RxSound s (getCtx s st.ctx))) → Completes (.rGet cl u) s (fun t =>
      ∃ y, fills y ∧ RecipeGoes s t cl.val u.val c i y (i.slot + 1) ∧
        getReg t (scuRegs cl.val u.val) = getReg (raiseFlags (scuRegs cl.val u.val)
          (clean.foldl (fun e l => e.or (conv l).2) Exc.none) s) (scuRegs cl.val u.val) ∧
        (∀ a, ¬ inEventRing s a → memByte t a = memByte s a) ∧
        (st.kind ≠ 2 → t.ctxs = s.ctxs ∧ KeepsMemory s t ∧ RegsBut s t (scuRegs cl.val u.val) 4))) ∧
    (st.kind = 2 → rxHere cl.val (getCtx s st.ctx) < n * w → Completes (.rGet cl u) s (fun t =>
      StaysInProgress s t cl.val (9 + u.val) c ∧ (∃ q, (getQ t cl.val (9 + u.val)).cur = some q ∧ q.liveWait = true) ∧
      getScu t cl.val u.val = { x with txWait := false } ∧ t.ctxs = s.ctxs ∧ KeepsMemory s t ∧ ∀ a, getReg t a = getReg s a))

/-- R275, R277, R291: PUT converts the active lanes of V[A], in lane order, and writes them as the next elements of an
output stream; beyond its COUNT it halts with ADDRESS_RANGE and writes nothing; the transport takes the elements of a CTX
stream or the SCU waits, having done nothing. An acceptance that comes lets a PUT that waits go on. -/
def Obligations.RecipePut : Prop :=
  ∀ (cl : Fin 8) (u : Fin 8) (s : State) (c : Cur) (i : RInstr) (st : SStream),
    let x := getScu s cl.val u.val
    let f := rFmt i.word
    let w := elemBits st.fmt / 8
    let k := 4 + rB i.word
    let act := activeOf x i
    let m := act.length
    let lane := fun (j : Nat) => x.lane (rA i.word) (act.getD j 0)
    let conv := fun (j : Nat) => if st.fmt = f then (lowBits f (lane j).1, Exc.none)
      else scuConvert f st.fmt st.sat (rMode i.word) (srBits st.seed.toNat ((i.rep * 2 ^ 32 + st.pos + j) % 2 ^ 64)) (lowBits f (lane j).1)
    let place := fun (j : Nat) => ((st.start : Int) + ((st.pos + j : Nat) : Int) * st.stride).toNat
    let cargo := (List.range m).flatMap (fun j => valBytes w (conv j).1 (lane j).2)
    let y : Scu := { x with streams := setAt x.streams k { st with
      pos := st.pos + m, poison := st.poison || (List.range m).any (fun j => (lane j).2) } }
    let flags := ((List.range m).filter (fun j => !(lane j).2)).foldl (fun e j => e.or (conv j).2) Exc.none
    let marked := fun (t : State) => RecipeGoes s t cl.val u.val c i y (i.slot + 1) ∧
      getReg t (scuRegs cl.val u.val) = getReg (raiseFlags (scuRegs cl.val u.val) flags s) (scuRegs cl.val u.val)
    AtRecipe s cl.val u.val c i 0x11 → predClean x i → x.streams[k]? = some st →
    (x.txWait = true → exec (.putTxAccept cl u) s = exec (.rPut cl u) s) ∧
    (x.txWait = false → exec (.putTxAccept cl u) s = .next s) ∧
    ((st.kind ≠ 0 ∧ st.count < st.pos + m ∨ st.kind = 0 ∧ m ≠ 0) → Completes (.rPut cl u) s (fun t =>
      HaltedAs s t cl.val (9 + u.val) 0x04 c.slot c.rep c.wrote ∧ t.scus = s.scus ∧ t.ctxs = s.ctxs ∧
      getReg t (scuRegs cl.val u.val + 4) = BitVec.ofNat 32 (i.slot % 2048 + 3 * 65536))) ∧
    ((st.kind = 1 ∧ st.pos + m ≤ st.count ∨ st.kind = 0 ∧ m = 0) → Sound s → (∀ j < m, memMapped s (place j) w = true) →
      Completes (.rPut cl u) s (fun t => marked t ∧ t.ctxs = s.ctxs ∧ RegsBut s t (scuRegs cl.val u.val) 4 ∧
        ∀ a, memByte t a = written s ((List.range m).map (fun j => (place j, leBytes w (conv j).1))) a)) ∧
    (st.kind = 2 → st.pos + m ≤ st.count →
      ((handOver cl.val (9 + u.val) st.ctx cargo false s).2 = false → Completes (.rPut cl u) s (fun t =>
        StaysInProgress s t cl.val (9 + u.val) c ∧ getScu t cl.val u.val = { x with txWait := true } ∧ t.ctxs = s.ctxs ∧
        KeepsMemory s t)) ∧
      (∀ r, handOver cl.val (9 + u.val) st.ctx cargo false s = (r, true) → Completes (.rPut cl u) s (fun t =>
        marked t ∧ t.ctxs = r.ctxs ∧ t.mem = r.mem)))

/-- The fields of a parameter block, and what the store holds. -/
def storeKeys (s : State) (base off n w : Nat) : List Nat := (List.range n).map (fun k => leNat (bytesAt s (base + off + k * w) w))
def storePays (s : State) (base off n w : Nat) : List (List PByte) :=
  (List.range n).map (fun k => clean (bytesAt s (base + off + k * w) w))

/-- R282 to R287, R281: SORT, MERGE and TOPK under a valid parameter block. SORT leaves the input in the scratch area and
the keys, with their payloads, in the order of their total-order keys, equal ones in input order; MERGE takes the head
of run A unless the head of run B comes strictly earlier; TOPK leaves the best entries with their indices and their
number. Nothing else of the store, and no register, changes. -/
def Obligations.RecipeSorts : Prop :=
  ∀ (cl : Fin 8) (u : Fin 8) (s : State) (c : Cur) (i : RInstr),
    let x := getScu s cl.val u.val
    let base := scuBase cl.val u.val
    let o := (x.scal (rA i.word)).1.toNat
    let b := leNat (bytesAt s (base + o) 32)
    let fits := fun (l : List Extent) => ∀ e ∈ l, e.1 + e.2.1 ≤ 0x10_0000 ∧ e.1 % e.2.2 = 0
    let ends := fun (t : State) (ws : List (Nat × List Byte)) =>
      RecipeGoes s t cl.val u.val c i x (i.slot + 1) ∧ (∀ r, getReg t r = getReg s r) ∧
      ∀ y, memByte t y = written s (ws.map (fun p => (base + p.1, p.2))) y
    Sound s → (x.scal (rA i.word)).2 = false → o + 32 ≤ 0x10_0000 → o % 32 = 0 →
    (let f := bitsOf b 81 5
     let n := bitsOf b 64 17
     let w := elemBits f / 8
     let pw := payWidth (bitsOf b 88 2)
     let keys : Extent := (bitsOf b 0 20, n * w, w)
     let pay : Extent := (bitsOf b 20 20, n * pw, pw)
     let scr : Extent := (bitsOf b 40 20, n * (w + pw), 8)
     let es := (storeKeys s base keys.1 n w).zip (if pw = 0 then List.replicate n [] else storePays s base pay.1 n pw)
     let out := stableSort 18 (keyBefore f (decide (bitsOf b 86 1 = 1)) (decide (bitsOf b 87 1 = 1))) es
     AtRecipe s cl.val u.val c i 0x48 → bitsOf b 60 4 = 0 → bitsOf b 90 166 = 0 → bitsOf b 88 2 ≠ 3 → n ≤ 65536 →
     scuFormat f = true → overlaps keys scr = false →
     (pw ≠ 0 → overlaps keys pay = false ∧ overlaps pay scr = false ∧ fits [pay]) → fits [keys, scr] →
     Completes (.rSort cl u) s (fun t => ends t
       ([(scr.1, bytesOf (keyBytes w es ++ payBytes es)), (keys.1, bytesOf (keyBytes w out))] ++
        if pw = 0 then [] else [(pay.1, bytesOf (payBytes out))]))) ∧
    (let f := bitsOf b 154 5
     let na := bitsOf b 120 17
     let nb := bitsOf b 137 17
     let w := elemBits f / 8
     let pw := payWidth (bitsOf b 161 2)
     let ins : List Extent := [(bitsOf b 0 20, na * w, w), (bitsOf b 20 20, nb * w, w)] ++
       (if pw = 0 then [] else [(bitsOf b 60 20, na * pw, pw), (bitsOf b 80 20, nb * pw, pw)])
     let outs : List Extent := [(bitsOf b 40 20, (na + nb) * w, w)] ++
       (if pw = 0 then [] else [(bitsOf b 100 20, (na + nb) * pw, pw)])
     let run := fun (k p n : Nat) => (storeKeys s base k n w).zip (if pw = 0 then List.replicate n [] else storePays s base p n pw)
     let out := mergeBy (na + nb) (keyBefore f (decide (bitsOf b 159 1 = 1)) (decide (bitsOf b 160 1 = 1)))
       (run (bitsOf b 0 20) (bitsOf b 60 20) na) (run (bitsOf b 20 20) (bitsOf b 80 20) nb)
     AtRecipe s cl.val u.val c i 0x49 → bitsOf b 163 93 = 0 → bitsOf b 161 2 ≠ 3 → na ≤ 65536 → nb ≤ 65536 →
     scuFormat f = true → (∀ e ∈ ins, ∀ g ∈ outs, overlaps e g = false) → fits (ins ++ outs) →
     Completes (.rMerge cl u) s (fun t => ends t
       ([(bitsOf b 40 20, bytesOf (keyBytes w out))] ++ if pw = 0 then [] else [(bitsOf b 100 20, bytesOf (payBytes out))]))) ∧
    (let f := bitsOf b 77 5
     let n := bitsOf b 60 17
     let k := bitsOf b 84 13
     let ln := bitsOf b 97 13
     let w := elemBits f / 8
     let listed := List.zipWith (fun key idx => TopEntry.mk key idx false true)
       (storeKeys s base (bitsOf b 20 20) ln w) (storeKeys s base (bitsOf b 40 20) ln 4)
     let news := (List.range n).map (fun j =>
       TopEntry.mk ((storeKeys s base (bitsOf b 0 20) n w).getD j 0) ((bitsOf b 128 32 + j) % 2 ^ 32) false false)
     let out := (stableSort 18 (topBefore f (decide (bitsOf b 82 1 = 1)) (decide (bitsOf b 83 1 = 1))) (listed ++ news)).take
       (Nat.min k (ln + n))
     AtRecipe s cl.val u.val c i 0x4A → bitsOf b 110 18 = 0 → bitsOf b 160 96 = 0 → n ≤ 65536 → 0 < k → k ≤ 4096 → ln ≤ k →
     scuFormat f = true →
     fits [(bitsOf b 0 20, n * w, w), (bitsOf b 20 20, k * w, w), (bitsOf b 40 20, k * 4, 4)] →
     Completes (.rTopk cl u) s (fun t => ends t
       [(bitsOf b 20 20, out.flatMap (fun e => leBytes w e.key)), (bitsOf b 40 20, out.flatMap (fun e => leBytes 4 e.idx)),
        (o + 12, leBytes 2 (bitsOf b 96 1 + out.length * 2))]))

/-! ### Collective groups and exact reduction (08_exact_reduction.md, 09_collectives.md) -/

/-- The six collective instructions with their opcodes. -/
def collectives (cl : Fin 8) (gq : BitVec 12) : List (Instr × Nat) :=
  [(.clAllreduce cl gq, 0x10), (.clReducescatter cl gq, 0x11), (.clAllgather cl gq, 0x12), (.clBroadcast cl gq, 0x13),
   (.clAlltoall cl gq, 0x14), (.clAlltoallv cl gq, 0x15)]

/-- R344: a step that is open completes with its repeat once, everything it has to hand on having been handed on as far as
it goes, all own messages are accepted, every piece of DST is written and the group's slice is done; the step is
counted. One that is not complete stays in progress, and STEP_COMPLETE asks the same of a step that is open. R356: a group that
has lost a reservation halts with RESOURCE_LOST instead. -/
def stepCompletesClaim : Prop :=
  ∀ (cl : Fin 8) (gq : BitVec 12) (s u : State) (c : Cur), ∀ x ∈ collectives cl gq,
    let g := getGroup s cl.val gq.toNat
    let qid := gqid gq.toNat
    Running s cl.val qid c → wOpcode c.word = x.2 → g.held = true → g.lost = false → stepIsOpen g c = true →
    pumpGroup cl.val gq.toNat (taken s cl.val qid c) = (u, none) →
    exec (.stepComplete cl gq) s = exec x.1 s ∧
    (stepComplete (getGroup u cl.val gq.toNat) = true → Completes x.1 s (fun t =>
      RepeatDone u t cl.val qid c ∧ stepIsOpen (getGroup t cl.val gq.toNat) c = false ∧
      getCtr t (gsRegs cl.val gq.toNat + 0x60) = getCtr u (gsRegs cl.val gq.toNat + 0x60) + 1 ∧ t.sems = s.sems ∧
      RecordsOnly u t)) ∧
    (stepComplete (getGroup u cl.val gq.toNat) = false → exec x.1 s = .next u) ∧
    ∀ v : State, v = setGroup cl.val gq.toNat { g with lost := true } s →
      Completes x.1 v (fun t => HaltedAs s t cl.val qid 0x12 c.slot c.rep c.wrote ∧ t.flights = s.flights)

/-- R335 to R338, R348: a step whose descriptor and extents meet no condition opens as the next SEQ of its group once its
granules can be had; while they cannot, the queue stays in progress and waits. -/
def stepOpensClaim : Prop :=
  ∀ (cl : Fin 8) (gq : BitVec 12) (s u : State) (c : Cur) (st : Step), ∀ x ∈ collectives cl gq,
    let g := getGroup s cl.val gq.toNat
    let qid := gqid gq.toNat
    Running s cl.val qid c → wOpcode c.word = x.2 → g.lost = false → stepIsOpen g c = false → (∀ t, g.step = some t → t.live = false) →
    (readStep ⟨cl.val, qid⟩ c).run (taken s cl.val qid c) = .ok st u →
    ∀ cmd ∈ [x.1, .stepOpen cl gq],
      (openStep cl.val gq.toNat st u = none → Completes cmd s (fun t =>
        (∃ q, (getQ t cl.val qid).cur = some q ∧ q.liveWait = true ∧ q.rep = c.rep ∧ q.word = c.word) ∧
        (getGroup t cl.val gq.toNat).seq = g.seq ∧ t.flights = s.flights)) ∧
      ((openStep cl.val gq.toNat st u).isSome = true → Completes cmd s (fun t =>
        (getGroup t cl.val gq.toNat).seq = g.nextSeq ∧ (getGroup t cl.val gq.toNat).nextSeq = g.nextSeq + 1 ∧
        ∃ y, (getGroup t cl.val gq.toNat).step = some y ∧ y.owner = (c.count, c.rep) ∧ y.opcode = x.2))

/-- How a collective step opens and completes. -/
def Obligations.CollectiveSteps : Prop := stepOpensClaim ∧ stepCompletesClaim

/-- R312, R320, R350, R353, R355: the next contribution without a slot takes a free one of 32, combined at once where its tag
fits the open step and no other slot holds its piece so; GS_ABORT kills the group, whose slots discard what they hold and which
sends nothing more of its own, and halts its queue with GROUP_ABORT; STEP_IDLE reaching its threshold sets IDLE. -/
def groupControlClaim : Prop :=
  (∀ (cl : Fin 8) (s : State) (pre post : List Arrival) (a : Arrival),
    let mine := fun (b : Arrival) => b.slot = none ∧ (contributionTo s b).isSome = true
    let h := parseTft a.packet
    let tag := BitVec.ofNat 128 h.tag
    let k := (getCtx s h.dst).gkey
    let g := mget Group.reset s.groups k
    let fits := tagSeq tag = g.seq ∧ tagGroup tag = g.gid.toNat ∧
      (∃ rel, tagRel g tag = some rel ∧ contributed g rel (tagPiece tag) (tagMember tag) = false) ∧
      ∀ b ∈ mget [] s.arrivals cl.val, b.slot = some .shadow → (parseTft b.packet).dst = h.dst →
        ¬ (tagChunk (BitVec.ofNat 128 (parseTft b.packet).tag) = tagChunk tag ∧
           tagPiece (BitVec.ofNat 128 (parseTft b.packet).tag) = tagPiece tag)
    mget [] s.arrivals cl.val = pre ++ a :: post → mine a → (∀ b ∈ pre, ¬ mine b) →
    (32 ≤ slotsBusy s cl.val → exec (.contributionDispatch cl) s = .next s) ∧
    (slotsBusy s cl.val < 32 → Completes (.contributionDispatch cl) s (fun t =>
      (fits → mget [] t.arrivals cl.val = pre ++ { a with slot := some .shadow } :: post) ∧
      (¬ fits → mget [] t.arrivals cl.val = pre ++ { a with slot := some .raw } :: post ∧ t.ctr64 = s.ctr64) ∧
      (∀ c2 < 8, c2 ≠ cl.val → mget [] t.arrivals c2 = mget [] s.arrivals c2) ∧
      ∃ ar cs, t = { s with arrivals := ar, ctr64 := cs }))) ∧
  (∀ (i : Initiator) (cl : Fin 8) (gq : BitVec 12) (v : W32) (s : State),
    let q := getQ s cl.val (gqid gq.toNat)
    let allowed := mayAccess s i (qcbBase cl.val (gqid gq.toNat) + 0x14) 4 .doorbell = true
    (allowed → (getGroup s cl.val gq.toNat).held = false → exec (.gsAbort i cl gq v) s = .next s) ∧
    (allowed → (getGroup s cl.val gq.toNat).held = true → (q.halted = true → terminal q.haltReason.toNat = false) →
      Completes (.gsAbort i cl gq v) s (fun t =>
        let g := getGroup s cl.val gq.toNat
        (getGroup t cl.val gq.toNat).dead = true ∧ (getGroup t cl.val gq.toNat).outq = g.outq.filter (fun m => m.result) ∧
        (∀ c2, mget [] t.arrivals c2 =
          (mget [] s.arrivals c2).filter (fun b => b.slot.isNone || decide ((parseTft b.packet).dst ≠ g.gctx))) ∧
        (getQ t cl.val (gqid gq.toNat)).halted = true ∧ (getQ t cl.val (gqid gq.toNat)).haltReason = 0x11 ∧
        OtherQueues cl.val (gqid gq.toNat) s t ∧ t.sems = s.sems ∧ t.flights = s.flights)) ∧
    (¬ allowed → Completes (.gsAbort i cl gq v) s (fun t => GroupsKept s t ∧ ((∀ c2 q2, i ≠ .engine c2 q2) → t.queues = s.queues)))) ∧
  (∀ (cl : Fin 8) (gq : BitVec 12) (s : State) (st : Step),
    let b := gsRegs cl.val gq.toNat
    let g := getGroup s cl.val gq.toNat
    g.held = true → g.step = some st → st.live = true → g.dead = false → getReg s (b + 0x14) ≠ 0 →
    Completes (.groupIdle cl gq) s (fun t =>
      (getReg s (b + 0x14)).toNat ≤ (getReg t (b + 0x18)).toNat ∧ regField t (b + 0x10) 0 1 = 1 ∧ GroupsKept s t ∧
      t.queues = s.queues ∧ ∀ r, ¬ recordReg r → r ≠ b + 0x18 → r ≠ b + 0x10 → getReg t r = getReg s r))

/-- R315, R345, R454: a TAGGED packet that is in order and whose message its group accepts moves its channel's EXP on by
one; one that is refused leaves EXP as it is and is counted, so that its sender offers it again. A packet of a context
that is closed or has failed changes no group. A contribution takes a slot first and waits while none is free (R312), and a
group waits for a slot of memory that a rotation copies (R185). -/
def taggedMessagesClaim : Prop :=
  ∀ (cl : Fin 8) (now : W64) (s s1 : State) (a b : Arrival),
    let s0 := advanceFwd cl.val now s
    let h := parseTft a.packet
    let x := getCtx s0 h.dst
    let gq := x.gkey % 4096
    let tag := BitVec.ofNat 128 h.tag
    let waits := x.isGctx = true ∧ stepHeld s1 cl.val gq = true
    let calm := s.bad = [] ∧ ∀ c, (getCtx s c).failed = true → ∀ k ∈ (getCtx s c).chans, k.2.copies = [] ∧ k.2.tail = none
    frontPacket s0 cl.val 1 = some a →
    (slotFront cl.val a s0 = none → exec (.taggedPacketReceive cl now) s = .next s0) ∧
    (slotFront cl.val a s0 = some (b, s1) → waits → exec (.taggedPacketReceive cl now) s = .next s1) ∧
    (slotFront cl.val a s0 = some (b, s1) → ¬ waits → (x.isOpen = false ∨ x.failed = true) → calm →
      Completes (.taggedPacketReceive cl now) s (fun t =>
        t.groups = s.groups ∧ t.ctxs = s.ctxs ∧ mget [] t.arrivals cl.val = (mget [] s.arrivals cl.val).drop 1)) ∧
    (∀ u v w c ok, slotFront cl.val a s0 = some (b, s1) → ¬ waits →
      receiveFront cl.val b (popArrival cl.val s1) = (u, some (c, .inOrder)) → headerBad cl.val gq u = (false, v) →
      (b.slot.isSome && recordsBad cl.val gq tag v) = false →
      handleMsg cl.val gq tag (BitVec.ofNat 16 h.stepc) (arrivalPayload b h) false (decide (b.slot = some .shadow)) v = (w, ok) →
      Completes (.taggedPacketReceive cl now) s (fun t =>
        (getChan (getCtx t c) h.ch).exp = (getChan (getCtx s c) h.ch).exp + (if ok = true then 1 else 0)))

/-- How a group takes messages, idles and is aborted. -/
def Obligations.GroupMessages : Prop := groupControlClaim ∧ taggedMessagesClaim

/-! ### Parameter update and the dose engine (10_parameter_update.md) -/

/-- The addresses of a repeat (R358): what its ARs give, 0 where an AR is not used. -/
def UpdateAddrs (q : Queue) (x : PuRun) : Prop :=
  let ar := fun (used : Bool) (lo v : Nat) => if used then arAddress (arOf q (wOp x.c.word lo 4)) x.c.rep = some v else v = 0
  ar true 196 x.p ∧ ar true 200 x.g ∧ ar (pdUsesS1 x.d) 204 x.s1 ∧ ar (pdUsesS2 x.d) 208 x.s2 ∧ ar (pdUsesS3 x.d) 212 x.s3 ∧
    ar true 216 x.hdr ∧ ar (pdCopy x.d) 220 x.cpy ∧ ar x.rows 224 x.idx ∧ ar x.rows 228 x.cnt

/-- The gradients that GUARD looks at, and whether one is not finite once scaled (R365). -/
def guardTrips (s : State) (x : PuRun) : Bool :=
  let gb := fmtWidthB (pdGfmt x.d)
  let n := (if x.rows then pdNlist x.d else pdRows x.d) * pdCols x.d
  pdGuard x.d && (List.range n).any (fun e =>
    let v := (gradOf x.d (leNat (bytesAt s (x.g + e * gb) gb)) Exc.none).1
    v.isNan || v.isInf)

/-- What SGDM, ADAM or ADAMW writes for element `e` (R366 to R371): its moments, its parameter, its copy. -/
def elementWrites (s : State) (x : PuRun) (k : PuK) (e : Nat) : List (Nat × List Byte) :=
  let d := x.d
  let sb := fmtWidthB (pdSfmt d)
  let pb := fmtWidthB (pdPfmt d)
  let at' := fun (used : Bool) (b n : Nat) => if used then leNat (bytesAt s (b + e * n) n) else 0
  let w := at' true x.p pb
  let sv := fun (v : Nat) => valueOf (pdSfmt d) v
  let o := ((do
    let gv ← gradOf d (at' true x.g (fmtWidthB (pdGfmt d)))
    let (m, v) := (at' (pdUsesS1 d) x.s1 sb, at' (pdUsesS2 d) x.s2 sb)
    if pdOpt d = 0 then sgdm d k e (valueOf (pdPfmt d) w) gv (sv m)
    else adam d k e (valueOf (pdPfmt d) w) gv (sv m) (sv v)) Exc.none).1
  let opt := fun (b : Nat) (v : Option Nat) => match v with
    | some v => [(b + e * sb, leBytes sb v)]
    | none => []
  let cb := fmtWidthB (pdCfmt d)
  opt x.s1 o.ms ++ opt x.s2 o.vs ++ [(x.p + e * pb, leBytes pb o.w)] ++
    (if pdCopy d then [(x.cpy + e * cb, leBytes cb (copyOutBits d k.t e o.w Exc.none).1)] else [])

/-- Bytes outside what an update may write are as they were, but for the event rings in use. -/
def UpdateFrame (s t : State) (x : PuRun) : Prop :=
  ∀ a, ¬ inEventRing s a → (∀ y ∈ x.extents, y.2.2.2.2 = true → ¬ (y.1 ≤ a ∧ a < y.1 + y.2.1)) → memByte t a = memByte s a

/-- R361, R363 to R376: one repeat of PU_STEP or PU_ROWS on a block that meets no condition. A frozen block is left alone,
or halts with FROZEN under STRICT. With a schedule, the rate is asked of the dose engine and nothing else is done. Else,
unless GUARD finds a gradient that is not finite, the update is made: T moves on by one, nothing outside the tables that
are written changes, and under SGDM, ADAM and ADAMW each element becomes what R366 to R371 give. -/
def Obligations.UpdateSteps : Prop :=
  ∀ (cl : Fin 8) (s : State) (c : Cur) (x : PuRun) (da : Nat),
    let e : Eng := ⟨cl.val, 25⟩
    let q := getQ s cl.val 25
    let h := leNat (bytesAt s x.hdr 64)
    let frozen := bitsOf h 32 1 = 1
    let cmd : Instr := if x.rows then .puRows cl else .puStep cl
    let k := (puConst x.d (pdLr x.d) (nextT (bitsOf h 0 32)) Exc.none).1
    let list := (List.range (pdNlist x.d)).map (fun i => leNat (bytesAt s (x.idx + 4 * i) 4))
    Running s cl.val 25 c → wOpcode c.word = (if x.rows then 0x11 else 0x10) → Sound s → awaitsDose s cl.val c = false →
    x.e = e → x.c = c → arAddress (arOf q (wOp c.word 192 4)) c.rep = some da → accessCondition s e da 128 64 .read = none →
    x.d = leNat (bytesAt s da 128) → puDescConditions x.rows x.d = [] → UpdateAddrs q x →
    accessCondition s e x.hdr 64 64 .read = none → bitsOf h 33 479 = 0 →
    (frozen → pdStrict x.d = true → Completes cmd s (fun t =>
      HaltedAs s t cl.val 25 0x0F c.slot c.rep c.wrote ∧ t.flights = s.flights)) ∧
    (frozen → pdStrict x.d = false → Completes cmd s (fun t => RepeatDone s t cl.val 25 c ∧
      (∀ a, ¬ inEventRing s a → memByte t a = memByte s a) ∧ t.sems = s.sems ∧ RegsBut s t (puRegs cl.val) 0x40)) ∧
    (¬ frozen → anyOverlap (x.extents.map (fun y => (y.1, y.2.1))) = false →
      (∀ y ∈ x.extents, (y.2.2.2.1 = true → accessCondition s e y.1 y.2.1 y.2.2.1 .read = none) ∧
        (y.2.2.2.2 = true → accessCondition s e y.1 y.2.1 y.2.2.1 .write = none)) →
      (x.rows = true → ∀ r ∈ list, r < pdRows x.d) →
      (pdSched x.d ≠ 0 → Completes cmd s (fun t => StaysInProgress s t cl.val 25 c ∧ KeepsMemory s t ∧
        (getPue t cl.val).ask = some s.dose.serial ∧
        ∃ r, t.dose.reqs = s.dose.reqs.filter (fun y => decide (y.cl ≠ some cl.val)) ++ [r] ∧
          r.addr = BitVec.ofNat 48 (pdSched x.d) ∧ r.t = BitVec.ofNat 32 (pdGstep x.d) ∧ r.serial = s.dose.serial)) ∧
      (pdSched x.d = 0 → Completes cmd s (fun t =>
        RepeatDone s t cl.val 25 c ∧ t.sems = s.sems ∧ t.ctxs = s.ctxs ∧ UpdateFrame s t x ∧
        RegsBut s t (puRegs cl.val) 0x40 ∧
        (guardTrips s x = true → ∀ a, ¬ inEventRing s a → memByte t a = memByte s a) ∧
        (guardTrips s x = false →
          ((∀ i < 4, ¬ inEventRing s (x.hdr + i)) → leNat (bytesAt t x.hdr 4) = nextT (bitsOf h 0 32)) ∧
          (x.rows = false → pdOpt x.d ≤ 2 → ∀ a, ¬ inEventRing s a → memByte t a = written s
            ((List.range (pdRows x.d * pdCols x.d)).flatMap (elementWrites s x k) ++
              [(x.hdr, leBytes 4 (nextT (bitsOf h 0 32)))]) a)))))

/-- R363, R379, R382: the answer of the dose engine ends the wait of the PUE that asked: with a rate the update is made, and
with a reason the queue halts for it. An answer to a request that is no longer waited for has no effect but that it is
gone. -/
def doseAnsweredClaim : Prop :=
  ∀ (cl : Fin 8) (s : State) (c : Cur) (x : PuRun) (a : DoseAns),
    let p := getPue s cl.val
    let q := getQ s cl.val 25
    mlook s.dose.answers cl.val = some a →
    Running s cl.val 25 c → wOpcode c.word = (if x.rows then 0x11 else 0x10) → x.e = ⟨cl.val, 25⟩ → x.c = c →
    x.d = p.desc.toNat → UpdateAddrs q x →
    (awaitsDose s cl.val c = true → p.ask = some a.serial → a.reason ≠ 0 → q.stopReq = none →
      Completes (.doseAnswer cl) s (fun t => HaltedAs s t cl.val 25 a.reason c.slot c.rep c.wrote ∧
        t.flights = s.flights ∧ mlook t.dose.answers cl.val = none)) ∧
    (awaitsDose s cl.val c = true → p.ask = some a.serial → a.reason = 0 → Sound s →
      (x.rows = true → p.idx.length = pdNlist x.d ∧ ∀ r ∈ p.idx, r < pdRows x.d) → memMapped s x.hdr 4 = true →
      guardTrips s x = false →
      Completes (.doseAnswer cl) s (fun t => RepeatDone s t cl.val 25 c ∧ UpdateFrame s t x ∧
        mlook t.dose.answers cl.val = none ∧ (getPue t cl.val).ask = none ∧
        ((∀ i < 4, ¬ inEventRing s (x.hdr + i)) → leNat (bytesAt t x.hdr 4) = nextT p.t.toNat))) ∧
    ((awaitsDose s cl.val c = false ∨ p.ask ≠ some a.serial) → Completes (.doseAnswer cl) s (fun t =>
      getQ t cl.val 25 = q ∧ mlook t.dose.answers cl.val = none ∧ KeepsMemory s t ∧ t.flights = s.flights))

/-- R378 to R382, R389: the oldest request is served: the rate its schedule gives at its step, evaluated or recalled from
the 16 most recent evaluations, or the reason its descriptor stops it with. A test request is queued behind the others,
one at a time, and its answer goes to the test registers. -/
def doseEngineClaim : Prop :=
  (∀ (s : State) (r : DoseReq) (rest : List DoseReq) (d : Nat),
    let hit := s.dose.recent.find? (fun e => decide (e.desc.toNat = d ∧ e.t = r.t))
    let rate := match hit with
      | some e => (e.lr64, e.lr)
      | none => doseValue d r.t.toNat
    let answers := fun (t : State) (reason : Nat) (lr : W64 × W32) =>
      t.dose.reqs = rest ∧ KeepsMemory s t ∧ t.queues = s.queues ∧
      match r.cl with
      | some cl => mlook t.dose.answers cl = some { serial := r.serial, reason := reason, lr := lr.2 }
      | none => if reason = 0 then getReg t (doseRegs + 0x1C) = 2 ∧ getReg t (doseRegs + 0x20) = lr.2 ∧
            getCtr t (doseRegs + 0x24) = lr.1
          else getReg t (doseRegs + 0x1C) = BitVec.ofNat 32 (6 + reason * 256)
    s.dose.reqs = r :: rest → Sound s →
    (∀ x u, readSchedule r s = (.error x, u) → x ≠ 0 → Completes .doseEvaluate s (fun t => answers t x (0, 0))) ∧
    (∀ u, readSchedule r s = (.ok d, u) → Completes .doseEvaluate s (fun t => answers t 0 rate ∧
      (hit = none → t.dose.recent = ({ desc := BitVec.ofNat 512 d, t := r.t, lr64 := rate.1, lr := rate.2 } ::
        s.dose.recent).take 16)))) ∧
  (∀ (i : Initiator) (v : W32) (s : State), mayAccess s i (doseRegs + 0x1C) 4 .write = true →
    (s.dose.reqs.any (fun r => r.cl.isNone) = true → exec (.doseTestGo i v) s = .next s) ∧
    (s.dose.reqs.any (fun r => r.cl.isNone) = false → Completes (.doseTestGo i v) s (fun t =>
      (∃ r, t.dose.reqs = s.dose.reqs ++ [r] ∧ r.cl = none ∧ r.t = getReg s (doseRegs + 0x18) ∧ r.init = i) ∧
      getReg t (doseRegs + 0x1C) = 0 ∧ t.dose.answers = s.dose.answers ∧ KeepsMemory s t ∧ t.queues = s.queues)))

/-- How the dose engine computes a rate and the PUE takes it. -/
def Obligations.DoseRates : Prop := doseEngineClaim ∧ doseAnsweredClaim

/-! ### The switch core (11_switch_core_and_buffers.md, 12_scheduling_and_policing.md) -/

/-- The record of a frame whose header has been accepted with a decision. -/
def headerTaken (i : InFrame) (bytes : List Byte) (cls : Nat) (d : Decision) (cand : Option Nat) : InFrame :=
  { i with bytes := bytes, cls := cls, decided := some d, candAt := cand }

/-- Frames arriving on other ports, and every egress queue, are as they were. -/
def OtherArrivals (p : Nat) (s t : State) : Prop := (∀ q, q ≠ p → ingressOf t q = ingressOf s q) ∧ t.egq = s.egq

/-- No entry of the forwarding tables holds an error (R534). -/
def TablesSound (s : State) : Prop := ∀ k m, DevItem.entry k m ∉ s.bad

/-- No record of a buffer holds an error (R534). -/
def BuffersSound (s : State) : Prop := ∀ k, badBuf s k = false

/-- R395: a frame is taken in when the staging queue of its lane group has room for the largest frame of its port, and else is
lost whole and counted; the frames put together on harness ports lie in the queue too. A lane that receives nothing takes none
in. -/
def frameStartClaim : Prop :=
  ∀ (lane : Fin 1024) (staged : BitVec 16) (s : State),
    let p := lane.val
    let fp := fpRegs (p / 32)
    let fill := Nat.max staged.toNat (stagingFill { s with staging := mdel s.staging (p / 8) } (p / 8))
    let i : InFrame := { refused := decide (32768 - fill < maxFrame s p), bytes := [], cls := 0, decided := none,
                         candAt := none, started := false, damaged := false }
    (receiving s p = false → exec (.frameStart lane staged) s = .next s) ∧
    (receiving s p = true →
      Completes (.frameStart lane staged) s (fun t => ingressOf t p = ingressOf s p ++ [i] ∧ OtherArrivals p s t ∧ KeepsMemory s t ∧
        stagingFill t (p / 8) = fill ∧
        getReg t (fp + 0x10) = (if i.refused then satInc 1 (getReg s (fp + 0x10)) else getReg s (fp + 0x10)) ∧
        ∀ a, a ≠ fp + 0x10 → getReg t a = getReg s a))

/-- R395, R398, R404, R407, R414, R432, R439, R444: the oldest header that waits is accepted, each pipeline taking one a cycle: its
class, its policer, which a malformed frame does not meet, its decision, and for a frame with an IP length its buffer. A frame
without one is stored in the staging queue until its end, and a control frame takes no decision. -/
def frameHeaderClaim : Prop :=
  ∀ (lane : Fin 1024) (bytes : List Byte) (now : W64) (s : State),
    let p := lane.val
    let fp := fpRegs (p / 32)
    let waits := fun (i : InFrame) => !i.refused && i.decided.isNone && i.bytes.isEmpty
    ((ingressOf s p).findIdx? waits = none → exec (.frameHeader lane bytes now) s = .next (advanceFwd (p / 128) now s)) ∧
    (∀ (k : Nat) (i : InFrame), (ingressOf s p).findIdx? waits = some k → (ingressOf s p)[k]? = some i →
      let h := parseFrame bytes
      let cls := frameClass s p h
      let n := promisedLength bytes h
      let r := policerRegs p cls
      let at' := Nat.max now.toNat (s.hdrAt.getD (p / 32) 0)
      let d := decideFrame s p cls false bytes h
      let noted := fun (j : InFrame) (t : State) =>
        ingressOf t p = (ingressOf s p).set k j ∧ OtherArrivals p s t ∧ KeepsMemory s t
      let heard := fun (d' : Decision) (cand : Option Nat) (t : State) =>
        noted (headerTaken i bytes cls d' cand) t ∧ getCtr t fp = getCtr s fp + 1
      let policed := malformedFrame h = false ∧ harnessRole s p = false ∧ bitOf (getReg s r) 0 = true
      ((bytes.length < 14 ∨ beAt bytes 12 2 = 0x8808) → Completes (.frameHeader lane bytes now) s
        (noted (headerTaken i bytes 0 .control none))) ∧
      (needsEnd bytes = true → Completes (.frameHeader lane bytes now) s (noted { i with bytes := bytes })) ∧
      (14 ≤ bytes.length → beAt bytes 12 2 ≠ 0x8808 → h.l3 ≠ 0 →
        (policed → shaperAllows (clamped s (p / 128) (mget 0 s.policers (p * 8 + cls))) (getReg s (r + 4)).toNat
            (regField s (r + 8) 0 24) at' = false →
          Completes (.frameHeader lane bytes now) s (heard (.drop [r + 0xC]) none)) ∧
        (¬ policed → TablesSound s →
          ((∀ out rw b, d ≠ .forward out rw b) → Completes (.frameHeader lane bytes now) s (heard d none)) ∧
          (∀ out rw, d = .forward out rw none →
            (refusedAtEnqueue s out = true → Completes (.frameHeader lane bytes now) s (heard d none)) ∧
            (refusedAtEnqueue s out = false →
              (allocPool s (egCluster out) (egOwner out cls) n = none →
                Completes (.frameHeader lane bytes now) s (heard (.refused out) none)) ∧
              (∀ q, allocPool s (egCluster out) (egOwner out cls) n = some q →
                Completes (.frameHeader lane bytes now) s (fun t => ∃ b,
                  heard (.forward out rw (some b)) (if q < 6 ∧ cutThroughOk s p out h n = true then some (at' + 1) else none) t ∧
                  (getBuf t b).held = true ∧ (getBuf t b).owner = egOwner out cls ∧ (getBuf t b).refs = 1 ∧
                  (getBuf t b).gen = (getBuf s b).gen + 1 ∧ ∀ b2, b2 ≠ b → getBuf t b2 = getBuf s b2)))))))

/-- R394, R405 to R407, R414, R421, R453, R534: when a frame's last byte has come, its FCS is judged first: a wrong one is counted,
and a TFT frame of an open context is then a damaged packet; a frame of a wrong length is counted and dropped, and any other
goes where its decision says. A frame refused at its start does nothing more. -/
def frameEndClaim : Prop :=
  ∀ (lane : Fin 1024) (rest : List Byte) (now : W64) (s : State) (i : InFrame) (r : List InFrame),
    let p := lane.val
    let fp := fpRegs (p / 32)
    let cmd : Instr := .frameEnd lane rest now
    let f := i.bytes ++ rest
    let body := f.take (f.length - 4)
    let fcs := f.drop (f.length - 4)
    let inverted := fcs = (fcsOf body).map (fun b => ~~~b)
    let wrong := i.damaged = true ∨ fcs ≠ fcsOf body
    let fits := 64 ≤ f.length ∧ f.length ≤ maxFrame s p
    let calm := fun (t : State) => ingressOf t p = r ∧ (∀ q, q ≠ p → ingressOf t q = ingressOf s q) ∧ KeepsMemory s t
    (ingressOf s p = [] → exec cmd s = .next (advanceFwd (p / 128) now s)) ∧
    (ingressOf s p = i :: r → i.refused = true → Completes cmd s (fun t => calm t ∧ t.egq = s.egq ∧ t.bufs = s.bufs ∧
      ∀ a, getReg t a = getReg s a)) ∧
    (∀ d, ingressOf s p = i :: r → i.refused = false → i.decided = some d → i.started = false →
      (∀ out rw b, d = .forward out rw (some b) → (getBuf s b).held = true ∧ badBuf s b = false) →
      let x := getCtx s (leAt (((body.drop (parseFrame body).l4off).take (parseFrame body).ulen).drop 8) 0 8 / 2 ^ 16 % 2 ^ 18)
      let gone := fun (ctr : Nat) (t : State) => calm t ∧ t.egq = s.egq ∧
        getReg t ctr = satInc 1 (getReg s ctr) ∧ (∀ a, a ≠ ctr → getReg t a = getReg s a) ∧
        ∀ out rw b, d = .forward out rw (some b) → (getBuf t b).held = false
      let onward := (∃ out rw b, d = .forward out rw b) ∨ ∃ ps, d = .flood ps
      (wrong → Completes cmd s (fun t => gone (fp + if i.damaged = false ∧ inverted then 0x20 else 0x1C) t ∧
        (d = .terminate → x.isOpen = true → x.failed = false → ∃ a, a.damaged = true ∧
          mget [] t.arrivals x.homeCl.toNat = mget [] s.arrivals x.homeCl.toNat ++ [a]) ∧
        (d ≠ .terminate → t.arrivals = s.arrivals))) ∧
      (¬ wrong → f.length < 64 → Completes cmd s (gone (fp + 0x14))) ∧
      (¬ wrong → 64 ≤ f.length → maxFrame s p < f.length → Completes cmd s (gone (fp + 0x18))) ∧
      (¬ wrong → fits →
        (onward → lenErr body = true → Completes cmd s (gone (fp + 0x30))) ∧
        (d = .control → Completes cmd s (fun t => calm t ∧ t.egq = s.egq ∧ t.bufs = s.bufs ∧ ∀ a, getReg t a = getReg s a)) ∧
        (∀ cs, d = .drop cs → Completes cmd s (fun t => calm t ∧ t.egq = s.egq ∧ (∀ a ∉ cs, getReg t a = getReg s a) ∧
          (cs.Nodup → ∀ a ∈ cs, getReg t a = satInc 1 (getReg s a)))) ∧
        (∀ out, d = .refused out → Completes cmd s (fun t => calm t ∧ t.egq = s.egq ∧ t.bufs = s.bufs ∧
          (getOwner t (egCluster out) (egOwner out i.cls)).drop =
            satInc 1 (getOwner s (egCluster out) (egOwner out i.cls)).drop)) ∧
        (∀ out rw b, d = .forward out rw (some b) → lenErr body = false → refusedAtEnqueue s out = true →
          Completes cmd s (fun t => calm t ∧ t.egq = s.egq ∧ (getBuf t b).held = false ∧
            (getOwner t (egCluster out) (egOwner out i.cls)).drop =
              satInc 1 (getOwner s (egCluster out) (egOwner out i.cls)).drop)) ∧
        (∀ out rw b, d = .forward out rw (some b) → lenErr body = false → refusedAtEnqueue s out = false → Sound s →
          memMapped s (bufAddr s b) (Nat.max 1 body.length) = true → body.length ≤ poolSize (bufPool b) →
          Completes cmd s (fun t =>
            ingressOf t p = r ∧ (∀ q, q ≠ p → ingressOf t q = ingressOf s q) ∧
            (∃ e, (getEq t out i.cls).frames = (getEq s out i.cls).frames ++ [e] ∧ e.buf = b ∧
              e.owner = egOwner out i.cls ∧ e.len = body.length ∧ e.rw = rw ∧ e.elen = egressLength body rw) ∧
            (∀ p2 c2, egKey p2 c2 ≠ egKey out i.cls → getEq t p2 c2 = getEq s p2 c2) ∧
            (∀ a, memByte t a = written s [(bufAddr s b, body)] a) ∧ t.bufs = s.bufs ∧ ∀ a, getReg t a = getReg s a)))) ∧
    -- a frame without IP length: its header is accepted now, by its whole length
    (let h := parseFrame body
     let cls := frameClass s p h
     let d := decideFrame s p cls false body h
     ingressOf s p = i :: r → i.refused = false → i.decided = none → i.started = false → ¬ wrong → fits → needsEnd body = true →
     (malformedFrame h = true ∨ harnessRole s p = true ∨ bitOf (getReg s (policerRegs p cls)) 0 = false) → TablesSound s →
     (∀ cs, d = .drop cs → Completes cmd s (fun t => calm t ∧ t.egq = s.egq ∧ getCtr t fp = getCtr s fp + 1 ∧
       (cs.Nodup → ∀ a ∈ cs, getReg t a = satInc 1 (getReg s a)))) ∧
     (∀ out rw q, d = .forward out rw none → refusedAtEnqueue s out = false → Sound s →
       allocPool s (egCluster out) (egOwner out cls) body.length = some q →
       Completes cmd s (fun t => ingressOf t p = r ∧ getCtr t fp = getCtr s fp + 1 ∧
         ∃ e, (getEq t out cls).frames = (getEq s out cls).frames ++ [e] ∧ e.owner = egOwner out cls ∧ e.len = body.length ∧
           e.rw = rw ∧ (getBuf t e.buf).held = true ∧ (getBuf t e.buf).owner = egOwner out cls))) ∧
    -- a frame that has started as a cut-through frame
    (∀ out rw b, ingressOf s p = i :: r → i.refused = false → i.decided = some (.forward out rw (some b)) → i.started = true →
      Sound s → memMapped s (bufAddr s b) (Nat.max 1 body.length) = true → body.length ≤ poolSize (bufPool b) →
      let bad := wrong ∨ ¬ fits ∨ lenErr body = true
      let mine := fun (x : TxFrame) => x.cutThrough && decide (x.frame.map (fun f => f.buf) = some b)
      Completes cmd s (fun t => ingressOf t p = r ∧ t.egq = s.egq ∧ t.bufs = s.bufs ∧
        (∀ a, memByte t a = written s [(bufAddr s b, body)] a) ∧
        (getPort t out).tx.length = (getPort s out).tx.length ∧
        ∀ (k : Nat) (x : TxFrame), (getPort s out).tx[k]? = some x → ∃ y, (getPort t out).tx[k]? = some y ∧
          (mine x = false → y = x) ∧
          (mine x = true → y.open' = false ∧ y.waits = false ∧ y.frame = x.frame ∧
            let sent := match rw with
              | some w => rewriteFrame body (parseFrame body) w
              | none => body
            let sent := if x.marked then markCe sent (parseFrame sent) else sent
            (bad → y.stomped = true ∧ y.bytes = withStomp sent) ∧ (¬ bad → y.stomped = false ∧ y.bytes = withFcs sent))))

/-- How frames come in. -/
def Obligations.FramesArrive : Prop := frameStartClaim ∧ frameHeaderClaim ∧ frameEndClaim

/-- A frame is on the wire of port `p`, behind what its transmit stage holds (R429). -/
def Sent (s t : State) (p : Nat) (x : TxFrame) : Prop := (getPort t p).tx = (getPort s p).tx ++ [x]

/-- R397, R405, R418, R420, R424, R428 to R433, R436, R438, R445: in a cycle an egress stage starts one frame: of the first
ready port in rotation, a flow control frame ahead of all, else the head of the class chosen, charged at its start, or the
candidate that may be cut through; nothing where no port is ready. A frame sent gives its buffer back, on a harness link as
worms (R478, R481), one whose end had not come ended short. The queues of a harness port whose link has gone with a unit are
flushed (R421). Frames too old are dropped, slots of the wheel that have begun release their entries, and old arrival times are
brought up. -/
def Obligations.FramesLeave : Prop :=
  (∀ (fp : Fin 32) (now : W64) (s : State),
    let n := now.toNat
    let cs := candidates s fp.val
    let u := enterWheel fp.val n s
    let ready := (fpPorts u fp.val).filter (fun p => pfcReady u p || portReady u n p cs)
    let left := fun (p : Nat) => (getPort s p).linkUp = true ∨ (getPort s p).tx ≠ [] ∨ ∃ c < 8, (getEq s p c).frames ≠ []
    Sound s → BuffersSound s →
    (∀ p ∈ fpPorts s fp.val, harnessRole s p = true → linkUp s p = false → left p → Completes (.egressStart fp now) s (fun t =>
      (∀ c < 8, (getEq t p c).frames = []) ∧ (getPort t p).tx = [])) ∧
    ((∀ p ∈ fpPorts s fp.val, harnessRole s p = true → linkUp s p = false → ¬ left p) →
    (rotationPick (s.egLast.getD fp.val 0) ready = none → Completes (.egressStart fp now) s (fun t =>
      (∀ p, getPort t p = getPort u p) ∧ t.egq = u.egq ∧ KeepsMemory s t ∧ t.egLast = s.egLast)) ∧
    (∀ p, rotationPick (s.egLast.getD fp.val 0) ready = some p →
      (∀ c quanta more, pfcReady u p = true → (getPort u p).pfcOut = (c, quanta) :: more →
        Completes (.egressStart fp now) s (fun t => (∃ x, Sent u t p x ∧ x.frame = none ∧ x.bytes = withFcs (pfcFrame u p c quanta)) ∧
          (getPort t p).pfcOut = more ∧ t.egq = u.egq ∧ t.egLast = s.egLast.set fp.val p ∧ KeepsMemory s t)) ∧
      (pfcReady u p = false →
        (∀ c, (∀ c2, c < c2 → c2 < 8 → (qSp u p c2 && eligible u n p c2 cs) = false) → c < 8 →
          (qSp u p c && eligible u n p c cs) = true → (chooseClass p n cs u).2 = some c) ∧
        (∀ c f more, (chooseClass p n cs u).2 = some c → c < 8 → (getEq u p c).frames = f :: more →
          let body := bytesAt s (bufAddr s f.buf) f.len
          let sent := match f.rw with
            | some r => rewriteFrame body (parseFrame body) r
            | none => body
          let units := lengthUnits (qPkt s p c) (portOverhead s p) f.elen
          qMark s p c = false →
          Completes (.egressStart fp now) s (fun t =>
            (∃ x, Sent u t p x ∧ x.frame = some f ∧ x.cls = c ∧ x.stomped = false ∧ x.cutThrough = false ∧
              x.bytes = (if harnessRole s p then sent else withFcs sent) ∧
              (harnessRole s p = false → x.worms = []) ∧
              (harnessRole s p = true → f.via = none → sent.length ≤ 18176 → x.worms.flatMap (fun w => w.bytes) = sent ∧
                ∀ (k : Nat) (w : Worm), x.worms[k]? = some w → w.cls = .pkt ∧ w.bytes.length ≤ 4544 ∧ w.dhid = (getPort s p).peer ∧
                  w.shid = s.harness.addr ∧ w.hops = 0 ∧ w.routed = f.rw.isSome ∧ w.poison = [] ∧
                  w.first = decide (k = 0) ∧ w.last = decide (k + 1 = x.worms.length))) ∧
            (getEq t p c).frames = more ∧
            (getEq t p c).tat = shaperCharge (clamped s (p / 128) (getEq u p c).tat) (qCpu s p c) units n ∧
            (getPort t p).tat = shaperCharge (clamped s (p / 128) (getPort u p).tat) (pCpu s p) (lengthUnits (pPkt s p) (portOverhead s p) f.elen) n ∧
            (more = [] → (getEq t p c).deficit = 0) ∧
            getCtr t (queueRegs p c + 0x20) = getCtr s (queueRegs p c + 0x20) + 1 ∧
            getCtr t (queueRegs p c + 0x28) = getCtr s (queueRegs p c + 0x28) + BitVec.ofNat 64 units ∧
            (∀ p2, p2 ≠ p → getPort t p2 = getPort u p2) ∧ KeepsMemory s t ∧ t.egLast = s.egLast.set fp.val p)) ∧
        (∀ c x, (chooseClass p n cs u).2 = some c → (getEq u p c).frames = [] → candFor u n p c cs = some x → x.port < 1024 →
          x.cls < 8 → Completes (.egressStart fp now) s (fun t =>
            (∃ y f, (getPort t p).tx = (getPort u p).tx ++ [y] ∧ y.frame = some f ∧ f.buf = x.buf ∧ y.cutThrough = true ∧
              y.open' = true ∧ y.cls = c ∧
              y.waits = decide (x.frame.bytes.length < Nat.min 256 (promisedLength x.frame.bytes (parseFrame x.frame.bytes)))) ∧
            getCtr t (fpRegs (p / 32) + 0x40) = getCtr s (fpRegs (p / 32) + 0x40) + 1 ∧ KeepsMemory s t)))))) ∧
  (∀ (lane : Fin 1024) (s : State), (getPort s lane.val).tx = [] → exec (.frameTxDone lane) s = .next s) ∧
  (∀ (lane : Fin 1024) (s : State) (x : TxFrame) (more : List TxFrame), (getPort s lane.val).tx = x :: more → Sound s →
    (∀ f, x.frame = some f → badBuf s f.buf = false ∧ (getBuf s f.buf).held = true ∧
      (f.owner ≠ 0x1411 → (getBuf s f.buf).owner = f.owner)) →
    let under := fpRegs (lane.val / 32) + 0x34
    (x.waits = true → exec (.frameTxDone lane) s = .next s) ∧
    (x.waits = false → Completes (.frameTxDone lane) s (fun t => (getPort t lane.val).tx = more ∧
      (∀ p c, (getEq t p c).frames = (getEq s p c).frames) ∧ KeepsMemory s t ∧
      (x.open' = false ∨ x.frame = none → (getPort t lane.val).wire = x.bytes) ∧
      (x.open' = false → x.frame.isSome = true → x.worms ≠ [] → mlook t.wormOut lane.val = some x.worms) ∧
      (getReg t under = if x.open' = true ∧ x.frame.isSome = true then satInc 1 (getReg s under) else getReg s under) ∧
      ∀ f, x.frame = some f →
        (f.owner ≠ 0x1411 → (getBuf t f.buf).held = false) ∧
        (f.owner = 0x1411 → 1 < (getBuf s f.buf).refs → (getBuf t f.buf).held = true ∧
          (getBuf t f.buf).refs = (getBuf s f.buf).refs - 1) ∧
        (f.owner = 0x1411 → (getBuf s f.buf).refs ≤ 1 → (getBuf t f.buf).held = false)))) ∧
  (∀ (m : Fin 2) (s : State), Sound s →
    let p := 1024 + m.val
    (∀ c, c < 8 → (∀ c2, c < c2 → c2 < 8 → (getEq s p c2).frames = []) → ∀ f more, (getEq s p c).frames = f :: more →
      badBuf s f.buf = false → (getBuf s f.buf).held = true → (getBuf s f.buf).owner = f.owner → f.owner ≠ 0x1411 →
      Completes (.mgmtEgressStart m) s (fun t => (getEq t p c).frames = more ∧ (getBuf t f.buf).held = false ∧
        t.mgmtTx = s.mgmtTx.set m.val (withFcs (bytesAt s (bufAddr s f.buf) f.len)) ∧ KeepsMemory s t)) ∧
    ((∀ c < 8, (getEq s p c).frames = []) → exec (.mgmtEgressStart m) s = .next s)) ∧
  (∀ (port : Fin 1026) (cls : Fin 8) (now : W64) (s : State),
    let o := getOwner s (egCluster port.val) (egOwner port.val cls.val)
    let old := fun (f : QFrame) => decide (o.ageLimit ≤ (now.toNat % 2 ^ 40 + 2 ^ 40 - f.stamp) % 2 ^ 40)
    BuffersSound s →
    Completes (.ageDrop port cls now) s (fun t =>
      (getEq t port.val cls.val).frames = (if o.ageLimit = 0 then (getEq s port.val cls.val).frames
        else (getEq s port.val cls.val).frames.dropWhile old) ∧
      (getOwner t (egCluster port.val) (egOwner port.val cls.val)).ageDrop =
        (if o.ageLimit = 0 then o.ageDrop else satInc ((getEq s port.val cls.val).frames.takeWhile old).length o.ageDrop) ∧
      ∀ p2 c2, egKey p2 c2 ≠ egKey port.val cls.val → getEq t p2 c2 = getEq s p2 c2)) ∧
  (∀ (fp : Fin 32) (now : W64) (s : State) (p c b : Nat), p ∈ fpPorts s fp.val → c < 8 →
    (getEq s p c).wheel = some b →
    Completes (.wheelSlot fp now) s (fun t => (getEq t p c).frames = (getEq s p c).frames ∧ (getEq t p c).tat = (getEq s p c).tat ∧
      (now.toNat < b → (getEq t p c).wheel = some b) ∧
      (b ≤ now.toNat → shaperAllows (clamped s (p / 128) (getEq s p c).tat) (qCpu s p c) (qBurst s p c) now.toNat = true →
        (getEq t p c).wheel = none) ∧
      (b ≤ now.toNat → shaperAllows (clamped s (p / 128) (getEq s p c).tat) (qCpu s p c) (qBurst s p c) now.toNat = false →
        qShape s p c = true → (getEq s p c).frames ≠ [] → (getEq t p c).wheel =
          some (wheelSlot (slotLog2 s fp.val) now.toNat (clamped s (p / 128) (getEq s p c).tat) (qBurst s p c * qCpu s p c)).1) ∧
      KeepsMemory s t)) ∧
  (∀ (cl : Fin 8) (now : W64) (s : State),
    let lo := (now.toNat - 2 ^ 37) * 2 ^ 20
    -- arrival times within 2^39 cycles of now, where their 40-bit difference tells which is later
    let near := fun (x : Nat) => now.toNat * 2 ^ 20 ≤ x + 2 ^ 59 ∧ x < now.toNat * 2 ^ 20 + 2 ^ 59
    Completes (.tatClamp cl now) s (fun t =>
      (∀ p c, c < 8 → (getEq t p c).frames = (getEq s p c).frames ∧ (p / 128 ≠ cl.val → getEq t p c = getEq s p c)) ∧
      (∀ p, (getPort t p).tx = (getPort s p).tx ∧ (p / 128 ≠ cl.val → getPort t p = getPort s p)) ∧
      (cl.val < s.clampLo.length →
        (∀ p c, c < 8 → p / 128 = cl.val → near (clamped s cl.val (getEq s p c).tat) →
          clamped t cl.val (getEq t p c).tat = Nat.max lo (clamped s cl.val (getEq s p c).tat)) ∧
        (∀ p, p / 128 = cl.val → near (clamped s cl.val (getPort s p).tat) →
          clamped t cl.val (getPort t p).tat = Nat.max lo (clamped s cl.val (getPort s p).tat)) ∧
        (∀ k, k / 8 / 128 = cl.val → near (clamped s cl.val (mget 0 s.policers k)) →
          clamped t cl.val (mget 0 t.policers k) = Nat.max lo (clamped s cl.val (mget 0 s.policers k)))) ∧ KeepsMemory s t))

/-- The queues of a port as a flush leaves them (R421): no frame waits and none is being sent; the drops count. -/
def Flushed (s t : State) (p : Nat) : Prop :=
  (∀ c < 8, (getEq t p c).frames = []) ∧ (getPort t p).tx = [] ∧
  ((getPort s p).tx = [] → ∀ c < 8, (getOwner t (p / 128) (egOwner p c)).flushDrop =
    satInc (getEq s p c).frames.length (getOwner s (p / 128) (egOwner p c)).flushDrop)

/-- R392, R394, R400, R401, R410, R412, R421 to R423, R445, R479, R620: what the registers, links and pauses of the switch
core do: a division of the pools that is checked whole, reservations that fit, table entries replaced whole, a lane group
mode that makes new ports, the fields of PORT_CFG, links going down and up, pauses received, ended and repeated, and what
an audit finds. -/
def Obligations.SwitchSettings : Prop :=
  (∀ (i : Initiator) (cl : Fin 8) (v : W32) (s : State), mayAccess s i (bpmRegs cl.val + 0xC) 4 .write = true →
    let ok := (poolCfgMib s cl.val).sum = 32 ∧ (∀ k < 128, adminUp s (128 * cl.val + k) = false) ∧
      (∀ x ∈ s.owners, x.1 / 8192 = cl.val → x.2.locked = false) ∧ heldBufs s cl.val = []
    (ok → Completes (.poolApply i cl v) s (fun t => t.poolMib = s.poolMib.set cl.val (poolCfgMib s cl.val) ∧
      regField t (bpmRegs cl.val) 0 1 = 0 ∧ t.bufs = s.bufs ∧ KeepsMemory s t)) ∧
    (¬ ok → Completes (.poolApply i cl v) s (fun t => t.poolMib = s.poolMib ∧ regField t (bpmRegs cl.val) 0 1 = 1 ∧
      t.bufs = s.bufs ∧ KeepsMemory s t))) ∧
  (∀ (i : Initiator) (cl : Fin 8) (pair : Fin 3) (v : W32) (s : State),
    mayAccess s i (bpmRegs cl.val + 0x104 + 4 * pair.val) 4 .write = true →
    let o := ownSel s cl.val
    let x := getOwner s cl.val o
    let a := (fld v 0 16, fld v 16 16)
    let fits := fun (p n : Nat) => n ≤ x.resOf p ∨ resSum s cl.val p - x.resOf p + n ≤ poolCount s cl.val p
    (ownWritable s cl.val o = false → exec (.ownResWrite i cl pair v) s = .next s) ∧
    (ownWritable s cl.val o = true → fits (2 * pair.val) a.1 ∧ fits (2 * pair.val + 1) a.2 →
      Completes (.ownResWrite i cl pair v) s (fun t =>
        getOwner t cl.val o = { x with res := (x.res.set (2 * pair.val) a.1).set (2 * pair.val + 1) a.2 } ∧
        ∃ l, t = { s with owners := l })) ∧
    (ownWritable s cl.val o = true → ¬ (fits (2 * pair.val) a.1 ∧ fits (2 * pair.val + 1) a.2) →
      Completes (.ownResWrite i cl pair v) s (fun t => getOwner t cl.val o = { x with resRefused := true } ∧
        ∃ l, t = { s with owners := l }))) ∧
  (∀ (i : Initiator) (die : Fin 4) (v : W32) (s : State), mayAccess s i (ftRegs die.val + 4) 4 .write = true →
    let b := ftRegs die.val
    let tbl := regField s b 0 4
    let idx := regField s b 4 20
    let named := tbl ≤ 8 ∧ idx < ftSize tbl
    (named → Completes (.ftWrite i die v) s (fun t =>
      (∀ k < 8, fld (BitVec.ofNat 32 (ftEntry t die.val tbl idx / 2 ^ (32 * k))) 0 32 = (getReg s (b + 0x20 + 4 * k)).toNat) ∧
      (∀ k, k ≠ ftKey die.val tbl idx → mget 0 t.ft k = mget 0 s.ft k) ∧ regField t (b + 4) 2 1 = 0 ∧
      (∀ a, a ≠ b + 4 → getReg t a = getReg s a) ∧ KeepsMemory s t)) ∧
    (named → Completes (.ftRead i die v) s (fun t =>
      (∀ k < 8, getReg t (b + 0x20 + 4 * k) = BitVec.ofNat 32 (ftEntry s die.val tbl idx / 2 ^ (32 * k))) ∧ t.ft = s.ft ∧
      regField t (b + 4) 2 1 = 0 ∧ KeepsMemory s t)) ∧
    (¬ named → ∀ c ∈ [Instr.ftWrite i die v, .ftRead i die v], Completes c s (fun t => t.ft = s.ft ∧
      regField t (b + 4) 2 1 = 1 ∧ ∀ a, a ≠ b + 4 → getReg t a = getReg s a))) ∧
  (∀ (g : Fin 128) (v : W32) (s : State),
    let up := ∃ k < 8, adminUp s (8 * g.val + k) = true
    (up ∨ lgMode s g.val = fld v 0 2 → exec (.lgCfgWrite .mc g v) s = .next s) ∧
    (BuffersSound s → ¬ up → lgMode s g.val ≠ fld v 0 2 → Completes (.lgCfgWrite .mc g v) s (fun t => lgMode t g.val = fld v 0 2 ∧
      ∀ k < 8, (∀ a, portRegs (8 * g.val + k) ≤ a → a < portRegs (8 * g.val + k) + 8 → getReg t a = regReset a) ∧
        ∀ c < 8, getEq t (8 * g.val + k) c = EgQueue.reset))) ∧
  (∀ (lane : Fin 1024) (v : W32) (s : State),
    let p := lane.val
    let role := if fld v 1 2 < 2 then fld v 1 2 else fld (portCfg s p) 1 2
    let up := bitOf v 0 && (decide (role = 1) || s.harness.configured || decide (s.harness.role = 0))
    (isPort s p = false → exec (.portCfgWrite .mc lane v) s = .next s) ∧
    (BuffersSound s → isPort s p = true → Completes (.portCfgWrite .mc lane v) s (fun t =>
      adminUp t p = up ∧ fld (portCfg t p) 1 2 = role ∧ ctEnabled t p = bitOf v 3 ∧
      maxFrame t p = (if 64 ≤ fld v 16 15 ∧ fld v 16 15 ≤ 16384 then fld v 16 15 else maxFrame s p) ∧
      ((adminUp s p = true ∧ up = false) ∨ role ≠ fld (portCfg s p) 1 2 → linkUp t p = false) ∧
      (harnessRole s p = false → t.egq = s.egq) ∧
      (harnessRole s p = true → adminUp s p = true → up = false → Flushed s t p)))) ∧
  (∀ (lane : Fin 1026) (s : State), 1024 ≤ lane.val → lane.val < 1024 + s.mgmtDown.length → BuffersSound s →
    let p := lane.val
    Completes (.portLinkDown lane) s (fun t => refusedAtEnqueue t p = true ∧
      ∀ c < 8, (getEq t p c).frames = [] ∧ ((getPort s p).tx = [] → (getOwner t 0 (egOwner p c)).flushDrop =
        satInc (getEq s p c).frames.length (getOwner s 0 (egOwner p c)).flushDrop)) ∧
    Completes (.portLinkUp lane) s (fun t => refusedAtEnqueue t p = false ∧ ∃ l, t = { s with mgmtDown := l })) ∧
  (∀ (lane : Fin 1026) (s : State), isPort s lane.val = true → BuffersSound s →
    let p := lane.val
    Completes (.portLinkDown lane) s (fun t => linkUp t p = false ∧ ingressOf t p = [] ∧
      (harnessRole s p = false → t.egq = s.egq ∧ (getPort t p).tx = (getPort s p).tx) ∧
      (harnessRole s p = true → Flushed s t p)) ∧
    (adminUp s p = true → linkUp s p = false → portLost s p = false → bitOf (getReg s (oeEngineRegs (p / 32) + 4)) (p % 32 / 8) = false →
      (harnessRole s p = false → Completes (.portLinkUp lane) s (fun t => linkUp t p = true ∧ t.egq = s.egq ∧ KeepsMemory s t)) ∧
      (harnessRole s p = true → s.harness.phy.contains p = false → Completes (.portLinkUp lane) s (fun t =>
        linkUp t p = false ∧ t.harness.phy = s.harness.phy ++ [p] ∧ KeepsMemory s t ∧
        t.harness.sent = s.harness.sent ++ (if heldInReset s then [] else [.hello p (ownHello s)]))))) ∧
  (∀ (lane : Fin 1024) (enable : BitVec 8) (quanta : List W16) (now : W64) (s : State),
    let p := lane.val
    linkUp s p = true → harnessRole s p = false →
    Completes (.pfcReceive lane enable quanta now) s (fun t =>
      (∀ c < 8, c < (getPort s p).paused.length → (getPort t p).paused.getD c none =
        let q := (quanta.getD c 0).toNat
        if bitOf enable c = true ∧ bitOf (getReg s (pfcRegs p)) c = true then
          (if q = 0 then none else some (if classPaused s now.toNat p c then (((getPort s p).paused.getD c none).map (fun e => e.1)).getD now.toNat
            else now.toNat, now.toNat + cdiv (q * 512 * 16) (2000 * portLanes s p)))
        else (getPort s p).paused.getD c none) ∧
      t.egq = s.egq ∧ (getPort t p).tx = (getPort s p).tx ∧ KeepsMemory s t)) ∧
  (∀ (lane : Fin 1024) (cls : Fin 8) (now : W64) (e : Nat × Nat) (s : State),
    let p := lane.val
    (getPort s p).paused.getD cls.val none = some e →
    Completes (.pfcPauseExpiry lane cls now) s (fun t => t.egq = s.egq ∧ KeepsMemory s t ∧
      getPort t p = if e.2 ≤ now.toNat then { getPort s p with paused := (getPort s p).paused.set cls.val none } else getPort s p)) ∧
  (∀ (lane : Fin 1024) (cls : Fin 8) (s : State),
    let p := lane.val
    isPort s p = true → (getPort s p).xoff.getD cls.val false = true → bitOf (getReg s (pfcRegs p)) (8 + cls.val) = true →
    regField s (pfcRegs p + 8) 0 26 < pfcHeld s p cls.val →
    Completes (.pfcRepeat lane cls) s (fun t => getPort t p = { getPort s p with pfcOut := (getPort s p).pfcOut ++ [(cls.val, 0xFFFF)] } ∧
      ∃ l, t = { s with ports := l })) ∧
  (∀ (cl : Fin 8) (s : State),
    (regField s (bpmRegs cl.val + 0xC) 1 1 = 0 → exec (.auditPass cl) s = .next s) ∧
    (regField s (bpmRegs cl.val + 0xC) 1 1 = 1 → BuffersSound s → ∀ (k : Nat) (r : BufRec), bufCl k = cl.val → getBuf s k = r →
      (r.held = true → s.bufs.filter (fun e => decide (e.1 = k)) = [(k, r)] →
        (k ∈ bufferRefs s → Completes (.auditPass cl) s (fun t => getBuf t k = { r with noted := none })) ∧
        (k ∉ bufferRefs s → r.noted = some r.gen → Completes (.auditPass cl) s (fun t => (getBuf t k).held = false)) ∧
        (k ∉ bufferRefs s → r.noted ≠ some r.gen → Completes (.auditPass cl) s (fun t =>
          getBuf t k = { r with noted := some r.gen }))) ∧
      (r.held = false → k ∈ bufferRefs s → Completes (.auditPass cl) s (fun t =>
        ∀ p c, ∀ f ∈ (getEq t p c).frames, f.buf ≠ k))))

/-! ### The fabric transport (13_transport_and_links.md) -/

/-- Channel `ch` of context `k`. -/
def chanOf (s : State) (k ch : Nat) : Chan := getChan (getCtx s k) ch

/-- The packet at the front of a home cluster's queue, of the kind that `recv` receives, has been taken off: `s1` is the
state it is judged in. -/
def AtFront (s s1 : State) (cl : Fin 8) (now : W64) (typ : Nat) (a : Arrival) : Prop :=
  frontPacket s cl.val typ = some a ∧ s1 = popArrival cl.val (advanceFwd cl.val now s)

/-- R446, R453 to R456, R459, R460, R462: a packet of a context that is not open is counted and dropped, and so is one that
is damaged, malformed or out of order; a duplicate counts and moves nothing. DATA in order joins the receive stream with
its channel's EXP one further, once its payload has a buffer, and counts in NOT_ACCEPTED and in OWN_DROP (R414) where none
is to be had; WRITE in order writes where it may, and else is refused, writes nothing, and is acknowledged all the same;
while a rotation copies the place it would write (R185), it waits. An ACK frees the copies before its ACK_SEQ and sets the rate, unless it
lies ahead of what has been sent. -/
def Obligations.PacketsReceived : Prop :=
  ∀ (cl : Fin 8) (now : W64) (s s1 : State) (a : Arrival),
    let h := parseTft a.packet
    let x := getCtx s h.dst
    let tft := tftRegs cl.val
    let counts := fun (r : Nat) (t : State) => getReg t r = satInc 1 (getReg s r) ∧
      mget [] t.arrivals cl.val = (mget [] s.arrivals cl.val).drop 1
    let nextExp := (chanOf s h.dst h.ch).exp + 1
    let quiet := ¬ (x.ackCount.toNat ≤ (chanOf s h.dst h.ch).sinceAck + 1 ∨ x.ackDelay = 0)
    let live := x.isOpen = true ∧ x.failed = false ∧ x.isGctx = false
    (∀ recv ∈ [(Instr.dataPacketReceive cl now, 0), (.ackPacketReceive cl now, 2), (.writePacketReceive cl now, 3)],
      AtFront s s1 cl now recv.2 a → h.typ = recv.2 → ContextSound s h.dst → (recv.2 = 3 → writeWaits s a = false) →
      ((x.isOpen = false ∨ x.failed = true) → Completes recv.1 s (fun t => counts (tftRegs a.ingress + 0xC) t ∧ t.ctxs = s.ctxs ∧
        KeepsMemory s t)) ∧
      (live → classify s1 a = .damaged → Completes recv.1 s (fun t => counts tft t ∧ t.ctxs = s.ctxs)) ∧
      (live → classify s1 a = .malformed → Completes recv.1 s (fun t => counts (tftRegs a.ingress + 0x10) t ∧ t.ctxs = s.ctxs ∧
        KeepsMemory s t)) ∧
      (live → classify s1 a = .outOfOrder → Completes recv.1 s (fun t => counts (tft + 4) t ∧ t.ctxs = s.ctxs ∧ KeepsMemory s t)) ∧
      (live → classify s1 a = .duplicate → Completes recv.1 s (fun t => getReg t (tft + 8) = satInc 1 (getReg s (tft + 8)) ∧
        (chanOf t h.dst h.ch).exp = (chanOf s h.dst h.ch).exp ∧ (getCtx t h.dst).rx = x.rx ∧
        (chanOf t h.dst h.ch).sinceAck = 0))) ∧
    (AtFront s s1 cl now 0 a → ContextSound s h.dst → live → classify s1 a = .inOrder → 0 < h.len → x.homeCl.toNat = cl.val →
      (allocPool s cl.val tftOwner h.len = none → Completes (.dataPacketReceive cl now) s (fun t =>
        (chanOf t h.dst h.ch).exp = (chanOf s h.dst h.ch).exp ∧ (getCtx t h.dst).rx = x.rx ∧ counts (tft + 0x14) t ∧
        (getOwner t cl.val tftOwner).drop = satInc 1 (getOwner s cl.val tftOwner).drop ∧ KeepsMemory s t)) ∧
      ((allocPool s cl.val tftOwner h.len).isSome = true → Completes (.dataPacketReceive cl now) s (fun t =>
        (chanOf t h.dst h.ch).exp = nextExp ∧ ∃ b, (getCtx t h.dst).rx = x.rx ++ [(b, 0, h.len)] ∧
          (quiet → (getBuf t b).held = true ∧ (getBuf t b).owner = tftOwner ∧ (chanOf t h.dst h.ch).sinceAck =
            (chanOf s h.dst h.ch).sinceAck + 1) ∧
          (quiet → Sound s → memMapped s (bufAddr s b) h.len = true →
            ∀ y, memByte t y = written s [(bufAddr s b, bytesOf (tftPayload a.packet h))] y)))) ∧
    (AtFront s s1 cl now 3 a → writeWaits s a = true →
      exec (.writePacketReceive cl now) s = .next (advanceFwd cl.val now s)) ∧
    (AtFront s s1 cl now 3 a → ContextSound s h.dst → writeWaits s a = false → live → classify s1 a = .inOrder →
      x.homeCl.toNat = cl.val →
      let init : Initiator := .peer (BitVec.ofNat 18 h.dst)
      let addr := h.tag % 2 ^ 48
      let bs := bytesOf (tftPayload a.packet h)
      (peerMayWrite s1 init addr h.len bs = true → touchesMmio addr h.len = false → Completes (.writePacketReceive cl now) s (fun t =>
        (chanOf t h.dst h.ch).exp = nextExp ∧
        (quiet → Sound s → ∀ y, memByte t y = written s [(addr, bs)] y))) ∧
      (peerMayWrite s1 init addr h.len bs = false → Completes (.writePacketReceive cl now) s (fun t =>
        (chanOf t h.dst h.ch).exp = nextExp ∧ getReg t (tft + 0x20) = satInc 1 (getReg s (tft + 0x20)) ∧
        (x.peer.hv = true → KeepsMemory s t)))) ∧
    (AtFront s s1 cl now 2 a → ContextSound s h.dst → BuffersSound s → live → classify s1 a = .ack → h.status = 0 →
      let k := chanOf s h.dst h.ch
      let ack := BitVec.ofNat 32 h.seq
      let freed := k.copies.filter (fun p => decide (0 < seqDiff ack p.seq))
      let n := freed.length
      let m := Nat.min h.ce n
      (0 < seqDiff ack (sendSeq k) → Completes (.ackPacketReceive cl now) s (fun t => counts (tft + 0x1C) t ∧ t.ctxs = s.ctxs)) ∧
      (¬ 0 < seqDiff ack (sendSeq k) → n = 0 → Completes (.ackPacketReceive cl now) s (fun t => t.ctxs = s.ctxs ∧ t.bufs = s.bufs)) ∧
      (¬ 0 < seqDiff ack (sendSeq k) → 0 < n → Completes (.ackPacketReceive cl now) s (fun t =>
        (chanOf t h.dst h.ch).copies = k.copies.filter (fun p => !decide (0 < seqDiff ack p.seq)) ∧
        (chanOf t h.dst h.ch).timeouts = 0 ∧ (chanOf t h.dst h.ch).exp = k.exp ∧
        (getCtx t h.dst).rate.toNat = (if 0 < m then Nat.max x.minRate.toNat (x.rate.toNat - x.rate.toNat * m / (2 * n))
          else Nat.min x.maxRate.toNat (x.rate.toNat + x.aiStep.toNat)) ∧
        ∀ p ∈ freed, (getBuf s p.buf).held = true → (getBuf s p.buf).owner = tftOwner → (getBuf t p.buf).held = false)))

/-- R456 to R458, R460, R461, R482, R632: an ACK that is due goes out with EXP; the next packet of a channel goes out, the
ones to be sent again first, when the pace of its context and the window allow it; a timeout sends every packet again over
the next path at half the rate, until one too many fails the context; and what a producer waits to hand on is offered
again, and stays where it is not taken. Packets to another device of the harness go out in one worm. -/
def Obligations.PacketsSent : Prop :=
  (∀ (ctx : BitVec 18) (ch : Fin 16) (s : State),
    let k := ctx.toNat
    let x := getCtx s k
    let c := chanOf s k ch.val
    (x.isOpen = false ∨ c.sinceAck = 0 → exec (.ackDelayExpiry ctx ch) s = .next s) ∧
    (x.isOpen = true → 0 < c.sinceAck → x.failed = false → Completes (.ackDelayExpiry ctx ch) s (fun t =>
      (chanOf t k ch.val).sinceAck = 0 ∧ (chanOf t k ch.val).ce = 0 ∧ (chanOf t k ch.val).exp = c.exp ∧
      (x.peer.hv = true → KeepsMemory s t ∧ (harnessUp s x.peer.hid.toNat ≠ [] →
        BitVec.ofNat 4 x.peer.hid.toNat ≠ s.harness.addr → ∃ p w, mlook t.wormOut p = some [w] ∧ w.bytes = buildTft { typ := 2, ch := ch.val, dst := x.ackCtx.toNat, src := k, seq := c.exp.toNat } []))))) ∧
  (∀ (ctx : BitVec 18) (ch : Fin 16) (now : W64) (s : State),
    let k := ctx.toNat
    let x := getCtx s k
    let c := chanOf s k ch.val
    ContextSound s k →
    (x.isOpen = false ∨ x.failed = true ∨ now.toNat * 2 ^ 20 < x.tat → Completes (.packetSend ctx ch now) s (fun t =>
      t.ctxs = s.ctxs ∧ t.egq = s.egq ∧ t.wormOut = s.wormOut ∧ KeepsMemory s t)) ∧
    (x.isOpen = true → x.failed = false → x.tat ≤ now.toNat * 2 ^ 20 → Sound s → ∀ (i : Nat) (p : TxPkt),
      c.copies[i]? = some p →
      (c.copies.findIdx? (fun p => p.again) = some i ∨
        (c.copies.findIdx? (fun p => p.again) = none ∧ c.copies.findIdx? (fun (p : TxPkt) => !p.sent) = some i ∧ i ≤ x.winM1.toNat)) →
      badBuf s p.buf = false → x.peer.hv = true → harnessUp s x.peer.hid.toNat ≠ [] →
      BitVec.ofNat 4 x.peer.hid.toNat ≠ s.harness.addr →
      let h : TftHdr := { typ := p.typ.code, ch := ch.val, resend := p.again, dst := x.remoteCtx.toNat, src := k,
                          seq := p.seq.toNat, len := p.len, srcEp := p.srcEp.toNat, stepc := p.stepc.toNat, tag := p.tag.toNat }
      let pkt := buildTft h (bytesAt s (bufAddr s p.buf) p.len)
      Completes (.packetSend ctx ch now) s (fun t =>
        (chanOf t k ch.val).copies = c.copies.set i { p with sent := true, again := false } ∧
        (∃ l w, mlook t.wormOut l = some [w] ∧ w.bytes = pkt ∧ w.dhid.toNat = x.peer.hid.toNat) ∧
        (getCtx t k).tat = Nat.max x.tat (now.toNat * 2 ^ 20) +
          (if x.rate = 0 then 0 else (pkt.length + 20) * 1024 * 2 ^ 20 / x.rate.toNat) ∧
        (getCtx t k).rate = x.rate ∧ KeepsMemory s t)) ∧
    (x.isOpen = true → x.failed = false → c.copies.findIdx? (fun p => p.again) = none →
      (∀ i, c.copies.findIdx? (fun (p : TxPkt) => !p.sent) = some i → x.winM1.toNat < i) →
      Completes (.packetSend ctx ch now) s (fun t => t.ctxs = s.ctxs ∧ t.egq = s.egq ∧ t.wormOut = s.wormOut))) ∧
  (∀ (ctx : BitVec 18) (ch : Fin 16) (now : W64) (s : State),
    let k := ctx.toNat
    let x := getCtx s k
    let c := chanOf s k ch.val
    ContextSound s k → x.isOpen = true → x.failed = false → (∃ p ∈ c.copies, p.sent = true) →
    (x.resendMax = 0 ∨ c.timeouts + 1 < x.resendMax.toNat → Completes (.resendTimeout ctx ch now) s (fun t =>
      (getCtx t k).path = x.path + 1 ∧ (getCtx t k).rate.toNat = Nat.max x.minRate.toNat (x.rate.toNat / 2) ∧
      (chanOf t k ch.val).timeouts = c.timeouts + 1 ∧
      (chanOf t k ch.val).copies = c.copies.map (fun p => { p with again := p.again || p.sent }) ∧
      getReg t (tftRegs x.homeCl.toNat + 0x18) = satInc 1 (getReg s (tftRegs x.homeCl.toNat + 0x18)))) ∧
    (x.resendMax ≠ 0 → x.resendMax.toNat ≤ c.timeouts + 1 → Completes (.resendTimeout ctx ch now) s (fun t =>
      (getCtx t k).failed = true ∧ (getCtx t k).isOpen = true ∧ (∀ n, (chanOf t k n).copies = []) ∧
      (∀ cl q, ∀ y ∈ (getQ t cl q).sends, y.1 ≠ k) ∧
      getReg t (tftRegs x.homeCl.toNat + 0x24) = satInc 1 (getReg s (tftRegs x.homeCl.toNat + 0x24))))) ∧
  (∀ (cl : Fin 8) (q : Nat) (s : State),
    (∀ (b : HeldBlock) (rest : List HeldBlock), q < 9 → (getTile s cl.val q).held = b :: rest → b.collective = false →
      (∀ u, handOver cl.val q b.target (clean b.bytes) true s = (u, false) → exec (.txHandover cl (BitVec.ofNat 13 q)) s = .next u) ∧
      (∀ u, handOver cl.val q b.target (clean b.bytes) true s = (u, true) → b.last = none → b.each = none →
        Completes (.txHandover cl (BitVec.ofNat 13 q)) s (fun t => (getTile t cl.val q).held = rest ∧ t.ctxs = u.ctxs ∧
          t.mem = u.mem ∧ t.flights = s.flights))) ∧
    (∀ n : Fin 8, exec (.txHandover cl (BitVec.ofNat 13 (9 + n.val))) s = exec (.putTxAccept cl n) s ∧
      exec (.txHandover cl (BitVec.ofNat 13 (17 + n.val))) s = exec (.moverTxAccept cl n) s))

/-! ### Check-value units and links (13_transport_and_links.md, 15_evtos_and_commands.md, 19_power_clocks_signals.md) -/

/-- Check-value units other than this one are as they were. -/
def OtherCvus (cl n : Nat) (s t : State) : Prop := ∀ cl2 n2, cl2 * 16 + n2 ≠ cl * 16 + n → getCvu t cl2 n2 = getCvu s cl2 n2

/-- R466 to R469: START takes CVU_CFG as it stands, loads the initial value of the CRC that POLY selects and clears MATCH; a
byte, half-word or word is fed lowest byte first, and keeps the unit busy for one ARITH cycle more, or two for a word; FINISH folds in ALIVE or VALUE as four bytes, applies the final XOR, writes RESULT, sets MATCH when
it equals EXPECT, and under ALIVE then adds 1 to ALIVE. -/
def Obligations.CheckValues : Prop :=
  ∀ (i : Initiator) (cl : Fin 8) (n : Fin 16) (v : W32) (s : State),
    let b := cvuRegs cl.val n.val
    let x := getCvu s cl.val n.val
    let k := crcSpec (x.cfg.toNat % 4)
    let fed := fun (bs : List Byte) => BitVec.ofNat 64 (crcFeed k (x.reg.toNat % 2 ^ k.width) bs)
    let may := fun (off : Nat) => mayAccess s i (b + off) 4 .write = true
    (∀ c ∈ [(Instr.cvuData8 i cl n v, 0x10, 1), (.cvuData16 i cl n v, 0x14, 2), (.cvuData32 i cl n v, 0x18, 4)], may c.2.1 →
      Completes c.1 s (fun t => getCvu t cl.val n.val = 
          { x with reg := fed (leBytes c.2.2 v.toNat), busyTo := Nat.max x.busyTo (cvuNow s cl.val) + (if c.2.2 = 4 then 2 else 1) } ∧
        OtherCvus cl.val n.val s t ∧
        ∃ l, t = { s with cvus := l })) ∧
    (may 4 →
      let cfg := BitVec.ofNat 4 (regField s b 0 4)
      Completes (.cvuStart i cl n) s (fun t =>
      getCvu t cl.val n.val = { x with cfg := cfg, reg := BitVec.ofNat 64 (crcSpec (cfg.toNat % 4)).init, matched := false } ∧
      OtherCvus cl.val n.val s t ∧ ∃ l, t = { s with cvus := l })) ∧
    (may 4 →
      let fold := x.cfg.toNat / 4
      let cargo := if fold = 1 then leBytes 4 (getReg s (b + 0xC)).toNat else if fold = 2 then leBytes 4 (getReg s (b + 0x1C)).toNat
        else []
      let r := ((fed cargo).toNat % 2 ^ k.width) ^^^ k.xorOut
      let e := (getReg s (b + 0x28)).toNat + (getReg s (b + 0x2C)).toNat * 2 ^ 32
      Completes (.cvuFinish i cl n) s (fun t => getCtr t (b + 0x20) = BitVec.ofNat 64 r ∧
        getCvu t cl.val n.val = { x with reg := fed cargo, matched := x.matched || decide (r = e) } ∧ OtherCvus cl.val n.val s t ∧
        getReg t (b + 0xC) = (if fold = 1 then getReg s (b + 0xC) + 1 else getReg s (b + 0xC)) ∧
        (∀ a, a ≠ b + 0xC → getReg t a = getReg s a) ∧ KeepsMemory s t))

/-- R31, R465: a flit that cannot be corrected poisons the data or damages the message it carries, or, where it carries
control, takes its bundle out of service and halts the initiator with HW_FAULT; the spare lane replaces the first lane of a
bundle that fails, and the second takes the bundle out of service. R492, R498: a replay is counted; the host link goes on
with one half of its lanes, or goes down when each half has lost one; going down, it poisons what the companion held
Exclusive and drops its granules; coming up, one message goes out for each armed event ring with unread records. -/
def Obligations.LinksOfDevice : Prop :=
  (∀ (src dst : Fin 4) (b : Fin 48) (s : State), src ≠ dst →
    let k := bundleKey src.val dst.val b.val
    let x := getBundle s k
    x.out = false →
    (∀ a : W48, (regionOf (linkUe src.val dst.val b.val s) a.toNat).isSome = true → Completes (.flitUncorrectable src dst b (.memory a)) s (fun t =>
      granPoison t (a.toNat / 64) = true)) ∧
    (∀ (cl : Fin 8) (i : Nat) (m : Arrival), (mget [] s.arrivals cl.val)[i]? = some m →
      Completes (.flitUncorrectable src dst b (.payload cl i)) s (fun t =>
        mget [] t.arrivals cl.val = (mget [] s.arrivals cl.val).set i { m with damaged := true } ∧ t.ctxs = s.ctxs)) ∧
    (∀ (lane : Fin 1024) (pre : List InFrame) (f : InFrame), ingressOf s lane.val = pre ++ [f] →
      Completes (.flitUncorrectable src dst b (.frame lane)) s (fun t =>
        ingressOf t lane.val = pre ++ [{ f with damaged := true }] ∧ t.egq = s.egq)) ∧
    (∀ (cl : Fin 8) (q : BitVec 13), validQid q.toNat = true →
      absent (bundleOut src.val dst.val b.val (linkUe src.val dst.val b.val s)) cl.val (engOf q.toNat) = false →
      (getQ s cl.val q.toNat).halted = false → (getQ s cl.val q.toNat).stopReq = none →
      Completes (.flitUncorrectable src dst b (.control cl q)) s (fun t => (getBundle t k).out = true ∧
        (getQ t cl.val q.toNat).halted = true ∧ (getQ t cl.val q.toNat).haltReason = 0x0E)) ∧
    (∀ lane : Fin 7,
      (x.failed.contains lane.val = true → exec (.bundleLaneFail src dst b lane) s = .next s) ∧
      (x.failed = [] → Completes (.bundleLaneFail src dst b lane) s (fun t =>
        getBundle t k = { x with failed := [lane.val] } ∧ ∃ l, t = { s with bundles := l })) ∧
      (x.failed ≠ [] → x.failed.contains lane.val = false → Completes (.bundleLaneFail src dst b lane) s (fun t =>
        (getBundle t k).out = true ∧ (getBundle t k).failed = x.failed ++ [lane.val])))) ∧
  (∀ s : State,
    (s.evtWidth = 0 → exec .evtosFlitReplay s = .next s ∧ exec .evtosLinkDown s = .next s) ∧
    (s.evtWidth ≠ 0 → Completes .evtosFlitReplay s (fun t => getReg t (evtRegs + 0xC) = satInc 1 (getReg s (evtRegs + 0xC)) ∧
      (∀ a, a ≠ evtRegs + 0xC → getReg t a = getReg s a) ∧ ∃ l, t = { s with regs := l })) ∧
    (∀ lane : Fin 16, s.evtWidth ≠ 0 →
      let failed := if s.evtFailed.contains lane.val then s.evtFailed else s.evtFailed ++ [lane.val]
      Completes (.evtosLaneFail lane) s (fun t => t.evtFailed = failed ∧
        t.evtWidth = if (∀ l ∈ failed, l < 8) ∨ (∀ l ∈ failed, 8 ≤ l) then 8 else 0)) ∧
    (s.evtWidth ≠ 0 → Completes .evtosLinkDown s (fun t => t.evtWidth = 0 ∧ t.snoop = [] ∧
      getReg t (evtRegs + 0x18) = satInc (s.snoop.filter (fun e => e.exclusive)).length (getReg s (evtRegs + 0x18)) ∧
      (∀ e ∈ s.snoop, e.exclusive = true → granPoison t (2 * e.granule) = true ∧ granPoison t (2 * e.granule + 1) = true) ∧
      t.irqs = s.irqs)) ∧
    (s.evtWidth = 0 → heldInReset s = false →
      let width := if s.evtFailed = [] then 16 else if (∀ l ∈ s.evtFailed, l < 8) ∨ (∀ l ∈ s.evtFailed, 8 ≤ l) then 8 else 0
      let due := (List.range 8).filter (fun v => (getRing s (8 + v)).arm && decide ((getRing s (8 + v)).tail ≠ (getRing s (8 + v)).head))
      (width = 0 → exec .evtosLinkUp s = .next s) ∧
      (width ≠ 0 → Completes .evtosLinkUp s (fun t => t.evtWidth = width ∧
        t.irqs = s.irqs ++ due.map (fun v => (getRing s (8 + v)).vec) ∧ (∀ v ∈ due, (getRing t (8 + v)).arm = false) ∧
        ∃ r i w, t = { s with rings := r, irqs := i, evtWidth := w }))))

/-- R620 to R622: a laser source that fails takes down every port of its lane group and marks itself; at the end of a
margin window each lane shows its margin, 15 less the largest count of corrected symbols or 0 with UNC set after an
uncorrectable codeword, and VALID only where its link was up throughout (how many codewords of each kind came is free, log
entry 30); a scan starts where the link is up and LOG2_UI is in range, else shows SCAN_ERR, and ends with its count. Each of
these commands completes in every state: held in reset, or with nothing for it to do, it leaves the device as it is. -/
def Obligations.OpticalLanes : Prop :=
  (∀ (g : Fin 128) (lane : Fin 1024) (n : W64) (s : State), heldInReset s = true →
    exec (.laserFault g) s = .next s ∧ exec .marginWindow s = .next s ∧ exec (.scanDone lane n) s = .next s) ∧
  (∀ (g : Fin 128) (s : State), heldInReset s = false →
    let a := oeEngineRegs (g.val / 4) + 4
    (bitOf (getReg s a) (g.val % 4) = true → exec (.laserFault g) s = .next s) ∧
    (bitOf (getReg s a) (g.val % 4) = false → Completes (.laserFault g) s (fun t => bitOf (getReg t a) (g.val % 4) = true ∧
      ∀ k < 8, linkUp t (8 * g.val + k) = false))) ∧
  (∀ s : State, heldInReset s = false → Completes .marginWindow s (fun t =>
    KeepsMemory s t ∧ (∀ p, linkUp t p = linkUp s p) ∧
    ∀ l < 1024,
      let a := laneRegs l
      (linkUp s (portOf s l) = false → getReg s (a + 0xC) ≠ 0 ∨ getCtr s (a + 0x10) ≠ 0 →
        let unc := decide (getCtr s (a + 0x30) ≠ 0)
        getReg t (a + 0xC) = BitVec.ofNat 32 ((if unc then 0 else 15 - regField s (a + 0xC) 4 4) + boolNat unc * 256)) ∧
      (linkUp s (portOf s l) = false → getReg s (a + 0xC) = 0 → getCtr s (a + 0x10) = 0 → getReg t (a + 0xC) = 0) ∧
      (linkUp s (portOf s l) = true → getCtr t (a + 0x30) = 0 ∧ ∃ k,
        let n := Config.laneBin k l
        let unc := decide (getCtr s (a + 0x30) ≠ 0) || decide (n 16 ≠ 0)
        let maxSym := Nat.max (((List.range 16).filter (fun i => decide (n i ≠ 0))).getLastD 0) (regField s (a + 0xC) 4 4)
        getCtr t (a + 0x10) = getCtr s (a + 0x10) + BitVec.ofNat 64 ((List.range 17).map n).sum ∧
        getReg t (a + 0x20) = satInc (n 16) (getReg s (a + 0x20)) ∧
        getReg t (a + 0xC) = BitVec.ofNat 32 ((if unc then 0 else 15 - maxSym) + boolNat unc * 256 +
          boolNat (getPort s (portOf s l)).steady * 512)))) ∧
  (∀ (i : Initiator) (lane : Fin 1024) (v : W32) (s : State), mayAccess s i (laneRegs lane.val + 4) 4 .write = true →
    let a := laneRegs lane.val
    let log := regField s (a + 0x24) 24 6
    (bitOf (getReg s a) 2 = true → Completes (.scanGo i lane v) s (fun t => getReg t a = getReg s a)) ∧
    (bitOf (getReg s a) 2 = false → (linkUp s (portOf s lane.val) = true ∧ 20 ≤ log ∧ log ≤ 40) →
      Completes (.scanGo i lane v) s (fun t => bitOf (getReg t a) 2 = true ∧ bitOf (getReg t a) 3 = false ∧ KeepsMemory s t)) ∧
    (bitOf (getReg s a) 2 = false → ¬ (linkUp s (portOf s lane.val) = true ∧ 20 ≤ log ∧ log ≤ 40) →
      Completes (.scanGo i lane v) s (fun t => bitOf (getReg t a) 2 = false ∧ bitOf (getReg t a) 3 = true ∧ KeepsMemory s t))) ∧
  (∀ (lane : Fin 1024) (n : W64) (s : State), heldInReset s = false →
    let a := laneRegs lane.val
    (bitOf (getReg s a) 2 = false → exec (.scanDone lane n) s = .next s) ∧
    (bitOf (getReg s a) 2 = true → Completes (.scanDone lane n) s (fun t => bitOf (getReg t a) 2 = false ∧
      getCtr t (a + 0x28) = BitVec.ofNat 64 (Nat.min n.toNat (2 ^ regField s (a + 0x24) 24 6)) ∧ KeepsMemory s t)))

/-! ### Management commands (15_evtos_and_commands.md) -/

/-- R508, R513, R515, R516, R518: a command is judged in this order: its header, its opcode, its target, its PL, the roles of
this device, the seal and presence, its length. What it fails first is its answer, and nothing else of the device changes.
A presence command without presence waits, one at a time, and the end of its wait answers it, or lets it run. -/
def Obligations.CommandsJudged : Prop :=
  (∀ (src : CmdSource) (s u : State) (c : Cmd), Judged s u src c →
    let op := pkOp c.packet
    let target := pkTarget c.packet
    let answers := fun (cmd : Instr) (r : Reply) => Completes cmd s (fun t => Answered u t c r)
    let headerOk := headerOffence src c.packet c.packet.length = none
    (opRow op = none → headerOk → answers (.badOpcode src) { status := 1 }) ∧
    (∀ row ∈ commandRows src, op = row.2 →
      (∀ off, headerOffence src c.packet c.packet.length = some off → answers row.1 (badPacket off)) ∧
      (headerOk → ¬ ForThis u c →
        (actingMaster u = false → answers row.1 { status := 10 }) ∧
        (actingMaster u = true → harnessPick u target 0 = none → answers row.1 (noResource 0x20 0xFF target)) ∧
        (actingMaster u = true → (harnessPick u target 0).isSome = true → op ≠ 0x20 → op ≠ 0x21 → Completes row.1 s (fun t =>
          t.harness.carried = u.harness.carried ++ [(pkTag c.packet, src, target, c.packet)] ∧ t.jobs = u.jobs ∧ t.ctxs = u.ctxs ∧
          t.groups = u.groups ∧ t.queues = u.queues ∧ t.fuses = u.fuses))) ∧
      (headerOk → ForThis u c → ∀ pl pres master, opRow op = some (pl, pres, master) →
        let mayMaster := master = true → actingMaster u = true ∨ ∃ q p, src = .harness q p
        let roleBars := (u.harness.role = 2 ∨ u.harness.role = 3) ∧ op ∈ [0x10, 0x13, 0x15]
        (pl < c.pl.val → answers row.1 (denied 1)) ∧
        (c.pl.val ≤ pl → ¬ mayMaster → answers row.1 { status := 10 }) ∧
        (c.pl.val ≤ pl → mayMaster → roleBars → answers row.1 (denied 2)) ∧
        (c.pl.val ≤ pl → mayMaster → ¬ roleBars → pres = false → ∀ off, lengthOffence c.packet = some off →
          answers row.1 (badPacket off)) ∧
        (c.pl.val ≤ pl → pres = true →
          (u.sig.sealClosed = false → answers row.1 { status := 9 }) ∧
          (u.sig.sealClosed = true → presence u = false →
            (pkNoWait c.packet = true → answers row.1 { status := 4 }) ∧
            (pkNoWait c.packet = false → u.presWait.isSome = true → answers row.1 { status := 6 }) ∧
            (pkNoWait c.packet = false → u.presWait = none → Completes row.1 s (fun t =>
              t = { u with presWait := some { src := src, packet := c.packet, also := [] } }))))))) ∧
  (∀ (s : State) (w : PresWait), s.presWait = some w → w.also = [] → tackServes s = true →
    let c : Cmd := { src := w.src, pl := 0, packet := w.packet }
    let u : State := { s with presWait := none }
    (s.sig.sealClosed = false → Completes .presenceWaitEnd s (fun t => Answered u t c { status := 9 })) ∧
    (s.sig.sealClosed = true → presence s = false → exec .presenceWaitEnd s = .next s) ∧
    (s.sig.sealClosed = true → presence s = true → ∀ r v, runLocal (presenceRun (pkOp w.packet)) c u = (r, v) →
      Completes .presenceWaitEnd s (fun t => Answered { v with presWait := none } t c r)) ∧
    Completes .timeoutPresence s (fun t => Answered u t c { status := 11 }))

/-- The queue of an engine as a job, or a reset, leaves it (R522 to R524): STOPPED with HEAD and TAIL at 0. -/
def Emptied (t : State) (cl qid : Nat) : Prop :=
  (getQ t cl qid).run = false ∧ (getQ t cl qid).halted = false ∧ (getQ t cl qid).head = 0 ∧ (getQ t cl qid).tail = 0 ∧
  (getQ t cl qid).cur = none

/-- R449, R458, R519 to R524, R327 to R334, R350: jobs, data contexts and groups. LOAD_JOB takes all that its descriptor
names or nothing; UNLOAD_JOB stops its queues and closes its contexts; RESET_UNIT empties one queue; CTX_OPEN opens a context
within the job's reservation and CTX_CLOSE closes it; GROUP_CREATE creates an instance at its null step, GROUP_DESTROY
releases it with its contexts, and ABORT_GROUP halts it; results already handed on still go out (R320). -/
def Obligations.JobCommands : Prop :=
  ∀ (src : CmdSource) (s u : State) (c : Cmd), Judged s u src c → Entitled u c →
    let op := pkOp c.packet
    let answers := fun (cmd : Instr) (r : Reply) => Completes cmd s (fun t => Answered u t c r)
    (op = 0x10 → structRefusal u c.pl (c.par 0 8) 128 64 0 = none → Sound u →
      let d := leNat (bytesAt u (c.par 0 8) 128)
      (∀ off, jdOffence d = some off → answers (.loadJob src) (badStruct off)) ∧
      (jdOffence d = none → ∀ e, (jdNamed d).find? (engineGone u) = some e → answers (.loadJob src) (absentReply e)) ∧
      (jdOffence d = none → (jdNamed d).find? (engineGone u) = none → ∀ r, jobShortage u d = some r →
        answers (.loadJob src) r) ∧
      (jdOffence d = none → (jdNamed d).find? (engineGone u) = none → jobShortage u d = none →
        Completes (.loadJob src) s (fun t => ∃ v, Answered v t c Reply.ok ∧
          (∃ j, v.jobs = u.jobs ++ [j] ∧ j.id.toNat = jdId d ∧ j.dctx = jdDctx d ∧ j.ctxs = []) ∧
          (∀ e ∈ jdNamed d, Emptied v e.1 e.2) ∧
          ∀ cl < 8, ∀ n < (jdSems d cl).2, getSem v cl ((jdSems d cl).1 + n) = { value := 0, ovf := false }))) ∧
    (op = 0x11 →
      (jobById u (c.par 0 2) = none → answers (.unloadJob src) (badPacket 32)) ∧
      (∀ j, jobById u (c.par 0 2) = some j → Completes (.unloadJob src) s (fun t => ∃ v, Answered v t c Reply.ok ∧
        v.jobs = u.jobs.filter (fun x => decide (x.id ≠ j.id)) ∧
        (∀ e ∈ jobQueues j, Emptied v e.1 e.2 ∧ (getQ v e.1 e.2).haltReason = 0) ∧
        ∀ n ∈ j.ctxs, (getCtx v n).isOpen = false))) ∧
    (op = 0x12 → ∀ j, jobById u (c.par 0 2) = some j → c.par 2 2 < 0x1A → c.par 4 1 < 8 →
      (jobQueues j).contains (c.par 4 1, c.par 2 2) = true →
      let cl := c.par 4 1
      let qid := c.par 2 2
      let q := getQ u cl qid
      let stuck := q.halted = true ∧ terminal q.haltReason.toNat = true
      (stuck → answers (.resetUnit src) (denied (6 + 256 * q.haltReason.toNat))) ∧
      (¬ stuck → qid < 9 ∧ (getTile u cl qid).rotating = true → answers (.resetUnit src) { status := 6 }) ∧
      (¬ stuck → ¬ (qid < 9 ∧ (getTile u cl qid).rotating = true) → Completes (.resetUnit src) s (fun t =>
        ∃ v, Answered v t c Reply.ok ∧ Emptied v cl qid ∧ (getQ v cl qid).haltReason = 0 ∧
          (getQ v cl qid).ars = List.replicate 16 AR.reset ∧ OtherQueues cl qid u v ∧ v.jobs = u.jobs))) ∧
    (op = 0x13 →
      let n := c.par 0 4
      let d := leNat ((c.packet.drop 40).take 64)
      n < 262144 → (c.gap 6 2).2 = false → ∀ j p w, jobById u (c.par 4 2) = some j → readPeer (cdPeer d) u = (some p, w) →
      offence (ctxOffences w d (some p)) = none →
      ((getCtx w n).isOpen = true → Completes (.ctxOpen src) s (fun t => Answered w t c (noResource 0x18 0xFF 0))) ∧
      ((getCtx w n).isOpen = false → j.dctx ≤ j.ctxs.length → Completes (.ctxOpen src) s (fun t =>
        Answered w t c (noResource 0x19 0xFF 0))) ∧
      ((getCtx w n).isOpen = false → j.ctxs.length < j.dctx → Completes (.ctxOpen src) s (fun t =>
        ∃ v, Answered v t c Reply.ok ∧ getCtx v n = { ctxOpened w (ctxOf d p) with job := j.id } ∧
          (∀ m, m ≠ n → getCtx v m = getCtx u m) ∧
          v.jobs = u.jobs.map (fun x => if x.id = j.id then { x with ctxs := x.ctxs ++ [n] } else x)))) ∧
    (op = 0x14 →
      let n := c.par 0 4
      let open' := n < 262144 ∧ (getCtx u n).isOpen = true ∧ (getCtx u n).group = false
      (¬ open' → answers (.ctxClose src) (badPacket 32)) ∧
      (open' → Completes (.ctxClose src) s (fun t => ∃ v, Answered v t c Reply.ok ∧ (getCtx v n).isOpen = false ∧
        (BuffersSound u → ∀ m, m ≠ n → getCtx v m = getCtx u m) ∧
        v.jobs = u.jobs.map (fun j => { j with ctxs := j.ctxs.filter (fun x => decide (x ≠ n)) })))) ∧
    (op = 0x15 → structRefusal u c.pl (c.par 0 8) 64 64 0 = none → Sound u →
      let d := leNat (bytesAt u (c.par 0 8) 64)
      (∀ off, offence (gdOffences u d) = some off → answers (.groupCreate src) (badStruct off)) ∧
      (offence (gdOffences u d) = none → ∀ off, offence (tableOffences u d) = some off → answers (.groupCreate src) (badStruct off)) ∧
      (offence (gdOffences u d) = none → offence (tableOffences u d) = none → ∀ peers w,
        groupPeers d ((localEntry (endpointTable u d)).getD 0) u = (peers, w) →
        offence ((ctxOffences w (templateFor w d 0 0) none).filter (fun x => decide (x.1 ≠ 0)) ++
          peers.flatMap (fun x => ctxOffences w x.2.1 x.2.2)) = none →
        (∀ r, groupShortage w d = some r → Completes (.groupCreate src) s (fun t => Answered w t c r)) ∧
        (groupShortage w d = none → Completes (.groupCreate src) s (fun t => ∃ v, Answered v t c Reply.ok ∧
          let g := getGroup v (gdCl d) (gdGq d)
          g.held = true ∧ g.gid.toNat = gdGid d ∧ g.nmemb = gdN d ∧ g.gctx = gdGctx d ∧ g.seq = 0xFFFF_FFFF ∧ g.nextSeq = 0 ∧
          (getCtx v (gdGctx d)).isGctx = true ∧ (getCtx v (gdGctx d)).isOpen = true ∧
          ∀ x ∈ peers, (getCtx v x.1).isOpen = true ∧ (getCtx v x.1).group = true)))) ∧
    (op = 0x16 →
      (groupById u (c.par 0 4) = none → answers (.groupDestroy src) (badPacket 32)) ∧
      (∀ k, groupById u (c.par 0 4) = some k → Completes (.groupDestroy src) s (fun t => ∃ v, Answered v t c Reply.ok ∧
        (getGroup v k.1 k.2).held = false ∧ Emptied v k.1 (gqid k.2) ∧
        ∀ i < (getGroup u k.1 k.2).nmemb + (getGroup u k.1 k.2).nagg, (getCtx v ((getGroup u k.1 k.2).gctx + i)).isOpen = false))) ∧
    (op = 0x17 →
      (groupById u (c.par 0 4) = none → answers (.abortGroup src) (badPacket 32)) ∧
      (∀ k, groupById u (c.par 0 4) = some k →
        let q := getQ u k.1 (gqid k.2)
        (q.halted = true → terminal q.haltReason.toNat = false) → Completes (.abortGroup src) s (fun t =>
          ∃ v, Answered v t c Reply.ok ∧ (getGroup v k.1 k.2).dead = true ∧
            (getGroup v k.1 k.2).outq = (getGroup u k.1 k.2).outq.filter (fun m => m.result) ∧
            (getQ v k.1 (gqid k.2)).halted = true ∧ (getQ v k.1 (gqid k.2)).haltReason = 0x11)))

/-- The bits of a fuse word that a command tries to blow and that stay 0 are among those it asks for. -/
def FailsAmong (fails bits old : W32) : Prop := fails &&& ~~~bits = 0 ∧ fails &&& old = 0

/-- R517, R547, R580: GET_STATUS reports the device, READ_ERRORS returns records, ATTEST signs a nonce with the boot
measurement, MEM_READ and MEM_WRITE reach memory with the rights of their PL. R553: RUN_CUPPING schedules cases for the
units its masks name. R392, R491, R505: PORT_CONFIG, HARNESS_SET and MGMT_CONFIG set what they name. R584, R587:
SET_PROTECTION loads a table as the next generation. R588: FW_UPDATE takes an image that is signed and no older into the
slot that does not hold the running one. R566, R579, R581, R582: the presence commands. -/
def Obligations.DeviceCommands : Prop :=
  ∀ (src : CmdSource) (s u : State) (c : Cmd), Judged s u src c → Entitled u c →
    let op := pkOp c.packet
    let a := c.par 0 8
    let answers := fun (cmd : Instr) (r : Reply) => Completes cmd s (fun t => Answered u t c r)
    let done := fun (cmd : Instr) (p : State → Prop) => Completes cmd s (fun t => ∃ v, Answered v t c Reply.ok ∧ p v)
    (op = 0x01 → Completes (.getStatus src) s (fun t => Answered (takeFresh u) t c { status := 0, payload := statusBytes u })) ∧
    (op = 0x02 →
      let most := c.par 4 2
      let span := errorSpan u (BitVec.ofNat 32 (c.par 0 4)) most
      ((most = 0 ∨ 15 < most) → answers (.readErrors src) (badPacket 36)) ∧
      (1 ≤ most → most ≤ 15 → answers (.readErrors src) ⟨0, 0,
        leBytes 4 span.1.toNat ++ leBytes 4 u.err.next.toNat ++ leBytes 4 u.err.overflow.toNat ++ leBytes 4 span.2 ++
        (List.range span.2).flatMap (fun i => leBytes 64 (mget 0 u.err.ring ((span.1.toNat + i) % 4096)).toNat)⟩)) ∧
    (op = 0x03 →
      let body := (c.packet.drop 32).take 64 ++ u.boot.meas ++ leBytes 8 (uptimeSeen u)
      Completes (.attest src) s (fun t => Answered (takeFresh u) t c ⟨0, 0,
        body ++ ecdsaSign (attestKey u u.boot.measBoot) body ++ List.replicate 4 0⟩)) ∧
    (op = 0x04 → 1 ≤ c.par 8 2 → c.par 8 2 ≤ 992 →
      (∀ r, accessRefusal u c.pl a (c.par 8 2) [] false = some r → answers (.memRead src) r) ∧
      (accessRefusal u c.pl a (c.par 8 2) [] false = none → touchesMmio a (c.par 8 2) = false → Sound u →
        answers (.memRead src) { status := 0, payload := bytesAt u a (c.par 8 2) })) ∧
    (op = 0x05 → 1 ≤ c.par 8 2 → c.par 8 2 ≤ 992 → (c.gap 10 6).2 = false →
      let data := (c.packet.drop 48).take (c.par 8 2)
      (∀ r, accessRefusal u c.pl a (c.par 8 2) data true = some r → answers (.memWrite src) r) ∧
      (accessRefusal u c.pl a (c.par 8 2) data true = none → touchesMmio a (c.par 8 2) = false → Sound u →
        data.length = c.par 8 2 →
        done (.memWrite src) (fun v => (∀ x, memByte v x = written u [(a, data)] x) ∧ ∀ r, getReg v r = getReg u r))) ∧
    (op = 0x18 →
      let bias : Int := sext 16 (c.par 16 2)
      c.par 0 1 ≠ 0 → 1 ≤ c.par 1 1 → c.par 1 1 ≤ 15 → (c.gap 2 2).2 = false → 1 ≤ c.par 4 4 → c.par 4 4 ≤ 65536 →
      -25 ≤ bias → bias ≤ 25 →
      let run := if u.health.run + 1 = 0 then 1 else u.health.run + 1
      Completes (.runCupping src) s (fun t => ∃ v, Answered v t c { status := 0, detail := run.toNat } ∧ v.health.run = run ∧
        ∀ cl < 8, ∀ tile < 9, let k := hkey 1 cl tile
          bitsOf (c.par 0 1) cl 1 = 1 → bitsOf (c.par 1 1) 0 1 = 1 → hUnitExists u k = true → (getHUnit u k).retired = false →
          (getHUnit v k).todo = (getHUnit u k).todo ++
            [{ run := run, bias := bias, seed := BitVec.ofNat 64 (c.par 8 8), next := 0, stop := c.par 4 4 }])) ∧
    (op = 0x20 →
      let g := pcGroup c
      let m := pcMode c
      (∀ off, pcOffence c = some off → answers (.portConfig src) (badPacket off)) ∧
      (pcOffence c = none → (∀ i < 8, isPort u (8 * g + i) = false → adminUp u (8 * g + i) = false) →
        done (.portConfig src) (fun v => lgMode v g = m ∧ ∀ k < pcPorts c,
          let l := 8 * g + k * 2 ^ m
          let e := pcEntry c k
          isPort v l = true ∧ maxFrame v l = bitsOf e 4 15 ∧ harnessRole v l = decide (bitsOf e 1 2 = 1) ∧
          ctEnabled v l = decide (bitsOf e 3 1 = 1) ∧
          adminUp v l = (decide (bitsOf e 0 1 = 1) &&
            (decide (bitsOf e 1 2 = 1) || u.harness.configured || decide (u.harness.role = 0)))))) ∧
    (op = 0x21 →
      (∀ off, hsOffence c (decide (u.part.harnessId = 0)) = some off → answers (.harnessSet src) (badPacket off)) ∧
      (hsOffence c (decide (u.part.harnessId = 0)) = none → done (.harnessSet src) (fun v =>
        harnessRoute v (c.par 0 1) = (List.range (c.par 1 1)).map (hsLane c) ∧
        (u.harness.role = 1 ∨ u.harness.role = 2 → v.harness.role = if hsRelay c then 2 else 1)))) ∧
    (op = 0x22 → c.par 0 1 ≤ 1 → c.par 1 1 ≤ 15 → c.par 4 2 < 4096 → (c.gap 6 2).2 = false → c.par 12 1 ≤ 32 →
      (c.gap 13 3).2 = false → c.par 32 1 ≤ 128 → done (.mgmtConfig src) (fun v => ∃ p, v.mgmt = u.mgmt.set (c.par 0 1) p ∧
        p.udp.toNat = c.par 2 2 ∧ p.vid.toNat = c.par 4 2 ∧ p.ip4.toNat = c.par 8 4 ∧ p.ip6.toNat = c.par 16 16 ∧
        p.openAccess = decide (bitsOf (c.par 1 1) 1 1 = 1) ∧ p.v4En = decide (bitsOf (c.par 1 1) 2 1 = 1) ∧
        p.v6En = decide (bitsOf (c.par 1 1) 3 1 = 1))) ∧
    (op = 0x23 → 1 ≤ c.par 8 4 → c.par 8 4 ≤ 1024 → structRefusal u c.pl a (32 * c.par 8 4) 32 0 = none → Sound u →
      let es := entries32 (c.par 8 4) (bytesAt u a (32 * c.par 8 4))
      (∀ off, offence (listOffences protOffence es) = some off → answers (.setProtection src) (badStruct off)) ∧
      (offence (listOffences protOffence es) = none →
        (4 ≤ (trimGens u).prot.length → Completes (.setProtection src) s (fun t => Answered (trimGens u) t c { status := 6 })) ∧
        ((trimGens u).prot.length < 4 → (∀ g ∈ u.prot, g.gen ≠ newestGen u + 1) → done (.setProtection src) (fun v =>
          newestGen v = newestGen u + 1 ∧ tableOf v (newestGen v) = es.map protEntry)))) ∧
    (op = 0x24 → c.par 8 4 ≤ 16777216 → structRefusal u c.pl a (c.par 8 4) 1 0 = none → Sound u →
      let img := bytesAt u a (c.par 8 4)
      (imageFormat img = false ∨ rootOk u img = false ∨ signatureOk img = false → answers (.fwUpdate src) { status := 8 }) ∧
      (imageFormat img = true → rootOk u img = true → signatureOk img = true →
        (leAt img 12 4 < svnFuse u → answers (.fwUpdate src) (badStruct 12)) ∧
        (svnFuse u ≤ leAt img 12 4 → leAt img 16 4 ≤ u.boot.version.toNat → answers (.fwUpdate src) (badStruct 16)) ∧
        (svnFuse u ≤ leAt img 12 4 → u.boot.version.toNat < leAt img 16 4 → done (.fwUpdate src) (fun v =>
          (if u.boot.source = 0 then v.flash.slotB else v.flash.slotA) = img.take (512 + payloadLen img) ∧
          (if u.boot.source = 0 then v.flash.slotA = u.flash.slotA else v.flash.slotB = u.flash.slotB))))) ∧
    (op = 0x30 →
      let kind := c.par 1 1
      let len := c.par 4 2
      c.par 0 1 ≤ 7 → kind ≤ 1 → (kind = 0 → len = 8) → (kind = 1 → c.par 2 1 ≤ 3 ∧ 32 ≤ len ∧ len ≤ 128) →
      (c.gap 3 1).2 = false → (c.gap 6 2).2 = false → done (.enrolKey src) (fun v =>
        keySlot v (c.par 0 1) = (if kind = 0 then none
          else some ⟨(c.packet.drop 40).take len, BitVec.ofNat 2 (c.par 2 1), 0, [], []⟩) ∧
        ∀ k, k ≠ c.par 0 1 → keySlot v k = keySlot u k)) ∧
    (op = 0x31 →
      let l := c.par 0 1
      (2 < l ∨ (l ≠ 0 ∧ bitOf (fuseWord u 99) 0 = true) → answers (.debugUnlock src) (badPacket 32)) ∧
      (l ≤ 2 → (l ≠ 0 → bitOf (fuseWord u 99) 0 = false) → done (.debugUnlock src) (fun v => v.boot.debugLevel = l ∧
        v.boot.meas = if l = 0 then u.boot.meas else sha512 (u.boot.meas ++ [BitVec.ofNat 8 l])))) ∧
    (op = 0x32 →
      let w := c.par 0 2
      let bits := BitVec.ofNat 32 (c.par 4 4)
      fuseAccepts u w = true → (c.gap 2 2).2 = false → fuseBitsBad u w bits = false →
      Completes (.fuseWrite src) s (fun t => ∃ v fails, FailsAmong fails bits (fuseWord u w) ∧
        Answered v t c { status := 0, detail := fails.toNat } ∧ fuseWord v w = (fuseWord u w ||| (bits &&& ~~~fails)) ∧
        ∀ x, x ≠ w → fuseWord v x = fuseWord u x)) ∧
    (op = 0x33 → c.par 8 4 % 32 = 0 → 32 ≤ c.par 8 4 → c.par 8 4 ≤ 1024 → structRefusal u c.pl a (c.par 8 4) 1 0 = none → Sound u →
      let es := entries32 (c.par 8 4 / 32) (bytesAt u a (c.par 8 4))
      let kept := purge (u.health.entries ++ es.map (stampEntry u))
      (4096 < kept.length → answers (.farrierUpdate src) (badPacket 40)) ∧
      (kept.length ≤ 4096 → ∀ off, offence (listOffences (farrierOffence u) es) = some off →
        answers (.farrierUpdate src) (badStruct off)) ∧
      (kept.length ≤ 4096 → offence (listOffences (farrierOffence u) es) = none → done (.farrierUpdate src) (fun v =>
        v.flash.far0 = some (u.health.gen + 1, kept) ∨ v.flash.far1 = some (u.health.gen + 1, kept))))

/-! ### The harness (14_harness.md) -/

/-- A device has followed the claim of another master (R488, R489): its EPOCH is now `epoch`, a configuration not committed
is gone, and MASTER_CHANGES has counted, unless it is the first EPOCH of a strapped master. -/
def Followed (s t : State) (epoch : W32) (sb : Bool) : Prop :=
  t.harness.epoch = epoch ∧ t.harness.partItems = [] ∧ t.harness.parts = s.harness.parts ∧
  getReg t (hsRegs + 0x30) = if epoch = 1 ∧ sb = false then getReg s (hsRegs + 0x30) else satInc 1 (getReg s (hsRegs + 0x30))

/-- Messages handed on in the SIG class, none by a device held in reset. -/
def Handed (s t : State) (ms : List SigMsg) : Prop :=
  t.harness.sent = s.harness.sent ++ (if heldInReset s then [] else ms)

/-- R474, R479, R484 to R486, R488, R489: a HELLO is refused, counted and recorded, or brings the link up; the acting master
then sends the device its part, and the standby its mirror as well; a device that claimed to be the master and lost gets
address 8. A claim with a higher EPOCH, or with an equal one from the device strapped as MASTER, is followed, and a master that
loses becomes a standby at address 8. The standby takes over with the next EPOCH at address 0 and sends its mirror, once a
harness link of it is up. CONFIG of the master followed is kept, and the device's own items are applied as a whole at COMMIT, or
not at all; a standby keeps the others as its mirror. An acting master notes in the harness group table a group that it is told
of (log entry 108). -/
def Obligations.HarnessClaims : Prop :=
  (∀ (lane : Fin 1024) (m : Hello) (s : State),
    let p := lane.val
    let h := s.harness
    let refused := (m.hid = s.part.harnessId ∧ m.sb = s.part.harnessSb) ∨ (m.addr = h.addr ∧ m.addr ≠ 0) ∨ 9 ≤ m.addr.toNat
    let loses := h.epoch < m.epoch ∨ (h.epoch = m.epoch ∧ m.sb = false ∧ s.part.harnessSb = true)
    let waits := h.phy.filter (fun q => decide (q ≠ p))
    isPort s p = true → harnessRole s p = true → portLost s p = false → (h.phy.contains p = true ∨ linkUp s p = true) →
    (refused → Completes (.helloReceive lane m) s (fun t => t.harness = h ∧ getPort t p = getPort s p ∧
      getReg t (hsRegs + 0x2C) = satInc 1 (getReg s (hsRegs + 0x2C)) ∧ RegsBut s t (hsRegs + 0x2C) 4)) ∧
    (¬ refused → m.role ≠ 0 → actingMaster s = false → Completes (.helloReceive lane m) s (fun t => linkUp t p = true ∧
      t.harness = { h with phy := waits } ∧ (∀ a, getReg t a = getReg s a) ∧ KeepsMemory s t)) ∧
    (¬ refused → m.role = 0 → actingMaster s = false →
      (h.epoch < m.epoch → Completes (.helloReceive lane m) s (fun t => linkUp t p = true ∧ Followed s t m.epoch m.sb ∧
        t.harness.role = h.role ∧ t.harness.addr = h.addr ∧ t.harness.phy = waits ∧ KeepsMemory s t)) ∧
      (¬ h.epoch < m.epoch → Completes (.helloReceive lane m) s (fun t => linkUp t p = true ∧
        t.harness = { h with phy := waits } ∧ KeepsMemory s t))) ∧
    (¬ refused → m.role = 0 → actingMaster s = true → loses → Completes (.helloReceive lane m) s (fun t => (getPort t p).linkUp = true ∧
      t.harness.role = 3 ∧ t.harness.addr = 8 ∧ Followed s t m.epoch m.sb ∧ t.harness.sent = h.sent)) ∧
    (¬ refused → actingMaster s = true → (m.role = 0 → ¬ loses) →
      let dev := if m.role = 0 then 8 else m.addr.toNat
      let part := SigMsg.config dev h.epoch (itemsOf dev (mget [] h.parts dev))
      let mirrored := m.role = 3 ∨ m.role = 0
      Completes (.helloReceive lane m) s (fun t => (getPort t p).linkUp = true ∧ (getPort t p).peer.toNat = dev ∧
        t.harness.role = h.role ∧ t.harness.epoch = h.epoch ∧ t.harness.phy = waits ∧ t.harness.parts = h.parts ∧
        (m.fresh = false → linkUp t p = true ∧ KeepsMemory s t ∧ Handed s t (part :: (if mirrored then [.config 8 h.epoch (mirrorItems s)] else []))) ∧
        (m.fresh = true → ∃ lost mirror, (mirrored ↔ mirror ≠ []) ∧ Handed s t (lost ++ part :: mirror))))) ∧
  (∀ s : State,
    (actingMaster s = true → Completes .aliveSend s (fun t => Handed s t [.alive s.harness.epoch] ∧ ∃ h, t = { s with harness := h })) ∧
    (actingMaster s = false → exec .aliveSend s = .next s) ∧
    (∀ (addr : BitVec 4) (sb : Bool) (epoch : W32),
      let h := s.harness
      let loses := h.epoch < epoch ∨ (h.epoch = epoch ∧ sb = false ∧ s.part.harnessSb = true)
      (actingMaster s = false → h.epoch < epoch → Completes (.aliveReceive addr sb epoch) s (fun t => Followed s t epoch sb ∧
        t.harness.role = h.role ∧ t.harness.addr = h.addr ∧ KeepsMemory s t)) ∧
      (actingMaster s = true → loses → Completes (.aliveReceive addr sb epoch) s (fun t => Followed s t epoch sb ∧
        t.harness.role = 3 ∧ t.harness.addr = 8)) ∧
      (actingMaster s = false → ¬ h.epoch < epoch → exec (.aliveReceive addr sb epoch) s = .next s) ∧
      (actingMaster s = true → ¬ loses → exec (.aliveReceive addr sb epoch) s = .next s)) ∧
    (s.harness.role ≠ 3 ∨ harnessJoined s = false → exec .standbyTakeover s = .next s) ∧
    (s.harness.role = 3 → harnessJoined s = true → Completes .standbyTakeover s (fun t =>
      let e := s.harness.epoch + 1
      let table := (s.harness.gtMirror.filter (fun x => decide (x.1 < gtEntries s))).map (fun x => (gtBase s + 8 * x.1, leBytes 8 x.2.toNat))
      t.harness.role = 0 ∧ t.harness.addr = 0 ∧ t.harness.epoch = e ∧ t.harness.partItems = [] ∧
      getReg t (hsRegs + 0x30) = satInc 1 (getReg s (hsRegs + 0x30)) ∧ t.ports = s.ports ∧ GroupsKept s t ∧ t.jobs = s.jobs ∧
      (table = [] → KeepsMemory s t) ∧
      (Sound s → (∀ w ∈ table, memMapped s w.1 8 = true) → ∀ x, memByte t x = written s table x) ∧
      Handed s t (s.harness.parts.map (fun x => .config x.1 e (itemsOf x.1 (mget [] s.harness.parts x.1))))))) ∧
  (∀ (dev : BitVec 4) (gid : BitVec 24) (epoch : W32) (s : State), actingMaster s = true →
    let bit := 2 ^ dev.toNat
    let free := fun (i : Nat) => bitsOf (gtEntry s i) 24 1 = 0
    let its := fun (i : Nat) => gtEntry s i % 2 ^ 25 = gid.toNat + 2 ^ 24
    let entries := gtEntries s
    let puts := fun (cmd : Instr) (i v : Nat) => Completes cmd s (fun t =>
      Handed s t [.config 8 s.harness.epoch [(0, .groupEntry (BitVec.ofNat 16 i) (BitVec.ofNat 64 v))]] ∧
      (Sound s → memMapped s (gtBase s + 8 * i) 8 = true → ∀ x, memByte t x = written s [(gtBase s + 8 * i, leBytes 8 v)] x))
    let told := fun (on : Bool) => Instr.configReceive epoch (dev, .groupNote gid on)
    (∀ item, (∀ g b, item ≠ .groupNote g b) → exec (.configReceive epoch (dev, item)) s = .next s) ∧
    (8 ≤ dev.toNat → ∀ on, exec (told on) s = .next s) ∧
    (dev.toNat < 8 → (∀ i < entries, ¬ its i) → exec (told false) s = .next s ∧
      ((∀ i < entries, ¬ free i) → Completes (told true) s (fun t =>
        getReg t (hsRegs + 0x34) = satInc 1 (getReg s (hsRegs + 0x34)) ∧ ∃ l, t = { s with regs := l })) ∧
      (∀ i < entries, free i → (∀ j < i, ¬ free j) → puts (told true) i (gid.toNat + 2 ^ 24 + 2 ^ (32 + dev.toNat)))) ∧
    (dev.toNat < 8 → ∀ i < entries, its i → (∀ j < i, ¬ its j) →
      let v := gtEntry s i
      let hids := bitsOf v 32 8
      puts (told true) i (v - hids * 2 ^ 32 + (hids ||| bit) * 2 ^ 32) ∧
      (hids &&& bit ≠ hids → puts (told false) i (v - hids * 2 ^ 32 + (hids - (hids &&& bit)) * 2 ^ 32)) ∧
      (hids &&& bit = hids → puts (told false) i 0))) ∧
  (∀ (epoch : W32) (dev : BitVec 4) (item : ConfigItem) (s : State),
    let h := s.harness
    let before := if h.partEpoch = epoch then h.partItems else []
    (actingMaster s = false → epoch < h.epoch → exec (.configReceive epoch (dev, item)) s = .next s) ∧
    (actingMaster s = false → h.epoch < epoch → Completes (.configReceive epoch (dev, item)) s (fun t =>
      t = { s with harness := { h with partItems := [] } })) ∧
    (actingMaster s = false → h.epoch = epoch → Completes (.configReceive epoch (dev, item)) s (fun t =>
      t = { s with harness := { h with partEpoch := epoch, partItems := before ++ [(dev, item)] } })) ∧
    let mine := (before.filter (fun i => decide (i.1 = h.addr) || (decide (h.role = 3) && decide (itemOrder i.2 = 5)))).map (fun i => i.2)
    (actingMaster s = true ∨ epoch ≠ h.epoch → Completes (.commitReceive epoch) s (fun t =>
      t = { s with harness := { h with partItems := [] } })) ∧
    (actingMaster s = false → epoch = h.epoch → mine.all (itemApplies s) = false → Completes (.commitReceive epoch) s (fun t =>
      t.harness.partItems = [] ∧ t.harness.configured = h.configured ∧ t.harness.role = h.role ∧ t.harness.parts = h.parts ∧
      t.ports = s.ports ∧
      (∀ a, ¬ recordReg a → getReg t a = getReg s a) ∧ Handed s t [.outcome epoch false])) ∧
    (actingMaster s = false → epoch = h.epoch → mine.all (itemApplies s) = true → Completes (.commitReceive epoch) s (fun t =>
      t.harness.partItems = [] ∧ t.harness.configured = true ∧ Handed s t [.outcome epoch true] ∧
      (h.role = 3 → ∀ d : BitVec 4, d ≠ h.addr →
        let theirs := before.filter (fun i => decide (i.1 = d) && decide (itemOrder i.2 < 5))
        mget [] t.harness.parts d.toNat = if theirs = [] then mget [] h.parts d.toNat else theirs.map (fun i => i.2)) ∧
      (h.role = 3 → ∀ d k v, before = [(d, .groupEntry k v)] → mget 0 t.harness.gtMirror k.toNat = v) ∧
      (∀ (l : Fin 1024) (b : Bool), mine = [.role l b] → harnessRole t l.val = b) ∧
      (∀ (g : Fin 128) (m : BitVec 2), mine = [.laneGroup g m] → lgMode t g.val = m.toNat) ∧
      (∀ (l : Fin 1024) (b : Bool), mine = [.adminUp l b] → isPort s l.val = true → adminUp t l.val = b) ∧
      (∀ (k : Fin 9) (c : BitVec 4) (ps : List (BitVec 10)), mine = [.route k c ps] → ps.length = c.toNat →
        harnessRoute t k.val = ps.map (fun p => p.toNat)) ∧
      ∀ b, mine = [.relay b] → t.harness.role = if h.role = 1 ∨ h.role = 2 then (if b then 2 else 1) else h.role)))

/-- R207, R395, R463, R464, R481 to R483, R513: a worm in transit takes a listed link that is up, with one more hop; one that
has made three, or has no way, is dropped and counted. A frame's worms wait for the rest of their frame, in a staging queue that
may be full for it, whether it is for this device or goes on. A packet for this device goes to its context's home cluster,
damaged where a flit is poisoned that its own POISON field does not tell of (log entry 107); a context that is not open counts
it. No worm has more than 71 data flits. A reply from the device a command was carried to goes to its source. -/
def Obligations.HarnessWorms : Prop :=
  (∀ (lane : Option (Fin 1024)) (w : Worm) (s : State),
    let here := w.dhid = s.harness.addr
    let spent := w.hops = 3 ∧ lane.isSome = true
    let h := w.dhid.toNat
    let way := match w.cls with
      | .pkt => harnessPick s h w.hash.toNat
      | .sig => harnessPick s h 0
      | _ => harnessPick s h (channelHash (parseTft w.bytes).src (parseTft w.bytes).ch (w.hash.toNat % 1024))
    let counts := fun (r : Nat) (t : State) => getReg t r = satInc 1 (getReg s r) ∧ ∃ l, t = { s with regs := l }
    let arrives := ∀ l, lane = some l → linkUp s l.val = true ∧ harnessRole s l.val = true
    (¬ arrives ∨ 4544 < w.bytes.length → exec (.wormRoute lane w) s = .next s) ∧
    (arrives → w.bytes.length ≤ 4544 →
      (¬ here → spent → Completes (.wormRoute lane w) s (counts (hsRegs + 0x20))) ∧
      (¬ here → ¬ spent → (9 ≤ h ∨ way = none) → Completes (.wormRoute lane w) s (counts (hsRegs + 0x24))) ∧
      (¬ here → ¬ spent → h < 9 → w.cls ≠ .pkt ∨ lane = none → ∀ p, way = some p → Completes (.wormRoute lane w) s (fun t =>
        mlook t.wormOut p = some [{ w with hops := if lane.isSome then w.hops + 1 else w.hops }] ∧
        (∀ q, q ≠ p → mlook t.wormOut q = mlook s.wormOut q) ∧ ∃ m, t = { s with wormOut := m })) ∧
      (w.cls = .pkt → here ∨ (¬ spent ∧ h < 9 ∧ way.isSome = true) → ∀ l, lane = some l →
        let begun := mget none s.harness.segs l.val
        let full := stagingFull { s with harness := { s.harness with segs := mput none s.harness.segs l.val none } } l.val
        let flits := (List.range w.bytes.length).map (fun i => (w.bytes.getD i 0, w.poison.getD (i / 64) false))
        let broken := w.first = true ∧ begun.isSome = true
        (w.first = false → begun = none → Completes (.wormRoute lane w) s (counts (hsRegs + 0x28))) ∧
        (w.last = false → ∀ x : Segments, (if w.first then some ⟨w, full, []⟩ else begun) = some x →
          Completes (.wormRoute lane w) s (fun t =>
            mget none t.harness.segs l.val = some { x with bytes := if x.full then [] else x.bytes ++ flits } ∧ KeepsMemory s t ∧
            getReg t (hsRegs + 0x28) = (if broken then satInc 1 (getReg s (hsRegs + 0x28)) else getReg s (hsRegs + 0x28)) ∧
            getReg t (fpRegs (l.val / 32) + 0x10) = if w.first = true ∧ full = true then satInc 1 (getReg s (fpRegs (l.val / 32) + 0x10))
              else getReg s (fpRegs (l.val / 32) + 0x10))) ∧
        (w.last = true → ∀ x : Segments, (if w.first then some ⟨w, full, []⟩ else begun) = some x →
          let len := x.bytes.length + w.bytes.length + 4
          (x.full = true → Completes (.wormRoute lane w) s (fun t => mget none t.harness.segs l.val = none ∧
            t.egq = s.egq ∧ t.arrivals = s.arrivals ∧ KeepsMemory s t)) ∧
          (x.full = false → x.head.dhid = s.harness.addr → len < 64 ∨ maxFrame s l.val < len → Completes (.wormRoute lane w) s (fun t =>
            let r := fpRegs (l.val / 32) + if len < 64 then 0x14 else 0x18
            mget none t.harness.segs l.val = none ∧ t.egq = s.egq ∧ t.arrivals = s.arrivals ∧ KeepsMemory s t ∧
            getReg t r = satInc 1 (getReg s r))))) ∧
      (here → w.cls = .sig ∨ (w.cls = .pkt ∧ lane = none) → exec (.wormRoute lane w) s = .next s) ∧
      (here → w.cls = .req ∨ w.cls = .rsp →
        let p := parseTft w.bytes
        let x := getCtx s p.dst
        (x.isOpen = false ∨ x.failed = true → Completes (.wormRoute lane w) s
          (counts (tftRegs ((lane.map (fun l => l.val)).getD 0 / 128) + 0xC))) ∧
        (x.isOpen = true → x.failed = false → Completes (.wormRoute lane w) s (fun t =>
          (∃ a, mget [] t.arrivals x.homeCl.toNat = mget [] s.arrivals x.homeCl.toNat ++ [a] ∧ a.packet = w.bytes ∧
            a.shid = some w.shid.toNat ∧ (w.poison.any id = false → a.damaged = false) ∧
            (p.poison = 0 → a.damaged = w.poison.any id)) ∧ ∃ m, t = { s with arrivals := m }))))) ∧
  (∀ (tag : W32) (reply : List Byte) (s : State) (e : W32 × CmdSource × Nat × List Byte),
    let same := s.harness.carried.filter (fun x => decide (x.1 = tag ∧ x.2.2.2 = e.2.2.2 ∧ x.2.2.1 = e.2.2.1))
    heldInReset s = false → actingMaster s = true → s.harness.carried.find? (fun e => decide (e.1 = tag)) = some e →
    Completes (.harnessReplyReceive tag reply) s (fun t =>
      t.harness.carried = s.harness.carried.filter (fun x => !same.contains x) ∧ t.jobs = s.jobs ∧ t.ctxs = s.ctxs ∧
      GroupsKept s t ∧ t.queues = s.queues ∧ t.fuses = s.fuses ∧
      (∀ p : Fin 4, e.2.1 = .ring p → same = [e] →
        let g := getRing s (4 + p.val)
        g.en = true → (g.tail - g.head).toNat < 2 ^ g.sizeLog2.toNat → (getRing t (4 + p.val)).tail = g.tail + 1)))

/-! ### The host link, registers and the debug port (15_evtos_and_commands.md) -/

/-- A request has been answered with `st`, `data` and no poison. -/
def Replied (t : State) (st : Completion) (data : List Byte) : Prop :=
  t.answer.status = st ∧ t.answer.data = data ∧ ∀ b ∈ t.answer.poison, b = false

/-- A request was turned away: its bytes read 0, and the counter of its kind has counted (R495). -/
def TurnedAway (s t : State) (st : Completion) (len : Nat) : Prop :=
  Replied t st (List.replicate len 0) ∧ t.snoop.length ≤ s.snoop.length ∧
  let a := if st = .denied then evtRegs + 0x14 else evtRegs + 0x10
  getReg t a = satInc 1 (getReg s a) ∧ RegsBut s t a 4

/-- R492, R494 to R498, R185, R205: a companion request that memory takes reads or writes what memory holds, or is held while a
rotation copies the slot that it reaches; cacheable, it takes
the granule, Shared or Exclusive, with an entry of the snoop filter, and a write changes the companion's copy. Any other is
answered with its reason and counted. Registers are read 4 bytes at a time, and never cacheable. Nothing comes over a link
that is down. R582, R618: the debug port reaches registers, memory and the MC at the level each needs. -/
def Obligations.HostAccess : Prop :=
  (∀ (pl : Fin 4) (addr : W48) (len : Nat) (co ex : Bool) (s : State),
    let a := addr.toNat
    let cmd := Instr.companionRead pl addr len co ex
    let st := companionStatus s pl a len co false
    (unreachable s (.companion pl) = true → exec cmd s = .next s) ∧
    (unreachable s (.companion pl) = false → touchesMmio a len = false →
      (st ≠ .ok → Completes cmd s (fun t => TurnedAway s t st len)) ∧
      (st = .ok → inRotation s a len = true → Completes cmd s (fun t =>
        t = { s with heldAcc := s.heldAcc ++ [.read pl a len co ex] })) ∧
      (co = false → st = .ok → Sound s → Completes cmd s (fun t => Replied t .ok (bytesAt s a len) ∧ ∃ x, t = { s with answer := x })) ∧
      (co = true → st = .ok → Sound s → 0 < len → a / 128 = (a + len - 1) / 128 → Completes cmd s (fun t =>
        Replied t .ok (bytesAt s a len) ∧ KeepsMemory s t ∧ (∀ r, getReg t r = getReg s r) ∧ ∃ e, t.snoop = [e] ∧
        e.granule = a / 128 ∧ e.exclusive = ex ∧ (ex = true → e.data = bytesAt s (a / 128 * 128) 128 ∧ e.poison = [false, false])))) ∧
    (unreachable s (.companion pl) = false → touchesMmio a len = true →
      (co = true → Completes cmd s (fun t => TurnedAway s t .unsupported len)) ∧
      (co = false → companionGate s a len = true → mmioShape a len = false → Completes cmd s (fun t => TurnedAway s t .unmapped len)) ∧
      (co = false → companionGate s a len = true → mmioShape a len = true → mmioAllowed s (.companion pl) a len [] false = false →
        Completes cmd s (fun t => TurnedAway s t .denied len)) ∧
      (co = false → len = 4 → RegSound s a → companionGate s a 4 = true → mmioShape a 4 = true → mmioAllowed s (.companion pl) a 4 [] false = true →
        Completes cmd s (fun t => Replied t .ok (leBytes 4 (regRead a s).1.toNat) ∧
          ∃ x, t = { (regRead a s).2 with answer := x })))) ∧
  (∀ (pl : Fin 4) (addr : W48) (data : List Byte) (poison : List Bool) (co : Bool) (s : State),
    let a := addr.toNat
    let len := data.length
    let cmd := Instr.companionWrite pl addr data poison co
    let st := companionStatus s pl a len co true
    (unreachable s (.companion pl) = true → exec cmd s = .next s) ∧
    (unreachable s (.companion pl) = false → touchesMmio a len = false →
      (st ≠ .ok → Completes cmd s (fun t => TurnedAway s t st 0)) ∧
      (st = .ok → inRotation s a len = true → Completes cmd s (fun t =>
        t = { s with heldAcc := s.heldAcc ++ [.write pl a data poison co] })) ∧
      (co = false → st = .ok → Sound s → (∀ b ∈ poison, b = false) → Completes cmd s (fun t => Replied t .ok [] ∧
        (∀ x, memByte t x = written s [(a, data)] x) ∧ t.poison = [] ∧ t.snoop = [] ∧ ∀ r, getReg t r = getReg s r)) ∧
      (co = true → st = .ok → Sound s → (∀ b ∈ poison, b = false) → 0 < len → a / 128 = (a + len - 1) / 128 →
        Completes cmd s (fun t => Replied t .ok [] ∧ KeepsMemory s t ∧ (∀ r, getReg t r = getReg s r) ∧ ∃ e, t.snoop = [e] ∧
          e.granule = a / 128 ∧ e.exclusive = true ∧ e.poison = [false, false] ∧
          ∀ i < 128, e.data.getD i 0 = written s [(a, data)] (a / 128 * 128 + i))))) ∧
  (∀ (op : TapOp) (s : State), heldInReset s = false →
    (s.boot.debugLevel < tapLevel op → exec (.debugTapAccess op) s = .next s) ∧
    (tapLevel op ≤ s.boot.debugLevel →
      (op = .bypass ∨ op = .stepMc → exec (.debugTapAccess op) s = .next s) ∧
      (∀ (a : W48) (len : Nat), op = .readMem a len → memMapped s a.toNat len = true → Sound s →
        Completes (.debugTapAccess op) s (fun t => Replied t .ok (bytesAt s a.toNat len) ∧ ∃ x, t = { s with answer := x })) ∧
      (∀ (a : W48) (data : List Byte), op = .writeMem a data → memMapped s a.toNat data.length = true → Sound s →
        closedRegion s a.toNat data.length = false → Completes (.debugTapAccess op) s (fun t => Replied t .ok [] ∧
          (∀ x, memByte t x = written s [(a.toNat, data)] x) ∧ ∀ r, getReg t r = getReg s r)) ∧
      (∀ a, op = .readReg a → Completes (.debugTapAccess op) s (fun t => exec (.readClear .mc a) s = .next t)) ∧
      (∀ a v, op = .writeReg a v → Completes (.debugTapAccess op) s (fun t => exec (.registerWrite .mc a v) s = .next t)) ∧
      (op = .readMc → Completes (.debugTapAccess op) s (fun t => (∃ v : W32, Replied t .ok (leBytes 4 v.toNat)) ∧ KeepsMemory s t ∧
        t.queues = s.queues)) ∧
      (op = .haltMc → Completes (.debugTapAccess op) s (fun t => t.boot.mcHalted = true ∧ tackServes t = false ∧ KeepsMemory s t ∧
        t.queues = s.queues)) ∧
      (op = .resumeMc → Completes (.debugTapAccess op) s (fun t => t.boot.mcHalted = false ∧ KeepsMemory s t ∧ t.queues = s.queues))))

/-- R19, R46, R51, R181, R500, R501, R526, R535, R543, R585, R628: reading the LO half of a count latches the HI half; a
read-clear register reads 0 once it has been read; a write stores the RW fields, clears the W1C bits written with 1, and
leaves the others; an access without the right is refused, and one of no register unmapped, where an engine's instruction halts
(R53). ACK moves on within what has been
written, and ERR_HANDLED closes the window that its record opened, both from PL 0 and the MC only. -/
def Obligations.RegisterAccess : Prop :=
  (∀ (i : Initiator) (addr : W48) (s : State),
    let a := addr.toNat
    let engineOff := fun (oe off : Nat) => placeOf a = .engine oe off
    (regMapped a = false → unreachable s i = false → ∀ c ∈ [(Instr.latchedRead i addr, 4), (.readClear i addr, 4)],
      Completes c.1 s (fun t => Replied t .unmapped (List.replicate c.2 0) ∧
        ((∀ cl q, i ≠ .engine cl q) → KeepsMemory s t) ∧
        ∀ cl q, i = .engine cl q → (getQ s cl.val q.toNat).cur.isSome = true → (getQ s cl.val q.toNat).halted = false →
          (getQ s cl.val q.toNat).stopReq = none → (getQ t cl.val q.toNat).halted = true ∧
          (getQ t cl.val q.toNat).haltReason = if (blockOf a).isNone then 4 else 5)) ∧
    (regMapped a = true → regAllowed s i a 0 false = true → RegSound s a → (∀ oe off, ¬ engineOff oe off) → ∀ d, regDef a = some d →
      (d.lo = true → (∀ cl q off, placeOf a ≠ .queue cl q off) → (∀ off, placeOf a ≠ .uptime off) →
        Completes (.latchedRead i addr) s (fun t => Replied t .ok (leBytes 4 (regValue s a).toNat) ∧
          getReg t (a + 4) = highWord (getCtr s a).toNat ∧ (∀ x, x ≠ a + 4 → getReg t x = getReg s x) ∧ t.ctr64 = s.ctr64 ∧
          ∃ r x, t = { s with regs := r, answer := x })) ∧
      (d.lo = true → ∀ cl q off, placeOf a = .queue cl q off →
        Completes (.latchedRead i addr) s (fun t => Replied t .ok (leBytes 4 (regValue s a).toNat) ∧
          (getQ t cl q).waitCountHi = highWord (getQ s cl q).waitCount.toNat ∧ (getQ t cl q).waitCount = (getQ s cl q).waitCount ∧
          OtherQueues cl q s t ∧ ∃ l x, t = { s with queues := l, answer := x })) ∧
      (d.rc = true → d.lo = false → Completes (.readClear i addr) s (fun t => Replied t .ok (leBytes 4 (regValue s a).toNat) ∧
        regValue t a = 0 ∧ KeepsMemory s t ∧ ∀ x, x ≠ a → getReg t x = getReg s x))) ∧
    (regMapped a = true → ∀ pl, i = .companion pl → regAllowed s i a 0 false = false → unreachable s i = false →
      Completes (.readClear i addr) s (fun t => TurnedAway s t .denied 4))) ∧
  (∀ (i : Initiator) (addr : W48) (v : W32) (s : State),
    let a := addr.toNat
    (regMapped a = true → regAllowed s i a v true = true → RegSound s a → ringIgnores i a = false → ∀ d, regDef a = some d →
      (writerOk i d = false → exec (.registerWrite i addr v) s = .next s) ∧
      (writerOk i d = true → regAct i a d v s = plainWrite a d v s →
        let o := getReg s a
        let n := BitVec.ofNat 32 (d.fix o.toNat v.toNat)
        Completes (.registerWrite i addr v) s (fun t => (∃ r, t = { s with regs := r }) ∧ (∀ x, x ≠ a → getReg t x = getReg s x) ∧
          ∀ k < 32, bitOf (getReg t a) k =
            if bitOf (BitVec.ofNat 32 d.rw) k = true then bitOf n k
            else (bitOf o k && !(bitOf v k && bitOf (BitVec.ofNat 32 d.w1c) k))))) ∧
    (∀ pl, i = .companion pl → unreachable s i = false →
      (regMapped a = false → Completes (.registerWrite i addr v) s (fun t => TurnedAway s t .unmapped 0)) ∧
      (regMapped a = true → regAllowed s i a v true = false → Completes (.registerWrite i addr v) s (fun t =>
        TurnedAway s t .denied 0)))) ∧
  (∀ (i : Initiator) (v : W32) (s : State),
    let e := s.err
    (mayAccess s i (errRegs + 4) 4 .write = true →
      (isPl0 i = false → exec (.errAckWrite i v) s = .next s) ∧
      (isPl0 i = true → e.used < (v - e.ack).toNat → exec (.errAckWrite i v) s = .next s) ∧
      (isPl0 i = true → (v - e.ack).toNat ≤ e.used → e.coal = [] → Completes (.errAckWrite i v) s (fun t =>
        t = { s with err := { e with ack := v } }))) ∧
    (mayAccess s i (errRegs + 0x14) 4 .write = true →
      (isPl0 i = false → exec (.errHandledWrite i v) s = .next s) ∧
      (isPl0 i = true → Completes (.errHandledWrite i v) s (fun t =>
        (∀ w, w ∈ t.err.windows ↔ w ∈ e.windows ∧ ridxOf e (some w.2) ≠ some v) ∧
        ∃ l, t = { s with err := { e with windows := l } }))))

/-- A frame that Tack sends joins the end of a queue when a buffer is free, is refused there, or finds no buffer (R414, R420,
R421). -/
def Enqueues (cmd : Instr) (s s1 : State) (port cls : Nat) (f : List Byte) (p : State → Prop) : Prop :=
  (refusedAtEnqueue s1 port = true → Completes cmd s (fun t => p t ∧ t.egq = s.egq ∧ t.bufs = s.bufs)) ∧
  (refusedAtEnqueue s1 port = false → ∀ u b, allocBuf (egCluster port) (egOwner port cls) f.length 1 s1 = (u, b) →
    (b = none → Completes cmd s (fun t => p t ∧ t.egq = s.egq ∧ t.bufs = s.bufs)) ∧
    (∀ k, b = some k → Sound s → memMapped s (bufAddr s k) (Nat.max 1 f.length) = true → f.length ≤ poolSize (bufPool k) →
      Completes cmd s (fun t => p t ∧ (getBuf t k).held = true ∧ (∀ x, memByte t x = written s [(bufAddr s k, f)] x) ∧
        (∃ e, (getEq t port cls).frames = (getEq s port cls).frames ++ [e] ∧ e.buf = k ∧ e.len = f.length ∧
          e.owner = egOwner port cls) ∧
        ∀ p2 c2, egKey p2 c2 ≠ egKey port cls → getEq t p2 c2 = getEq s p2 c2)))

/-- R500, R501, R503 to R506: a ring comes into use where its size and place are allowed, and a doorbell brings its TAIL on
within the room it has; an armed event ring with unread records sends its message at once; a write at a PL the ring does not
allow changes none of its settings. A slot of the inject ring becomes a frame of its port, or counts as lost. A management
port answers ARP, neighbour solicitations and echo requests, and punts what it does not consume. -/
def Obligations.HostRings : Prop :=
  (∀ (i : Initiator) (ring : Fin 18) (s : State),
    let n := ring.val
    let g := getRing s n
    let may := fun (off : Nat) => mayAccess s i (ringRegs n + off) 4 .write = true ∧
      (i = .mc ∨ ∃ pl : Fin 4, i = .companion pl ∧ pl.val ≤ ringPl n)
    let becomes := fun (x : Ring) (t : State) => getRing t n = x ∧ ∃ r, t = { s with rings := r }
    (∀ v : W32, may 8 →
      let k := fld v 0 5
      let ok := sizeOk n k = true ∧ ringPlaceOk s g.base.toNat (2 ^ k * slotBytes n) = true
      (g.en = true → exec (.ringEnable i ring v) s = .next s) ∧
      (g.en = false → ok → Completes (.ringEnable i ring v) s
        (becomes { g with sizeLog2 := BitVec.ofNat 5 k, en := true, head := 0, tail := 0 })) ∧
      (g.en = false → ¬ ok → Completes (.ringEnable i ring v) s (becomes { g with sizeLog2 := BitVec.ofNat 5 k }))) ∧
    (∀ count : BitVec 17, may 0x14 →
      let room := 2 ^ g.sizeLog2.toNat - (g.tail - g.head).toNat
      (deviceConsumes n = false ∨ count = 0 → exec (.ringDoorbell i ring count) s = .next s) ∧
      (deviceConsumes n = true → count ≠ 0 → g.en = true → count.toNat ≤ room → Completes (.ringDoorbell i ring count) s
        (becomes { g with tail := g.tail + BitVec.ofNat 32 count.toNat })) ∧
      (deviceConsumes n = true → count ≠ 0 → g.en = false ∨ room < count.toNat → Completes (.ringDoorbell i ring count) s
        (becomes { g with lost := satInc 1 g.lost }))) ∧
    (∀ v : W32, may 0x1C →
      let vec := BitVec.ofNat 16 (fld v 0 16)
      (isEventRing n = false → exec (.irqArm i ring v) s = .next s) ∧
      (isEventRing n = true → (g.tail = g.head ∨ s.evtWidth = 0) → Completes (.irqArm i ring v) s
        (becomes { g with vec := vec, arm := true })) ∧
      (isEventRing n = true → g.tail ≠ g.head → s.evtWidth ≠ 0 → Completes (.irqArm i ring v) s (fun t =>
        getRing t n = { g with vec := vec, arm := false } ∧ t.irqs = s.irqs ++ [vec] ∧ ∃ r q, t = { s with rings := r, irqs := q }))) ∧
    (∀ pl : Fin 4, i = .companion pl → ringPl n < pl.val → mayAccess s i (ringRegs n + 8) 4 .write = true →
      ∀ v : W32, Completes (.ringEnable i ring v) s (fun t => (getRing t n).en = g.en ∧ (getRing t n).base = g.base ∧
        (getRing t n).sizeLog2 = g.sizeLog2 ∧ getReg t (evtRegs + 0x14) = satInc 1 (getReg s (evtRegs + 0x14))))) ∧
  (∀ s : State,
    let g := getRing s 17
    let b := bytesAt s (g.base.toNat + g.head.toNat % 2 ^ g.sizeLog2.toNat * 2048) 2048
    let len := leAt b 0 2
    let port := leAt b 2 2
    let cls := leAt b 4 1
    let good := 60 ≤ len ∧ len ≤ 2032 ∧ cls < 8 ∧ (port = 0x400 ∨ port = 0x401 ∨ isPort s port = true)
    (g.en = false ∨ g.head = g.tail → exec .inject s = .next s) ∧
    (g.en = true → g.head ≠ g.tail → Sound s →
      (good → Enqueues .inject s (setRing 17 { g with head := g.head + 1 } s) port cls ((b.drop 16).take len) (fun t =>
        getRing t 17 = { g with head := g.head + 1 })) ∧
      (¬ good → Completes .inject s (fun t => getRing t 17 = { g with head := g.head + 1, lost := satInc 1 g.lost } ∧
        ∃ r, t = { s with rings := r })))) ∧
  (∀ (m : Fin 2) (frame : List Byte) (s : State), heldInReset s = false →
    let idle := regField s (evtRegs + 0x30) 0 1 = 0
    let g := getRing s 16
    (∀ f, arpAnswer s m.val frame = some f → Enqueues (.arpReply m frame) s s (1024 + m.val) 7 (padTo 60 f) (fun t =>
      t.rings = s.rings)) ∧
    (arpAnswer s m.val frame = none → exec (.arpReply m frame) s = .next s) ∧
    (∀ f, echoAnswer s m.val frame = some f → Enqueues (.echoReply m frame) s s (1024 + m.val) 7 (padTo 60 f) (fun t =>
      t.rings = s.rings)) ∧
    (echoAnswer s m.val frame = none → exec (.echoReply m frame) s = .next s) ∧
    ((arpAnswer s m.val frame).isSome ∨ (echoAnswer s m.val frame).isSome ∨ isCommandFrame s m.val frame = true ∨ idle →
      exec (.mgmtFramePunt m frame) s = .next s) ∧
    (arpAnswer s m.val frame = none → echoAnswer s m.val frame = none → isCommandFrame s m.val frame = false → ¬ idle →
      (g.en = false ∨ 2 ^ g.sizeLog2.toNat ≤ (g.tail - g.head).toNat → Completes (.mgmtFramePunt m frame) s (fun t =>
        getRing t 16 = { g with lost := satInc 1 g.lost } ∧ ∃ r, t = { s with rings := r })) ∧
      (g.en = true → (g.tail - g.head).toNat < 2 ^ g.sizeLog2.toNat → Sound s →
        let a := g.base.toNat + g.tail.toNat % 2 ^ g.sizeLog2.toNat * 2048
        let slot := leBytes 2 frame.length ++ leBytes 2 (0x400 + m.val) ++ [BitVec.ofNat 8 (boolNat (decide (2032 < frame.length)))] ++
          List.replicate 11 0 ++ frame.take 2032
        memMapped s a 2048 = true → Completes (.mgmtFramePunt m frame) s (fun t => (getRing t 16).tail = g.tail + 1 ∧
          (getRing t 16).head = g.head ∧ t.egq = s.egq ∧ ∀ x, ¬ inEventRing s x → memByte t x = written s [(a, slot)] x))))

/-! ### Cupping and health (17_cupping_and_health.md) -/

/-- What the agreement table holds on a case (R551). -/
def agreementOn (s : State) (kind fam : Nat) (seed : W64) (c : Nat) : Option Agreement :=
  s.health.agree.find? (fun a => decide (a.kind = kind) && decide (a.family = fam) && decide (a.seed = seed) && decide (a.case' = c))

/-- R550, R551, R553, R555 to R558, R560, R561, R569: a test that is due gets its run and its cases; the signature of the case
that has run, of what every sound unit of its kind gives or of what a faulty one does (log entry 110), is agreed, disputed or a
mismatch, and the mismatch is counted and replayed; a unit that no interval could test is overdue in the end. A replay that
fails at its own condition is permanent, at the recorded one only conditional, and otherwise transient: the score rises, and
with it what is done about the unit. Scores are halved, and HL_CLEAR clears one. -/
def Obligations.UnitHealth : Prop :=
  (∀ (u : UnitRef) (s : State),
    let k := unitKey u
    let x := getHUnit s k
    let known := hUnitExists s k = true ∧ u.index < 16
    let runs := fun (c : Instr) (p : State → Prop) => known → heldInReset s = false → Sound s → Completes c s p
    let score := fun (n : Nat) (t : State) =>
      let new := Nat.min 0xFFFF n
      let retireAt := regField s (hlRegs + 0xC) 16 16
      (getHUnit t k).score.toNat = new ∧ (regField s (hlRegs + 0xC) 0 16 ≤ new → (getHUnit t k).suspect = true) ∧
      (¬ (x.score.toNat < retireAt ∧ retireAt ≤ new) → (getHUnit t k).retired = x.retired) ∧
      (x.score.toNat < retireAt → retireAt ≤ new →
        let auto := keyKind k = 1 ∧ bitOf (getReg s hlRegs) 1 = true ∧ retireBudget s u.cl.val = true
        (auto → (getHUnit t k).retired = true ∧ (getHUnit t k).replays = [] ∧ retireBudget t u.cl.val = false) ∧
        (¬ auto → (getHUnit t k).suspect = true ∧ (getHUnit t k).retired = x.retired ∧
          let r := hlRegs + 0x40 + 4 * u.cl.val
          getReg t r = satInc 1 (getReg s r)))
    (¬ known → ∀ c ∈ [Instr.testDue u, .deferInterval u], exec c s = .fault .noSuchUnit) ∧
    (¬ known → ∀ fault, exec (.caseDone u fault) s = .fault .noSuchUnit) ∧
    (let go := bitOf (getReg s hlRegs) 0 = true ∧ x.todo = [] ∧ x.retired = false
     let run := if s.health.run + 1 = 0 then 1 else s.health.run + 1
     (go → runs (.testDue u) (fun t => t.health.run = run ∧ ∃ seed,
       let todo : List TestTodo := [⟨run, 0, seed, 0, regField s (hlRegs + 8) 16 16⟩]
       getHUnit t k = { x with due := true, todo := todo })) ∧
     (¬ go → runs (.testDue u) (fun t => getHUnit t k = { x with due := true } ∧ t.health.run = s.health.run))) ∧
    (let waits := (x.due = true ∨ x.replays ≠ []) ∧ testable s k = false
     let n := Nat.min 255 (x.defer + 1)
     let late := x.overdue || decide (regField s (hlRegs + 8) 0 8 < n)
     (¬ waits → runs (.deferInterval u) (fun t => t = s)) ∧
     (waits → runs (.deferInterval u) (fun t => getHUnit t k = { x with defer := n, overdue := late }))) ∧
    (∀ (fault : Option CaseOut),
      (testable s k = false → runs (.caseDone u fault) (fun t => t = s)) ∧
      (testable s k = true → (∀ e ∈ s.health.extra, e.kind = keyKind k → k ∈ e.but) → ∀ t0 rest, x.todo = t0 :: rest →
        let sig := signatureOf (keyKind k) t0.seed t0.next fault
        let fam := t0.next % familyCount (keyKind k)
        let held := agreementOn s (keyKind k) fam t0.seed t0.next
        let agreed := fun (t : State) => agreementOn t (keyKind k) fam t0.seed t0.next
        let extra := fun (but : List Nat) => s.health.extra ++ [⟨keyKind k, t0.run, t0.seed, t0.next, but⟩]
        let ran := fun (t : State) => getCtr t (hlRegs + 0x88) = getCtr s (hlRegs + 0x88) + 1 ∧
          (t0.next + 1 < t0.stop → (getHUnit t k).todo = { t0 with next := t0.next + 1 } :: rest) ∧
          (t0.stop ≤ t0.next + 1 → (getHUnit t k).todo = rest ∧ (getHUnit t k).due = false ∧ (getHUnit t k).overdue = false ∧
            (getHUnit t k).defer = 0 ∧ (getHUnit t k).tested = some s.uptime)
        (held = none → runs (.caseDone u fault) (fun t => ran t ∧ t.health.extra = s.health.extra ∧ t.health.agree =
          (if s.health.agree.length < 4096 then s.health.agree else s.health.agree.drop 1) ++
            [⟨keyKind k, fam, t0.seed, t0.next, [⟨k, sig, t0.run, unitTemp s k, unitVolt s k⟩], none⟩])) ∧
        (∀ a g, held = some a → a.agreed = some g →
          (g = sig → runs (.caseDone u fault) (fun t => ran t ∧ t.health.agree = s.health.agree ∧ t.health.extra = s.health.extra ∧
            (getHUnit t k).replays = x.replays)) ∧
          (g ≠ sig → runs (.caseDone u fault) (fun t => ran t ∧ getReg t (hlRegs + 0x80) = satInc 1 (getReg s (hlRegs + 0x80)) ∧
            (∃ d, (getHUnit t k).replays = x.replays ++ [d] ∧ d.family = fam ∧ d.case' = t0.next ∧ d.run = t0.run) ∧
            (t0.stop ≤ t0.next + 1 → (getHUnit t k).passed = false)))) ∧
        (∀ a g, held = some a → a.agreed = none → a.given = [g] →
          (g.unit = k → runs (.caseDone u fault) (fun t => ran t ∧ t.health.agree = s.health.agree ∧ t.health.extra = extra [k])) ∧
          (g.unit ≠ k → g.sig = sig → runs (.caseDone u fault) (fun t => ran t ∧ agreed t = some { a with agreed := some sig } ∧
            t.health.extra = s.health.extra)) ∧
          (g.unit ≠ k → g.sig ≠ sig → runs (.caseDone u fault) (fun t => ran t ∧ t.health.extra = extra [g.unit, k] ∧
            agreed t = some { a with given := [g, ⟨k, sig, t0.run, unitTemp s k, unitVolt s k⟩] }))) ∧
        (∀ a g h, held = some a → a.agreed = none → a.given = [g, h] → k ≠ g.unit → k ≠ h.unit → sig = g.sig →
          runs (.caseDone u fault) (fun t => ran t ∧ agreed t = some { a with agreed := some sig } ∧ (getHUnit t h.unit).replays =
            (getHUnit s h.unit).replays ++ [⟨fam, t0.next, h.run, h.temp, h.volt⟩])))) ∧
    (∀ (failRec failOwn : BitVec 8) (bias : Int) (column : Option (BitVec 8)) (d : ReplayDue) (rest : List ReplayDue),
      let cmd := Instr.conditionalReplay u failRec failOwn bias column
      (testable s k = false ∨ x.replays = [] → runs cmd (fun t => t = s)) ∧
      (testable s k = true → x.replays = d :: rest →
        (failOwn = 0 → failRec = 0 → runs cmd (score (x.score.toNat + 4))) ∧
        (failOwn = 0 → failRec ≠ 0 → runs cmd (fun t => score (x.score.toNat + 32) t ∧ (getHUnit t k).conditional = true ∧
          (getHUnit t k).condBand = some (bandOf bias d))) ∧
        (failOwn ≠ 0 → keyKind k ≠ 1 ∨ column = none → runs cmd (score 0xFFFF)) ∧
        (failOwn ≠ 0 → keyKind k = 1 → ∀ c, column = some c →
          let e := farrierEntry s 0 0 u.cl.val (u.cl.val / 2) (u.index + c.toNat * 16) 1 d.run.toNat
          (purge (s.health.entries ++ [e])).length ≤ 4096 → runs cmd (fun t => score (regField s (hlRegs + 0xC) 16 16 - 1) t ∧
            t.health.entries = purge (s.health.entries ++ [e]))))) ) ∧
  (∀ s : State, (s.health.units.map (fun e => e.1)).Nodup → Completes .scoreHalving s (fun t =>
    (∀ k, getHUnit t k = { getHUnit s k with score := (getHUnit s k).score / 2 }) ∧ ∃ h, t = { s with health := h })) ∧
  (∀ (i : Initiator) (v : W32) (s : State), mayAccess s i (hlRegs + 0x70) 4 .write = true →
    (isPl0 i = false ∨ selectedUnit s = none → exec (.hlClear i v) s = .next s) ∧
    (isPl0 i = true → ∀ k, selectedUnit s = some k → Completes (.hlClear i v) s (fun t =>
      getHUnit t k = { getHUnit s k with score := 0, suspect := false } ∧ (∀ j, j ≠ k → getHUnit t j = getHUnit s j) ∧
      ∃ h, t = { s with health := h })))

/-! ### Boot (18_boot_identity_protection.md) -/

/-- A method fails (R573 to R575): where the step has two methods that one attempt tries, the other one follows;
otherwise the record tells of it and the device resets itself, or, with no record, it stops in BOOT_FAILED, but for
FLASH_OPEN itself, after which the attempt goes on without one. -/
def MethodFails (s : State) (cmd : Instr) (code : Nat) : Prop :=
  let b := s.boot
  let twice := b.step = 2 ∨ b.step = 4 ∨ b.step = 12
  (twice → b.tried = [] → Completes cmd s (fun t => t.boot.step = b.step ∧ t.boot.method = 3 - b.method ∧
    t.boot.tried = [b.method] ∧ t.boot.code = code ∧ t.boot.active = b.active)) ∧
  (b.step = 2 → b.tried ≠ [] → Completes cmd s (fun t => t.boot.noRecord = true ∧ t.boot.step = 3 ∧ t.boot.method = 1 ∧
    t.boot.code = code ∧ t.flash = s.flash)) ∧
  (b.step ≠ 2 → (twice → b.tried ≠ []) →
    (b.noRecord = true → Completes cmd s (fun t => t.boot.failed = true ∧ t.boot.active = false ∧ t.boot.step = b.step ∧
      t.boot.code = code ∧ t.flash = s.flash)) ∧
    (b.noRecord = false → s.flash.record.length < 4096 → Completes cmd s (fun t =>
      t.flash.record = s.flash.record ++ [⟨b.step, b.method, 4, b.attempt, BitVec.ofNat 64 code⟩] ∧
      t.boot = State.reset.boot ∧ t.mem = [] ∧ t.queues = State.reset.queues ∧ t.fuses = s.fuses)))

/-- An attempt goes on to the next step, or past it (R572, R574, R575); `rec` is what the record holds then. -/
def GoesOn (s t : State) (rec : List BootEntry) : Prop :=
  let b := s.boot
  let entry := fun (step method event data : Nat) => (⟨step, method, event, b.attempt, BitVec.ofNat 64 data⟩ : BootEntry)
  t.boot.code = b.code ∧ t.boot.failed = b.failed ∧
  (b.skip = [] → b.step < 14 → t.boot.step = b.step + 1 ∧ t.boot.method = nextOf b.next (b.step + 1) ∧
    t.flash.record = rec ++ [entry (b.step + 1) (nextOf b.next (b.step + 1)) 2 s.uptime.toNat]) ∧
  (b.skip = [b.step + 1] → b.step + 1 < 14 → t.boot.step = b.step + 2 ∧
    t.flash.record = rec ++ [entry (b.step + 1) 0 5 0, entry (b.step + 2) (nextOf b.next (b.step + 2)) 2 s.uptime.toNat])

/-- R572 to R578, R590: an attempt begins with what the record says, or stops when four in a row have failed; a step that
completes is recorded and the next one begins, a skipped one passed over; ERR_ENABLE, LPD_TRAIN, KEYSTORE and PORTS have
their effects; an image that the ROM accepts runs and is measured; a method that fails is followed as R573 to R575 say. REARM
makes every step begin with method 1. -/
def Obligations.BootSteps : Prop :=
  (∀ s : State,
    let r := (readRecord s).newStart
    let pressed := s.sig.accepted.getD 1 true = false ∧ s.sig.stuck = false
    let entry := fun (step method event data : Nat) => (⟨step, method, event, r.attempt + 1, BitVec.ofNat 64 data⟩ : BootEntry)
    let idle := heldInReset s = false ∧ s.boot.active = false ∧ s.boot.booted = false ∧ s.boot.failed = false
    (¬ idle → exec .bootAttempt s = .next s) ∧
    (idle → pressed → Completes .bootAttempt s (fun t => t.boot.rearmed = true ∧ t.fuses = s.fuses ∧ KeepsMemory s t)) ∧
    (idle → ¬ pressed → 4 ≤ r.fails → Completes .bootAttempt s (fun t => t.boot.failed = true ∧ t.boot.active = false ∧
      t.boot.step = r.last ∧ t.boot.code = r.code ∧ t.flash = s.flash)) ∧
    (idle → ¬ pressed → r.fails < 4 → s.boot.noRecord = false → 1 ∉ r.skip → s.flash.record.length + 2 ≤ 4096 →
      Completes .bootAttempt s (fun t => t.boot.active = true ∧ t.boot.failed = false ∧ t.boot.step = 1 ∧ t.boot.next = r.next ∧
        t.boot.fails = r.fails ∧ t.boot.attempt = r.attempt + 1 ∧ t.flash.record = s.flash.record ++
          [entry 0 0 1 s.uptime.toNat, entry 1 (nextOf r.next 1) 2 s.uptime.toNat]))) ∧
  (∀ (code : BitVec 8) (data : W64) (s : State),
    let b := s.boot
    let cmd := Instr.bootStepComplete code data
    let img := if slotChoice s b.method then s.flash.slotB else s.flash.slotA
    let source := boolNat (slotChoice s b.method)
    let room := b.noRecord = false ∧ s.flash.record.length + 3 ≤ 4096
    let finish := fun (d : Nat) => s.flash.record ++ [⟨b.step, b.method, 3, b.attempt, BitVec.ofNat 64 d⟩]
    (b.active = false ∨ 8 < code.toNat ∨ (b.evtWait = true ∧ code = 0) → exec cmd s = .next s) ∧
    (b.active = true → code ≠ 0 → code.toNat ≤ 8 → MethodFails s cmd code.toNat) ∧
    (b.active = true → code = 0 → b.evtWait = false → stepFinding s ≠ 0 → MethodFails s cmd (stepFinding s)) ∧
    (b.active = true → code = 0 → b.evtWait = false → stepFinding s = 0 →
      (b.step ≠ 8 → 1 ≤ b.step → b.step < 14 → room → Completes cmd s (fun t =>
        GoesOn s t (finish (if b.step = 11 then s.uptime.toNat / 16 * 16 + data.toNat % 16 else s.uptime.toNat)) ∧
        (b.step = 10 → t.err.recEn = true) ∧
        (b.step = 11 → ∀ d < 4, bitsOf data.toNat d 1 = 1 → getReg t (memRegs d + 0x20) = 0) ∧
        (b.step = 12 → ∀ c, chooseCopy s.flash.keys0 s.flash.keys1 b.method = some c → t.keys = c.2))) ∧
      (b.step = 8 → room → Completes cmd s (fun t => GoesOn s t (finish s.uptime.toNat) ∧ t.boot.running = true ∧
        t.boot.version.toNat = leAt img 16 4 % 2 ^ 32 ∧ t.boot.source = source ∧ t.boot.meas = measurement s img source ∧
        t.boot.window = attestWindow s (measurement s img source))) ∧
      (b.step = 14 → s.flash.store = none → room → Completes cmd s (fun t => t.boot.booted = true ∧ t.boot.active = false ∧
        t.flash.record = finish s.uptime.toNat ++ [⟨0, 0, 6, b.attempt, s.uptime⟩])))) ∧
  (∀ s : State,
    (s.boot.active = false → exec .bootStepTimeout s = .next s) ∧ (s.boot.active = true → MethodFails s .bootStepTimeout 1)) ∧
  (∀ (i : Initiator) (v : W32) (s : State), mayAccess s i (bootRegs + 8) 4 .write = true →
    let n := fld v 0 25
    let takes := isPl0 i = true ∧ s.boot.evtWait = true ∧ 513 ≤ n ∧ n ≤ 16777216
    let img := bytesAt s 0 n
    (¬ takes → exec (.bootEvtLen i v) s = .next s) ∧
    (takes → Sound s →
      (imageCheck s img ≠ 0 → MethodFails s (.bootEvtLen i v) (imageCheck s img)) ∧
      (imageCheck s img = 0 → s.boot.noRecord = false → s.flash.record.length + 3 ≤ 4096 → Completes (.bootEvtLen i v) s (fun t =>
        t.boot.running = true ∧ t.boot.version.toNat = leAt img 16 4 % 2 ^ 32 ∧ t.boot.source = 2 ∧
        t.boot.meas = measurement s img 2 ∧ (s.boot.step = 8 → GoesOn s t (s.flash.record ++
          [⟨8, s.boot.method, 3, s.boot.attempt, s.uptime⟩])))))) ∧
  (∀ (i : Initiator) (v : W32) (s : State), mayAccess s i (bootRegs + 0x14) 4 .write = true →
    let takes := isPl0 i = true ∧ bitOf v 0 = true ∧ s.boot.noRecord = false
    (¬ takes → exec (.rearm i v) s = .next s) ∧
    (takes → s.flash.record.length < 4096 → Completes (.rearm i v) s (fun t => t.boot.next = List.replicate 14 1 ∧
      t.flash.record = s.flash.record ++ [summaryEntry (List.replicate 14 1) 0 s.boot.attempt] ∧ KeepsMemory s t)))

/-! ### Power, clocks and pins (19_power_clocks_signals.md) -/

/-- Regions other than `r` are as they were. -/
def OtherRegions (s t : State) (r : Nat) : Prop := ∀ q, q ≠ r → getRg t q = getRg s q

/-- Levels `L` of the eight regions respect every cause but FOLLOW, and neighbours keep R604's ratio. -/
def LevelsOk (s : State) (L : Nat → Nat) : Prop :=
  (∀ r < 8, ownLevel s r ≤ L r) ∧
  ∀ r < 8, ∀ q ∈ neighbours r, L q ≤ L r → 945 * (64 - L q) ≤ 1000 * (64 - L r)

/-- R604: for every two neighbours at levels La ≥ Lb, 1,000 × (64 − La) ≥ 945 × (64 − Lb). A check puts in force the least
levels that respect the other causes and keep that for all neighbours: FOLLOW raises a level only as far, in the same
check, and lets it fall again as far. -/
def Obligations.NeighbourLevels : Prop :=
  (∀ s : State, (∀ r < 8, ownLevel s r ≤ 63) →
    LevelsOk s (fun r => (levels s).getD r 0) ∧ ∀ L : Nat → Nat, LevelsOk s L → ∀ r < 8, (levels s).getD r 0 ≤ L r) ∧
  (∀ (readings : List RegionReading) (s : State), heldInReset s = false → Completes (.regionCheck readings) s (fun t =>
    ∀ r < 8, (getRg t r).level = (levels t).getD r 0))

/-- R598, R599, R602, R603, R605, R608: a check reads every region and moves its cause levels; the level in force is the largest. A voltage step follows the one before in steps of at most 10 mV, after the clocks when the
level rises and before them when it falls. A step that does not settle is a rail fault at level 32, and is sent again. A
temperature sample shows the hottest of a region's four sensors; at 115 °C the device trips. -/
def Obligations.PowerRegions : Prop :=
  (∀ (readings : List RegionReading) (s : State), heldInReset s = false → Completes (.regionCheck readings) s (fun t =>
    ∀ r < 8,
      let x := getRg s r
      let y := getRg t r
      let temp := rgTemp t r
      let tp := sext 16 (regField t (rgRegs r + 0x10) 12 16)
      let cur := regField t (rgRegs r + 0x1C) 0 12
      let lim := regField t (rgRegs r + 0x20) 0 12
      (∀ m, readings[r]? = some m → rgMeas t r = Nat.min m.mv 0xFFF ∧ cur = Nat.min m.amps 0xFFF) ∧
      y.thermal = (if tp ≤ temp then Nat.min 32 (x.thermal + 1) else if 32 < tp - temp then x.thermal - 1 else x.thermal) ∧
      y.current = (if lim < cur then Nat.min 32 (x.current + 1) else if 100 * cur < 95 * lim then x.current - 1 else x.current) ∧
      y.cold = (if temp < 0 then 16 else if 80 ≤ temp then 0 else x.cold) ∧
      (skewHits t r ≠ [] → y.skew = Nat.min 32 (x.skew + 4)) ∧ (skewHits t r = [] → x.skew = 0 → y.skew = 0) ∧
      y.level = (levels t).getD r 0 ∧ ownLevel t r ≤ y.level ∧ getReg t (rgRegs r) = levelReg t (levels t) r)) ∧
  (∀ (sensors : List Int) (s : State), heldInReset s = false → sensors.length = 32 → (∀ x ∈ sensors, -2 ^ 15 ≤ x ∧ x < 2 ^ 15) →
    ((∀ x ∈ sensors, x < 920) → Completes (.tempSample sensors) s (fun t => (∃ l, t = { s with regs := l }) ∧
      ∀ r < 8, rgTemp t r ∈ (sensors.drop (4 * r)).take 4 ∧ ∀ x ∈ (sensors.drop (4 * r)).take 4, x ≤ rgTemp t r)) ∧
    ((∃ x ∈ sensors, 920 ≤ x) → Completes (.tempSample sensors) s (fun t => t.sig.tripped = true ∧ heldInReset t = true ∧
      t.boot = State.reset.boot ∧ t.mem = [] ∧ t.queues = State.reset.queues ∧ t.flash = s.flash ∧ t.fuses = s.fuses))) ∧
  (∀ (r : Fin 8) (s : State), heldInReset s = false →
    let x := getRg s r.val
    let want := requestMv s r.val
    let now := rgReq s r.val
    let sends := fun (n : Nat) (t : State) => rgReq t r.val = n ∧ (getRg t r.val).settling = true ∧ OtherRegions s t r.val
    (x.settling = false → exec (.voltageStep r) s = .next s) ∧
    (x.settling = true → x.level ≤ x.clk →
      (now = want → Completes (.voltageStep r) s (fun t => rgReq t r.val = now ∧ OtherRegions s t r.val ∧
        (getRg t r.val).settling = false ∧ (getRg t r.val).gliding = (x.gliding || decide (x.level < x.clk)))) ∧
      (now < want → Completes (.voltageStep r) s (sends (Nat.min want (now + 10)))) ∧
      (want < now → Completes (.voltageStep r) s (sends (Nat.max want (now - 10))))) ∧
    (x.settling = true → x.clk < x.level → Completes (.voltageStep r) s (fun t => (getRg t r.val).gliding = true ∧
      (now < want → sends (Nat.min want (now + 10)) t) ∧ (want ≤ now → rgReq t r.val = now ∧ (getRg t r.val).settling = false))) ∧
    (x.settling = true → x.rail = false → Completes (.railSettleTimeout r) s (fun t => (getRg t r.val).rail = true ∧
      32 ≤ (getRg t r.val).level)) ∧
    (x.settling = false ∨ x.rail = true → exec (.railSettleTimeout r) s = .next s) ∧
    (x.rail = true → Completes (.railRetry r) s (fun t => getRg t r.val = { x with settling := true } ∧ OtherRegions s t r.val ∧
      ∃ p, t = { s with power := p })) ∧
    (x.rail = false → exec (.railRetry r) s = .next s) ∧
    (x.gliding = true → Completes (.pllGlideDone r) s (fun t => (getRg t r.val).clk = x.level ∧ (getRg t r.val).gliding = false ∧
      (getRg t r.val).level = x.level ∧ OtherRegions s t r.val)) ∧
    (x.gliding = false → exec (.pllGlideDone r) s = .next s))

/-- The device has been reset: of its state only board flash, fuses and the levels its pins have accepted are left. -/
def WasReset (s t : State) : Prop :=
  ∃ g, t = { State.reset with
    pending := s.pending, part := t.part, fresh := s.fresh, flash := s.flash, fuses := s.fuses
    harness := Harness.reset t.part
    sig := g }

/-- R583, R600, R609, R611 to R614: REF, RESET_N and the rails reset the device and hold it in reset; leaving reset it samples
its straps. A level held is accepted; a change that is not is counted, and recorded once. PRESENCE_N held low too long is
stuck. SEAL_A follows its sequence, and the loop closes after two matches and opens at the first mismatch. -/
def Obligations.ResetsAndPins : Prop :=
  (∀ s : State,
    let straps := boolNat (s.sig.accepted.getD 4 false) + 2 * boolNat (s.sig.accepted.getD 5 false) +
      4 * boolNat (s.sig.accepted.getD 6 false)
    let leaves := fun (t : State) => WasReset s t ∧ heldInReset t = false ∧ t.part.harnessId.toNat = straps ∧
      t.part.harnessSb = s.sig.accepted.getD 7 false ∧ t.sig.accepted = s.sig.accepted
    (s.sig.refBad = true → exec .refLoss s = .next s) ∧
    (s.sig.refBad = false → Completes .refLoss s (fun t => WasReset s t ∧ t.part = s.part ∧ t.sig.refBad = true ∧
      heldInReset t = true ∧ t.sig.accepted = s.sig.accepted)) ∧
    (s.sig.refBad = false → exec .refGood s = .next s) ∧
    (s.sig.refBad = true → s.sig.resetLow = true ∨ s.sig.tripped = true → Completes .refGood s (fun t =>
      t.sig.refBad = false ∧ heldInReset t = true ∧ ∃ g, t = { s with sig := g })) ∧
    (s.sig.refBad = true → s.sig.resetLow = false → s.sig.tripped = false → Completes .refGood s leaves) ∧
    (s.sig.resetLow = true → exec .resetAssert s = .next s ∧ exec .railRemoved s = .next s) ∧
    (s.sig.resetLow = false → Completes .resetAssert s (fun t => WasReset s t ∧ t.part = s.part ∧ t.sig.resetLow = true ∧
      t.sig.tripped = false ∧ t.sig.accepted = s.sig.accepted)) ∧
    (s.sig.resetLow = false → Completes .railRemoved s (fun t => WasReset s t ∧ t.part = s.part ∧ t.sig = Signals.reset)) ∧
    (s.sig.resetLow = false → exec .resetRelease s = .next s) ∧
    (s.sig.resetLow = true → s.sig.refBad = true → Completes .resetRelease s (fun t => t.sig.resetLow = false ∧
      heldInReset t = true ∧ ∃ g, t = { s with sig := g })) ∧
    (s.sig.resetLow = true → s.sig.refBad = false → s.sig.tripped = false → Completes .resetRelease s leaves)) ∧
  (∀ (pin : Fin 8) (level : Bool) (s : State), s.sig.accepted.length = 8 →
    let p := pin.val
    let idle := p = 0 ∨ s.sig.accepted.getD p false = level
    (idle → exec (.inputAccept pin level) s = .next s) ∧
    (¬ idle → Completes (.inputAccept pin level) s (fun t => t.sig.accepted = s.sig.accepted.set p level ∧
      t.sig.stuck = (s.sig.stuck && !(decide (p = 1) && level)) ∧ (mget PinNote.reset t.sig.notes p).noted = false ∧
      ∃ g, t = { s with sig := g }))) ∧
  (∀ (pin : Fin 8) (s : State), heldInReset s = false →
    let p := pin.val
    let n := mget PinNote.reset s.sig.notes p
    let r := sigRegs + 0x40 + 4 * p
    let due := ∀ u : W64, n.last = some u → u.toNat + 2 ^ 30 ≤ s.uptime.toNat
    (p = 0 ∨ n.noted = true → Completes (.inputToggle pin) s (fun t => getReg t r = satInc 1 (getReg s r) ∧ ∃ l, t = { s with regs := l })) ∧
    (p ≠ 0 → n.noted = false → Completes (.inputToggle pin) s (fun t => getReg t r = satInc 1 (getReg s r) ∧
      t.sig.accepted = s.sig.accepted ∧ mget PinNote.reset t.sig.notes p =
        ⟨true, if n.last.isSome = true ∧ ¬ due then n.last else some s.uptime⟩))) ∧
  (∀ s : State, heldInReset s = false →
    let low := s.sig.accepted.getD 1 true = false
    (low → s.sig.stuck = false → Completes .presenceStuck s (fun t => t.sig.stuck = true ∧ presence t = false ∧
      t.sig.accepted = s.sig.accepted)) ∧
    (¬ (low ∧ s.sig.stuck = false) → exec .presenceStuck s = .next s) ∧
    (s.sig.sealN = none → exec .sealDrive s = .next s ∧ exec .sealCompare s = .next s) ∧
    (∀ n, s.sig.sealN = some n →
      let same := s.sig.accepted.getD 2 true = s.sig.sealBit
      let bit := srBits (leNat ((hmac512 (fuseBytes s 0 16) (ascii "SEAL")).take 8)) (n + 1) % 2
      (Completes .sealDrive s (fun t => t.sig.sealN = some (n + 1) ∧ t.sig.sealBit = decide (bit = 1) ∧ ∃ g, t = { s with sig := g })) ∧
      (same → Completes .sealCompare s (fun t => t.sig.sealMatches = Nat.min 2 (s.sig.sealMatches + 1) ∧
        t.sig.sealClosed = (s.sig.sealClosed || decide (1 ≤ s.sig.sealMatches)) ∧ ∃ g, t = { s with sig := g })) ∧
      (¬ same → s.sig.sealClosed = false → Completes .sealCompare s (fun t => t.sig.sealMatches = 0 ∧ t.sig.sealClosed = false ∧
        ∃ g, t = { s with sig := g })) ∧
      (¬ same → s.sig.sealClosed = true → Completes .sealCompare s (fun t => t.sig.sealMatches = 0 ∧ t.sig.sealClosed = false ∧
        t.boot.debugLevel = 0 ∧ t.presWait = none ∧
        getReg t (bootRegs + 0x2C) = satInc 1 (getReg s (bootRegs + 0x2C))))))
end

