-- ==== Sys2Proof/Laws/Store.lean ====
section
/-! SUPPORT. Laws of the sparse store: a read after a write, other keys untouched, and the canonical form kept. They hold
of every list, so no statement about the machine needs its tables to be sorted. -/

namespace Sys2Proof.Machine

variable {α : Type}

@[simp] theorem mlook_mset_same (m : SMap α) (k : Nat) (v : α) : mlook (mset m k v) k = some v := by
  induction m with
  | nil => simp [mset, mlook]
  | cons p r ih =>
    obtain ⟨j, w⟩ := p
    by_cases h : j = k
    · simp [mset, mlook, h]
    · by_cases h2 : k < j
      · simp [mset, mlook, h, h2]
      · simp [mset, mlook, h, h2, ih]

theorem mlook_mset_other (m : SMap α) (k j : Nat) (v : α) (h : j ≠ k) : mlook (mset m k v) j = mlook m j := by
  induction m with
  | nil => simp [mset, mlook, h.symm]
  | cons p r ih =>
    obtain ⟨i, w⟩ := p
    by_cases h1 : i = k
    · subst h1; simp [mset, mlook, h.symm]
    · by_cases h2 : k < i
      · simp [mset, mlook, h1, h2, h.symm]
      · simp [mset, mlook, h1, h2, ih]

@[simp] theorem mlook_mdel_same (m : SMap α) (k : Nat) : mlook (mdel m k) k = none := by
  induction m with
  | nil => rfl
  | cons p r ih =>
    obtain ⟨j, w⟩ := p
    by_cases h : j = k <;> simp [mdel, mlook, h, ih]

theorem mlook_mdel_other (m : SMap α) (k j : Nat) (h : j ≠ k) : mlook (mdel m k) j = mlook m j := by
  induction m with
  | nil => rfl
  | cons p r ih =>
    obtain ⟨i, w⟩ := p
    by_cases h1 : i = k
    · subst h1; simp [mdel, mlook, h.symm, ih]
    · simp [mdel, mlook, h1, ih]

variable [DecidableEq α]

/-- A read after a write to the same key gives the value written. -/
@[simp] theorem mget_mput_same (d : α) (m : SMap α) (k : Nat) (v : α) : mget d (mput d m k v) k = v := by
  unfold mget mput
  split
  · simp_all
  · simp

/-- A write leaves every other key as it reads. -/
theorem mget_mput_other (d e : α) (m : SMap α) (k j : Nat) (v : α) (h : j ≠ k) : mget e (mput d m k v) j = mget e m j := by
  unfold mget mput
  split
  · rw [mlook_mdel_other m k j h]
  · rw [mlook_mset_other m k j v h]

/-- A read after a write, by the key. -/
theorem mget_mput (d : α) (m : SMap α) (k j : Nat) (v : α) : mget d (mput d m k v) j = if j = k then v else mget d m j := by
  split
  · next h => subst h; simp
  · next h => exact mget_mput_other d d m k j v h

/-! ### The canonical form -/

omit [DecidableEq α] in
theorem risingFrom_mset (m : SMap α) (lo k : Nat) (v : α) (h : risingFrom lo m = true) (hk : lo < k) :
    risingFrom lo (mset m k v) = true := by
  induction m generalizing lo with
  | nil => simp [mset, risingFrom, hk]
  | cons p r ih =>
    obtain ⟨j, w⟩ := p
    simp only [risingFrom, Bool.and_eq_true, decide_eq_true_eq] at h
    by_cases h1 : j = k
    · subst h1; simp [mset, risingFrom, h.1, h.2]
    · by_cases h2 : k < j
      · simp [mset, risingFrom, h1, h2, hk, h.2]
      · simp [mset, risingFrom, h1, h2, h.1, ih j h.2 (by omega)]

omit [DecidableEq α] in
theorem risingFrom_weaken (m : SMap α) (lo lo' : Nat) (h : risingFrom lo m = true) (hl : lo' ≤ lo) :
    risingFrom lo' m = true := by
  cases m with
  | nil => rfl
  | cons p r =>
    obtain ⟨j, w⟩ := p
    simp only [risingFrom, Bool.and_eq_true, decide_eq_true_eq] at h ⊢
    exact ⟨by omega, h.2⟩

omit [DecidableEq α] in
theorem risingFrom_mdel (m : SMap α) (lo k : Nat) (h : risingFrom lo m = true) : risingFrom lo (mdel m k) = true := by
  induction m generalizing lo with
  | nil => rfl
  | cons p r ih =>
    obtain ⟨j, w⟩ := p
    simp only [risingFrom, Bool.and_eq_true, decide_eq_true_eq] at h
    by_cases h1 : j = k
    · simp only [mdel, h1, if_true]
      exact ih lo (risingFrom_weaken r j lo h.2 (by omega))
    · simp [mdel, risingFrom, h1, h.1, ih j h.2]

omit [DecidableEq α] in
theorem rising_of_risingFrom (m : SMap α) (lo : Nat) (h : risingFrom lo m = true) : rising m = true := by
  cases m with
  | nil => rfl
  | cons p r =>
    simp only [risingFrom, Bool.and_eq_true] at h
    exact h.2

omit [DecidableEq α] in
theorem rising_mset (m : SMap α) (k : Nat) (v : α) (h : rising m = true) : rising (mset m k v) = true := by
  cases m with
  | nil => rfl
  | cons p r =>
    obtain ⟨j, w⟩ := p
    simp only [rising] at h
    by_cases h1 : j = k
    · subst h1; simp [mset, rising, h]
    · by_cases h2 : k < j
      · simp [mset, rising, risingFrom, h1, h2, h]
      · simp only [mset, h1, h2, if_false, rising]
        exact risingFrom_mset r j k v h (by omega)

omit [DecidableEq α] in
theorem rising_mdel (m : SMap α) (k : Nat) (h : rising m = true) : rising (mdel m k) = true := by
  cases m with
  | nil => rfl
  | cons p r =>
    obtain ⟨j, w⟩ := p
    simp only [rising] at h
    by_cases h1 : j = k
    · simp only [mdel, h1, if_true]
      exact rising_of_risingFrom _ j (risingFrom_mdel r j k h)
    · simp only [mdel, h1, if_false, rising]
      exact risingFrom_mdel r j k h

omit [DecidableEq α] in
theorem mem_mset (m : SMap α) (k : Nat) (v : α) (p : Nat × α) (h : p ∈ mset m k v) : p = (k, v) ∨ p ∈ m := by
  induction m with
  | nil => simp_all [mset]
  | cons q r ih =>
    obtain ⟨j, w⟩ := q
    simp only [mset] at h
    split at h
    · simp only [List.mem_cons] at h ⊢
      exact h.elim .inl (fun h => .inr (.inr h))
    · split at h
      · simp only [List.mem_cons] at h ⊢
        exact h
      · simp only [List.mem_cons] at h ⊢
        rcases h with h | h
        · exact .inr (.inl h)
        · rcases ih h with h | h
          · exact .inl h
          · exact .inr (.inr h)

omit [DecidableEq α] in
theorem mem_mdel (m : SMap α) (k : Nat) (p : Nat × α) (h : p ∈ mdel m k) : p ∈ m := by
  induction m with
  | nil => simp [mdel] at h
  | cons q r ih =>
    obtain ⟨j, w⟩ := q
    simp only [mdel] at h
    split at h
    · exact List.mem_cons_of_mem _ (ih h)
    · simp only [List.mem_cons] at h ⊢
      rcases h with h | h
      · exact .inl h
      · exact .inr (ih h)

/-- A write keeps the canonical form. -/
theorem canonical_mput (d : α) (m : SMap α) (k : Nat) (v : α) (h : canonical d m = true) : canonical d (mput d m k v) = true := by
  simp only [canonical, Bool.and_eq_true, List.all_eq_true, decide_eq_true_eq] at h ⊢
  unfold mput
  split
  · exact ⟨rising_mdel m k h.1, fun p hp => h.2 p (mem_mdel m k p hp)⟩
  · next hv =>
    refine ⟨rising_mset m k v h.1, fun p hp => ?_⟩
    rcases mem_mset m k v p hp with rfl | hp
    · exact hv
    · exact h.2 p hp

end Sys2Proof.Machine
end

