-- ==== Sys2Proof/Laws/State.lean ====
section
/-! SUPPORT. For each named update of the state and each field: what the field is afterwards. The updates by a function
reduce to the plain ones. -/

namespace Sys2Proof.Machine

/-! ### setReg -/

@[simp] theorem setReg_pending (a : Nat) (v : W32) (s : State) : (setReg a v s).pending = s.pending := .trans rfl rfl
@[simp] theorem setReg_part (a : Nat) (v : W32) (s : State) : (setReg a v s).part = s.part := .trans rfl rfl
@[simp] theorem setReg_uptime (a : Nat) (v : W32) (s : State) : (setReg a v s).uptime = s.uptime := .trans rfl rfl
@[simp] theorem setReg_arithCount (a : Nat) (v : W32) (s : State) : (setReg a v s).arithCount = s.arithCount := .trans rfl rfl
@[simp] theorem setReg_fwdCount (a : Nat) (v : W32) (s : State) : (setReg a v s).fwdCount = s.fwdCount := .trans rfl rfl
@[simp] theorem setReg_fresh (a : Nat) (v : W32) (s : State) : (setReg a v s).fresh = s.fresh := .trans rfl rfl
@[simp] theorem setReg_mem (a : Nat) (v : W32) (s : State) : (setReg a v s).mem = s.mem := .trans rfl rfl
@[simp] theorem setReg_poison (a : Nat) (v : W32) (s : State) : (setReg a v s).poison = s.poison := .trans rfl rfl
@[simp] theorem setReg_flaws (a : Nat) (v : W32) (s : State) : (setReg a v s).flaws = s.flaws := .trans rfl rfl
@[simp] theorem setReg_odecc (a : Nat) (v : W32) (s : State) : (setReg a v s).odecc = s.odecc := .trans rfl rfl
@[simp] theorem setReg_ctr64 (a : Nat) (v : W32) (s : State) : (setReg a v s).ctr64 = s.ctr64 := .trans rfl rfl
@[simp] theorem setReg_queues (a : Nat) (v : W32) (s : State) : (setReg a v s).queues = s.queues := .trans rfl rfl
@[simp] theorem setReg_sems (a : Nat) (v : W32) (s : State) : (setReg a v s).sems = s.sems := .trans rfl rfl
@[simp] theorem setReg_flights (a : Nat) (v : W32) (s : State) : (setReg a v s).flights = s.flights := .trans rfl rfl
@[simp] theorem setReg_tilePhys (a : Nat) (v : W32) (s : State) : (setReg a v s).tilePhys = s.tilePhys := .trans rfl rfl
@[simp] theorem setReg_err (a : Nat) (v : W32) (s : State) : (setReg a v s).err = s.err := .trans rfl rfl
@[simp] theorem setReg_rings (a : Nat) (v : W32) (s : State) : (setReg a v s).rings = s.rings := .trans rfl rfl
@[simp] theorem setReg_irqs (a : Nat) (v : W32) (s : State) : (setReg a v s).irqs = s.irqs := .trans rfl rfl
@[simp] theorem setReg_evtWidth (a : Nat) (v : W32) (s : State) : (setReg a v s).evtWidth = s.evtWidth := .trans rfl rfl
@[simp] theorem setReg_snoop (a : Nat) (v : W32) (s : State) : (setReg a v s).snoop = s.snoop := .trans rfl rfl
@[simp] theorem setReg_jobs (a : Nat) (v : W32) (s : State) : (setReg a v s).jobs = s.jobs := .trans rfl rfl
@[simp] theorem setReg_keys (a : Nat) (v : W32) (s : State) : (setReg a v s).keys = s.keys := .trans rfl rfl
@[simp] theorem setReg_mgmt (a : Nat) (v : W32) (s : State) : (setReg a v s).mgmt = s.mgmt := .trans rfl rfl
@[simp] theorem setReg_presWait (a : Nat) (v : W32) (s : State) : (setReg a v s).presWait = s.presWait := .trans rfl rfl
@[simp] theorem setReg_prot (a : Nat) (v : W32) (s : State) : (setReg a v s).prot = s.prot := .trans rfl rfl
@[simp] theorem setReg_ctxs (a : Nat) (v : W32) (s : State) : (setReg a v s).ctxs = s.ctxs := .trans rfl rfl
@[simp] theorem setReg_boot (a : Nat) (v : W32) (s : State) : (setReg a v s).boot = s.boot := .trans rfl rfl
@[simp] theorem setReg_flash (a : Nat) (v : W32) (s : State) : (setReg a v s).flash = s.flash := .trans rfl rfl
@[simp] theorem setReg_fuses (a : Nat) (v : W32) (s : State) : (setReg a v s).fuses = s.fuses := .trans rfl rfl
@[simp] theorem setReg_tiles (a : Nat) (v : W32) (s : State) : (setReg a v s).tiles = s.tiles := .trans rfl rfl
@[simp] theorem setReg_ft (a : Nat) (v : W32) (s : State) : (setReg a v s).ft = s.ft := .trans rfl rfl
@[simp] theorem setReg_poolMib (a : Nat) (v : W32) (s : State) : (setReg a v s).poolMib = s.poolMib := .trans rfl rfl
@[simp] theorem setReg_bufs (a : Nat) (v : W32) (s : State) : (setReg a v s).bufs = s.bufs := .trans rfl rfl
@[simp] theorem setReg_owners (a : Nat) (v : W32) (s : State) : (setReg a v s).owners = s.owners := .trans rfl rfl
@[simp] theorem setReg_ingress (a : Nat) (v : W32) (s : State) : (setReg a v s).ingress = s.ingress := .trans rfl rfl
@[simp] theorem setReg_egq (a : Nat) (v : W32) (s : State) : (setReg a v s).egq = s.egq := .trans rfl rfl
@[simp] theorem setReg_ports (a : Nat) (v : W32) (s : State) : (setReg a v s).ports = s.ports := .trans rfl rfl
@[simp] theorem setReg_staging (a : Nat) (v : W32) (s : State) : (setReg a v s).staging = s.staging := .trans rfl rfl
@[simp] theorem setReg_hdrAt (a : Nat) (v : W32) (s : State) : (setReg a v s).hdrAt = s.hdrAt := .trans rfl rfl
@[simp] theorem setReg_clampLo (a : Nat) (v : W32) (s : State) : (setReg a v s).clampLo = s.clampLo := .trans rfl rfl
@[simp] theorem setReg_mgmtDown (a : Nat) (v : W32) (s : State) : (setReg a v s).mgmtDown = s.mgmtDown := .trans rfl rfl
@[simp] theorem setReg_policers (a : Nat) (v : W32) (s : State) : (setReg a v s).policers = s.policers := .trans rfl rfl
@[simp] theorem setReg_egLast (a : Nat) (v : W32) (s : State) : (setReg a v s).egLast = s.egLast := .trans rfl rfl
@[simp] theorem setReg_mgmtTx (a : Nat) (v : W32) (s : State) : (setReg a v s).mgmtTx = s.mgmtTx := .trans rfl rfl
@[simp] theorem setReg_arrivals (a : Nat) (v : W32) (s : State) : (setReg a v s).arrivals = s.arrivals := .trans rfl rfl
@[simp] theorem setReg_groups (a : Nat) (v : W32) (s : State) : (setReg a v s).groups = s.groups := .trans rfl rfl
@[simp] theorem setReg_scus (a : Nat) (v : W32) (s : State) : (setReg a v s).scus = s.scus := .trans rfl rfl
@[simp] theorem setReg_pues (a : Nat) (v : W32) (s : State) : (setReg a v s).pues = s.pues := .trans rfl rfl
@[simp] theorem setReg_dose (a : Nat) (v : W32) (s : State) : (setReg a v s).dose = s.dose := .trans rfl rfl
@[simp] theorem setReg_cvus (a : Nat) (v : W32) (s : State) : (setReg a v s).cvus = s.cvus := .trans rfl rfl
@[simp] theorem setReg_bundles (a : Nat) (v : W32) (s : State) : (setReg a v s).bundles = s.bundles := .trans rfl rfl
@[simp] theorem setReg_harness (a : Nat) (v : W32) (s : State) : (setReg a v s).harness = s.harness := .trans rfl rfl
@[simp] theorem setReg_wormOut (a : Nat) (v : W32) (s : State) : (setReg a v s).wormOut = s.wormOut := .trans rfl rfl
@[simp] theorem setReg_health (a : Nat) (v : W32) (s : State) : (setReg a v s).health = s.health := .trans rfl rfl
@[simp] theorem setReg_power (a : Nat) (v : W32) (s : State) : (setReg a v s).power = s.power := .trans rfl rfl
@[simp] theorem setReg_sig (a : Nat) (v : W32) (s : State) : (setReg a v s).sig = s.sig := .trans rfl rfl
@[simp] theorem setReg_evtFailed (a : Nat) (v : W32) (s : State) : (setReg a v s).evtFailed = s.evtFailed := .trans rfl rfl
@[simp] theorem setReg_answer (a : Nat) (v : W32) (s : State) : (setReg a v s).answer = s.answer := .trans rfl rfl
@[simp] theorem setReg_heldAcc (a : Nat) (v : W32) (s : State) : (setReg a v s).heldAcc = s.heldAcc := .trans rfl rfl
@[simp] theorem setReg_movers (a : Nat) (v : W32) (s : State) : (setReg a v s).movers = s.movers := .trans rfl rfl
@[simp] theorem setReg_runs (a : Nat) (v : W32) (s : State) : (setReg a v s).runs = s.runs := .trans rfl rfl
@[simp] theorem setReg_bad (a : Nat) (v : W32) (s : State) : (setReg a v s).bad = s.bad := .trans rfl rfl
@[simp] theorem setReg_dld (a : Nat) (v : W32) (s : State) : (setReg a v s).dld = s.dld := .trans rfl rfl

/-! ### setCtr -/

@[simp] theorem setCtr_pending (a : Nat) (v : W64) (s : State) : (setCtr a v s).pending = s.pending := .trans rfl rfl
@[simp] theorem setCtr_part (a : Nat) (v : W64) (s : State) : (setCtr a v s).part = s.part := .trans rfl rfl
@[simp] theorem setCtr_uptime (a : Nat) (v : W64) (s : State) : (setCtr a v s).uptime = s.uptime := .trans rfl rfl
@[simp] theorem setCtr_arithCount (a : Nat) (v : W64) (s : State) : (setCtr a v s).arithCount = s.arithCount := .trans rfl rfl
@[simp] theorem setCtr_fwdCount (a : Nat) (v : W64) (s : State) : (setCtr a v s).fwdCount = s.fwdCount := .trans rfl rfl
@[simp] theorem setCtr_fresh (a : Nat) (v : W64) (s : State) : (setCtr a v s).fresh = s.fresh := .trans rfl rfl
@[simp] theorem setCtr_mem (a : Nat) (v : W64) (s : State) : (setCtr a v s).mem = s.mem := .trans rfl rfl
@[simp] theorem setCtr_poison (a : Nat) (v : W64) (s : State) : (setCtr a v s).poison = s.poison := .trans rfl rfl
@[simp] theorem setCtr_flaws (a : Nat) (v : W64) (s : State) : (setCtr a v s).flaws = s.flaws := .trans rfl rfl
@[simp] theorem setCtr_odecc (a : Nat) (v : W64) (s : State) : (setCtr a v s).odecc = s.odecc := .trans rfl rfl
@[simp] theorem setCtr_regs (a : Nat) (v : W64) (s : State) : (setCtr a v s).regs = s.regs := .trans rfl rfl
@[simp] theorem setCtr_queues (a : Nat) (v : W64) (s : State) : (setCtr a v s).queues = s.queues := .trans rfl rfl
@[simp] theorem setCtr_sems (a : Nat) (v : W64) (s : State) : (setCtr a v s).sems = s.sems := .trans rfl rfl
@[simp] theorem setCtr_flights (a : Nat) (v : W64) (s : State) : (setCtr a v s).flights = s.flights := .trans rfl rfl
@[simp] theorem setCtr_tilePhys (a : Nat) (v : W64) (s : State) : (setCtr a v s).tilePhys = s.tilePhys := .trans rfl rfl
@[simp] theorem setCtr_err (a : Nat) (v : W64) (s : State) : (setCtr a v s).err = s.err := .trans rfl rfl
@[simp] theorem setCtr_rings (a : Nat) (v : W64) (s : State) : (setCtr a v s).rings = s.rings := .trans rfl rfl
@[simp] theorem setCtr_irqs (a : Nat) (v : W64) (s : State) : (setCtr a v s).irqs = s.irqs := .trans rfl rfl
@[simp] theorem setCtr_evtWidth (a : Nat) (v : W64) (s : State) : (setCtr a v s).evtWidth = s.evtWidth := .trans rfl rfl
@[simp] theorem setCtr_snoop (a : Nat) (v : W64) (s : State) : (setCtr a v s).snoop = s.snoop := .trans rfl rfl
@[simp] theorem setCtr_jobs (a : Nat) (v : W64) (s : State) : (setCtr a v s).jobs = s.jobs := .trans rfl rfl
@[simp] theorem setCtr_keys (a : Nat) (v : W64) (s : State) : (setCtr a v s).keys = s.keys := .trans rfl rfl
@[simp] theorem setCtr_mgmt (a : Nat) (v : W64) (s : State) : (setCtr a v s).mgmt = s.mgmt := .trans rfl rfl
@[simp] theorem setCtr_presWait (a : Nat) (v : W64) (s : State) : (setCtr a v s).presWait = s.presWait := .trans rfl rfl
@[simp] theorem setCtr_prot (a : Nat) (v : W64) (s : State) : (setCtr a v s).prot = s.prot := .trans rfl rfl
@[simp] theorem setCtr_ctxs (a : Nat) (v : W64) (s : State) : (setCtr a v s).ctxs = s.ctxs := .trans rfl rfl
@[simp] theorem setCtr_boot (a : Nat) (v : W64) (s : State) : (setCtr a v s).boot = s.boot := .trans rfl rfl
@[simp] theorem setCtr_flash (a : Nat) (v : W64) (s : State) : (setCtr a v s).flash = s.flash := .trans rfl rfl
@[simp] theorem setCtr_fuses (a : Nat) (v : W64) (s : State) : (setCtr a v s).fuses = s.fuses := .trans rfl rfl
@[simp] theorem setCtr_tiles (a : Nat) (v : W64) (s : State) : (setCtr a v s).tiles = s.tiles := .trans rfl rfl
@[simp] theorem setCtr_ft (a : Nat) (v : W64) (s : State) : (setCtr a v s).ft = s.ft := .trans rfl rfl
@[simp] theorem setCtr_poolMib (a : Nat) (v : W64) (s : State) : (setCtr a v s).poolMib = s.poolMib := .trans rfl rfl
@[simp] theorem setCtr_bufs (a : Nat) (v : W64) (s : State) : (setCtr a v s).bufs = s.bufs := .trans rfl rfl
@[simp] theorem setCtr_owners (a : Nat) (v : W64) (s : State) : (setCtr a v s).owners = s.owners := .trans rfl rfl
@[simp] theorem setCtr_ingress (a : Nat) (v : W64) (s : State) : (setCtr a v s).ingress = s.ingress := .trans rfl rfl
@[simp] theorem setCtr_egq (a : Nat) (v : W64) (s : State) : (setCtr a v s).egq = s.egq := .trans rfl rfl
@[simp] theorem setCtr_ports (a : Nat) (v : W64) (s : State) : (setCtr a v s).ports = s.ports := .trans rfl rfl
@[simp] theorem setCtr_staging (a : Nat) (v : W64) (s : State) : (setCtr a v s).staging = s.staging := .trans rfl rfl
@[simp] theorem setCtr_hdrAt (a : Nat) (v : W64) (s : State) : (setCtr a v s).hdrAt = s.hdrAt := .trans rfl rfl
@[simp] theorem setCtr_clampLo (a : Nat) (v : W64) (s : State) : (setCtr a v s).clampLo = s.clampLo := .trans rfl rfl
@[simp] theorem setCtr_mgmtDown (a : Nat) (v : W64) (s : State) : (setCtr a v s).mgmtDown = s.mgmtDown := .trans rfl rfl
@[simp] theorem setCtr_policers (a : Nat) (v : W64) (s : State) : (setCtr a v s).policers = s.policers := .trans rfl rfl
@[simp] theorem setCtr_egLast (a : Nat) (v : W64) (s : State) : (setCtr a v s).egLast = s.egLast := .trans rfl rfl
@[simp] theorem setCtr_mgmtTx (a : Nat) (v : W64) (s : State) : (setCtr a v s).mgmtTx = s.mgmtTx := .trans rfl rfl
@[simp] theorem setCtr_arrivals (a : Nat) (v : W64) (s : State) : (setCtr a v s).arrivals = s.arrivals := .trans rfl rfl
@[simp] theorem setCtr_groups (a : Nat) (v : W64) (s : State) : (setCtr a v s).groups = s.groups := .trans rfl rfl
@[simp] theorem setCtr_scus (a : Nat) (v : W64) (s : State) : (setCtr a v s).scus = s.scus := .trans rfl rfl
@[simp] theorem setCtr_pues (a : Nat) (v : W64) (s : State) : (setCtr a v s).pues = s.pues := .trans rfl rfl
@[simp] theorem setCtr_dose (a : Nat) (v : W64) (s : State) : (setCtr a v s).dose = s.dose := .trans rfl rfl
@[simp] theorem setCtr_cvus (a : Nat) (v : W64) (s : State) : (setCtr a v s).cvus = s.cvus := .trans rfl rfl
@[simp] theorem setCtr_bundles (a : Nat) (v : W64) (s : State) : (setCtr a v s).bundles = s.bundles := .trans rfl rfl
@[simp] theorem setCtr_harness (a : Nat) (v : W64) (s : State) : (setCtr a v s).harness = s.harness := .trans rfl rfl
@[simp] theorem setCtr_wormOut (a : Nat) (v : W64) (s : State) : (setCtr a v s).wormOut = s.wormOut := .trans rfl rfl
@[simp] theorem setCtr_health (a : Nat) (v : W64) (s : State) : (setCtr a v s).health = s.health := .trans rfl rfl
@[simp] theorem setCtr_power (a : Nat) (v : W64) (s : State) : (setCtr a v s).power = s.power := .trans rfl rfl
@[simp] theorem setCtr_sig (a : Nat) (v : W64) (s : State) : (setCtr a v s).sig = s.sig := .trans rfl rfl
@[simp] theorem setCtr_evtFailed (a : Nat) (v : W64) (s : State) : (setCtr a v s).evtFailed = s.evtFailed := .trans rfl rfl
@[simp] theorem setCtr_answer (a : Nat) (v : W64) (s : State) : (setCtr a v s).answer = s.answer := .trans rfl rfl
@[simp] theorem setCtr_heldAcc (a : Nat) (v : W64) (s : State) : (setCtr a v s).heldAcc = s.heldAcc := .trans rfl rfl
@[simp] theorem setCtr_movers (a : Nat) (v : W64) (s : State) : (setCtr a v s).movers = s.movers := .trans rfl rfl
@[simp] theorem setCtr_runs (a : Nat) (v : W64) (s : State) : (setCtr a v s).runs = s.runs := .trans rfl rfl
@[simp] theorem setCtr_bad (a : Nat) (v : W64) (s : State) : (setCtr a v s).bad = s.bad := .trans rfl rfl
@[simp] theorem setCtr_dld (a : Nat) (v : W64) (s : State) : (setCtr a v s).dld = s.dld := .trans rfl rfl

/-! ### setQ -/

@[simp] theorem setQ_pending (cl qid : Nat) (q : Queue) (s : State) : (setQ cl qid q s).pending = s.pending := .trans rfl rfl
@[simp] theorem setQ_part (cl qid : Nat) (q : Queue) (s : State) : (setQ cl qid q s).part = s.part := .trans rfl rfl
@[simp] theorem setQ_uptime (cl qid : Nat) (q : Queue) (s : State) : (setQ cl qid q s).uptime = s.uptime := .trans rfl rfl
@[simp] theorem setQ_arithCount (cl qid : Nat) (q : Queue) (s : State) : (setQ cl qid q s).arithCount = s.arithCount := .trans rfl rfl
@[simp] theorem setQ_fwdCount (cl qid : Nat) (q : Queue) (s : State) : (setQ cl qid q s).fwdCount = s.fwdCount := .trans rfl rfl
@[simp] theorem setQ_fresh (cl qid : Nat) (q : Queue) (s : State) : (setQ cl qid q s).fresh = s.fresh := .trans rfl rfl
@[simp] theorem setQ_mem (cl qid : Nat) (q : Queue) (s : State) : (setQ cl qid q s).mem = s.mem := .trans rfl rfl
@[simp] theorem setQ_poison (cl qid : Nat) (q : Queue) (s : State) : (setQ cl qid q s).poison = s.poison := .trans rfl rfl
@[simp] theorem setQ_flaws (cl qid : Nat) (q : Queue) (s : State) : (setQ cl qid q s).flaws = s.flaws := .trans rfl rfl
@[simp] theorem setQ_odecc (cl qid : Nat) (q : Queue) (s : State) : (setQ cl qid q s).odecc = s.odecc := .trans rfl rfl
@[simp] theorem setQ_regs (cl qid : Nat) (q : Queue) (s : State) : (setQ cl qid q s).regs = s.regs := .trans rfl rfl
@[simp] theorem setQ_ctr64 (cl qid : Nat) (q : Queue) (s : State) : (setQ cl qid q s).ctr64 = s.ctr64 := .trans rfl rfl
@[simp] theorem setQ_sems (cl qid : Nat) (q : Queue) (s : State) : (setQ cl qid q s).sems = s.sems := .trans rfl rfl
@[simp] theorem setQ_flights (cl qid : Nat) (q : Queue) (s : State) : (setQ cl qid q s).flights = s.flights := .trans rfl rfl
@[simp] theorem setQ_tilePhys (cl qid : Nat) (q : Queue) (s : State) : (setQ cl qid q s).tilePhys = s.tilePhys := .trans rfl rfl
@[simp] theorem setQ_err (cl qid : Nat) (q : Queue) (s : State) : (setQ cl qid q s).err = s.err := .trans rfl rfl
@[simp] theorem setQ_rings (cl qid : Nat) (q : Queue) (s : State) : (setQ cl qid q s).rings = s.rings := .trans rfl rfl
@[simp] theorem setQ_irqs (cl qid : Nat) (q : Queue) (s : State) : (setQ cl qid q s).irqs = s.irqs := .trans rfl rfl
@[simp] theorem setQ_evtWidth (cl qid : Nat) (q : Queue) (s : State) : (setQ cl qid q s).evtWidth = s.evtWidth := .trans rfl rfl
@[simp] theorem setQ_snoop (cl qid : Nat) (q : Queue) (s : State) : (setQ cl qid q s).snoop = s.snoop := .trans rfl rfl
@[simp] theorem setQ_jobs (cl qid : Nat) (q : Queue) (s : State) : (setQ cl qid q s).jobs = s.jobs := .trans rfl rfl
@[simp] theorem setQ_keys (cl qid : Nat) (q : Queue) (s : State) : (setQ cl qid q s).keys = s.keys := .trans rfl rfl
@[simp] theorem setQ_mgmt (cl qid : Nat) (q : Queue) (s : State) : (setQ cl qid q s).mgmt = s.mgmt := .trans rfl rfl
@[simp] theorem setQ_presWait (cl qid : Nat) (q : Queue) (s : State) : (setQ cl qid q s).presWait = s.presWait := .trans rfl rfl
@[simp] theorem setQ_prot (cl qid : Nat) (q : Queue) (s : State) : (setQ cl qid q s).prot = s.prot := .trans rfl rfl
@[simp] theorem setQ_ctxs (cl qid : Nat) (q : Queue) (s : State) : (setQ cl qid q s).ctxs = s.ctxs := .trans rfl rfl
@[simp] theorem setQ_boot (cl qid : Nat) (q : Queue) (s : State) : (setQ cl qid q s).boot = s.boot := .trans rfl rfl
@[simp] theorem setQ_flash (cl qid : Nat) (q : Queue) (s : State) : (setQ cl qid q s).flash = s.flash := .trans rfl rfl
@[simp] theorem setQ_fuses (cl qid : Nat) (q : Queue) (s : State) : (setQ cl qid q s).fuses = s.fuses := .trans rfl rfl
@[simp] theorem setQ_tiles (cl qid : Nat) (q : Queue) (s : State) : (setQ cl qid q s).tiles = s.tiles := .trans rfl rfl
@[simp] theorem setQ_ft (cl qid : Nat) (q : Queue) (s : State) : (setQ cl qid q s).ft = s.ft := .trans rfl rfl
@[simp] theorem setQ_poolMib (cl qid : Nat) (q : Queue) (s : State) : (setQ cl qid q s).poolMib = s.poolMib := .trans rfl rfl
@[simp] theorem setQ_bufs (cl qid : Nat) (q : Queue) (s : State) : (setQ cl qid q s).bufs = s.bufs := .trans rfl rfl
@[simp] theorem setQ_owners (cl qid : Nat) (q : Queue) (s : State) : (setQ cl qid q s).owners = s.owners := .trans rfl rfl
@[simp] theorem setQ_ingress (cl qid : Nat) (q : Queue) (s : State) : (setQ cl qid q s).ingress = s.ingress := .trans rfl rfl
@[simp] theorem setQ_egq (cl qid : Nat) (q : Queue) (s : State) : (setQ cl qid q s).egq = s.egq := .trans rfl rfl
@[simp] theorem setQ_ports (cl qid : Nat) (q : Queue) (s : State) : (setQ cl qid q s).ports = s.ports := .trans rfl rfl
@[simp] theorem setQ_staging (cl qid : Nat) (q : Queue) (s : State) : (setQ cl qid q s).staging = s.staging := .trans rfl rfl
@[simp] theorem setQ_hdrAt (cl qid : Nat) (q : Queue) (s : State) : (setQ cl qid q s).hdrAt = s.hdrAt := .trans rfl rfl
@[simp] theorem setQ_clampLo (cl qid : Nat) (q : Queue) (s : State) : (setQ cl qid q s).clampLo = s.clampLo := .trans rfl rfl
@[simp] theorem setQ_mgmtDown (cl qid : Nat) (q : Queue) (s : State) : (setQ cl qid q s).mgmtDown = s.mgmtDown := .trans rfl rfl
@[simp] theorem setQ_policers (cl qid : Nat) (q : Queue) (s : State) : (setQ cl qid q s).policers = s.policers := .trans rfl rfl
@[simp] theorem setQ_egLast (cl qid : Nat) (q : Queue) (s : State) : (setQ cl qid q s).egLast = s.egLast := .trans rfl rfl
@[simp] theorem setQ_mgmtTx (cl qid : Nat) (q : Queue) (s : State) : (setQ cl qid q s).mgmtTx = s.mgmtTx := .trans rfl rfl
@[simp] theorem setQ_arrivals (cl qid : Nat) (q : Queue) (s : State) : (setQ cl qid q s).arrivals = s.arrivals := .trans rfl rfl
@[simp] theorem setQ_groups (cl qid : Nat) (q : Queue) (s : State) : (setQ cl qid q s).groups = s.groups := .trans rfl rfl
@[simp] theorem setQ_scus (cl qid : Nat) (q : Queue) (s : State) : (setQ cl qid q s).scus = s.scus := .trans rfl rfl
@[simp] theorem setQ_pues (cl qid : Nat) (q : Queue) (s : State) : (setQ cl qid q s).pues = s.pues := .trans rfl rfl
@[simp] theorem setQ_dose (cl qid : Nat) (q : Queue) (s : State) : (setQ cl qid q s).dose = s.dose := .trans rfl rfl
@[simp] theorem setQ_cvus (cl qid : Nat) (q : Queue) (s : State) : (setQ cl qid q s).cvus = s.cvus := .trans rfl rfl
@[simp] theorem setQ_bundles (cl qid : Nat) (q : Queue) (s : State) : (setQ cl qid q s).bundles = s.bundles := .trans rfl rfl
@[simp] theorem setQ_harness (cl qid : Nat) (q : Queue) (s : State) : (setQ cl qid q s).harness = s.harness := .trans rfl rfl
@[simp] theorem setQ_wormOut (cl qid : Nat) (q : Queue) (s : State) : (setQ cl qid q s).wormOut = s.wormOut := .trans rfl rfl
@[simp] theorem setQ_health (cl qid : Nat) (q : Queue) (s : State) : (setQ cl qid q s).health = s.health := .trans rfl rfl
@[simp] theorem setQ_power (cl qid : Nat) (q : Queue) (s : State) : (setQ cl qid q s).power = s.power := .trans rfl rfl
@[simp] theorem setQ_sig (cl qid : Nat) (q : Queue) (s : State) : (setQ cl qid q s).sig = s.sig := .trans rfl rfl
@[simp] theorem setQ_evtFailed (cl qid : Nat) (q : Queue) (s : State) : (setQ cl qid q s).evtFailed = s.evtFailed := .trans rfl rfl
@[simp] theorem setQ_answer (cl qid : Nat) (q : Queue) (s : State) : (setQ cl qid q s).answer = s.answer := .trans rfl rfl
@[simp] theorem setQ_heldAcc (cl qid : Nat) (q : Queue) (s : State) : (setQ cl qid q s).heldAcc = s.heldAcc := .trans rfl rfl
@[simp] theorem setQ_movers (cl qid : Nat) (q : Queue) (s : State) : (setQ cl qid q s).movers = s.movers := .trans rfl rfl
@[simp] theorem setQ_runs (cl qid : Nat) (q : Queue) (s : State) : (setQ cl qid q s).runs = s.runs := .trans rfl rfl
@[simp] theorem setQ_bad (cl qid : Nat) (q : Queue) (s : State) : (setQ cl qid q s).bad = s.bad := .trans rfl rfl
@[simp] theorem setQ_dld (cl qid : Nat) (q : Queue) (s : State) : (setQ cl qid q s).dld = s.dld := .trans rfl rfl

/-! ### setSem -/

@[simp] theorem setSem_pending (cl n : Nat) (v : Sem) (s : State) : (setSem cl n v s).pending = s.pending := .trans rfl rfl
@[simp] theorem setSem_part (cl n : Nat) (v : Sem) (s : State) : (setSem cl n v s).part = s.part := .trans rfl rfl
@[simp] theorem setSem_uptime (cl n : Nat) (v : Sem) (s : State) : (setSem cl n v s).uptime = s.uptime := .trans rfl rfl
@[simp] theorem setSem_arithCount (cl n : Nat) (v : Sem) (s : State) : (setSem cl n v s).arithCount = s.arithCount := .trans rfl rfl
@[simp] theorem setSem_fwdCount (cl n : Nat) (v : Sem) (s : State) : (setSem cl n v s).fwdCount = s.fwdCount := .trans rfl rfl
@[simp] theorem setSem_fresh (cl n : Nat) (v : Sem) (s : State) : (setSem cl n v s).fresh = s.fresh := .trans rfl rfl
@[simp] theorem setSem_mem (cl n : Nat) (v : Sem) (s : State) : (setSem cl n v s).mem = s.mem := .trans rfl rfl
@[simp] theorem setSem_poison (cl n : Nat) (v : Sem) (s : State) : (setSem cl n v s).poison = s.poison := .trans rfl rfl
@[simp] theorem setSem_flaws (cl n : Nat) (v : Sem) (s : State) : (setSem cl n v s).flaws = s.flaws := .trans rfl rfl
@[simp] theorem setSem_odecc (cl n : Nat) (v : Sem) (s : State) : (setSem cl n v s).odecc = s.odecc := .trans rfl rfl
@[simp] theorem setSem_regs (cl n : Nat) (v : Sem) (s : State) : (setSem cl n v s).regs = s.regs := .trans rfl rfl
@[simp] theorem setSem_ctr64 (cl n : Nat) (v : Sem) (s : State) : (setSem cl n v s).ctr64 = s.ctr64 := .trans rfl rfl
@[simp] theorem setSem_queues (cl n : Nat) (v : Sem) (s : State) : (setSem cl n v s).queues = s.queues := .trans rfl rfl
@[simp] theorem setSem_flights (cl n : Nat) (v : Sem) (s : State) : (setSem cl n v s).flights = s.flights := .trans rfl rfl
@[simp] theorem setSem_tilePhys (cl n : Nat) (v : Sem) (s : State) : (setSem cl n v s).tilePhys = s.tilePhys := .trans rfl rfl
@[simp] theorem setSem_err (cl n : Nat) (v : Sem) (s : State) : (setSem cl n v s).err = s.err := .trans rfl rfl
@[simp] theorem setSem_rings (cl n : Nat) (v : Sem) (s : State) : (setSem cl n v s).rings = s.rings := .trans rfl rfl
@[simp] theorem setSem_irqs (cl n : Nat) (v : Sem) (s : State) : (setSem cl n v s).irqs = s.irqs := .trans rfl rfl
@[simp] theorem setSem_evtWidth (cl n : Nat) (v : Sem) (s : State) : (setSem cl n v s).evtWidth = s.evtWidth := .trans rfl rfl
@[simp] theorem setSem_snoop (cl n : Nat) (v : Sem) (s : State) : (setSem cl n v s).snoop = s.snoop := .trans rfl rfl
@[simp] theorem setSem_jobs (cl n : Nat) (v : Sem) (s : State) : (setSem cl n v s).jobs = s.jobs := .trans rfl rfl
@[simp] theorem setSem_keys (cl n : Nat) (v : Sem) (s : State) : (setSem cl n v s).keys = s.keys := .trans rfl rfl
@[simp] theorem setSem_mgmt (cl n : Nat) (v : Sem) (s : State) : (setSem cl n v s).mgmt = s.mgmt := .trans rfl rfl
@[simp] theorem setSem_presWait (cl n : Nat) (v : Sem) (s : State) : (setSem cl n v s).presWait = s.presWait := .trans rfl rfl
@[simp] theorem setSem_prot (cl n : Nat) (v : Sem) (s : State) : (setSem cl n v s).prot = s.prot := .trans rfl rfl
@[simp] theorem setSem_ctxs (cl n : Nat) (v : Sem) (s : State) : (setSem cl n v s).ctxs = s.ctxs := .trans rfl rfl
@[simp] theorem setSem_boot (cl n : Nat) (v : Sem) (s : State) : (setSem cl n v s).boot = s.boot := .trans rfl rfl
@[simp] theorem setSem_flash (cl n : Nat) (v : Sem) (s : State) : (setSem cl n v s).flash = s.flash := .trans rfl rfl
@[simp] theorem setSem_fuses (cl n : Nat) (v : Sem) (s : State) : (setSem cl n v s).fuses = s.fuses := .trans rfl rfl
@[simp] theorem setSem_tiles (cl n : Nat) (v : Sem) (s : State) : (setSem cl n v s).tiles = s.tiles := .trans rfl rfl
@[simp] theorem setSem_ft (cl n : Nat) (v : Sem) (s : State) : (setSem cl n v s).ft = s.ft := .trans rfl rfl
@[simp] theorem setSem_poolMib (cl n : Nat) (v : Sem) (s : State) : (setSem cl n v s).poolMib = s.poolMib := .trans rfl rfl
@[simp] theorem setSem_bufs (cl n : Nat) (v : Sem) (s : State) : (setSem cl n v s).bufs = s.bufs := .trans rfl rfl
@[simp] theorem setSem_owners (cl n : Nat) (v : Sem) (s : State) : (setSem cl n v s).owners = s.owners := .trans rfl rfl
@[simp] theorem setSem_ingress (cl n : Nat) (v : Sem) (s : State) : (setSem cl n v s).ingress = s.ingress := .trans rfl rfl
@[simp] theorem setSem_egq (cl n : Nat) (v : Sem) (s : State) : (setSem cl n v s).egq = s.egq := .trans rfl rfl
@[simp] theorem setSem_ports (cl n : Nat) (v : Sem) (s : State) : (setSem cl n v s).ports = s.ports := .trans rfl rfl
@[simp] theorem setSem_staging (cl n : Nat) (v : Sem) (s : State) : (setSem cl n v s).staging = s.staging := .trans rfl rfl
@[simp] theorem setSem_hdrAt (cl n : Nat) (v : Sem) (s : State) : (setSem cl n v s).hdrAt = s.hdrAt := .trans rfl rfl
@[simp] theorem setSem_clampLo (cl n : Nat) (v : Sem) (s : State) : (setSem cl n v s).clampLo = s.clampLo := .trans rfl rfl
@[simp] theorem setSem_mgmtDown (cl n : Nat) (v : Sem) (s : State) : (setSem cl n v s).mgmtDown = s.mgmtDown := .trans rfl rfl
@[simp] theorem setSem_policers (cl n : Nat) (v : Sem) (s : State) : (setSem cl n v s).policers = s.policers := .trans rfl rfl
@[simp] theorem setSem_egLast (cl n : Nat) (v : Sem) (s : State) : (setSem cl n v s).egLast = s.egLast := .trans rfl rfl
@[simp] theorem setSem_mgmtTx (cl n : Nat) (v : Sem) (s : State) : (setSem cl n v s).mgmtTx = s.mgmtTx := .trans rfl rfl
@[simp] theorem setSem_arrivals (cl n : Nat) (v : Sem) (s : State) : (setSem cl n v s).arrivals = s.arrivals := .trans rfl rfl
@[simp] theorem setSem_groups (cl n : Nat) (v : Sem) (s : State) : (setSem cl n v s).groups = s.groups := .trans rfl rfl
@[simp] theorem setSem_scus (cl n : Nat) (v : Sem) (s : State) : (setSem cl n v s).scus = s.scus := .trans rfl rfl
@[simp] theorem setSem_pues (cl n : Nat) (v : Sem) (s : State) : (setSem cl n v s).pues = s.pues := .trans rfl rfl
@[simp] theorem setSem_dose (cl n : Nat) (v : Sem) (s : State) : (setSem cl n v s).dose = s.dose := .trans rfl rfl
@[simp] theorem setSem_cvus (cl n : Nat) (v : Sem) (s : State) : (setSem cl n v s).cvus = s.cvus := .trans rfl rfl
@[simp] theorem setSem_bundles (cl n : Nat) (v : Sem) (s : State) : (setSem cl n v s).bundles = s.bundles := .trans rfl rfl
@[simp] theorem setSem_harness (cl n : Nat) (v : Sem) (s : State) : (setSem cl n v s).harness = s.harness := .trans rfl rfl
@[simp] theorem setSem_wormOut (cl n : Nat) (v : Sem) (s : State) : (setSem cl n v s).wormOut = s.wormOut := .trans rfl rfl
@[simp] theorem setSem_health (cl n : Nat) (v : Sem) (s : State) : (setSem cl n v s).health = s.health := .trans rfl rfl
@[simp] theorem setSem_power (cl n : Nat) (v : Sem) (s : State) : (setSem cl n v s).power = s.power := .trans rfl rfl
@[simp] theorem setSem_sig (cl n : Nat) (v : Sem) (s : State) : (setSem cl n v s).sig = s.sig := .trans rfl rfl
@[simp] theorem setSem_evtFailed (cl n : Nat) (v : Sem) (s : State) : (setSem cl n v s).evtFailed = s.evtFailed := .trans rfl rfl
@[simp] theorem setSem_answer (cl n : Nat) (v : Sem) (s : State) : (setSem cl n v s).answer = s.answer := .trans rfl rfl
@[simp] theorem setSem_heldAcc (cl n : Nat) (v : Sem) (s : State) : (setSem cl n v s).heldAcc = s.heldAcc := .trans rfl rfl
@[simp] theorem setSem_movers (cl n : Nat) (v : Sem) (s : State) : (setSem cl n v s).movers = s.movers := .trans rfl rfl
@[simp] theorem setSem_runs (cl n : Nat) (v : Sem) (s : State) : (setSem cl n v s).runs = s.runs := .trans rfl rfl
@[simp] theorem setSem_bad (cl n : Nat) (v : Sem) (s : State) : (setSem cl n v s).bad = s.bad := .trans rfl rfl
@[simp] theorem setSem_dld (cl n : Nat) (v : Sem) (s : State) : (setSem cl n v s).dld = s.dld := .trans rfl rfl

/-! ### setCtx -/

@[simp] theorem setCtx_pending (c : Nat) (x : Ctx) (s : State) : (setCtx c x s).pending = s.pending := .trans rfl rfl
@[simp] theorem setCtx_part (c : Nat) (x : Ctx) (s : State) : (setCtx c x s).part = s.part := .trans rfl rfl
@[simp] theorem setCtx_uptime (c : Nat) (x : Ctx) (s : State) : (setCtx c x s).uptime = s.uptime := .trans rfl rfl
@[simp] theorem setCtx_arithCount (c : Nat) (x : Ctx) (s : State) : (setCtx c x s).arithCount = s.arithCount := .trans rfl rfl
@[simp] theorem setCtx_fwdCount (c : Nat) (x : Ctx) (s : State) : (setCtx c x s).fwdCount = s.fwdCount := .trans rfl rfl
@[simp] theorem setCtx_fresh (c : Nat) (x : Ctx) (s : State) : (setCtx c x s).fresh = s.fresh := .trans rfl rfl
@[simp] theorem setCtx_mem (c : Nat) (x : Ctx) (s : State) : (setCtx c x s).mem = s.mem := .trans rfl rfl
@[simp] theorem setCtx_poison (c : Nat) (x : Ctx) (s : State) : (setCtx c x s).poison = s.poison := .trans rfl rfl
@[simp] theorem setCtx_flaws (c : Nat) (x : Ctx) (s : State) : (setCtx c x s).flaws = s.flaws := .trans rfl rfl
@[simp] theorem setCtx_odecc (c : Nat) (x : Ctx) (s : State) : (setCtx c x s).odecc = s.odecc := .trans rfl rfl
@[simp] theorem setCtx_regs (c : Nat) (x : Ctx) (s : State) : (setCtx c x s).regs = s.regs := .trans rfl rfl
@[simp] theorem setCtx_ctr64 (c : Nat) (x : Ctx) (s : State) : (setCtx c x s).ctr64 = s.ctr64 := .trans rfl rfl
@[simp] theorem setCtx_queues (c : Nat) (x : Ctx) (s : State) : (setCtx c x s).queues = s.queues := .trans rfl rfl
@[simp] theorem setCtx_sems (c : Nat) (x : Ctx) (s : State) : (setCtx c x s).sems = s.sems := .trans rfl rfl
@[simp] theorem setCtx_flights (c : Nat) (x : Ctx) (s : State) : (setCtx c x s).flights = s.flights := .trans rfl rfl
@[simp] theorem setCtx_tilePhys (c : Nat) (x : Ctx) (s : State) : (setCtx c x s).tilePhys = s.tilePhys := .trans rfl rfl
@[simp] theorem setCtx_err (c : Nat) (x : Ctx) (s : State) : (setCtx c x s).err = s.err := .trans rfl rfl
@[simp] theorem setCtx_rings (c : Nat) (x : Ctx) (s : State) : (setCtx c x s).rings = s.rings := .trans rfl rfl
@[simp] theorem setCtx_irqs (c : Nat) (x : Ctx) (s : State) : (setCtx c x s).irqs = s.irqs := .trans rfl rfl
@[simp] theorem setCtx_evtWidth (c : Nat) (x : Ctx) (s : State) : (setCtx c x s).evtWidth = s.evtWidth := .trans rfl rfl
@[simp] theorem setCtx_snoop (c : Nat) (x : Ctx) (s : State) : (setCtx c x s).snoop = s.snoop := .trans rfl rfl
@[simp] theorem setCtx_jobs (c : Nat) (x : Ctx) (s : State) : (setCtx c x s).jobs = s.jobs := .trans rfl rfl
@[simp] theorem setCtx_keys (c : Nat) (x : Ctx) (s : State) : (setCtx c x s).keys = s.keys := .trans rfl rfl
@[simp] theorem setCtx_mgmt (c : Nat) (x : Ctx) (s : State) : (setCtx c x s).mgmt = s.mgmt := .trans rfl rfl
@[simp] theorem setCtx_presWait (c : Nat) (x : Ctx) (s : State) : (setCtx c x s).presWait = s.presWait := .trans rfl rfl
@[simp] theorem setCtx_prot (c : Nat) (x : Ctx) (s : State) : (setCtx c x s).prot = s.prot := .trans rfl rfl
@[simp] theorem setCtx_boot (c : Nat) (x : Ctx) (s : State) : (setCtx c x s).boot = s.boot := .trans rfl rfl
@[simp] theorem setCtx_flash (c : Nat) (x : Ctx) (s : State) : (setCtx c x s).flash = s.flash := .trans rfl rfl
@[simp] theorem setCtx_fuses (c : Nat) (x : Ctx) (s : State) : (setCtx c x s).fuses = s.fuses := .trans rfl rfl
@[simp] theorem setCtx_tiles (c : Nat) (x : Ctx) (s : State) : (setCtx c x s).tiles = s.tiles := .trans rfl rfl
@[simp] theorem setCtx_ft (c : Nat) (x : Ctx) (s : State) : (setCtx c x s).ft = s.ft := .trans rfl rfl
@[simp] theorem setCtx_poolMib (c : Nat) (x : Ctx) (s : State) : (setCtx c x s).poolMib = s.poolMib := .trans rfl rfl
@[simp] theorem setCtx_bufs (c : Nat) (x : Ctx) (s : State) : (setCtx c x s).bufs = s.bufs := .trans rfl rfl
@[simp] theorem setCtx_owners (c : Nat) (x : Ctx) (s : State) : (setCtx c x s).owners = s.owners := .trans rfl rfl
@[simp] theorem setCtx_ingress (c : Nat) (x : Ctx) (s : State) : (setCtx c x s).ingress = s.ingress := .trans rfl rfl
@[simp] theorem setCtx_egq (c : Nat) (x : Ctx) (s : State) : (setCtx c x s).egq = s.egq := .trans rfl rfl
@[simp] theorem setCtx_ports (c : Nat) (x : Ctx) (s : State) : (setCtx c x s).ports = s.ports := .trans rfl rfl
@[simp] theorem setCtx_staging (c : Nat) (x : Ctx) (s : State) : (setCtx c x s).staging = s.staging := .trans rfl rfl
@[simp] theorem setCtx_hdrAt (c : Nat) (x : Ctx) (s : State) : (setCtx c x s).hdrAt = s.hdrAt := .trans rfl rfl
@[simp] theorem setCtx_clampLo (c : Nat) (x : Ctx) (s : State) : (setCtx c x s).clampLo = s.clampLo := .trans rfl rfl
@[simp] theorem setCtx_mgmtDown (c : Nat) (x : Ctx) (s : State) : (setCtx c x s).mgmtDown = s.mgmtDown := .trans rfl rfl
@[simp] theorem setCtx_policers (c : Nat) (x : Ctx) (s : State) : (setCtx c x s).policers = s.policers := .trans rfl rfl
@[simp] theorem setCtx_egLast (c : Nat) (x : Ctx) (s : State) : (setCtx c x s).egLast = s.egLast := .trans rfl rfl
@[simp] theorem setCtx_mgmtTx (c : Nat) (x : Ctx) (s : State) : (setCtx c x s).mgmtTx = s.mgmtTx := .trans rfl rfl
@[simp] theorem setCtx_arrivals (c : Nat) (x : Ctx) (s : State) : (setCtx c x s).arrivals = s.arrivals := .trans rfl rfl
@[simp] theorem setCtx_groups (c : Nat) (x : Ctx) (s : State) : (setCtx c x s).groups = s.groups := .trans rfl rfl
@[simp] theorem setCtx_scus (c : Nat) (x : Ctx) (s : State) : (setCtx c x s).scus = s.scus := .trans rfl rfl
@[simp] theorem setCtx_pues (c : Nat) (x : Ctx) (s : State) : (setCtx c x s).pues = s.pues := .trans rfl rfl
@[simp] theorem setCtx_dose (c : Nat) (x : Ctx) (s : State) : (setCtx c x s).dose = s.dose := .trans rfl rfl
@[simp] theorem setCtx_cvus (c : Nat) (x : Ctx) (s : State) : (setCtx c x s).cvus = s.cvus := .trans rfl rfl
@[simp] theorem setCtx_bundles (c : Nat) (x : Ctx) (s : State) : (setCtx c x s).bundles = s.bundles := .trans rfl rfl
@[simp] theorem setCtx_harness (c : Nat) (x : Ctx) (s : State) : (setCtx c x s).harness = s.harness := .trans rfl rfl
@[simp] theorem setCtx_wormOut (c : Nat) (x : Ctx) (s : State) : (setCtx c x s).wormOut = s.wormOut := .trans rfl rfl
@[simp] theorem setCtx_health (c : Nat) (x : Ctx) (s : State) : (setCtx c x s).health = s.health := .trans rfl rfl
@[simp] theorem setCtx_power (c : Nat) (x : Ctx) (s : State) : (setCtx c x s).power = s.power := .trans rfl rfl
@[simp] theorem setCtx_sig (c : Nat) (x : Ctx) (s : State) : (setCtx c x s).sig = s.sig := .trans rfl rfl
@[simp] theorem setCtx_evtFailed (c : Nat) (x : Ctx) (s : State) : (setCtx c x s).evtFailed = s.evtFailed := .trans rfl rfl
@[simp] theorem setCtx_answer (c : Nat) (x : Ctx) (s : State) : (setCtx c x s).answer = s.answer := .trans rfl rfl
@[simp] theorem setCtx_heldAcc (c : Nat) (x : Ctx) (s : State) : (setCtx c x s).heldAcc = s.heldAcc := .trans rfl rfl
@[simp] theorem setCtx_movers (c : Nat) (x : Ctx) (s : State) : (setCtx c x s).movers = s.movers := .trans rfl rfl
@[simp] theorem setCtx_runs (c : Nat) (x : Ctx) (s : State) : (setCtx c x s).runs = s.runs := .trans rfl rfl
@[simp] theorem setCtx_bad (c : Nat) (x : Ctx) (s : State) : (setCtx c x s).bad = s.bad := .trans rfl rfl
@[simp] theorem setCtx_dld (c : Nat) (x : Ctx) (s : State) : (setCtx c x s).dld = s.dld := .trans rfl rfl

/-! ### setRing -/

@[simp] theorem setRing_pending (r : Nat) (x : Ring) (s : State) : (setRing r x s).pending = s.pending := .trans rfl rfl
@[simp] theorem setRing_part (r : Nat) (x : Ring) (s : State) : (setRing r x s).part = s.part := .trans rfl rfl
@[simp] theorem setRing_uptime (r : Nat) (x : Ring) (s : State) : (setRing r x s).uptime = s.uptime := .trans rfl rfl
@[simp] theorem setRing_arithCount (r : Nat) (x : Ring) (s : State) : (setRing r x s).arithCount = s.arithCount := .trans rfl rfl
@[simp] theorem setRing_fwdCount (r : Nat) (x : Ring) (s : State) : (setRing r x s).fwdCount = s.fwdCount := .trans rfl rfl
@[simp] theorem setRing_fresh (r : Nat) (x : Ring) (s : State) : (setRing r x s).fresh = s.fresh := .trans rfl rfl
@[simp] theorem setRing_mem (r : Nat) (x : Ring) (s : State) : (setRing r x s).mem = s.mem := .trans rfl rfl
@[simp] theorem setRing_poison (r : Nat) (x : Ring) (s : State) : (setRing r x s).poison = s.poison := .trans rfl rfl
@[simp] theorem setRing_flaws (r : Nat) (x : Ring) (s : State) : (setRing r x s).flaws = s.flaws := .trans rfl rfl
@[simp] theorem setRing_odecc (r : Nat) (x : Ring) (s : State) : (setRing r x s).odecc = s.odecc := .trans rfl rfl
@[simp] theorem setRing_regs (r : Nat) (x : Ring) (s : State) : (setRing r x s).regs = s.regs := .trans rfl rfl
@[simp] theorem setRing_ctr64 (r : Nat) (x : Ring) (s : State) : (setRing r x s).ctr64 = s.ctr64 := .trans rfl rfl
@[simp] theorem setRing_queues (r : Nat) (x : Ring) (s : State) : (setRing r x s).queues = s.queues := .trans rfl rfl
@[simp] theorem setRing_sems (r : Nat) (x : Ring) (s : State) : (setRing r x s).sems = s.sems := .trans rfl rfl
@[simp] theorem setRing_flights (r : Nat) (x : Ring) (s : State) : (setRing r x s).flights = s.flights := .trans rfl rfl
@[simp] theorem setRing_tilePhys (r : Nat) (x : Ring) (s : State) : (setRing r x s).tilePhys = s.tilePhys := .trans rfl rfl
@[simp] theorem setRing_err (r : Nat) (x : Ring) (s : State) : (setRing r x s).err = s.err := .trans rfl rfl
@[simp] theorem setRing_irqs (r : Nat) (x : Ring) (s : State) : (setRing r x s).irqs = s.irqs := .trans rfl rfl
@[simp] theorem setRing_evtWidth (r : Nat) (x : Ring) (s : State) : (setRing r x s).evtWidth = s.evtWidth := .trans rfl rfl
@[simp] theorem setRing_snoop (r : Nat) (x : Ring) (s : State) : (setRing r x s).snoop = s.snoop := .trans rfl rfl
@[simp] theorem setRing_jobs (r : Nat) (x : Ring) (s : State) : (setRing r x s).jobs = s.jobs := .trans rfl rfl
@[simp] theorem setRing_keys (r : Nat) (x : Ring) (s : State) : (setRing r x s).keys = s.keys := .trans rfl rfl
@[simp] theorem setRing_mgmt (r : Nat) (x : Ring) (s : State) : (setRing r x s).mgmt = s.mgmt := .trans rfl rfl
@[simp] theorem setRing_presWait (r : Nat) (x : Ring) (s : State) : (setRing r x s).presWait = s.presWait := .trans rfl rfl
@[simp] theorem setRing_prot (r : Nat) (x : Ring) (s : State) : (setRing r x s).prot = s.prot := .trans rfl rfl
@[simp] theorem setRing_ctxs (r : Nat) (x : Ring) (s : State) : (setRing r x s).ctxs = s.ctxs := .trans rfl rfl
@[simp] theorem setRing_boot (r : Nat) (x : Ring) (s : State) : (setRing r x s).boot = s.boot := .trans rfl rfl
@[simp] theorem setRing_flash (r : Nat) (x : Ring) (s : State) : (setRing r x s).flash = s.flash := .trans rfl rfl
@[simp] theorem setRing_fuses (r : Nat) (x : Ring) (s : State) : (setRing r x s).fuses = s.fuses := .trans rfl rfl
@[simp] theorem setRing_tiles (r : Nat) (x : Ring) (s : State) : (setRing r x s).tiles = s.tiles := .trans rfl rfl
@[simp] theorem setRing_ft (r : Nat) (x : Ring) (s : State) : (setRing r x s).ft = s.ft := .trans rfl rfl
@[simp] theorem setRing_poolMib (r : Nat) (x : Ring) (s : State) : (setRing r x s).poolMib = s.poolMib := .trans rfl rfl
@[simp] theorem setRing_bufs (r : Nat) (x : Ring) (s : State) : (setRing r x s).bufs = s.bufs := .trans rfl rfl
@[simp] theorem setRing_owners (r : Nat) (x : Ring) (s : State) : (setRing r x s).owners = s.owners := .trans rfl rfl
@[simp] theorem setRing_ingress (r : Nat) (x : Ring) (s : State) : (setRing r x s).ingress = s.ingress := .trans rfl rfl
@[simp] theorem setRing_egq (r : Nat) (x : Ring) (s : State) : (setRing r x s).egq = s.egq := .trans rfl rfl
@[simp] theorem setRing_ports (r : Nat) (x : Ring) (s : State) : (setRing r x s).ports = s.ports := .trans rfl rfl
@[simp] theorem setRing_staging (r : Nat) (x : Ring) (s : State) : (setRing r x s).staging = s.staging := .trans rfl rfl
@[simp] theorem setRing_hdrAt (r : Nat) (x : Ring) (s : State) : (setRing r x s).hdrAt = s.hdrAt := .trans rfl rfl
@[simp] theorem setRing_clampLo (r : Nat) (x : Ring) (s : State) : (setRing r x s).clampLo = s.clampLo := .trans rfl rfl
@[simp] theorem setRing_mgmtDown (r : Nat) (x : Ring) (s : State) : (setRing r x s).mgmtDown = s.mgmtDown := .trans rfl rfl
@[simp] theorem setRing_policers (r : Nat) (x : Ring) (s : State) : (setRing r x s).policers = s.policers := .trans rfl rfl
@[simp] theorem setRing_egLast (r : Nat) (x : Ring) (s : State) : (setRing r x s).egLast = s.egLast := .trans rfl rfl
@[simp] theorem setRing_mgmtTx (r : Nat) (x : Ring) (s : State) : (setRing r x s).mgmtTx = s.mgmtTx := .trans rfl rfl
@[simp] theorem setRing_arrivals (r : Nat) (x : Ring) (s : State) : (setRing r x s).arrivals = s.arrivals := .trans rfl rfl
@[simp] theorem setRing_groups (r : Nat) (x : Ring) (s : State) : (setRing r x s).groups = s.groups := .trans rfl rfl
@[simp] theorem setRing_scus (r : Nat) (x : Ring) (s : State) : (setRing r x s).scus = s.scus := .trans rfl rfl
@[simp] theorem setRing_pues (r : Nat) (x : Ring) (s : State) : (setRing r x s).pues = s.pues := .trans rfl rfl
@[simp] theorem setRing_dose (r : Nat) (x : Ring) (s : State) : (setRing r x s).dose = s.dose := .trans rfl rfl
@[simp] theorem setRing_cvus (r : Nat) (x : Ring) (s : State) : (setRing r x s).cvus = s.cvus := .trans rfl rfl
@[simp] theorem setRing_bundles (r : Nat) (x : Ring) (s : State) : (setRing r x s).bundles = s.bundles := .trans rfl rfl
@[simp] theorem setRing_harness (r : Nat) (x : Ring) (s : State) : (setRing r x s).harness = s.harness := .trans rfl rfl
@[simp] theorem setRing_wormOut (r : Nat) (x : Ring) (s : State) : (setRing r x s).wormOut = s.wormOut := .trans rfl rfl
@[simp] theorem setRing_health (r : Nat) (x : Ring) (s : State) : (setRing r x s).health = s.health := .trans rfl rfl
@[simp] theorem setRing_power (r : Nat) (x : Ring) (s : State) : (setRing r x s).power = s.power := .trans rfl rfl
@[simp] theorem setRing_sig (r : Nat) (x : Ring) (s : State) : (setRing r x s).sig = s.sig := .trans rfl rfl
@[simp] theorem setRing_evtFailed (r : Nat) (x : Ring) (s : State) : (setRing r x s).evtFailed = s.evtFailed := .trans rfl rfl
@[simp] theorem setRing_answer (r : Nat) (x : Ring) (s : State) : (setRing r x s).answer = s.answer := .trans rfl rfl
@[simp] theorem setRing_heldAcc (r : Nat) (x : Ring) (s : State) : (setRing r x s).heldAcc = s.heldAcc := .trans rfl rfl
@[simp] theorem setRing_movers (r : Nat) (x : Ring) (s : State) : (setRing r x s).movers = s.movers := .trans rfl rfl
@[simp] theorem setRing_runs (r : Nat) (x : Ring) (s : State) : (setRing r x s).runs = s.runs := .trans rfl rfl
@[simp] theorem setRing_bad (r : Nat) (x : Ring) (s : State) : (setRing r x s).bad = s.bad := .trans rfl rfl
@[simp] theorem setRing_dld (r : Nat) (x : Ring) (s : State) : (setRing r x s).dld = s.dld := .trans rfl rfl

/-! ### setGroup -/

@[simp] theorem setGroup_pending (cl gq : Nat) (g : Group) (s : State) : (setGroup cl gq g s).pending = s.pending := .trans rfl rfl
@[simp] theorem setGroup_part (cl gq : Nat) (g : Group) (s : State) : (setGroup cl gq g s).part = s.part := .trans rfl rfl
@[simp] theorem setGroup_uptime (cl gq : Nat) (g : Group) (s : State) : (setGroup cl gq g s).uptime = s.uptime := .trans rfl rfl
@[simp] theorem setGroup_arithCount (cl gq : Nat) (g : Group) (s : State) : (setGroup cl gq g s).arithCount = s.arithCount := .trans rfl rfl
@[simp] theorem setGroup_fwdCount (cl gq : Nat) (g : Group) (s : State) : (setGroup cl gq g s).fwdCount = s.fwdCount := .trans rfl rfl
@[simp] theorem setGroup_fresh (cl gq : Nat) (g : Group) (s : State) : (setGroup cl gq g s).fresh = s.fresh := .trans rfl rfl
@[simp] theorem setGroup_mem (cl gq : Nat) (g : Group) (s : State) : (setGroup cl gq g s).mem = s.mem := .trans rfl rfl
@[simp] theorem setGroup_poison (cl gq : Nat) (g : Group) (s : State) : (setGroup cl gq g s).poison = s.poison := .trans rfl rfl
@[simp] theorem setGroup_flaws (cl gq : Nat) (g : Group) (s : State) : (setGroup cl gq g s).flaws = s.flaws := .trans rfl rfl
@[simp] theorem setGroup_odecc (cl gq : Nat) (g : Group) (s : State) : (setGroup cl gq g s).odecc = s.odecc := .trans rfl rfl
@[simp] theorem setGroup_regs (cl gq : Nat) (g : Group) (s : State) : (setGroup cl gq g s).regs = s.regs := .trans rfl rfl
@[simp] theorem setGroup_ctr64 (cl gq : Nat) (g : Group) (s : State) : (setGroup cl gq g s).ctr64 = s.ctr64 := .trans rfl rfl
@[simp] theorem setGroup_queues (cl gq : Nat) (g : Group) (s : State) : (setGroup cl gq g s).queues = s.queues := .trans rfl rfl
@[simp] theorem setGroup_sems (cl gq : Nat) (g : Group) (s : State) : (setGroup cl gq g s).sems = s.sems := .trans rfl rfl
@[simp] theorem setGroup_flights (cl gq : Nat) (g : Group) (s : State) : (setGroup cl gq g s).flights = s.flights := .trans rfl rfl
@[simp] theorem setGroup_tilePhys (cl gq : Nat) (g : Group) (s : State) : (setGroup cl gq g s).tilePhys = s.tilePhys := .trans rfl rfl
@[simp] theorem setGroup_err (cl gq : Nat) (g : Group) (s : State) : (setGroup cl gq g s).err = s.err := .trans rfl rfl
@[simp] theorem setGroup_rings (cl gq : Nat) (g : Group) (s : State) : (setGroup cl gq g s).rings = s.rings := .trans rfl rfl
@[simp] theorem setGroup_irqs (cl gq : Nat) (g : Group) (s : State) : (setGroup cl gq g s).irqs = s.irqs := .trans rfl rfl
@[simp] theorem setGroup_evtWidth (cl gq : Nat) (g : Group) (s : State) : (setGroup cl gq g s).evtWidth = s.evtWidth := .trans rfl rfl
@[simp] theorem setGroup_snoop (cl gq : Nat) (g : Group) (s : State) : (setGroup cl gq g s).snoop = s.snoop := .trans rfl rfl
@[simp] theorem setGroup_jobs (cl gq : Nat) (g : Group) (s : State) : (setGroup cl gq g s).jobs = s.jobs := .trans rfl rfl
@[simp] theorem setGroup_keys (cl gq : Nat) (g : Group) (s : State) : (setGroup cl gq g s).keys = s.keys := .trans rfl rfl
@[simp] theorem setGroup_mgmt (cl gq : Nat) (g : Group) (s : State) : (setGroup cl gq g s).mgmt = s.mgmt := .trans rfl rfl
@[simp] theorem setGroup_presWait (cl gq : Nat) (g : Group) (s : State) : (setGroup cl gq g s).presWait = s.presWait := .trans rfl rfl
@[simp] theorem setGroup_prot (cl gq : Nat) (g : Group) (s : State) : (setGroup cl gq g s).prot = s.prot := .trans rfl rfl
@[simp] theorem setGroup_ctxs (cl gq : Nat) (g : Group) (s : State) : (setGroup cl gq g s).ctxs = s.ctxs := .trans rfl rfl
@[simp] theorem setGroup_boot (cl gq : Nat) (g : Group) (s : State) : (setGroup cl gq g s).boot = s.boot := .trans rfl rfl
@[simp] theorem setGroup_flash (cl gq : Nat) (g : Group) (s : State) : (setGroup cl gq g s).flash = s.flash := .trans rfl rfl
@[simp] theorem setGroup_fuses (cl gq : Nat) (g : Group) (s : State) : (setGroup cl gq g s).fuses = s.fuses := .trans rfl rfl
@[simp] theorem setGroup_tiles (cl gq : Nat) (g : Group) (s : State) : (setGroup cl gq g s).tiles = s.tiles := .trans rfl rfl
@[simp] theorem setGroup_ft (cl gq : Nat) (g : Group) (s : State) : (setGroup cl gq g s).ft = s.ft := .trans rfl rfl
@[simp] theorem setGroup_poolMib (cl gq : Nat) (g : Group) (s : State) : (setGroup cl gq g s).poolMib = s.poolMib := .trans rfl rfl
@[simp] theorem setGroup_bufs (cl gq : Nat) (g : Group) (s : State) : (setGroup cl gq g s).bufs = s.bufs := .trans rfl rfl
@[simp] theorem setGroup_owners (cl gq : Nat) (g : Group) (s : State) : (setGroup cl gq g s).owners = s.owners := .trans rfl rfl
@[simp] theorem setGroup_ingress (cl gq : Nat) (g : Group) (s : State) : (setGroup cl gq g s).ingress = s.ingress := .trans rfl rfl
@[simp] theorem setGroup_egq (cl gq : Nat) (g : Group) (s : State) : (setGroup cl gq g s).egq = s.egq := .trans rfl rfl
@[simp] theorem setGroup_ports (cl gq : Nat) (g : Group) (s : State) : (setGroup cl gq g s).ports = s.ports := .trans rfl rfl
@[simp] theorem setGroup_staging (cl gq : Nat) (g : Group) (s : State) : (setGroup cl gq g s).staging = s.staging := .trans rfl rfl
@[simp] theorem setGroup_hdrAt (cl gq : Nat) (g : Group) (s : State) : (setGroup cl gq g s).hdrAt = s.hdrAt := .trans rfl rfl
@[simp] theorem setGroup_clampLo (cl gq : Nat) (g : Group) (s : State) : (setGroup cl gq g s).clampLo = s.clampLo := .trans rfl rfl
@[simp] theorem setGroup_mgmtDown (cl gq : Nat) (g : Group) (s : State) : (setGroup cl gq g s).mgmtDown = s.mgmtDown := .trans rfl rfl
@[simp] theorem setGroup_policers (cl gq : Nat) (g : Group) (s : State) : (setGroup cl gq g s).policers = s.policers := .trans rfl rfl
@[simp] theorem setGroup_egLast (cl gq : Nat) (g : Group) (s : State) : (setGroup cl gq g s).egLast = s.egLast := .trans rfl rfl
@[simp] theorem setGroup_mgmtTx (cl gq : Nat) (g : Group) (s : State) : (setGroup cl gq g s).mgmtTx = s.mgmtTx := .trans rfl rfl
@[simp] theorem setGroup_arrivals (cl gq : Nat) (g : Group) (s : State) : (setGroup cl gq g s).arrivals = s.arrivals := .trans rfl rfl
@[simp] theorem setGroup_scus (cl gq : Nat) (g : Group) (s : State) : (setGroup cl gq g s).scus = s.scus := .trans rfl rfl
@[simp] theorem setGroup_pues (cl gq : Nat) (g : Group) (s : State) : (setGroup cl gq g s).pues = s.pues := .trans rfl rfl
@[simp] theorem setGroup_dose (cl gq : Nat) (g : Group) (s : State) : (setGroup cl gq g s).dose = s.dose := .trans rfl rfl
@[simp] theorem setGroup_cvus (cl gq : Nat) (g : Group) (s : State) : (setGroup cl gq g s).cvus = s.cvus := .trans rfl rfl
@[simp] theorem setGroup_bundles (cl gq : Nat) (g : Group) (s : State) : (setGroup cl gq g s).bundles = s.bundles := .trans rfl rfl
@[simp] theorem setGroup_harness (cl gq : Nat) (g : Group) (s : State) : (setGroup cl gq g s).harness = s.harness := .trans rfl rfl
@[simp] theorem setGroup_wormOut (cl gq : Nat) (g : Group) (s : State) : (setGroup cl gq g s).wormOut = s.wormOut := .trans rfl rfl
@[simp] theorem setGroup_health (cl gq : Nat) (g : Group) (s : State) : (setGroup cl gq g s).health = s.health := .trans rfl rfl
@[simp] theorem setGroup_power (cl gq : Nat) (g : Group) (s : State) : (setGroup cl gq g s).power = s.power := .trans rfl rfl
@[simp] theorem setGroup_sig (cl gq : Nat) (g : Group) (s : State) : (setGroup cl gq g s).sig = s.sig := .trans rfl rfl
@[simp] theorem setGroup_evtFailed (cl gq : Nat) (g : Group) (s : State) : (setGroup cl gq g s).evtFailed = s.evtFailed := .trans rfl rfl
@[simp] theorem setGroup_answer (cl gq : Nat) (g : Group) (s : State) : (setGroup cl gq g s).answer = s.answer := .trans rfl rfl
@[simp] theorem setGroup_heldAcc (cl gq : Nat) (g : Group) (s : State) : (setGroup cl gq g s).heldAcc = s.heldAcc := .trans rfl rfl
@[simp] theorem setGroup_movers (cl gq : Nat) (g : Group) (s : State) : (setGroup cl gq g s).movers = s.movers := .trans rfl rfl
@[simp] theorem setGroup_runs (cl gq : Nat) (g : Group) (s : State) : (setGroup cl gq g s).runs = s.runs := .trans rfl rfl
@[simp] theorem setGroup_bad (cl gq : Nat) (g : Group) (s : State) : (setGroup cl gq g s).bad = s.bad := .trans rfl rfl
@[simp] theorem setGroup_dld (cl gq : Nat) (g : Group) (s : State) : (setGroup cl gq g s).dld = s.dld := .trans rfl rfl

/-! ### setBundle -/

@[simp] theorem setBundle_pending (k : Nat) (x : Bundle) (s : State) : (setBundle k x s).pending = s.pending := .trans rfl rfl
@[simp] theorem setBundle_part (k : Nat) (x : Bundle) (s : State) : (setBundle k x s).part = s.part := .trans rfl rfl
@[simp] theorem setBundle_uptime (k : Nat) (x : Bundle) (s : State) : (setBundle k x s).uptime = s.uptime := .trans rfl rfl
@[simp] theorem setBundle_arithCount (k : Nat) (x : Bundle) (s : State) : (setBundle k x s).arithCount = s.arithCount := .trans rfl rfl
@[simp] theorem setBundle_fwdCount (k : Nat) (x : Bundle) (s : State) : (setBundle k x s).fwdCount = s.fwdCount := .trans rfl rfl
@[simp] theorem setBundle_fresh (k : Nat) (x : Bundle) (s : State) : (setBundle k x s).fresh = s.fresh := .trans rfl rfl
@[simp] theorem setBundle_mem (k : Nat) (x : Bundle) (s : State) : (setBundle k x s).mem = s.mem := .trans rfl rfl
@[simp] theorem setBundle_poison (k : Nat) (x : Bundle) (s : State) : (setBundle k x s).poison = s.poison := .trans rfl rfl
@[simp] theorem setBundle_flaws (k : Nat) (x : Bundle) (s : State) : (setBundle k x s).flaws = s.flaws := .trans rfl rfl
@[simp] theorem setBundle_odecc (k : Nat) (x : Bundle) (s : State) : (setBundle k x s).odecc = s.odecc := .trans rfl rfl
@[simp] theorem setBundle_regs (k : Nat) (x : Bundle) (s : State) : (setBundle k x s).regs = s.regs := .trans rfl rfl
@[simp] theorem setBundle_ctr64 (k : Nat) (x : Bundle) (s : State) : (setBundle k x s).ctr64 = s.ctr64 := .trans rfl rfl
@[simp] theorem setBundle_queues (k : Nat) (x : Bundle) (s : State) : (setBundle k x s).queues = s.queues := .trans rfl rfl
@[simp] theorem setBundle_sems (k : Nat) (x : Bundle) (s : State) : (setBundle k x s).sems = s.sems := .trans rfl rfl
@[simp] theorem setBundle_flights (k : Nat) (x : Bundle) (s : State) : (setBundle k x s).flights = s.flights := .trans rfl rfl
@[simp] theorem setBundle_tilePhys (k : Nat) (x : Bundle) (s : State) : (setBundle k x s).tilePhys = s.tilePhys := .trans rfl rfl
@[simp] theorem setBundle_err (k : Nat) (x : Bundle) (s : State) : (setBundle k x s).err = s.err := .trans rfl rfl
@[simp] theorem setBundle_rings (k : Nat) (x : Bundle) (s : State) : (setBundle k x s).rings = s.rings := .trans rfl rfl
@[simp] theorem setBundle_irqs (k : Nat) (x : Bundle) (s : State) : (setBundle k x s).irqs = s.irqs := .trans rfl rfl
@[simp] theorem setBundle_evtWidth (k : Nat) (x : Bundle) (s : State) : (setBundle k x s).evtWidth = s.evtWidth := .trans rfl rfl
@[simp] theorem setBundle_snoop (k : Nat) (x : Bundle) (s : State) : (setBundle k x s).snoop = s.snoop := .trans rfl rfl
@[simp] theorem setBundle_jobs (k : Nat) (x : Bundle) (s : State) : (setBundle k x s).jobs = s.jobs := .trans rfl rfl
@[simp] theorem setBundle_keys (k : Nat) (x : Bundle) (s : State) : (setBundle k x s).keys = s.keys := .trans rfl rfl
@[simp] theorem setBundle_mgmt (k : Nat) (x : Bundle) (s : State) : (setBundle k x s).mgmt = s.mgmt := .trans rfl rfl
@[simp] theorem setBundle_presWait (k : Nat) (x : Bundle) (s : State) : (setBundle k x s).presWait = s.presWait := .trans rfl rfl
@[simp] theorem setBundle_prot (k : Nat) (x : Bundle) (s : State) : (setBundle k x s).prot = s.prot := .trans rfl rfl
@[simp] theorem setBundle_ctxs (k : Nat) (x : Bundle) (s : State) : (setBundle k x s).ctxs = s.ctxs := .trans rfl rfl
@[simp] theorem setBundle_boot (k : Nat) (x : Bundle) (s : State) : (setBundle k x s).boot = s.boot := .trans rfl rfl
@[simp] theorem setBundle_flash (k : Nat) (x : Bundle) (s : State) : (setBundle k x s).flash = s.flash := .trans rfl rfl
@[simp] theorem setBundle_fuses (k : Nat) (x : Bundle) (s : State) : (setBundle k x s).fuses = s.fuses := .trans rfl rfl
@[simp] theorem setBundle_tiles (k : Nat) (x : Bundle) (s : State) : (setBundle k x s).tiles = s.tiles := .trans rfl rfl
@[simp] theorem setBundle_ft (k : Nat) (x : Bundle) (s : State) : (setBundle k x s).ft = s.ft := .trans rfl rfl
@[simp] theorem setBundle_poolMib (k : Nat) (x : Bundle) (s : State) : (setBundle k x s).poolMib = s.poolMib := .trans rfl rfl
@[simp] theorem setBundle_bufs (k : Nat) (x : Bundle) (s : State) : (setBundle k x s).bufs = s.bufs := .trans rfl rfl
@[simp] theorem setBundle_owners (k : Nat) (x : Bundle) (s : State) : (setBundle k x s).owners = s.owners := .trans rfl rfl
@[simp] theorem setBundle_ingress (k : Nat) (x : Bundle) (s : State) : (setBundle k x s).ingress = s.ingress := .trans rfl rfl
@[simp] theorem setBundle_egq (k : Nat) (x : Bundle) (s : State) : (setBundle k x s).egq = s.egq := .trans rfl rfl
@[simp] theorem setBundle_ports (k : Nat) (x : Bundle) (s : State) : (setBundle k x s).ports = s.ports := .trans rfl rfl
@[simp] theorem setBundle_staging (k : Nat) (x : Bundle) (s : State) : (setBundle k x s).staging = s.staging := .trans rfl rfl
@[simp] theorem setBundle_hdrAt (k : Nat) (x : Bundle) (s : State) : (setBundle k x s).hdrAt = s.hdrAt := .trans rfl rfl
@[simp] theorem setBundle_clampLo (k : Nat) (x : Bundle) (s : State) : (setBundle k x s).clampLo = s.clampLo := .trans rfl rfl
@[simp] theorem setBundle_mgmtDown (k : Nat) (x : Bundle) (s : State) : (setBundle k x s).mgmtDown = s.mgmtDown := .trans rfl rfl
@[simp] theorem setBundle_policers (k : Nat) (x : Bundle) (s : State) : (setBundle k x s).policers = s.policers := .trans rfl rfl
@[simp] theorem setBundle_egLast (k : Nat) (x : Bundle) (s : State) : (setBundle k x s).egLast = s.egLast := .trans rfl rfl
@[simp] theorem setBundle_mgmtTx (k : Nat) (x : Bundle) (s : State) : (setBundle k x s).mgmtTx = s.mgmtTx := .trans rfl rfl
@[simp] theorem setBundle_arrivals (k : Nat) (x : Bundle) (s : State) : (setBundle k x s).arrivals = s.arrivals := .trans rfl rfl
@[simp] theorem setBundle_groups (k : Nat) (x : Bundle) (s : State) : (setBundle k x s).groups = s.groups := .trans rfl rfl
@[simp] theorem setBundle_scus (k : Nat) (x : Bundle) (s : State) : (setBundle k x s).scus = s.scus := .trans rfl rfl
@[simp] theorem setBundle_pues (k : Nat) (x : Bundle) (s : State) : (setBundle k x s).pues = s.pues := .trans rfl rfl
@[simp] theorem setBundle_dose (k : Nat) (x : Bundle) (s : State) : (setBundle k x s).dose = s.dose := .trans rfl rfl
@[simp] theorem setBundle_cvus (k : Nat) (x : Bundle) (s : State) : (setBundle k x s).cvus = s.cvus := .trans rfl rfl
@[simp] theorem setBundle_harness (k : Nat) (x : Bundle) (s : State) : (setBundle k x s).harness = s.harness := .trans rfl rfl
@[simp] theorem setBundle_wormOut (k : Nat) (x : Bundle) (s : State) : (setBundle k x s).wormOut = s.wormOut := .trans rfl rfl
@[simp] theorem setBundle_health (k : Nat) (x : Bundle) (s : State) : (setBundle k x s).health = s.health := .trans rfl rfl
@[simp] theorem setBundle_power (k : Nat) (x : Bundle) (s : State) : (setBundle k x s).power = s.power := .trans rfl rfl
@[simp] theorem setBundle_sig (k : Nat) (x : Bundle) (s : State) : (setBundle k x s).sig = s.sig := .trans rfl rfl
@[simp] theorem setBundle_evtFailed (k : Nat) (x : Bundle) (s : State) : (setBundle k x s).evtFailed = s.evtFailed := .trans rfl rfl
@[simp] theorem setBundle_answer (k : Nat) (x : Bundle) (s : State) : (setBundle k x s).answer = s.answer := .trans rfl rfl
@[simp] theorem setBundle_heldAcc (k : Nat) (x : Bundle) (s : State) : (setBundle k x s).heldAcc = s.heldAcc := .trans rfl rfl
@[simp] theorem setBundle_movers (k : Nat) (x : Bundle) (s : State) : (setBundle k x s).movers = s.movers := .trans rfl rfl
@[simp] theorem setBundle_runs (k : Nat) (x : Bundle) (s : State) : (setBundle k x s).runs = s.runs := .trans rfl rfl
@[simp] theorem setBundle_bad (k : Nat) (x : Bundle) (s : State) : (setBundle k x s).bad = s.bad := .trans rfl rfl
@[simp] theorem setBundle_dld (k : Nat) (x : Bundle) (s : State) : (setBundle k x s).dld = s.dld := .trans rfl rfl

/-! ### setTile -/

@[simp] theorem setTile_pending (cl p : Nat) (t : Tile) (s : State) : (setTile cl p t s).pending = s.pending := .trans rfl rfl
@[simp] theorem setTile_part (cl p : Nat) (t : Tile) (s : State) : (setTile cl p t s).part = s.part := .trans rfl rfl
@[simp] theorem setTile_uptime (cl p : Nat) (t : Tile) (s : State) : (setTile cl p t s).uptime = s.uptime := .trans rfl rfl
@[simp] theorem setTile_arithCount (cl p : Nat) (t : Tile) (s : State) : (setTile cl p t s).arithCount = s.arithCount := .trans rfl rfl
@[simp] theorem setTile_fwdCount (cl p : Nat) (t : Tile) (s : State) : (setTile cl p t s).fwdCount = s.fwdCount := .trans rfl rfl
@[simp] theorem setTile_fresh (cl p : Nat) (t : Tile) (s : State) : (setTile cl p t s).fresh = s.fresh := .trans rfl rfl
@[simp] theorem setTile_mem (cl p : Nat) (t : Tile) (s : State) : (setTile cl p t s).mem = s.mem := .trans rfl rfl
@[simp] theorem setTile_poison (cl p : Nat) (t : Tile) (s : State) : (setTile cl p t s).poison = s.poison := .trans rfl rfl
@[simp] theorem setTile_flaws (cl p : Nat) (t : Tile) (s : State) : (setTile cl p t s).flaws = s.flaws := .trans rfl rfl
@[simp] theorem setTile_odecc (cl p : Nat) (t : Tile) (s : State) : (setTile cl p t s).odecc = s.odecc := .trans rfl rfl
@[simp] theorem setTile_regs (cl p : Nat) (t : Tile) (s : State) : (setTile cl p t s).regs = s.regs := .trans rfl rfl
@[simp] theorem setTile_ctr64 (cl p : Nat) (t : Tile) (s : State) : (setTile cl p t s).ctr64 = s.ctr64 := .trans rfl rfl
@[simp] theorem setTile_queues (cl p : Nat) (t : Tile) (s : State) : (setTile cl p t s).queues = s.queues := .trans rfl rfl
@[simp] theorem setTile_sems (cl p : Nat) (t : Tile) (s : State) : (setTile cl p t s).sems = s.sems := .trans rfl rfl
@[simp] theorem setTile_flights (cl p : Nat) (t : Tile) (s : State) : (setTile cl p t s).flights = s.flights := .trans rfl rfl
@[simp] theorem setTile_tilePhys (cl p : Nat) (t : Tile) (s : State) : (setTile cl p t s).tilePhys = s.tilePhys := .trans rfl rfl
@[simp] theorem setTile_err (cl p : Nat) (t : Tile) (s : State) : (setTile cl p t s).err = s.err := .trans rfl rfl
@[simp] theorem setTile_rings (cl p : Nat) (t : Tile) (s : State) : (setTile cl p t s).rings = s.rings := .trans rfl rfl
@[simp] theorem setTile_irqs (cl p : Nat) (t : Tile) (s : State) : (setTile cl p t s).irqs = s.irqs := .trans rfl rfl
@[simp] theorem setTile_evtWidth (cl p : Nat) (t : Tile) (s : State) : (setTile cl p t s).evtWidth = s.evtWidth := .trans rfl rfl
@[simp] theorem setTile_snoop (cl p : Nat) (t : Tile) (s : State) : (setTile cl p t s).snoop = s.snoop := .trans rfl rfl
@[simp] theorem setTile_jobs (cl p : Nat) (t : Tile) (s : State) : (setTile cl p t s).jobs = s.jobs := .trans rfl rfl
@[simp] theorem setTile_keys (cl p : Nat) (t : Tile) (s : State) : (setTile cl p t s).keys = s.keys := .trans rfl rfl
@[simp] theorem setTile_mgmt (cl p : Nat) (t : Tile) (s : State) : (setTile cl p t s).mgmt = s.mgmt := .trans rfl rfl
@[simp] theorem setTile_presWait (cl p : Nat) (t : Tile) (s : State) : (setTile cl p t s).presWait = s.presWait := .trans rfl rfl
@[simp] theorem setTile_prot (cl p : Nat) (t : Tile) (s : State) : (setTile cl p t s).prot = s.prot := .trans rfl rfl
@[simp] theorem setTile_ctxs (cl p : Nat) (t : Tile) (s : State) : (setTile cl p t s).ctxs = s.ctxs := .trans rfl rfl
@[simp] theorem setTile_boot (cl p : Nat) (t : Tile) (s : State) : (setTile cl p t s).boot = s.boot := .trans rfl rfl
@[simp] theorem setTile_flash (cl p : Nat) (t : Tile) (s : State) : (setTile cl p t s).flash = s.flash := .trans rfl rfl
@[simp] theorem setTile_fuses (cl p : Nat) (t : Tile) (s : State) : (setTile cl p t s).fuses = s.fuses := .trans rfl rfl
@[simp] theorem setTile_ft (cl p : Nat) (t : Tile) (s : State) : (setTile cl p t s).ft = s.ft := .trans rfl rfl
@[simp] theorem setTile_poolMib (cl p : Nat) (t : Tile) (s : State) : (setTile cl p t s).poolMib = s.poolMib := .trans rfl rfl
@[simp] theorem setTile_bufs (cl p : Nat) (t : Tile) (s : State) : (setTile cl p t s).bufs = s.bufs := .trans rfl rfl
@[simp] theorem setTile_owners (cl p : Nat) (t : Tile) (s : State) : (setTile cl p t s).owners = s.owners := .trans rfl rfl
@[simp] theorem setTile_ingress (cl p : Nat) (t : Tile) (s : State) : (setTile cl p t s).ingress = s.ingress := .trans rfl rfl
@[simp] theorem setTile_egq (cl p : Nat) (t : Tile) (s : State) : (setTile cl p t s).egq = s.egq := .trans rfl rfl
@[simp] theorem setTile_ports (cl p : Nat) (t : Tile) (s : State) : (setTile cl p t s).ports = s.ports := .trans rfl rfl
@[simp] theorem setTile_staging (cl p : Nat) (t : Tile) (s : State) : (setTile cl p t s).staging = s.staging := .trans rfl rfl
@[simp] theorem setTile_hdrAt (cl p : Nat) (t : Tile) (s : State) : (setTile cl p t s).hdrAt = s.hdrAt := .trans rfl rfl
@[simp] theorem setTile_clampLo (cl p : Nat) (t : Tile) (s : State) : (setTile cl p t s).clampLo = s.clampLo := .trans rfl rfl
@[simp] theorem setTile_mgmtDown (cl p : Nat) (t : Tile) (s : State) : (setTile cl p t s).mgmtDown = s.mgmtDown := .trans rfl rfl
@[simp] theorem setTile_policers (cl p : Nat) (t : Tile) (s : State) : (setTile cl p t s).policers = s.policers := .trans rfl rfl
@[simp] theorem setTile_egLast (cl p : Nat) (t : Tile) (s : State) : (setTile cl p t s).egLast = s.egLast := .trans rfl rfl
@[simp] theorem setTile_mgmtTx (cl p : Nat) (t : Tile) (s : State) : (setTile cl p t s).mgmtTx = s.mgmtTx := .trans rfl rfl
@[simp] theorem setTile_arrivals (cl p : Nat) (t : Tile) (s : State) : (setTile cl p t s).arrivals = s.arrivals := .trans rfl rfl
@[simp] theorem setTile_groups (cl p : Nat) (t : Tile) (s : State) : (setTile cl p t s).groups = s.groups := .trans rfl rfl
@[simp] theorem setTile_scus (cl p : Nat) (t : Tile) (s : State) : (setTile cl p t s).scus = s.scus := .trans rfl rfl
@[simp] theorem setTile_pues (cl p : Nat) (t : Tile) (s : State) : (setTile cl p t s).pues = s.pues := .trans rfl rfl
@[simp] theorem setTile_dose (cl p : Nat) (t : Tile) (s : State) : (setTile cl p t s).dose = s.dose := .trans rfl rfl
@[simp] theorem setTile_cvus (cl p : Nat) (t : Tile) (s : State) : (setTile cl p t s).cvus = s.cvus := .trans rfl rfl
@[simp] theorem setTile_bundles (cl p : Nat) (t : Tile) (s : State) : (setTile cl p t s).bundles = s.bundles := .trans rfl rfl
@[simp] theorem setTile_harness (cl p : Nat) (t : Tile) (s : State) : (setTile cl p t s).harness = s.harness := .trans rfl rfl
@[simp] theorem setTile_wormOut (cl p : Nat) (t : Tile) (s : State) : (setTile cl p t s).wormOut = s.wormOut := .trans rfl rfl
@[simp] theorem setTile_health (cl p : Nat) (t : Tile) (s : State) : (setTile cl p t s).health = s.health := .trans rfl rfl
@[simp] theorem setTile_power (cl p : Nat) (t : Tile) (s : State) : (setTile cl p t s).power = s.power := .trans rfl rfl
@[simp] theorem setTile_sig (cl p : Nat) (t : Tile) (s : State) : (setTile cl p t s).sig = s.sig := .trans rfl rfl
@[simp] theorem setTile_evtFailed (cl p : Nat) (t : Tile) (s : State) : (setTile cl p t s).evtFailed = s.evtFailed := .trans rfl rfl
@[simp] theorem setTile_answer (cl p : Nat) (t : Tile) (s : State) : (setTile cl p t s).answer = s.answer := .trans rfl rfl
@[simp] theorem setTile_heldAcc (cl p : Nat) (t : Tile) (s : State) : (setTile cl p t s).heldAcc = s.heldAcc := .trans rfl rfl
@[simp] theorem setTile_movers (cl p : Nat) (t : Tile) (s : State) : (setTile cl p t s).movers = s.movers := .trans rfl rfl
@[simp] theorem setTile_runs (cl p : Nat) (t : Tile) (s : State) : (setTile cl p t s).runs = s.runs := .trans rfl rfl
@[simp] theorem setTile_bad (cl p : Nat) (t : Tile) (s : State) : (setTile cl p t s).bad = s.bad := .trans rfl rfl
@[simp] theorem setTile_dld (cl p : Nat) (t : Tile) (s : State) : (setTile cl p t s).dld = s.dld := .trans rfl rfl

/-! ### setScu -/

@[simp] theorem setScu_pending (cl u : Nat) (x : Scu) (s : State) : (setScu cl u x s).pending = s.pending := .trans rfl rfl
@[simp] theorem setScu_part (cl u : Nat) (x : Scu) (s : State) : (setScu cl u x s).part = s.part := .trans rfl rfl
@[simp] theorem setScu_uptime (cl u : Nat) (x : Scu) (s : State) : (setScu cl u x s).uptime = s.uptime := .trans rfl rfl
@[simp] theorem setScu_arithCount (cl u : Nat) (x : Scu) (s : State) : (setScu cl u x s).arithCount = s.arithCount := .trans rfl rfl
@[simp] theorem setScu_fwdCount (cl u : Nat) (x : Scu) (s : State) : (setScu cl u x s).fwdCount = s.fwdCount := .trans rfl rfl
@[simp] theorem setScu_fresh (cl u : Nat) (x : Scu) (s : State) : (setScu cl u x s).fresh = s.fresh := .trans rfl rfl
@[simp] theorem setScu_mem (cl u : Nat) (x : Scu) (s : State) : (setScu cl u x s).mem = s.mem := .trans rfl rfl
@[simp] theorem setScu_poison (cl u : Nat) (x : Scu) (s : State) : (setScu cl u x s).poison = s.poison := .trans rfl rfl
@[simp] theorem setScu_flaws (cl u : Nat) (x : Scu) (s : State) : (setScu cl u x s).flaws = s.flaws := .trans rfl rfl
@[simp] theorem setScu_odecc (cl u : Nat) (x : Scu) (s : State) : (setScu cl u x s).odecc = s.odecc := .trans rfl rfl
@[simp] theorem setScu_regs (cl u : Nat) (x : Scu) (s : State) : (setScu cl u x s).regs = s.regs := .trans rfl rfl
@[simp] theorem setScu_ctr64 (cl u : Nat) (x : Scu) (s : State) : (setScu cl u x s).ctr64 = s.ctr64 := .trans rfl rfl
@[simp] theorem setScu_queues (cl u : Nat) (x : Scu) (s : State) : (setScu cl u x s).queues = s.queues := .trans rfl rfl
@[simp] theorem setScu_sems (cl u : Nat) (x : Scu) (s : State) : (setScu cl u x s).sems = s.sems := .trans rfl rfl
@[simp] theorem setScu_flights (cl u : Nat) (x : Scu) (s : State) : (setScu cl u x s).flights = s.flights := .trans rfl rfl
@[simp] theorem setScu_tilePhys (cl u : Nat) (x : Scu) (s : State) : (setScu cl u x s).tilePhys = s.tilePhys := .trans rfl rfl
@[simp] theorem setScu_err (cl u : Nat) (x : Scu) (s : State) : (setScu cl u x s).err = s.err := .trans rfl rfl
@[simp] theorem setScu_rings (cl u : Nat) (x : Scu) (s : State) : (setScu cl u x s).rings = s.rings := .trans rfl rfl
@[simp] theorem setScu_irqs (cl u : Nat) (x : Scu) (s : State) : (setScu cl u x s).irqs = s.irqs := .trans rfl rfl
@[simp] theorem setScu_evtWidth (cl u : Nat) (x : Scu) (s : State) : (setScu cl u x s).evtWidth = s.evtWidth := .trans rfl rfl
@[simp] theorem setScu_snoop (cl u : Nat) (x : Scu) (s : State) : (setScu cl u x s).snoop = s.snoop := .trans rfl rfl
@[simp] theorem setScu_jobs (cl u : Nat) (x : Scu) (s : State) : (setScu cl u x s).jobs = s.jobs := .trans rfl rfl
@[simp] theorem setScu_keys (cl u : Nat) (x : Scu) (s : State) : (setScu cl u x s).keys = s.keys := .trans rfl rfl
@[simp] theorem setScu_mgmt (cl u : Nat) (x : Scu) (s : State) : (setScu cl u x s).mgmt = s.mgmt := .trans rfl rfl
@[simp] theorem setScu_presWait (cl u : Nat) (x : Scu) (s : State) : (setScu cl u x s).presWait = s.presWait := .trans rfl rfl
@[simp] theorem setScu_prot (cl u : Nat) (x : Scu) (s : State) : (setScu cl u x s).prot = s.prot := .trans rfl rfl
@[simp] theorem setScu_ctxs (cl u : Nat) (x : Scu) (s : State) : (setScu cl u x s).ctxs = s.ctxs := .trans rfl rfl
@[simp] theorem setScu_boot (cl u : Nat) (x : Scu) (s : State) : (setScu cl u x s).boot = s.boot := .trans rfl rfl
@[simp] theorem setScu_flash (cl u : Nat) (x : Scu) (s : State) : (setScu cl u x s).flash = s.flash := .trans rfl rfl
@[simp] theorem setScu_fuses (cl u : Nat) (x : Scu) (s : State) : (setScu cl u x s).fuses = s.fuses := .trans rfl rfl
@[simp] theorem setScu_tiles (cl u : Nat) (x : Scu) (s : State) : (setScu cl u x s).tiles = s.tiles := .trans rfl rfl
@[simp] theorem setScu_ft (cl u : Nat) (x : Scu) (s : State) : (setScu cl u x s).ft = s.ft := .trans rfl rfl
@[simp] theorem setScu_poolMib (cl u : Nat) (x : Scu) (s : State) : (setScu cl u x s).poolMib = s.poolMib := .trans rfl rfl
@[simp] theorem setScu_bufs (cl u : Nat) (x : Scu) (s : State) : (setScu cl u x s).bufs = s.bufs := .trans rfl rfl
@[simp] theorem setScu_owners (cl u : Nat) (x : Scu) (s : State) : (setScu cl u x s).owners = s.owners := .trans rfl rfl
@[simp] theorem setScu_ingress (cl u : Nat) (x : Scu) (s : State) : (setScu cl u x s).ingress = s.ingress := .trans rfl rfl
@[simp] theorem setScu_egq (cl u : Nat) (x : Scu) (s : State) : (setScu cl u x s).egq = s.egq := .trans rfl rfl
@[simp] theorem setScu_ports (cl u : Nat) (x : Scu) (s : State) : (setScu cl u x s).ports = s.ports := .trans rfl rfl
@[simp] theorem setScu_staging (cl u : Nat) (x : Scu) (s : State) : (setScu cl u x s).staging = s.staging := .trans rfl rfl
@[simp] theorem setScu_hdrAt (cl u : Nat) (x : Scu) (s : State) : (setScu cl u x s).hdrAt = s.hdrAt := .trans rfl rfl
@[simp] theorem setScu_clampLo (cl u : Nat) (x : Scu) (s : State) : (setScu cl u x s).clampLo = s.clampLo := .trans rfl rfl
@[simp] theorem setScu_mgmtDown (cl u : Nat) (x : Scu) (s : State) : (setScu cl u x s).mgmtDown = s.mgmtDown := .trans rfl rfl
@[simp] theorem setScu_policers (cl u : Nat) (x : Scu) (s : State) : (setScu cl u x s).policers = s.policers := .trans rfl rfl
@[simp] theorem setScu_egLast (cl u : Nat) (x : Scu) (s : State) : (setScu cl u x s).egLast = s.egLast := .trans rfl rfl
@[simp] theorem setScu_mgmtTx (cl u : Nat) (x : Scu) (s : State) : (setScu cl u x s).mgmtTx = s.mgmtTx := .trans rfl rfl
@[simp] theorem setScu_arrivals (cl u : Nat) (x : Scu) (s : State) : (setScu cl u x s).arrivals = s.arrivals := .trans rfl rfl
@[simp] theorem setScu_groups (cl u : Nat) (x : Scu) (s : State) : (setScu cl u x s).groups = s.groups := .trans rfl rfl
@[simp] theorem setScu_pues (cl u : Nat) (x : Scu) (s : State) : (setScu cl u x s).pues = s.pues := .trans rfl rfl
@[simp] theorem setScu_dose (cl u : Nat) (x : Scu) (s : State) : (setScu cl u x s).dose = s.dose := .trans rfl rfl
@[simp] theorem setScu_cvus (cl u : Nat) (x : Scu) (s : State) : (setScu cl u x s).cvus = s.cvus := .trans rfl rfl
@[simp] theorem setScu_bundles (cl u : Nat) (x : Scu) (s : State) : (setScu cl u x s).bundles = s.bundles := .trans rfl rfl
@[simp] theorem setScu_harness (cl u : Nat) (x : Scu) (s : State) : (setScu cl u x s).harness = s.harness := .trans rfl rfl
@[simp] theorem setScu_wormOut (cl u : Nat) (x : Scu) (s : State) : (setScu cl u x s).wormOut = s.wormOut := .trans rfl rfl
@[simp] theorem setScu_health (cl u : Nat) (x : Scu) (s : State) : (setScu cl u x s).health = s.health := .trans rfl rfl
@[simp] theorem setScu_power (cl u : Nat) (x : Scu) (s : State) : (setScu cl u x s).power = s.power := .trans rfl rfl
@[simp] theorem setScu_sig (cl u : Nat) (x : Scu) (s : State) : (setScu cl u x s).sig = s.sig := .trans rfl rfl
@[simp] theorem setScu_evtFailed (cl u : Nat) (x : Scu) (s : State) : (setScu cl u x s).evtFailed = s.evtFailed := .trans rfl rfl
@[simp] theorem setScu_answer (cl u : Nat) (x : Scu) (s : State) : (setScu cl u x s).answer = s.answer := .trans rfl rfl
@[simp] theorem setScu_heldAcc (cl u : Nat) (x : Scu) (s : State) : (setScu cl u x s).heldAcc = s.heldAcc := .trans rfl rfl
@[simp] theorem setScu_movers (cl u : Nat) (x : Scu) (s : State) : (setScu cl u x s).movers = s.movers := .trans rfl rfl
@[simp] theorem setScu_runs (cl u : Nat) (x : Scu) (s : State) : (setScu cl u x s).runs = s.runs := .trans rfl rfl
@[simp] theorem setScu_bad (cl u : Nat) (x : Scu) (s : State) : (setScu cl u x s).bad = s.bad := .trans rfl rfl
@[simp] theorem setScu_dld (cl u : Nat) (x : Scu) (s : State) : (setScu cl u x s).dld = s.dld := .trans rfl rfl

/-! ### setMover -/

@[simp] theorem setMover_pending (cl m : Nat) (x : Mover) (s : State) : (setMover cl m x s).pending = s.pending := .trans rfl rfl
@[simp] theorem setMover_part (cl m : Nat) (x : Mover) (s : State) : (setMover cl m x s).part = s.part := .trans rfl rfl
@[simp] theorem setMover_uptime (cl m : Nat) (x : Mover) (s : State) : (setMover cl m x s).uptime = s.uptime := .trans rfl rfl
@[simp] theorem setMover_arithCount (cl m : Nat) (x : Mover) (s : State) : (setMover cl m x s).arithCount = s.arithCount := .trans rfl rfl
@[simp] theorem setMover_fwdCount (cl m : Nat) (x : Mover) (s : State) : (setMover cl m x s).fwdCount = s.fwdCount := .trans rfl rfl
@[simp] theorem setMover_fresh (cl m : Nat) (x : Mover) (s : State) : (setMover cl m x s).fresh = s.fresh := .trans rfl rfl
@[simp] theorem setMover_mem (cl m : Nat) (x : Mover) (s : State) : (setMover cl m x s).mem = s.mem := .trans rfl rfl
@[simp] theorem setMover_poison (cl m : Nat) (x : Mover) (s : State) : (setMover cl m x s).poison = s.poison := .trans rfl rfl
@[simp] theorem setMover_flaws (cl m : Nat) (x : Mover) (s : State) : (setMover cl m x s).flaws = s.flaws := .trans rfl rfl
@[simp] theorem setMover_odecc (cl m : Nat) (x : Mover) (s : State) : (setMover cl m x s).odecc = s.odecc := .trans rfl rfl
@[simp] theorem setMover_regs (cl m : Nat) (x : Mover) (s : State) : (setMover cl m x s).regs = s.regs := .trans rfl rfl
@[simp] theorem setMover_ctr64 (cl m : Nat) (x : Mover) (s : State) : (setMover cl m x s).ctr64 = s.ctr64 := .trans rfl rfl
@[simp] theorem setMover_queues (cl m : Nat) (x : Mover) (s : State) : (setMover cl m x s).queues = s.queues := .trans rfl rfl
@[simp] theorem setMover_sems (cl m : Nat) (x : Mover) (s : State) : (setMover cl m x s).sems = s.sems := .trans rfl rfl
@[simp] theorem setMover_flights (cl m : Nat) (x : Mover) (s : State) : (setMover cl m x s).flights = s.flights := .trans rfl rfl
@[simp] theorem setMover_tilePhys (cl m : Nat) (x : Mover) (s : State) : (setMover cl m x s).tilePhys = s.tilePhys := .trans rfl rfl
@[simp] theorem setMover_err (cl m : Nat) (x : Mover) (s : State) : (setMover cl m x s).err = s.err := .trans rfl rfl
@[simp] theorem setMover_rings (cl m : Nat) (x : Mover) (s : State) : (setMover cl m x s).rings = s.rings := .trans rfl rfl
@[simp] theorem setMover_irqs (cl m : Nat) (x : Mover) (s : State) : (setMover cl m x s).irqs = s.irqs := .trans rfl rfl
@[simp] theorem setMover_evtWidth (cl m : Nat) (x : Mover) (s : State) : (setMover cl m x s).evtWidth = s.evtWidth := .trans rfl rfl
@[simp] theorem setMover_snoop (cl m : Nat) (x : Mover) (s : State) : (setMover cl m x s).snoop = s.snoop := .trans rfl rfl
@[simp] theorem setMover_jobs (cl m : Nat) (x : Mover) (s : State) : (setMover cl m x s).jobs = s.jobs := .trans rfl rfl
@[simp] theorem setMover_keys (cl m : Nat) (x : Mover) (s : State) : (setMover cl m x s).keys = s.keys := .trans rfl rfl
@[simp] theorem setMover_mgmt (cl m : Nat) (x : Mover) (s : State) : (setMover cl m x s).mgmt = s.mgmt := .trans rfl rfl
@[simp] theorem setMover_presWait (cl m : Nat) (x : Mover) (s : State) : (setMover cl m x s).presWait = s.presWait := .trans rfl rfl
@[simp] theorem setMover_prot (cl m : Nat) (x : Mover) (s : State) : (setMover cl m x s).prot = s.prot := .trans rfl rfl
@[simp] theorem setMover_ctxs (cl m : Nat) (x : Mover) (s : State) : (setMover cl m x s).ctxs = s.ctxs := .trans rfl rfl
@[simp] theorem setMover_boot (cl m : Nat) (x : Mover) (s : State) : (setMover cl m x s).boot = s.boot := .trans rfl rfl
@[simp] theorem setMover_flash (cl m : Nat) (x : Mover) (s : State) : (setMover cl m x s).flash = s.flash := .trans rfl rfl
@[simp] theorem setMover_fuses (cl m : Nat) (x : Mover) (s : State) : (setMover cl m x s).fuses = s.fuses := .trans rfl rfl
@[simp] theorem setMover_tiles (cl m : Nat) (x : Mover) (s : State) : (setMover cl m x s).tiles = s.tiles := .trans rfl rfl
@[simp] theorem setMover_ft (cl m : Nat) (x : Mover) (s : State) : (setMover cl m x s).ft = s.ft := .trans rfl rfl
@[simp] theorem setMover_poolMib (cl m : Nat) (x : Mover) (s : State) : (setMover cl m x s).poolMib = s.poolMib := .trans rfl rfl
@[simp] theorem setMover_bufs (cl m : Nat) (x : Mover) (s : State) : (setMover cl m x s).bufs = s.bufs := .trans rfl rfl
@[simp] theorem setMover_owners (cl m : Nat) (x : Mover) (s : State) : (setMover cl m x s).owners = s.owners := .trans rfl rfl
@[simp] theorem setMover_ingress (cl m : Nat) (x : Mover) (s : State) : (setMover cl m x s).ingress = s.ingress := .trans rfl rfl
@[simp] theorem setMover_egq (cl m : Nat) (x : Mover) (s : State) : (setMover cl m x s).egq = s.egq := .trans rfl rfl
@[simp] theorem setMover_ports (cl m : Nat) (x : Mover) (s : State) : (setMover cl m x s).ports = s.ports := .trans rfl rfl
@[simp] theorem setMover_staging (cl m : Nat) (x : Mover) (s : State) : (setMover cl m x s).staging = s.staging := .trans rfl rfl
@[simp] theorem setMover_hdrAt (cl m : Nat) (x : Mover) (s : State) : (setMover cl m x s).hdrAt = s.hdrAt := .trans rfl rfl
@[simp] theorem setMover_clampLo (cl m : Nat) (x : Mover) (s : State) : (setMover cl m x s).clampLo = s.clampLo := .trans rfl rfl
@[simp] theorem setMover_mgmtDown (cl m : Nat) (x : Mover) (s : State) : (setMover cl m x s).mgmtDown = s.mgmtDown := .trans rfl rfl
@[simp] theorem setMover_policers (cl m : Nat) (x : Mover) (s : State) : (setMover cl m x s).policers = s.policers := .trans rfl rfl
@[simp] theorem setMover_egLast (cl m : Nat) (x : Mover) (s : State) : (setMover cl m x s).egLast = s.egLast := .trans rfl rfl
@[simp] theorem setMover_mgmtTx (cl m : Nat) (x : Mover) (s : State) : (setMover cl m x s).mgmtTx = s.mgmtTx := .trans rfl rfl
@[simp] theorem setMover_arrivals (cl m : Nat) (x : Mover) (s : State) : (setMover cl m x s).arrivals = s.arrivals := .trans rfl rfl
@[simp] theorem setMover_groups (cl m : Nat) (x : Mover) (s : State) : (setMover cl m x s).groups = s.groups := .trans rfl rfl
@[simp] theorem setMover_scus (cl m : Nat) (x : Mover) (s : State) : (setMover cl m x s).scus = s.scus := .trans rfl rfl
@[simp] theorem setMover_pues (cl m : Nat) (x : Mover) (s : State) : (setMover cl m x s).pues = s.pues := .trans rfl rfl
@[simp] theorem setMover_dose (cl m : Nat) (x : Mover) (s : State) : (setMover cl m x s).dose = s.dose := .trans rfl rfl
@[simp] theorem setMover_cvus (cl m : Nat) (x : Mover) (s : State) : (setMover cl m x s).cvus = s.cvus := .trans rfl rfl
@[simp] theorem setMover_bundles (cl m : Nat) (x : Mover) (s : State) : (setMover cl m x s).bundles = s.bundles := .trans rfl rfl
@[simp] theorem setMover_harness (cl m : Nat) (x : Mover) (s : State) : (setMover cl m x s).harness = s.harness := .trans rfl rfl
@[simp] theorem setMover_wormOut (cl m : Nat) (x : Mover) (s : State) : (setMover cl m x s).wormOut = s.wormOut := .trans rfl rfl
@[simp] theorem setMover_health (cl m : Nat) (x : Mover) (s : State) : (setMover cl m x s).health = s.health := .trans rfl rfl
@[simp] theorem setMover_power (cl m : Nat) (x : Mover) (s : State) : (setMover cl m x s).power = s.power := .trans rfl rfl
@[simp] theorem setMover_sig (cl m : Nat) (x : Mover) (s : State) : (setMover cl m x s).sig = s.sig := .trans rfl rfl
@[simp] theorem setMover_evtFailed (cl m : Nat) (x : Mover) (s : State) : (setMover cl m x s).evtFailed = s.evtFailed := .trans rfl rfl
@[simp] theorem setMover_answer (cl m : Nat) (x : Mover) (s : State) : (setMover cl m x s).answer = s.answer := .trans rfl rfl
@[simp] theorem setMover_heldAcc (cl m : Nat) (x : Mover) (s : State) : (setMover cl m x s).heldAcc = s.heldAcc := .trans rfl rfl
@[simp] theorem setMover_runs (cl m : Nat) (x : Mover) (s : State) : (setMover cl m x s).runs = s.runs := .trans rfl rfl
@[simp] theorem setMover_bad (cl m : Nat) (x : Mover) (s : State) : (setMover cl m x s).bad = s.bad := .trans rfl rfl
@[simp] theorem setMover_dld (cl m : Nat) (x : Mover) (s : State) : (setMover cl m x s).dld = s.dld := .trans rfl rfl

/-! ### setBuf -/

@[simp] theorem setBuf_pending (k : Nat) (r : BufRec) (s : State) : (setBuf k r s).pending = s.pending := .trans rfl rfl
@[simp] theorem setBuf_part (k : Nat) (r : BufRec) (s : State) : (setBuf k r s).part = s.part := .trans rfl rfl
@[simp] theorem setBuf_uptime (k : Nat) (r : BufRec) (s : State) : (setBuf k r s).uptime = s.uptime := .trans rfl rfl
@[simp] theorem setBuf_arithCount (k : Nat) (r : BufRec) (s : State) : (setBuf k r s).arithCount = s.arithCount := .trans rfl rfl
@[simp] theorem setBuf_fwdCount (k : Nat) (r : BufRec) (s : State) : (setBuf k r s).fwdCount = s.fwdCount := .trans rfl rfl
@[simp] theorem setBuf_fresh (k : Nat) (r : BufRec) (s : State) : (setBuf k r s).fresh = s.fresh := .trans rfl rfl
@[simp] theorem setBuf_mem (k : Nat) (r : BufRec) (s : State) : (setBuf k r s).mem = s.mem := .trans rfl rfl
@[simp] theorem setBuf_poison (k : Nat) (r : BufRec) (s : State) : (setBuf k r s).poison = s.poison := .trans rfl rfl
@[simp] theorem setBuf_flaws (k : Nat) (r : BufRec) (s : State) : (setBuf k r s).flaws = s.flaws := .trans rfl rfl
@[simp] theorem setBuf_odecc (k : Nat) (r : BufRec) (s : State) : (setBuf k r s).odecc = s.odecc := .trans rfl rfl
@[simp] theorem setBuf_regs (k : Nat) (r : BufRec) (s : State) : (setBuf k r s).regs = s.regs := .trans rfl rfl
@[simp] theorem setBuf_ctr64 (k : Nat) (r : BufRec) (s : State) : (setBuf k r s).ctr64 = s.ctr64 := .trans rfl rfl
@[simp] theorem setBuf_queues (k : Nat) (r : BufRec) (s : State) : (setBuf k r s).queues = s.queues := .trans rfl rfl
@[simp] theorem setBuf_sems (k : Nat) (r : BufRec) (s : State) : (setBuf k r s).sems = s.sems := .trans rfl rfl
@[simp] theorem setBuf_flights (k : Nat) (r : BufRec) (s : State) : (setBuf k r s).flights = s.flights := .trans rfl rfl
@[simp] theorem setBuf_tilePhys (k : Nat) (r : BufRec) (s : State) : (setBuf k r s).tilePhys = s.tilePhys := .trans rfl rfl
@[simp] theorem setBuf_err (k : Nat) (r : BufRec) (s : State) : (setBuf k r s).err = s.err := .trans rfl rfl
@[simp] theorem setBuf_rings (k : Nat) (r : BufRec) (s : State) : (setBuf k r s).rings = s.rings := .trans rfl rfl
@[simp] theorem setBuf_irqs (k : Nat) (r : BufRec) (s : State) : (setBuf k r s).irqs = s.irqs := .trans rfl rfl
@[simp] theorem setBuf_evtWidth (k : Nat) (r : BufRec) (s : State) : (setBuf k r s).evtWidth = s.evtWidth := .trans rfl rfl
@[simp] theorem setBuf_snoop (k : Nat) (r : BufRec) (s : State) : (setBuf k r s).snoop = s.snoop := .trans rfl rfl
@[simp] theorem setBuf_jobs (k : Nat) (r : BufRec) (s : State) : (setBuf k r s).jobs = s.jobs := .trans rfl rfl
@[simp] theorem setBuf_keys (k : Nat) (r : BufRec) (s : State) : (setBuf k r s).keys = s.keys := .trans rfl rfl
@[simp] theorem setBuf_mgmt (k : Nat) (r : BufRec) (s : State) : (setBuf k r s).mgmt = s.mgmt := .trans rfl rfl
@[simp] theorem setBuf_presWait (k : Nat) (r : BufRec) (s : State) : (setBuf k r s).presWait = s.presWait := .trans rfl rfl
@[simp] theorem setBuf_prot (k : Nat) (r : BufRec) (s : State) : (setBuf k r s).prot = s.prot := .trans rfl rfl
@[simp] theorem setBuf_ctxs (k : Nat) (r : BufRec) (s : State) : (setBuf k r s).ctxs = s.ctxs := .trans rfl rfl
@[simp] theorem setBuf_boot (k : Nat) (r : BufRec) (s : State) : (setBuf k r s).boot = s.boot := .trans rfl rfl
@[simp] theorem setBuf_flash (k : Nat) (r : BufRec) (s : State) : (setBuf k r s).flash = s.flash := .trans rfl rfl
@[simp] theorem setBuf_fuses (k : Nat) (r : BufRec) (s : State) : (setBuf k r s).fuses = s.fuses := .trans rfl rfl
@[simp] theorem setBuf_tiles (k : Nat) (r : BufRec) (s : State) : (setBuf k r s).tiles = s.tiles := .trans rfl rfl
@[simp] theorem setBuf_ft (k : Nat) (r : BufRec) (s : State) : (setBuf k r s).ft = s.ft := .trans rfl rfl
@[simp] theorem setBuf_poolMib (k : Nat) (r : BufRec) (s : State) : (setBuf k r s).poolMib = s.poolMib := .trans rfl rfl
@[simp] theorem setBuf_owners (k : Nat) (r : BufRec) (s : State) : (setBuf k r s).owners = s.owners := .trans rfl rfl
@[simp] theorem setBuf_ingress (k : Nat) (r : BufRec) (s : State) : (setBuf k r s).ingress = s.ingress := .trans rfl rfl
@[simp] theorem setBuf_egq (k : Nat) (r : BufRec) (s : State) : (setBuf k r s).egq = s.egq := .trans rfl rfl
@[simp] theorem setBuf_ports (k : Nat) (r : BufRec) (s : State) : (setBuf k r s).ports = s.ports := .trans rfl rfl
@[simp] theorem setBuf_staging (k : Nat) (r : BufRec) (s : State) : (setBuf k r s).staging = s.staging := .trans rfl rfl
@[simp] theorem setBuf_hdrAt (k : Nat) (r : BufRec) (s : State) : (setBuf k r s).hdrAt = s.hdrAt := .trans rfl rfl
@[simp] theorem setBuf_clampLo (k : Nat) (r : BufRec) (s : State) : (setBuf k r s).clampLo = s.clampLo := .trans rfl rfl
@[simp] theorem setBuf_mgmtDown (k : Nat) (r : BufRec) (s : State) : (setBuf k r s).mgmtDown = s.mgmtDown := .trans rfl rfl
@[simp] theorem setBuf_policers (k : Nat) (r : BufRec) (s : State) : (setBuf k r s).policers = s.policers := .trans rfl rfl
@[simp] theorem setBuf_egLast (k : Nat) (r : BufRec) (s : State) : (setBuf k r s).egLast = s.egLast := .trans rfl rfl
@[simp] theorem setBuf_mgmtTx (k : Nat) (r : BufRec) (s : State) : (setBuf k r s).mgmtTx = s.mgmtTx := .trans rfl rfl
@[simp] theorem setBuf_arrivals (k : Nat) (r : BufRec) (s : State) : (setBuf k r s).arrivals = s.arrivals := .trans rfl rfl
@[simp] theorem setBuf_groups (k : Nat) (r : BufRec) (s : State) : (setBuf k r s).groups = s.groups := .trans rfl rfl
@[simp] theorem setBuf_scus (k : Nat) (r : BufRec) (s : State) : (setBuf k r s).scus = s.scus := .trans rfl rfl
@[simp] theorem setBuf_pues (k : Nat) (r : BufRec) (s : State) : (setBuf k r s).pues = s.pues := .trans rfl rfl
@[simp] theorem setBuf_dose (k : Nat) (r : BufRec) (s : State) : (setBuf k r s).dose = s.dose := .trans rfl rfl
@[simp] theorem setBuf_cvus (k : Nat) (r : BufRec) (s : State) : (setBuf k r s).cvus = s.cvus := .trans rfl rfl
@[simp] theorem setBuf_bundles (k : Nat) (r : BufRec) (s : State) : (setBuf k r s).bundles = s.bundles := .trans rfl rfl
@[simp] theorem setBuf_harness (k : Nat) (r : BufRec) (s : State) : (setBuf k r s).harness = s.harness := .trans rfl rfl
@[simp] theorem setBuf_wormOut (k : Nat) (r : BufRec) (s : State) : (setBuf k r s).wormOut = s.wormOut := .trans rfl rfl
@[simp] theorem setBuf_health (k : Nat) (r : BufRec) (s : State) : (setBuf k r s).health = s.health := .trans rfl rfl
@[simp] theorem setBuf_power (k : Nat) (r : BufRec) (s : State) : (setBuf k r s).power = s.power := .trans rfl rfl
@[simp] theorem setBuf_sig (k : Nat) (r : BufRec) (s : State) : (setBuf k r s).sig = s.sig := .trans rfl rfl
@[simp] theorem setBuf_evtFailed (k : Nat) (r : BufRec) (s : State) : (setBuf k r s).evtFailed = s.evtFailed := .trans rfl rfl
@[simp] theorem setBuf_answer (k : Nat) (r : BufRec) (s : State) : (setBuf k r s).answer = s.answer := .trans rfl rfl
@[simp] theorem setBuf_heldAcc (k : Nat) (r : BufRec) (s : State) : (setBuf k r s).heldAcc = s.heldAcc := .trans rfl rfl
@[simp] theorem setBuf_movers (k : Nat) (r : BufRec) (s : State) : (setBuf k r s).movers = s.movers := .trans rfl rfl
@[simp] theorem setBuf_runs (k : Nat) (r : BufRec) (s : State) : (setBuf k r s).runs = s.runs := .trans rfl rfl
@[simp] theorem setBuf_bad (k : Nat) (r : BufRec) (s : State) : (setBuf k r s).bad = s.bad := .trans rfl rfl
@[simp] theorem setBuf_dld (k : Nat) (r : BufRec) (s : State) : (setBuf k r s).dld = s.dld := .trans rfl rfl

/-! ### setOwner -/

@[simp] theorem setOwner_pending (cl o : Nat) (x : Owner) (s : State) : (setOwner cl o x s).pending = s.pending := .trans rfl rfl
@[simp] theorem setOwner_part (cl o : Nat) (x : Owner) (s : State) : (setOwner cl o x s).part = s.part := .trans rfl rfl
@[simp] theorem setOwner_uptime (cl o : Nat) (x : Owner) (s : State) : (setOwner cl o x s).uptime = s.uptime := .trans rfl rfl
@[simp] theorem setOwner_arithCount (cl o : Nat) (x : Owner) (s : State) : (setOwner cl o x s).arithCount = s.arithCount := .trans rfl rfl
@[simp] theorem setOwner_fwdCount (cl o : Nat) (x : Owner) (s : State) : (setOwner cl o x s).fwdCount = s.fwdCount := .trans rfl rfl
@[simp] theorem setOwner_fresh (cl o : Nat) (x : Owner) (s : State) : (setOwner cl o x s).fresh = s.fresh := .trans rfl rfl
@[simp] theorem setOwner_mem (cl o : Nat) (x : Owner) (s : State) : (setOwner cl o x s).mem = s.mem := .trans rfl rfl
@[simp] theorem setOwner_poison (cl o : Nat) (x : Owner) (s : State) : (setOwner cl o x s).poison = s.poison := .trans rfl rfl
@[simp] theorem setOwner_flaws (cl o : Nat) (x : Owner) (s : State) : (setOwner cl o x s).flaws = s.flaws := .trans rfl rfl
@[simp] theorem setOwner_odecc (cl o : Nat) (x : Owner) (s : State) : (setOwner cl o x s).odecc = s.odecc := .trans rfl rfl
@[simp] theorem setOwner_regs (cl o : Nat) (x : Owner) (s : State) : (setOwner cl o x s).regs = s.regs := .trans rfl rfl
@[simp] theorem setOwner_ctr64 (cl o : Nat) (x : Owner) (s : State) : (setOwner cl o x s).ctr64 = s.ctr64 := .trans rfl rfl
@[simp] theorem setOwner_queues (cl o : Nat) (x : Owner) (s : State) : (setOwner cl o x s).queues = s.queues := .trans rfl rfl
@[simp] theorem setOwner_sems (cl o : Nat) (x : Owner) (s : State) : (setOwner cl o x s).sems = s.sems := .trans rfl rfl
@[simp] theorem setOwner_flights (cl o : Nat) (x : Owner) (s : State) : (setOwner cl o x s).flights = s.flights := .trans rfl rfl
@[simp] theorem setOwner_tilePhys (cl o : Nat) (x : Owner) (s : State) : (setOwner cl o x s).tilePhys = s.tilePhys := .trans rfl rfl
@[simp] theorem setOwner_err (cl o : Nat) (x : Owner) (s : State) : (setOwner cl o x s).err = s.err := .trans rfl rfl
@[simp] theorem setOwner_rings (cl o : Nat) (x : Owner) (s : State) : (setOwner cl o x s).rings = s.rings := .trans rfl rfl
@[simp] theorem setOwner_irqs (cl o : Nat) (x : Owner) (s : State) : (setOwner cl o x s).irqs = s.irqs := .trans rfl rfl
@[simp] theorem setOwner_evtWidth (cl o : Nat) (x : Owner) (s : State) : (setOwner cl o x s).evtWidth = s.evtWidth := .trans rfl rfl
@[simp] theorem setOwner_snoop (cl o : Nat) (x : Owner) (s : State) : (setOwner cl o x s).snoop = s.snoop := .trans rfl rfl
@[simp] theorem setOwner_jobs (cl o : Nat) (x : Owner) (s : State) : (setOwner cl o x s).jobs = s.jobs := .trans rfl rfl
@[simp] theorem setOwner_keys (cl o : Nat) (x : Owner) (s : State) : (setOwner cl o x s).keys = s.keys := .trans rfl rfl
@[simp] theorem setOwner_mgmt (cl o : Nat) (x : Owner) (s : State) : (setOwner cl o x s).mgmt = s.mgmt := .trans rfl rfl
@[simp] theorem setOwner_presWait (cl o : Nat) (x : Owner) (s : State) : (setOwner cl o x s).presWait = s.presWait := .trans rfl rfl
@[simp] theorem setOwner_prot (cl o : Nat) (x : Owner) (s : State) : (setOwner cl o x s).prot = s.prot := .trans rfl rfl
@[simp] theorem setOwner_ctxs (cl o : Nat) (x : Owner) (s : State) : (setOwner cl o x s).ctxs = s.ctxs := .trans rfl rfl
@[simp] theorem setOwner_boot (cl o : Nat) (x : Owner) (s : State) : (setOwner cl o x s).boot = s.boot := .trans rfl rfl
@[simp] theorem setOwner_flash (cl o : Nat) (x : Owner) (s : State) : (setOwner cl o x s).flash = s.flash := .trans rfl rfl
@[simp] theorem setOwner_fuses (cl o : Nat) (x : Owner) (s : State) : (setOwner cl o x s).fuses = s.fuses := .trans rfl rfl
@[simp] theorem setOwner_tiles (cl o : Nat) (x : Owner) (s : State) : (setOwner cl o x s).tiles = s.tiles := .trans rfl rfl
@[simp] theorem setOwner_ft (cl o : Nat) (x : Owner) (s : State) : (setOwner cl o x s).ft = s.ft := .trans rfl rfl
@[simp] theorem setOwner_poolMib (cl o : Nat) (x : Owner) (s : State) : (setOwner cl o x s).poolMib = s.poolMib := .trans rfl rfl
@[simp] theorem setOwner_bufs (cl o : Nat) (x : Owner) (s : State) : (setOwner cl o x s).bufs = s.bufs := .trans rfl rfl
@[simp] theorem setOwner_ingress (cl o : Nat) (x : Owner) (s : State) : (setOwner cl o x s).ingress = s.ingress := .trans rfl rfl
@[simp] theorem setOwner_egq (cl o : Nat) (x : Owner) (s : State) : (setOwner cl o x s).egq = s.egq := .trans rfl rfl
@[simp] theorem setOwner_ports (cl o : Nat) (x : Owner) (s : State) : (setOwner cl o x s).ports = s.ports := .trans rfl rfl
@[simp] theorem setOwner_staging (cl o : Nat) (x : Owner) (s : State) : (setOwner cl o x s).staging = s.staging := .trans rfl rfl
@[simp] theorem setOwner_hdrAt (cl o : Nat) (x : Owner) (s : State) : (setOwner cl o x s).hdrAt = s.hdrAt := .trans rfl rfl
@[simp] theorem setOwner_clampLo (cl o : Nat) (x : Owner) (s : State) : (setOwner cl o x s).clampLo = s.clampLo := .trans rfl rfl
@[simp] theorem setOwner_mgmtDown (cl o : Nat) (x : Owner) (s : State) : (setOwner cl o x s).mgmtDown = s.mgmtDown := .trans rfl rfl
@[simp] theorem setOwner_policers (cl o : Nat) (x : Owner) (s : State) : (setOwner cl o x s).policers = s.policers := .trans rfl rfl
@[simp] theorem setOwner_egLast (cl o : Nat) (x : Owner) (s : State) : (setOwner cl o x s).egLast = s.egLast := .trans rfl rfl
@[simp] theorem setOwner_mgmtTx (cl o : Nat) (x : Owner) (s : State) : (setOwner cl o x s).mgmtTx = s.mgmtTx := .trans rfl rfl
@[simp] theorem setOwner_arrivals (cl o : Nat) (x : Owner) (s : State) : (setOwner cl o x s).arrivals = s.arrivals := .trans rfl rfl
@[simp] theorem setOwner_groups (cl o : Nat) (x : Owner) (s : State) : (setOwner cl o x s).groups = s.groups := .trans rfl rfl
@[simp] theorem setOwner_scus (cl o : Nat) (x : Owner) (s : State) : (setOwner cl o x s).scus = s.scus := .trans rfl rfl
@[simp] theorem setOwner_pues (cl o : Nat) (x : Owner) (s : State) : (setOwner cl o x s).pues = s.pues := .trans rfl rfl
@[simp] theorem setOwner_dose (cl o : Nat) (x : Owner) (s : State) : (setOwner cl o x s).dose = s.dose := .trans rfl rfl
@[simp] theorem setOwner_cvus (cl o : Nat) (x : Owner) (s : State) : (setOwner cl o x s).cvus = s.cvus := .trans rfl rfl
@[simp] theorem setOwner_bundles (cl o : Nat) (x : Owner) (s : State) : (setOwner cl o x s).bundles = s.bundles := .trans rfl rfl
@[simp] theorem setOwner_harness (cl o : Nat) (x : Owner) (s : State) : (setOwner cl o x s).harness = s.harness := .trans rfl rfl
@[simp] theorem setOwner_wormOut (cl o : Nat) (x : Owner) (s : State) : (setOwner cl o x s).wormOut = s.wormOut := .trans rfl rfl
@[simp] theorem setOwner_health (cl o : Nat) (x : Owner) (s : State) : (setOwner cl o x s).health = s.health := .trans rfl rfl
@[simp] theorem setOwner_power (cl o : Nat) (x : Owner) (s : State) : (setOwner cl o x s).power = s.power := .trans rfl rfl
@[simp] theorem setOwner_sig (cl o : Nat) (x : Owner) (s : State) : (setOwner cl o x s).sig = s.sig := .trans rfl rfl
@[simp] theorem setOwner_evtFailed (cl o : Nat) (x : Owner) (s : State) : (setOwner cl o x s).evtFailed = s.evtFailed := .trans rfl rfl
@[simp] theorem setOwner_answer (cl o : Nat) (x : Owner) (s : State) : (setOwner cl o x s).answer = s.answer := .trans rfl rfl
@[simp] theorem setOwner_heldAcc (cl o : Nat) (x : Owner) (s : State) : (setOwner cl o x s).heldAcc = s.heldAcc := .trans rfl rfl
@[simp] theorem setOwner_movers (cl o : Nat) (x : Owner) (s : State) : (setOwner cl o x s).movers = s.movers := .trans rfl rfl
@[simp] theorem setOwner_runs (cl o : Nat) (x : Owner) (s : State) : (setOwner cl o x s).runs = s.runs := .trans rfl rfl
@[simp] theorem setOwner_bad (cl o : Nat) (x : Owner) (s : State) : (setOwner cl o x s).bad = s.bad := .trans rfl rfl
@[simp] theorem setOwner_dld (cl o : Nat) (x : Owner) (s : State) : (setOwner cl o x s).dld = s.dld := .trans rfl rfl

/-! ### setPort -/

@[simp] theorem setPort_pending (p : Nat) (x : PortSt) (s : State) : (setPort p x s).pending = s.pending := .trans rfl rfl
@[simp] theorem setPort_part (p : Nat) (x : PortSt) (s : State) : (setPort p x s).part = s.part := .trans rfl rfl
@[simp] theorem setPort_uptime (p : Nat) (x : PortSt) (s : State) : (setPort p x s).uptime = s.uptime := .trans rfl rfl
@[simp] theorem setPort_arithCount (p : Nat) (x : PortSt) (s : State) : (setPort p x s).arithCount = s.arithCount := .trans rfl rfl
@[simp] theorem setPort_fwdCount (p : Nat) (x : PortSt) (s : State) : (setPort p x s).fwdCount = s.fwdCount := .trans rfl rfl
@[simp] theorem setPort_fresh (p : Nat) (x : PortSt) (s : State) : (setPort p x s).fresh = s.fresh := .trans rfl rfl
@[simp] theorem setPort_mem (p : Nat) (x : PortSt) (s : State) : (setPort p x s).mem = s.mem := .trans rfl rfl
@[simp] theorem setPort_poison (p : Nat) (x : PortSt) (s : State) : (setPort p x s).poison = s.poison := .trans rfl rfl
@[simp] theorem setPort_flaws (p : Nat) (x : PortSt) (s : State) : (setPort p x s).flaws = s.flaws := .trans rfl rfl
@[simp] theorem setPort_odecc (p : Nat) (x : PortSt) (s : State) : (setPort p x s).odecc = s.odecc := .trans rfl rfl
@[simp] theorem setPort_regs (p : Nat) (x : PortSt) (s : State) : (setPort p x s).regs = s.regs := .trans rfl rfl
@[simp] theorem setPort_ctr64 (p : Nat) (x : PortSt) (s : State) : (setPort p x s).ctr64 = s.ctr64 := .trans rfl rfl
@[simp] theorem setPort_queues (p : Nat) (x : PortSt) (s : State) : (setPort p x s).queues = s.queues := .trans rfl rfl
@[simp] theorem setPort_sems (p : Nat) (x : PortSt) (s : State) : (setPort p x s).sems = s.sems := .trans rfl rfl
@[simp] theorem setPort_flights (p : Nat) (x : PortSt) (s : State) : (setPort p x s).flights = s.flights := .trans rfl rfl
@[simp] theorem setPort_tilePhys (p : Nat) (x : PortSt) (s : State) : (setPort p x s).tilePhys = s.tilePhys := .trans rfl rfl
@[simp] theorem setPort_err (p : Nat) (x : PortSt) (s : State) : (setPort p x s).err = s.err := .trans rfl rfl
@[simp] theorem setPort_rings (p : Nat) (x : PortSt) (s : State) : (setPort p x s).rings = s.rings := .trans rfl rfl
@[simp] theorem setPort_irqs (p : Nat) (x : PortSt) (s : State) : (setPort p x s).irqs = s.irqs := .trans rfl rfl
@[simp] theorem setPort_evtWidth (p : Nat) (x : PortSt) (s : State) : (setPort p x s).evtWidth = s.evtWidth := .trans rfl rfl
@[simp] theorem setPort_snoop (p : Nat) (x : PortSt) (s : State) : (setPort p x s).snoop = s.snoop := .trans rfl rfl
@[simp] theorem setPort_jobs (p : Nat) (x : PortSt) (s : State) : (setPort p x s).jobs = s.jobs := .trans rfl rfl
@[simp] theorem setPort_keys (p : Nat) (x : PortSt) (s : State) : (setPort p x s).keys = s.keys := .trans rfl rfl
@[simp] theorem setPort_mgmt (p : Nat) (x : PortSt) (s : State) : (setPort p x s).mgmt = s.mgmt := .trans rfl rfl
@[simp] theorem setPort_presWait (p : Nat) (x : PortSt) (s : State) : (setPort p x s).presWait = s.presWait := .trans rfl rfl
@[simp] theorem setPort_prot (p : Nat) (x : PortSt) (s : State) : (setPort p x s).prot = s.prot := .trans rfl rfl
@[simp] theorem setPort_ctxs (p : Nat) (x : PortSt) (s : State) : (setPort p x s).ctxs = s.ctxs := .trans rfl rfl
@[simp] theorem setPort_boot (p : Nat) (x : PortSt) (s : State) : (setPort p x s).boot = s.boot := .trans rfl rfl
@[simp] theorem setPort_flash (p : Nat) (x : PortSt) (s : State) : (setPort p x s).flash = s.flash := .trans rfl rfl
@[simp] theorem setPort_fuses (p : Nat) (x : PortSt) (s : State) : (setPort p x s).fuses = s.fuses := .trans rfl rfl
@[simp] theorem setPort_tiles (p : Nat) (x : PortSt) (s : State) : (setPort p x s).tiles = s.tiles := .trans rfl rfl
@[simp] theorem setPort_ft (p : Nat) (x : PortSt) (s : State) : (setPort p x s).ft = s.ft := .trans rfl rfl
@[simp] theorem setPort_poolMib (p : Nat) (x : PortSt) (s : State) : (setPort p x s).poolMib = s.poolMib := .trans rfl rfl
@[simp] theorem setPort_bufs (p : Nat) (x : PortSt) (s : State) : (setPort p x s).bufs = s.bufs := .trans rfl rfl
@[simp] theorem setPort_owners (p : Nat) (x : PortSt) (s : State) : (setPort p x s).owners = s.owners := .trans rfl rfl
@[simp] theorem setPort_ingress (p : Nat) (x : PortSt) (s : State) : (setPort p x s).ingress = s.ingress := .trans rfl rfl
@[simp] theorem setPort_egq (p : Nat) (x : PortSt) (s : State) : (setPort p x s).egq = s.egq := .trans rfl rfl
@[simp] theorem setPort_staging (p : Nat) (x : PortSt) (s : State) : (setPort p x s).staging = s.staging := .trans rfl rfl
@[simp] theorem setPort_hdrAt (p : Nat) (x : PortSt) (s : State) : (setPort p x s).hdrAt = s.hdrAt := .trans rfl rfl
@[simp] theorem setPort_clampLo (p : Nat) (x : PortSt) (s : State) : (setPort p x s).clampLo = s.clampLo := .trans rfl rfl
@[simp] theorem setPort_mgmtDown (p : Nat) (x : PortSt) (s : State) : (setPort p x s).mgmtDown = s.mgmtDown := .trans rfl rfl
@[simp] theorem setPort_policers (p : Nat) (x : PortSt) (s : State) : (setPort p x s).policers = s.policers := .trans rfl rfl
@[simp] theorem setPort_egLast (p : Nat) (x : PortSt) (s : State) : (setPort p x s).egLast = s.egLast := .trans rfl rfl
@[simp] theorem setPort_mgmtTx (p : Nat) (x : PortSt) (s : State) : (setPort p x s).mgmtTx = s.mgmtTx := .trans rfl rfl
@[simp] theorem setPort_arrivals (p : Nat) (x : PortSt) (s : State) : (setPort p x s).arrivals = s.arrivals := .trans rfl rfl
@[simp] theorem setPort_groups (p : Nat) (x : PortSt) (s : State) : (setPort p x s).groups = s.groups := .trans rfl rfl
@[simp] theorem setPort_scus (p : Nat) (x : PortSt) (s : State) : (setPort p x s).scus = s.scus := .trans rfl rfl
@[simp] theorem setPort_pues (p : Nat) (x : PortSt) (s : State) : (setPort p x s).pues = s.pues := .trans rfl rfl
@[simp] theorem setPort_dose (p : Nat) (x : PortSt) (s : State) : (setPort p x s).dose = s.dose := .trans rfl rfl
@[simp] theorem setPort_cvus (p : Nat) (x : PortSt) (s : State) : (setPort p x s).cvus = s.cvus := .trans rfl rfl
@[simp] theorem setPort_bundles (p : Nat) (x : PortSt) (s : State) : (setPort p x s).bundles = s.bundles := .trans rfl rfl
@[simp] theorem setPort_harness (p : Nat) (x : PortSt) (s : State) : (setPort p x s).harness = s.harness := .trans rfl rfl
@[simp] theorem setPort_wormOut (p : Nat) (x : PortSt) (s : State) : (setPort p x s).wormOut = s.wormOut := .trans rfl rfl
@[simp] theorem setPort_health (p : Nat) (x : PortSt) (s : State) : (setPort p x s).health = s.health := .trans rfl rfl
@[simp] theorem setPort_power (p : Nat) (x : PortSt) (s : State) : (setPort p x s).power = s.power := .trans rfl rfl
@[simp] theorem setPort_sig (p : Nat) (x : PortSt) (s : State) : (setPort p x s).sig = s.sig := .trans rfl rfl
@[simp] theorem setPort_evtFailed (p : Nat) (x : PortSt) (s : State) : (setPort p x s).evtFailed = s.evtFailed := .trans rfl rfl
@[simp] theorem setPort_answer (p : Nat) (x : PortSt) (s : State) : (setPort p x s).answer = s.answer := .trans rfl rfl
@[simp] theorem setPort_heldAcc (p : Nat) (x : PortSt) (s : State) : (setPort p x s).heldAcc = s.heldAcc := .trans rfl rfl
@[simp] theorem setPort_movers (p : Nat) (x : PortSt) (s : State) : (setPort p x s).movers = s.movers := .trans rfl rfl
@[simp] theorem setPort_runs (p : Nat) (x : PortSt) (s : State) : (setPort p x s).runs = s.runs := .trans rfl rfl
@[simp] theorem setPort_bad (p : Nat) (x : PortSt) (s : State) : (setPort p x s).bad = s.bad := .trans rfl rfl
@[simp] theorem setPort_dld (p : Nat) (x : PortSt) (s : State) : (setPort p x s).dld = s.dld := .trans rfl rfl

/-! ### setRg -/

@[simp] theorem setRg_pending (r : Nat) (x : RegionSt) (s : State) : (setRg r x s).pending = s.pending := .trans rfl rfl
@[simp] theorem setRg_part (r : Nat) (x : RegionSt) (s : State) : (setRg r x s).part = s.part := .trans rfl rfl
@[simp] theorem setRg_uptime (r : Nat) (x : RegionSt) (s : State) : (setRg r x s).uptime = s.uptime := .trans rfl rfl
@[simp] theorem setRg_arithCount (r : Nat) (x : RegionSt) (s : State) : (setRg r x s).arithCount = s.arithCount := .trans rfl rfl
@[simp] theorem setRg_fwdCount (r : Nat) (x : RegionSt) (s : State) : (setRg r x s).fwdCount = s.fwdCount := .trans rfl rfl
@[simp] theorem setRg_fresh (r : Nat) (x : RegionSt) (s : State) : (setRg r x s).fresh = s.fresh := .trans rfl rfl
@[simp] theorem setRg_mem (r : Nat) (x : RegionSt) (s : State) : (setRg r x s).mem = s.mem := .trans rfl rfl
@[simp] theorem setRg_poison (r : Nat) (x : RegionSt) (s : State) : (setRg r x s).poison = s.poison := .trans rfl rfl
@[simp] theorem setRg_flaws (r : Nat) (x : RegionSt) (s : State) : (setRg r x s).flaws = s.flaws := .trans rfl rfl
@[simp] theorem setRg_odecc (r : Nat) (x : RegionSt) (s : State) : (setRg r x s).odecc = s.odecc := .trans rfl rfl
@[simp] theorem setRg_regs (r : Nat) (x : RegionSt) (s : State) : (setRg r x s).regs = s.regs := .trans rfl rfl
@[simp] theorem setRg_ctr64 (r : Nat) (x : RegionSt) (s : State) : (setRg r x s).ctr64 = s.ctr64 := .trans rfl rfl
@[simp] theorem setRg_queues (r : Nat) (x : RegionSt) (s : State) : (setRg r x s).queues = s.queues := .trans rfl rfl
@[simp] theorem setRg_sems (r : Nat) (x : RegionSt) (s : State) : (setRg r x s).sems = s.sems := .trans rfl rfl
@[simp] theorem setRg_flights (r : Nat) (x : RegionSt) (s : State) : (setRg r x s).flights = s.flights := .trans rfl rfl
@[simp] theorem setRg_tilePhys (r : Nat) (x : RegionSt) (s : State) : (setRg r x s).tilePhys = s.tilePhys := .trans rfl rfl
@[simp] theorem setRg_err (r : Nat) (x : RegionSt) (s : State) : (setRg r x s).err = s.err := .trans rfl rfl
@[simp] theorem setRg_rings (r : Nat) (x : RegionSt) (s : State) : (setRg r x s).rings = s.rings := .trans rfl rfl
@[simp] theorem setRg_irqs (r : Nat) (x : RegionSt) (s : State) : (setRg r x s).irqs = s.irqs := .trans rfl rfl
@[simp] theorem setRg_evtWidth (r : Nat) (x : RegionSt) (s : State) : (setRg r x s).evtWidth = s.evtWidth := .trans rfl rfl
@[simp] theorem setRg_snoop (r : Nat) (x : RegionSt) (s : State) : (setRg r x s).snoop = s.snoop := .trans rfl rfl
@[simp] theorem setRg_jobs (r : Nat) (x : RegionSt) (s : State) : (setRg r x s).jobs = s.jobs := .trans rfl rfl
@[simp] theorem setRg_keys (r : Nat) (x : RegionSt) (s : State) : (setRg r x s).keys = s.keys := .trans rfl rfl
@[simp] theorem setRg_mgmt (r : Nat) (x : RegionSt) (s : State) : (setRg r x s).mgmt = s.mgmt := .trans rfl rfl
@[simp] theorem setRg_presWait (r : Nat) (x : RegionSt) (s : State) : (setRg r x s).presWait = s.presWait := .trans rfl rfl
@[simp] theorem setRg_prot (r : Nat) (x : RegionSt) (s : State) : (setRg r x s).prot = s.prot := .trans rfl rfl
@[simp] theorem setRg_ctxs (r : Nat) (x : RegionSt) (s : State) : (setRg r x s).ctxs = s.ctxs := .trans rfl rfl
@[simp] theorem setRg_boot (r : Nat) (x : RegionSt) (s : State) : (setRg r x s).boot = s.boot := .trans rfl rfl
@[simp] theorem setRg_flash (r : Nat) (x : RegionSt) (s : State) : (setRg r x s).flash = s.flash := .trans rfl rfl
@[simp] theorem setRg_fuses (r : Nat) (x : RegionSt) (s : State) : (setRg r x s).fuses = s.fuses := .trans rfl rfl
@[simp] theorem setRg_tiles (r : Nat) (x : RegionSt) (s : State) : (setRg r x s).tiles = s.tiles := .trans rfl rfl
@[simp] theorem setRg_ft (r : Nat) (x : RegionSt) (s : State) : (setRg r x s).ft = s.ft := .trans rfl rfl
@[simp] theorem setRg_poolMib (r : Nat) (x : RegionSt) (s : State) : (setRg r x s).poolMib = s.poolMib := .trans rfl rfl
@[simp] theorem setRg_bufs (r : Nat) (x : RegionSt) (s : State) : (setRg r x s).bufs = s.bufs := .trans rfl rfl
@[simp] theorem setRg_owners (r : Nat) (x : RegionSt) (s : State) : (setRg r x s).owners = s.owners := .trans rfl rfl
@[simp] theorem setRg_ingress (r : Nat) (x : RegionSt) (s : State) : (setRg r x s).ingress = s.ingress := .trans rfl rfl
@[simp] theorem setRg_egq (r : Nat) (x : RegionSt) (s : State) : (setRg r x s).egq = s.egq := .trans rfl rfl
@[simp] theorem setRg_ports (r : Nat) (x : RegionSt) (s : State) : (setRg r x s).ports = s.ports := .trans rfl rfl
@[simp] theorem setRg_staging (r : Nat) (x : RegionSt) (s : State) : (setRg r x s).staging = s.staging := .trans rfl rfl
@[simp] theorem setRg_hdrAt (r : Nat) (x : RegionSt) (s : State) : (setRg r x s).hdrAt = s.hdrAt := .trans rfl rfl
@[simp] theorem setRg_clampLo (r : Nat) (x : RegionSt) (s : State) : (setRg r x s).clampLo = s.clampLo := .trans rfl rfl
@[simp] theorem setRg_mgmtDown (r : Nat) (x : RegionSt) (s : State) : (setRg r x s).mgmtDown = s.mgmtDown := .trans rfl rfl
@[simp] theorem setRg_policers (r : Nat) (x : RegionSt) (s : State) : (setRg r x s).policers = s.policers := .trans rfl rfl
@[simp] theorem setRg_egLast (r : Nat) (x : RegionSt) (s : State) : (setRg r x s).egLast = s.egLast := .trans rfl rfl
@[simp] theorem setRg_mgmtTx (r : Nat) (x : RegionSt) (s : State) : (setRg r x s).mgmtTx = s.mgmtTx := .trans rfl rfl
@[simp] theorem setRg_arrivals (r : Nat) (x : RegionSt) (s : State) : (setRg r x s).arrivals = s.arrivals := .trans rfl rfl
@[simp] theorem setRg_groups (r : Nat) (x : RegionSt) (s : State) : (setRg r x s).groups = s.groups := .trans rfl rfl
@[simp] theorem setRg_scus (r : Nat) (x : RegionSt) (s : State) : (setRg r x s).scus = s.scus := .trans rfl rfl
@[simp] theorem setRg_pues (r : Nat) (x : RegionSt) (s : State) : (setRg r x s).pues = s.pues := .trans rfl rfl
@[simp] theorem setRg_dose (r : Nat) (x : RegionSt) (s : State) : (setRg r x s).dose = s.dose := .trans rfl rfl
@[simp] theorem setRg_cvus (r : Nat) (x : RegionSt) (s : State) : (setRg r x s).cvus = s.cvus := .trans rfl rfl
@[simp] theorem setRg_bundles (r : Nat) (x : RegionSt) (s : State) : (setRg r x s).bundles = s.bundles := .trans rfl rfl
@[simp] theorem setRg_harness (r : Nat) (x : RegionSt) (s : State) : (setRg r x s).harness = s.harness := .trans rfl rfl
@[simp] theorem setRg_wormOut (r : Nat) (x : RegionSt) (s : State) : (setRg r x s).wormOut = s.wormOut := .trans rfl rfl
@[simp] theorem setRg_health (r : Nat) (x : RegionSt) (s : State) : (setRg r x s).health = s.health := .trans rfl rfl
@[simp] theorem setRg_sig (r : Nat) (x : RegionSt) (s : State) : (setRg r x s).sig = s.sig := .trans rfl rfl
@[simp] theorem setRg_evtFailed (r : Nat) (x : RegionSt) (s : State) : (setRg r x s).evtFailed = s.evtFailed := .trans rfl rfl
@[simp] theorem setRg_answer (r : Nat) (x : RegionSt) (s : State) : (setRg r x s).answer = s.answer := .trans rfl rfl
@[simp] theorem setRg_heldAcc (r : Nat) (x : RegionSt) (s : State) : (setRg r x s).heldAcc = s.heldAcc := .trans rfl rfl
@[simp] theorem setRg_movers (r : Nat) (x : RegionSt) (s : State) : (setRg r x s).movers = s.movers := .trans rfl rfl
@[simp] theorem setRg_runs (r : Nat) (x : RegionSt) (s : State) : (setRg r x s).runs = s.runs := .trans rfl rfl
@[simp] theorem setRg_bad (r : Nat) (x : RegionSt) (s : State) : (setRg r x s).bad = s.bad := .trans rfl rfl
@[simp] theorem setRg_dld (r : Nat) (x : RegionSt) (s : State) : (setRg r x s).dld = s.dld := .trans rfl rfl

/-! ### modSig -/

@[simp] theorem modSig_pending (f : Signals → Signals) (s : State) : (modSig f s).pending = s.pending := .trans rfl rfl
@[simp] theorem modSig_part (f : Signals → Signals) (s : State) : (modSig f s).part = s.part := .trans rfl rfl
@[simp] theorem modSig_uptime (f : Signals → Signals) (s : State) : (modSig f s).uptime = s.uptime := .trans rfl rfl
@[simp] theorem modSig_arithCount (f : Signals → Signals) (s : State) : (modSig f s).arithCount = s.arithCount := .trans rfl rfl
@[simp] theorem modSig_fwdCount (f : Signals → Signals) (s : State) : (modSig f s).fwdCount = s.fwdCount := .trans rfl rfl
@[simp] theorem modSig_fresh (f : Signals → Signals) (s : State) : (modSig f s).fresh = s.fresh := .trans rfl rfl
@[simp] theorem modSig_mem (f : Signals → Signals) (s : State) : (modSig f s).mem = s.mem := .trans rfl rfl
@[simp] theorem modSig_poison (f : Signals → Signals) (s : State) : (modSig f s).poison = s.poison := .trans rfl rfl
@[simp] theorem modSig_flaws (f : Signals → Signals) (s : State) : (modSig f s).flaws = s.flaws := .trans rfl rfl
@[simp] theorem modSig_odecc (f : Signals → Signals) (s : State) : (modSig f s).odecc = s.odecc := .trans rfl rfl
@[simp] theorem modSig_regs (f : Signals → Signals) (s : State) : (modSig f s).regs = s.regs := .trans rfl rfl
@[simp] theorem modSig_ctr64 (f : Signals → Signals) (s : State) : (modSig f s).ctr64 = s.ctr64 := .trans rfl rfl
@[simp] theorem modSig_queues (f : Signals → Signals) (s : State) : (modSig f s).queues = s.queues := .trans rfl rfl
@[simp] theorem modSig_sems (f : Signals → Signals) (s : State) : (modSig f s).sems = s.sems := .trans rfl rfl
@[simp] theorem modSig_flights (f : Signals → Signals) (s : State) : (modSig f s).flights = s.flights := .trans rfl rfl
@[simp] theorem modSig_tilePhys (f : Signals → Signals) (s : State) : (modSig f s).tilePhys = s.tilePhys := .trans rfl rfl
@[simp] theorem modSig_err (f : Signals → Signals) (s : State) : (modSig f s).err = s.err := .trans rfl rfl
@[simp] theorem modSig_rings (f : Signals → Signals) (s : State) : (modSig f s).rings = s.rings := .trans rfl rfl
@[simp] theorem modSig_irqs (f : Signals → Signals) (s : State) : (modSig f s).irqs = s.irqs := .trans rfl rfl
@[simp] theorem modSig_evtWidth (f : Signals → Signals) (s : State) : (modSig f s).evtWidth = s.evtWidth := .trans rfl rfl
@[simp] theorem modSig_snoop (f : Signals → Signals) (s : State) : (modSig f s).snoop = s.snoop := .trans rfl rfl
@[simp] theorem modSig_jobs (f : Signals → Signals) (s : State) : (modSig f s).jobs = s.jobs := .trans rfl rfl
@[simp] theorem modSig_keys (f : Signals → Signals) (s : State) : (modSig f s).keys = s.keys := .trans rfl rfl
@[simp] theorem modSig_mgmt (f : Signals → Signals) (s : State) : (modSig f s).mgmt = s.mgmt := .trans rfl rfl
@[simp] theorem modSig_presWait (f : Signals → Signals) (s : State) : (modSig f s).presWait = s.presWait := .trans rfl rfl
@[simp] theorem modSig_prot (f : Signals → Signals) (s : State) : (modSig f s).prot = s.prot := .trans rfl rfl
@[simp] theorem modSig_ctxs (f : Signals → Signals) (s : State) : (modSig f s).ctxs = s.ctxs := .trans rfl rfl
@[simp] theorem modSig_boot (f : Signals → Signals) (s : State) : (modSig f s).boot = s.boot := .trans rfl rfl
@[simp] theorem modSig_flash (f : Signals → Signals) (s : State) : (modSig f s).flash = s.flash := .trans rfl rfl
@[simp] theorem modSig_fuses (f : Signals → Signals) (s : State) : (modSig f s).fuses = s.fuses := .trans rfl rfl
@[simp] theorem modSig_tiles (f : Signals → Signals) (s : State) : (modSig f s).tiles = s.tiles := .trans rfl rfl
@[simp] theorem modSig_ft (f : Signals → Signals) (s : State) : (modSig f s).ft = s.ft := .trans rfl rfl
@[simp] theorem modSig_poolMib (f : Signals → Signals) (s : State) : (modSig f s).poolMib = s.poolMib := .trans rfl rfl
@[simp] theorem modSig_bufs (f : Signals → Signals) (s : State) : (modSig f s).bufs = s.bufs := .trans rfl rfl
@[simp] theorem modSig_owners (f : Signals → Signals) (s : State) : (modSig f s).owners = s.owners := .trans rfl rfl
@[simp] theorem modSig_ingress (f : Signals → Signals) (s : State) : (modSig f s).ingress = s.ingress := .trans rfl rfl
@[simp] theorem modSig_egq (f : Signals → Signals) (s : State) : (modSig f s).egq = s.egq := .trans rfl rfl
@[simp] theorem modSig_ports (f : Signals → Signals) (s : State) : (modSig f s).ports = s.ports := .trans rfl rfl
@[simp] theorem modSig_staging (f : Signals → Signals) (s : State) : (modSig f s).staging = s.staging := .trans rfl rfl
@[simp] theorem modSig_hdrAt (f : Signals → Signals) (s : State) : (modSig f s).hdrAt = s.hdrAt := .trans rfl rfl
@[simp] theorem modSig_clampLo (f : Signals → Signals) (s : State) : (modSig f s).clampLo = s.clampLo := .trans rfl rfl
@[simp] theorem modSig_mgmtDown (f : Signals → Signals) (s : State) : (modSig f s).mgmtDown = s.mgmtDown := .trans rfl rfl
@[simp] theorem modSig_policers (f : Signals → Signals) (s : State) : (modSig f s).policers = s.policers := .trans rfl rfl
@[simp] theorem modSig_egLast (f : Signals → Signals) (s : State) : (modSig f s).egLast = s.egLast := .trans rfl rfl
@[simp] theorem modSig_mgmtTx (f : Signals → Signals) (s : State) : (modSig f s).mgmtTx = s.mgmtTx := .trans rfl rfl
@[simp] theorem modSig_arrivals (f : Signals → Signals) (s : State) : (modSig f s).arrivals = s.arrivals := .trans rfl rfl
@[simp] theorem modSig_groups (f : Signals → Signals) (s : State) : (modSig f s).groups = s.groups := .trans rfl rfl
@[simp] theorem modSig_scus (f : Signals → Signals) (s : State) : (modSig f s).scus = s.scus := .trans rfl rfl
@[simp] theorem modSig_pues (f : Signals → Signals) (s : State) : (modSig f s).pues = s.pues := .trans rfl rfl
@[simp] theorem modSig_dose (f : Signals → Signals) (s : State) : (modSig f s).dose = s.dose := .trans rfl rfl
@[simp] theorem modSig_cvus (f : Signals → Signals) (s : State) : (modSig f s).cvus = s.cvus := .trans rfl rfl
@[simp] theorem modSig_bundles (f : Signals → Signals) (s : State) : (modSig f s).bundles = s.bundles := .trans rfl rfl
@[simp] theorem modSig_harness (f : Signals → Signals) (s : State) : (modSig f s).harness = s.harness := .trans rfl rfl
@[simp] theorem modSig_wormOut (f : Signals → Signals) (s : State) : (modSig f s).wormOut = s.wormOut := .trans rfl rfl
@[simp] theorem modSig_health (f : Signals → Signals) (s : State) : (modSig f s).health = s.health := .trans rfl rfl
@[simp] theorem modSig_power (f : Signals → Signals) (s : State) : (modSig f s).power = s.power := .trans rfl rfl
@[simp] theorem modSig_evtFailed (f : Signals → Signals) (s : State) : (modSig f s).evtFailed = s.evtFailed := .trans rfl rfl
@[simp] theorem modSig_answer (f : Signals → Signals) (s : State) : (modSig f s).answer = s.answer := .trans rfl rfl
@[simp] theorem modSig_heldAcc (f : Signals → Signals) (s : State) : (modSig f s).heldAcc = s.heldAcc := .trans rfl rfl
@[simp] theorem modSig_movers (f : Signals → Signals) (s : State) : (modSig f s).movers = s.movers := .trans rfl rfl
@[simp] theorem modSig_runs (f : Signals → Signals) (s : State) : (modSig f s).runs = s.runs := .trans rfl rfl
@[simp] theorem modSig_bad (f : Signals → Signals) (s : State) : (modSig f s).bad = s.bad := .trans rfl rfl
@[simp] theorem modSig_dld (f : Signals → Signals) (s : State) : (modSig f s).dld = s.dld := .trans rfl rfl

/-! ### modHs -/

@[simp] theorem modHs_pending (f : Harness → Harness) (s : State) : (modHs f s).pending = s.pending := .trans rfl rfl
@[simp] theorem modHs_part (f : Harness → Harness) (s : State) : (modHs f s).part = s.part := .trans rfl rfl
@[simp] theorem modHs_uptime (f : Harness → Harness) (s : State) : (modHs f s).uptime = s.uptime := .trans rfl rfl
@[simp] theorem modHs_arithCount (f : Harness → Harness) (s : State) : (modHs f s).arithCount = s.arithCount := .trans rfl rfl
@[simp] theorem modHs_fwdCount (f : Harness → Harness) (s : State) : (modHs f s).fwdCount = s.fwdCount := .trans rfl rfl
@[simp] theorem modHs_fresh (f : Harness → Harness) (s : State) : (modHs f s).fresh = s.fresh := .trans rfl rfl
@[simp] theorem modHs_mem (f : Harness → Harness) (s : State) : (modHs f s).mem = s.mem := .trans rfl rfl
@[simp] theorem modHs_poison (f : Harness → Harness) (s : State) : (modHs f s).poison = s.poison := .trans rfl rfl
@[simp] theorem modHs_flaws (f : Harness → Harness) (s : State) : (modHs f s).flaws = s.flaws := .trans rfl rfl
@[simp] theorem modHs_odecc (f : Harness → Harness) (s : State) : (modHs f s).odecc = s.odecc := .trans rfl rfl
@[simp] theorem modHs_regs (f : Harness → Harness) (s : State) : (modHs f s).regs = s.regs := .trans rfl rfl
@[simp] theorem modHs_ctr64 (f : Harness → Harness) (s : State) : (modHs f s).ctr64 = s.ctr64 := .trans rfl rfl
@[simp] theorem modHs_queues (f : Harness → Harness) (s : State) : (modHs f s).queues = s.queues := .trans rfl rfl
@[simp] theorem modHs_sems (f : Harness → Harness) (s : State) : (modHs f s).sems = s.sems := .trans rfl rfl
@[simp] theorem modHs_flights (f : Harness → Harness) (s : State) : (modHs f s).flights = s.flights := .trans rfl rfl
@[simp] theorem modHs_tilePhys (f : Harness → Harness) (s : State) : (modHs f s).tilePhys = s.tilePhys := .trans rfl rfl
@[simp] theorem modHs_err (f : Harness → Harness) (s : State) : (modHs f s).err = s.err := .trans rfl rfl
@[simp] theorem modHs_rings (f : Harness → Harness) (s : State) : (modHs f s).rings = s.rings := .trans rfl rfl
@[simp] theorem modHs_irqs (f : Harness → Harness) (s : State) : (modHs f s).irqs = s.irqs := .trans rfl rfl
@[simp] theorem modHs_evtWidth (f : Harness → Harness) (s : State) : (modHs f s).evtWidth = s.evtWidth := .trans rfl rfl
@[simp] theorem modHs_snoop (f : Harness → Harness) (s : State) : (modHs f s).snoop = s.snoop := .trans rfl rfl
@[simp] theorem modHs_jobs (f : Harness → Harness) (s : State) : (modHs f s).jobs = s.jobs := .trans rfl rfl
@[simp] theorem modHs_keys (f : Harness → Harness) (s : State) : (modHs f s).keys = s.keys := .trans rfl rfl
@[simp] theorem modHs_mgmt (f : Harness → Harness) (s : State) : (modHs f s).mgmt = s.mgmt := .trans rfl rfl
@[simp] theorem modHs_presWait (f : Harness → Harness) (s : State) : (modHs f s).presWait = s.presWait := .trans rfl rfl
@[simp] theorem modHs_prot (f : Harness → Harness) (s : State) : (modHs f s).prot = s.prot := .trans rfl rfl
@[simp] theorem modHs_ctxs (f : Harness → Harness) (s : State) : (modHs f s).ctxs = s.ctxs := .trans rfl rfl
@[simp] theorem modHs_boot (f : Harness → Harness) (s : State) : (modHs f s).boot = s.boot := .trans rfl rfl
@[simp] theorem modHs_flash (f : Harness → Harness) (s : State) : (modHs f s).flash = s.flash := .trans rfl rfl
@[simp] theorem modHs_fuses (f : Harness → Harness) (s : State) : (modHs f s).fuses = s.fuses := .trans rfl rfl
@[simp] theorem modHs_tiles (f : Harness → Harness) (s : State) : (modHs f s).tiles = s.tiles := .trans rfl rfl
@[simp] theorem modHs_ft (f : Harness → Harness) (s : State) : (modHs f s).ft = s.ft := .trans rfl rfl
@[simp] theorem modHs_poolMib (f : Harness → Harness) (s : State) : (modHs f s).poolMib = s.poolMib := .trans rfl rfl
@[simp] theorem modHs_bufs (f : Harness → Harness) (s : State) : (modHs f s).bufs = s.bufs := .trans rfl rfl
@[simp] theorem modHs_owners (f : Harness → Harness) (s : State) : (modHs f s).owners = s.owners := .trans rfl rfl
@[simp] theorem modHs_ingress (f : Harness → Harness) (s : State) : (modHs f s).ingress = s.ingress := .trans rfl rfl
@[simp] theorem modHs_egq (f : Harness → Harness) (s : State) : (modHs f s).egq = s.egq := .trans rfl rfl
@[simp] theorem modHs_ports (f : Harness → Harness) (s : State) : (modHs f s).ports = s.ports := .trans rfl rfl
@[simp] theorem modHs_staging (f : Harness → Harness) (s : State) : (modHs f s).staging = s.staging := .trans rfl rfl
@[simp] theorem modHs_hdrAt (f : Harness → Harness) (s : State) : (modHs f s).hdrAt = s.hdrAt := .trans rfl rfl
@[simp] theorem modHs_clampLo (f : Harness → Harness) (s : State) : (modHs f s).clampLo = s.clampLo := .trans rfl rfl
@[simp] theorem modHs_mgmtDown (f : Harness → Harness) (s : State) : (modHs f s).mgmtDown = s.mgmtDown := .trans rfl rfl
@[simp] theorem modHs_policers (f : Harness → Harness) (s : State) : (modHs f s).policers = s.policers := .trans rfl rfl
@[simp] theorem modHs_egLast (f : Harness → Harness) (s : State) : (modHs f s).egLast = s.egLast := .trans rfl rfl
@[simp] theorem modHs_mgmtTx (f : Harness → Harness) (s : State) : (modHs f s).mgmtTx = s.mgmtTx := .trans rfl rfl
@[simp] theorem modHs_arrivals (f : Harness → Harness) (s : State) : (modHs f s).arrivals = s.arrivals := .trans rfl rfl
@[simp] theorem modHs_groups (f : Harness → Harness) (s : State) : (modHs f s).groups = s.groups := .trans rfl rfl
@[simp] theorem modHs_scus (f : Harness → Harness) (s : State) : (modHs f s).scus = s.scus := .trans rfl rfl
@[simp] theorem modHs_pues (f : Harness → Harness) (s : State) : (modHs f s).pues = s.pues := .trans rfl rfl
@[simp] theorem modHs_dose (f : Harness → Harness) (s : State) : (modHs f s).dose = s.dose := .trans rfl rfl
@[simp] theorem modHs_cvus (f : Harness → Harness) (s : State) : (modHs f s).cvus = s.cvus := .trans rfl rfl
@[simp] theorem modHs_bundles (f : Harness → Harness) (s : State) : (modHs f s).bundles = s.bundles := .trans rfl rfl
@[simp] theorem modHs_wormOut (f : Harness → Harness) (s : State) : (modHs f s).wormOut = s.wormOut := .trans rfl rfl
@[simp] theorem modHs_health (f : Harness → Harness) (s : State) : (modHs f s).health = s.health := .trans rfl rfl
@[simp] theorem modHs_power (f : Harness → Harness) (s : State) : (modHs f s).power = s.power := .trans rfl rfl
@[simp] theorem modHs_sig (f : Harness → Harness) (s : State) : (modHs f s).sig = s.sig := .trans rfl rfl
@[simp] theorem modHs_evtFailed (f : Harness → Harness) (s : State) : (modHs f s).evtFailed = s.evtFailed := .trans rfl rfl
@[simp] theorem modHs_answer (f : Harness → Harness) (s : State) : (modHs f s).answer = s.answer := .trans rfl rfl
@[simp] theorem modHs_heldAcc (f : Harness → Harness) (s : State) : (modHs f s).heldAcc = s.heldAcc := .trans rfl rfl
@[simp] theorem modHs_movers (f : Harness → Harness) (s : State) : (modHs f s).movers = s.movers := .trans rfl rfl
@[simp] theorem modHs_runs (f : Harness → Harness) (s : State) : (modHs f s).runs = s.runs := .trans rfl rfl
@[simp] theorem modHs_bad (f : Harness → Harness) (s : State) : (modHs f s).bad = s.bad := .trans rfl rfl
@[simp] theorem modHs_dld (f : Harness → Harness) (s : State) : (modHs f s).dld = s.dld := .trans rfl rfl

/-! ### modBoot -/

@[simp] theorem modBoot_pending (f : Boot → Boot) (s : State) : (modBoot f s).pending = s.pending := .trans rfl rfl
@[simp] theorem modBoot_part (f : Boot → Boot) (s : State) : (modBoot f s).part = s.part := .trans rfl rfl
@[simp] theorem modBoot_uptime (f : Boot → Boot) (s : State) : (modBoot f s).uptime = s.uptime := .trans rfl rfl
@[simp] theorem modBoot_arithCount (f : Boot → Boot) (s : State) : (modBoot f s).arithCount = s.arithCount := .trans rfl rfl
@[simp] theorem modBoot_fwdCount (f : Boot → Boot) (s : State) : (modBoot f s).fwdCount = s.fwdCount := .trans rfl rfl
@[simp] theorem modBoot_fresh (f : Boot → Boot) (s : State) : (modBoot f s).fresh = s.fresh := .trans rfl rfl
@[simp] theorem modBoot_mem (f : Boot → Boot) (s : State) : (modBoot f s).mem = s.mem := .trans rfl rfl
@[simp] theorem modBoot_poison (f : Boot → Boot) (s : State) : (modBoot f s).poison = s.poison := .trans rfl rfl
@[simp] theorem modBoot_flaws (f : Boot → Boot) (s : State) : (modBoot f s).flaws = s.flaws := .trans rfl rfl
@[simp] theorem modBoot_odecc (f : Boot → Boot) (s : State) : (modBoot f s).odecc = s.odecc := .trans rfl rfl
@[simp] theorem modBoot_regs (f : Boot → Boot) (s : State) : (modBoot f s).regs = s.regs := .trans rfl rfl
@[simp] theorem modBoot_ctr64 (f : Boot → Boot) (s : State) : (modBoot f s).ctr64 = s.ctr64 := .trans rfl rfl
@[simp] theorem modBoot_queues (f : Boot → Boot) (s : State) : (modBoot f s).queues = s.queues := .trans rfl rfl
@[simp] theorem modBoot_sems (f : Boot → Boot) (s : State) : (modBoot f s).sems = s.sems := .trans rfl rfl
@[simp] theorem modBoot_flights (f : Boot → Boot) (s : State) : (modBoot f s).flights = s.flights := .trans rfl rfl
@[simp] theorem modBoot_tilePhys (f : Boot → Boot) (s : State) : (modBoot f s).tilePhys = s.tilePhys := .trans rfl rfl
@[simp] theorem modBoot_err (f : Boot → Boot) (s : State) : (modBoot f s).err = s.err := .trans rfl rfl
@[simp] theorem modBoot_rings (f : Boot → Boot) (s : State) : (modBoot f s).rings = s.rings := .trans rfl rfl
@[simp] theorem modBoot_irqs (f : Boot → Boot) (s : State) : (modBoot f s).irqs = s.irqs := .trans rfl rfl
@[simp] theorem modBoot_evtWidth (f : Boot → Boot) (s : State) : (modBoot f s).evtWidth = s.evtWidth := .trans rfl rfl
@[simp] theorem modBoot_snoop (f : Boot → Boot) (s : State) : (modBoot f s).snoop = s.snoop := .trans rfl rfl
@[simp] theorem modBoot_jobs (f : Boot → Boot) (s : State) : (modBoot f s).jobs = s.jobs := .trans rfl rfl
@[simp] theorem modBoot_keys (f : Boot → Boot) (s : State) : (modBoot f s).keys = s.keys := .trans rfl rfl
@[simp] theorem modBoot_mgmt (f : Boot → Boot) (s : State) : (modBoot f s).mgmt = s.mgmt := .trans rfl rfl
@[simp] theorem modBoot_presWait (f : Boot → Boot) (s : State) : (modBoot f s).presWait = s.presWait := .trans rfl rfl
@[simp] theorem modBoot_prot (f : Boot → Boot) (s : State) : (modBoot f s).prot = s.prot := .trans rfl rfl
@[simp] theorem modBoot_ctxs (f : Boot → Boot) (s : State) : (modBoot f s).ctxs = s.ctxs := .trans rfl rfl
@[simp] theorem modBoot_flash (f : Boot → Boot) (s : State) : (modBoot f s).flash = s.flash := .trans rfl rfl
@[simp] theorem modBoot_fuses (f : Boot → Boot) (s : State) : (modBoot f s).fuses = s.fuses := .trans rfl rfl
@[simp] theorem modBoot_tiles (f : Boot → Boot) (s : State) : (modBoot f s).tiles = s.tiles := .trans rfl rfl
@[simp] theorem modBoot_ft (f : Boot → Boot) (s : State) : (modBoot f s).ft = s.ft := .trans rfl rfl
@[simp] theorem modBoot_poolMib (f : Boot → Boot) (s : State) : (modBoot f s).poolMib = s.poolMib := .trans rfl rfl
@[simp] theorem modBoot_bufs (f : Boot → Boot) (s : State) : (modBoot f s).bufs = s.bufs := .trans rfl rfl
@[simp] theorem modBoot_owners (f : Boot → Boot) (s : State) : (modBoot f s).owners = s.owners := .trans rfl rfl
@[simp] theorem modBoot_ingress (f : Boot → Boot) (s : State) : (modBoot f s).ingress = s.ingress := .trans rfl rfl
@[simp] theorem modBoot_egq (f : Boot → Boot) (s : State) : (modBoot f s).egq = s.egq := .trans rfl rfl
@[simp] theorem modBoot_ports (f : Boot → Boot) (s : State) : (modBoot f s).ports = s.ports := .trans rfl rfl
@[simp] theorem modBoot_staging (f : Boot → Boot) (s : State) : (modBoot f s).staging = s.staging := .trans rfl rfl
@[simp] theorem modBoot_hdrAt (f : Boot → Boot) (s : State) : (modBoot f s).hdrAt = s.hdrAt := .trans rfl rfl
@[simp] theorem modBoot_clampLo (f : Boot → Boot) (s : State) : (modBoot f s).clampLo = s.clampLo := .trans rfl rfl
@[simp] theorem modBoot_mgmtDown (f : Boot → Boot) (s : State) : (modBoot f s).mgmtDown = s.mgmtDown := .trans rfl rfl
@[simp] theorem modBoot_policers (f : Boot → Boot) (s : State) : (modBoot f s).policers = s.policers := .trans rfl rfl
@[simp] theorem modBoot_egLast (f : Boot → Boot) (s : State) : (modBoot f s).egLast = s.egLast := .trans rfl rfl
@[simp] theorem modBoot_mgmtTx (f : Boot → Boot) (s : State) : (modBoot f s).mgmtTx = s.mgmtTx := .trans rfl rfl
@[simp] theorem modBoot_arrivals (f : Boot → Boot) (s : State) : (modBoot f s).arrivals = s.arrivals := .trans rfl rfl
@[simp] theorem modBoot_groups (f : Boot → Boot) (s : State) : (modBoot f s).groups = s.groups := .trans rfl rfl
@[simp] theorem modBoot_scus (f : Boot → Boot) (s : State) : (modBoot f s).scus = s.scus := .trans rfl rfl
@[simp] theorem modBoot_pues (f : Boot → Boot) (s : State) : (modBoot f s).pues = s.pues := .trans rfl rfl
@[simp] theorem modBoot_dose (f : Boot → Boot) (s : State) : (modBoot f s).dose = s.dose := .trans rfl rfl
@[simp] theorem modBoot_cvus (f : Boot → Boot) (s : State) : (modBoot f s).cvus = s.cvus := .trans rfl rfl
@[simp] theorem modBoot_bundles (f : Boot → Boot) (s : State) : (modBoot f s).bundles = s.bundles := .trans rfl rfl
@[simp] theorem modBoot_harness (f : Boot → Boot) (s : State) : (modBoot f s).harness = s.harness := .trans rfl rfl
@[simp] theorem modBoot_wormOut (f : Boot → Boot) (s : State) : (modBoot f s).wormOut = s.wormOut := .trans rfl rfl
@[simp] theorem modBoot_health (f : Boot → Boot) (s : State) : (modBoot f s).health = s.health := .trans rfl rfl
@[simp] theorem modBoot_power (f : Boot → Boot) (s : State) : (modBoot f s).power = s.power := .trans rfl rfl
@[simp] theorem modBoot_sig (f : Boot → Boot) (s : State) : (modBoot f s).sig = s.sig := .trans rfl rfl
@[simp] theorem modBoot_evtFailed (f : Boot → Boot) (s : State) : (modBoot f s).evtFailed = s.evtFailed := .trans rfl rfl
@[simp] theorem modBoot_answer (f : Boot → Boot) (s : State) : (modBoot f s).answer = s.answer := .trans rfl rfl
@[simp] theorem modBoot_heldAcc (f : Boot → Boot) (s : State) : (modBoot f s).heldAcc = s.heldAcc := .trans rfl rfl
@[simp] theorem modBoot_movers (f : Boot → Boot) (s : State) : (modBoot f s).movers = s.movers := .trans rfl rfl
@[simp] theorem modBoot_runs (f : Boot → Boot) (s : State) : (modBoot f s).runs = s.runs := .trans rfl rfl
@[simp] theorem modBoot_bad (f : Boot → Boot) (s : State) : (modBoot f s).bad = s.bad := .trans rfl rfl
@[simp] theorem modBoot_dld (f : Boot → Boot) (s : State) : (modBoot f s).dld = s.dld := .trans rfl rfl

/-! ### modPue -/

@[simp] theorem modPue_pending (cl : Nat) (f : Pue → Pue) (s : State) : (modPue cl f s).pending = s.pending := .trans rfl rfl
@[simp] theorem modPue_part (cl : Nat) (f : Pue → Pue) (s : State) : (modPue cl f s).part = s.part := .trans rfl rfl
@[simp] theorem modPue_uptime (cl : Nat) (f : Pue → Pue) (s : State) : (modPue cl f s).uptime = s.uptime := .trans rfl rfl
@[simp] theorem modPue_arithCount (cl : Nat) (f : Pue → Pue) (s : State) : (modPue cl f s).arithCount = s.arithCount := .trans rfl rfl
@[simp] theorem modPue_fwdCount (cl : Nat) (f : Pue → Pue) (s : State) : (modPue cl f s).fwdCount = s.fwdCount := .trans rfl rfl
@[simp] theorem modPue_fresh (cl : Nat) (f : Pue → Pue) (s : State) : (modPue cl f s).fresh = s.fresh := .trans rfl rfl
@[simp] theorem modPue_mem (cl : Nat) (f : Pue → Pue) (s : State) : (modPue cl f s).mem = s.mem := .trans rfl rfl
@[simp] theorem modPue_poison (cl : Nat) (f : Pue → Pue) (s : State) : (modPue cl f s).poison = s.poison := .trans rfl rfl
@[simp] theorem modPue_flaws (cl : Nat) (f : Pue → Pue) (s : State) : (modPue cl f s).flaws = s.flaws := .trans rfl rfl
@[simp] theorem modPue_odecc (cl : Nat) (f : Pue → Pue) (s : State) : (modPue cl f s).odecc = s.odecc := .trans rfl rfl
@[simp] theorem modPue_regs (cl : Nat) (f : Pue → Pue) (s : State) : (modPue cl f s).regs = s.regs := .trans rfl rfl
@[simp] theorem modPue_ctr64 (cl : Nat) (f : Pue → Pue) (s : State) : (modPue cl f s).ctr64 = s.ctr64 := .trans rfl rfl
@[simp] theorem modPue_queues (cl : Nat) (f : Pue → Pue) (s : State) : (modPue cl f s).queues = s.queues := .trans rfl rfl
@[simp] theorem modPue_sems (cl : Nat) (f : Pue → Pue) (s : State) : (modPue cl f s).sems = s.sems := .trans rfl rfl
@[simp] theorem modPue_flights (cl : Nat) (f : Pue → Pue) (s : State) : (modPue cl f s).flights = s.flights := .trans rfl rfl
@[simp] theorem modPue_tilePhys (cl : Nat) (f : Pue → Pue) (s : State) : (modPue cl f s).tilePhys = s.tilePhys := .trans rfl rfl
@[simp] theorem modPue_err (cl : Nat) (f : Pue → Pue) (s : State) : (modPue cl f s).err = s.err := .trans rfl rfl
@[simp] theorem modPue_rings (cl : Nat) (f : Pue → Pue) (s : State) : (modPue cl f s).rings = s.rings := .trans rfl rfl
@[simp] theorem modPue_irqs (cl : Nat) (f : Pue → Pue) (s : State) : (modPue cl f s).irqs = s.irqs := .trans rfl rfl
@[simp] theorem modPue_evtWidth (cl : Nat) (f : Pue → Pue) (s : State) : (modPue cl f s).evtWidth = s.evtWidth := .trans rfl rfl
@[simp] theorem modPue_snoop (cl : Nat) (f : Pue → Pue) (s : State) : (modPue cl f s).snoop = s.snoop := .trans rfl rfl
@[simp] theorem modPue_jobs (cl : Nat) (f : Pue → Pue) (s : State) : (modPue cl f s).jobs = s.jobs := .trans rfl rfl
@[simp] theorem modPue_keys (cl : Nat) (f : Pue → Pue) (s : State) : (modPue cl f s).keys = s.keys := .trans rfl rfl
@[simp] theorem modPue_mgmt (cl : Nat) (f : Pue → Pue) (s : State) : (modPue cl f s).mgmt = s.mgmt := .trans rfl rfl
@[simp] theorem modPue_presWait (cl : Nat) (f : Pue → Pue) (s : State) : (modPue cl f s).presWait = s.presWait := .trans rfl rfl
@[simp] theorem modPue_prot (cl : Nat) (f : Pue → Pue) (s : State) : (modPue cl f s).prot = s.prot := .trans rfl rfl
@[simp] theorem modPue_ctxs (cl : Nat) (f : Pue → Pue) (s : State) : (modPue cl f s).ctxs = s.ctxs := .trans rfl rfl
@[simp] theorem modPue_boot (cl : Nat) (f : Pue → Pue) (s : State) : (modPue cl f s).boot = s.boot := .trans rfl rfl
@[simp] theorem modPue_flash (cl : Nat) (f : Pue → Pue) (s : State) : (modPue cl f s).flash = s.flash := .trans rfl rfl
@[simp] theorem modPue_fuses (cl : Nat) (f : Pue → Pue) (s : State) : (modPue cl f s).fuses = s.fuses := .trans rfl rfl
@[simp] theorem modPue_tiles (cl : Nat) (f : Pue → Pue) (s : State) : (modPue cl f s).tiles = s.tiles := .trans rfl rfl
@[simp] theorem modPue_ft (cl : Nat) (f : Pue → Pue) (s : State) : (modPue cl f s).ft = s.ft := .trans rfl rfl
@[simp] theorem modPue_poolMib (cl : Nat) (f : Pue → Pue) (s : State) : (modPue cl f s).poolMib = s.poolMib := .trans rfl rfl
@[simp] theorem modPue_bufs (cl : Nat) (f : Pue → Pue) (s : State) : (modPue cl f s).bufs = s.bufs := .trans rfl rfl
@[simp] theorem modPue_owners (cl : Nat) (f : Pue → Pue) (s : State) : (modPue cl f s).owners = s.owners := .trans rfl rfl
@[simp] theorem modPue_ingress (cl : Nat) (f : Pue → Pue) (s : State) : (modPue cl f s).ingress = s.ingress := .trans rfl rfl
@[simp] theorem modPue_egq (cl : Nat) (f : Pue → Pue) (s : State) : (modPue cl f s).egq = s.egq := .trans rfl rfl
@[simp] theorem modPue_ports (cl : Nat) (f : Pue → Pue) (s : State) : (modPue cl f s).ports = s.ports := .trans rfl rfl
@[simp] theorem modPue_staging (cl : Nat) (f : Pue → Pue) (s : State) : (modPue cl f s).staging = s.staging := .trans rfl rfl
@[simp] theorem modPue_hdrAt (cl : Nat) (f : Pue → Pue) (s : State) : (modPue cl f s).hdrAt = s.hdrAt := .trans rfl rfl
@[simp] theorem modPue_clampLo (cl : Nat) (f : Pue → Pue) (s : State) : (modPue cl f s).clampLo = s.clampLo := .trans rfl rfl
@[simp] theorem modPue_mgmtDown (cl : Nat) (f : Pue → Pue) (s : State) : (modPue cl f s).mgmtDown = s.mgmtDown := .trans rfl rfl
@[simp] theorem modPue_policers (cl : Nat) (f : Pue → Pue) (s : State) : (modPue cl f s).policers = s.policers := .trans rfl rfl
@[simp] theorem modPue_egLast (cl : Nat) (f : Pue → Pue) (s : State) : (modPue cl f s).egLast = s.egLast := .trans rfl rfl
@[simp] theorem modPue_mgmtTx (cl : Nat) (f : Pue → Pue) (s : State) : (modPue cl f s).mgmtTx = s.mgmtTx := .trans rfl rfl
@[simp] theorem modPue_arrivals (cl : Nat) (f : Pue → Pue) (s : State) : (modPue cl f s).arrivals = s.arrivals := .trans rfl rfl
@[simp] theorem modPue_groups (cl : Nat) (f : Pue → Pue) (s : State) : (modPue cl f s).groups = s.groups := .trans rfl rfl
@[simp] theorem modPue_scus (cl : Nat) (f : Pue → Pue) (s : State) : (modPue cl f s).scus = s.scus := .trans rfl rfl
@[simp] theorem modPue_dose (cl : Nat) (f : Pue → Pue) (s : State) : (modPue cl f s).dose = s.dose := .trans rfl rfl
@[simp] theorem modPue_cvus (cl : Nat) (f : Pue → Pue) (s : State) : (modPue cl f s).cvus = s.cvus := .trans rfl rfl
@[simp] theorem modPue_bundles (cl : Nat) (f : Pue → Pue) (s : State) : (modPue cl f s).bundles = s.bundles := .trans rfl rfl
@[simp] theorem modPue_harness (cl : Nat) (f : Pue → Pue) (s : State) : (modPue cl f s).harness = s.harness := .trans rfl rfl
@[simp] theorem modPue_wormOut (cl : Nat) (f : Pue → Pue) (s : State) : (modPue cl f s).wormOut = s.wormOut := .trans rfl rfl
@[simp] theorem modPue_health (cl : Nat) (f : Pue → Pue) (s : State) : (modPue cl f s).health = s.health := .trans rfl rfl
@[simp] theorem modPue_power (cl : Nat) (f : Pue → Pue) (s : State) : (modPue cl f s).power = s.power := .trans rfl rfl
@[simp] theorem modPue_sig (cl : Nat) (f : Pue → Pue) (s : State) : (modPue cl f s).sig = s.sig := .trans rfl rfl
@[simp] theorem modPue_evtFailed (cl : Nat) (f : Pue → Pue) (s : State) : (modPue cl f s).evtFailed = s.evtFailed := .trans rfl rfl
@[simp] theorem modPue_answer (cl : Nat) (f : Pue → Pue) (s : State) : (modPue cl f s).answer = s.answer := .trans rfl rfl
@[simp] theorem modPue_heldAcc (cl : Nat) (f : Pue → Pue) (s : State) : (modPue cl f s).heldAcc = s.heldAcc := .trans rfl rfl
@[simp] theorem modPue_movers (cl : Nat) (f : Pue → Pue) (s : State) : (modPue cl f s).movers = s.movers := .trans rfl rfl
@[simp] theorem modPue_runs (cl : Nat) (f : Pue → Pue) (s : State) : (modPue cl f s).runs = s.runs := .trans rfl rfl
@[simp] theorem modPue_bad (cl : Nat) (f : Pue → Pue) (s : State) : (modPue cl f s).bad = s.bad := .trans rfl rfl
@[simp] theorem modPue_dld (cl : Nat) (f : Pue → Pue) (s : State) : (modPue cl f s).dld = s.dld := .trans rfl rfl

/-! ### setCvu -/

@[simp] theorem setCvu_pending (cl n : Nat) (x : Cvu) (s : State) : (setCvu cl n x s).pending = s.pending := .trans rfl rfl
@[simp] theorem setCvu_part (cl n : Nat) (x : Cvu) (s : State) : (setCvu cl n x s).part = s.part := .trans rfl rfl
@[simp] theorem setCvu_uptime (cl n : Nat) (x : Cvu) (s : State) : (setCvu cl n x s).uptime = s.uptime := .trans rfl rfl
@[simp] theorem setCvu_arithCount (cl n : Nat) (x : Cvu) (s : State) : (setCvu cl n x s).arithCount = s.arithCount := .trans rfl rfl
@[simp] theorem setCvu_fwdCount (cl n : Nat) (x : Cvu) (s : State) : (setCvu cl n x s).fwdCount = s.fwdCount := .trans rfl rfl
@[simp] theorem setCvu_fresh (cl n : Nat) (x : Cvu) (s : State) : (setCvu cl n x s).fresh = s.fresh := .trans rfl rfl
@[simp] theorem setCvu_mem (cl n : Nat) (x : Cvu) (s : State) : (setCvu cl n x s).mem = s.mem := .trans rfl rfl
@[simp] theorem setCvu_poison (cl n : Nat) (x : Cvu) (s : State) : (setCvu cl n x s).poison = s.poison := .trans rfl rfl
@[simp] theorem setCvu_flaws (cl n : Nat) (x : Cvu) (s : State) : (setCvu cl n x s).flaws = s.flaws := .trans rfl rfl
@[simp] theorem setCvu_odecc (cl n : Nat) (x : Cvu) (s : State) : (setCvu cl n x s).odecc = s.odecc := .trans rfl rfl
@[simp] theorem setCvu_regs (cl n : Nat) (x : Cvu) (s : State) : (setCvu cl n x s).regs = s.regs := .trans rfl rfl
@[simp] theorem setCvu_ctr64 (cl n : Nat) (x : Cvu) (s : State) : (setCvu cl n x s).ctr64 = s.ctr64 := .trans rfl rfl
@[simp] theorem setCvu_queues (cl n : Nat) (x : Cvu) (s : State) : (setCvu cl n x s).queues = s.queues := .trans rfl rfl
@[simp] theorem setCvu_sems (cl n : Nat) (x : Cvu) (s : State) : (setCvu cl n x s).sems = s.sems := .trans rfl rfl
@[simp] theorem setCvu_flights (cl n : Nat) (x : Cvu) (s : State) : (setCvu cl n x s).flights = s.flights := .trans rfl rfl
@[simp] theorem setCvu_tilePhys (cl n : Nat) (x : Cvu) (s : State) : (setCvu cl n x s).tilePhys = s.tilePhys := .trans rfl rfl
@[simp] theorem setCvu_err (cl n : Nat) (x : Cvu) (s : State) : (setCvu cl n x s).err = s.err := .trans rfl rfl
@[simp] theorem setCvu_rings (cl n : Nat) (x : Cvu) (s : State) : (setCvu cl n x s).rings = s.rings := .trans rfl rfl
@[simp] theorem setCvu_irqs (cl n : Nat) (x : Cvu) (s : State) : (setCvu cl n x s).irqs = s.irqs := .trans rfl rfl
@[simp] theorem setCvu_evtWidth (cl n : Nat) (x : Cvu) (s : State) : (setCvu cl n x s).evtWidth = s.evtWidth := .trans rfl rfl
@[simp] theorem setCvu_snoop (cl n : Nat) (x : Cvu) (s : State) : (setCvu cl n x s).snoop = s.snoop := .trans rfl rfl
@[simp] theorem setCvu_jobs (cl n : Nat) (x : Cvu) (s : State) : (setCvu cl n x s).jobs = s.jobs := .trans rfl rfl
@[simp] theorem setCvu_keys (cl n : Nat) (x : Cvu) (s : State) : (setCvu cl n x s).keys = s.keys := .trans rfl rfl
@[simp] theorem setCvu_mgmt (cl n : Nat) (x : Cvu) (s : State) : (setCvu cl n x s).mgmt = s.mgmt := .trans rfl rfl
@[simp] theorem setCvu_presWait (cl n : Nat) (x : Cvu) (s : State) : (setCvu cl n x s).presWait = s.presWait := .trans rfl rfl
@[simp] theorem setCvu_prot (cl n : Nat) (x : Cvu) (s : State) : (setCvu cl n x s).prot = s.prot := .trans rfl rfl
@[simp] theorem setCvu_ctxs (cl n : Nat) (x : Cvu) (s : State) : (setCvu cl n x s).ctxs = s.ctxs := .trans rfl rfl
@[simp] theorem setCvu_boot (cl n : Nat) (x : Cvu) (s : State) : (setCvu cl n x s).boot = s.boot := .trans rfl rfl
@[simp] theorem setCvu_flash (cl n : Nat) (x : Cvu) (s : State) : (setCvu cl n x s).flash = s.flash := .trans rfl rfl
@[simp] theorem setCvu_fuses (cl n : Nat) (x : Cvu) (s : State) : (setCvu cl n x s).fuses = s.fuses := .trans rfl rfl
@[simp] theorem setCvu_tiles (cl n : Nat) (x : Cvu) (s : State) : (setCvu cl n x s).tiles = s.tiles := .trans rfl rfl
@[simp] theorem setCvu_ft (cl n : Nat) (x : Cvu) (s : State) : (setCvu cl n x s).ft = s.ft := .trans rfl rfl
@[simp] theorem setCvu_poolMib (cl n : Nat) (x : Cvu) (s : State) : (setCvu cl n x s).poolMib = s.poolMib := .trans rfl rfl
@[simp] theorem setCvu_bufs (cl n : Nat) (x : Cvu) (s : State) : (setCvu cl n x s).bufs = s.bufs := .trans rfl rfl
@[simp] theorem setCvu_owners (cl n : Nat) (x : Cvu) (s : State) : (setCvu cl n x s).owners = s.owners := .trans rfl rfl
@[simp] theorem setCvu_ingress (cl n : Nat) (x : Cvu) (s : State) : (setCvu cl n x s).ingress = s.ingress := .trans rfl rfl
@[simp] theorem setCvu_egq (cl n : Nat) (x : Cvu) (s : State) : (setCvu cl n x s).egq = s.egq := .trans rfl rfl
@[simp] theorem setCvu_ports (cl n : Nat) (x : Cvu) (s : State) : (setCvu cl n x s).ports = s.ports := .trans rfl rfl
@[simp] theorem setCvu_staging (cl n : Nat) (x : Cvu) (s : State) : (setCvu cl n x s).staging = s.staging := .trans rfl rfl
@[simp] theorem setCvu_hdrAt (cl n : Nat) (x : Cvu) (s : State) : (setCvu cl n x s).hdrAt = s.hdrAt := .trans rfl rfl
@[simp] theorem setCvu_clampLo (cl n : Nat) (x : Cvu) (s : State) : (setCvu cl n x s).clampLo = s.clampLo := .trans rfl rfl
@[simp] theorem setCvu_mgmtDown (cl n : Nat) (x : Cvu) (s : State) : (setCvu cl n x s).mgmtDown = s.mgmtDown := .trans rfl rfl
@[simp] theorem setCvu_policers (cl n : Nat) (x : Cvu) (s : State) : (setCvu cl n x s).policers = s.policers := .trans rfl rfl
@[simp] theorem setCvu_egLast (cl n : Nat) (x : Cvu) (s : State) : (setCvu cl n x s).egLast = s.egLast := .trans rfl rfl
@[simp] theorem setCvu_mgmtTx (cl n : Nat) (x : Cvu) (s : State) : (setCvu cl n x s).mgmtTx = s.mgmtTx := .trans rfl rfl
@[simp] theorem setCvu_arrivals (cl n : Nat) (x : Cvu) (s : State) : (setCvu cl n x s).arrivals = s.arrivals := .trans rfl rfl
@[simp] theorem setCvu_groups (cl n : Nat) (x : Cvu) (s : State) : (setCvu cl n x s).groups = s.groups := .trans rfl rfl
@[simp] theorem setCvu_scus (cl n : Nat) (x : Cvu) (s : State) : (setCvu cl n x s).scus = s.scus := .trans rfl rfl
@[simp] theorem setCvu_pues (cl n : Nat) (x : Cvu) (s : State) : (setCvu cl n x s).pues = s.pues := .trans rfl rfl
@[simp] theorem setCvu_dose (cl n : Nat) (x : Cvu) (s : State) : (setCvu cl n x s).dose = s.dose := .trans rfl rfl
@[simp] theorem setCvu_bundles (cl n : Nat) (x : Cvu) (s : State) : (setCvu cl n x s).bundles = s.bundles := .trans rfl rfl
@[simp] theorem setCvu_harness (cl n : Nat) (x : Cvu) (s : State) : (setCvu cl n x s).harness = s.harness := .trans rfl rfl
@[simp] theorem setCvu_wormOut (cl n : Nat) (x : Cvu) (s : State) : (setCvu cl n x s).wormOut = s.wormOut := .trans rfl rfl
@[simp] theorem setCvu_health (cl n : Nat) (x : Cvu) (s : State) : (setCvu cl n x s).health = s.health := .trans rfl rfl
@[simp] theorem setCvu_power (cl n : Nat) (x : Cvu) (s : State) : (setCvu cl n x s).power = s.power := .trans rfl rfl
@[simp] theorem setCvu_sig (cl n : Nat) (x : Cvu) (s : State) : (setCvu cl n x s).sig = s.sig := .trans rfl rfl
@[simp] theorem setCvu_evtFailed (cl n : Nat) (x : Cvu) (s : State) : (setCvu cl n x s).evtFailed = s.evtFailed := .trans rfl rfl
@[simp] theorem setCvu_answer (cl n : Nat) (x : Cvu) (s : State) : (setCvu cl n x s).answer = s.answer := .trans rfl rfl
@[simp] theorem setCvu_heldAcc (cl n : Nat) (x : Cvu) (s : State) : (setCvu cl n x s).heldAcc = s.heldAcc := .trans rfl rfl
@[simp] theorem setCvu_movers (cl n : Nat) (x : Cvu) (s : State) : (setCvu cl n x s).movers = s.movers := .trans rfl rfl
@[simp] theorem setCvu_runs (cl n : Nat) (x : Cvu) (s : State) : (setCvu cl n x s).runs = s.runs := .trans rfl rfl
@[simp] theorem setCvu_bad (cl n : Nat) (x : Cvu) (s : State) : (setCvu cl n x s).bad = s.bad := .trans rfl rfl
@[simp] theorem setCvu_dld (cl n : Nat) (x : Cvu) (s : State) : (setCvu cl n x s).dld = s.dld := .trans rfl rfl

/-! ### setKeySlot -/

@[simp] theorem setKeySlot_pending (k : Nat) (x : Option KeySlot) (s : State) : (setKeySlot k x s).pending = s.pending := .trans rfl rfl
@[simp] theorem setKeySlot_part (k : Nat) (x : Option KeySlot) (s : State) : (setKeySlot k x s).part = s.part := .trans rfl rfl
@[simp] theorem setKeySlot_uptime (k : Nat) (x : Option KeySlot) (s : State) : (setKeySlot k x s).uptime = s.uptime := .trans rfl rfl
@[simp] theorem setKeySlot_arithCount (k : Nat) (x : Option KeySlot) (s : State) : (setKeySlot k x s).arithCount = s.arithCount := .trans rfl rfl
@[simp] theorem setKeySlot_fwdCount (k : Nat) (x : Option KeySlot) (s : State) : (setKeySlot k x s).fwdCount = s.fwdCount := .trans rfl rfl
@[simp] theorem setKeySlot_fresh (k : Nat) (x : Option KeySlot) (s : State) : (setKeySlot k x s).fresh = s.fresh := .trans rfl rfl
@[simp] theorem setKeySlot_mem (k : Nat) (x : Option KeySlot) (s : State) : (setKeySlot k x s).mem = s.mem := .trans rfl rfl
@[simp] theorem setKeySlot_poison (k : Nat) (x : Option KeySlot) (s : State) : (setKeySlot k x s).poison = s.poison := .trans rfl rfl
@[simp] theorem setKeySlot_flaws (k : Nat) (x : Option KeySlot) (s : State) : (setKeySlot k x s).flaws = s.flaws := .trans rfl rfl
@[simp] theorem setKeySlot_odecc (k : Nat) (x : Option KeySlot) (s : State) : (setKeySlot k x s).odecc = s.odecc := .trans rfl rfl
@[simp] theorem setKeySlot_regs (k : Nat) (x : Option KeySlot) (s : State) : (setKeySlot k x s).regs = s.regs := .trans rfl rfl
@[simp] theorem setKeySlot_ctr64 (k : Nat) (x : Option KeySlot) (s : State) : (setKeySlot k x s).ctr64 = s.ctr64 := .trans rfl rfl
@[simp] theorem setKeySlot_queues (k : Nat) (x : Option KeySlot) (s : State) : (setKeySlot k x s).queues = s.queues := .trans rfl rfl
@[simp] theorem setKeySlot_sems (k : Nat) (x : Option KeySlot) (s : State) : (setKeySlot k x s).sems = s.sems := .trans rfl rfl
@[simp] theorem setKeySlot_flights (k : Nat) (x : Option KeySlot) (s : State) : (setKeySlot k x s).flights = s.flights := .trans rfl rfl
@[simp] theorem setKeySlot_tilePhys (k : Nat) (x : Option KeySlot) (s : State) : (setKeySlot k x s).tilePhys = s.tilePhys := .trans rfl rfl
@[simp] theorem setKeySlot_err (k : Nat) (x : Option KeySlot) (s : State) : (setKeySlot k x s).err = s.err := .trans rfl rfl
@[simp] theorem setKeySlot_rings (k : Nat) (x : Option KeySlot) (s : State) : (setKeySlot k x s).rings = s.rings := .trans rfl rfl
@[simp] theorem setKeySlot_irqs (k : Nat) (x : Option KeySlot) (s : State) : (setKeySlot k x s).irqs = s.irqs := .trans rfl rfl
@[simp] theorem setKeySlot_evtWidth (k : Nat) (x : Option KeySlot) (s : State) : (setKeySlot k x s).evtWidth = s.evtWidth := .trans rfl rfl
@[simp] theorem setKeySlot_snoop (k : Nat) (x : Option KeySlot) (s : State) : (setKeySlot k x s).snoop = s.snoop := .trans rfl rfl
@[simp] theorem setKeySlot_jobs (k : Nat) (x : Option KeySlot) (s : State) : (setKeySlot k x s).jobs = s.jobs := .trans rfl rfl
@[simp] theorem setKeySlot_mgmt (k : Nat) (x : Option KeySlot) (s : State) : (setKeySlot k x s).mgmt = s.mgmt := .trans rfl rfl
@[simp] theorem setKeySlot_presWait (k : Nat) (x : Option KeySlot) (s : State) : (setKeySlot k x s).presWait = s.presWait := .trans rfl rfl
@[simp] theorem setKeySlot_prot (k : Nat) (x : Option KeySlot) (s : State) : (setKeySlot k x s).prot = s.prot := .trans rfl rfl
@[simp] theorem setKeySlot_ctxs (k : Nat) (x : Option KeySlot) (s : State) : (setKeySlot k x s).ctxs = s.ctxs := .trans rfl rfl
@[simp] theorem setKeySlot_boot (k : Nat) (x : Option KeySlot) (s : State) : (setKeySlot k x s).boot = s.boot := .trans rfl rfl
@[simp] theorem setKeySlot_flash (k : Nat) (x : Option KeySlot) (s : State) : (setKeySlot k x s).flash = s.flash := .trans rfl rfl
@[simp] theorem setKeySlot_fuses (k : Nat) (x : Option KeySlot) (s : State) : (setKeySlot k x s).fuses = s.fuses := .trans rfl rfl
@[simp] theorem setKeySlot_tiles (k : Nat) (x : Option KeySlot) (s : State) : (setKeySlot k x s).tiles = s.tiles := .trans rfl rfl
@[simp] theorem setKeySlot_ft (k : Nat) (x : Option KeySlot) (s : State) : (setKeySlot k x s).ft = s.ft := .trans rfl rfl
@[simp] theorem setKeySlot_poolMib (k : Nat) (x : Option KeySlot) (s : State) : (setKeySlot k x s).poolMib = s.poolMib := .trans rfl rfl
@[simp] theorem setKeySlot_bufs (k : Nat) (x : Option KeySlot) (s : State) : (setKeySlot k x s).bufs = s.bufs := .trans rfl rfl
@[simp] theorem setKeySlot_owners (k : Nat) (x : Option KeySlot) (s : State) : (setKeySlot k x s).owners = s.owners := .trans rfl rfl
@[simp] theorem setKeySlot_ingress (k : Nat) (x : Option KeySlot) (s : State) : (setKeySlot k x s).ingress = s.ingress := .trans rfl rfl
@[simp] theorem setKeySlot_egq (k : Nat) (x : Option KeySlot) (s : State) : (setKeySlot k x s).egq = s.egq := .trans rfl rfl
@[simp] theorem setKeySlot_ports (k : Nat) (x : Option KeySlot) (s : State) : (setKeySlot k x s).ports = s.ports := .trans rfl rfl
@[simp] theorem setKeySlot_staging (k : Nat) (x : Option KeySlot) (s : State) : (setKeySlot k x s).staging = s.staging := .trans rfl rfl
@[simp] theorem setKeySlot_hdrAt (k : Nat) (x : Option KeySlot) (s : State) : (setKeySlot k x s).hdrAt = s.hdrAt := .trans rfl rfl
@[simp] theorem setKeySlot_clampLo (k : Nat) (x : Option KeySlot) (s : State) : (setKeySlot k x s).clampLo = s.clampLo := .trans rfl rfl
@[simp] theorem setKeySlot_mgmtDown (k : Nat) (x : Option KeySlot) (s : State) : (setKeySlot k x s).mgmtDown = s.mgmtDown := .trans rfl rfl
@[simp] theorem setKeySlot_policers (k : Nat) (x : Option KeySlot) (s : State) : (setKeySlot k x s).policers = s.policers := .trans rfl rfl
@[simp] theorem setKeySlot_egLast (k : Nat) (x : Option KeySlot) (s : State) : (setKeySlot k x s).egLast = s.egLast := .trans rfl rfl
@[simp] theorem setKeySlot_mgmtTx (k : Nat) (x : Option KeySlot) (s : State) : (setKeySlot k x s).mgmtTx = s.mgmtTx := .trans rfl rfl
@[simp] theorem setKeySlot_arrivals (k : Nat) (x : Option KeySlot) (s : State) : (setKeySlot k x s).arrivals = s.arrivals := .trans rfl rfl
@[simp] theorem setKeySlot_groups (k : Nat) (x : Option KeySlot) (s : State) : (setKeySlot k x s).groups = s.groups := .trans rfl rfl
@[simp] theorem setKeySlot_scus (k : Nat) (x : Option KeySlot) (s : State) : (setKeySlot k x s).scus = s.scus := .trans rfl rfl
@[simp] theorem setKeySlot_pues (k : Nat) (x : Option KeySlot) (s : State) : (setKeySlot k x s).pues = s.pues := .trans rfl rfl
@[simp] theorem setKeySlot_dose (k : Nat) (x : Option KeySlot) (s : State) : (setKeySlot k x s).dose = s.dose := .trans rfl rfl
@[simp] theorem setKeySlot_cvus (k : Nat) (x : Option KeySlot) (s : State) : (setKeySlot k x s).cvus = s.cvus := .trans rfl rfl
@[simp] theorem setKeySlot_bundles (k : Nat) (x : Option KeySlot) (s : State) : (setKeySlot k x s).bundles = s.bundles := .trans rfl rfl
@[simp] theorem setKeySlot_harness (k : Nat) (x : Option KeySlot) (s : State) : (setKeySlot k x s).harness = s.harness := .trans rfl rfl
@[simp] theorem setKeySlot_wormOut (k : Nat) (x : Option KeySlot) (s : State) : (setKeySlot k x s).wormOut = s.wormOut := .trans rfl rfl
@[simp] theorem setKeySlot_health (k : Nat) (x : Option KeySlot) (s : State) : (setKeySlot k x s).health = s.health := .trans rfl rfl
@[simp] theorem setKeySlot_power (k : Nat) (x : Option KeySlot) (s : State) : (setKeySlot k x s).power = s.power := .trans rfl rfl
@[simp] theorem setKeySlot_sig (k : Nat) (x : Option KeySlot) (s : State) : (setKeySlot k x s).sig = s.sig := .trans rfl rfl
@[simp] theorem setKeySlot_evtFailed (k : Nat) (x : Option KeySlot) (s : State) : (setKeySlot k x s).evtFailed = s.evtFailed := .trans rfl rfl
@[simp] theorem setKeySlot_answer (k : Nat) (x : Option KeySlot) (s : State) : (setKeySlot k x s).answer = s.answer := .trans rfl rfl
@[simp] theorem setKeySlot_heldAcc (k : Nat) (x : Option KeySlot) (s : State) : (setKeySlot k x s).heldAcc = s.heldAcc := .trans rfl rfl
@[simp] theorem setKeySlot_movers (k : Nat) (x : Option KeySlot) (s : State) : (setKeySlot k x s).movers = s.movers := .trans rfl rfl
@[simp] theorem setKeySlot_runs (k : Nat) (x : Option KeySlot) (s : State) : (setKeySlot k x s).runs = s.runs := .trans rfl rfl
@[simp] theorem setKeySlot_bad (k : Nat) (x : Option KeySlot) (s : State) : (setKeySlot k x s).bad = s.bad := .trans rfl rfl
@[simp] theorem setKeySlot_dld (k : Nat) (x : Option KeySlot) (s : State) : (setKeySlot k x s).dld = s.dld := .trans rfl rfl

/-! ### setHUnit -/

@[simp] theorem setHUnit_pending (k : Nat) (x : HUnit) (s : State) : (setHUnit k x s).pending = s.pending := .trans rfl rfl
@[simp] theorem setHUnit_part (k : Nat) (x : HUnit) (s : State) : (setHUnit k x s).part = s.part := .trans rfl rfl
@[simp] theorem setHUnit_uptime (k : Nat) (x : HUnit) (s : State) : (setHUnit k x s).uptime = s.uptime := .trans rfl rfl
@[simp] theorem setHUnit_arithCount (k : Nat) (x : HUnit) (s : State) : (setHUnit k x s).arithCount = s.arithCount := .trans rfl rfl
@[simp] theorem setHUnit_fwdCount (k : Nat) (x : HUnit) (s : State) : (setHUnit k x s).fwdCount = s.fwdCount := .trans rfl rfl
@[simp] theorem setHUnit_fresh (k : Nat) (x : HUnit) (s : State) : (setHUnit k x s).fresh = s.fresh := .trans rfl rfl
@[simp] theorem setHUnit_mem (k : Nat) (x : HUnit) (s : State) : (setHUnit k x s).mem = s.mem := .trans rfl rfl
@[simp] theorem setHUnit_poison (k : Nat) (x : HUnit) (s : State) : (setHUnit k x s).poison = s.poison := .trans rfl rfl
@[simp] theorem setHUnit_flaws (k : Nat) (x : HUnit) (s : State) : (setHUnit k x s).flaws = s.flaws := .trans rfl rfl
@[simp] theorem setHUnit_odecc (k : Nat) (x : HUnit) (s : State) : (setHUnit k x s).odecc = s.odecc := .trans rfl rfl
@[simp] theorem setHUnit_regs (k : Nat) (x : HUnit) (s : State) : (setHUnit k x s).regs = s.regs := .trans rfl rfl
@[simp] theorem setHUnit_ctr64 (k : Nat) (x : HUnit) (s : State) : (setHUnit k x s).ctr64 = s.ctr64 := .trans rfl rfl
@[simp] theorem setHUnit_queues (k : Nat) (x : HUnit) (s : State) : (setHUnit k x s).queues = s.queues := .trans rfl rfl
@[simp] theorem setHUnit_sems (k : Nat) (x : HUnit) (s : State) : (setHUnit k x s).sems = s.sems := .trans rfl rfl
@[simp] theorem setHUnit_flights (k : Nat) (x : HUnit) (s : State) : (setHUnit k x s).flights = s.flights := .trans rfl rfl
@[simp] theorem setHUnit_tilePhys (k : Nat) (x : HUnit) (s : State) : (setHUnit k x s).tilePhys = s.tilePhys := .trans rfl rfl
@[simp] theorem setHUnit_err (k : Nat) (x : HUnit) (s : State) : (setHUnit k x s).err = s.err := .trans rfl rfl
@[simp] theorem setHUnit_rings (k : Nat) (x : HUnit) (s : State) : (setHUnit k x s).rings = s.rings := .trans rfl rfl
@[simp] theorem setHUnit_irqs (k : Nat) (x : HUnit) (s : State) : (setHUnit k x s).irqs = s.irqs := .trans rfl rfl
@[simp] theorem setHUnit_evtWidth (k : Nat) (x : HUnit) (s : State) : (setHUnit k x s).evtWidth = s.evtWidth := .trans rfl rfl
@[simp] theorem setHUnit_snoop (k : Nat) (x : HUnit) (s : State) : (setHUnit k x s).snoop = s.snoop := .trans rfl rfl
@[simp] theorem setHUnit_jobs (k : Nat) (x : HUnit) (s : State) : (setHUnit k x s).jobs = s.jobs := .trans rfl rfl
@[simp] theorem setHUnit_keys (k : Nat) (x : HUnit) (s : State) : (setHUnit k x s).keys = s.keys := .trans rfl rfl
@[simp] theorem setHUnit_mgmt (k : Nat) (x : HUnit) (s : State) : (setHUnit k x s).mgmt = s.mgmt := .trans rfl rfl
@[simp] theorem setHUnit_presWait (k : Nat) (x : HUnit) (s : State) : (setHUnit k x s).presWait = s.presWait := .trans rfl rfl
@[simp] theorem setHUnit_prot (k : Nat) (x : HUnit) (s : State) : (setHUnit k x s).prot = s.prot := .trans rfl rfl
@[simp] theorem setHUnit_ctxs (k : Nat) (x : HUnit) (s : State) : (setHUnit k x s).ctxs = s.ctxs := .trans rfl rfl
@[simp] theorem setHUnit_boot (k : Nat) (x : HUnit) (s : State) : (setHUnit k x s).boot = s.boot := .trans rfl rfl
@[simp] theorem setHUnit_flash (k : Nat) (x : HUnit) (s : State) : (setHUnit k x s).flash = s.flash := .trans rfl rfl
@[simp] theorem setHUnit_fuses (k : Nat) (x : HUnit) (s : State) : (setHUnit k x s).fuses = s.fuses := .trans rfl rfl
@[simp] theorem setHUnit_tiles (k : Nat) (x : HUnit) (s : State) : (setHUnit k x s).tiles = s.tiles := .trans rfl rfl
@[simp] theorem setHUnit_ft (k : Nat) (x : HUnit) (s : State) : (setHUnit k x s).ft = s.ft := .trans rfl rfl
@[simp] theorem setHUnit_poolMib (k : Nat) (x : HUnit) (s : State) : (setHUnit k x s).poolMib = s.poolMib := .trans rfl rfl
@[simp] theorem setHUnit_bufs (k : Nat) (x : HUnit) (s : State) : (setHUnit k x s).bufs = s.bufs := .trans rfl rfl
@[simp] theorem setHUnit_owners (k : Nat) (x : HUnit) (s : State) : (setHUnit k x s).owners = s.owners := .trans rfl rfl
@[simp] theorem setHUnit_ingress (k : Nat) (x : HUnit) (s : State) : (setHUnit k x s).ingress = s.ingress := .trans rfl rfl
@[simp] theorem setHUnit_egq (k : Nat) (x : HUnit) (s : State) : (setHUnit k x s).egq = s.egq := .trans rfl rfl
@[simp] theorem setHUnit_ports (k : Nat) (x : HUnit) (s : State) : (setHUnit k x s).ports = s.ports := .trans rfl rfl
@[simp] theorem setHUnit_staging (k : Nat) (x : HUnit) (s : State) : (setHUnit k x s).staging = s.staging := .trans rfl rfl
@[simp] theorem setHUnit_hdrAt (k : Nat) (x : HUnit) (s : State) : (setHUnit k x s).hdrAt = s.hdrAt := .trans rfl rfl
@[simp] theorem setHUnit_clampLo (k : Nat) (x : HUnit) (s : State) : (setHUnit k x s).clampLo = s.clampLo := .trans rfl rfl
@[simp] theorem setHUnit_mgmtDown (k : Nat) (x : HUnit) (s : State) : (setHUnit k x s).mgmtDown = s.mgmtDown := .trans rfl rfl
@[simp] theorem setHUnit_policers (k : Nat) (x : HUnit) (s : State) : (setHUnit k x s).policers = s.policers := .trans rfl rfl
@[simp] theorem setHUnit_egLast (k : Nat) (x : HUnit) (s : State) : (setHUnit k x s).egLast = s.egLast := .trans rfl rfl
@[simp] theorem setHUnit_mgmtTx (k : Nat) (x : HUnit) (s : State) : (setHUnit k x s).mgmtTx = s.mgmtTx := .trans rfl rfl
@[simp] theorem setHUnit_arrivals (k : Nat) (x : HUnit) (s : State) : (setHUnit k x s).arrivals = s.arrivals := .trans rfl rfl
@[simp] theorem setHUnit_groups (k : Nat) (x : HUnit) (s : State) : (setHUnit k x s).groups = s.groups := .trans rfl rfl
@[simp] theorem setHUnit_scus (k : Nat) (x : HUnit) (s : State) : (setHUnit k x s).scus = s.scus := .trans rfl rfl
@[simp] theorem setHUnit_pues (k : Nat) (x : HUnit) (s : State) : (setHUnit k x s).pues = s.pues := .trans rfl rfl
@[simp] theorem setHUnit_dose (k : Nat) (x : HUnit) (s : State) : (setHUnit k x s).dose = s.dose := .trans rfl rfl
@[simp] theorem setHUnit_cvus (k : Nat) (x : HUnit) (s : State) : (setHUnit k x s).cvus = s.cvus := .trans rfl rfl
@[simp] theorem setHUnit_bundles (k : Nat) (x : HUnit) (s : State) : (setHUnit k x s).bundles = s.bundles := .trans rfl rfl
@[simp] theorem setHUnit_harness (k : Nat) (x : HUnit) (s : State) : (setHUnit k x s).harness = s.harness := .trans rfl rfl
@[simp] theorem setHUnit_wormOut (k : Nat) (x : HUnit) (s : State) : (setHUnit k x s).wormOut = s.wormOut := .trans rfl rfl
@[simp] theorem setHUnit_power (k : Nat) (x : HUnit) (s : State) : (setHUnit k x s).power = s.power := .trans rfl rfl
@[simp] theorem setHUnit_sig (k : Nat) (x : HUnit) (s : State) : (setHUnit k x s).sig = s.sig := .trans rfl rfl
@[simp] theorem setHUnit_evtFailed (k : Nat) (x : HUnit) (s : State) : (setHUnit k x s).evtFailed = s.evtFailed := .trans rfl rfl
@[simp] theorem setHUnit_answer (k : Nat) (x : HUnit) (s : State) : (setHUnit k x s).answer = s.answer := .trans rfl rfl
@[simp] theorem setHUnit_heldAcc (k : Nat) (x : HUnit) (s : State) : (setHUnit k x s).heldAcc = s.heldAcc := .trans rfl rfl
@[simp] theorem setHUnit_movers (k : Nat) (x : HUnit) (s : State) : (setHUnit k x s).movers = s.movers := .trans rfl rfl
@[simp] theorem setHUnit_runs (k : Nat) (x : HUnit) (s : State) : (setHUnit k x s).runs = s.runs := .trans rfl rfl
@[simp] theorem setHUnit_bad (k : Nat) (x : HUnit) (s : State) : (setHUnit k x s).bad = s.bad := .trans rfl rfl
@[simp] theorem setHUnit_dld (k : Nat) (x : HUnit) (s : State) : (setHUnit k x s).dld = s.dld := .trans rfl rfl

/-! ### Updates by a function, and of a field or a count -/

@[simp] theorem bumpSat_eq (a n : Nat) (s : State) : bumpSat a n s = setReg a (BitVec.ofNat 32 (Nat.min all32 ((getReg s a).toNat + n))) s := .trans rfl rfl

@[simp] theorem bumpWrap_eq (a n : Nat) (s : State) : bumpWrap a n s = setReg a (getReg s a + BitVec.ofNat 32 n) s := .trans rfl rfl

@[simp] theorem addCtr_eq (a n : Nat) (s : State) : addCtr a n s = setCtr a (getCtr s a + BitVec.ofNat 64 n) s := .trans rfl rfl

@[simp] theorem modQ_eq (cl qid : Nat) (f : Queue → Queue) (s : State) : modQ cl qid f s = setQ cl qid (f (getQ s cl qid)) s := .trans rfl rfl

@[simp] theorem modGroup_eq (cl gq : Nat) (f : Group → Group) (s : State) : modGroup cl gq f s = setGroup cl gq (f (getGroup s cl gq)) s := .trans rfl rfl

@[simp] theorem modTile_eq (cl p : Nat) (f : Tile → Tile) (s : State) : modTile cl p f s = setTile cl p (f (getTile s cl p)) s := .trans rfl rfl

@[simp] theorem modScu_eq (cl u : Nat) (f : Scu → Scu) (s : State) : modScu cl u f s = setScu cl u (f (getScu s cl u)) s := .trans rfl rfl

@[simp] theorem modMover_eq (cl m : Nat) (f : Mover → Mover) (s : State) : modMover cl m f s = setMover cl m (f (getMover s cl m)) s := .trans rfl rfl

@[simp] theorem modOwner_eq (cl o : Nat) (f : Owner → Owner) (s : State) : modOwner cl o f s = setOwner cl o (f (getOwner s cl o)) s := .trans rfl rfl

@[simp] theorem modPort_eq (p : Nat) (f : PortSt → PortSt) (s : State) : modPort p f s = setPort p (f (getPort s p)) s := .trans rfl rfl

@[simp] theorem modRg_eq (r : Nat) (f : RegionSt → RegionSt) (s : State) : modRg r f s = setRg r (f (getRg s r)) s := .trans rfl rfl

@[simp] theorem modHUnit_eq (k : Nat) (f : HUnit → HUnit) (s : State) : modHUnit k f s = setHUnit k (f (getHUnit s k)) s := .trans rfl rfl

/-! ### What is read after an update -/

theorem getReg_setReg (a b : Nat) (v : W32) (s : State) : getReg (setReg a v s) b = if b = a then v else getReg s b := by
  unfold getReg setReg
  by_cases h : b = a
  · subst h; simp
  · exact (mget_mput_other _ _ _ _ _ _ h).trans (if_neg h).symm

theorem getCtr_setCtr (a b : Nat) (v : W64) (s : State) : getCtr (setCtr a v s) b = if b = a then v else getCtr s b := by
  unfold getCtr setCtr
  by_cases h : b = a
  · subst h; simp
  · exact (mget_mput_other _ _ _ _ _ _ h).trans (if_neg h).symm

@[simp] theorem getQ_setQ_same (cl qid : Nat) (x : Queue) (s : State) : getQ (setQ cl qid x s) cl qid = x := by
  unfold getQ setQ; simp

theorem getQ_setQ (cl qid cl2 qid2 : Nat) (x : Queue) (s : State) :
    getQ (setQ cl qid x s) cl2 qid2 = if qkey cl2 qid2 = qkey cl qid then x else getQ s cl2 qid2 := by
  unfold getQ setQ; rw [mget_mput]

@[simp] theorem getSem_setSem_same (cl qid : Nat) (x : Sem) (s : State) : getSem (setSem cl qid x s) cl qid = x := by
  unfold getSem setSem; simp

theorem getSem_setSem (cl qid cl2 qid2 : Nat) (x : Sem) (s : State) :
    getSem (setSem cl qid x s) cl2 qid2 = if cl2 * 4096 + qid2 = cl * 4096 + qid then x else getSem s cl2 qid2 := by
  unfold getSem setSem; rw [mget_mput]

@[simp] theorem getTile_setTile_same (cl qid : Nat) (x : Tile) (s : State) : getTile (setTile cl qid x s) cl qid = x := by
  unfold getTile setTile; simp

theorem getTile_setTile (cl qid cl2 qid2 : Nat) (x : Tile) (s : State) :
    getTile (setTile cl qid x s) cl2 qid2 = if cl2 * 9 + qid2 = cl * 9 + qid then x else getTile s cl2 qid2 := by
  unfold getTile setTile; rw [mget_mput]

@[simp] theorem getScu_setScu_same (cl qid : Nat) (x : Scu) (s : State) : getScu (setScu cl qid x s) cl qid = x := by
  unfold getScu setScu; simp

theorem getScu_setScu (cl qid cl2 qid2 : Nat) (x : Scu) (s : State) :
    getScu (setScu cl qid x s) cl2 qid2 = if cl2 * 8 + qid2 = cl * 8 + qid then x else getScu s cl2 qid2 := by
  unfold getScu setScu; rw [mget_mput]

@[simp] theorem getMover_setMover_same (cl qid : Nat) (x : Mover) (s : State) : getMover (setMover cl qid x s) cl qid = x := by
  unfold getMover setMover; simp

theorem getMover_setMover (cl qid cl2 qid2 : Nat) (x : Mover) (s : State) :
    getMover (setMover cl qid x s) cl2 qid2 = if cl2 * 8 + qid2 = cl * 8 + qid then x else getMover s cl2 qid2 := by
  unfold getMover setMover; rw [mget_mput]

@[simp] theorem getGroup_setGroup_same (cl qid : Nat) (x : Group) (s : State) : getGroup (setGroup cl qid x s) cl qid = x := by
  unfold getGroup setGroup; simp

theorem getGroup_setGroup (cl qid cl2 qid2 : Nat) (x : Group) (s : State) :
    getGroup (setGroup cl qid x s) cl2 qid2 = if cl2 * 4096 + qid2 = cl * 4096 + qid then x else getGroup s cl2 qid2 := by
  unfold getGroup setGroup; rw [mget_mput]

theorem getCtx_setCtx (c c2 : Nat) (x : Ctx) (s : State) : getCtx (setCtx c x s) c2 = if c2 = c then x else getCtx s c2 := by
  unfold getCtx setCtx; simp only [mget_mput]

theorem getRing_setRing (c c2 : Nat) (x : Ring) (s : State) : getRing (setRing c x s) c2 = if c2 = c then x else getRing s c2 := by
  unfold getRing setRing; simp only [mget_mput]

theorem getBundle_setBundle (c c2 : Nat) (x : Bundle) (s : State) : getBundle (setBundle c x s) c2 = if c2 = c then x else getBundle s c2 := by
  unfold getBundle setBundle; simp only [mget_mput]

theorem getPort_setPort (c c2 : Nat) (x : PortSt) (s : State) : getPort (setPort c x s) c2 = if c2 = c then x else getPort s c2 := by
  unfold getPort setPort; simp only [mget_mput]

theorem getRg_setRg (c c2 : Nat) (x : RegionSt) (s : State) : getRg (setRg c x s) c2 = if c2 = c then x else getRg s c2 := by
  unfold getRg setRg; simp only [mget_mput]

theorem getHUnit_setHUnit (c c2 : Nat) (x : HUnit) (s : State) : getHUnit (setHUnit c x s) c2 = if c2 = c then x else getHUnit s c2 := by
  unfold getHUnit setHUnit; simp only [mget_mput]

end Sys2Proof.Machine
end

