-- ==== Sys2Proof/Laws/Reports.lean ====
section
/-! SUPPORT. What memory accesses, events and error records can touch: registers, rings, interrupt messages, the error
block, memory with its marks, the snoop filter, the free-value count, and what a unit that goes OFFLINE loses. Everything
else stays as it is. -/

namespace Sys2Proof.Machine

/-- The rest of the state: what no memory access, event or record changes. -/
def restOf (s : State) : State :=
  { s with regs := [], rings := [], irqs := [], err := State.reset.err, mem := [], poison := [], flaws := [],
           snoop := [], fresh := 0, health := State.reset.health, tilePhys := [], bundles := [], groups := [], ctxs := [] }

@[simp] theorem restOf_setReg (a : Nat) (v : W32) (s : State) : restOf (setReg a v s) = restOf s := .trans rfl rfl
@[simp] theorem restOf_bumpSat (a n : Nat) (s : State) : restOf (bumpSat a n s) = restOf s := .trans rfl rfl
@[simp] theorem restOf_setRing (r : Nat) (x : Ring) (s : State) : restOf (setRing r x s) = restOf s := .trans rfl rfl
@[simp] theorem restOf_setBundle (k : Nat) (x : Bundle) (s : State) : restOf (setBundle k x s) = restOf s := .trans rfl rfl
@[simp] theorem restOf_setCtx (c : Nat) (x : Ctx) (s : State) : restOf (setCtx c x s) = restOf s := .trans rfl rfl
@[simp] theorem restOf_loseGroups (cl : Nat) (s : State) : restOf (loseGroups cl s) = restOf s := .trans rfl rfl
@[simp] theorem restOf_setHUnit (k : Nat) (x : HUnit) (s : State) : restOf (setHUnit k x s) = restOf s := .trans rfl rfl
@[simp] theorem restOf_takeFresh (s : State) : restOf (takeFresh s) = restOf s := .trans rfl rfl

/-- A fold of steps that each leave the rest alone leaves it alone. -/
theorem restOf_foldl {α : Type} (f : State → α → State) (h : ∀ s x, restOf (f s x) = restOf s) (l : List α) (s : State) :
    restOf (l.foldl f s) = restOf s := by
  induction l generalizing s with
  | nil => rfl
  | cons x r ih => rw [List.foldl_cons, ih, h]

theorem restOf_foldl_pair {α β : Type} (f : State × β → α → State × β) (h : ∀ p x, restOf (f p x).1 = restOf p.1)
    (l : List α) (p : State × β) : restOf (l.foldl f p).1 = restOf p.1 := by
  induction l generalizing p with
  | nil => rfl
  | cons x r ih => rw [List.foldl_cons, ih, h]

@[simp] theorem restOf_countError (r : Region) (ue : Bool) (s : State) : restOf (countError r ue s) = restOf s := by
  unfold countError
  split
  · exact restOf_bumpSat ..
  · exact restOf_bumpSat ..
  · rfl

theorem restOf_marks (s : State) (m : Memory) (p : SMap (BitVec 3)) (f : SMap (List Nat)) :
    restOf { s with mem := m, poison := p, flaws := f } = restOf s := .trans rfl rfl

@[simp] theorem restOf_recallOne (s : State) (e : Snoop) : restOf (recallOne s e) = restOf s := by
  unfold recallOne
  extract_lets a mem po
  by_cases he : e.exclusive = true
  · rw [if_pos he]; exact restOf_marks ..
  · rw [if_neg he]

@[simp] theorem restOf_snoop (s : State) (l : List Snoop) : restOf { s with snoop := l } = restOf s := .trans rfl rfl
@[simp] theorem restOf_flaws (s : State) (f : SMap (List Nat)) : restOf { s with flaws := f } = restOf s := .trans rfl rfl

@[simp] theorem restOf_flipWord (s : State) (w : Nat) : restOf (flipWord s w) = restOf s := by
  unfold flipWord
  refine restOf_foldl _ (fun s b => ?_) _ s
  split <;> rfl
@[simp] theorem restOf_err (s : State) (e : ErrBlock) : restOf { s with err := e } = restOf s := .trans rfl rfl

@[simp] theorem restOf_snoopRecall (w : Bool) (a len : Nat) (s : State) : restOf (snoopRecall w a len s) = restOf s := by
  unfold snoopRecall
  extract_lets hit t
  rw [restOf_snoop]
  exact restOf_foldl _ (fun s x => restOf_recallOne s x) _ s

@[simp] theorem restOf_correctWords (r : Region) (ws : List Nat) (s : State) : restOf (correctWords r ws s) = restOf s := by
  unfold correctWords
  split
  · rfl
  · exact (restOf_flaws ..).trans (restOf_countError ..)

@[simp] theorem restOf_passWords (ws : List Nat) (s : State) : restOf (passWords ws s) = restOf s := by
  unfold passWords
  split
  · rfl
  · exact (restOf_takeFresh _).trans ((restOf_flaws ..).trans (restOf_foldl _ (fun s x => restOf_flipWord s x) _ s))

@[simp] theorem restOf_markGranule (r : Region) (g : Nat) (s : State) : restOf (markGranule r g s) = restOf s :=
  (restOf_takeFresh _).trans ((restOf_marks _ _ _ _).trans (restOf_countError ..))

@[simp] theorem restOf_checkGranule (r : Region) (g : Nat) (ws : List Nat) (opc : Nat) (s : State) :
    restOf (checkGranule r g ws opc s).1 = restOf s := by
  unfold checkGranule
  dsimp only
  split <;> simp

@[simp] theorem restOf_memRead (a len opc : Nat) (s : State) : restOf (memRead a len opc s).2.1 = restOf s := by
  refine (restOf_foldl_pair _ ?_ (granules a len) (snoopRecall false a len s, [])).trans (restOf_snoopRecall ..)
  intro p x
  dsimp only
  split
  · rfl
  · exact restOf_checkGranule ..

@[simp] theorem restOf_memWrite (a : Nat) (bs : List PByte) (s : State) : restOf (memWrite a bs s).1 = restOf s := by
  refine (restOf_foldl_pair _ ?_ (granules a bs.length) (snoopRecall true a bs.length s, [])).trans (restOf_snoopRecall ..)
  intro p x
  dsimp only
  split
  · rfl
  · split
    · exact restOf_countError ..
    · split <;> first | rfl | exact restOf_checkGranule ..

@[simp] theorem restOf_ringIrq (r : Nat) (s : State) : restOf (ringIrq r s) = restOf s := by
  unfold ringIrq; dsimp only; split <;> rfl

@[simp] theorem restOf_ringPut (r n : Nat) (b : List PByte) (s : State) : restOf (ringPut r n b s).1 = restOf s := by
  unfold ringPut; dsimp only; split
  · rfl
  · exact restOf_memWrite ..

@[simp] theorem restOf_eventRaw (k cl qid : Nat) (info : W32) (s : State) : restOf (eventRaw k cl qid info s).1 = restOf s := by
  unfold eventRaw; dsimp only; split <;> simp

@[simp] theorem restOf_putRecord (r : Report) (co : Bool) (l : Option W32) (s : State) :
    restOf (putRecord r co l s).1 = restOf s := by
  unfold putRecord; dsimp only; rw [restOf_eventRaw, restOf_err]

@[simp] theorem restOf_fileReport (r : Report) (s : State) : restOf (fileReport r s).1 = restOf s := by
  unfold fileReport; dsimp only
  split
  · exact restOf_putRecord ..
  · split
    · rfl
    · split <;> rfl

@[simp] theorem restOf_offlineEffect (u : W32) (s : State) : restOf (offlineEffect u s) = restOf s := by
  unfold offlineEffect; dsimp only
  repeat' split
  all_goals rfl

@[simp] theorem restOf_setRefused (cl n : Nat) (s : State) : restOf (setRefused cl n s) = restOf s := .trans rfl rfl

@[simp] theorem restOf_refuseCandidate (k : Nat) (s : State) : restOf (refuseCandidate k s).1 = restOf s := by
  refine (restOf_eventRaw ..).trans ?_
  unfold countCandidate
  exact (restOf_bumpSat ..).trans ((restOf_setRefused ..).trans (restOf_setHUnit ..))

@[simp] theorem restOf_suspectEvent (k : Nat) (was : Bool) (s : State) : restOf (suspectEvent k was s).1 = restOf s := by
  unfold suspectEvent
  split
  · rfl
  · exact restOf_eventRaw ..

@[simp] theorem restOf_offlineCandidate (k : Nat) (old : W16) (s : State) : restOf (offlineCandidate k old s).1 = restOf s := by
  unfold offlineCandidate
  split
  · exact restOf_eventRaw ..
  · split
    · exact restOf_refuseCandidate ..
    · rfl

@[simp] theorem restOf_offlineHealth (u : W32) (s : State) : restOf (offlineHealth u s).1 = restOf s := by
  unfold offlineHealth
  split
  · exact (restOf_offlineCandidate ..).trans ((restOf_suspectEvent ..).trans (restOf_setHUnit ..))
  · rfl

@[simp] theorem restOf_goOffline (u : W32) (r : Report) (s : State) : restOf (goOffline u r s).1 = restOf s := by
  unfold goOffline; dsimp only
  rw [restOf_offlineEffect, restOf_offlineHealth, restOf_eventRaw, restOf_fileReport, restOf_err]

@[simp] theorem restOf_reportOne (r : Report) (s : State) : restOf (reportOne r s).1 = restOf s := by
  unfold reportOne
  cases phaseCounter s r with
  | some a => rfl
  | none =>
    extract_lets e win r' e'
    rcases hx : fileReport r' { s with err := e' } with ⟨t, rs⟩
    have h : restOf t = restOf s := by
      have := restOf_fileReport r' { s with err := e' }
      rw [hx] at this
      exact this
    by_cases hc : (win.isSome && uncorrectable r'.kind && !isOffline t r'.unit) = true
    · exact (congrArg (fun x : State × List Report => restOf x.1) (if_pos hc)).trans ((restOf_goOffline ..).trans h)
    · exact (congrArg (fun x : State × List Report => restOf x.1) (if_neg hc)).trans h

@[simp] theorem restOf_reportAll (n : Nat) (rs : List Report) (s : State) : restOf (reportAll n rs s) = restOf s := by
  induction n generalizing rs s with
  | zero => rfl
  | succ n ih =>
    cases rs with
    | nil => rfl
    | cons r rest => simp only [reportAll]; rw [ih, restOf_reportOne]

@[simp] theorem restOf_reports (rs : List Report) (s : State) : restOf (reports rs s) = restOf s := restOf_reportAll ..

@[simp] theorem restOf_report (r : Report) (s : State) : restOf (report r s) = restOf s := restOf_reports ..

@[simp] theorem restOf_event (k cl qid : Nat) (info : W32) (s : State) : restOf (event k cl qid info s) = restOf s := by
  unfold event; dsimp only; rw [restOf_reports, restOf_eventRaw]

@[simp] theorem restOf_readMem (a len opc : Nat) (s : State) : restOf (readMem a len opc s).2 = restOf s := by
  unfold readMem; dsimp only; rw [restOf_reports, restOf_memRead]

@[simp] theorem restOf_writeMem (a : Nat) (bs : List PByte) (s : State) : restOf (writeMem a bs s) = restOf s := by
  unfold writeMem; dsimp only; rw [restOf_reports, restOf_memWrite]

@[simp] theorem restOf_closeWindow (u : W32) (s : State) : restOf (closeWindow u s) = restOf s := .trans rfl rfl

/-! ### Field by field -/

theorem rest_of_eq {α : Type} (f : State → α) (hf : ∀ s, f (restOf s) = f s) {s t : State} (h : restOf t = restOf s) :
    f t = f s := by rw [← hf t, h, hf s]

@[simp] theorem reports_pending (rs : List Report) (s : State) : (reports rs s).pending = s.pending :=
  rest_of_eq (·.pending) (fun _ => rfl) (restOf_reports ..)
@[simp] theorem reports_part (rs : List Report) (s : State) : (reports rs s).part = s.part :=
  rest_of_eq (·.part) (fun _ => rfl) (restOf_reports ..)
@[simp] theorem reports_uptime (rs : List Report) (s : State) : (reports rs s).uptime = s.uptime :=
  rest_of_eq (·.uptime) (fun _ => rfl) (restOf_reports ..)
@[simp] theorem reports_arithCount (rs : List Report) (s : State) : (reports rs s).arithCount = s.arithCount :=
  rest_of_eq (·.arithCount) (fun _ => rfl) (restOf_reports ..)
@[simp] theorem reports_fwdCount (rs : List Report) (s : State) : (reports rs s).fwdCount = s.fwdCount :=
  rest_of_eq (·.fwdCount) (fun _ => rfl) (restOf_reports ..)
@[simp] theorem reports_ctr64 (rs : List Report) (s : State) : (reports rs s).ctr64 = s.ctr64 :=
  rest_of_eq (·.ctr64) (fun _ => rfl) (restOf_reports ..)
@[simp] theorem reports_queues (rs : List Report) (s : State) : (reports rs s).queues = s.queues :=
  rest_of_eq (·.queues) (fun _ => rfl) (restOf_reports ..)
@[simp] theorem reports_sems (rs : List Report) (s : State) : (reports rs s).sems = s.sems :=
  rest_of_eq (·.sems) (fun _ => rfl) (restOf_reports ..)
@[simp] theorem reports_flights (rs : List Report) (s : State) : (reports rs s).flights = s.flights :=
  rest_of_eq (·.flights) (fun _ => rfl) (restOf_reports ..)
@[simp] theorem reports_evtWidth (rs : List Report) (s : State) : (reports rs s).evtWidth = s.evtWidth :=
  rest_of_eq (·.evtWidth) (fun _ => rfl) (restOf_reports ..)
@[simp] theorem reports_jobs (rs : List Report) (s : State) : (reports rs s).jobs = s.jobs :=
  rest_of_eq (·.jobs) (fun _ => rfl) (restOf_reports ..)
@[simp] theorem reports_keys (rs : List Report) (s : State) : (reports rs s).keys = s.keys :=
  rest_of_eq (·.keys) (fun _ => rfl) (restOf_reports ..)
@[simp] theorem reports_mgmt (rs : List Report) (s : State) : (reports rs s).mgmt = s.mgmt :=
  rest_of_eq (·.mgmt) (fun _ => rfl) (restOf_reports ..)
@[simp] theorem reports_presWait (rs : List Report) (s : State) : (reports rs s).presWait = s.presWait :=
  rest_of_eq (·.presWait) (fun _ => rfl) (restOf_reports ..)
@[simp] theorem reports_prot (rs : List Report) (s : State) : (reports rs s).prot = s.prot :=
  rest_of_eq (·.prot) (fun _ => rfl) (restOf_reports ..)
@[simp] theorem reports_boot (rs : List Report) (s : State) : (reports rs s).boot = s.boot :=
  rest_of_eq (·.boot) (fun _ => rfl) (restOf_reports ..)
@[simp] theorem reports_flash (rs : List Report) (s : State) : (reports rs s).flash = s.flash :=
  rest_of_eq (·.flash) (fun _ => rfl) (restOf_reports ..)
@[simp] theorem reports_fuses (rs : List Report) (s : State) : (reports rs s).fuses = s.fuses :=
  rest_of_eq (·.fuses) (fun _ => rfl) (restOf_reports ..)
@[simp] theorem reports_tiles (rs : List Report) (s : State) : (reports rs s).tiles = s.tiles :=
  rest_of_eq (·.tiles) (fun _ => rfl) (restOf_reports ..)
@[simp] theorem reports_ft (rs : List Report) (s : State) : (reports rs s).ft = s.ft :=
  rest_of_eq (·.ft) (fun _ => rfl) (restOf_reports ..)
@[simp] theorem reports_poolMib (rs : List Report) (s : State) : (reports rs s).poolMib = s.poolMib :=
  rest_of_eq (·.poolMib) (fun _ => rfl) (restOf_reports ..)
@[simp] theorem reports_bufs (rs : List Report) (s : State) : (reports rs s).bufs = s.bufs :=
  rest_of_eq (·.bufs) (fun _ => rfl) (restOf_reports ..)
@[simp] theorem reports_owners (rs : List Report) (s : State) : (reports rs s).owners = s.owners :=
  rest_of_eq (·.owners) (fun _ => rfl) (restOf_reports ..)
@[simp] theorem reports_ingress (rs : List Report) (s : State) : (reports rs s).ingress = s.ingress :=
  rest_of_eq (·.ingress) (fun _ => rfl) (restOf_reports ..)
@[simp] theorem reports_egq (rs : List Report) (s : State) : (reports rs s).egq = s.egq :=
  rest_of_eq (·.egq) (fun _ => rfl) (restOf_reports ..)
@[simp] theorem reports_ports (rs : List Report) (s : State) : (reports rs s).ports = s.ports :=
  rest_of_eq (·.ports) (fun _ => rfl) (restOf_reports ..)
@[simp] theorem reports_policers (rs : List Report) (s : State) : (reports rs s).policers = s.policers :=
  rest_of_eq (·.policers) (fun _ => rfl) (restOf_reports ..)
@[simp] theorem reports_egLast (rs : List Report) (s : State) : (reports rs s).egLast = s.egLast :=
  rest_of_eq (·.egLast) (fun _ => rfl) (restOf_reports ..)
@[simp] theorem reports_mgmtTx (rs : List Report) (s : State) : (reports rs s).mgmtTx = s.mgmtTx :=
  rest_of_eq (·.mgmtTx) (fun _ => rfl) (restOf_reports ..)
@[simp] theorem reports_arrivals (rs : List Report) (s : State) : (reports rs s).arrivals = s.arrivals :=
  rest_of_eq (·.arrivals) (fun _ => rfl) (restOf_reports ..)
@[simp] theorem reports_scus (rs : List Report) (s : State) : (reports rs s).scus = s.scus :=
  rest_of_eq (·.scus) (fun _ => rfl) (restOf_reports ..)
@[simp] theorem reports_pues (rs : List Report) (s : State) : (reports rs s).pues = s.pues :=
  rest_of_eq (·.pues) (fun _ => rfl) (restOf_reports ..)
@[simp] theorem reports_dose (rs : List Report) (s : State) : (reports rs s).dose = s.dose :=
  rest_of_eq (·.dose) (fun _ => rfl) (restOf_reports ..)
@[simp] theorem reports_cvus (rs : List Report) (s : State) : (reports rs s).cvus = s.cvus :=
  rest_of_eq (·.cvus) (fun _ => rfl) (restOf_reports ..)
@[simp] theorem reports_harness (rs : List Report) (s : State) : (reports rs s).harness = s.harness :=
  rest_of_eq (·.harness) (fun _ => rfl) (restOf_reports ..)
@[simp] theorem reports_wormOut (rs : List Report) (s : State) : (reports rs s).wormOut = s.wormOut :=
  rest_of_eq (·.wormOut) (fun _ => rfl) (restOf_reports ..)
@[simp] theorem reports_power (rs : List Report) (s : State) : (reports rs s).power = s.power :=
  rest_of_eq (·.power) (fun _ => rfl) (restOf_reports ..)
@[simp] theorem reports_sig (rs : List Report) (s : State) : (reports rs s).sig = s.sig :=
  rest_of_eq (·.sig) (fun _ => rfl) (restOf_reports ..)
@[simp] theorem reports_evtFailed (rs : List Report) (s : State) : (reports rs s).evtFailed = s.evtFailed :=
  rest_of_eq (·.evtFailed) (fun _ => rfl) (restOf_reports ..)
@[simp] theorem reports_answer (rs : List Report) (s : State) : (reports rs s).answer = s.answer :=
  rest_of_eq (·.answer) (fun _ => rfl) (restOf_reports ..)
@[simp] theorem reports_movers (rs : List Report) (s : State) : (reports rs s).movers = s.movers :=
  rest_of_eq (·.movers) (fun _ => rfl) (restOf_reports ..)

@[simp] theorem report_pending (r : Report) (s : State) : (report r s).pending = s.pending :=
  rest_of_eq (·.pending) (fun _ => rfl) (restOf_report ..)
@[simp] theorem report_part (r : Report) (s : State) : (report r s).part = s.part :=
  rest_of_eq (·.part) (fun _ => rfl) (restOf_report ..)
@[simp] theorem report_uptime (r : Report) (s : State) : (report r s).uptime = s.uptime :=
  rest_of_eq (·.uptime) (fun _ => rfl) (restOf_report ..)
@[simp] theorem report_arithCount (r : Report) (s : State) : (report r s).arithCount = s.arithCount :=
  rest_of_eq (·.arithCount) (fun _ => rfl) (restOf_report ..)
@[simp] theorem report_fwdCount (r : Report) (s : State) : (report r s).fwdCount = s.fwdCount :=
  rest_of_eq (·.fwdCount) (fun _ => rfl) (restOf_report ..)
@[simp] theorem report_ctr64 (r : Report) (s : State) : (report r s).ctr64 = s.ctr64 :=
  rest_of_eq (·.ctr64) (fun _ => rfl) (restOf_report ..)
@[simp] theorem report_queues (r : Report) (s : State) : (report r s).queues = s.queues :=
  rest_of_eq (·.queues) (fun _ => rfl) (restOf_report ..)
@[simp] theorem report_sems (r : Report) (s : State) : (report r s).sems = s.sems :=
  rest_of_eq (·.sems) (fun _ => rfl) (restOf_report ..)
@[simp] theorem report_flights (r : Report) (s : State) : (report r s).flights = s.flights :=
  rest_of_eq (·.flights) (fun _ => rfl) (restOf_report ..)
@[simp] theorem report_evtWidth (r : Report) (s : State) : (report r s).evtWidth = s.evtWidth :=
  rest_of_eq (·.evtWidth) (fun _ => rfl) (restOf_report ..)
@[simp] theorem report_jobs (r : Report) (s : State) : (report r s).jobs = s.jobs :=
  rest_of_eq (·.jobs) (fun _ => rfl) (restOf_report ..)
@[simp] theorem report_keys (r : Report) (s : State) : (report r s).keys = s.keys :=
  rest_of_eq (·.keys) (fun _ => rfl) (restOf_report ..)
@[simp] theorem report_mgmt (r : Report) (s : State) : (report r s).mgmt = s.mgmt :=
  rest_of_eq (·.mgmt) (fun _ => rfl) (restOf_report ..)
@[simp] theorem report_presWait (r : Report) (s : State) : (report r s).presWait = s.presWait :=
  rest_of_eq (·.presWait) (fun _ => rfl) (restOf_report ..)
@[simp] theorem report_prot (r : Report) (s : State) : (report r s).prot = s.prot :=
  rest_of_eq (·.prot) (fun _ => rfl) (restOf_report ..)
@[simp] theorem report_boot (r : Report) (s : State) : (report r s).boot = s.boot :=
  rest_of_eq (·.boot) (fun _ => rfl) (restOf_report ..)
@[simp] theorem report_flash (r : Report) (s : State) : (report r s).flash = s.flash :=
  rest_of_eq (·.flash) (fun _ => rfl) (restOf_report ..)
@[simp] theorem report_fuses (r : Report) (s : State) : (report r s).fuses = s.fuses :=
  rest_of_eq (·.fuses) (fun _ => rfl) (restOf_report ..)
@[simp] theorem report_tiles (r : Report) (s : State) : (report r s).tiles = s.tiles :=
  rest_of_eq (·.tiles) (fun _ => rfl) (restOf_report ..)
@[simp] theorem report_ft (r : Report) (s : State) : (report r s).ft = s.ft :=
  rest_of_eq (·.ft) (fun _ => rfl) (restOf_report ..)
@[simp] theorem report_poolMib (r : Report) (s : State) : (report r s).poolMib = s.poolMib :=
  rest_of_eq (·.poolMib) (fun _ => rfl) (restOf_report ..)
@[simp] theorem report_bufs (r : Report) (s : State) : (report r s).bufs = s.bufs :=
  rest_of_eq (·.bufs) (fun _ => rfl) (restOf_report ..)
@[simp] theorem report_owners (r : Report) (s : State) : (report r s).owners = s.owners :=
  rest_of_eq (·.owners) (fun _ => rfl) (restOf_report ..)
@[simp] theorem report_ingress (r : Report) (s : State) : (report r s).ingress = s.ingress :=
  rest_of_eq (·.ingress) (fun _ => rfl) (restOf_report ..)
@[simp] theorem report_egq (r : Report) (s : State) : (report r s).egq = s.egq :=
  rest_of_eq (·.egq) (fun _ => rfl) (restOf_report ..)
@[simp] theorem report_ports (r : Report) (s : State) : (report r s).ports = s.ports :=
  rest_of_eq (·.ports) (fun _ => rfl) (restOf_report ..)
@[simp] theorem report_policers (r : Report) (s : State) : (report r s).policers = s.policers :=
  rest_of_eq (·.policers) (fun _ => rfl) (restOf_report ..)
@[simp] theorem report_egLast (r : Report) (s : State) : (report r s).egLast = s.egLast :=
  rest_of_eq (·.egLast) (fun _ => rfl) (restOf_report ..)
@[simp] theorem report_mgmtTx (r : Report) (s : State) : (report r s).mgmtTx = s.mgmtTx :=
  rest_of_eq (·.mgmtTx) (fun _ => rfl) (restOf_report ..)
@[simp] theorem report_arrivals (r : Report) (s : State) : (report r s).arrivals = s.arrivals :=
  rest_of_eq (·.arrivals) (fun _ => rfl) (restOf_report ..)
@[simp] theorem report_scus (r : Report) (s : State) : (report r s).scus = s.scus :=
  rest_of_eq (·.scus) (fun _ => rfl) (restOf_report ..)
@[simp] theorem report_pues (r : Report) (s : State) : (report r s).pues = s.pues :=
  rest_of_eq (·.pues) (fun _ => rfl) (restOf_report ..)
@[simp] theorem report_dose (r : Report) (s : State) : (report r s).dose = s.dose :=
  rest_of_eq (·.dose) (fun _ => rfl) (restOf_report ..)
@[simp] theorem report_cvus (r : Report) (s : State) : (report r s).cvus = s.cvus :=
  rest_of_eq (·.cvus) (fun _ => rfl) (restOf_report ..)
@[simp] theorem report_harness (r : Report) (s : State) : (report r s).harness = s.harness :=
  rest_of_eq (·.harness) (fun _ => rfl) (restOf_report ..)
@[simp] theorem report_wormOut (r : Report) (s : State) : (report r s).wormOut = s.wormOut :=
  rest_of_eq (·.wormOut) (fun _ => rfl) (restOf_report ..)
@[simp] theorem report_power (r : Report) (s : State) : (report r s).power = s.power :=
  rest_of_eq (·.power) (fun _ => rfl) (restOf_report ..)
@[simp] theorem report_sig (r : Report) (s : State) : (report r s).sig = s.sig :=
  rest_of_eq (·.sig) (fun _ => rfl) (restOf_report ..)
@[simp] theorem report_evtFailed (r : Report) (s : State) : (report r s).evtFailed = s.evtFailed :=
  rest_of_eq (·.evtFailed) (fun _ => rfl) (restOf_report ..)
@[simp] theorem report_answer (r : Report) (s : State) : (report r s).answer = s.answer :=
  rest_of_eq (·.answer) (fun _ => rfl) (restOf_report ..)
@[simp] theorem report_movers (r : Report) (s : State) : (report r s).movers = s.movers :=
  rest_of_eq (·.movers) (fun _ => rfl) (restOf_report ..)

@[simp] theorem event_pending (k cl qid : Nat) (info : W32) (s : State) : (event k cl qid info s).pending = s.pending :=
  rest_of_eq (·.pending) (fun _ => rfl) (restOf_event ..)
@[simp] theorem event_part (k cl qid : Nat) (info : W32) (s : State) : (event k cl qid info s).part = s.part :=
  rest_of_eq (·.part) (fun _ => rfl) (restOf_event ..)
@[simp] theorem event_uptime (k cl qid : Nat) (info : W32) (s : State) : (event k cl qid info s).uptime = s.uptime :=
  rest_of_eq (·.uptime) (fun _ => rfl) (restOf_event ..)
@[simp] theorem event_arithCount (k cl qid : Nat) (info : W32) (s : State) : (event k cl qid info s).arithCount = s.arithCount :=
  rest_of_eq (·.arithCount) (fun _ => rfl) (restOf_event ..)
@[simp] theorem event_fwdCount (k cl qid : Nat) (info : W32) (s : State) : (event k cl qid info s).fwdCount = s.fwdCount :=
  rest_of_eq (·.fwdCount) (fun _ => rfl) (restOf_event ..)
@[simp] theorem event_ctr64 (k cl qid : Nat) (info : W32) (s : State) : (event k cl qid info s).ctr64 = s.ctr64 :=
  rest_of_eq (·.ctr64) (fun _ => rfl) (restOf_event ..)
@[simp] theorem event_queues (k cl qid : Nat) (info : W32) (s : State) : (event k cl qid info s).queues = s.queues :=
  rest_of_eq (·.queues) (fun _ => rfl) (restOf_event ..)
@[simp] theorem event_sems (k cl qid : Nat) (info : W32) (s : State) : (event k cl qid info s).sems = s.sems :=
  rest_of_eq (·.sems) (fun _ => rfl) (restOf_event ..)
@[simp] theorem event_flights (k cl qid : Nat) (info : W32) (s : State) : (event k cl qid info s).flights = s.flights :=
  rest_of_eq (·.flights) (fun _ => rfl) (restOf_event ..)
@[simp] theorem event_evtWidth (k cl qid : Nat) (info : W32) (s : State) : (event k cl qid info s).evtWidth = s.evtWidth :=
  rest_of_eq (·.evtWidth) (fun _ => rfl) (restOf_event ..)
@[simp] theorem event_jobs (k cl qid : Nat) (info : W32) (s : State) : (event k cl qid info s).jobs = s.jobs :=
  rest_of_eq (·.jobs) (fun _ => rfl) (restOf_event ..)
@[simp] theorem event_keys (k cl qid : Nat) (info : W32) (s : State) : (event k cl qid info s).keys = s.keys :=
  rest_of_eq (·.keys) (fun _ => rfl) (restOf_event ..)
@[simp] theorem event_mgmt (k cl qid : Nat) (info : W32) (s : State) : (event k cl qid info s).mgmt = s.mgmt :=
  rest_of_eq (·.mgmt) (fun _ => rfl) (restOf_event ..)
@[simp] theorem event_presWait (k cl qid : Nat) (info : W32) (s : State) : (event k cl qid info s).presWait = s.presWait :=
  rest_of_eq (·.presWait) (fun _ => rfl) (restOf_event ..)
@[simp] theorem event_prot (k cl qid : Nat) (info : W32) (s : State) : (event k cl qid info s).prot = s.prot :=
  rest_of_eq (·.prot) (fun _ => rfl) (restOf_event ..)
@[simp] theorem event_boot (k cl qid : Nat) (info : W32) (s : State) : (event k cl qid info s).boot = s.boot :=
  rest_of_eq (·.boot) (fun _ => rfl) (restOf_event ..)
@[simp] theorem event_flash (k cl qid : Nat) (info : W32) (s : State) : (event k cl qid info s).flash = s.flash :=
  rest_of_eq (·.flash) (fun _ => rfl) (restOf_event ..)
@[simp] theorem event_fuses (k cl qid : Nat) (info : W32) (s : State) : (event k cl qid info s).fuses = s.fuses :=
  rest_of_eq (·.fuses) (fun _ => rfl) (restOf_event ..)
@[simp] theorem event_tiles (k cl qid : Nat) (info : W32) (s : State) : (event k cl qid info s).tiles = s.tiles :=
  rest_of_eq (·.tiles) (fun _ => rfl) (restOf_event ..)
@[simp] theorem event_ft (k cl qid : Nat) (info : W32) (s : State) : (event k cl qid info s).ft = s.ft :=
  rest_of_eq (·.ft) (fun _ => rfl) (restOf_event ..)
@[simp] theorem event_poolMib (k cl qid : Nat) (info : W32) (s : State) : (event k cl qid info s).poolMib = s.poolMib :=
  rest_of_eq (·.poolMib) (fun _ => rfl) (restOf_event ..)
@[simp] theorem event_bufs (k cl qid : Nat) (info : W32) (s : State) : (event k cl qid info s).bufs = s.bufs :=
  rest_of_eq (·.bufs) (fun _ => rfl) (restOf_event ..)
@[simp] theorem event_owners (k cl qid : Nat) (info : W32) (s : State) : (event k cl qid info s).owners = s.owners :=
  rest_of_eq (·.owners) (fun _ => rfl) (restOf_event ..)
@[simp] theorem event_ingress (k cl qid : Nat) (info : W32) (s : State) : (event k cl qid info s).ingress = s.ingress :=
  rest_of_eq (·.ingress) (fun _ => rfl) (restOf_event ..)
@[simp] theorem event_egq (k cl qid : Nat) (info : W32) (s : State) : (event k cl qid info s).egq = s.egq :=
  rest_of_eq (·.egq) (fun _ => rfl) (restOf_event ..)
@[simp] theorem event_ports (k cl qid : Nat) (info : W32) (s : State) : (event k cl qid info s).ports = s.ports :=
  rest_of_eq (·.ports) (fun _ => rfl) (restOf_event ..)
@[simp] theorem event_policers (k cl qid : Nat) (info : W32) (s : State) : (event k cl qid info s).policers = s.policers :=
  rest_of_eq (·.policers) (fun _ => rfl) (restOf_event ..)
@[simp] theorem event_egLast (k cl qid : Nat) (info : W32) (s : State) : (event k cl qid info s).egLast = s.egLast :=
  rest_of_eq (·.egLast) (fun _ => rfl) (restOf_event ..)
@[simp] theorem event_mgmtTx (k cl qid : Nat) (info : W32) (s : State) : (event k cl qid info s).mgmtTx = s.mgmtTx :=
  rest_of_eq (·.mgmtTx) (fun _ => rfl) (restOf_event ..)
@[simp] theorem event_arrivals (k cl qid : Nat) (info : W32) (s : State) : (event k cl qid info s).arrivals = s.arrivals :=
  rest_of_eq (·.arrivals) (fun _ => rfl) (restOf_event ..)
@[simp] theorem event_scus (k cl qid : Nat) (info : W32) (s : State) : (event k cl qid info s).scus = s.scus :=
  rest_of_eq (·.scus) (fun _ => rfl) (restOf_event ..)
@[simp] theorem event_pues (k cl qid : Nat) (info : W32) (s : State) : (event k cl qid info s).pues = s.pues :=
  rest_of_eq (·.pues) (fun _ => rfl) (restOf_event ..)
@[simp] theorem event_dose (k cl qid : Nat) (info : W32) (s : State) : (event k cl qid info s).dose = s.dose :=
  rest_of_eq (·.dose) (fun _ => rfl) (restOf_event ..)
@[simp] theorem event_cvus (k cl qid : Nat) (info : W32) (s : State) : (event k cl qid info s).cvus = s.cvus :=
  rest_of_eq (·.cvus) (fun _ => rfl) (restOf_event ..)
@[simp] theorem event_harness (k cl qid : Nat) (info : W32) (s : State) : (event k cl qid info s).harness = s.harness :=
  rest_of_eq (·.harness) (fun _ => rfl) (restOf_event ..)
@[simp] theorem event_wormOut (k cl qid : Nat) (info : W32) (s : State) : (event k cl qid info s).wormOut = s.wormOut :=
  rest_of_eq (·.wormOut) (fun _ => rfl) (restOf_event ..)
@[simp] theorem event_power (k cl qid : Nat) (info : W32) (s : State) : (event k cl qid info s).power = s.power :=
  rest_of_eq (·.power) (fun _ => rfl) (restOf_event ..)
@[simp] theorem event_sig (k cl qid : Nat) (info : W32) (s : State) : (event k cl qid info s).sig = s.sig :=
  rest_of_eq (·.sig) (fun _ => rfl) (restOf_event ..)
@[simp] theorem event_evtFailed (k cl qid : Nat) (info : W32) (s : State) : (event k cl qid info s).evtFailed = s.evtFailed :=
  rest_of_eq (·.evtFailed) (fun _ => rfl) (restOf_event ..)
@[simp] theorem event_answer (k cl qid : Nat) (info : W32) (s : State) : (event k cl qid info s).answer = s.answer :=
  rest_of_eq (·.answer) (fun _ => rfl) (restOf_event ..)
@[simp] theorem event_movers (k cl qid : Nat) (info : W32) (s : State) : (event k cl qid info s).movers = s.movers :=
  rest_of_eq (·.movers) (fun _ => rfl) (restOf_event ..)

@[simp] theorem writeMem_pending (a : Nat) (bs : List PByte) (s : State) : (writeMem a bs s).pending = s.pending :=
  rest_of_eq (·.pending) (fun _ => rfl) (restOf_writeMem ..)
@[simp] theorem writeMem_part (a : Nat) (bs : List PByte) (s : State) : (writeMem a bs s).part = s.part :=
  rest_of_eq (·.part) (fun _ => rfl) (restOf_writeMem ..)
@[simp] theorem writeMem_uptime (a : Nat) (bs : List PByte) (s : State) : (writeMem a bs s).uptime = s.uptime :=
  rest_of_eq (·.uptime) (fun _ => rfl) (restOf_writeMem ..)
@[simp] theorem writeMem_arithCount (a : Nat) (bs : List PByte) (s : State) : (writeMem a bs s).arithCount = s.arithCount :=
  rest_of_eq (·.arithCount) (fun _ => rfl) (restOf_writeMem ..)
@[simp] theorem writeMem_fwdCount (a : Nat) (bs : List PByte) (s : State) : (writeMem a bs s).fwdCount = s.fwdCount :=
  rest_of_eq (·.fwdCount) (fun _ => rfl) (restOf_writeMem ..)
@[simp] theorem writeMem_ctr64 (a : Nat) (bs : List PByte) (s : State) : (writeMem a bs s).ctr64 = s.ctr64 :=
  rest_of_eq (·.ctr64) (fun _ => rfl) (restOf_writeMem ..)
@[simp] theorem writeMem_queues (a : Nat) (bs : List PByte) (s : State) : (writeMem a bs s).queues = s.queues :=
  rest_of_eq (·.queues) (fun _ => rfl) (restOf_writeMem ..)
@[simp] theorem writeMem_sems (a : Nat) (bs : List PByte) (s : State) : (writeMem a bs s).sems = s.sems :=
  rest_of_eq (·.sems) (fun _ => rfl) (restOf_writeMem ..)
@[simp] theorem writeMem_flights (a : Nat) (bs : List PByte) (s : State) : (writeMem a bs s).flights = s.flights :=
  rest_of_eq (·.flights) (fun _ => rfl) (restOf_writeMem ..)
@[simp] theorem writeMem_evtWidth (a : Nat) (bs : List PByte) (s : State) : (writeMem a bs s).evtWidth = s.evtWidth :=
  rest_of_eq (·.evtWidth) (fun _ => rfl) (restOf_writeMem ..)
@[simp] theorem writeMem_jobs (a : Nat) (bs : List PByte) (s : State) : (writeMem a bs s).jobs = s.jobs :=
  rest_of_eq (·.jobs) (fun _ => rfl) (restOf_writeMem ..)
@[simp] theorem writeMem_keys (a : Nat) (bs : List PByte) (s : State) : (writeMem a bs s).keys = s.keys :=
  rest_of_eq (·.keys) (fun _ => rfl) (restOf_writeMem ..)
@[simp] theorem writeMem_mgmt (a : Nat) (bs : List PByte) (s : State) : (writeMem a bs s).mgmt = s.mgmt :=
  rest_of_eq (·.mgmt) (fun _ => rfl) (restOf_writeMem ..)
@[simp] theorem writeMem_presWait (a : Nat) (bs : List PByte) (s : State) : (writeMem a bs s).presWait = s.presWait :=
  rest_of_eq (·.presWait) (fun _ => rfl) (restOf_writeMem ..)
@[simp] theorem writeMem_prot (a : Nat) (bs : List PByte) (s : State) : (writeMem a bs s).prot = s.prot :=
  rest_of_eq (·.prot) (fun _ => rfl) (restOf_writeMem ..)
@[simp] theorem writeMem_boot (a : Nat) (bs : List PByte) (s : State) : (writeMem a bs s).boot = s.boot :=
  rest_of_eq (·.boot) (fun _ => rfl) (restOf_writeMem ..)
@[simp] theorem writeMem_flash (a : Nat) (bs : List PByte) (s : State) : (writeMem a bs s).flash = s.flash :=
  rest_of_eq (·.flash) (fun _ => rfl) (restOf_writeMem ..)
@[simp] theorem writeMem_fuses (a : Nat) (bs : List PByte) (s : State) : (writeMem a bs s).fuses = s.fuses :=
  rest_of_eq (·.fuses) (fun _ => rfl) (restOf_writeMem ..)
@[simp] theorem writeMem_tiles (a : Nat) (bs : List PByte) (s : State) : (writeMem a bs s).tiles = s.tiles :=
  rest_of_eq (·.tiles) (fun _ => rfl) (restOf_writeMem ..)
@[simp] theorem writeMem_ft (a : Nat) (bs : List PByte) (s : State) : (writeMem a bs s).ft = s.ft :=
  rest_of_eq (·.ft) (fun _ => rfl) (restOf_writeMem ..)
@[simp] theorem writeMem_poolMib (a : Nat) (bs : List PByte) (s : State) : (writeMem a bs s).poolMib = s.poolMib :=
  rest_of_eq (·.poolMib) (fun _ => rfl) (restOf_writeMem ..)
@[simp] theorem writeMem_bufs (a : Nat) (bs : List PByte) (s : State) : (writeMem a bs s).bufs = s.bufs :=
  rest_of_eq (·.bufs) (fun _ => rfl) (restOf_writeMem ..)
@[simp] theorem writeMem_owners (a : Nat) (bs : List PByte) (s : State) : (writeMem a bs s).owners = s.owners :=
  rest_of_eq (·.owners) (fun _ => rfl) (restOf_writeMem ..)
@[simp] theorem writeMem_ingress (a : Nat) (bs : List PByte) (s : State) : (writeMem a bs s).ingress = s.ingress :=
  rest_of_eq (·.ingress) (fun _ => rfl) (restOf_writeMem ..)
@[simp] theorem writeMem_egq (a : Nat) (bs : List PByte) (s : State) : (writeMem a bs s).egq = s.egq :=
  rest_of_eq (·.egq) (fun _ => rfl) (restOf_writeMem ..)
@[simp] theorem writeMem_ports (a : Nat) (bs : List PByte) (s : State) : (writeMem a bs s).ports = s.ports :=
  rest_of_eq (·.ports) (fun _ => rfl) (restOf_writeMem ..)
@[simp] theorem writeMem_policers (a : Nat) (bs : List PByte) (s : State) : (writeMem a bs s).policers = s.policers :=
  rest_of_eq (·.policers) (fun _ => rfl) (restOf_writeMem ..)
@[simp] theorem writeMem_egLast (a : Nat) (bs : List PByte) (s : State) : (writeMem a bs s).egLast = s.egLast :=
  rest_of_eq (·.egLast) (fun _ => rfl) (restOf_writeMem ..)
@[simp] theorem writeMem_mgmtTx (a : Nat) (bs : List PByte) (s : State) : (writeMem a bs s).mgmtTx = s.mgmtTx :=
  rest_of_eq (·.mgmtTx) (fun _ => rfl) (restOf_writeMem ..)
@[simp] theorem writeMem_arrivals (a : Nat) (bs : List PByte) (s : State) : (writeMem a bs s).arrivals = s.arrivals :=
  rest_of_eq (·.arrivals) (fun _ => rfl) (restOf_writeMem ..)
@[simp] theorem writeMem_scus (a : Nat) (bs : List PByte) (s : State) : (writeMem a bs s).scus = s.scus :=
  rest_of_eq (·.scus) (fun _ => rfl) (restOf_writeMem ..)
@[simp] theorem writeMem_pues (a : Nat) (bs : List PByte) (s : State) : (writeMem a bs s).pues = s.pues :=
  rest_of_eq (·.pues) (fun _ => rfl) (restOf_writeMem ..)
@[simp] theorem writeMem_dose (a : Nat) (bs : List PByte) (s : State) : (writeMem a bs s).dose = s.dose :=
  rest_of_eq (·.dose) (fun _ => rfl) (restOf_writeMem ..)
@[simp] theorem writeMem_cvus (a : Nat) (bs : List PByte) (s : State) : (writeMem a bs s).cvus = s.cvus :=
  rest_of_eq (·.cvus) (fun _ => rfl) (restOf_writeMem ..)
@[simp] theorem writeMem_harness (a : Nat) (bs : List PByte) (s : State) : (writeMem a bs s).harness = s.harness :=
  rest_of_eq (·.harness) (fun _ => rfl) (restOf_writeMem ..)
@[simp] theorem writeMem_wormOut (a : Nat) (bs : List PByte) (s : State) : (writeMem a bs s).wormOut = s.wormOut :=
  rest_of_eq (·.wormOut) (fun _ => rfl) (restOf_writeMem ..)
@[simp] theorem writeMem_power (a : Nat) (bs : List PByte) (s : State) : (writeMem a bs s).power = s.power :=
  rest_of_eq (·.power) (fun _ => rfl) (restOf_writeMem ..)
@[simp] theorem writeMem_sig (a : Nat) (bs : List PByte) (s : State) : (writeMem a bs s).sig = s.sig :=
  rest_of_eq (·.sig) (fun _ => rfl) (restOf_writeMem ..)
@[simp] theorem writeMem_evtFailed (a : Nat) (bs : List PByte) (s : State) : (writeMem a bs s).evtFailed = s.evtFailed :=
  rest_of_eq (·.evtFailed) (fun _ => rfl) (restOf_writeMem ..)
@[simp] theorem writeMem_answer (a : Nat) (bs : List PByte) (s : State) : (writeMem a bs s).answer = s.answer :=
  rest_of_eq (·.answer) (fun _ => rfl) (restOf_writeMem ..)
@[simp] theorem writeMem_movers (a : Nat) (bs : List PByte) (s : State) : (writeMem a bs s).movers = s.movers :=
  rest_of_eq (·.movers) (fun _ => rfl) (restOf_writeMem ..)

@[simp] theorem readMem_pending (a len opc : Nat) (s : State) : (readMem a len opc s).2.pending = s.pending :=
  rest_of_eq (·.pending) (fun _ => rfl) (restOf_readMem ..)
@[simp] theorem readMem_part (a len opc : Nat) (s : State) : (readMem a len opc s).2.part = s.part :=
  rest_of_eq (·.part) (fun _ => rfl) (restOf_readMem ..)
@[simp] theorem readMem_uptime (a len opc : Nat) (s : State) : (readMem a len opc s).2.uptime = s.uptime :=
  rest_of_eq (·.uptime) (fun _ => rfl) (restOf_readMem ..)
@[simp] theorem readMem_arithCount (a len opc : Nat) (s : State) : (readMem a len opc s).2.arithCount = s.arithCount :=
  rest_of_eq (·.arithCount) (fun _ => rfl) (restOf_readMem ..)
@[simp] theorem readMem_fwdCount (a len opc : Nat) (s : State) : (readMem a len opc s).2.fwdCount = s.fwdCount :=
  rest_of_eq (·.fwdCount) (fun _ => rfl) (restOf_readMem ..)
@[simp] theorem readMem_ctr64 (a len opc : Nat) (s : State) : (readMem a len opc s).2.ctr64 = s.ctr64 :=
  rest_of_eq (·.ctr64) (fun _ => rfl) (restOf_readMem ..)
@[simp] theorem readMem_queues (a len opc : Nat) (s : State) : (readMem a len opc s).2.queues = s.queues :=
  rest_of_eq (·.queues) (fun _ => rfl) (restOf_readMem ..)
@[simp] theorem readMem_sems (a len opc : Nat) (s : State) : (readMem a len opc s).2.sems = s.sems :=
  rest_of_eq (·.sems) (fun _ => rfl) (restOf_readMem ..)
@[simp] theorem readMem_flights (a len opc : Nat) (s : State) : (readMem a len opc s).2.flights = s.flights :=
  rest_of_eq (·.flights) (fun _ => rfl) (restOf_readMem ..)
@[simp] theorem readMem_evtWidth (a len opc : Nat) (s : State) : (readMem a len opc s).2.evtWidth = s.evtWidth :=
  rest_of_eq (·.evtWidth) (fun _ => rfl) (restOf_readMem ..)
@[simp] theorem readMem_jobs (a len opc : Nat) (s : State) : (readMem a len opc s).2.jobs = s.jobs :=
  rest_of_eq (·.jobs) (fun _ => rfl) (restOf_readMem ..)
@[simp] theorem readMem_keys (a len opc : Nat) (s : State) : (readMem a len opc s).2.keys = s.keys :=
  rest_of_eq (·.keys) (fun _ => rfl) (restOf_readMem ..)
@[simp] theorem readMem_mgmt (a len opc : Nat) (s : State) : (readMem a len opc s).2.mgmt = s.mgmt :=
  rest_of_eq (·.mgmt) (fun _ => rfl) (restOf_readMem ..)
@[simp] theorem readMem_presWait (a len opc : Nat) (s : State) : (readMem a len opc s).2.presWait = s.presWait :=
  rest_of_eq (·.presWait) (fun _ => rfl) (restOf_readMem ..)
@[simp] theorem readMem_prot (a len opc : Nat) (s : State) : (readMem a len opc s).2.prot = s.prot :=
  rest_of_eq (·.prot) (fun _ => rfl) (restOf_readMem ..)
@[simp] theorem readMem_boot (a len opc : Nat) (s : State) : (readMem a len opc s).2.boot = s.boot :=
  rest_of_eq (·.boot) (fun _ => rfl) (restOf_readMem ..)
@[simp] theorem readMem_flash (a len opc : Nat) (s : State) : (readMem a len opc s).2.flash = s.flash :=
  rest_of_eq (·.flash) (fun _ => rfl) (restOf_readMem ..)
@[simp] theorem readMem_fuses (a len opc : Nat) (s : State) : (readMem a len opc s).2.fuses = s.fuses :=
  rest_of_eq (·.fuses) (fun _ => rfl) (restOf_readMem ..)
@[simp] theorem readMem_tiles (a len opc : Nat) (s : State) : (readMem a len opc s).2.tiles = s.tiles :=
  rest_of_eq (·.tiles) (fun _ => rfl) (restOf_readMem ..)
@[simp] theorem readMem_ft (a len opc : Nat) (s : State) : (readMem a len opc s).2.ft = s.ft :=
  rest_of_eq (·.ft) (fun _ => rfl) (restOf_readMem ..)
@[simp] theorem readMem_poolMib (a len opc : Nat) (s : State) : (readMem a len opc s).2.poolMib = s.poolMib :=
  rest_of_eq (·.poolMib) (fun _ => rfl) (restOf_readMem ..)
@[simp] theorem readMem_bufs (a len opc : Nat) (s : State) : (readMem a len opc s).2.bufs = s.bufs :=
  rest_of_eq (·.bufs) (fun _ => rfl) (restOf_readMem ..)
@[simp] theorem readMem_owners (a len opc : Nat) (s : State) : (readMem a len opc s).2.owners = s.owners :=
  rest_of_eq (·.owners) (fun _ => rfl) (restOf_readMem ..)
@[simp] theorem readMem_ingress (a len opc : Nat) (s : State) : (readMem a len opc s).2.ingress = s.ingress :=
  rest_of_eq (·.ingress) (fun _ => rfl) (restOf_readMem ..)
@[simp] theorem readMem_egq (a len opc : Nat) (s : State) : (readMem a len opc s).2.egq = s.egq :=
  rest_of_eq (·.egq) (fun _ => rfl) (restOf_readMem ..)
@[simp] theorem readMem_ports (a len opc : Nat) (s : State) : (readMem a len opc s).2.ports = s.ports :=
  rest_of_eq (·.ports) (fun _ => rfl) (restOf_readMem ..)
@[simp] theorem readMem_policers (a len opc : Nat) (s : State) : (readMem a len opc s).2.policers = s.policers :=
  rest_of_eq (·.policers) (fun _ => rfl) (restOf_readMem ..)
@[simp] theorem readMem_egLast (a len opc : Nat) (s : State) : (readMem a len opc s).2.egLast = s.egLast :=
  rest_of_eq (·.egLast) (fun _ => rfl) (restOf_readMem ..)
@[simp] theorem readMem_mgmtTx (a len opc : Nat) (s : State) : (readMem a len opc s).2.mgmtTx = s.mgmtTx :=
  rest_of_eq (·.mgmtTx) (fun _ => rfl) (restOf_readMem ..)
@[simp] theorem readMem_arrivals (a len opc : Nat) (s : State) : (readMem a len opc s).2.arrivals = s.arrivals :=
  rest_of_eq (·.arrivals) (fun _ => rfl) (restOf_readMem ..)
@[simp] theorem readMem_scus (a len opc : Nat) (s : State) : (readMem a len opc s).2.scus = s.scus :=
  rest_of_eq (·.scus) (fun _ => rfl) (restOf_readMem ..)
@[simp] theorem readMem_pues (a len opc : Nat) (s : State) : (readMem a len opc s).2.pues = s.pues :=
  rest_of_eq (·.pues) (fun _ => rfl) (restOf_readMem ..)
@[simp] theorem readMem_dose (a len opc : Nat) (s : State) : (readMem a len opc s).2.dose = s.dose :=
  rest_of_eq (·.dose) (fun _ => rfl) (restOf_readMem ..)
@[simp] theorem readMem_cvus (a len opc : Nat) (s : State) : (readMem a len opc s).2.cvus = s.cvus :=
  rest_of_eq (·.cvus) (fun _ => rfl) (restOf_readMem ..)
@[simp] theorem readMem_harness (a len opc : Nat) (s : State) : (readMem a len opc s).2.harness = s.harness :=
  rest_of_eq (·.harness) (fun _ => rfl) (restOf_readMem ..)
@[simp] theorem readMem_wormOut (a len opc : Nat) (s : State) : (readMem a len opc s).2.wormOut = s.wormOut :=
  rest_of_eq (·.wormOut) (fun _ => rfl) (restOf_readMem ..)
@[simp] theorem readMem_power (a len opc : Nat) (s : State) : (readMem a len opc s).2.power = s.power :=
  rest_of_eq (·.power) (fun _ => rfl) (restOf_readMem ..)
@[simp] theorem readMem_sig (a len opc : Nat) (s : State) : (readMem a len opc s).2.sig = s.sig :=
  rest_of_eq (·.sig) (fun _ => rfl) (restOf_readMem ..)
@[simp] theorem readMem_evtFailed (a len opc : Nat) (s : State) : (readMem a len opc s).2.evtFailed = s.evtFailed :=
  rest_of_eq (·.evtFailed) (fun _ => rfl) (restOf_readMem ..)
@[simp] theorem readMem_answer (a len opc : Nat) (s : State) : (readMem a len opc s).2.answer = s.answer :=
  rest_of_eq (·.answer) (fun _ => rfl) (restOf_readMem ..)
@[simp] theorem readMem_movers (a len opc : Nat) (s : State) : (readMem a len opc s).2.movers = s.movers :=
  rest_of_eq (·.movers) (fun _ => rfl) (restOf_readMem ..)

end Sys2Proof.Machine
end

