-- ==== Sys2Proof/Laws/Records.lean ====
section
/-! SUPPORT. Which registers, and which bytes and poison marks of memory, an access, an event or an error record can
change: the counters of memory errors and of error reports, and the 128-byte granules of the bytes accessed; for an event or
a record those of the event rings in use. -/

namespace Sys2Proof.Machine

/-- What an event or a record leaves of a ring: where its slots lie. -/
def ringShape (s : State) (r : Nat) : Bool × W48 × BitVec 5 := ((getRing s r).en, (getRing s r).base, (getRing s r).sizeLog2)

/-- From `s` to `t` only counters of errors, places in rings, and bytes and marks in `P` have changed. -/
structure Touches (P : Nat → Prop) (s t : State) : Prop where
  regs : ∀ a, ¬ recordReg a → getReg t a = getReg s a
  shape : ∀ r, ringShape t r = ringShape s r
  mem : ∀ a, ¬ P a → memByte t a = memByte s a
  marks : ∀ a, ¬ P a → granPoison t (a / 64) = granPoison s (a / 64)

variable {P Q : Nat → Prop} {s t u : State}

theorem Touches.rfl : Touches P s s := ⟨fun _ _ => Eq.refl _, fun _ => Eq.refl _, fun _ _ => Eq.refl _, fun _ _ => Eq.refl _⟩

theorem Touches.trans (h : Touches P s t) (k : Touches P t u) : Touches P s u :=
  ⟨fun a ha => (k.regs a ha).trans (h.regs a ha), fun r => (k.shape r).trans (h.shape r),
   fun a ha => (k.mem a ha).trans (h.mem a ha), fun a ha => (k.marks a ha).trans (h.marks a ha)⟩

theorem Touches.mono (h : Touches P s t) (hq : ∀ a, P a → Q a) : Touches Q s t :=
  ⟨h.regs, h.shape, fun a ha => h.mem a (fun hp => ha (hq a hp)), fun a ha => h.marks a (fun hp => ha (hq a hp))⟩

/-- What recording does, in the words statements use. -/
theorem Touches.recordsOnly (h : Touches (inEventRing s) s t) : RecordsOnly s t :=
  ⟨h.regs, fun a ha => ⟨h.mem a ha, h.marks a ha⟩⟩

theorem touches_of_same (h1 : t.regs = s.regs) (h2 : t.rings = s.rings) (h3 : t.mem = s.mem) (h4 : t.poison = s.poison) :
    Touches P s t :=
  ⟨fun a _ => by simp only [getReg, h1], fun r => by simp only [ringShape, getRing, h2],
   fun a _ => by simp only [memByte, h3], fun a _ => by simp only [granPoison, h4]⟩

theorem touches_setReg {a : Nat} {v : W32} (ha : recordReg a) : Touches P s (setReg a v s) :=
  ⟨fun b hb => by rw [getReg_setReg, if_neg (fun h : b = a => hb (by rw [h]; exact ha))], fun _ => Eq.refl _, fun _ _ => Eq.refl _,
   fun _ _ => Eq.refl _⟩

theorem touches_foldl {α : Type} (f : State → α → State) (l : List α) (hf : ∀ x ∈ l, ∀ s, Touches P s (f s x)) :
    Touches P s (l.foldl f s) := by
  induction l generalizing s with
  | nil => exact .rfl
  | cons x r ih =>
    exact (hf x List.mem_cons_self s).trans (ih (fun y hy => hf y (List.mem_cons_of_mem _ hy)))

theorem touches_foldl_pair {α β : Type} (f : State × β → α → State × β) (l : List α)
    (hf : ∀ x ∈ l, ∀ p, Touches P p.1 (f p x).1) (p : State × β) : Touches P p.1 (l.foldl f p).1 := by
  induction l generalizing p with
  | nil => exact .rfl
  | cons x r ih =>
    exact (hf x List.mem_cons_self p).trans (ih (fun y hy => hf y (List.mem_cons_of_mem _ hy)) _)

/-! ### Memory accesses -/

/-- The die of a region, where it is of DRAM, exists. -/
def Region.dieOk : Region → Prop
  | .bonded d => d < 4
  | .lpddr d _ => d < 4
  | _ => True

theorem region_die {a : Nat} {r : Region} (h : regionOf s a = some r) : r.dieOk := by
  unfold regionOf at h
  dsimp only at h
  repeat' split at h
  all_goals cases h
  all_goals simp only [Region.dieOk]
  all_goals omega

theorem touches_countError {r : Region} (ue : Bool) (h : r.dieOk) :
    Touches P s (countError r ue s) := by
  cases r with
  | bonded d => exact touches_setReg (.inr (.inl ⟨d, h, by split <;> omega, by split <;> omega⟩))
  | lpddr d ch => exact touches_setReg (.inr (.inl ⟨d, h, by split <;> omega, by split <;> omega⟩))
  | _ => exact .rfl

/-- A run of writes from `lo` on changes only the keys it reaches. -/
theorem mget_run {α : Type} [DecidableEq α] (d : α) (l : List α) (m : SMap α) (lo j : Nat) (h : j < lo ∨ lo + l.length ≤ j) :
    mget d (l.foldl (fun (p : SMap α × Nat) b => (mput d p.1 p.2 b, p.2 + 1)) (m, lo)).1 j = mget d m j := by
  induction l generalizing m lo with
  | nil => rfl
  | cons x r ih =>
    simp only [List.foldl_cons, List.length_cons] at h ⊢
    rw [ih _ _ (by omega), mget_mput_other _ _ _ _ _ _ (by omega)]

/-- The same for poison marks. -/
theorem mget_marks (l : List Bool) (m : SMap (BitVec 3)) (lo j : Nat) (h : j < lo ∨ lo + l.length ≤ j) :
    mget 0 (l.foldl (fun (p : SMap (BitVec 3) × Nat) b => (putMark p.1 p.2 b, p.2 + 1)) (m, lo)).1 j = mget 0 m j := by
  have hm := mget_run 0 (l.map markCopies) m lo j (by rwa [List.length_map])
  rw [List.foldl_map] at hm
  exact hm

theorem touches_recallOne (e : Snoop) : Touches (fun x => x / 128 = e.granule) s (recallOne s e) := by
  by_cases h : e.exclusive = true
  · have hx : ∃ f, recallOne s e = { s with
        mem := ((e.data.take 128).foldl (fun (p : Memory × Nat) b => (mput 0 p.1 p.2 b, p.2 + 1)) (s.mem, 128 * e.granule)).1,
        poison := ((e.poison.take 2).foldl (fun (p : SMap (BitVec 3) × Nat) b => (putMark p.1 p.2 b, p.2 + 1))
          (s.poison, 128 * e.granule / 64)).1, flaws := f } := ⟨_, if_pos h⟩
    obtain ⟨f, hx⟩ := hx
    rw [hx]
    have h1 : (e.data.take 128).length ≤ 128 := List.length_take_le _ _
    have h2 : (e.poison.take 2).length ≤ 2 := List.length_take_le _ _
    refine ⟨fun _ _ => rfl, fun _ => rfl, fun a ha => ?_, fun a ha => ?_⟩
    · exact mget_run 0 _ s.mem _ a (by omega)
    · exact congrArg majority (mget_marks _ s.poison _ (a / 64) (by omega))
  · rw [show recallOne s e = s from if_neg h]; exact .rfl

theorem touches_snoopRecall (w : Bool) (a len : Nat) : Touches (near a len) s (snoopRecall w a len s) := by
  unfold snoopRecall
  extract_lets hit t
  have h : Touches (near a len) s t := by
    refine touches_foldl _ _ (fun e he s => (touches_recallOne e).mono (fun x hx => ?_))
    have := (List.mem_filter.mp he).2
    simp only [hit, Bool.and_eq_true, decide_eq_true_eq] at this
    exact ⟨by omega, by omega⟩
  exact h.trans (touches_of_same rfl rfl rfl rfl)

theorem touches_flaws (s : State) (f : SMap (List Nat)) : Touches P s { s with flaws := f } := touches_of_same rfl rfl rfl rfl

theorem touches_snoop (s : State) (l : List Snoop) : Touches P s { s with snoop := l } := touches_of_same rfl rfl rfl rfl

theorem countError_poison (r : Region) (ue : Bool) (s : State) : (countError r ue s).poison = s.poison := by
  cases r <;> simp only [countError, bumpSat_eq, setReg_poison]

theorem touches_flipWord {g w : Nat} (h : w / 8 = g) : Touches (fun x => x / 64 = g) s (flipWord s w) := by
  refine touches_foldl _ _ (fun b _ s => ?_)
  split
  · next hb => exact ⟨fun _ _ => rfl, fun _ => rfl, fun x hx => mget_mput_other _ _ _ _ _ _ (fun h' => hx (by omega)), fun _ _ => rfl⟩
  · exact .rfl

theorem touches_correctWords {r : Region} (ws : List Nat) (h : r.dieOk) : Touches P s (correctWords r ws s) := by
  unfold correctWords
  by_cases hc : ws = []
  · rw [if_pos hc]; exact .rfl
  · rw [if_neg hc]; exact (touches_countError false h).trans (touches_flaws ..)

theorem touches_passWords {g : Nat} (ws : List Nat) (h : ∀ w ∈ ws, w / 8 = g) : Touches (fun x => x / 64 = g) s (passWords ws s) := by
  unfold passWords
  by_cases hc : ws = []
  · rw [if_pos hc]; exact .rfl
  · rw [if_neg hc]
    exact (touches_foldl _ _ (fun w hw s => touches_flipWord (h w hw))).trans (touches_of_same rfl rfl rfl rfl)

theorem touches_markGranule {r : Region} (g : Nat) (h : r.dieOk) : Touches (fun x => x / 64 = g) s (markGranule r g s) :=
  (touches_countError true h).trans ⟨fun _ _ => rfl, fun _ => rfl, fun _ _ => rfl, fun a ha => by
    rw [show granPoison (countError r true s) (a / 64) = granPoison s (a / 64) from by simp only [granPoison, countError_poison]]
    exact congrArg majority (mget_mput_other 0 0 s.poison g (a / 64) (markCopies true) ha)⟩

/-- The words a check names lie in its granule. -/
theorem wordsWith_near {r : Region} {g : Nat} {ws : List Nat} (h : ∀ w ∈ ws, w / 8 = g) (f : CodeFinding) :
    ∀ w ∈ wordsWith f (checkCodes r g ws s), w / 8 = g := by
  intro w hw
  simp only [wordsWith, List.mem_flatMap, List.mem_filter] at hw
  obtain ⟨x, ⟨hx, _⟩, hw⟩ := hw
  unfold checkCodes at hx
  split at hx
  · obtain rfl := List.mem_singleton.mp hx
    simp only [granWords, List.mem_map, List.mem_range] at hw
    omega
  · obtain ⟨v, hv, rfl⟩ := List.mem_map.mp hx
    obtain rfl := List.mem_singleton.mp hw
    exact h _ hv

theorem touches_checkGranule {r : Region} {g : Nat} {ws : List Nat} (opc : Nat) (h : r.dieOk) (hw : ∀ w ∈ ws, w / 8 = g) :
    Touches (fun x => x / 64 = g) s (checkGranule r g ws opc s).1 := by
  have k := (touches_correctWords (P := fun x => x / 64 = g) (s := s) (wordsWith .corrected (checkCodes r g ws s)) h).trans
    (touches_passWords (wordsWith .unseen (checkCodes r g ws s)) (wordsWith_near hw .unseen))
  unfold checkGranule
  dsimp only
  split
  · exact k
  · exact k.trans (touches_markGranule g h)

theorem granWords_near (g : Nat) : ∀ w ∈ granWords g, w / 8 = g := by
  intro w hw
  simp only [granWords, List.mem_map, List.mem_range] at hw
  omega

theorem partWords_near (g a len : Nat) : ∀ w ∈ partWords g a len, w / 8 = g :=
  fun w hw => granWords_near g w (List.mem_filter.mp hw).1

theorem mem_granules {a len g : Nat} (h : g ∈ granules a len) : a / 64 ≤ g ∧ 64 * g < a + len := by
  unfold granules at h
  split at h
  · cases h
  · simp only [List.mem_map, List.mem_range] at h
    omega

theorem near_of_granule {a len g x : Nat} (h : g ∈ granules a len) (hx : x / 64 = g) : near a len x := by
  have := mem_granules h
  exact ⟨by omega, by omega⟩

/-- A read changes nothing outside the granules it touches. -/
theorem touches_memRead (a len opc : Nat) : Touches (near a len) s (memRead a len opc s).2.1 := by
  refine (touches_snoopRecall false a len).trans
    (touches_foldl_pair _ _ (fun g hg p => ?_) (snoopRecall false a len s, []))
  dsimp only
  split
  · exact .rfl
  · next r hr => exact (touches_checkGranule _ (region_die hr) (granWords_near g)).mono (fun x hx => near_of_granule hg hx)

/-- A write changes nothing outside the granules it touches. -/
theorem touches_memWrite (a : Nat) (bs : List PByte) : Touches (near a bs.length) s (memWrite a bs s).1 := by
  refine (touches_snoopRecall true a bs.length).trans
    (touches_foldl_pair _ _ (fun g hg p => ?_) (snoopRecall true a bs.length s, []))
  dsimp only
  split
  · exact .rfl
  · next r hr =>
    have hd := region_die hr
    by_cases ho : regionOffline p.1 r = true
    · rw [if_pos ho]; exact touches_countError true hd
    · rw [if_neg ho]
      have hg' := mem_granules hg
      generalize hlo : Nat.max a (64 * g) = lo
      generalize hhi : Nat.min (a + bs.length) (64 * g + 64) = hi
      have hlo' : lo = max a (64 * g) := hlo.symm
      have hhi' : hi = min (a + bs.length) (64 * g + 64) := hhi.symm
      generalize hq : (if decide (hi - lo = 64) = true then (p.1, []) else
        checkGranule r g (if granuleCheck r = true then granWords g else partWords g lo (hi - lo)) 2 p.1) = q
      have h1 : Touches (near a bs.length) p.1 q.1 := by
        rw [← hq]
        by_cases hw : decide (hi - lo = 64) = true
        · rw [if_pos hw]; exact .rfl
        · rw [if_neg hw]
          refine (touches_checkGranule _ hd ?_).mono (fun x hx => near_of_granule hg hx)
          split
          · exact granWords_near g
          · exact fun w hw => partWords_near _ _ _ w hw
      clear hq
      refine h1.trans ⟨fun _ _ => rfl, fun _ => rfl, fun x hx => ?_, fun x hx => ?_⟩
      · have hm := mget_run 0 (((bs.drop (lo - a)).take (hi - lo)).map (fun b : PByte => b.1)) q.1.mem lo x (by
          simp only [List.length_map, List.length_take, List.length_drop]
          unfold near at hx
          omega)
        rw [List.foldl_map] at hm
        exact hm
      · exact congrArg majority (mget_mput_other _ _ _ _ _ _ (fun hx' => hx (near_of_granule hg hx')))

/-! ### Events and records -/

theorem inEventRing_of_shape (h : ∀ r, ringShape t r = ringShape s r) (x : Nat) : inEventRing t x ↔ inEventRing s x := by
  have h1 : ∀ r, (getRing t r).en = (getRing s r).en := fun r => congrArg (·.1) (h r)
  have h2 : ∀ r, (getRing t r).base = (getRing s r).base := fun r => congrArg (·.2.1) (h r)
  have h3 : ∀ r, (getRing t r).sizeLog2 = (getRing s r).sizeLog2 := fun r => congrArg (·.2.2) (h r)
  simp only [inEventRing, h1, h2, h3]

/-- Steps that keep to the event rings of the state they start from, one after another. -/
theorem Touches.then (h : Touches (inEventRing s) s t) (k : Touches (inEventRing t) t u) : Touches (inEventRing s) s u :=
  h.trans (k.mono (fun x hx => (inEventRing_of_shape h.shape x).mp hx))

theorem getRing_setRing' (r r' : Nat) (x : Ring) (s : State) :
    getRing (setRing r x s) r' = if r' = r then x else getRing s r' := mget_mput ..

theorem touches_setRing {r : Nat} {x : Ring} (h : (x.en, x.base, x.sizeLog2) = ringShape s r) : Touches P s (setRing r x s) := by
  refine ⟨fun _ _ => rfl, fun r' => ?_, fun _ _ => rfl, fun _ _ => rfl⟩
  unfold ringShape
  rw [getRing_setRing']
  by_cases hr : r' = r
  · subst hr; rw [if_pos rfl]; exact h
  · rw [if_neg hr]

theorem touches_ringIrq (r : Nat) : Touches P s (ringIrq r s) := by
  unfold ringIrq
  extract_lets g
  split
  · exact (touches_setRing (r := r) (x := { g with arm := false }) rfl).trans (touches_of_same rfl rfl rfl rfl)
  · exact .rfl

theorem touches_ringPut {v : Nat} (hv : v < 8) (b : List PByte) (hb : b.length = 16) :
    Touches (inEventRing s) s (ringPut (eventRing v) 16 b s).1 := by
  unfold ringPut
  extract_lets g a
  by_cases hc : (!g.en || decide (2 ^ g.sizeLog2.toNat ≤ (g.tail - g.head).toNat)) = true
  · rw [if_pos hc]; exact touches_setRing rfl
  · rw [if_neg hc]
    have hen : g.en = true := by simp at hc; exact hc.1
    rcases hw : memWrite a b s with ⟨t, rs⟩
    have h1 : Touches (inEventRing s) s t := by
      have := touches_memWrite (s := s) a b
      rw [hw] at this
      refine this.mono (fun x hx => ⟨v, hv, hen, ?_⟩)
      rw [hb] at hx
      have hm : g.tail.toNat % 2 ^ g.sizeLog2.toNat + 1 ≤ 2 ^ g.sizeLog2.toNat := Nat.mod_lt _ (Nat.two_pow_pos _)
      have hb2 : a + 16 ≤ g.base.toNat + 16 * 2 ^ g.sizeLog2.toNat := by
        have := Nat.mul_le_mul_left 16 hm
        simp only [a]; omega
      have hb1 : g.base.toNat ≤ a := by simp only [a]; omega
      unfold near at hx ⊢
      show 128 * (x / 128) < g.base.toNat + 16 * 2 ^ g.sizeLog2.toNat ∧ g.base.toNat < 128 * (x / 128) + 128
      omega
    exact h1.trans (touches_setRing rfl)

theorem leBytes_length (n v : Nat) : (leBytes n v).length = n := by
  induction n generalizing v with
  | zero => rfl
  | succ n ih => simp [leBytes, ih]

theorem touches_eventRaw (k cl qid : Nat) (info : W32) : Touches (inEventRing s) s (eventRaw k cl qid info s).1 := by
  unfold eventRaw
  extract_lets v r slot tl
  have hv : v < 8 := Nat.mod_lt _ (by decide)
  rcases hp : ringPut r 16 (clean slot) s with ⟨t, rs⟩
  have h : Touches (inEventRing s) s t := by
    have := touches_ringPut (s := s) hv (clean slot) (by simp [clean, slot, leBytes_length])
    rw [show eventRing v = r from rfl, hp] at this
    exact this
  by_cases hc : (getRing t r).tail = tl
  · exact (congrArg (fun x => Touches (inEventRing s) s x) (if_pos hc)).mpr h
  · exact (congrArg (fun x => Touches (inEventRing s) s x) (if_neg hc)).mpr (h.trans (touches_ringIrq r))

theorem touches_err (e : ErrBlock) : Touches P s { s with err := e } := touches_of_same rfl rfl rfl rfl

theorem touches_putRecord (r : Report) (co : Bool) (l : Option W32) : Touches (inEventRing s) s (putRecord r co l s).1 := by
  unfold putRecord
  extract_lets e x e'
  exact (touches_err e').then (touches_eventRaw ..)

theorem touches_fileReport (r : Report) : Touches (inEventRing s) s (fileReport r s).1 := by
  unfold fileReport
  extract_lets e e'
  split
  · exact touches_putRecord ..
  · split
    · exact touches_err _
    · split <;> exact touches_err _

theorem touches_offlineEffect (u : W32) : Touches P s (offlineEffect u s) := by
  unfold offlineEffect
  dsimp only
  repeat' split
  all_goals exact touches_of_same rfl rfl rfl rfl

theorem touches_setHUnit (k : Nat) (x : HUnit) : Touches P s (setHUnit k x s) := touches_of_same rfl rfl rfl rfl

theorem touches_refuseCandidate {k : Nat} (hk : keyCl k < 8) : Touches (inEventRing s) s (refuseCandidate k s).1 := by
  have hr : recordReg (hlRegs + 0x40 + 4 * keyCl k) := .inr (.inr ⟨by omega, by omega⟩)
  have h : Touches (inEventRing s) s (countCandidate k s) := by
    unfold countCandidate bumpSat
    exact (touches_of_same (s := s) (t := setRefused (keyCl k) (refusedWith k s) (modHUnit k (fun x => { x with suspect := true }) s))
      rfl rfl rfl rfl).trans (touches_setReg hr)
  exact h.then (touches_eventRaw ..)

theorem touches_suspectEvent (k : Nat) (was : Bool) : Touches (inEventRing s) s (suspectEvent k was s).1 := by
  unfold suspectEvent
  split
  · exact .rfl
  · exact touches_eventRaw ..

theorem touches_offlineCandidate {k : Nat} (hk : keyKind k ≠ 1 → keyCl k < 8) (old : W16) :
    Touches (inEventRing s) s (offlineCandidate k old s).1 := by
  unfold offlineCandidate
  split
  · exact touches_eventRaw ..
  · split
    · exact touches_refuseCandidate (hk ‹_›)
    · exact .rfl

/-- A unit with a score that is no tile is one of a cluster. -/
theorem scoredUnit_cl {u : W32} {k : Nat} (h : scoredUnit s u = some k) (hk : keyKind k ≠ 1) : keyCl k < 8 := by
  have hc : fld u 8 3 < 8 := Nat.mod_lt _ (by decide)
  unfold scoredUnit at h
  extract_lets cl i tile at h
  have hcl : cl < 8 := hc
  have tiles : tile = some k → keyKind k = 1 := by
    intro ht
    by_cases hb : tileOf s cl i < 9
    · have : hkey 1 cl (tileOf s cl i) = k := Option.some.inj ((if_pos hb).symm.trans ht)
      rw [← this]; simp only [keyKind, hkey]; omega
    · exact absurd ((if_neg hb).symm.trans ht) (by simp)
  split at h
  · exact absurd (tiles h) hk
  · exact absurd (tiles h) hk
  · split at h
    · cases h; simp only [keyCl, hkey]; omega
    · cases h
  · cases h; simp only [keyCl, hkey]; omega
  · cases h; simp only [keyCl, hkey]; omega
  · cases h

theorem touches_offlineHealth (u : W32) : Touches (inEventRing s) s (offlineHealth u s).1 := by
  unfold offlineHealth
  split
  · rename_i k h
    exact ((touches_setHUnit ..).then (touches_suspectEvent ..)).then (touches_offlineCandidate (scoredUnit_cl h) _)
  · exact .rfl

theorem touches_goOffline (u : W32) (r : Report) : Touches (inEventRing s) s (goOffline u r s).1 := by
  unfold goOffline
  extract_lets e r0 r1 e' before
  rcases hf : fileReport r1 { s with err := e' } with ⟨t, rs⟩
  have h : Touches (inEventRing s) s t := by
    have := (touches_err (P := inEventRing s) e').then (touches_fileReport (s := { s with err := e' }) r1)
    rw [hf] at this
    exact this
  exact ((h.then (touches_eventRaw ..)).then (touches_offlineHealth u)).then (touches_offlineEffect u)

theorem recordReg_phase {r : Report} {a : Nat} (h : phaseCounter s r = some a) : recordReg a := by
  have hk : r.kind.toNat < 256 := r.kind.isLt
  unfold phaseCounter at h
  repeat' split at h
  all_goals first
    | (simp only [Option.some.injEq] at h; exact .inl (by omega))
    | cases h

theorem touches_reportOne (r : Report) : Touches (inEventRing s) s (reportOne r s).1 := by
  unfold reportOne
  cases hp : phaseCounter s r with
  | some a => exact touches_setReg (recordReg_phase hp)
  | none =>
    extract_lets e win r' e'
    rcases hf : fileReport r' { s with err := e' } with ⟨t, rs⟩
    have h : Touches (inEventRing s) s t := by
      have := (touches_err (P := inEventRing s) e').then (touches_fileReport (s := { s with err := e' }) r')
      rw [hf] at this
      exact this
    by_cases hc : (win.isSome && uncorrectable r'.kind && !isOffline t r'.unit) = true
    · exact (congrArg (fun x : State × List Report => Touches (inEventRing s) s x.1) (if_pos hc)).mpr (h.then (touches_goOffline ..))
    · exact (congrArg (fun x : State × List Report => Touches (inEventRing s) s x.1) (if_neg hc)).mpr h

theorem touches_reportAll (n : Nat) (rs : List Report) : Touches (inEventRing s) s (reportAll n rs s) := by
  induction n generalizing rs s with
  | zero => exact .rfl
  | succ n ih =>
    cases rs with
    | nil => exact .rfl
    | cons r rest => exact (touches_reportOne r).then (ih ..)

/-- Error reports change only error counters and, of memory, the event rings in use. -/
theorem touches_reports (rs : List Report) : Touches (inEventRing s) s (reports rs s) := touches_reportAll ..

theorem touches_report (r : Report) : Touches (inEventRing s) s (report r s) := touches_reports ..

theorem touches_event (k cl qid : Nat) (info : W32) : Touches (inEventRing s) s (event k cl qid info s) :=
  (touches_eventRaw ..).then (touches_reports _)

/-- A write with its reports. -/
theorem touches_writeMem (a : Nat) (bs : List PByte) :
    Touches (fun x => near a bs.length x ∨ inEventRing s x) s (writeMem a bs s) := by
  have h := touches_memWrite (s := s) a bs
  exact (h.mono (fun _ hx => .inl hx)).trans
    ((touches_reports _).mono (fun x hx => .inr ((inEventRing_of_shape h.shape x).mp hx)))

/-- A read with its reports. -/
theorem touches_readMem (a len opc : Nat) :
    Touches (fun x => near a len x ∨ inEventRing s x) s (readMem a len opc s).2 := by
  have h := touches_memRead (s := s) a len opc
  exact (h.mono (fun _ hx => .inl hx)).trans
    ((touches_reports _).mono (fun x hx => .inr ((inEventRing_of_shape h.shape x).mp hx)))

end Sys2Proof.Machine
end

