-- ==== Sys2Proof/Laws/Halts.lean ====
section
/-! SUPPORT. What a halt does (R100-R105): the record in the queue, other queues, and everything else. -/

namespace Sys2Proof.Machine

/-- The state without its queues and protection generations, and without what recording an error touches. -/
def restQ (s : State) : State := { restOf s with queues := [], prot := [] }

theorem restQ_of_restOf {s t : State} (h : restOf t = restOf s) : restQ t = restQ s := by simp only [restQ, h]

@[simp] theorem restQ_setQ (cl q : Nat) (x : Queue) (s : State) : restQ (setQ cl q x s) = restQ s := .trans rfl rfl

@[simp] theorem restQ_trimGens (s : State) : restQ (trimGens s) = restQ s := .trans rfl rfl

/-- Everything a halt leaves alone, by field. -/
theorem restQ_field {α : Type} (f : State → α) (hf : ∀ s, f (restQ s) = f s) {s t : State} (h : restQ t = restQ s) :
    f t = f s := by rw [← hf t, h, hf s]

theorem getQ_of_queues {s t : State} (h : t.queues = s.queues) (cl q : Nat) : getQ t cl q = getQ s cl q := by
  simp only [getQ, h]

@[simp] theorem getQ_trimGens (s : State) (cl q : Nat) : getQ (trimGens s) cl q = getQ s cl q := .trans rfl rfl
@[simp] theorem getQ_takeFresh (s : State) (cl q : Nat) : getQ (takeFresh s) cl q = getQ s cl q := .trans rfl rfl
@[simp] theorem getQ_mem (s : State) (m : Memory) (cl q : Nat) : getQ { s with mem := m } cl q = getQ s cl q := .trans rfl rfl
@[simp] theorem getQ_report (r : Report) (s : State) (cl q : Nat) : getQ (report r s) cl q = getQ s cl q :=
  getQ_of_queues (report_queues r s) cl q
@[simp] theorem getQ_event (k c1 q1 : Nat) (i : W32) (s : State) (cl q : Nat) : getQ (event k c1 q1 i s) cl q = getQ s cl q :=
  getQ_of_queues (event_queues k c1 q1 i s) cl q

theorem restQ_mem (s : State) (m : Memory) : restQ (takeFresh { s with mem := m }) = restQ s := .trans rfl rfl

/-- The addresses the repeat in progress has written. -/
def undone (s : State) (cl q a : Nat) : Prop := ∃ c, (getQ s cl q).cur = some c ∧ ∃ p ∈ c.undo, p.1 = a

theorem mget_undo (f : Nat → Bool) (l : List (Nat × Byte)) (m : Memory) (a : Nat) (h : ∀ p ∈ l, p.1 ≠ a) :
    mget 0 (l.foldl (fun m x => if f x.1 = true then m else mput 0 m x.1 x.2) m) a = mget 0 m a := by
  induction l generalizing m with
  | nil => rfl
  | cons x r ih =>
    rw [List.foldl_cons, ih _ (fun p hp => h p (List.mem_cons_of_mem _ hp))]
    split
    · rfl
    · exact mget_mput_other _ _ _ _ _ _ (h x List.mem_cons_self).symm

/-- What settling a halted repeat does. -/
theorem settleHalted_spec (cl q : Nat) (s : State) :
    getQ (settleHalted cl q s) cl q =
      { getQ s cl q with cur := (getQ s cl q).cur.map (fun c => { c with undo := [] }) } ∧
    (∀ cl2 q2, qkey cl2 q2 ≠ qkey cl q → getQ (settleHalted cl q s) cl2 q2 = getQ s cl2 q2) ∧
    restQ (settleHalted cl q s) = restQ s ∧
    Touches (undone s cl q) s (settleHalted cl q s) := by
  have hq : ∀ x : Queue, x.cur = none → x = { x with cur := none } := by intro x h; cases x; simp_all
  unfold settleHalted
  cases hc : (getQ s cl q).cur with
  | none => exact ⟨(hq _ hc), fun _ _ _ => rfl, rfl, .rfl⟩
  | some c =>
    dsimp only
    by_cases hu : c.undo = []
    · rw [if_pos hu]
      refine ⟨?_, fun _ _ _ => rfl, rfl, .rfl⟩
      generalize getQ s cl q = x at hc ⊢
      cases x; cases c; simp_all
    · rw [if_neg hu]
      refine ⟨?_, fun cl2 q2 h => ?_, ?_, ?_⟩
      · rw [getQ_takeFresh, getQ_mem, modQ_eq, getQ_setQ_same]; rfl
      · rw [getQ_takeFresh, getQ_mem, modQ_eq, getQ_setQ, if_neg h]
      · rw [restQ_mem, modQ_eq, restQ_setQ]
      · refine ⟨fun _ _ => rfl, fun _ => rfl, fun a ha => ?_, fun _ _ => rfl⟩
        exact mget_undo _ _ _ _ (fun p hp hpa => ha ⟨c, hc, p, hp, hpa⟩)

/-- The queue as a halt leaves it. -/
def haltedQ (x : Queue) (reason : Nat) (addr : W48) (rep : Nat) (wrote : Bool) : Queue :=
  { x with halted := true, haltReason := BitVec.ofNat 8 reason, haltAddr := addr, repeatIdx := BitVec.ofNat 16 rep,
           partialOut := wrote, cur := x.cur.map (fun c => { c with waiting := false, undo := [] }) }

theorem touches_setQ {P : Nat → Prop} (cl q : Nat) (x : Queue) (s : State) : Touches P s (setQ cl q x s) :=
  touches_of_same rfl rfl rfl rfl

theorem touches_trimGens {P : Nat → Prop} (s : State) : Touches P s (trimGens s) := touches_of_same rfl rfl rfl rfl

theorem haltWith_spec (cl q reason : Nat) (addr : W48) (rep : Nat) (wrote : Bool) (extra : Report → Report) (s : State) :
    getQ (haltWith cl q reason addr rep wrote extra s) cl q = haltedQ (getQ s cl q) reason addr rep wrote ∧
    (∀ cl2 q2, qkey cl2 q2 ≠ qkey cl q → getQ (haltWith cl q reason addr rep wrote extra s) cl2 q2 = getQ s cl2 q2) ∧
    restQ (haltWith cl q reason addr rep wrote extra s) = restQ s ∧
    Touches (fun a => undone s cl q a ∨ inEventRing s a) s (haltWith cl q reason addr rep wrote extra s) := by
  obtain ⟨h1, h2, h3, h4⟩ := settleHalted_spec cl q s
  unfold haltWith
  generalize settleHalted cl q s = s1 at h1 h2 h3 h4
  extract_lets x0 xs x1 x job s2 r s3 s4
  have hx : x = haltedQ (getQ s cl q) reason addr rep wrote := by
    simp only [x, x1, xs, x0, h1, haltedQ, Option.map_map, Function.comp_def]
  have e3q : s3.queues = s2.queues ∧ restQ s3 = restQ s2 ∧ Touches (inEventRing s2) s2 s3 := by
    unfold s3
    split
    · exact ⟨rfl, rfl, .rfl⟩
    · exact ⟨report_queues .., restQ_of_restOf (restOf_report ..), touches_report _⟩
  clear_value s3
  have e4q : s4.queues = s3.queues ∧ restQ s4 = restQ s3 ∧ Touches (inEventRing s3) s3 s4 := by
    unfold s4
    split
    · exact ⟨event_queues .., restQ_of_restOf (restOf_event ..), touches_event ..⟩
    · exact ⟨rfl, rfl, .rfl⟩
  clear_value s4
  have hq : ∀ a b, getQ (trimGens s4) a b = getQ s2 a b := fun a b => by
    rw [getQ_trimGens, getQ_of_queues e4q.1, getQ_of_queues e3q.1]
  refine ⟨?_, fun cl2 q2 h => ?_, ?_, ?_⟩
  · rw [hq]; unfold s2; rw [getQ_setQ_same, hx]
  · rw [hq]; unfold s2; rw [getQ_setQ, if_neg h, h2 _ _ h]
  · rw [restQ_trimGens, e4q.2.1, e3q.2.1]; unfold s2; rw [restQ_setQ, h3]
  · have hs2 : Touches (fun a => undone s cl q a ∨ inEventRing s a) s s2 :=
      (h4.mono (fun _ h => .inl h)).trans (touches_setQ ..)
    have hin : ∀ {u : State}, (∀ r, ringShape u r = ringShape s r) → ∀ a, inEventRing u a → undone s cl q a ∨ inEventRing s a :=
      fun hu a ha => .inr ((inEventRing_of_shape hu a).mp ha)
    have hs3 := hs2.trans (e3q.2.2.mono (hin hs2.shape))
    have hs4 := hs3.trans (e4q.2.2.mono (hin hs3.shape))
    exact hs4.trans (touches_trimGens _)

/-- A queue that is not halted halts, for a reason that stops no job. -/
theorem haltQueue_plain {cl q : Nat} {h : Halt} {addr : W48} {rep : Nat} {s : State} (hl : (getQ s cl q).halted = false)
    (h1 : h.reason ≠ 0x0A) (h2 : h.reason ≠ 0x0E) :
    ∃ extra, haltQueue cl q h addr rep s = haltWith cl q h.reason addr rep h.wrote extra s := by
  unfold haltQueue
  simp only [hl, Bool.false_eq_true, false_and, if_false, h1, h2, or_self]
  split
  · exact ⟨_, rfl⟩
  · exact ⟨_, rfl⟩

theorem haltInstr_plain {cl q : Nat} {h : Halt} {c : Cur} {s : State} (hc : (getQ s cl q).cur = some c)
    (hl : (getQ s cl q).halted = false) (h1 : h.reason ≠ 0x0A) (h2 : h.reason ≠ 0x0E) :
    ∃ extra, haltInstr cl q h s = haltWith cl q h.reason c.slot c.rep (h.wrote || c.wrote) extra s := by
  unfold haltInstr
  simp only [hc]
  exact haltQueue_plain (h := { h with wrote := h.wrote || c.wrote }) hl h1 h2

/-- A halt in the words statements use. -/
theorem haltedAs_haltWith {cl q reason : Nat} {addr : W48} {rep : Nat} {wrote : Bool} {extra : Report → Report} {s : State} :
    HaltedAs s (haltWith cl q reason addr rep wrote extra s) cl q reason addr rep wrote := by
  have := (haltWith_spec cl q reason addr rep wrote extra s).1
  unfold HaltedAs
  rw [this]
  exact ⟨rfl, rfl, rfl, rfl, rfl, rfl, rfl⟩

theorem otherQueues_haltWith {cl q reason : Nat} {addr : W48} {rep : Nat} {wrote : Bool} {extra : Report → Report} {s : State} :
    OtherQueues cl q s (haltWith cl q reason addr rep wrote extra s) :=
  (haltWith_spec cl q reason addr rep wrote extra s).2.1

theorem flights_haltWith {cl q reason : Nat} {addr : W48} {rep : Nat} {wrote : Bool} {extra : Report → Report} {s : State} :
    (haltWith cl q reason addr rep wrote extra s).flights = s.flights :=
  restQ_field (·.flights) (fun _ => rfl) (haltWith_spec cl q reason addr rep wrote extra s).2.2.1

theorem sems_haltWith {cl q reason : Nat} {addr : W48} {rep : Nat} {wrote : Bool} {extra : Report → Report} {s : State} :
    (haltWith cl q reason addr rep wrote extra s).sems = s.sems :=
  restQ_field (·.sems) (fun _ => rfl) (haltWith_spec cl q reason addr rep wrote extra s).2.2.1

end Sys2Proof.Machine
end

