-- ==== Sys2Proof/Laws/Memory.lean ====
section
/-! SUPPORT. Memory operations keep the canonical form of memory and poison marks: recalls, checks, reads, writes, and what
they report. -/

namespace Sys2Proof.Machine

theorem memoryWf_same {s t : State} (h : MemoryWf s) (hm : t.mem = s.mem) (hp : t.poison = s.poison) : MemoryWf t :=
  ⟨hm ▸ h.1, hp ▸ h.2⟩

/-- A poison mark set or cleared. -/
theorem memoryWf_poison {s : State} (h : MemoryWf s) (g : Nat) (b : Bool) : MemoryWf { s with poison := putMark s.poison g b } :=
  ⟨h.1, canonical_mput 0 s.poison g (markCopies b) h.2⟩

/-- One byte written. -/
theorem memoryWf_byte {s : State} (h : MemoryWf s) (a : Nat) (b : Byte) : MemoryWf { s with mem := mput 0 s.mem a b } :=
  ⟨canonical_mput 0 s.mem a b h.1, h.2⟩

theorem memoryWf_foldl {α : Type} (f : State → α → State) (hf : ∀ s x, MemoryWf s → MemoryWf (f s x)) (l : List α) (s : State)
    (h : MemoryWf s) : MemoryWf (l.foldl f s) := by
  induction l generalizing s with
  | nil => exact h
  | cons x r ih => exact ih _ (hf s x h)

theorem memoryWf_foldl_pair {α β : Type} (f : State × β → α → State × β) (hf : ∀ p x, MemoryWf p.1 → MemoryWf (f p x).1)
    (l : List α) (p : State × β) (h : MemoryWf p.1) : MemoryWf (l.foldl f p).1 := by
  induction l generalizing p with
  | nil => exact h
  | cons x r ih => exact ih _ (hf p x h)

/-- Bytes written one after another keep the canonical form of a store. -/
theorem canonical_writes {α β : Type} [DecidableEq β] (d : β) (b : α → β) (l : List α) (q : SMap β × Nat)
    (h : canonical d q.1 = true) : canonical d (l.foldl (fun (q : SMap β × Nat) x => (mput d q.1 q.2 (b x), q.2 + 1)) q).1 = true := by
  induction l generalizing q with
  | nil => exact h
  | cons x r ih => exact ih _ (canonical_mput d q.1 q.2 (b x) h)

theorem memoryWf_bumpSat {s : State} (h : MemoryWf s) (a n : Nat) : MemoryWf (bumpSat a n s) := memoryWf_same h (.trans rfl rfl) (.trans rfl rfl)

theorem memoryWf_countError {s : State} (h : MemoryWf s) (r : Region) (ue : Bool) : MemoryWf (countError r ue s) := by
  unfold countError
  split
  · exact memoryWf_bumpSat h ..
  · exact memoryWf_bumpSat h ..
  · exact h

theorem memoryWf_recallOne {s : State} (h : MemoryWf s) (e : Snoop) : MemoryWf (recallOne s e) := by
  unfold recallOne
  extract_lets a mem po
  by_cases he : e.exclusive = true
  · rw [if_pos he]
    exact ⟨canonical_writes 0 (fun b => b) _ _ h.1, canonical_writes 0 markCopies _ _ h.2⟩
  · rw [if_neg he]; exact h

theorem memoryWf_snoopRecall {s : State} (h : MemoryWf s) (w : Bool) (a len : Nat) : MemoryWf (snoopRecall w a len s) := by
  unfold snoopRecall
  exact memoryWf_same (memoryWf_foldl recallOne (fun _ e k => memoryWf_recallOne k e) _ s h) rfl rfl

theorem memoryWf_flipWord {s : State} (h : MemoryWf s) (w : Nat) : MemoryWf (flipWord s w) := by
  unfold flipWord
  refine memoryWf_foldl _ (fun s b k => ?_) _ s h
  split
  · exact memoryWf_byte k ..
  · exact k

theorem memoryWf_correctWords {s : State} (h : MemoryWf s) (r : Region) (ws : List Nat) : MemoryWf (correctWords r ws s) := by
  unfold correctWords
  split
  · exact h
  · exact memoryWf_same (memoryWf_countError h r false) rfl rfl

theorem memoryWf_passWords {s : State} (h : MemoryWf s) (ws : List Nat) : MemoryWf (passWords ws s) := by
  unfold passWords
  split
  · exact h
  · exact memoryWf_same (memoryWf_foldl flipWord (fun _ w k => memoryWf_flipWord k w) ws s h) rfl rfl

theorem memoryWf_markGranule {s : State} (h : MemoryWf s) (r : Region) (g : Nat) : MemoryWf (markGranule r g s) :=
  ⟨(memoryWf_countError h r true).1, canonical_mput 0 s.poison g (markCopies true) h.2⟩

theorem memoryWf_checkGranule {s : State} (h : MemoryWf s) (r : Region) (g : Nat) (ws : List Nat) (opc : Nat) :
    MemoryWf (checkGranule r g ws opc s).1 := by
  have k := memoryWf_passWords (memoryWf_correctWords h r (wordsWith .corrected (checkCodes r g ws s)))
    (wordsWith .unseen (checkCodes r g ws s))
  unfold checkGranule
  dsimp only
  split
  · exact k
  · exact memoryWf_markGranule k ..

theorem memoryWf_memRead {s : State} (h : MemoryWf s) (a len opc : Nat) : MemoryWf (memRead a len opc s).2.1 := by
  refine memoryWf_foldl_pair _ ?_ (granules a len) (snoopRecall false a len s, []) (memoryWf_snoopRecall h ..)
  intro p g k
  dsimp only
  split
  · exact k
  · exact memoryWf_checkGranule k ..

theorem memoryWf_memWrite {s : State} (h : MemoryWf s) (a : Nat) (bs : List PByte) : MemoryWf (memWrite a bs s).1 := by
  refine memoryWf_foldl_pair _ ?_ (granules a bs.length) (snoopRecall true a bs.length s, []) (memoryWf_snoopRecall h ..)
  intro p g k
  dsimp only
  split
  · exact k
  · split
    · exact memoryWf_countError k ..
    · split
      · exact ⟨canonical_writes 0 (fun (b : PByte) => b.1) _ _ k.1, canonical_mput _ _ _ _ k.2⟩
      · have c := memoryWf_checkGranule k
        exact ⟨canonical_writes 0 (fun (b : PByte) => b.1) _ _ (c ..).1, canonical_mput _ _ _ _ (c ..).2⟩

theorem memoryWf_ringIrq {s : State} (h : MemoryWf s) (r : Nat) : MemoryWf (ringIrq r s) := by
  unfold ringIrq; dsimp only; split
  · exact memoryWf_same h rfl rfl
  · exact h

theorem memoryWf_ringPut {s : State} (h : MemoryWf s) (r n : Nat) (b : List PByte) : MemoryWf (ringPut r n b s).1 := by
  unfold ringPut; dsimp only; split
  · exact memoryWf_same h rfl rfl
  · exact memoryWf_same (memoryWf_memWrite h ..) rfl rfl

theorem memoryWf_eventRaw {s : State} (h : MemoryWf s) (k cl qid : Nat) (info : W32) : MemoryWf (eventRaw k cl qid info s).1 := by
  unfold eventRaw; dsimp only; split
  · exact memoryWf_ringPut h ..
  · exact memoryWf_ringIrq (memoryWf_ringPut h ..) _

theorem memoryWf_err {s : State} (h : MemoryWf s) (e : ErrBlock) : MemoryWf { s with err := e } := ⟨h.1, h.2⟩

theorem memoryWf_putRecord {s : State} (h : MemoryWf s) (r : Report) (co : Bool) (l : Option W32) : MemoryWf (putRecord r co l s).1 := by
  unfold putRecord
  extract_lets e ridx e'
  exact memoryWf_eventRaw (memoryWf_err h e') ..

theorem memoryWf_fileReport {s : State} (h : MemoryWf s) (r : Report) : MemoryWf (fileReport r s).1 := by
  unfold fileReport; dsimp only
  split
  · exact memoryWf_putRecord h ..
  · split
    · exact memoryWf_same h rfl rfl
    · split <;> exact memoryWf_same h rfl rfl

theorem memoryWf_offlineEffect {s : State} (h : MemoryWf s) (u : W32) : MemoryWf (offlineEffect u s) := by
  unfold offlineEffect; dsimp only
  repeat' split
  all_goals exact h

theorem memoryWf_refuseCandidate {s : State} (h : MemoryWf s) (k : Nat) : MemoryWf (refuseCandidate k s).1 := by
  exact memoryWf_eventRaw (s := countCandidate k s) ⟨h.1, h.2⟩ ..

theorem memoryWf_suspectEvent {s : State} (h : MemoryWf s) (k : Nat) (was : Bool) : MemoryWf (suspectEvent k was s).1 := by
  unfold suspectEvent
  split
  · exact h
  · exact memoryWf_eventRaw h ..

theorem memoryWf_offlineCandidate {s : State} (h : MemoryWf s) (k : Nat) (old : W16) : MemoryWf (offlineCandidate k old s).1 := by
  unfold offlineCandidate
  split
  · exact memoryWf_eventRaw h ..
  · split
    · exact memoryWf_refuseCandidate h ..
    · exact h

theorem memoryWf_setHUnit {s : State} (h : MemoryWf s) (k : Nat) (x : HUnit) : MemoryWf (setHUnit k x s) := ⟨h.1, h.2⟩

theorem memoryWf_offlineHealth {s : State} (h : MemoryWf s) (u : W32) : MemoryWf (offlineHealth u s).1 := by
  unfold offlineHealth
  split
  · exact memoryWf_offlineCandidate (memoryWf_suspectEvent (memoryWf_setHUnit h ..) ..) ..
  · exact h

theorem memoryWf_goOffline {s : State} (h : MemoryWf s) (u : W32) (r : Report) : MemoryWf (goOffline u r s).1 := by
  unfold goOffline; dsimp only
  apply memoryWf_offlineEffect
  apply memoryWf_offlineHealth
  apply memoryWf_eventRaw
  apply memoryWf_fileReport
  exact memoryWf_err h _

theorem memoryWf_reportOne {s : State} (h : MemoryWf s) (r : Report) : MemoryWf (reportOne r s).1 := by
  unfold reportOne
  cases phaseCounter s r with
  | some a => exact memoryWf_bumpSat h ..
  | none =>
    extract_lets e win r' e'
    rcases hx : fileReport r' { s with err := e' } with ⟨t, rs⟩
    have k : MemoryWf t := by
      have := memoryWf_fileReport (memoryWf_err h e') r'
      rwa [hx] at this
    by_cases hc : (win.isSome && uncorrectable r'.kind && !isOffline t r'.unit) = true
    · exact (congrArg (fun x : State × List Report => x.1) (if_pos hc)).symm ▸ memoryWf_goOffline k ..
    · exact (congrArg (fun x : State × List Report => x.1) (if_neg hc)).symm ▸ k

theorem memoryWf_reports {s : State} (h : MemoryWf s) (rs : List Report) : MemoryWf (reports rs s) := by
  unfold reports
  generalize reportFuel rs s = n
  induction n generalizing rs s with
  | zero => exact h
  | succ n ih =>
    cases rs with
    | nil => exact h
    | cons r rest => exact ih (memoryWf_reportOne h r) _

/-- Reading memory keeps the canonical form (R191, R204, R497). -/
theorem memoryWf_readMem {s : State} (h : MemoryWf s) (a len opc : Nat) : MemoryWf (readMem a len opc s).2 := by
  unfold readMem; dsimp only
  exact memoryWf_reports (memoryWf_memRead h ..) _

/-- Writing memory keeps the canonical form (R191, R205, R497). -/
theorem memoryWf_writeMem {s : State} (h : MemoryWf s) (a : Nat) (bs : List PByte) : MemoryWf (writeMem a bs s) := by
  unfold writeMem; dsimp only
  exact memoryWf_reports (memoryWf_memWrite h ..) _

theorem memoryWf_event {s : State} (h : MemoryWf s) (k cl qid : Nat) (info : W32) : MemoryWf (event k cl qid info s) := by
  unfold event; dsimp only
  exact memoryWf_reports (memoryWf_eventRaw h ..) _

theorem memoryWf_reset : MemoryWf State.reset := ⟨rfl, rfl⟩

end Sys2Proof.Machine
end

