-- ==== Sys2Proof/Laws/Queue.lean ====
section
/-! SUPPORT. What a queue's engine does with the instruction in progress. -/

namespace Sys2Proof.Machine

theorem headWord_of_running {s : State} {cl qid : Nat} {c : Cur} (h : Running s cl qid c) :
    headWord s cl qid = some c.word := by
  simp [headWord, h.cur, h.read]

/-- An instruction in progress needs nothing more before its engine runs it. -/
theorem prepare_of_running {s : State} {cl qid : Nat} {c : Cur} (h : Running s cl qid c) :
    prepare cl qid s = (taken s cl qid c, some c) := by
  have h1 := h.stays
  have h2 := h.present
  have h3 := h.live
  have h4 := h.cur
  have hs := h.started
  have hd := h.decoded
  have hr := h.read
  have hg := h.going
  have hb := h.block
  cases c
  simp only at hs hd hr hg
  subst hs hd hr hg
  simp only [prepare, hb]
  simp [h4, h1, h2, h3, taken]

/-- The engine runs one repeat of it. -/
theorem engineStep_of_running {s : State} {cl qid op : Nat} {c : Cur} (ars : State → Cur → List Nat) (p : Cur → QM Bool)
    (h : Running s cl qid c) (ho : wOpcode c.word = op) :
    engineStep cl qid op ars p s = runProgram cl qid (fun s => ars s c) (p c) (taken s cl qid c) := by
  simp [engineStep, headWord_of_running h, ho, prepare_of_running h, h.busy]

/-- A program that finishes a repeat. -/
theorem engineStep_done {s t : State} {cl qid op : Nat} {c : Cur} (ars : State → Cur → List Nat) (p : Cur → QM Bool)
    (h : Running s cl qid c) (ho : wOpcode c.word = op) (hp : (p c).run (taken s cl qid c) = .ok true t) :
    engineStep cl qid op ars p s = repeatDone cl qid (ars t c) t := by
  rw [engineStep_of_running ars p h ho]
  simp [runProgram, hp]

/-- A program that waits. -/
theorem engineStep_waits {s t : State} {cl qid op : Nat} {c : Cur} (ars : State → Cur → List Nat) (p : Cur → QM Bool)
    (h : Running s cl qid c) (ho : wOpcode c.word = op) (hp : (p c).run (taken s cl qid c) = .ok false t) :
    engineStep cl qid op ars p s = t := by
  rw [engineStep_of_running ars p h ho]
  simp [runProgram, hp]

/-- A program that halts, by anything but an access that is held. -/
theorem engineStep_halts {s t : State} {cl qid op : Nat} {c : Cur} {e : Halt} (ars : State → Cur → List Nat)
    (p : Cur → QM Bool) (h : Running s cl qid c) (ho : wOpcode c.word = op)
    (hp : (p c).run (taken s cl qid c) = .error e t) (hh : e.held = false) :
    engineStep cl qid op ars p s = haltInstr cl qid e t := by
  rw [engineStep_of_running ars p h ho]
  simp [runProgram, hp, hh]

/-- A program that meets an access that is held leaves everything as it was (R185). -/
theorem engineStep_held {s t : State} {cl qid op : Nat} {c : Cur} {e : Halt} (ars : State → Cur → List Nat)
    (p : Cur → QM Bool) (h : Running s cl qid c) (ho : wOpcode c.word = op)
    (hp : (p c).run (taken s cl qid c) = .error e t) (hh : e.held = true) :
    engineStep cl qid op ars p s = taken s cl qid c := by
  rw [engineStep_of_running ars p h ho]
  simp [runProgram, hp, hh]

/-! ### Queues and the rest -/

theorem onQueue_ok {q : BitVec 13} {t : State} (h : validQid q.toNat = true) : onQueue q t = .next t := by
  simp [onQueue, h]

theorem cur_eq (x : Queue) (c : Cur) (h : x.cur = some c) : { x with cur := some c } = x := by cases x; simp_all

theorem getQ_moveGen (cl q : Nat) (s : State) : getQ (moveGen cl q s) cl q = { getQ s cl q with gen := newestGen s } := by
  unfold moveGen; rw [getQ_trimGens, modQ_eq, getQ_setQ_same]
theorem otherQueues_moveGen (cl q : Nat) (s : State) : OtherQueues cl q s (moveGen cl q s) := fun a b h => by
  unfold moveGen; rw [getQ_trimGens, modQ_eq, getQ_setQ, if_neg h]
theorem otherQueues_setQ (cl q : Nat) (x : Queue) (s : State) : OtherQueues cl q s (setQ cl q x s) := fun a b h => by
  rw [getQ_setQ, if_neg h]
theorem OtherQueues.trans {cl q : Nat} {s t u : State} (h : OtherQueues cl q s t) (k : OtherQueues cl q t u) : OtherQueues cl q s u :=
  fun a b hk => (k a b hk).trans (h a b hk)
theorem OnlyQueues.trans {s t u : State} (h : OnlyQueues s t) (k : OnlyQueues t u) : OnlyQueues s u := by
  obtain ⟨a, b, rfl⟩ := h; obtain ⟨c, d, rfl⟩ := k; exact ⟨_, _, rfl⟩
theorem onlyQueues_setQ (cl q : Nat) (x : Queue) (s : State) : OnlyQueues s (setQ cl q x s) := ⟨_, s.prot, rfl⟩
theorem onlyQueues_moveGen (cl q : Nat) (s : State) : OnlyQueues s (moveGen cl q s) := ⟨_, _, rfl⟩

/-- Both enabled waits are met (R83). -/
theorem unmetWait_none (s : State) (cl : Nat) (w : BitVec 256) : unmetWait s cl w = none ↔
   ∀ i < 2, (waitField w i).en = true → (waitField w i).thresh ≤ (getSem s cl (waitField w i).sem).value.toNat := by
  have e : ∀ f, waitMetBy s cl f = true ↔ (f.en = true → f.thresh ≤ (getSem s cl f.sem).value.toNat) := by
    intro f; unfold waitMetBy; cases f.en <;> simp
  unfold unmetWait
  constructor
  · intro h i hi
    by_cases h0 : waitMetBy s cl (waitField w 0) = true
    · by_cases h1 : waitMetBy s cl (waitField w 1) = true
      · have : i = 0 ∨ i = 1 := by omega
        rcases this with rfl | rfl
        · exact (e _).mp h0
        · exact (e _).mp h1
      · simp [h0, h1] at h
    · simp [h0] at h
  · intro h
    simp [(e _).mpr (h 0 (by omega)), (e _).mpr (h 1 (by omega))]

/-- A counter that is not lost is met without effect (R534). -/
theorem meetCounter_sound {s : State} {cl n : Nat} (h : s.bad.contains (.counter cl n) = false) : meetCounter cl n s = s := by
  unfold meetCounter; rw [if_neg (by simp only [h, Bool.false_eq_true, not_false_eq_true])]

/-- The waits of an instruction whose counters are all to be read are evaluated without effect. -/
theorem meetWaits_sound {s : State} {cl : Nat} {c : Cur} (hb : c.badWait = false)
    (h : ∀ i < 2, (waitField c.word i).en = true → s.bad.contains (.counter cl (waitField c.word i).sem) = false) :
    meetWaits cl c s = (false, s) := by
  have hl : ∀ i < 2, ((waitField c.word i).en && s.bad.contains (.counter cl (waitField c.word i).sem)) = false := by
    intro i hi
    cases he : (waitField c.word i).en
    · rfl
    · exact h i hi he
  have hm : ∀ i < 2, (if (waitField c.word i).en = true then meetCounter cl (waitField c.word i).sem s else s) = s := by
    intro i hi
    split
    · next he => exact meetCounter_sound (h i hi he)
    · rfl
  unfold meetWaits
  dsimp only
  rw [hb, hl 0 (by omega), hl 1 (by omega), hm 0 (by omega), hm 1 (by omega)]
  rfl

/-- Nothing but its fence and its waits holds back an instruction that is ready. -/
theorem prepare_ready (cl q : Nat) (s : State) (c : Cur) (h : Ready s cl q c) :
    prepare cl q s = (
    let s := setQ cl q (getQ s cl q) s
    if (wFence c.word ∨ wYield c.word) ∧ ¬ queueDrained s cl q then (s, none)
            else
              let s := if wFence c.word ∨ wYield c.word then moveGen cl q s else s
              match unmetWait s cl c.word with
              | some _ =>
                let s := if c.waiting then s else modQ cl q (fun q => { q with waitCount := 0 }) s
                (modQ cl q (fun q => { q with cur := some { c with waiting := true } }) s, none)
              | none =>
                let c := { c with waiting := false, started := true }
                (modQ cl q (fun q => { q with cur := some c }) s, some c)) := by
  have hw : ∀ t : State, t.bad = s.bad → meetWaits cl c t = (false, t) := fun t ht =>
    meetWaits_sound h.counters.1 (fun i hi he => by rw [ht]; exact h.counters.2 i hi he)
  unfold prepare
  have h1 := h.cur; have h2 := h.live; have h3 := h.run; have h4 := h.present; have h5 := h.stays
  have h6 := h.started; have h7 := h.decoded; have h8 := h.read; have h9 := h.accepted
  have hb := h.counters.1
  rw [h.block, h4, h5]
  generalize hx : getQ s cl q = x at h1 h2 h3 h9 ⊢
  cases x; cases c
  simp only at h1 h2 h3 h6 h7 h8 h9 hb
  subst h1 h2 h3 h6 h7 h8 h9 hb
  simp only [Bool.or_self, Bool.false_eq_true, if_false, if_true, Bool.not_false, Bool.not_true, Bool.and_false, Bool.false_and,
    Option.isSome_none, modQ_eq, hx]
  split
  · rfl
  · rw [hw _ (by split <;> rfl)]
    all_goals rfl

/-- A queue that is changed: itself, but for the generation it holds, the other queues, and the rest. -/
theorem stepQueue_spec (cl q : Nat) (f : Queue → Queue) (s : State) :
    (∃ g, getQ (stepQueue cl q f s) cl q = { f (getQ s cl q) with gen := g }) ∧ OtherQueues cl q s (stepQueue cl q f s) ∧
      OnlyQueues s (stepQueue cl q f s) := by
  unfold stepQueue
  extract_lets old t new
  have ht : getQ t cl q = f (getQ s cl q) := getQ_setQ_same ..
  have ho : OtherQueues cl q s t := fun a b h => by unfold t; rw [getQ_setQ, if_neg h]
  have hq : OnlyQueues s t := ⟨_, s.prot, rfl⟩
  split
  · split
    · exact ⟨⟨_, ht⟩, ho, hq⟩
    · exact ⟨⟨_, ht⟩, ho, ⟨_, _, rfl⟩⟩
  · split
    · refine ⟨⟨newestGen t, ?_⟩, fun a b h => ?_, ?_⟩
      · rw [modQ_eq, getQ_setQ_same, ht]
      · rw [modQ_eq, getQ_setQ, if_neg h]; exact ho a b h
      · exact ⟨_, _, rfl⟩
    · exact ⟨⟨_, ht⟩, ho, hq⟩

/-! ### An instruction that completes -/

theorem issueSignal_eq (cl q i : Nat) (w : BitVec 256) (s : State) :
    issueSignal cl q i w s = { s with flights := s.flights ++ (if (sigField w i).en then
      [{ srcCl := cl, srcQid := q, cl := (sigField w i).target cl, sem := (sigField w i).sem, inc := (sigField w i).inc,
         remote := (sigField w i).remote }] else []) } := by
  unfold issueSignal
  dsimp only
  split
  · rfl
  · simp

theorem touches_flights {P : Nat → Prop} (s : State) (l : List Flight) : Touches P s { s with flights := l } :=
  touches_of_same rfl rfl rfl rfl

/-- A doorbell refused while the queue was busy, once it is so no more (R71). -/
def ovfDue (s : State) (cl q : Nat) : Option W48 := if queueDrained s cl q then (getQ s cl q).ovfReq else none

/-- What atBoundary does to a queue that holds no instruction: a refused doorbell halts it, when no block of it is held
any more (R71). -/
theorem atBoundary_spec {cl q : Nat} {s : State} (hc : (getQ s cl q).cur = none) (hl : (getQ s cl q).halted = false) :
    let x := getQ s cl q
    let t := atBoundary cl q s
    getQ t cl q = (match ovfDue s cl q with
      | some a => haltedQ { x with ovfReq := none } 0x0C a 0 false
      | none => x) ∧
    OtherQueues cl q s t ∧ t.flights = s.flights ∧ t.sems = s.sems ∧ Touches (inEventRing s) s t := by
  intro x t
  have hd : (if busyInstr s cl q = true then none else (getQ s cl q).ovfReq) = ovfDue s cl q := by
    unfold busyInstr ovfDue
    rw [hc]
    cases queueDrained s cl q <;> rfl
  unfold t atBoundary
  dsimp only
  rw [hd]
  cases ho : ovfDue s cl q with
  | none => exact ⟨by rw [getQ_trimGens], fun _ _ _ => getQ_trimGens .., rfl, rfl, touches_trimGens _⟩
  | some a =>
    dsimp only
    generalize hs1 : modQ cl q (fun q => { q with ovfReq := none }) s = s1
    have hq : getQ s1 cl q = { x with ovfReq := none } := by rw [← hs1, modQ_eq, getQ_setQ_same]
    have ho1 : OtherQueues cl q s s1 := by rw [← hs1, modQ_eq]; exact fun a b h => by rw [getQ_setQ, if_neg h]
    have ht : Touches (inEventRing s) s s1 := by rw [← hs1, modQ_eq]; exact touches_setQ ..
    have hf : s1.flights = s.flights := by rw [← hs1]; rfl
    have hm : s1.sems = s.sems := by rw [← hs1]; rfl
    clear hs1
    obtain ⟨ex, he⟩ := haltQueue_plain (cl := cl) (q := q) (h := { reason := 0x0C }) (addr := a) (rep := 0) (s := s1)
      (by rw [hq]; exact hl) (by decide) (by decide)
    rw [he]
    obtain ⟨h1, h2, h3, h4⟩ := haltWith_spec cl q 0x0C a 0 false ex s1
    refine ⟨by rw [h1, hq], fun a b h => (h2 a b h).trans (ho1 a b h), ?_, ?_, ?_⟩
    · rw [flights_haltWith, hf]
    · rw [sems_haltWith, hm]
    · refine ht.then (h4.mono (fun y hy => hy.elim (fun hu => ?_) id))
      obtain ⟨c, hc', _⟩ := hu
      rw [hq] at hc'
      rw [show ({ x with ovfReq := none } : Queue).cur = none from hc] at hc'
      cases hc'

/-- From `s` on, one queue has come to be `x` and the signals on their way `fl`; nothing else has changed but records. -/
structure QueueAt (cl q : Nat) (s : State) (x : Queue) (fl : List Flight) (t : State) : Prop where
  queue : getQ t cl q = x
  others : OtherQueues cl q s t
  flights : t.flights = fl
  sems : t.sems = s.sems
  tiles : t.tiles = s.tiles
  touches : Touches (inEventRing s) s t

theorem QueueAt.setQ {cl q : Nat} {s t : State} {x : Queue} {fl : List Flight} (h : QueueAt cl q s x fl t) (y : Queue) :
    QueueAt cl q s y fl (setQ cl q y t) :=
  ⟨getQ_setQ_same .., fun a b hk => by rw [getQ_setQ, if_neg hk]; exact h.others a b hk, h.flights, h.sems, h.tiles,
   h.touches.trans (touches_setQ ..)⟩

/-- The flight of signal field `i`, if it is enabled. -/
def flightOf (cl q i : Nat) (w : BitVec 256) : List Flight :=
  if (sigField w i).en then
    [{ srcCl := cl, srcQid := q, cl := (sigField w i).target cl, sem := (sigField w i).sem, inc := (sigField w i).inc,
       remote := (sigField w i).remote }]
  else []

theorem signalsOf_eq (cl q : Nat) (w : BitVec 256) : signalsOf cl q w = flightOf cl q 0 w ++ flightOf cl q 1 w := by
  unfold signalsOf flightOf
  simp only [List.range, List.range.loop, List.map_cons, List.map_nil, List.filterMap_cons, List.filterMap_nil]
  cases (sigField w 0).en <;> cases (sigField w 1).en <;> rfl

theorem QueueAt.signal {cl q : Nat} {s t : State} {x : Queue} {fl : List Flight} (h : QueueAt cl q s x fl t) (i : Nat)
    (w : BitVec 256) : QueueAt cl q s x (fl ++ flightOf cl q i w) (issueSignal cl q i w t) := by
  rw [issueSignal_eq]
  exact ⟨h.queue, h.others, congrArg (· ++ _) h.flights, h.sems, h.tiles, h.touches.trans (touches_flights ..)⟩

theorem QueueAt.event {cl q : Nat} {s t : State} {x : Queue} {fl : List Flight} (h : QueueAt cl q s x fl t)
    (k c1 q1 : Nat) (i : W32) : QueueAt cl q s x fl (event k c1 q1 i t) :=
  ⟨by rw [getQ_event]; exact h.queue, fun a b hk => by rw [getQ_event]; exact h.others a b hk,
   by rw [event_flights]; exact h.flights, by rw [event_sems]; exact h.sems,
   by rw [event_tiles]; exact h.tiles, h.touches.then (touches_event ..)⟩

theorem QueueAt.drained {cl q : Nat} {s t : State} {x : Queue} {fl : List Flight} (h : QueueAt cl q s x fl t) :
    queueDrained t cl q = queueDrained s cl q := by simp only [queueDrained, getTile, h.tiles]

theorem tiles_atBoundary {cl q : Nat} {s : State} (hl : (getQ s cl q).halted = false) : (atBoundary cl q s).tiles = s.tiles := by
  unfold atBoundary
  dsimp only
  split
  · obtain ⟨ex, he⟩ := haltQueue_plain (cl := cl) (q := q) (h := { reason := 0x0C }) (addr := _) (rep := 0)
      (s := modQ cl q (fun q => { q with ovfReq := none }) s) (by rw [modQ_eq, getQ_setQ_same]; exact hl) (by decide) (by decide)
    rw [he]
    exact restQ_field (·.tiles) (fun _ => rfl) ((haltWith_spec ..).2.2.1.trans (restQ_setQ ..))
  · rfl

theorem QueueAt.boundary {cl q : Nat} {s t : State} {x : Queue} {fl : List Flight} (h : QueueAt cl q s x fl t)
    (hc : x.cur = none) (hl : x.halted = false) :
    QueueAt cl q s (match (if queueDrained s cl q then x.ovfReq else none) with
      | some a => haltedQ { x with ovfReq := none } 0x0C a 0 false
      | none => x) fl (atBoundary cl q t) := by
  obtain ⟨h1, h2, h3, h4, h5⟩ := atBoundary_spec (cl := cl) (q := q) (s := t) (by rw [h.queue]; exact hc)
    (by rw [h.queue]; exact hl)
  refine ⟨?_, h.others.trans h2, h3.trans h.flights, h4.trans h.sems,
    (tiles_atBoundary (by rw [h.queue]; exact hl)).trans h.tiles, h.touches.then h5⟩
  rw [h1, ovfDue, h.drained, h.queue]

theorem QueueAt.refl (cl q : Nat) (s : State) : QueueAt cl q s (getQ s cl q) s.flights s :=
  ⟨rfl, fun _ _ _ => rfl, rfl, rfl, rfl, .rfl⟩

/-- The last repeat of an instruction is done: its signals are issued, its queue holds no instruction, and a refused
doorbell halts it unless a block of it is still held. Its completion interrupt and that halt touch nothing but records. -/
theorem repeatDone_last {cl q : Nat} {c : Cur} {s : State} (l : List Nat) (hc : (getQ s cl q).cur = some c)
    (hl : (getQ s cl q).halted = false) (hr : wRepeat c.word ≤ c.rep) :
    let y := { getQ s cl q with cur := none, ars := if wArwb c.word then l.eraseDups.foldl (fun r a =>
      setAt r a (arWriteBack (r.getD a AR.reset) (wRepeat c.word + 1))) (getQ s cl q).ars else (getQ s cl q).ars }
    QueueAt cl q s (match ovfDue s cl q with
      | some a => haltedQ { y with ovfReq := none } 0x0C a 0 false
      | none => y) (s.flights ++ signalsOf cl q c.word) (repeatDone cl q l s) := by
  intro y
  have h0 := QueueAt.refl cl q s
  unfold repeatDone completeInstr
  simp only [hc, Nat.not_lt.mpr hr, if_false, modQ_eq, getQ_setQ_same, signalsOf_eq, ← List.append_assoc]
  -- signal 0, issued with the repeat or with the instruction
  have h1 : ∃ fl, QueueAt cl q s (getQ s cl q) fl (if wEach c.word = true then issueSignal cl q 0 c.word s else s) ∧
      (if wEach c.word = true then fl else fl ++ flightOf cl q 0 c.word) = s.flights ++ flightOf cl q 0 c.word := by
    cases wEach c.word
    · exact ⟨_, h0, rfl⟩
    · exact ⟨_, h0.signal 0 c.word, rfl⟩
  obtain ⟨fl, h1, hfl⟩ := h1
  generalize (if wEach c.word = true then issueSignal cl q 0 c.word s else s) = s1 at h1 ⊢
  rw [h1.queue]
  have h2 : ∃ x, QueueAt cl q s x fl (if wArwb c.word = true then
      setQ cl q { getQ s cl q with
        cur := some { c with rep := c.rep + 1, wrote := false, liveWait := false, undo := [] },
        ars := l.eraseDups.foldl (fun r a => setAt r a (arWriteBack (r.getD a AR.reset) (wRepeat c.word + 1))) (getQ s cl q).ars }
        (setQ cl q { getQ s cl q with
          cur := some { c with rep := c.rep + 1, wrote := false, liveWait := false, undo := [] } } s1)
      else setQ cl q { getQ s cl q with
          cur := some { c with rep := c.rep + 1, wrote := false, liveWait := false, undo := [] } } s1) ∧
      { x with cur := none } = y := by
    cases hw : wArwb c.word
    · exact ⟨_, h1.setQ _, by simp only [y, hw, Bool.false_eq_true, if_false]⟩
    · exact ⟨_, (h1.setQ _).setQ _, by simp only [y, hw, if_true]⟩
  obtain ⟨x, h2, hx⟩ := h2
  generalize (if wArwb c.word = true then _ else _ : State) = s2 at h2 ⊢
  have h3 : QueueAt cl q s x (s.flights ++ flightOf cl q 0 c.word) (if wEach c.word = true then s2 else issueSignal cl q 0 c.word s2) := by
    rw [← hfl]
    cases wEach c.word
    · exact h2.signal 0 c.word
    · exact h2
  generalize (if wEach c.word = true then s2 else issueSignal cl q 0 c.word s2) = s3 at h3 ⊢
  have h4 := h3.signal 1 c.word
  rw [h4.queue, hx]
  have h5 := h4.setQ y
  have h6 : ∀ i, QueueAt cl q s y (s.flights ++ flightOf cl q 0 c.word ++ flightOf cl q 1 c.word) (if wIrq c.word = true then event 2 cl q i (setQ cl q y (issueSignal cl q 1 c.word s3))
      else setQ cl q y (issueSignal cl q 1 c.word s3)) := by
    intro i
    cases wIrq c.word
    · exact h5
    · exact h5.event ..
  exact (h6 c.count).boundary rfl hl

end Sys2Proof.Machine
end

