-- ==== Sys2Proof/Tests/Slice0.lean ====
section
/-! SUPPORT. Tests: ill-formed commands are refused by the check of syntax, every statement's hypotheses are met by a state
given here, and a step of each family on a small state gives what the rule named in the test's comment says. -/

namespace Sys2Proof.Tests

set_option Elab.async false

open Sys2Proof Sys2Proof.Machine

/-! ### Ill-formed commands -/

/-- A packet of 32 bytes. -/
def blankPacket : List Byte := List.replicate 32 0

/-- No queue lies between the engines and the groups (R112). -/
theorem test_wf_qid : (Instr.nop 0 26).wf = false ∧ (Instr.nop 0 0xFFF).wf = false ∧ (Instr.nop 0 25).wf = true ∧
    (Instr.nop 0 0x1000).wf = true := by decide
theorem test_wf_initiator : (Instr.semAdd (.engine 0 30) 0 0).wf = false ∧ (Instr.semAdd (.engine 0 3) 0 0).wf = true := by decide
theorem test_wf_packet_short : (Instr.getStatus (.ring 0)).wf = true ∧ (Instr.getStatus (.harness [] 0)).wf = false := by decide
theorem test_wf_packet_long : (Instr.getStatus (.harness (List.replicate 2049 0) 0)).wf = false := by decide +kernel
theorem test_wf_peer_address : (Instr.getStatus (.mgmt 0 blankPacket 0 (2 ^ 32) false 0)).wf = false ∧
    (Instr.getStatus (.mgmt 0 blankPacket 0 (2 ^ 32) true 0)).wf = true := by decide
theorem test_wf_poison_marks : (Instr.companionWrite 0 0 [1] [true, true] false).wf = false ∧
    (Instr.companionWrite 0 0 [1] [true] false).wf = true := by decide
theorem test_wf_worm : (Instr.wormRoute none ⟨.pkt, 1, 0, 0, false, true, true, [1, 2], [true, true], 0⟩).wf = false := by decide
theorem test_wf_route : (Instr.configReceive 1 (1, (.route 1 2 [8]))).wf = false ∧ (Instr.configReceive 1 (1, (.route 1 9 []))).wf = false ∧ (Instr.configReceive 1 (9, (.relay true))).wf = false ∧
    (Instr.configReceive 1 (1, (.route 1 2 [8, 9]))).wf = true := by decide
theorem test_wf_unit : (Instr.testDue ⟨3, 0, 0⟩).wf = false ∧ (Instr.testDue ⟨1, 0, 9⟩).wf = false ∧ (Instr.testDue ⟨2, 0, 8⟩).wf = false ∧
    (Instr.testDue ⟨4, 0, 1⟩).wf = false ∧ (Instr.testDue ⟨5, 0, 1⟩).wf = false ∧ (Instr.testDue ⟨1, 0, 8⟩).wf = true := by decide
theorem test_wf_flit : (Instr.flitUncorrectable 0 1 0 (.control 0 27)).wf = false ∧ (Instr.flitUncorrectable 0 0 0 (.memory 0)).wf = false ∧
    (Instr.flitUncorrectable 0 1 0 (.memory 0)).wf = true := by decide
theorem test_wf_bundle : (Instr.bundleLaneFail 2 2 0 0).wf = false := by decide
theorem test_wf_span : (Instr.companionRead 0 0 0 false false).wf = false ∧
    (Instr.companionRead 0 0xFFFF_FFFF_FFFF 2 false false).wf = false ∧
    (Instr.debugTapAccess (.readMem 0 0)).wf = false ∧ (Instr.debugTapAccess (.writeMem 0 [])).wf = false := by decide
theorem test_wf_pause : (Instr.pfcReceive 0 0 [1] 0).wf = false := by decide
theorem test_wf_readings : (Instr.regionCheck []).wf = false ∧ (Instr.tempSample [1]).wf = false := by decide
theorem test_wf_register_address : (Instr.registerWrite .mc 2 0).wf = false ∧ (Instr.readClear .mc 1).wf = false ∧
    (Instr.latchedRead .mc 3).wf = false ∧ (Instr.registerWrite .mc 4 0).wf = true := by decide

/-! ### Small states -/

/-- The state a command answers; the state itself where it answers none. -/
def after (c : Instr) (s : State) : State :=
  match exec c s with
  | .next t => t
  | _ => s

/-- Does the command answer a next state? -/
def answers (c : Instr) (s : State) : Bool :=
  match exec c s with
  | .next _ => true
  | _ => false

/-- Does the command leave the state as it is? -/
def stays (c : Instr) (s : State) : Bool :=
  match exec c s with
  | .next t => decide (t = s)
  | _ => false

/-- Does the command stop with the fault of a unit that does not exist? -/
def faults (c : Instr) (s : State) : Bool :=
  match exec c s with
  | .fault .noSuchUnit => true
  | _ => false

/-- An instruction read from slot 0x100, with its first repeat begun (`started`) or not. -/
def curOf (w : BitVec 256) (started : Bool) : Cur :=
  { slot := 0x100, count := 0, word := w, fetchPoison := false, rep := 0, decoded := true, started := started, waiting := false,
    liveWait := false, reread := false, wrote := false, draining := false, begun := false, resumed := false, parked := false, badWait := false, undo := [] }

/-- A started queue of cluster 0 with this instruction in progress. -/
def withCur (qid : Nat) (c : Cur) (s : State) : State :=
  setQ 0 qid { getQ s 0 qid with run := true, sizeLog2 := 4, qbase := 0x100, cur := some c } s

/-- A queue of cluster 0 that runs this word. -/
def running (qid : Nat) (w : BitVec 256) : State := withCur qid (curOf w true) State.reset

/-- Bytes at an address. -/
def poke (a : Nat) (bs : List Byte) (s : State) : State := writeMem a (clean bs) s

/-- Address register `r` of a queue of cluster 0 set to a base. -/
def withAr (qid r base : Nat) (s : State) : State :=
  modQ 0 qid (fun q => { q with ars := setAt q.ars r { base := BitVec.ofNat 48 base, stride := 0, wrap := 0 } }) s

theorem meets_running {s : State} {cl qid : Nat} {c : Cur}
    (h : (getQ s cl qid).cur = some c ∧ (getQ s cl qid).halted = false ∧ absent s cl (engOf qid) = false ∧
      (decide (qid < 9) && (getTile s cl qid).rotating) = false ∧ c.started = true ∧ c.decoded = true ∧ c.reread = false ∧
      c.parked = false ∧ c.draining = false ∧ s.bad.contains (.queue cl qid) = false ∧
      mget 0 s.runs (unitOfQueue cl qid).toNat = 0) : Running s cl qid c :=
  ⟨h.1, h.2.1, h.2.2.1, h.2.2.2.1, h.2.2.2.2.1, h.2.2.2.2.2.1, h.2.2.2.2.2.2.1, h.2.2.2.2.2.2.2.1, h.2.2.2.2.2.2.2.2.1,
    h.2.2.2.2.2.2.2.2.2.1, h.2.2.2.2.2.2.2.2.2.2⟩

theorem meets_sound {s : State} (h : s.snoop = [] ∧ s.flaws = [] ∧ s.poison = [] ∧ s.err.offline = [] ∧
    s.tiles.all (fun t => !t.2.rotating) = true) : Sound s :=
  ⟨h.1, h.2.1, h.2.2.1, h.2.2.2.1, h.2.2.2.2⟩

/-! ### Engine queues -/

/-- StepRunsFrontCommand and IdleStepTicks -/
theorem test_front_meets : ({ State.reset with pending := [.nop 0 0] } : State).pending = .nop 0 0 :: [] := by decide +kernel
theorem test_idle_meets : State.reset.pending = [] ∧ heldInReset State.reset = false ∧ heldInReset (after .refLoss State.reset) = true := by
  decide +kernel
theorem test_step_takes_front :
    (match step { State.reset with pending := [.semWrite .mc 0 5 7, .nop 0 0] } with
     | .next t => decide (t.pending = [.nop 0 0] ∧ (getSem t 0 5).value = 7)
     | _ => false) = true := by decide +kernel
theorem test_every_command_meets : (Instr.nop 0 3).wf = true ∧ hUnitExists State.reset (unitKey ⟨1, 0, 3⟩) = true := by decide +kernel

/-- The MC rings an idle queue with room for 16, with one that is halted, and with one whose instruction runs. -/
def idleQueue : State := setQ 0 3 { Queue.reset with sizeLog2 := 4, qbase := 0x1000 } State.reset
def haltedQueue (reason : BitVec 8) : State :=
  setQ 0 3 { Queue.reset with sizeLog2 := 4, qbase := 0x1000, halted := true, haltReason := reason, cur := some (curOf 0 true) }
    State.reset

theorem test_doorbell_meets : MayRing idleQueue .mc 0 3 0x14 ∧ (getQ idleQueue 0 3).halted = false ∧
    2 ^ (getQ idleQueue 0 3).sizeLog2.toNat - ((getQ idleQueue 0 3).tail - (getQ idleQueue 0 3).head).toNat < 17 := by
  unfold MayRing; decide +kernel
theorem test_doorbell_halted_meets : MayRing (haltedQueue 1) .mc 0 3 0x14 ∧ (getQ (haltedQueue 1) 0 3).halted = true := by
  unfold MayRing; decide +kernel
theorem test_doorbell_busy_meets : MayRing (running 3 0) .mc 0 3 0x14 ∧ (getQ (running 3 0) 0 3).halted = false ∧
    (getQ (running 3 0) 0 3).cur = some (curOf 0 true) ∧ (curOf 0 true).started = true := by unfold MayRing; decide +kernel
/-- R68: 16 instructions fit a ring of 16 slots; R71: 17 do not, and halt it with QUEUE_OVERFLOW. -/
theorem test_doorbell_fits : (getQ (after (.doorbell .mc 0 3 16) idleQueue) 0 3).tail = 16 := by decide +kernel
theorem test_doorbell_overflows : (getQ (after (.doorbell .mc 0 3 17) idleQueue) 0 3).haltReason = 0x0C ∧
    (getQ (after (.doorbell .mc 0 3 17) idleQueue) 0 3).dbReject = 1 := by decide +kernel

/-- QueueControl: a stopped queue with a valid configuration, one without, a started one, and a halted one. -/
theorem test_control_meets : MayRing idleQueue .mc 0 3 0 ∧ (getQ idleQueue 0 3).run = false ∧
    queueConfigOk idleQueue (getQ idleQueue 0 3) = true ∧ queueState idleQueue 0 3 = 4 ∧
    queueConfigOk State.reset (getQ State.reset 0 3) = false ∧ MayRing State.reset .mc 0 3 0 ∧
    MayRing (running 3 0) .mc 0 3 0 ∧ (getQ (running 3 0) 0 3).run = true := by unfold MayRing; decide +kernel
theorem test_resume_meets : MayRing (haltedQueue 4) .mc 0 3 0 ∧ (getQ (haltedQueue 4) 0 3).halted = true ∧ terminal 4 = false ∧
    queueConfigOk (haltedQueue 4) (getQ (haltedQueue 4) 0 3) = true ∧ terminal (getQ (haltedQueue 0x0A) 0 3).haltReason.toNat = true ∧
    (getQ (haltedQueue 0x0A) 0 3).halted = true := by unfold MayRing; decide +kernel
/-- R74: SIZE_LOG2 0 is no valid configuration. R79: SKIP abandons the halted instruction. R101: POISON is terminal. -/
theorem test_run_bad_config : (getQ (after (.runSet .mc 0 3 1) State.reset) 0 3).cfgErr = true ∧
    (getQ (after (.runSet .mc 0 3 1) State.reset) 0 3).run = false := by decide +kernel
/-- R71: a doorbell refused meanwhile halts the queue where no instruction is in progress any more. -/
def refusedQueue : State := modQ 0 3 (fun q => { q with ovfReq := some 0x1140 }) (haltedQueue 4)
theorem test_refused_meets : MayRing refusedQueue .mc 0 3 0 ∧ (getQ refusedQueue 0 3).halted = true ∧ terminal 4 = false ∧
    queueConfigOk refusedQueue (getQ refusedQueue 0 3) = true ∧ (getQ refusedQueue 0 3).haltReason = 4 ∧
    (getQ refusedQueue 0 3).ovfReq = some 0x1140 ∧ queueDrained refusedQueue 0 3 = true ∧
    (getQ refusedQueue 0 3).cur = some (curOf 0 true) ∧
    (getQ (modQ 0 3 (fun q => { q with cur := none }) refusedQueue) 0 3).cur = none := by unfold MayRing; decide +kernel
theorem test_refused_skip : (getQ (after (.skip .mc 0 3 0x408) refusedQueue) 0 3).haltReason = 0x0C ∧
    (getQ (after (.skip .mc 0 3 0x408) refusedQueue) 0 3).haltAddr = 0x1140 := by decide +kernel
theorem test_run_starts : (getQ (after (.runSet .mc 0 3 0x401) idleQueue) 0 3).run = true := by decide +kernel
theorem test_skip_abandons : (getQ (after (.skip .mc 0 3 0x408) (haltedQueue 4)) 0 3).cur = none ∧
    (getQ (after (.resume .mc 0 3 0x404) (haltedQueue 4)) 0 3).halted = false ∧
    (getQ (after (.resume .mc 0 3 0x404) (haltedQueue 0x0A)) 0 3).halted = true := by decide +kernel
theorem test_run_clear : (getQ (after (.runClear .mc 0 3 0x400) (running 3 0)) 0 3).run = false := by decide +kernel
theorem test_reset_ptrs_meets : MayRing (haltedQueue 4) .mc 0 3 0 ∧ (getQ (haltedQueue 4) 0 3).run = false ∧
    queueState (haltedQueue 4) 0 3 = 3 ∧ (getQ (haltedQueue 4) 0 3).emptyIrqEn = false ∧ queueState (haltedQueue 0x0A) 0 3 = 3 ∧
    (getQ (haltedQueue 0x0A) 0 3).run = false ∧ (getQ (haltedQueue 4) 0 3).haltReason = 4 := by unfold MayRing; decide +kernel
theorem test_reset_ptrs : (getQ (after (.resetPtrs .mc 0 3 0x410) (setQ 0 3 { Queue.reset with head := 5, tail := 5, sizeLog2 := 4 } State.reset)) 0 3).head = 0 := by
  decide +kernel

/-- A wait on counter 7 of at least 2, in the first wait field. -/
def waitWord : BitVec 256 := BitVec.ofNat 256 ((1 + 7 * 2 + 2 * 65536) * 2 ^ 32)
def readyQueue (w : BitVec 256) (n : W32) : State :=
  setSem 0 7 { value := n, ovf := false } (withCur 3 (curOf w false) State.reset)

theorem meets_ready {s : State} {cl qid : Nat} {c : Cur}
    (h : validQid qid = true ∧ (getQ s cl qid).cur = some c ∧ (getQ s cl qid).halted = false ∧ (getQ s cl qid).run = true ∧
      absent s cl (engOf qid) = false ∧ (decide (qid < 9) && (getTile s cl qid).rotating) = false ∧ c.started = false ∧
      c.decoded = true ∧ c.reread = false ∧ (getQ s cl qid).ovfReq = none ∧ s.bad = [] ∧ c.badWait = false) : Ready s cl qid c := by
  obtain ⟨h1, h2, h3, h4, h5, h6, h7, h8, h9, h10, h11, h12⟩ := h
  exact ⟨h1, h2, h3, h4, h5, h6, h7, h8, h9, h10, by rw [h11]; rfl, h12, fun _ _ _ => by rw [h11]; rfl⟩

theorem test_wait_meets : Ready (readyQueue waitWord 2) 0 3 (curOf waitWord false) := meets_ready (by decide +kernel)
theorem test_wait_fence_meets : Ready (readyQueue 0x100 0) 0 3 (curOf 0x100 false) ∧ wFence 0x100 = true ∧
    queueDrained (readyQueue 0x100 0) 0 3 = true := ⟨meets_ready (by decide +kernel), by decide +kernel⟩
/-- R83, R109: at the threshold the instruction starts; below it the queue waits. -/
theorem test_wait_met : queueState (after (.waitMet 0 3) (readyQueue waitWord 2)) 0 3 = 1 ∧
    queueState (after (.waitMet 0 3) (readyQueue waitWord 1)) 0 3 = 2 := by decide +kernel

/-- A queue with one slot to read, a NOP with REPEAT 1 (reserved, R87), at 0x1000. -/
def slotQueue : State :=
  setQ 0 3 { Queue.reset with sizeLog2 := 4, qbase := 0x1000, run := true, tail := 1 } (poke 0x1002 [1] State.reset)
theorem test_slot_meets : let x := getQ slotQueue 0 3
    x.cur = none ∧ x.run = true ∧ x.halted = false ∧ x.head ≠ x.tail ∧ x.emptyIrqEn = false ∧ absent slotQueue 0 3 = false ∧
    (decide (3 < 9) && (getTile slotQueue 0 3).rotating) = false ∧ slotAddr x x.head = 0x1000 ∧
    x.ovfReq = none ∧ slotQueue.bad = [] ∧ inRotation slotQueue 0x1000 32 = false ∧
    memMapped slotQueue 0x1000 32 = true ∧ slotQueue.snoop = [] ∧ slotQueue.flaws = [] ∧
    slotQueue.err.offline = [] ∧ ∀ i < 32, granPoison slotQueue ((0x1000 + i) / 64) = false := by decide +kernel
theorem test_slot_read : (getQ (after (.waitMet 0 3) slotQueue) 0 3).head = 1 ∧
    (getQ (after (.waitMet 0 3) slotQueue) 0 3).haltReason = 2 ∧ (getQ (after (.waitMet 0 3) slotQueue) 0 3).haltAddr = 0x1000 := by
  decide +kernel

def waitingQueue : State := withCur 3 { curOf waitWord false with waiting := true } State.reset
/-- The queue's wait count has reached its limit. -/
def overdueQueue : State := modQ 0 3 (fun q => { q with waitLimit := 100, waitCount := 100 }) waitingQueue
theorem test_timeout_meets : validQid 3 = true ∧ (getQ overdueQueue 0 3).cur = some { curOf waitWord false with waiting := true } ∧
    countsWait overdueQueue 0 3 = true ∧ (getQ overdueQueue 0 3).waitLimit ≠ 0 ∧
    (getQ overdueQueue 0 3).waitLimit ≤ (getQ overdueQueue 0 3).waitCount ∧ dueSet overdueQueue 0 = [] ∧
    countsWait waitingQueue 0 3 = true ∧ (getQ waitingQueue 0 3).waitCount < (getQ waitingQueue 0 3).waitLimit := by decide +kernel
theorem test_timeout_halts : (getQ (after (.waitTimeout 0 3) overdueQueue) 0 3).haltReason = 8 ∧
    stays (.waitTimeout 0 3) waitingQueue = true := by decide +kernel

/-- SIGNAL0 to counter 9, 3 more, beside opcode `op` and operands from bit 192. -/
def opWord (op args : Nat) : BitVec 256 := BitVec.ofNat 256 (op + (1 + 9 * 2 ^ 10 + 3 * 2 ^ 22) * 2 ^ 128 + args * 2 ^ 192)
theorem test_common_meets : ∀ op < 5, wOpcode (opWord op 0) = op ∧ wRepeat (opWord op 0) ≤ (curOf (opWord op 0) true).rep := by decide +kernel
theorem test_common_running : Running (running 3 (opWord 4 0x20005)) 0 3 (curOf (opWord 4 0x20005) true) := meets_running (by decide +kernel)
/-- R86: SEMSET sets counter 5 to 2; ARBASE and ARSTEP set an AR; the signal of each is issued. -/
theorem test_nop_signals : (after (.nop 0 3) (running 3 (opWord 0 0))).flights = [⟨0, 3, 0, 9, 3, false⟩] := by decide +kernel
theorem test_semset : (getSem (after (.semset 0 3) (running 3 (opWord 4 0x20005))) 0 5).value = 2 := by decide +kernel
theorem test_arbase : (arOf (getQ (after (.arbase 0 3) (running 3 (opWord 2 (2 + 0x1234 * 256)))) 0 3) 2).base = 0x1234 := by decide +kernel
theorem test_arstep : (arOf (getQ (after (.arstep 0 3) (running 3 (opWord 3 (2 + 64 * 256 + 4096 * 2 ^ 36)))) 0 3) 2).wrap = 4096 := by
  decide +kernel
theorem test_halt_meets : Running (running 3 (opWord 5 0)) 0 3 (curOf (opWord 5 0) true) ∧ wOpcode (opWord 5 0) = 5 :=
  ⟨meets_running (by decide +kernel), by decide +kernel⟩
theorem test_halt : (getQ (after (.halt 0 3) (running 3 (opWord 5 0))) 0 3).halted = true ∧
    (after (.halt 0 3) (running 3 (opWord 5 0))).flights = [] := by decide +kernel

/-- A FENCE PEER, with no send outstanding, one outstanding, one lost. -/
def fenceWord : BitVec 256 := opWord 1 2
def fenceQueue (sends : List (Nat × Nat × W32)) (lost : Bool) : State :=
  modQ 0 3 (fun q => { q with sends := sends, sendsLost := lost }) (withCur 3 { curOf fenceWord true with draining := true } State.reset)
theorem test_fence_meets : Running (running 3 fenceWord) 0 3 (curOf fenceWord true) ∧ wOpcode fenceWord = 1 ∧
    wOp fenceWord 192 2 = 2 ∧ queueDrained (fenceQueue [] false) 0 3 = true ∧ (getQ (fenceQueue [] false) 0 3).halted = false ∧
    (getQ (fenceQueue [] false) 0 3).sends = [] ∧ (getQ (fenceQueue [(1, 0, 0)] false) 0 3).sends ≠ [] ∧
    (getQ (fenceQueue [] true) 0 3).sendsLost = true := ⟨meets_running (by decide +kernel), by decide +kernel⟩
theorem test_fence_complete : (after (.fenceComplete 0 3) (fenceQueue [] false)).flights.length = 1 ∧
    stays (.fenceComplete 0 3) (fenceQueue [(1, 0, 0)] false) = true ∧
    (getQ (after (.fenceComplete 0 3) (fenceQueue [] true)) 0 3).haltReason = 0x12 := by decide +kernel

/-- QueueStops: opcode 0x12 of a tile is defined by no engine (R101); queue 26 is none. -/
def illegalQueue : State := withCur 3 { curOf 0x12 false with decoded := false } State.reset
theorem test_illegal_meets : validQid 3 = true ∧ (getQ illegalQueue 0 3).halted = false ∧ (getQ illegalQueue 0 3).run = true ∧
    absent illegalQueue 0 3 = false ∧ 5 < wOpcode (0x12 : BitVec 256) ∧ engineDefines (engOf 3) (wOpcode (0x12 : BitVec 256)) = false ∧
    qidWf 26 = false := by decide +kernel
theorem test_illegal : (getQ (after (.illegalOpcode 0 3) illegalQueue) 0 3).haltReason = 1 ∧
    faults (.nop 0 26) State.reset = true := by decide +kernel

/-- EventCounters: a signal behind another one, one short of overflow; a software write with and without the right. -/
def flightState : State :=
  setSem 0 9 { value := 0xFFFF_FFFE, ovf := false } { State.reset with flights := [⟨0, 4, 0, 9, 1, false⟩, ⟨0, 3, 0, 9, 2, false⟩] }
theorem test_signal_meets : validQid 3 = true ∧ flightState.flights = [⟨0, 4, 0, 9, 1, false⟩] ++ ⟨0, 3, 0, 9, 2, false⟩ :: [] ∧
    mayAccess State.reset .mc (semRegs 0 + 4 * 9) 4 .write = true ∧ mayAccess State.reset .mc (semRegs 0 + 4 * 9) 4 .signal = true ∧
    mayAccess State.reset (.peer 0) (semRegs 0 + 4 * 9) 4 .write = false := by decide +kernel
/-- R534: counter 9 has been lost to an error. -/
def lostCounter : State := { flightState with bad := [.counter 0 9] }
theorem test_lost_counter_meets : lostCounter.bad.contains (.counter 0 9) = true ∧
    lostCounter.flights = [⟨0, 4, 0, 9, 1, false⟩] ++ ⟨0, 3, 0, 9, 2, false⟩ :: [] ∧ flightState.bad = [] := by decide +kernel
theorem test_lost_counter : getSem (after (.signalApply 0 3 0 9) lostCounter) 0 9 = { value := 2, ovf := true } := by decide +kernel
/-- R90: the counter saturates at 2^32 - 1 and OVF is set. -/
theorem test_signal_saturates : getSem (after (.signalApply 0 3 0 9) flightState) 0 9 = { value := 0xFFFF_FFFF, ovf := true } := by
  decide +kernel
theorem test_sem_add : (getSem (after (.semAdd .mc 0 (9 + 5 * 4096)) State.reset) 0 9).value = 5 := by decide +kernel

/-- DeadlockDetector: a queue that waits for a counter nothing but queues could signal: its cluster is scoped, its detector
runs. -/
def closing : State := setReg (dldRegs 0 + 0x800) 0x80 (setReg (dldRegs 0) 1 overdueQueue)
def deadlocked : State := { closing with dld := mput DldWatch.reset closing.dld 0 ⟨closedSet closing 0, 0⟩ }
theorem test_deadlock_meets : closedSet deadlocked 0 ≠ [] ∧ bitOf (getReg deadlocked (dldRegs 0)) 0 = true ∧
    (mget DldWatch.reset deadlocked.dld 0).members = closedSet deadlocked 0 ∧
    16 * regField deadlocked (dldRegs 0) 16 16 ≤ (mget DldWatch.reset deadlocked.dld 0).stood ∧
    (mget DldWatch.reset closing.dld 0).members ≠ closedSet closing 0 ∧
    bitOf (getReg deadlocked (dldRegs 0 + 4)) 0 = false ∧ mayAccess deadlocked .mc (dldRegs 0 + 4) 4 .write = true := by decide +kernel
theorem test_deadlock_held_meets : bitOf (getReg (setReg (dldRegs 0 + 4) 1 deadlocked) (dldRegs 0 + 4)) 0 = true ∧
    closedSet (setReg (dldRegs 0 + 4) 1 deadlocked) 0 ≠ [] := by decide +kernel
theorem test_deadlock : (getQ (after (.deadlockConfirm 0) deadlocked) 0 3).haltReason = 9 ∧
    (getQ (after (.deadlockConfirm 0) deadlocked) 0 3).dlMember = true ∧ stays (.deadlockConfirm 0) closing = true := by decide +kernel
/-- R110: a wait limit reached in the cycle in which the set is due. -/
theorem test_due_meets : countsWait deadlocked 0 3 = true ∧ (getQ deadlocked 0 3).waitLimit ≠ 0 ∧
    (getQ deadlocked 0 3).waitLimit ≤ (getQ deadlocked 0 3).waitCount ∧ (dueSet deadlocked 0).map (fun m => m.1) = [3] := by decide +kernel
theorem test_due_first : (getQ (after (.waitTimeout 0 3) deadlocked) 0 3).haltReason = 9 := by decide +kernel
theorem test_dld_release : getReg (after (.dldRecordRelease .mc 0 1) (setReg (dldRegs 0 + 4) 1 State.reset)) (dldRegs 0 + 4) = 0 := by
  decide +kernel

def stopping : State := modQ 0 3 (fun q => { q with stopReq := some (0x0A, 4) }) (running 3 0)
theorem test_job_stop_meets : validQid 3 = true ∧ (getQ stopping 0 3).stopReq = some (0x0A, 4) := by decide +kernel
theorem test_job_stop : (getQ (after (.jobStop 0 3) stopping) 0 3).haltReason = 0x0A := by decide +kernel

/-! ### Matrix tiles -/

/-- MT_MMUL of one row by one column in FP32, K 1, to memory: descriptor at AR0, A at AR1, B at AR2, C at AR3. -/
def mmulWord (wres : Nat) : BitVec 256 := BitVec.ofNat 256 (0x10 + 1 * 2 ^ 196 + 2 * 2 ^ 204 + 3 * 2 ^ 212 + wres * 2 ^ 220)
def mmulDescBits (dest target : Nat) : Nat := 1 + 1 * 2 ^ 5 + 1 * 2 ^ 10 + dest * 2 ^ 28 + 1 * 2 ^ 32 + target * 2 ^ 208
def mmulDesc : TileDesc := (BitVec.ofNat 512 (mmulDescBits 0 0), 0)
def mmulState : State :=
  withAr 0 0 0x1000 (withAr 0 1 0x2000 (withAr 0 2 0x3000 (withAr 0 3 0x4000
    (poke 0x1000 (leBytes 64 (mmulDescBits 0 0)) (poke 0x2000 (leBytes 4 0x4000_0000) (poke 0x3000 (leBytes 4 0x4040_0000)
      (running 0 (mmulWord 0))))))))
def mmulAddrs : RepAddr := { a := 0x2000, sa := 0, b := 0x3000, sb := 0, c := 0x4000, sc := 0 }

theorem test_mmul_running : Running mmulState 0 0 (curOf (mmulWord 0) true) := meets_running (by decide +kernel)
theorem test_mmul_sound : Sound mmulState := meets_sound (by decide +kernel)
theorem test_mmul_meets : wOpcode (mmulWord 0) = 0x10 ∧ (getTile mmulState 0 0).held.length < 2 ∧
    DescriptorOf mmulState ⟨0, 0⟩ (curOf (mmulWord 0) true) mmulDesc ∧ descConditions mmulState ⟨0, 0⟩ (mmulWord 0) mmulDesc true = [] ∧
    RepeatAddrs (getQ mmulState 0 0) (mmulWord 0) mmulDesc 0 mmulAddrs ∧ tdAform mmulDesc = 0 ∧
    extentConditions mmulState ⟨0, 0⟩ .read (repeatExtents mmulDesc 1 mmulAddrs).1 = [] ∧
    extentConditions mmulState ⟨0, 0⟩ .write (repeatExtents mmulDesc 1 mmulAddrs).2 = [] ∧ bitOf (mmulWord 0) 220 = false := by
  unfold DescriptorOf RepeatAddrs; decide +kernel
/-- R143: 2.0 times 3.0 is 6.0, written where C says. -/
theorem test_mmul : leNat (bytesAt (after (.mtMmul 0 0) mmulState) 0x4000 4) = 0x40C0_0000 := by decide +kernel

/-- To a context (DEST 2) that the tile's job holds: the block is held. -/
def jobOf (engines : W32) : Job := { id := 5, engines := [engines, 0, 0, 0, 0, 0, 0, 0], sems := [], dctx := 4, ctxs := [7] }
def dataCtx : Ctx := { Ctx.reset with isOpen := true, job := 5, payLog2 := 10, winM1 := 3, peer := { Peer.none with hv := true, hid := 1 } }
def withCtx (k : Nat) (c : Ctx) (s : State) : State := setCtx k c { s with jobs := [jobOf 0x3FFFFFF] }
def heldState : State := withCtx 7 dataCtx (poke 0x1000 (leBytes 64 (mmulDescBits 2 7)) mmulState)
theorem test_mmul_held_meets : descConditions heldState ⟨0, 0⟩ (mmulWord 0) (BitVec.ofNat 512 (mmulDescBits 2 7), 0) true = [] := by
  decide +kernel
theorem test_mmul_held : (getTile (after (.mtMmul 0 0) heldState) 0 0).held.length = 1 ∧
    (getQ (after (.mtMmul 0 0) heldState) 0 0).cur = none := by decide +kernel

/-- MT_WCLEAR -/
theorem test_wclear_meets : Running (running 0 0x11) 0 0 (curOf 0x11 true) ∧ wOpcode (0x11 : BitVec 256) = 0x11 :=
  ⟨meets_running (by decide +kernel), by decide +kernel⟩
theorem test_wclear : (getTile (after (.mtWclear 0 0) (modTile 0 0 (fun t => { t with wb0 := { TileBuf.reset with valid := true } })
    (running 0 0x11))) 0 0).wb0.valid = false := by decide +kernel

/-- A tile that holds a block for a context, for one that is not open, for no group, and for a group. -/
def block (coll : Bool) (target : Nat) : HeldBlock :=
  { collective := coll, target := target, chunk := 0, bytes := [1, 2, 3, 4], elems := 1, each := none, last := none }
def holding (b : HeldBlock) (s : State) : State := modTile 0 0 (fun t => { t with held := [b] }) s
theorem test_block_meets : (getTile (holding (block false 7) heldState) 0 0).held = block false 7 :: [] ∧
    (handOver 0 0 7 (clean (block false 7).bytes) true (holding (block false 7) heldState)).2 = true ∧
    (getTile (holding (block true 3) State.reset) 0 0).held = block true 3 :: [] ∧ (getGroup State.reset 0 3).held = false ∧
    (getQ (holding (block true 3) State.reset) 0 0).halted = false ∧ (getQ (holding (block true 3) State.reset) 0 0).stopReq = none := by
  decide +kernel
theorem test_block_waits_meets : (handOver 0 0 9 (clean [1, 2]) true (withCtx 9 { dataCtx with winM1 := 0, chans := [(0, { Chan.reset with
    copies := [⟨0, .data, 0, 2, 0, 0, 0, false, false⟩] })] } State.reset)).2 = false := by decide +kernel
/-- A group that holds its queue, with room for the block and with none. -/
def groupHolding (kib : Nat) : State :=
  modOwner 0 0x403 (fun o => { o with limitKib := 0xFF_FFFF }) (setGroup 0 3 { Group.reset with held := true, inputKib := kib }
    (holding (block true 3) State.reset))
theorem test_block_group_meets : (getTile (groupHolding 64) 0 0).held = block true 3 :: [] ∧ (getGroup (groupHolding 64) 0 3).held = true ∧
    (takeInput 0 3 0 0 (clean (block true 3).bytes) (groupHolding 64)).2 = true ∧
    (takeInput 0 3 0 0 (clean (block true 3).bytes) (groupHolding 0)).2 = false := by decide +kernel
theorem test_block_group : (getTile (after (.blockAccepted 0 0) (groupHolding 64)) 0 0).held = [] ∧
    (getTile (after (.blockAccepted 0 0) (groupHolding 0)) 0 0).held = block true 3 :: [] := by decide +kernel
/-- R334: a block for a group that holds no queue halts the tile with ENGINE_ABSENT. -/
theorem test_block_taken : (getTile (after (.blockAccepted 0 0) (holding (block false 7) heldState)) 0 0).held = [] ∧
    (getQ (after (.blockAccepted 0 0) (holding (block true 3) State.reset)) 0 0).haltReason = 3 := by decide +kernel

/-- A cluster whose spare has passed a test within the period, and whose tile 2 is due. -/
def spareState : State :=
  setReg (hlRegs + 4) 16 (modHUnit (hkey 1 0 8) (fun x => { x with passed := true, tested := some 0 })
    (modHUnit (hkey 1 0 2) (fun x => { x with due := true }) State.reset))
theorem test_rotation_meets : fusedOff spareState 2 = false ∧ spareFit spareState 0 = true ∧ rotationWanted spareState 0 2 = true ∧
    (getTile spareState 0 2).rotating = false ∧ (atYield spareState 0 2 = true ∨ atJobBoundary spareState 0 2 = true) ∧
    spareFit State.reset 0 = false ∧ (getTile (after (.rotation 0 2) spareState) 0 2).rotating = true := by decide +kernel
theorem test_rotation_copy_meets : (after (.rotation 0 2) spareState).flaws = [] ∧ (after (.rotation 0 2) spareState).heldAcc = [] ∧
    tileOf spareState 0 2 = 2 ∧ (getHUnit spareState (hkey 1 0 2)).retired = false ∧ (getHUnit spareState (hkey 1 0 2)).excluded = false := by
  decide +kernel
/-- R193: a position that had no tile. -/
def vacant : State := { spareState with tilePhys := mput 2 spareState.tilePhys 2 9 }
theorem test_rotation_vacant_meets : (getTile (after (.rotation 0 2) vacant) 0 2).rotating = true ∧
    (after (.rotation 0 2) vacant).flaws = [] ∧ (after (.rotation 0 2) vacant).heldAcc = [] ∧ tileOf (after (.rotation 0 2) vacant) 0 2 = 9 := by
  decide +kernel
/-- R185: the spare takes the position, and the tile that leaves becomes the spare. -/
theorem test_rotation : let t := after (.rotationCopyDone 0 2) (after (.rotation 0 2) spareState)
    tileOf t 0 2 = 8 ∧ tileOf t 0 8 = 2 ∧ (getTile t 0 2).rotating = false := by decide +kernel
/-- EngineRepeats: an MT_MMUL that is done, and one whose descriptor is reserved (DEST 3). -/
theorem test_engine_meets : (match (mmulRepeat ⟨0, 0⟩ (curOf (mmulWord 0) true)).run (taken mmulState 0 0 (curOf (mmulWord 0) true)) with
      | .ok b u => b && (match (getQ u 0 0).cur with | some d => d.started | none => false) && !(getQ u 0 0).halted
      | .error _ _ => false) = true ∧
    (match (mmulRepeat ⟨0, 0⟩ (curOf (mmulWord 0) true)).run (taken (running 0 (mmulWord 0)) 0 0 (curOf (mmulWord 0) true)) with
      | .ok _ _ => false
      | .error h u => decide (h.reason = 2) && (match (getQ u 0 0).cur with | some d => d.started | none => false) &&
          (getQ u 0 0).stopReq.isNone && !(getQ u 0 0).halted) = true := by decide +kernel
/-- A descriptor in the slot of a position whose copy runs. -/
def mmulWaits : State := modTile 0 2 (fun t => { t with rotating := true }) (withAr 0 0 0x200_1000 (running 0 (mmulWord 0)))
theorem test_engine_waits_meets : (match (mmulRepeat ⟨0, 0⟩ (curOf (mmulWord 0) true)).run (taken mmulWaits 0 0 (curOf (mmulWord 0) true)) with
      | .ok _ _ => false
      | .error h _ => h.held) = true ∧ stays (.mtMmul 0 0) mmulWaits = true := by decide +kernel
theorem test_engine_waits_running : Running mmulWaits 0 0 (curOf (mmulWord 0) true) := meets_running (by decide +kernel)
/-- R533: more runs fail than there are replays. -/
def faultyRuns (qid n : Nat) (s : State) : State := { s with runs := mput 0 s.runs (unitOfQueue 0 qid).toNat n }
theorem test_runs_meets : regField mmulState (errRegs + 0x18) 0 4 < 16 := by decide +kernel
theorem test_runs : (getQ (after (.mtMmul 0 0) (faultyRuns 0 16 mmulState)) 0 0).haltReason = 0x0E ∧
    leNat (bytesAt (after (.mtMmul 0 0) (faultyRuns 0 1 mmulState)) 0x4000 4) = 0x40C0_0000 := by decide +kernel

/-! ### Movers and memory -/

/-- MV_MOVE with its descriptor at AR0: 4 bytes from 0x2000 to 0x3000. -/
def moveWord : BitVec 256 := 0x10
def moveBits (srck dstk chain next ctx : Nat) : Nat :=
  srck + dstk * 4 + chain * 64 + (if srck = 0 then 0x2000 * 2 ^ 16 else 0) + (if dstk = 0 then 0x3000 * 2 ^ 64 else 0) + 4 * 2 ^ 112 +
    ctx * 2 ^ 312 + next * 2 ^ 336
def moveState (d : Nat) : State :=
  withAr 17 0 0x1000 (poke 0x1000 (leBytes 64 d) (poke 0x2000 [1, 2, 3, 4] (running 17 moveWord)))
theorem test_move_running : Running (moveState (moveBits 0 0 0 0 0)) 0 17 (curOf moveWord true) := meets_running (by decide +kernel)
theorem test_move_sound : Sound (moveState (moveBits 0 0 0 0 0)) := meets_sound (by decide +kernel)
theorem test_move_meets : let s := moveState (moveBits 0 0 0 0 0)
    let d := BitVec.ofNat 512 (moveBits 0 0 0 0 0)
    wOpcode moveWord = 0x10 ∧ (curOf moveWord true).begun = false ∧ arAddress (arOf (getQ s 0 17) 0) 0 = some 0x1000 ∧
    accessCondition s ⟨0, 17⟩ 0x1000 64 64 .read = none ∧ d = BitVec.ofNat 512 (leNat (bytesAt s 0x1000 64)) ∧
    mdReasons s ⟨0, 17⟩ d (some 0x1000) (some 0x1000) = [] ∧ mdSrck d ≠ 1 ∧ mdDstk d = 0 ∧ mdRows d = 1 ∧
    touchesMmio (rowSource d (some 0x1000) 0) 4 = false ∧ touchesMmio (rowDest d (some 0x1000) 0) 4 = false := by decide +kernel
theorem test_move_chain_meets : let s := moveState (moveBits 0 0 1 0x1040 0)
    mdReasons s ⟨0, 17⟩ (BitVec.ofNat 512 (moveBits 0 0 1 0x1040 0)) none none = [] ∧
    mdChain (BitVec.ofNat 512 (moveBits 0 0 1 0x1040 0)) = true := by decide +kernel
/-- R211: the bytes arrive; R212: a chain goes on at NEXT. -/
theorem test_move : bytesAt (after (.mvMove 0 0) (moveState (moveBits 0 0 0 0 0))) 0x3000 4 = [1, 2, 3, 4] ∧
    (getQ (after (.mvMove 0 0) (moveState (moveBits 0 0 0 0 0))) 0 17).cur = none ∧
    (getMover (after (.mvMove 0 0) (moveState (moveBits 0 0 1 0x1040 0))) 0 0).addr = 0x1040 := by decide +kernel

theorem test_move_fault_meets : (arAddress (arOf (getQ (moveState 0) 0 17) (wOp moveWord 192 4)) 0).isSome = true := by decide +kernel
theorem test_move_fault : (getQ (after (.mvMove 0 0) (faultyRuns 17 1 (withCur 17 { curOf moveWord true with begun := true } (moveState 0)))) 0 17).haltReason = 0x0E := by
  decide +kernel

/-- DESCRIPTOR_FETCH: the second descriptor of a chain whose first one is at hand. -/
def chained : State := setMover 0 0 { Mover.reset with begun := true, desc := some (BitVec.ofNat 512 (moveBits 0 0 1 0x1040 0)) } (moveState 0)
theorem test_prefetch_meets : queueState chained 0 17 = 1 ∧ nextFetch chained ⟨0, 0⟩ = some (0x1040, 0) ∧
    (getMover chained 0 0).pref.length < 2 := by decide +kernel
theorem test_prefetch_sound : Sound chained := meets_sound (by decide +kernel)
theorem test_prefetch : (getMover (after (.descriptorFetch 0 0) chained) 0 0).pref.length = 1 := by decide +kernel

/-- A mover that waits for 4 bytes of context 7, of which `have` are there. -/
def rxState (n : Nat) : State :=
  let c : Cur := { curOf moveWord true with liveWait := true, begun := true }
  let s := withCur 17 c (withCtx 7 { dataCtx with rx := if n = 0 then [] else [(0, 0, n)] } (setBuf 0 { BufRec.reset with held := true, owner := tftOwner, refs := 1 } (poke 0x4000_0000 [9, 8, 7, 6] State.reset)))
  setMover 0 0 { Mover.reset with begun := true, addr := 0x1000, desc := some (BitVec.ofNat 512 (moveBits 1 0 0 0 7)) } s
theorem test_rx_running : Running (rxState 4) 0 17 { curOf moveWord true with liveWait := true, begun := true } :=
  meets_running (by decide +kernel)
theorem test_rx_sound : Sound (rxState 4) := meets_sound (by decide +kernel)
theorem test_rx_meets : let d := BitVec.ofNat 512 (moveBits 1 0 0 0 7)
    (getMover (rxState 4) 0 0).begun = true ∧ (getMover (rxState 4) 0 0).desc = some d ∧ mdSrck d = 1 ∧ mdComp d = 0 ∧ mdDstk d = 0 ∧
    (getMover (rxState 4) 0 0).row < mdRows d ∧ (arAddress (arOf (getQ (rxState 4) 0 17) 0) 0).isSome = true ∧
    (getMover (rxState 4) 0 0).pos < mdLen d ∧ rxHere 0 (getCtx (rxState 2) (mdCtx d)) < 4 ∧ 4 ≤ rxHere 0 (getCtx (rxState 4) (mdCtx d)) ∧
    mdChain d = false ∧ (getMover (rxState 4) 0 0).ctxs = [] ∧ (clean (rxBytes (rxState 4) (getCtx (rxState 4) 7).rx 4)).length = mdLen d ∧
    touchesMmio (rowDest d none 0) 4 = false ∧ memMapped (rxState 4) (rowDest d none 0) 4 = true := by decide +kernel
theorem meets_rx {s : State} {x : Ctx} (h : (x.rx.map (fun b => b.1)).Nodup ∧
    ∀ b ∈ x.rx, badBuf s b.1 = false ∧ (getBuf s b.1).held = true ∧ (getBuf s b.1).owner = tftOwner ∧ b.2.1 ≤ b.2.2) : RxSound s x :=
  ⟨h.1, h.2⟩
theorem test_rx_stream : RxSound (rxState 4) (getCtx (rxState 4) 7) ∧ RxSound (rxState 2) (getCtx (rxState 2) 7) :=
  ⟨meets_rx (by decide +kernel), meets_rx (by decide +kernel)⟩
theorem test_rx : bytesAt (after (.moverRxData 0 0) (rxState 4)) 0x3000 4 = [9, 8, 7, 6] ∧
    (getMover (after (.moverRxData 0 0) (rxState 2)) 0 0).pos = 2 := by decide +kernel

/-- A mover whose row waits for the transport. -/
def txState : State :=
  let c : Cur := { curOf moveWord true with begun := true }
  let s := withCur 17 c (withCtx 7 dataCtx State.reset)
  setMover 0 0 { Mover.reset with
    begun := true, addr := 0x1000, desc := some (BitVec.ofNat 512 (moveBits 0 1 0 0 7)), out := some (clean [1, 2, 3, 4]), txWait := true } s
theorem test_tx_running : Running txState 0 17 { curOf moveWord true with begun := true } := meets_running (by decide +kernel)
theorem test_tx_meets : let d := BitVec.ofNat 512 (moveBits 0 1 0 0 7)
    (getMover txState 0 0).txWait = true ∧ (getMover txState 0 0).begun = true ∧ (getMover txState 0 0).desc = some d ∧
    (getMover txState 0 0).out = some (clean [1, 2, 3, 4]) ∧ mdSrck d ≠ 1 ∧ mdDstk d = 1 ∧ (getMover txState 0 0).row < mdRows d ∧
    (handOver 0 17 (mdCtx d) (clean [1, 2, 3, 4]) false txState).2 = true ∧ mdChain d = false ∧
    (arAddress (arOf (getQ txState 0 17) 0) 0).isSome = true := by decide +kernel
theorem test_tx_waits_meets : (handOver 0 17 7 (clean [1, 2, 3, 4]) false (setCtx 7 { dataCtx with winM1 := 0, chans := [(1, { Chan.reset with
    copies := [⟨0, .data, 0, 2, 0, 0, 0, false, false⟩] })] } txState)).2 = false := by decide +kernel
theorem test_tx : (getQ (after (.moverTxAccept 0 0) txState) 0 17).cur = none ∧
    (getChan (getCtx (after (.moverTxAccept 0 0) txState) 7) 1).copies.length = 1 := by decide +kernel

/-- MemoryUpkeep: a granule of the first stack with an uncorrectable word, one with a correctable one, and a clean one; the
overflow area's size. -/
def errState : State := { State.reset with flaws := [(2 ^ 37, [3, 9]), (2 ^ 37 + 8, [5])] }
def burst : State := { State.reset with flaws := [(2 ^ 37, [3, 9, 17, 25])] }
def sramErr : State := { State.reset with flaws := [(8, [3, 9])] }
theorem test_scrub_meets : heldInReset errState = false ∧ regionOf errState (2 ^ 40) = some (.bonded 0) ∧
    regField errState (memRegs 0 + 4) 0 1 = 1 ∧ granuleCheck (.bonded 0) = true ∧ wrongBytes errState (2 ^ 34 + 1) ≤ 3 ∧
    wrongBytes burst (2 ^ 34) = 4 ∧ regField (setReg (memRegs 0 + 4) 0 errState) (memRegs 0 + 4) 0 1 = 0 ∧
    (∀ w ∈ granWords (2 ^ 34 + 2), flawsOf errState w = []) ∧ regionOf sramErr 0x40 = some (.tile 0 0) ∧
    granuleCheck (.tile 0 0) = false ∧ (∀ w ∈ granWords 1, (flawsOf sramErr w).length ≤ 2) ∧ (flawsOf sramErr 8).length = 2 := by
  decide +kernel
/-- R203: two wrong bytes of a DRAM granule are corrected, four are not; two wrong bits of 8 SRAM bytes are not. -/
theorem test_scrub : granPoison (after (.patrolScrub 0x100_0000_0000) burst) (2 ^ 34) = true ∧
    granPoison (after (.patrolScrub 0x40) sramErr) 1 = true ∧
    granPoison (after (.patrolScrub 0x100_0000_0000) errState) (2 ^ 34) = false ∧
    (after (.patrolScrub 0x100_0000_0040) errState).flaws = [(2 ^ 37, [3, 9])] ∧
    getReg (after (.patrolScrub 0x100_0000_0040) errState) (memRegs 0 + 8) = 1 := by decide +kernel
theorem test_ovf_meets : mayAccess State.reset .mc (memRegs 0) 4 .write = true ∧ isPl0 .mc = true ∧ fld (3 : W32) 0 5 ≤ 16 ∧
    16 < fld (17 : W32) 0 5 ∧ (∀ l < 256, linkUp State.reset l = false) := by decide +kernel
theorem test_ovf : ovfGib (after (.ovfCfgWrite .mc 0 3) State.reset) 0 = 3 ∧
    stays (.ovfCfgWrite .mc 0 17) State.reset = true ∧ answers (.rowRepair 0 5) State.reset = true := by decide +kernel

/-! ### Stream compute units -/

/-- SCU_LOAD of two slots from AR0 to slot 3: END and JMP 5. -/
def loadWord : BitVec 256 := BitVec.ofNat 256 (0x10 + 3 * 2 ^ 196 + 2 * 2 ^ 207)
def loadState : State :=
  withAr 9 0 0x1000 (poke 0x1000 (leBytes 8 0 ++ leBytes 8 (1 + 5 * 2 ^ 36)) (running 9 loadWord))
theorem test_load_running : Running loadState 0 9 (curOf loadWord true) := meets_running (by decide +kernel)
theorem test_load_sound : Sound loadState := meets_sound (by decide +kernel)
theorem test_load_meets : wOpcode loadWord = 0x10 ∧ wOp loadWord 207 12 = 2 ∧ arAddress (arOf (getQ loadState 0 9) 0) 0 = some 0x1000 ∧
    accessCondition loadState ⟨0, 9⟩ 0x1000 16 8 .read = none ∧
    ∀ k < 2, slotReason (BitVec.ofNat 64 (leNat (bytesAt loadState (0x1000 + 8 * k) 8))) = none := by decide +kernel
theorem test_load : mget 0 (getScu (after (.scuLoad 0 0) loadState) 0 0).recipe 4 = BitVec.ofNat 64 (1 + 5 * 2 ^ 36) := by decide +kernel

/-- SCU_RUN with its run table at AR0: one argument, no stream. -/
def runWord : BitVec 256 := BitVec.ofNat 256 (0x11 + 6 * 2 ^ 200)
def runState : State := withAr 9 0 0x1000 (poke 0x1100 (leBytes 8 77) (running 9 runWord))
theorem test_run_running : Running runState 0 9 (curOf runWord true) := meets_running (by decide +kernel)
theorem test_run_sound : Sound runState := meets_sound (by decide +kernel)
theorem test_run_meets : wOpcode runWord = 0x11 ∧ (curOf runWord true).begun = false ∧
    arAddress (arOf (getQ runState 0 9) 0) 0 = some 0x1000 ∧ accessCondition runState ⟨0, 9⟩ 0x1000 384 64 .read = none ∧
    leNat (bytesAt runState (0x1000 + 328) 56) = 0 ∧ ∀ k < 8, leNat (bytesAt runState (0x1000 + 32 * k) 32) = 0 ∧
    streamConditions k 0 = [] ∧ (streamOf 0 0).kind = 0 ∧ (streamOf 0 0).done = 0 ∧
    streamReach runState ⟨0, 9⟩ (if k < 4 then .read else .write) (streamOf 0 0) 0 = [] := by decide +kernel
theorem test_run : (getScu (after (.scuRun 0 0) runState) 0 0).pc = 6 ∧
    (getScu (after (.scuRun 0 0) runState) 0 0).scal 0 = (77, false) := by decide +kernel

/-- A recipe at slot 0 that holds this instruction, in an SCU that `f` has set up. -/
def recipeCur : Cur := { curOf 0x11 true with begun := true }
def noStream : SStream := streamOf 0 0
def recipe (w : Nat) (f : Scu → Scu) : State :=
  setScu 0 0 (f { Scu.reset with running := true, recipe := mput 0 [] 0 (BitVec.ofNat 64 w), streams := List.replicate 8 noStream })
    (withCur 9 recipeCur State.reset)
def insOf (w : Nat) : RInstr := { cl := 0, u := 0, rep := 0, slot := 0, nth := 0, word := BitVec.ofNat 64 w }

theorem meets_recipe {s : State} {cl u : Nat} {c : Cur} {i : RInstr} {op : Nat}
    (h : ((getQ s cl (9 + u)).cur = some c ∧ (getQ s cl (9 + u)).halted = false ∧ absent s cl (engOf (9 + u)) = false ∧
      (decide (9 + u < 9) && (getTile s cl (9 + u)).rotating) = false ∧ c.started = true ∧ c.decoded = true ∧ c.reread = false ∧
      c.parked = false ∧ c.draining = false ∧ s.bad.contains (.queue cl (9 + u)) = false ∧
      mget 0 s.runs (unitOfQueue cl (9 + u)).toNat = 0) ∧ wOpcode c.word = 0x11 ∧ c.resumed = false ∧ recipeAt s cl u = some i ∧
      rOp i.word = op ∧ limitReached s cl u = false ∧ s.bad.contains (.recipe cl u i.slot) = false) : AtRecipe s cl u c i op :=
  ⟨meets_running h.1, h.2.1, h.2.2.1, h.2.2.2.1, h.2.2.2.2.1, h.2.2.2.2.2.1, h.2.2.2.2.2.2⟩

/-- Every recipe opcode can be the one at hand; its predicate P0 is never poisoned, and a recipe's memory is sound. -/
theorem test_recipe_words : ∀ op < 0x4C, ((getQ (recipe op id) 0 9).cur = some recipeCur ∧ (getQ (recipe op id) 0 9).halted = false ∧
      absent (recipe op id) 0 (engOf 9) = false ∧ (decide (9 < 9) && (getTile (recipe op id) 0 9).rotating) = false ∧
      recipeCur.started = true ∧ recipeCur.decoded = true ∧ recipeCur.reread = false ∧ recipeCur.parked = false ∧ recipeCur.draining = false ∧
      (recipe op id).bad.contains (.queue 0 9) = false ∧ mget 0 (recipe op id).runs (unitOfQueue 0 9).toNat = 0) ∧
      wOpcode recipeCur.word = 0x11 ∧ recipeCur.resumed = false ∧ recipeAt (recipe op id) 0 0 = some (insOf op) ∧
      rOp (insOf op).word = op ∧ limitReached (recipe op id) 0 0 = false ∧
      (recipe op id).bad.contains (.recipe 0 0 0) = false := by decide +kernel
theorem test_recipe_meets : ∀ op < 0x4C, AtRecipe (recipe op id) 0 0 recipeCur (insOf op) op := fun op h =>
  meets_recipe (test_recipe_words op h)
theorem test_recipe_clean : ∀ op < 0x4C, predClean (getScu (recipe op id) 0 0) (insOf op) ∧
    ((getScu (recipe op id) 0 0).scal 0).2 = false := by unfold predClean; decide +kernel
theorem test_recipe_sound : ∀ op < 0x4C, Sound (recipe op id) := fun op h =>
  meets_sound ((by decide +kernel : ∀ op < 0x4C, (recipe op id).snoop = [] ∧ (recipe op id).flaws = [] ∧
    (recipe op id).poison = [] ∧ (recipe op id).err.offline = [] ∧ (recipe op id).tiles.all (fun t => !t.2.rotating) = true) op h)

/-- STEP_LIMIT 1 with one step made. -/
def limited : State := setCtr (scuRegs 0 0 + 0x10) 1 (setReg (scuRegs 0 0 + 0xC) 0 (setReg (scuRegs 0 0 + 8) 1 (recipe 1 id)))
theorem test_limit_meets : limitReached limited 0 0 = true ∧ recipeAt limited 0 0 = some (insOf 1) ∧
    (getQ limited 0 9).cur = some recipeCur := by decide +kernel
theorem test_limit : (getQ (after (.stepLimit 0 0) limited) 0 9).haltReason = 8 := by decide +kernel

/-- Scalars 1 and 2, and vector registers 1, 2 and 4, whose first two lanes are given. -/
def regs (s1 s2 : W64) (a b c : W64 × W64) (x : Scu) : Scu :=
  { (x.setScal 1 s1 false).setScal 2 s2 false with
    v := [(32, a.1), (33, a.2), (64, b.1), (65, b.2), (128, c.1), (129, c.2)] }
/-- D 3, A 1, B 2, C 4 -/
def rword (op fmt imm : Nat) : Nat := op + fmt * 2 ^ 8 + 3 * 2 ^ 16 + 1 * 2 ^ 20 + 2 * 2 ^ 24 + 4 * 2 ^ 28 + imm * 2 ^ 36
/-- The SCU after a command on a recipe instruction. -/
def scuAfter (c : Instr) (w : Nat) (f : Scu → Scu) : Scu := getScu (after c (recipe w f)) 0 0

/-- R272: a branch on S1; BEOS on a stream that is none, and so at its end. -/
theorem test_branches : (scuAfter (.rJmp 0 0) (1 + 9 * 2 ^ 36) id).pc = 9 ∧
    (scuAfter (.rBrnz 0 0) (2 + 1 * 2 ^ 20 + 9 * 2 ^ 36) (regs 2 0 (0, 0) (0, 0) (0, 0))).pc = 9 ∧
    (scuAfter (.rBrz 0 0) (3 + 1 * 2 ^ 20 + 9 * 2 ^ 36) (regs 2 0 (0, 0) (0, 0) (0, 0))).pc = 1 ∧
    (scuAfter (.rBeos 0 0) (4 + 9 * 2 ^ 36) id).pc = 9 := by decide +kernel
theorem test_brnz_counts : ((scuAfter (.rBrnz 0 0) (2 + 1 * 2 ^ 20 + 9 * 2 ^ 36) (regs 2 0 (0, 0) (0, 0) (0, 0))).scal 1).1 = 1 := by
  decide +kernel
/-- R264: END ends the repeat. -/
theorem test_end : (getQ (after (.rEnd 0 0) (recipe 0 id)) 0 9).cur = none ∧ (scuAfter (.rEnd 0 0) 0 id).running = false := by
  decide +kernel
theorem test_scalars : ((scuAfter (.rSmovi 0 0) (8 + 3 * 2 ^ 16 + 0xFFFFFFF * 2 ^ 36) id).scal 3).1 = -1 ∧
    ((scuAfter (.rSadd 0 0) (rword 9 0 10) (regs 7 5 (0, 0) (0, 0) (0, 0))).scal 3).1 = 22 ∧
    ((scuAfter (.rSmov 0 0) (rword 0xA 0 1) (regs 0 0 (7, 8) (0, 0) (0, 0))).scal 3).1 = 8 := by decide +kernel
theorem test_lanes_from_scalar : ((scuAfter (.rVbcast 0 0) (rword 0xB 15 0) (regs 9 0 (0, 0) (0, 0) (0, 0))).lane 3 31).1 = 9 ∧
    ((scuAfter (.rLaneid 0 0) (rword 0x17 15 0) (regs 9 0 (0, 0) (0, 0) (0, 0))).lane 3 4).1 = 13 := by decide +kernel
theorem test_compact : ((scuAfter (.rCompact 0 0) (rword 0x16 15 0) (regs 0 0 (7, 8) (0, 0) (0, 0))).scal 2).1 = 32 ∧
    ((scuAfter (.rCompact 0 0) (rword 0x16 15 0) (regs 0 0 (7, 8) (0, 0) (0, 0))).lane 3 1).1 = 8 := by decide +kernel

/-- INT32 (code 15): 7 and -2 with 3 and 5, lanes 0 and 1 of the result. -/
def intLanes (c : Instr) (op imm : Nat) : W64 × W64 :=
  let x := scuAfter c (rword op 15 imm) (regs 0 0 (7, -2) (3, 5) (0, 0))
  ((x.lane 3 0).1, (x.lane 3 1).1)
theorem test_add : intLanes (.rAdd 0 0) 0x20 0 = (10, 3) := by decide +kernel
theorem test_sub : intLanes (.rSub 0 0) 0x21 0 = (4, -7) := by decide +kernel
theorem test_mul : intLanes (.rMul 0 0) 0x22 0 = (21, -10) := by decide +kernel
theorem test_min : intLanes (.rMin 0 0) 0x26 0 = (3, -2) := by decide +kernel
theorem test_max : intLanes (.rMax 0 0) 0x27 0 = (7, 5) := by decide +kernel
theorem test_abs : intLanes (.rAbs 0 0) 0x28 0 = (7, 2) := by decide +kernel
theorem test_neg : intLanes (.rNeg 0 0) 0x29 0 = (-7, 2) := by decide +kernel
theorem test_and : intLanes (.rAnd 0 0) 0x30 0 = (3, 4) := by decide +kernel
theorem test_or : intLanes (.rOr 0 0) 0x31 0 = (7, -1) := by decide +kernel
theorem test_xor : intLanes (.rXor 0 0) 0x32 0 = (4, -5) := by decide +kernel
theorem test_shl : intLanes (.rShl 0 0) 0x33 0 = (56, -64) := by decide +kernel
theorem test_shr : intLanes (.rShr 0 0) 0x34 0 = (0, -1) := by decide +kernel
theorem test_shr_logical : (intLanes (.rShr 0 0) 0x34 1).2 = 0x7FF_FFFF := by decide +kernel

/-- FP32 (code 1): 6.0 and 4.0 with 3.0 and 2.0, and 1.0. -/
def fpLanes (c : Instr) (op imm : Nat) : W64 × W64 :=
  let x := scuAfter c (rword op 1 imm) (regs 0 0 (0x40C0_0000, 0x4080_0000) (0x4040_0000, 0x4000_0000) (0x3F80_0000, 0x3F80_0000))
  ((x.lane 3 0).1, (x.lane 3 1).1)
theorem test_fma : fpLanes (.rFma 0 0) 0x23 0 = (0x4198_0000, 0x4110_0000) := by decide +kernel
theorem test_div : fpLanes (.rDiv 0 0) 0x24 0 = (0x4000_0000, 0x4000_0000) := by decide +kernel
theorem test_sqrt : (fpLanes (.rSqrt 0 0) 0x25 0).2 = 0x4000_0000 := by decide +kernel
theorem test_cvt : fpLanes (.rCvt 0 0) 0x2A 15 = (6, 4) := by decide +kernel

/-- R288: a lane compares true where A is less than B (COND 2); R280: the sum and the extremes of lanes, with S3. -/
theorem test_count : ((scuAfter (.rRcount 0 0) (rword 0x43 0 0) id).scal 3).1 = 32 := by decide +kernel
theorem test_reductions : ((scuAfter (.rRsum 0 0) (rword 0x40 15 0) (regs 0 0 (7, -2) (0, 0) (0, 0))).scal 3).1 = 5 ∧
    ((scuAfter (.rRmax 0 0) (rword 0x41 15 0) (regs 0 0 (7, -2) (0, 0) (0, 0))).scal 3).1 = 7 ∧
    ((scuAfter (.rRmin 0 0) (rword 0x42 15 0) (regs 0 0 (7, -2) (0, 0) (0, 0))).scal 3).1 = -2 := by decide +kernel
theorem test_reduce_meets : activeOf (getScu (recipe (rword 0x40 15 0 + 2 ^ 35) id) 0 0) (insOf (rword 0x40 15 0 + 2 ^ 35)) = [] ∧
    (reduceTree (fun _ a b => (a + b, Exc.none)) ((List.range 32).map (fun _ => some (1, false)))).1 = some (32, false) := by decide +kernel
/-- PLOG of P1 and P2, AND (0): a predicate register that is all 0 gives 0; the write register is P3. -/
theorem test_tests_meet : 0 < rD (insOf (rword 0x38 15 0)).word ∧ rD (insOf (rword 0x38 15 0)).word < 8 := by decide +kernel
theorem test_cmp : ((scuAfter (.rCmp 0 0) (rword 0x38 15 2) (regs 0 0 (7, -2) (9, -3) (0, 0))).predBit 3 0).1 = true ∧
    ((scuAfter (.rCmp 0 0) (rword 0x38 15 2) (regs 0 0 (7, -2) (9, -3) (0, 0))).predBit 3 1).1 = false := by decide +kernel
/-- The check values of R288's table, of the bytes 0x31 to 0x39; a CRC of the zero lanes with INIT and FINAL is one of 128 bytes. -/
def crcCheck (p : Nat) : Nat := crcFeed (crcSpec p) (crcSpec p).init [0x31, 0x32, 0x33, 0x34, 0x35, 0x36, 0x37, 0x38, 0x39] ^^^ (crcSpec p).xorOut
theorem test_crc_catalogue : crcCheck 0 = 0xCBF4_3926 ∧ crcCheck 1 = 0xE306_9283 ∧ crcCheck 2 = 0x6C40_DF5F_0B49_7347 ∧ crcCheck 3 = 0x29B1 := by
  decide +kernel
theorem test_recipe_crc : ((scuAfter (.rCrc 0 0) (rword 0x4B 15 0xD) id).scal 3).1 =
    BitVec.ofNat 64 (crcFeed (crcSpec 1) (crcSpec 1).init (List.replicate 128 0) ^^^ (crcSpec 1).xorOut) := by decide +kernel
theorem test_plog : ((scuAfter (.rPlog 0 0) (rword 0x39 0 1) (fun x => { x with pr := [(32, true)] })).predBit 3 0).1 = true ∧
    ((scuAfter (.rPlog 0 0) (rword 0x39 0 0) (fun x => { x with pr := [(32, true)] })).predBit 3 0).1 = false := by decide +kernel

/-- RecipeStore: an offset of 64 in S1, in range and aligned for 8 bytes; index lanes 0. -/
theorem test_store_meets : (64 : Nat) + 8 ≤ 0x10_0000 ∧ 64 % 8 = 0 ∧ 0 < elemBits 15 / 8 ∧ (∀ l < 32, (64 + l * 4) + 4 ≤ 0x10_0000 ∧ (64 + l * 4) % 4 = 0) := by
  decide +kernel
def storing (c : Instr) (w : Nat) : State := after c (recipe w (regs 64 9 (7, -2) (3, 5) (1, 2)))
theorem test_sst : leNat (bytesAt (storing (.rSst 0 0) (rword 0x0D 0 0)) 0x5C00_0040 8) = 9 := by decide +kernel
theorem test_st : leNat (bytesAt (storing (.rSt 0 0) (rword 0x13 15 0)) 0x5C00_0044 4) = 0xFFFF_FFFE := by decide +kernel
theorem test_scatter : leNat (bytesAt (storing (.rScatter 0 0) (rword 0x15 15 0)) (0x5C00_0000 + 64 + 4 * 5) 4) = 2 := by decide +kernel
def loading (w : Nat) : State := poke 0x5C00_0040 (leBytes 8 0xFFFF_FFFF_0000_0005) (recipe w (regs 64 9 (7, -2) (1, 0) (1, 2)))
theorem test_sld : ((getScu (after (.rSld 0 0) (loading (rword 0x0C 0 0))) 0 0).scal 3).1 = 0xFFFF_FFFF_0000_0005 := by decide +kernel
theorem test_ld : ((getScu (after (.rLd 0 0) (loading (rword 0x12 15 0))) 0 0).lane 3 1).1 = -1 := by decide +kernel
theorem test_gather : ((getScu (after (.rGather 0 0) (loading (rword 0x14 15 0))) 0 0).lane 3 0).1 = -1 := by decide +kernel

/-- Streams: two INT32 elements at 0x2000; an output of four INT32 elements at 0x3000; the same from and to context 7. -/
def memStream (n : Nat) (a : Nat) : SStream := { noStream with kind := 1, fmt := 15, start := a, count := n, stride := 4 }
def ctxStream (n : Nat) : SStream := { noStream with kind := 2, fmt := 15, count := n, stride := 4, ctx := 7 }
def getWord : Nat := 0x10 + 15 * 2 ^ 8 + 3 * 2 ^ 16 + 1 * 2 ^ 28
def getting (st : SStream) : State :=
  poke 0x2000 (leBytes 4 5 ++ leBytes 4 6) (withCtx 7 dataCtx (recipe getWord (fun x => { x with streams := setAt x.streams 0 st })))
theorem test_get_meets : (getScu (getting (memStream 2 0x2000)) 0 0).streams[0]? = some (memStream 2 0x2000) ∧
    0 < rC (insOf getWord).word ∧ rC (insOf getWord).word < 8 ∧ 0 < elemBits 15 / 8 ∧ (memStream 2 0x2000).kind ≠ 2 ∧
    (ctxStream 2).kind = 2 ∧ rxHere 0 (getCtx (getting (ctxStream 2)) 7) < 2 * 4 := by decide +kernel
/-- Eight bytes of context 7 are here. -/
def getStream : State :=
  setCtx 7 { dataCtx with rx := [(0, 0, 8)] } (setBuf 0 { BufRec.reset with held := true, owner := tftOwner, refs := 1 }
    (poke 0x4000_0000 (leBytes 4 5 ++ leBytes 4 6) (getting (ctxStream 2))))
theorem test_get_stream_meets : 2 * 4 ≤ rxHere 0 (getCtx getStream 7) ∧ RxSound getStream (getCtx getStream 7) :=
  ⟨by decide +kernel, meets_rx (by decide +kernel)⟩
theorem test_get_stream : ((getScu (after (.rGet 0 0) getStream) 0 0).lane 3 1).1 = 6 ∧ rxAvail (getCtx (after (.rGet 0 0) getStream) 7) = 0 := by
  decide +kernel
theorem test_get : ((getScu (after (.rGet 0 0) (getting (memStream 2 0x2000))) 0 0).lane 3 1).1 = 6 ∧
    ((getScu (after (.rGet 0 0) (getting (memStream 2 0x2000))) 0 0).predBit 1 2).1 = false ∧
    (match (getQ (after (.rGet 0 0) (getting (ctxStream 2))) 0 9).cur with | some c => c.liveWait | none => false) = true := by
  decide +kernel
/-- PUT of the first two lanes (P1) of V1 to OUT0. -/
def putWord : Nat := 0x11 + 15 * 2 ^ 8 + 1 * 2 ^ 20 + 1 * 2 ^ 32
def putting (st : SStream) : State :=
  withCtx 7 dataCtx (recipe putWord (fun x => { (regs 0 0 (7, -2) (0, 0) (0, 0) x) with streams := setAt x.streams 4 st, pr := [(32, true), (33, true)] }))
theorem test_put_meets : (getScu (putting (memStream 4 0x3000)) 0 0).streams[4]? = some (memStream 4 0x3000) ∧
    (activeOf (getScu (putting (memStream 4 0x3000)) 0 0) (insOf putWord)).length = 2 ∧ (memStream 4 0x3000).pos + 2 ≤ 4 ∧
    (memStream 1 0x3000).count < (memStream 1 0x3000).pos + 2 ∧ (∀ j < 2, memMapped (putting (memStream 4 0x3000)) (0x3000 + 4 * j) 4 = true) ∧
    (handOver 0 9 7 (clean (leBytes 4 7 ++ leBytes 4 0xFFFF_FFFE)) false (putting (ctxStream 4))).2 = true ∧
    (activeOf (getScu (recipe (0x11 + 2 ^ 35) id) 0 0) (insOf (0x11 + 2 ^ 35))).length = 0 := by decide +kernel
theorem test_put : leNat (bytesAt (after (.rPut 0 0) (putting (memStream 4 0x3000))) 0x3004 4) = 0xFFFF_FFFE ∧
    (getQ (after (.rPut 0 0) (putting (memStream 1 0x3000))) 0 9).haltReason = 4 := by decide +kernel

/-- SORT of 5, 3 (INT32, no payload) at 0x100 with its scratch at 0x200; MERGE of 3 with 1; TOPK of the larger, K 1. -/
def sortBlock : Nat := 0x100 + 0x200 * 2 ^ 40 + 2 * 2 ^ 64 + 15 * 2 ^ 81
def mergeBlock : Nat := 0x100 + 0x140 * 2 ^ 20 + 0x180 * 2 ^ 40 + 1 * 2 ^ 120 + 1 * 2 ^ 137 + 15 * 2 ^ 154
def topkBlock : Nat := 0x100 + 0x140 * 2 ^ 20 + 0x180 * 2 ^ 40 + 2 * 2 ^ 60 + 15 * 2 ^ 77 + 1 * 2 ^ 84
def sorting (op blk : Nat) : State :=
  poke 0x5C00_0000 (leBytes 32 blk) (poke 0x5C00_0100 (leBytes 4 5 ++ leBytes 4 3) (poke 0x5C00_0140 (leBytes 4 1) (recipe op id)))
theorem test_sort_meets : let b := sortBlock
    bitsOf b 60 4 = 0 ∧ bitsOf b 90 166 = 0 ∧ bitsOf b 88 2 ≠ 3 ∧ bitsOf b 64 17 ≤ 65536 ∧ scuFormat (bitsOf b 81 5) = true ∧
    overlaps (bitsOf b 0 20, 8, 4) (bitsOf b 40 20, 8, 8) = false ∧ bitsOf b 40 20 + 8 ≤ 0x10_0000 ∧ bitsOf b 40 20 % 8 = 0 ∧
    b = leNat (bytesAt (sorting 0x48 b) 0x5C00_0000 32) := by decide +kernel
theorem test_merge_meets : let b := mergeBlock
    bitsOf b 163 93 = 0 ∧ bitsOf b 161 2 ≠ 3 ∧ bitsOf b 120 17 = 1 ∧ bitsOf b 137 17 = 1 ∧ scuFormat (bitsOf b 154 5) = true ∧
    b = leNat (bytesAt (sorting 0x49 b) 0x5C00_0000 32) := by decide +kernel
theorem test_topk_meets : let b := topkBlock
    bitsOf b 110 18 = 0 ∧ bitsOf b 160 96 = 0 ∧ bitsOf b 60 17 = 2 ∧ bitsOf b 84 13 = 1 ∧ bitsOf b 97 13 = 0 ∧
    scuFormat (bitsOf b 77 5) = true ∧ b = leNat (bytesAt (sorting 0x4A b) 0x5C00_0000 32) := by decide +kernel
theorem test_sort : bytesAt (after (.rSort 0 0) (sorting 0x48 sortBlock)) 0x5C00_0100 8 = leBytes 4 3 ++ leBytes 4 5 := by decide +kernel
theorem test_merge : bytesAt (after (.rMerge 0 0) (sorting 0x49 mergeBlock)) 0x5C00_0180 8 = leBytes 4 1 ++ leBytes 4 5 := by decide +kernel
theorem test_topk : bytesAt (after (.rTopk 0 0) (sorting 0x4A topkBlock)) 0x5C00_0140 4 = leBytes 4 5 ∧
    bytesAt (after (.rTopk 0 0) (sorting 0x4A topkBlock)) 0x5C00_0180 4 = leBytes 4 0 := by decide +kernel

/-! ### Collective groups, parameter update and dose -/

/-- A group of one member, this device, at GQ 5; a broadcast of one chunk of 64 FP32 elements from 0x2000 to 0x4000. -/
def lone : Group := { Group.reset with
  held := true, gid := 9, selfEn := true, nmemb := 1, nred := 1, ifmt := 1, maxPieceLog2 := 12, maxPieces := 256, maxEbLog2 := 2,
  gctx := 100, resGran := 16, redAddr := 0x6000, endpAddr := 0x7000, seq := 0xFFFF_FFFF }
def castWord : BitVec 256 := BitVec.ofNat 256 (0x13 + 1 * 2 ^ 196 + 2 * 2 ^ 200)
def castDesc : Nat := 1 * 2 ^ 16 + 6 * 2 ^ 24 + 1 * 2 ^ 64
def castState (g : Group) : State :=
  setGroup 0 5 g (withAr 0x1005 0 0x1000 (withAr 0x1005 1 0x2000 (withAr 0x1005 2 0x4000
    (poke 0x1000 (leBytes 64 castDesc) (poke 0x20FC [1, 2, 3, 4] (running 0x1005 castWord))))))
theorem test_cast_running : Running (castState lone) 0 0x1005 (curOf castWord true) := meets_running (by decide +kernel)
theorem test_cast_meets : wOpcode castWord = 0x13 ∧ stepIsOpen lone (curOf castWord true) = false ∧ lone.step = none ∧
    (match (readStep ⟨0, 0x1005⟩ (curOf castWord true)).run (taken (castState lone) 0 0x1005 (curOf castWord true)) with
     | .ok st u => (openStep 0 5 st u).isSome
     | .error _ _ => false) = true ∧
    (match (readStep ⟨0, 0x1005⟩ (curOf castWord true)).run (taken (castState { lone with resGran := 0 }) 0 0x1005 (curOf castWord true)) with
     | .ok st u => (openStep 0 5 st { u with groups := mput Group.reset u.groups 7 { Group.reset with held := true, resGran := 2 ^ 20 } }).isNone
     | .error _ _ => false) = true := by decide +kernel
/-- R337: the step opens as SEQ 0, its bytes are at DST, and it has completed. -/
theorem test_cast : (getGroup (after (.clBroadcast 0 5) (castState lone)) 0 5).seq = 0 ∧
    bytesAt (after (.clBroadcast 0 5) (castState lone)) 0x40FC 4 = [1, 2, 3, 4] ∧
    (getQ (after (.clBroadcast 0 5) (castState lone)) 0 0x1005).cur = none := by decide +kernel
/-- A step that is open, with all of it done, and with one piece of DST missing. -/
def openCast (missing : Nat) : State :=
  let t : Step := { stepOf 0x13 castDesc (0, 0) with src := 0x2000, dst := 0x4000, cursor := 1, missing := missing }
  castState { lone with seq := 0, nextSeq := 1, step := some t, ccount := 1, doneChunks := [0], pieceLog2 := 6, pieces := 1 }
theorem test_complete_meets : ∀ n < 2, stepIsOpen (getGroup (openCast n) 0 5) (curOf castWord true) = true ∧
    (getQ (openCast n) 0 0x1005).cur = some (curOf castWord true) ∧
    (pumpGroup 0 5 (taken (openCast n) 0 0x1005 (curOf castWord true))).2 = none ∧
    stepComplete (getGroup (pumpGroup 0 5 (taken (openCast n) 0 0x1005 (curOf castWord true))).1 0 5) = decide (n = 0) := by decide +kernel
theorem test_step_complete : (getQ (after (.stepComplete 0 5) (openCast 0)) 0 0x1005).cur = none ∧
    (getQ (after (.stepComplete 0 5) (openCast 1)) 0 0x1005).cur.isSome = true := by decide +kernel

/-- A contribution to the group of context 100, as a packet at its home cluster: 4 bytes of payload. -/
def groupCtx : Ctx := { Ctx.reset with isOpen := true, group := true, isGctx := true, gkey := 5, ackCount := 9, ackDelay := 9 }
def taggedHdr (seq : Nat) : TftHdr :=
  { typ := 1, ch := 0, dst := 100, src := 3, seq := seq, len := 4, srcEp := 1, stepc := 0x11, tag := 0 }
def arrivalOf (h : TftHdr) (payload : List Byte) : Arrival :=
  { ingress := 0, packet := buildTft h payload, ce := false, v6 := false, srcIp := 0, damaged := false, shid := some 1, slot := none, poison := [] }
def groupState (a : Arrival) : State :=
  setGroup 0 5 { lone with nmemb := 2 } (setCtx 101 { groupCtx with isGctx := false, payLog2 := 10, peer := { Peer.none with hv := true, hid := 1 } }
    (setCtx 100 groupCtx { State.reset with arrivals := [(0, [a])] }))
theorem test_dispatch_meets : let a := arrivalOf (taggedHdr 0) [1, 2, 3, 4]
    let h := parseTft a.packet
    mget [] (groupState a).arrivals 0 = [] ++ a :: [] ∧ a.slot = none ∧ h.typ = 1 ∧ contributionTo (groupState a) a = some 5 ∧ slotsBusy (groupState a) 0 < 32 ∧
    32 ≤ slotsBusy { groupState a with arrivals := [(0, List.replicate 32 { a with slot := some .raw } ++ [a])] } 0 := by decide +kernel
/-- A tag that fits the open step of the group, and one of another group. -/
def fitting : Arrival := arrivalOf { taggedHdr 0 with tag := 9 + 1 * 2 ^ 96 } [1, 2, 3, 4]
def fitState : State :=
  modGroup 0 5 (fun g => { g with seq := 0, ccount := 1, pieces := 1 }) (groupState fitting)
theorem test_fits_meets : let g := getGroup fitState 0 5
    let tag := BitVec.ofNat 128 (parseTft fitting.packet).tag
    tagSeq tag = g.seq ∧ tagGroup tag = g.gid.toNat ∧ tagRel g tag = some 0 ∧ contributed g 0 (tagPiece tag) (tagMember tag) = false ∧
    contributionTo fitState fitting = some 5 ∧ slotsBusy fitState 0 < 32 := by decide +kernel
theorem test_fits : (mget [] (after (.contributionDispatch 0) fitState).arrivals 0).map (fun b => b.slot) = [some .shadow] ∧
    (mget [] (after (.contributionDispatch 0) (groupState (arrivalOf (taggedHdr 0) [1, 2, 3, 4]))).arrivals 0).map (fun b => b.slot) = [some .raw] := by
  decide +kernel
def contrib : Arrival := arrivalOf (taggedHdr 0) [1, 2, 3, 4]
theorem test_tagged_meets : frontPacket (advanceFwd 0 0 (groupState contrib)) 0 1 = some contrib ∧
    (match slotFront 0 contrib (advanceFwd 0 0 (groupState contrib)) with
     | some (b, s1) =>
       let r := receiveFront 0 b (popArrival 0 s1)
       !stepHeld s1 0 5 && decide (r.2 = some (101, .inOrder)) && !(headerBad 0 5 r.1).1 && !(recordsBad 0 5 0 r.1)
     | none => false) = true := by decide +kernel
/-- R312: no slot is free; R185: the slot of memory that the open step writes is copied. -/
theorem test_tagged_waits_meets :
    (slotFront 0 contrib (advanceFwd 0 0 { groupState contrib with arrivals := [(0, contrib :: List.replicate 32 { contrib with slot := some .raw })] })).isNone = true ∧
    (match slotFront 0 contrib (advanceFwd 0 0 (modTile 0 0 (fun t => { t with rotating := true })
        (modGroup 0 5 (fun g => { g with step := (getGroup (openCast 1) 0 5).step, pieceLog2 := 6, pieces := 1, ccount := 1 }) (groupState contrib)))) with
     | some (_, s1) => stepHeld s1 0 5
     | none => false) = true := by decide +kernel
theorem test_tagged_calm_meets : (groupState contrib).bad = [] ∧ (∀ c ∈ (groupState contrib).ctxs, c.2.failed = false) ∧
    (getCtx { State.reset with arrivals := [(0, [contrib])] } 100).isOpen = false := by decide +kernel
theorem test_tagged_closed : getReg (after (.taggedPacketReceive 0 0) { State.reset with arrivals := [(0, [arrivalOf (taggedHdr 0) [1, 2, 3, 4]])] })
    (tftRegs 0 + 0xC) = 1 := by decide +kernel
theorem test_abort_meets : mayAccess (openCast 0) .mc (qcbBase 0 0x1005 + 0x14) 4 .doorbell = true ∧ (getGroup (openCast 0) 0 5).held = true ∧
    (getQ (openCast 0) 0 0x1005).halted = false ∧ (getGroup State.reset 0 5).held = false ∧
    mayAccess State.reset (.peer 0) (qcbBase 0 0x1005 + 0x14) 4 .doorbell = false := by decide +kernel
theorem test_abort : (getQ (after (.gsAbort .mc 0 5 1) (openCast 1)) 0 0x1005).haltReason = 0x11 := by decide +kernel
theorem test_idle_group_meets : (getGroup (openCast 1) 0 5).dead = false ∧
    getReg (setReg (gsRegs 0 5 + 0x14) 7 (openCast 1)) (gsRegs 0 5 + 0x14) ≠ 0 := by decide +kernel
theorem test_idle_group : regField (after (.groupIdle 0 5) (setReg (gsRegs 0 5 + 0x14) 7 (openCast 1))) (gsRegs 0 5 + 0x10) 0 1 = 1 := by
  decide +kernel

/-- PU_STEP of one FP32 element by SGDM without momentum: descriptor at AR0, P at AR1, G at AR2, header at AR3; P 2.0, G 1.0,
LR 0.5, LR_SCALE and GSCALE 1.0. -/
def updWord (op : Nat) : BitVec 256 :=
  BitVec.ofNat 256 (op + 1 * 2 ^ 196 + 2 * 2 ^ 200 + 3 * 2 ^ 216 + (if op = 0x11 then 4 * 2 ^ 224 + 5 * 2 ^ 228 else 0))
def updDesc (sched guard nlist : Nat) : Nat :=
  guard * 16 + 1 * 2 ^ 8 + 1 * 2 ^ 13 + 1 * 2 ^ 18 + 1 * 2 ^ 36 + 1 * 2 ^ 64 + sched * 2 ^ 128 +
    (if sched = 0 then 0x3F00_0000 else 0) * 2 ^ 192 + 0x3F80_0000 * 2 ^ 224 + 0x3F80_0000 * 2 ^ 256 + nlist * 2 ^ 512
def updState (op d hdr : Nat) : State :=
  withAr 25 0 0x1000 (withAr 25 1 0x2000 (withAr 25 2 0x3000 (withAr 25 3 0x4000 (withAr 25 4 0x5000 (withAr 25 5 0x6000
    (poke 0x1000 (leBytes 128 d) (poke 0x2000 (leBytes 4 0x4000_0000) (poke 0x3000 (leBytes 4 0x3F80_0000) (poke 0x4000 (leBytes 8 hdr)
      (running 25 (updWord op)))))))))))
def updRun (op d : Nat) : PuRun :=
  { e := ⟨0, 25⟩, c := curOf (updWord op) true, rows := decide (op = 0x11), d := d, p := 0x2000, g := 0x3000, s1 := 0, s2 := 0, s3 := 0,
    hdr := 0x4000, cpy := 0, idx := if op = 0x11 then 0x5000 else 0, cnt := if op = 0x11 then 0x6000 else 0 }
theorem test_update_running : ∀ op ∈ [0x10, 0x11], Running (updState op (updDesc 0 0 (op - 0x10)) 0) 0 25 (curOf (updWord op) true) := by
  intro op h; simp only [List.mem_cons, List.not_mem_nil, or_false] at h
  rcases h with rfl | rfl <;> exact meets_running (by decide +kernel)
theorem test_update_sound : Sound (updState 0x10 (updDesc 0 0 0) 0) := meets_sound (by decide +kernel)
theorem test_update_meets : ∀ op ∈ [0x10, 0x11], let d := updDesc 0 0 (op - 0x10)
    let s := updState op d 0
    let x := updRun op d
    wOpcode (updWord op) = op ∧ awaitsDose s 0 (curOf (updWord op) true) = false ∧
    arAddress (arOf (getQ s 0 25) 0) 0 = some 0x1000 ∧ accessCondition s ⟨0, 25⟩ 0x1000 128 64 .read = none ∧
    x.d = leNat (bytesAt s 0x1000 128) ∧ puDescConditions x.rows d = [] ∧ UpdateAddrs (getQ s 0 25) x ∧
    accessCondition s ⟨0, 25⟩ x.hdr 64 64 .read = none ∧ bitsOf (leNat (bytesAt s x.hdr 64)) 33 479 = 0 ∧
    anyOverlap (x.extents.map (fun y => (y.1, y.2.1))) = false ∧
    (∀ y ∈ x.extents, (y.2.2.2.1 = true → accessCondition s ⟨0, 25⟩ y.1 y.2.1 y.2.2.1 .read = none) ∧
      (y.2.2.2.2 = true → accessCondition s ⟨0, 25⟩ y.1 y.2.1 y.2.2.1 .write = none)) ∧
    leNat (bytesAt s x.idx 4) < pdRows x.d := by unfold UpdateAddrs; decide +kernel
/-- Frozen, with a schedule, and with a gradient that GUARD stops. -/
theorem test_update_cases_meet : bitsOf (leNat (bytesAt (updState 0x10 (updDesc 0 0 0) (2 ^ 32)) 0x4000 64)) 32 1 = 1 ∧
    pdStrict (updDesc 0 0 0 + 8) = true ∧ pdSched (updDesc 0x7000 0 0) ≠ 0 ∧ puDescConditions false (updDesc 0x7000 0 0) = [] ∧
    guardTrips (poke 0x3000 (leBytes 4 0x7F80_0000) (updState 0x10 (updDesc 0 1 0) 0)) (updRun 0x10 (updDesc 0 1 0)) = true ∧
    guardTrips (updState 0x10 (updDesc 0 1 0) 0) (updRun 0x10 (updDesc 0 1 0)) = false := by decide +kernel
/-- R366: 2.0 - 0.5 x 1.0 is 1.5, and T becomes 1. -/
theorem test_update : leNat (bytesAt (after (.puStep 0) (updState 0x10 (updDesc 0 0 0) 0)) 0x2000 4) = 0x3FC0_0000 ∧
    leNat (bytesAt (after (.puStep 0) (updState 0x10 (updDesc 0 0 0) 0)) 0x4000 4) = 1 ∧
    leNat (bytesAt (after (.puRows 0) (updState 0x11 (updDesc 0 0 1) 0)) 0x2000 4) = 0x3FC0_0000 := by decide +kernel
theorem test_update_frozen : (getQ (after (.puStep 0) (updState 0x10 (updDesc 0 0 0 + 8) (2 ^ 32))) 0 25).haltReason = 0x0F := by decide +kernel

/-- A constant schedule of 0.5 at 0x7000; the PUE that has asked for it, and its answer. -/
def schedDesc : Nat := 1 * 2 ^ 64 + 0x3FE0_0000_0000_0000 * 2 ^ 192
def asked : State := after (.puStep 0) (poke 0x7000 (leBytes 64 schedDesc) (updState 0x10 (updDesc 0x7000 0 0) 0))
theorem test_dose_meets : ∃ r, asked.dose.reqs = r :: [] ∧ asked.dose.recent = [] ∧
    (match readSchedule r asked with | (.ok d, _) => decide (d = schedDesc) | _ => false) = true ∧
    (match readSchedule { r with addr := 0xF000_0000_0000 } asked with | (.error x, _) => decide (x ≠ 0) | _ => false) = true :=
  ⟨{ cl := some 0, serial := 0, addr := 0x7000, t := 0, init := .engine 0 25 }, by decide +kernel⟩
theorem test_dose_sound : Sound asked := meets_sound (by decide +kernel)
theorem test_dose_test_meets : mayAccess State.reset .mc (doseRegs + 0x1C) 4 .write = true ∧
    State.reset.dose.reqs.any (fun r => r.cl.isNone) = false ∧
    (after (.doseTestGo .mc 1) State.reset).dose.reqs.any (fun r => r.cl.isNone) = true := by decide +kernel
theorem test_dose : mlook (after .doseEvaluate asked).dose.answers 0 = some { serial := 0, reason := 0, lr := 0x3F00_0000 } := by
  decide +kernel
theorem test_dose_sent : (after (.doseTestGo .mc 1) State.reset).dose.reqs.length = 1 := by decide +kernel
def answered : State := after .doseEvaluate asked
theorem test_answer_meets : ∃ c, (getQ answered 0 25).cur = some c ∧ Running answered 0 25 c ∧ wOpcode c.word = 0x10 ∧
    mlook answered.dose.answers 0 = some { serial := 0, reason := 0, lr := 0x3F00_0000 } ∧ awaitsDose answered 0 c = true ∧
    (getPue answered 0).ask = some 0 ∧ (getQ answered 0 25).stopReq = none ∧ memMapped answered 0x4000 4 = true ∧
    UpdateAddrs (getQ answered 0 25) { updRun 0x10 (getPue answered 0).desc.toNat with c := c } ∧
    guardTrips answered { updRun 0x10 (getPue answered 0).desc.toNat with c := c } = false :=
  ⟨{ curOf (updWord 0x10) true with begun := true }, by decide +kernel, meets_running (by decide +kernel), by unfold UpdateAddrs; decide +kernel⟩
theorem test_answer_stale_meets : awaitsDose ({ answered with pues := [] } : State) 0
    { curOf (updWord 0x10) true with begun := true } = false := by decide +kernel
theorem test_answer : leNat (bytesAt (after (.doseAnswer 0) answered) 0x2000 4) = 0x3FC0_0000 := by decide +kernel

/-! ### The switch core -/

/-- Ports 0 and 8 are up; MAC 02-00-00-00-00-01 is behind port 8 in VLAN 1. -/
def swState : State :=
  let s := modPort 0 (fun x => { x with linkUp := true }) (modPort 8 (fun x => { x with linkUp := true }) State.reset)
  let s := setField (portRegs 0) 0 1 1 (setField (portRegs 8) 0 1 1 (setField (portRegs 0 + 4) 0 12 1 s))
  { s with ft := mput 0 (mput 0 [] (ftKey 0 1 1) 1) (ftKey 0 0 5) (BitVec.ofNat 256 (1 + 1 * 2 + 0x0200_0000_0001 * 2 ^ 13 + 8 * 2 ^ 63)) }
def l2Frame (dmac : Nat) : List Byte := beBytes 6 dmac ++ beBytes 6 0x0200_0000_0002 ++ beBytes 2 0x88B5 ++ List.replicate 46 0x55
/-- An IPv4 packet of 46 bytes from 10.0.0.1 to 10.0.0.2. -/
def ipFrame : List Byte := beBytes 6 0x0200_0000_0001 ++ beBytes 6 0x0200_0000_0002 ++ beBytes 2 0x0800 ++
  [0x45, 0, 0, 0x2E, 0, 0, 0, 0, 0x40, 0x11, 0x66, 0xBD, 10, 0, 0, 1, 10, 0, 0, 2] ++ List.replicate 26 0x55
def started : State := after (.frameStart 0 0) swState
theorem test_arrive_meets : receiving swState 0 = true ∧
    (ingressOf started 0).findIdx? (fun i => !i.refused && i.decided.isNone) = some 0 ∧ 14 ≤ ipFrame.length ∧ beAt ipFrame 12 2 ≠ 0x8808 ∧
    bitOf (getReg started (policerRegs 0 (frameClass started 0 (parseFrame ipFrame)))) 0 = false := by decide +kernel
/-- The decision is a drop, a forward, and a forward whose buffer comes from the header's length. -/
theorem test_decide_meets :
    (match decideFrame started 0 0 false (l2Frame 0x0200_0000_0009) (parseFrame (l2Frame 0x0200_0000_0009)) with
     | .drop cs => decide (cs.Nodup) | _ => false) = true ∧
    decideFrame started 0 0 false (l2Frame 0x0200_0000_0001) (parseFrame (l2Frame 0x0200_0000_0001)) = .forward 8 none none ∧
    decideFrame started 0 0 false ipFrame (parseFrame ipFrame) = .forward 8 none none ∧ (parseFrame ipFrame).l3 ≠ 0 ∧
    refusedAtEnqueue started 8 = false ∧ allocPool started (egCluster 8) (egOwner 8 0) (promisedLength ipFrame (parseFrame ipFrame)) = some 1 := by
  decide +kernel
theorem meets_tables {s : State} (h : s.bad = []) : TablesSound s ∧ BuffersSound s :=
  ⟨fun _ _ hm => absurd hm (by rw [h]; exact List.not_mem_nil), fun _ => by unfold badBuf; rw [h]; rfl⟩
theorem test_tables_meet : TablesSound started ∧ BuffersSound started := meets_tables (by decide +kernel)
/-- A frame with a policer that has nothing left for it, one without IP length, and a control frame. -/
def policedState : State :=
  let r := policerRegs 0 (frameClass started 0 (parseFrame ipFrame))
  { setReg r 1 started with policers := mput 0 [] (frameClass started 0 (parseFrame ipFrame)) (2 ^ 40) }
theorem test_header_cases_meet : let cls := frameClass policedState 0 (parseFrame ipFrame)
    let r := policerRegs 0 cls
    malformedFrame (parseFrame ipFrame) = false ∧ harnessRole policedState 0 = false ∧ bitOf (getReg policedState r) 0 = true ∧
    shaperAllows (clamped policedState 0 (mget 0 policedState.policers cls)) (getReg policedState (r + 4)).toNat
      (regField policedState (r + 8) 0 24) 5 = false ∧
    needsEnd (l2Frame 1) = true ∧ beAt (beBytes 6 1 ++ beBytes 6 2 ++ beBytes 2 0x8808) 12 2 = 0x8808 ∧ ([1, 2] : List Byte).length < 14 := by
  decide +kernel
theorem test_policed : (ingressOf (after (.frameHeader 0 (ipFrame.take 40) 5) policedState) 0).map (fun i => i.decided) =
    [some (.drop [policerRegs 0 (frameClass started 0 (parseFrame ipFrame)) + 0xC])] := by decide +kernel
/-- R421: port 8 is of the harness, and its link is down. -/
def privileged (s : State) : State := setField (portRegs 8) 1 2 1 (modPort 8 (fun x => { x with linkUp := false }) s)
/-- An owner that has no room: the allocation is REFUSED. -/
theorem test_header_refused_meets : allocPool (modOwner (egCluster 8) (egOwner 8 0) (fun o => { o with limitKib := 0, res := [], ovfEn := false }) started) (egCluster 8) (egOwner 8 0)
      (promisedLength ipFrame (parseFrame ipFrame)) = none ∧
    refusedAtEnqueue (privileged started) 8 = true ∧ refusedAtEnqueue (privileged (after (.frameHeader 0 (ipFrame.take 40) 5) started)) 8 = true ∧
    decideFrame (privileged started) 0 0 false ipFrame (parseFrame ipFrame) = .forward 8 none none := by
  decide +kernel
def headed (f : List Byte) : State := after (.frameHeader 0 (f.take 40) 5) started
def arrived (f : List Byte) : State := after (.frameEnd 0 (f.drop 40 ++ fcsOf f) 9) (headed f)
theorem test_end_meets : (match ingressOf (headed ipFrame) 0 with
    | [i] => (match i.decided with
      | some (.forward 8 none (some b)) => decide (i.refused = false ∧ i.started = false ∧ i.damaged = false ∧
          (getBuf (headed ipFrame) b).held = true ∧ i.bytes ++ (ipFrame.drop 40 ++ fcsOf ipFrame) = ipFrame ++ fcsOf ipFrame ∧
          memMapped (headed ipFrame) (bufAddr (headed ipFrame) b) 60 = true ∧ 60 ≤ poolSize (bufPool b))
      | _ => false)
    | _ => false) = true ∧ 64 ≤ (ipFrame ++ fcsOf ipFrame).length ∧
    (ipFrame ++ fcsOf ipFrame).length ≤ maxFrame (headed ipFrame) 0 ∧ lenErr ipFrame = false ∧
    fcsOf ipFrame ≠ (fcsOf ipFrame).map (fun b => ~~~b) := by decide +kernel
theorem test_end_sound : Sound (headed ipFrame) := meets_sound (by decide +kernel)
/-- Frames with other decisions; a frame to this device with a wrong FCS, whose context is open; R414: a frame without IP length,
judged at its end. -/
def endAs (d : Option Decision) (bytes : List Byte) : State := setIngress 0 [⟨false, bytes, 0, d, none, false, false⟩] started
def ended (d : Decision) : State := endAs (some d) (ipFrame.take 40)
theorem test_end_cases_meet : ∀ d ∈ [Decision.control, .drop [fpRegs 0 + 0x24], .refused 8, .terminate, .flood [8]],
    (match ingressOf (ended d) 0 with
     | [i] => decide (i.decided = some d ∧ i.refused = false ∧ i.started = false ∧ i.damaged = false)
     | _ => false) = true := by decide +kernel
theorem test_end_drop : getReg (after (.frameEnd 0 (ipFrame.drop 40 ++ fcsOf ipFrame) 9) (ended (.drop [fpRegs 0 + 0x24]))) (fpRegs 0 + 0x24) = 1 ∧
    getReg (after (.frameEnd 0 (List.replicate 100 0x55) 9) (ended .control)) (fpRegs 0 + 0x1C) = 1 := by decide +kernel
def doomed : State := setCtx 0 { Ctx.reset with isOpen := true } (endAs (some .terminate) [])
theorem test_end_damaged_meets : let body : List Byte := List.replicate 60 0
    (getCtx doomed (leAt (((body.drop (parseFrame body).l4off).take (parseFrame body).ulen).drop 8) 0 8 / 2 ^ 16 % 2 ^ 18)).isOpen = true ∧
    fcsOf body ≠ [1, 2, 3, 4] := by decide +kernel
theorem test_end_damaged : (mget [] (after (.frameEnd 0 (List.replicate 60 0 ++ [1, 2, 3, 4]) 9) doomed).arrivals 0).map (fun a => a.damaged) = [true] := by
  decide +kernel
theorem test_end_l2_meets : (match ingressOf (headed (l2Frame 0x0200_0000_0001)) 0 with
    | [i] => decide (i.decided = none ∧ i.refused = false ∧ i.started = false ∧ i.damaged = false ∧ i.bytes = (l2Frame 0x0200_0000_0001).take 40)
    | _ => false) = true ∧ needsEnd (l2Frame 0x0200_0000_0001) = true ∧
    bitOf (getReg (headed (l2Frame 0x0200_0000_0001)) (policerRegs 0 (frameClass started 0 (parseFrame (l2Frame 0x0200_0000_0001))))) 0 = false ∧
    allocPool (headed (l2Frame 0x0200_0000_0001)) (egCluster 8) (egOwner 8 0) 60 = some 1 := by decide +kernel
theorem test_end_l2_sound : Sound (headed (l2Frame 0x0200_0000_0001)) := meets_sound (by decide +kernel)
theorem test_end_short_meets : ((ipFrame.take 40) ++ [0]).length < 64 := by decide +kernel
/-- R407: a wrong FCS counts; R398: the frame waits at port 8 in its buffer. -/
theorem test_arrive : (getEq (arrived ipFrame) 8 0).frames.length = 1 ∧ (ingressOf (arrived ipFrame) 0) = [] ∧
    getReg (after (.frameEnd 0 (ipFrame.drop 40 ++ [0, 0, 0, 0]) 9) (headed ipFrame)) (fpRegs 0 + 0x1C) = 1 := by decide +kernel
theorem test_arrive_l2 : (getEq (arrived (l2Frame 0x0200_0000_0001)) 8 0).frames.length = 1 ∧
    getReg (arrived (l2Frame 0x0200_0000_0009)) (fpRegs 0 + 0x24) = 1 := by decide +kernel

/-- FramesLeave: port 8 has one frame; a started one; its buffer is held. -/
theorem test_leave_meets : let s := arrived ipFrame
    let u := enterWheel 0 20 s
    rotationPick (s.egLast.getD 0 0) ((fpPorts u 0).filter (fun p => pfcReady u p || portReady u 20 p (candidates s 0))) = some 8 ∧
    pfcReady u 8 = false ∧ (chooseClass 8 20 (candidates s 0) u).2 = some 0 ∧ (getEq u 8 0).frames ≠ [] ∧ qMark s 8 0 = false ∧
    rotationPick (State.reset.egLast.getD 0 0) ((fpPorts State.reset 0).filter (fun p => pfcReady State.reset p || portReady State.reset 20 p [])) = none := by
  decide +kernel
theorem test_leave_buffers : BuffersSound (arrived ipFrame) := (meets_tables (by decide +kernel)).2
/-- A port of the harness with a frame behind it, its link up and gone. -/
def linked (up : Bool) : State :=
  modPort 8 (fun x => { x with linkUp := up, peer := 3 }) (setField (portRegs 8) 1 2 1 (setField (oeEngineRegs 0) 0 1 1 (arrived ipFrame)))
theorem test_leave_harness_meets : harnessRole (linked true) 8 = true ∧ linkUp (linked true) 8 = true ∧ 8 ∈ fpPorts (linked true) 0 ∧
    linkUp (linked false) 8 = false ∧ (getEq (linked false) 8 0).frames ≠ [] ∧ qMark (linked true) 8 0 = false ∧
    (chooseClass 8 20 (candidates (linked true) 0) (enterWheel 0 20 (linked true))).2 = some 0 := by decide +kernel
theorem test_leave_harness : ((getPort (after (.egressStart 0 20) (linked true)) 8).tx.map (fun x => x.worms.map (fun w => (w.dhid, w.first, w.last, w.bytes)))) =
      [[(3, true, true, ipFrame)]] ∧
    (getEq (after (.egressStart 0 20) (linked false)) 8 0).frames = [] := by decide +kernel
theorem test_leave_sound : Sound (arrived ipFrame) := meets_sound (by decide +kernel)
def sent : State := after (.egressStart 0 20) (arrived ipFrame)
theorem test_leave : (getEq sent 8 0).frames = [] ∧ ((getPort sent 8).tx.map (fun t => t.bytes)) = [withFcs ipFrame] := by decide +kernel
theorem test_pfc_meets : let s := modPort 8 (fun x => { x with pfcOut := [(3, 0xFFFF)] }) swState
    pfcReady s 8 = true ∧ (getPort s 8).pfcOut = (3, 0xFFFF) :: [] := by decide +kernel
theorem test_tx_done_meets : (match (getPort sent 8).tx with
    | [x] => (match x.frame with
      | some f => decide ((getBuf sent f.buf).held = true ∧ (getBuf sent f.buf).owner = f.owner ∧ f.owner ≠ 0x1411)
      | none => false)
    | _ => false) = true := by decide +kernel
theorem test_tx_waits_meets_more : (match (getPort sent 8).tx with
    | [x] => decide (x.waits = false ∧ x.open' = false)
    | _ => false) = true ∧
    stays (.frameTxDone 8) (modPort 8 (fun p => { p with tx := p.tx.map (fun x => { x with waits := true }) }) sent) = true := by decide +kernel
theorem test_tx_done : (getPort (after (.frameTxDone 8) sent) 8).tx = [] ∧
    (after (.frameTxDone 8) sent).bufs.all (fun e => !e.2.held) = true := by decide +kernel
/-- A frame for management port 0: an Ethernet frame sent by Tack. -/
def mgmtState : State := enqueueFrame 1024 7 (clean (l2Frame 1)) none 1024 0 State.reset
theorem test_mgmt_meets : (match (getEq mgmtState 1024 7).frames with
    | [f] => decide ((getBuf mgmtState f.buf).held = true ∧ (getBuf mgmtState f.buf).owner = f.owner ∧ f.owner ≠ 0x1411)
    | _ => false) = true := by decide +kernel
theorem test_mgmt : (after (.mgmtEgressStart 0) mgmtState).mgmtTx = [withFcs (l2Frame 1), []] ∧
    stays (.mgmtEgressStart 1) mgmtState = true := by decide +kernel
theorem test_age_meets : (getOwner (arrived ipFrame) (egCluster 8) (egOwner 8 0)).ageLimit = 0x4000_0000 := by decide +kernel
theorem test_age : (getEq (after (.ageDrop 8 0 0x4000_0009) (arrived ipFrame)) 8 0).frames = [] ∧
    (getEq (after (.ageDrop 8 0 0x4000_0008) (arrived ipFrame)) 8 0).frames ≠ [] := by decide +kernel
def wheeled : State := setEq 8 0 { EgQueue.reset with wheel := some 100, tat := 2 ^ 40 } swState
theorem test_wheel_meets : 8 ∈ fpPorts wheeled 0 ∧ (getEq wheeled 8 0).wheel = some 100 ∧
    shaperAllows (getEq wheeled 8 0).tat (qCpu wheeled 8 0) (qBurst wheeled 8 0) (2 ^ 30) = true := by decide +kernel
theorem test_wheel : (getEq (after (.wheelSlot 0 (2 ^ 30)) wheeled) 8 0).wheel = none ∧
    (getEq (after (.wheelSlot 0 99) wheeled) 8 0).wheel = some 100 := by decide +kernel
theorem test_tat_clamp : (getEq (after (.tatClamp 0 (2 ^ 38)) wheeled) 8 0).tat = 2 ^ 57 := by decide +kernel

/-- SwitchSettings: the divisions of cluster 0, with a port of it up and with none. -/
theorem test_pool_meets : mayAccess State.reset .mc (bpmRegs 0 + 0xC) 4 .write = true ∧ (poolCfgMib State.reset 0).sum = 32 ∧
    (∀ k < 128, adminUp State.reset k = false) ∧ heldBufs State.reset 0 = [] ∧ State.reset.owners = [] ∧
    heldBufs (headed ipFrame) 0 ≠ [] := by decide +kernel
theorem test_pool : regField (after (.poolApply .mc 0 1) State.reset) (bpmRegs 0) 0 1 = 0 ∧
    regField (after (.poolApply .mc 0 1) (headed ipFrame)) (bpmRegs 0) 0 1 = 1 := by decide +kernel
theorem test_own_meets : mayAccess State.reset .mc (bpmRegs 0 + 0x104) 4 .write = true ∧ ownWritable State.reset 0 (ownSel State.reset 0) = true ∧
    resSum State.reset 0 1 - 2 + 5 ≤ poolCount State.reset 0 1 := by decide +kernel
theorem test_own : (getOwner (after (.ownResWrite .mc 0 0 0x0005_0003) State.reset) 0 (ownSel State.reset 0)).res = [3, 5, 0, 0, 0, 0] ∧
    (getOwner (after (.ownResWrite .mc 0 0 0xFFFF_FFFF) State.reset) 0 (ownSel State.reset 0)).resRefused = true := by decide +kernel
/-- The forwarding table port of die 0: VLAN entry 7; a table number that is none. -/
def ftAccess (tbl : Nat) : State := setReg (ftRegs 0 + 0x20) 0x55 (setField (ftRegs 0) 4 20 7 (setField (ftRegs 0) 0 4 tbl State.reset))
theorem test_ft_meets : mayAccess (ftAccess 1) .mc (ftRegs 0 + 4) 4 .write = true ∧ regField (ftAccess 1) (ftRegs 0) 0 4 = 1 ∧
    regField (ftAccess 1) (ftRegs 0) 4 20 < ftSize 1 ∧ ¬ regField (ftAccess 9) (ftRegs 0) 0 4 ≤ 8 := by decide +kernel
theorem test_ft : ftEntry (after (.ftWrite .mc 0 1) (ftAccess 1)) 0 1 7 = 0x55 ∧
    getReg (after (.ftRead .mc 0 2) (after (.ftWrite .mc 0 1) (ftAccess 1))) (ftRegs 0 + 0x20) = 0x55 ∧
    regField (after (.ftWrite .mc 0 1) (ftAccess 9)) (ftRegs 0 + 4) 2 1 = 1 := by decide +kernel
theorem test_lane_group_meets : (∀ k < 8, adminUp State.reset k = false) ∧ lgMode State.reset 0 ≠ fld (3 : W32) 0 2 ∧
    adminUp (after (.portCfgWrite .mc 0 1) State.reset) 0 = true := by decide +kernel
theorem test_lane_group : lgMode (after (.lgCfgWrite .mc 0 3) State.reset) 0 = 3 ∧
    lgMode (after (.lgCfgWrite .mc 0 3) (after (.portCfgWrite .mc 0 1) State.reset)) 0 = lgMode State.reset 0 := by decide +kernel
theorem test_port_meets : isPort State.reset 0 = true ∧ isPort (after (.lgCfgWrite .mc 0 3) State.reset) 1 = false := by decide +kernel
theorem test_port_config : maxFrame (after (.portCfgWrite .mc 0 (BitVec.ofNat 32 (1 + 2000 * 65536))) State.reset) 0 = 2000 ∧
    linkUp (after (.portLinkDown 8) swState) 8 = false := by decide +kernel
def adminState : State := after (.portCfgWrite .mc 0 1) State.reset
theorem test_link_up_meets : adminUp adminState 0 = true ∧ linkUp adminState 0 = false ∧ bitOf (getReg adminState (oeEngineRegs 0 + 4)) 0 = false ∧
    harnessRole adminState 0 = false ∧ harnessRole (setField (portRegs 0) 1 2 1 adminState) 0 = true ∧ adminState.harness.phy = [] := by decide +kernel
theorem test_link_up : linkUp (after (.portLinkUp 0) adminState) 0 = true ∧
    (after (.portLinkUp 0) (setField (portRegs 0) 1 2 1 adminState)).harness.phy = [0] := by decide +kernel
def pfcState : State := setField (pfcRegs 8) 0 8 0xFF swState
/-- Management port 0 loses its link with a frame queued, and has it back. -/
theorem test_mgmt_link_meets : 1024 < 1024 + mgmtState.mgmtDown.length ∧ (getPort mgmtState 1024).tx = [] ∧ BuffersSound mgmtState :=
  ⟨by decide +kernel, by decide +kernel, (meets_tables (by decide +kernel)).2⟩
theorem test_mgmt_link : refusedAtEnqueue (after (.portLinkDown 1024) mgmtState) 1024 = true ∧
    (getEq (after (.portLinkDown 1024) mgmtState) 1024 7).frames = [] ∧
    refusedAtEnqueue (after (.portLinkUp 1024) (after (.portLinkDown 1024) mgmtState)) 1024 = false := by decide +kernel
theorem test_flush_meets : isPort (linked true) 8 = true ∧ harnessRole (linked true) 8 = true ∧ adminUp (linked true) 8 = true ∧
    (getPort (linked true) 8).tx = [] ∧ BuffersSound (linked true) :=
  ⟨by decide +kernel, by decide +kernel, by decide +kernel, by decide +kernel, (meets_tables (by decide +kernel)).2⟩
theorem test_flush : (getEq (after (.portLinkDown 8) (linked true)) 8 0).frames = [] ∧
    (getEq (after (.portCfgWrite .mc 8 2) (linked true)) 8 0).frames = [] := by decide +kernel
theorem test_pause_meets : linkUp pfcState 8 = true ∧ harnessRole pfcState 8 = false ∧ bitOf (getReg pfcState (pfcRegs 8)) 0 = true ∧
    (getPort pfcState 8).paused.length = 8 ∧
    (getPort (after (.pfcReceive 8 1 [1, 0, 0, 0, 0, 0, 0, 0] 10) pfcState) 8).paused.getD 0 none ≠ none := by decide +kernel
theorem test_pause : (getPort (after (.pfcPauseExpiry 8 0 (2 ^ 40)) (after (.pfcReceive 8 1 [1, 0, 0, 0, 0, 0, 0, 0] 10) pfcState)) 8).paused.getD 0 none = none := by
  decide +kernel
/-- A class whose pause has been sent and that holds more than its XON threshold. -/
def xoffState : State :=
  setField (pfcRegs 0 + 8) 0 26 0 (setField (pfcRegs 0) 8 8 0xFF (modPort 0 (fun x => { x with xoff := [true, false, false, false, false, false, false, false] })
    (arrived ipFrame)))
theorem test_pfc_repeat_meets : isPort xoffState 0 = true ∧ (getPort xoffState 0).xoff.getD 0 false = true ∧
    bitOf (getReg xoffState (pfcRegs 0)) 8 = true ∧ regField xoffState (pfcRegs 0 + 8) 0 26 < pfcHeld xoffState 0 0 := by decide +kernel
theorem test_pfc_repeat : (getPort (after (.pfcRepeat 0 0) xoffState) 0).pfcOut = [(0, 0xFFFF)] := by decide +kernel
/-- A held buffer that no queue names: noted by one audit pass, freed by the next. -/
def auditState : State :=
  setField (bpmRegs 0 + 0xC) 1 1 1 { State.reset with bufs := [(1, { held := true, owner := 0, refs := 1, gen := 4, noted := none, lost := false })] }
theorem test_audit_meets : regField auditState (bpmRegs 0 + 0xC) 1 1 = 1 ∧ bufCl 1 = 0 ∧ (getBuf auditState 1).held = true ∧
    auditState.bufs.filter (fun e => decide (e.1 = 1)) = [(1, getBuf auditState 1)] ∧ 1 ∉ bufferRefs auditState := by decide +kernel
theorem test_audit : (getBuf (after (.auditPass 0) auditState) 1).noted = some 4 ∧
    (getBuf (after (.auditPass 0) (after (.auditPass 0) auditState)) 1).held = false := by decide +kernel

/-- R404: both ports take cut-through frames; the header has come, the end has not. -/
def ctState : State := after (.frameHeader 0 (ipFrame.take 40) 5) (after (.frameStart 0 0) (setField (portRegs 0) 3 1 1 (setField (portRegs 8) 3 1 1 swState)))
theorem test_cut_through_meets : let u := enterWheel 0 6 ctState
    (chooseClass 8 6 (candidates ctState 0) u).2 = some 0 ∧ (getEq u 8 0).frames = [] ∧
    (candFor u 6 8 0 (candidates ctState 0)).map (fun x => (x.port, x.cls)) = some (8, 0) := by decide +kernel
theorem test_cut_through : ((getPort (after (.egressStart 0 6) ctState) 8).tx.map (fun t => t.cutThrough)) = [true] := by decide +kernel
/-- R405, R406: its end, with a right and with a wrong FCS. -/
def ctSent : State := after (.egressStart 0 6) ctState
theorem test_cut_end_meets : (match ingressOf ctSent 0 with
    | [i] => (match i.decided with
      | some (.forward 8 none (some b)) => decide (i.refused = false ∧ i.started = true ∧ memMapped ctSent (bufAddr ctSent b) 60 = true ∧
          60 ≤ poolSize (bufPool b) ∧ ((getPort ctSent 8).tx.map (fun x => x.frame.map (fun f => f.buf))) = [some b])
      | _ => false)
    | _ => false) = true ∧ lenErr ipFrame = false := by decide +kernel
theorem test_cut_end_sound : Sound ctSent := meets_sound (by decide +kernel)
theorem test_cut_end : ((getPort (after (.frameEnd 0 (ipFrame.drop 40 ++ fcsOf ipFrame) 9) ctSent) 8).tx.map (fun x => (x.stomped, x.bytes))) =
      [(false, withFcs ipFrame)] ∧
    ((getPort (after (.frameEnd 0 (ipFrame.drop 40 ++ [0, 0, 0, 0]) 9) ctSent) 8).tx.map (fun x => (x.stomped, x.bytes))) =
      [(true, withStomp ipFrame)] := by decide +kernel

/-! ### The fabric transport, check-value units, links -/

/-- Context 7, to the device at harness address 1, with the packet that has arrived from it. -/
def ackHdr (seq : Nat) : TftHdr := { typ := 2, ch := 0, dst := 7, src := 3, seq := seq }
def dataHdr (seq : Nat) : TftHdr := { typ := 0, ch := 0, dst := 7, src := 3, seq := seq, len := 4 }
def writeHdr (addr : Nat) : TftHdr := { typ := 3, ch := 0, dst := 7, src := 3, seq := 0, len := 4, tag := addr }
def rxCtx : Ctx := { dataCtx with ackCount := 9, ackDelay := 9, rate := 100, minRate := 10, maxRate := 200, aiStep := 5, resendMax := 2 }
def withArrival (a : Arrival) (x : Ctx) : State := setCtx 7 x { State.reset with arrivals := [(0, [a])] }
def dataIn : State := withArrival (arrivalOf (dataHdr 0) [1, 2, 3, 4]) rxCtx
theorem test_data_meets : let a := arrivalOf (dataHdr 0) [1, 2, 3, 4]
    let h := parseTft a.packet
    AtFront dataIn (popArrival 0 (advanceFwd 0 5 dataIn)) 0 5 0 a ∧ h.typ = 0 ∧ h.dst = 7 ∧ (getCtx dataIn 7).isOpen = true ∧
    (getCtx dataIn 7).failed = false ∧ (getCtx dataIn 7).isGctx = false ∧ (getCtx dataIn 7).homeCl.toNat = 0 ∧
    classify (popArrival 0 (advanceFwd 0 5 dataIn)) a = .inOrder ∧ 0 < h.len ∧ (allocPool dataIn 0 tftOwner h.len).isSome = true ∧
    ¬ ((getCtx dataIn 7).ackCount.toNat ≤ (chanOf dataIn 7 0).sinceAck + 1 ∨ (getCtx dataIn 7).ackDelay = 0) ∧
    memMapped dataIn (bufAddr dataIn (2 ^ 21)) 4 = true := by unfold AtFront; decide +kernel
theorem meets_context {s : State} {c : Nat} (h : s.bad = [] ∧ (getCtx s c).failed = false) : ContextSound s c :=
  ⟨by rw [h.1]; rfl, fun hf => by rw [h.2] at hf; cases hf⟩
theorem test_data_context : ContextSound dataIn 7 ∧ ContextSound State.reset 7 := ⟨meets_context (by decide +kernel), meets_context (by decide +kernel)⟩
theorem test_data_refused_meets : allocPool (modOwner 0 tftOwner (fun o => { o with limitKib := 0, res := [], ovfEn := false }) dataIn) 0 tftOwner 4 = none ∧
    writeWaits dataIn (arrivalOf (dataHdr 0) [1, 2, 3, 4]) = false := by decide +kernel
theorem test_data_sound : Sound dataIn := meets_sound (by decide +kernel)
/-- The other classes of R453, and a context that is not open. -/
theorem test_classes_meet : let s := popArrival 0 (advanceFwd 0 5 dataIn)
    classify s { arrivalOf (dataHdr 0) [1, 2, 3, 4] with damaged := true } = .damaged ∧
    classify s { arrivalOf (dataHdr 0) [1, 2, 3, 4] with shid := none } = .malformed ∧
    classify s (arrivalOf (dataHdr 3) [1, 2, 3, 4]) = .outOfOrder ∧
    classify s (arrivalOf (dataHdr 0xFFFF_FFFF) [1, 2, 3, 4]) = .duplicate ∧ classify s (arrivalOf (ackHdr 0) []) = .ack ∧
    (getCtx State.reset 7).isOpen = false := by decide +kernel
theorem test_data : (getChan (getCtx (after (.dataPacketReceive 0 5) dataIn) 7) 0).exp = 1 ∧
    rxAvail (getCtx (after (.dataPacketReceive 0 5) dataIn) 7) = 4 := by decide +kernel
def peerEntry : ProtEntry :=
  { kind := 2, valid := true, mtch := 0xFFFF_FFFF_0000_0000, base := 0, limit := 0xFFFF, read := true, write := true,
    doorbell := false, signal := false, deny := false }
def writeIn (deny : Bool) : State :=
  let s := withArrival (arrivalOf (writeHdr 0x2000) [1, 2, 3, 4]) rxCtx
  if deny then s else { s with prot := [⟨0, [peerEntry]⟩] }
theorem test_write_meets : ∀ deny, let a := arrivalOf (writeHdr 0x2000) [1, 2, 3, 4]
    frontPacket (writeIn deny) 0 3 = some a ∧ classify (popArrival 0 (advanceFwd 0 5 (writeIn deny))) a = .inOrder ∧
    peerMayWrite (popArrival 0 (advanceFwd 0 5 (writeIn deny))) (.peer 7) 0x2000 4 [1, 2, 3, 4] = !deny ∧
    touchesMmio 0x2000 4 = false := by decide +kernel
/-- R185: the place written is being copied. -/
theorem test_write_waits_meets : ∀ deny, writeWaits (writeIn deny) (arrivalOf (writeHdr 0x2000) [1, 2, 3, 4]) = false ∧
    writeWaits (modTile 0 0 (fun t => { t with rotating := true }) (writeIn deny)) (arrivalOf (writeHdr 0x2000) [1, 2, 3, 4]) = true := by
  decide +kernel
theorem test_write_context : ∀ deny, ContextSound (writeIn deny) 7 := fun deny => by cases deny <;> exact meets_context (by decide +kernel)
theorem test_write : bytesAt (after (.writePacketReceive 0 5) (writeIn false)) 0x2000 4 = [1, 2, 3, 4] ∧
    getReg (after (.writePacketReceive 0 5) (writeIn true)) (tftRegs 0 + 0x20) = 1 := by decide +kernel
/-- Two packets sent; an ACK of the first, and one that lies ahead. -/
def txPkt (seq : W32) (sent : Bool) : TxPkt := ⟨seq, .data, 2 ^ 21, 4, 0, 0, 0, sent, false⟩
def sentCtx : Ctx := { rxCtx with chans := [(0, { Chan.reset with nextSeq := 2, copies := [txPkt 0 true, txPkt 1 true] })] }
def ackIn (seq : Nat) : State := withArrival (arrivalOf (ackHdr seq) []) sentCtx
theorem test_ack_meets : frontPacket (ackIn 1) 0 2 = some (arrivalOf (ackHdr 1) []) ∧
    classify (popArrival 0 (advanceFwd 0 5 (ackIn 1))) (arrivalOf (ackHdr 1) []) = .ack ∧
    ¬ 0 < seqDiff 1 (sendSeq (chanOf (ackIn 1) 7 0)) ∧ 0 < seqDiff 3 (sendSeq (chanOf (ackIn 3) 7 0)) ∧
    ((chanOf (ackIn 1) 7 0).copies.filter (fun p => decide (0 < seqDiff 1 p.seq))).length = 1 ∧
    ((chanOf (ackIn 0) 7 0).copies.filter (fun p => decide (0 < seqDiff 0 p.seq))).length = 0 := by decide +kernel
theorem test_ack_sound : (parseTft (arrivalOf (ackHdr 1) []).packet).status = 0 ∧ BuffersSound (ackIn 1) ∧ ContextSound (ackIn 1) 7 :=
  ⟨by decide +kernel, (meets_tables (by decide +kernel)).2, meets_context (by decide +kernel)⟩
theorem test_ack : (getChan (getCtx (after (.ackPacketReceive 0 5) (ackIn 1)) 7) 0).copies.length = 1 ∧
    (getCtx (after (.ackPacketReceive 0 5) (ackIn 1)) 7).rate = 105 ∧
    getReg (after (.ackPacketReceive 0 5) (ackIn 3)) (tftRegs 0 + 0x1C) = 1 := by decide +kernel

/-- PacketsSent: a channel that owes an ACK; one with a packet not sent yet, over a harness link that is up. -/
def sending (c : Chan) : State :=
  let s := setCtx 7 { rxCtx with chans := [(0, c)] } (poke 0x4020_0000 [5, 6, 7, 8] State.reset)
  let s := setField (portRegs 8) 1 2 1 (modPort 8 (fun x => { x with linkUp := true }) s)
  setReg (hsRegs + 0x124) 8 (setReg (hsRegs + 0x120) 1 s)
theorem test_ack_due_meets : (getCtx (sending { Chan.reset with sinceAck := 2 }) 7).isOpen = true ∧
    0 < (chanOf (sending { Chan.reset with sinceAck := 2 }) 7 0).sinceAck ∧ (getCtx (sending Chan.reset) 7).failed = false ∧
    (chanOf (sending Chan.reset) 7 0).sinceAck = 0 := by decide +kernel
theorem test_ack_due : (getChan (getCtx (after (.ackDelayExpiry 7 0) (sending { Chan.reset with sinceAck := 2 })) 7) 0).sinceAck = 0 := by
  decide +kernel

theorem test_send_meets : let c := chanOf (sending { Chan.reset with nextSeq := 1, copies := [txPkt 0 false] }) 7 0
    harnessUp (sending Chan.reset) 1 = [8] ∧ c.copies.findIdx? (fun p => p.again) = none ∧
    c.copies.findIdx? (fun (p : TxPkt) => !p.sent) = some 0 ∧ c.copies[0]? = some (txPkt 0 false) ∧
    (getCtx (sending Chan.reset) 7).tat ≤ 5 * 2 ^ 20 ∧ BitVec.ofNat 4 1 ≠ (sending Chan.reset).harness.addr ∧
    badBuf (sending Chan.reset) (2 ^ 21) = false ∧ (getCtx (sending Chan.reset) 7).peer.hv = true := by decide +kernel
theorem test_send_context : ContextSound (sending Chan.reset) 7 ∧ ContextSound (sending { Chan.reset with nextSeq := 1, copies := [txPkt 0 false] }) 7 ∧
    ContextSound (sending { Chan.reset with copies := [txPkt 0 true] }) 7 :=
  ⟨meets_context (by decide +kernel), meets_context (by decide +kernel), meets_context (by decide +kernel)⟩
theorem test_send_sound : Sound (sending Chan.reset) := meets_sound (by decide +kernel)
theorem test_send : (mlook (after (.packetSend 7 0 5) (sending { Chan.reset with nextSeq := 1, copies := [txPkt 0 false] })).wormOut 8).map
    (fun l => l.map (fun w => w.bytes.length)) = some [40] := by decide +kernel
theorem test_resend_meets : (∃ p ∈ (chanOf (sending { Chan.reset with copies := [txPkt 0 true] }) 7 0).copies, p.sent = true) ∧
    (chanOf (sending { Chan.reset with copies := [txPkt 0 true] }) 7 0).timeouts + 1 < rxCtx.resendMax.toNat ∧
    rxCtx.resendMax.toNat ≤ (chanOf (sending { Chan.reset with copies := [txPkt 0 true], timeouts := 1 }) 7 0).timeouts + 1 := by decide +kernel
theorem test_resend : (getCtx (after (.resendTimeout 7 0 5) (sending { Chan.reset with copies := [txPkt 0 true] })) 7).rate = 50 ∧
    (getCtx (after (.resendTimeout 7 0 5) (sending { Chan.reset with copies := [txPkt 0 true], timeouts := 1 })) 7).failed = true := by
  decide +kernel
theorem test_tx_handover : (getTile (after (.txHandover 0 0) (holding (block false 7) heldState)) 0 0).held = [] := by decide +kernel

/-- CheckValues: CRC-32C (POLY 0 or as R467 numbers it) of unit 3. -/
theorem test_cvu_meets : ∀ off ∈ [4, 0x10, 0x14, 0x18], mayAccess State.reset .mc (cvuRegs 0 3 + off) 4 .write = true := by decide +kernel
def crcOf (poly : W32) (bs : List Nat) : W64 :=
  let s := after (.cvuStart .mc 0 3) (setReg (cvuRegs 0 3) poly State.reset)
  getCtr (after (.cvuFinish .mc 0 3) (bs.foldl (fun s b => after (.cvuData8 .mc 0 3 (BitVec.ofNat 32 b)) s) s)) (cvuRegs 0 3 + 0x20)
/-- A half-word and a word are fed lowest byte first. -/
theorem test_cvu_order : (getCvu (after (.cvuData16 .mc 0 3 0x3231) (after (.cvuStart .mc 0 3) State.reset)) 0 3).reg =
    (getCvu (after (.cvuData8 .mc 0 3 0x32) (after (.cvuData8 .mc 0 3 0x31) (after (.cvuStart .mc 0 3) State.reset))) 0 3).reg ∧
    (getCvu (after (.cvuData32 .mc 0 3 0x34333231) (after (.cvuStart .mc 0 3) State.reset)) 0 3).reg =
    (getCvu (after (.cvuData16 .mc 0 3 0x3433) (after (.cvuData16 .mc 0 3 0x3231) (after (.cvuStart .mc 0 3) State.reset))) 0 3).reg := by
  decide +kernel

/-- LinksOfDevice: bundle 0 from die 0 to die 1, whole, with one lane lost, and memory, payload, a frame and a queue behind it. -/
theorem test_flit_meets : (getBundle State.reset (bundleKey 0 1 0)).out = false ∧ (getBundle State.reset (bundleKey 0 1 0)).failed = [] ∧
    (regionOf (linkUe 0 1 0 State.reset) 0x2000).isSome = true ∧ (mget [] dataIn.arrivals 0)[0]?.isSome = true ∧
    ingressOf (headed ipFrame) 0 ≠ [] ∧ absent (bundleOut 0 1 0 (linkUe 0 1 0 State.reset)) 0 3 = false ∧
    (getQ State.reset 0 3).halted = false ∧ (getQ State.reset 0 3).stopReq = none ∧
    (getBundle (after (.bundleLaneFail 0 1 0 2) State.reset) (bundleKey 0 1 0)).failed = [2] := by decide +kernel
theorem test_flit : granPoison (after (.flitUncorrectable 0 1 0 (.memory 0x2000)) State.reset) 0x80 = true ∧
    (getQ (after (.flitUncorrectable 0 1 0 (.control 0 3)) State.reset) 0 3).haltReason = 0x0E := by decide +kernel
theorem test_bundle : (getBundle (after (.bundleLaneFail 0 1 0 3) (after (.bundleLaneFail 0 1 0 2) State.reset)) (bundleKey 0 1 0)).out = true := by
  decide +kernel
def evtState : State := { State.reset with evtWidth := 16, snoop := [⟨3, true, List.replicate 128 1, [false, false]⟩] }
theorem test_evt_meets : evtState.evtWidth ≠ 0 ∧ State.reset.evtWidth = 0 ∧ heldInReset State.reset = false := by decide +kernel
/-- R498: the companion's Exclusive granule 3 is lost, and its two halves are poisoned. -/
theorem test_evt_down : granPoison (after .evtosLinkDown evtState) 6 = true ∧ (after .evtosLinkDown evtState).snoop = [] ∧
    (after .evtosLinkUp State.reset).evtWidth = 16 := by decide +kernel
theorem test_evt_lanes : (after (.evtosLaneFail 3) evtState).evtWidth = 8 ∧
    (after (.evtosLaneFail 9) (after (.evtosLaneFail 3) evtState)).evtWidth = 0 ∧
    getReg (after .evtosFlitReplay evtState) (evtRegs + 0xC) = 1 := by decide +kernel

/-- OpticalLanes: lane group 0, port 8; a scan of a lane whose link is up. -/
def scanning : State := setField (laneRegs 8 + 0x24) 24 6 20 swState
theorem test_scan_meets : mayAccess scanning .mc (laneRegs 8 + 4) 4 .write = true ∧ bitOf (getReg scanning (laneRegs 8)) 2 = false ∧
    linkUp scanning (portOf scanning 8) = true ∧ regField scanning (laneRegs 8 + 0x24) 24 6 = 20 ∧
    linkUp State.reset (portOf State.reset 8) = false ∧ bitOf (getReg (after (.scanGo .mc 8 1) scanning) (laneRegs 8)) 2 = true := by decide +kernel
theorem test_scan : getCtr (after (.scanDone 8 (2 ^ 30)) (after (.scanGo .mc 8 1) scanning)) (laneRegs 8 + 0x28) = 2 ^ 20 ∧
    bitOf (getReg (after (.scanGo .mc 8 1) State.reset) (laneRegs 8)) 3 = true := by decide +kernel
theorem test_laser_meets : heldInReset swState = false ∧ bitOf (getReg swState (oeEngineRegs 0 + 4)) 1 = false := by decide +kernel
theorem test_laser : linkUp (after (.laserFault 1) swState) 8 = false ∧
    bitOf (getReg (after (.laserFault 1) swState) (oeEngineRegs 0 + 4)) 1 = true := by decide +kernel
def marginLane : State := setReg (laneRegs 4 + 0xC) 0x35 State.reset
theorem test_margin_meets : linkUp marginLane (portOf marginLane 4) = false ∧ getReg marginLane (laneRegs 4 + 0xC) ≠ 0 ∧
    linkUp swState (portOf swState 8) = true := by decide +kernel

/-- CheckValues: the check values of the worked example (13_transport_and_links.md): of the bytes 0x31 to 0x39. -/
theorem test_crc : crcOf 1 [0x31, 0x32, 0x33, 0x34, 0x35, 0x36, 0x37, 0x38, 0x39] = 0xE306_9283 ∧
    crcOf 0 [0x31, 0x32, 0x33, 0x34, 0x35, 0x36, 0x37, 0x38, 0x39] = 0xCBF4_3926 := by decide +kernel

/-! ### Management commands -/

/-- Tack serves commands: boot has reached its last step. -/
def serving : State := { State.reset with boot := { Boot.reset with step := 14, booted := true } }

/-- So it does, with the seal closed and PRESENCE_N low (R583, R613). -/
def present : State :=
  { serving with sig := { serving.sig with sealClosed := true, accepted := setAt serving.sig.accepted 1 false } }

/-- A command packet for this device (R507, R508), its parameters padded. -/
def pkt (flags op : Nat) (params : List Byte) : List Byte :=
  [(1 : Byte), BitVec.ofNat 8 flags] ++ leBytes 2 op ++ leBytes 4 7 ++ [(15 : Byte), 0] ++
    leBytes 2 (roundUp 8 params.length) ++ List.replicate 20 0 ++ params ++ List.replicate (roundUp 8 params.length - params.length) 0

/-- It comes from the acting master, at a PL. -/
def via (pl : Fin 4) (p : List Byte) : CmdSource := .harness p pl
def cmdOf (pl : Fin 4) (p : List Byte) : Cmd := { src := via pl p, pl := pl, packet := p }

/-- STATUS and DETAIL of the reply last sent. -/
def replied (t : State) : Option (Nat × Nat) :=
  match t.harness.sent.getLast? with
  | some (.reply b) => some (leAt b 12 2, leAt b 16 4)
  | _ => none

/-- A packet that Tack takes is judged, in the state it comes to. -/
def taking (s : State) (pl : Fin 4) (p : List Byte) : Bool :=
  tackServes s && !sourcePaused s (via pl p) && decide (32 ≤ p.length) && !pkIsReply p

theorem meets_judged {s : State} {pl : Fin 4} {p : List Byte} (h : taking s pl p = true) : Judged s s (via pl p) (cmdOf pl p) := by
  simp only [taking, Bool.and_eq_true, Bool.not_eq_true', decide_eq_true_eq] at h
  obtain ⟨⟨⟨h1, h2⟩, h3⟩, h4⟩ := h
  exact ⟨h1, h2, ⟨p, s, by simp [takePacketFrom, via, h3], h4, rfl, rfl, by simp [replyKey, isMgmt, via, cmdOf]⟩, rfl⟩

/-- Nothing of R516 stands against the command. -/
def entitled (s : State) (pl : Fin 4) (p : List Byte) : Bool :=
  decide (headerOffence (via pl p) p p.length = none) && decide (pkTarget p = 15) &&
    !((s.harness.role == 2 || s.harness.role == 3) && [0x10, 0x13, 0x15].contains (pkOp p)) &&
    decide (lengthOffence p = none) && decide (padOffence p = none) &&
    (match opRow (pkOp p) with
     | some (most, pres, _) => decide (pl.val ≤ most) && (!pres || (s.sig.sealClosed && presence s))
     | none => false)

theorem meets_entitled {s : State} {pl : Fin 4} {p : List Byte} (h : entitled s pl p = true) : Entitled s (cmdOf pl p) := by
  simp only [entitled, Bool.and_eq_true, Bool.not_eq_true', decide_eq_true_eq] at h
  obtain ⟨⟨⟨⟨⟨h1, h2⟩, h3⟩, h4⟩, h5⟩, h6⟩ := h
  refine ⟨h1, .inl h2, ?_, ?_, h4, h5⟩
  · split at h6
    · rename_i most pres master e
      simp only [Bool.and_eq_true, Bool.or_eq_true, Bool.not_eq_true', decide_eq_true_eq] at h6
      exact ⟨most, pres, master, e, h6.1, fun _ => .inr ⟨p, pl, rfl⟩, fun hp => h6.2.resolve_left (by simp [hp])⟩
    · cases h6
  · intro ⟨a, b⟩
    have hb : [0x10, 0x13, 0x15].contains (pkOp p) = true := List.elem_eq_true_of_mem b
    rcases a with a | a <;> rw [a, hb] at h3 <;> cases h3

/-- CommandsJudged: each refusal has a packet that meets it first. -/
theorem test_judge_meets : ∀ x ∈ [(serving, pkt 0 0x01 []), (serving, pkt 0 0x06 []), (serving, pkt 8 0x01 []), (serving, pkt 0 0x30 []),
    (present, pkt 4 0x31 [0])], taking x.1 0 x.2 = true := by decide +kernel
theorem test_bad_opcode : replied (after (.badOpcode (via 0 (pkt 0 0x06 []))) serving) = some (1, 0) := by decide +kernel
theorem test_bad_header : replied (after (.getStatus (via 0 (pkt 8 0x01 []))) serving) = some (2, 1) := by decide +kernel
/-- R516: PL 2 may not load a job; the acting master is the source of PORT_CONFIG, or it is this device. -/
theorem test_denied : replied (after (.loadJob (via 2 (pkt 0 0x10 []))) serving) = some (5, 1) := by decide +kernel
theorem test_length : replied (after (.readErrors (via 0 (pkt 0 0x02 []))) serving) = some (2, 10) := by decide +kernel
/-- R518: without the seal 9; without presence 4 under NO_WAIT, a wait else, and 6 while one waits; 11 at its end. -/
def noPresence : State := { serving with sig := { serving.sig with sealClosed := true } }
def waiting : State := after (.debugUnlock (via 0 (pkt 0 0x31 [0]))) noPresence
theorem test_presence : replied (after (.debugUnlock (via 0 (pkt 0 0x31 [0]))) serving) = some (9, 0) ∧
    replied (after (.debugUnlock (via 0 (pkt 4 0x31 [0]))) noPresence) = some (4, 0) ∧
    replied (after (.debugUnlock (.harness (pkt 0 0x31 [1]) 0)) { noPresence with presWait := some ⟨.ring 0, pkt 0 0x31 [0], []⟩ }) =
      some (6, 0) := by decide +kernel
theorem test_presence_wait : waiting.presWait = some ⟨via 0 (pkt 0 0x31 [0]), pkt 0 0x31 [0], []⟩ ∧ tackServes waiting = true ∧
    replied (after .timeoutPresence waiting) = some (11, 0) ∧
    replied (after .presenceWaitEnd { waiting with sig := present.sig }) = some (0, 0) := by decide +kernel
theorem test_judge_clauses : actingMaster serving = true ∧ harnessPick serving 3 0 = none ∧
    (serving.harness.role ≠ 2 ∧ serving.harness.role ≠ 3) ∧ noPresence.sig.sealClosed = true ∧ presence noPresence = false ∧
    presence present = true := by decide +kernel
/-- R513: a command for a device that cannot be reached: NO_RESOURCE KIND 0x20. -/
theorem test_unreachable : replied (after (.getStatus (via 0 ((pkt 0 0x01 []).set 8 3))) serving) = some (3, 0x3FF20) := by decide +kernel

/-! Jobs, contexts and groups. -/

/-- Where a descriptor lies. -/
def descAt : Nat := 0x10000
def named (op : Nat) : List Byte := pkt 0 op (leBytes 8 descAt)

/-- Job 5 takes tile 0 of cluster 0, 4 counters of it from 8 on, and 3 contexts. -/
def jobBits : Nat := 5 + 1 * 2 ^ 64 + (8 + 4 * 2 ^ 12) * 2 ^ 320 + 3 * 2 ^ 576
def withDesc (d n : Nat) (s : State) : State := poke descAt (leBytes n d) s
def jobReady : State := withDesc jobBits 128 serving
def jobLoaded : State := after (.loadJob (via 0 (named 0x10))) jobReady
theorem test_job_meets : taking jobReady 0 (named 0x10) = true ∧ entitled jobReady 0 (named 0x10) = true ∧
    structRefusal jobReady 0 ((cmdOf 0 (named 0x10)).par 0 8) 128 64 0 = none ∧ jdOffence jobBits = none ∧
    leNat (bytesAt jobReady descAt 128) = jobBits ∧
    (jdNamed jobBits).find? (engineGone jobReady) = none ∧ jobShortage jobReady jobBits = none ∧ jdOffence 0 = some 0 ∧
    jobShortage jobLoaded jobBits = some (noResource 2 0xFF 0) := by decide +kernel
theorem test_job_sound : Sound jobReady := meets_sound (by decide +kernel)
/-- R520: an engine that is fused off: ABSENT. -/
def goneState : State := { jobReady with part := { jobReady.part with grade := .b } }
theorem test_job_gone : (jdNamed (5 + 2 ^ (64 + 7))).find? (engineGone goneState) = some (0, 7) ∧
    replied (after (.loadJob (via 0 (named 0x10))) (withDesc (5 + 2 ^ (64 + 7)) 128 goneState)) = some (7, 7) := by decide +kernel
theorem test_job : replied jobLoaded = some (0, 0) ∧ jobLoaded.jobs.length = 1 ∧ (getSem jobLoaded 0 9).value = 0 ∧
    replied (after (.loadJob (via 0 (named 0x10))) jobLoaded) = some (3, 0xFF02) := by decide +kernel
theorem test_unload_meets : (jobById jobLoaded 5).isSome = true ∧ jobById serving 5 = none ∧
    taking jobLoaded 0 (pkt 0 0x11 [5, 0]) = true ∧ entitled jobLoaded 0 (pkt 0 0x11 [5, 0]) = true := by decide +kernel
theorem test_unload : (after (.unloadJob (via 0 (pkt 0 0x11 [5, 0]))) jobLoaded).jobs = [] ∧
    replied (after (.unloadJob (via 0 (pkt 0 0x11 [6, 0]))) jobLoaded) = some (2, 32) := by decide +kernel
/-- Tile 0 halted, with a reason that a reset ends, and with one that it does not (R100, R524). -/
def haltedAs (r : Byte) : State := modQ 0 0 (fun q => { q with halted := true, haltReason := r }) jobLoaded
theorem test_reset_meets : taking (haltedAs 1) 0 (pkt 0 0x12 [5, 0, 0, 0, 0]) = true ∧ entitled (haltedAs 1) 0 (pkt 0 0x12 [5, 0, 0, 0, 0]) = true ∧
    ((jobById (haltedAs 1) 5).map (fun j => (jobQueues j).contains (0, 0))) = some true ∧ terminal 1 = false ∧ terminal 0x0E = true ∧
    (getTile (haltedAs 1) 0 0).rotating = false := by decide +kernel
theorem test_reset_unit : (getQ (after (.resetUnit (via 0 (pkt 0 0x12 [5, 0, 0, 0, 0]))) (haltedAs 1)) 0 0).halted = false ∧
    replied (after (.resetUnit (via 0 (pkt 0 0x12 [5, 0, 0, 0, 0]))) (haltedAs 0x0E)) = some (5, 0x0E06) ∧
    replied (after (.resetUnit (via 0 (pkt 0 0x12 [5, 0, 0, 0, 0]))) (modTile 0 0 (fun t => { t with rotating := true }) jobLoaded)) =
      some (6, 0) := by decide +kernel

/-- A context descriptor: peer 2 on the harness, home cluster 0. -/
def ctxBits : Nat := 2 + 64 * 2 ^ 64 + 10 * 2 ^ 72 + 1 * 2 ^ 92 + 4096 * 2 ^ 128 + 100 * 2 ^ 176 + 10 * 2 ^ 200
def openPkt : List Byte := pkt 0 0x13 (leBytes 4 9 ++ leBytes 2 5 ++ [0, 0] ++ leBytes 64 ctxBits)
/-- The peer table of three entries lies at 0x40000; entry 2 is device 3 of the harness (R448). LOCAL entry 0 of die 0 is
10.0.0.1. -/
def peered (s : State) : State :=
  let s := { s with ft := mput 0 s.ft (ftKey 0 7 0) (1 + 0x0A00_0001 * 4) }
  poke (0x40000 + 64) (leBytes 32 (1 + 4 + 3 * 8)) (setReg (tftDev + 0xC) 3 (setReg (tftDev + 4) 0x40000 s))
def ctxReady : State := peered jobLoaded
def ctxOpened : State := after (.ctxOpen (via 0 openPkt)) ctxReady
theorem test_ctx_meets : taking ctxReady 0 openPkt = true ∧ entitled ctxReady 0 openPkt = true ∧
    ((cmdOf 0 openPkt).gap 6 2).2 = false ∧ (readPeer (cdPeer ctxBits) ctxReady).1.isSome = true ∧
    offence (ctxOffences (readPeer (cdPeer ctxBits) ctxReady).2 ctxBits (readPeer (cdPeer ctxBits) ctxReady).1) = none ∧
    (getCtx ctxReady 9).isOpen = false ∧ (getCtx ctxOpened 9).isOpen = true := by decide +kernel
theorem test_ctx_full : let full := { ctxReady with jobs := ctxReady.jobs.map (fun j => { j with dctx := 0 }) }
    taking full 0 openPkt = true ∧ replied (after (.ctxOpen (via 0 openPkt)) full) = some (3, 0xFF19) ∧
    replied (after (.ctxOpen (via 0 openPkt)) ctxOpened) = some (3, 0xFF18) := by decide +kernel
theorem test_ctx : replied ctxOpened = some (0, 0) ∧ (getCtx ctxOpened 9).rate = 100 ∧
    (getCtx (after (.ctxClose (via 0 (pkt 0 0x14 (leBytes 4 9)))) ctxOpened) 9).isOpen = false ∧
    replied (after (.ctxClose (via 0 (pkt 0 0x14 (leBytes 4 9)))) ctxReady) = some (2, 32) := by decide +kernel
theorem test_close_sound : BuffersSound ctxOpened := (meets_tables (by decide +kernel)).2
theorem test_close_meets : taking ctxOpened 0 (pkt 0 0x14 (leBytes 4 9)) = true ∧ entitled ctxOpened 0 (pkt 0 0x14 (leBytes 4 9)) = true ∧
    (getCtx ctxOpened 9).group = false := by decide +kernel

/-- Group 7 of cluster 0, queue 3: two members, this device the second, one reducer; context 100 on. -/
def groupBits : Nat := 7 + 2 ^ 27 + 3 * 2 ^ 28 + 1 * 2 ^ 40 + 1 * 2 ^ 56 + 6 * 2 ^ 97 + 0x20000 * 2 ^ 128 + 0x21000 * 2 ^ 176 +
  100 * 2 ^ 224 + 64 * 2 ^ 256 + 4 * 2 ^ 292
/-- TFT_GDEF as `ctxBits`, and the tables: entry 0 is peer 2, entry 1 is LOCAL. -/
def groupReady : State :=
  let s := (List.range 16).foldl (fun s i => setReg (tftDev + 0x100 + 4 * i) (BitVec.ofNat 32 (bitsOf ctxBits (32 * i) 32)) s) (peered serving)
  poke 0x20000 (leBytes 16 2 ++ leBytes 16 (2 ^ 50)) (poke 0x21000 [0, 0] (withDesc groupBits 64 s))
def grouped : State := after (.groupCreate (via 0 (named 0x15))) groupReady
theorem test_group_meets : taking groupReady 0 (named 0x15) = true ∧ entitled groupReady 0 (named 0x15) = true ∧
    structRefusal groupReady 0 descAt 64 64 0 = none ∧ leNat (bytesAt groupReady descAt 64) = groupBits ∧
    offence (gdOffences groupReady groupBits) = none ∧ offence (tableOffences groupReady groupBits) = none ∧
    offence (gdOffences groupReady 0) ≠ none ∧ offence (tableOffences groupReady (groupBits + 2 ^ 56)) ≠ none := by decide +kernel
theorem test_group_sound : Sound groupReady := meets_sound (by decide +kernel)
theorem test_group_peers : let x := groupPeers groupBits ((localEntry (endpointTable groupReady groupBits)).getD 0) groupReady
    offence ((ctxOffences x.2 (templateFor x.2 groupBits 0 0) none).filter (fun y => decide (y.1 ≠ 0)) ++
      x.1.flatMap (fun p => ctxOffences x.2 p.2.1 p.2.2)) = none ∧ groupShortage x.2 groupBits = none ∧
    groupShortage grouped groupBits ≠ none ∧ x.1.length = 1 := by decide +kernel
theorem test_group : replied grouped = some (0, 0) ∧ (getGroup grouped 0 3).held = true ∧ (getCtx grouped 101).isOpen = true := by decide +kernel
theorem test_group_end_meets : taking grouped 0 (pkt 0 0x16 (leBytes 4 7)) = true ∧ entitled grouped 0 (pkt 0 0x16 (leBytes 4 7)) = true ∧
    groupById grouped 7 = some (0, 3) ∧ groupById serving 7 = none ∧ taking grouped 0 (pkt 0 0x17 (leBytes 4 7)) = true ∧
    entitled grouped 0 (pkt 0 0x17 (leBytes 4 7)) = true ∧ (getQ grouped 0 (gqid 3)).halted = false := by decide +kernel
theorem test_group_end : (getGroup (after (.groupDestroy (via 0 (pkt 0 0x16 (leBytes 4 7)))) grouped) 0 3).held = false ∧
    (getCtx (after (.groupDestroy (via 0 (pkt 0 0x16 (leBytes 4 7)))) grouped) 101).isOpen = false ∧
    (getQ (after (.abortGroup (via 0 (pkt 0 0x17 (leBytes 4 7)))) grouped) 0 (gqid 3)).haltReason = 0x11 := by decide +kernel

/-- An image with one byte of payload, version 5, under root 0, whose key is the base point of P-521 itself. -/
def imageHead : List Byte :=
  ascii "NRN-TACK" ++ leBytes 2 1 ++ [(0 : Byte), 0] ++ leBytes 4 0 ++ leBytes 4 5 ++ leBytes 4 1 ++ List.replicate 8 0 ++
    pointBytes (some p521G) ++ List.replicate 91 0
def goodImage : List Byte :=
  imageHead ++ beBytes 66 (p521G.1 % p521N) ++
    beBytes 66 0xc6c74dbd70310c04c937ad49249c54d257401bed320e9b565fbd6ca03c99ce6aa50615097eaef9708cbf334ba5987dd6af2fa85ef7ab28342c5e4b7e70d455dbe2 ++
    List.replicate 124 0 ++ [0x2A]
theorem test_sha512 : beNat (sha512 [0x61, 0x62, 0x63]) = 0xDDAF35A193617ABACC417349AE20413112E6FA4E89A97EA20A9EEEE64B55D39A2192992A274FC1A836BA3C23A3FEEBBD454D4423643CE80E2A9AC94FA54CA49F := by decide +kernel
theorem test_signature : signatureOk goodImage = true := by decide +kernel

/-! DeviceCommands. -/

/-- The packet is taken, and nothing of R516 stands against it. -/
def ready (s : State) (pl : Fin 4) (p : List Byte) : Bool := taking s pl p && entitled s pl p

theorem meets_prepared {s : State} {pl : Fin 4} {p : List Byte} (h : ready s pl p = true) :
    Judged s s (via pl p) (cmdOf pl p) ∧ Entitled s (cmdOf pl p) := by
  simp only [ready, Bool.and_eq_true] at h
  exact ⟨meets_judged h.1, meets_entitled h.2⟩

def readPkt (a n : Nat) : List Byte := pkt 0 0x04 (leBytes 8 a ++ leBytes 2 n)
def writePkt (a : Nat) (bs : List Byte) : List Byte := pkt 0 0x05 (leBytes 8 a ++ leBytes 2 bs.length ++ List.replicate 6 0 ++ bs)
theorem test_device_meets : ready serving 3 (pkt 0 0x01 []) = true ∧ ready serving 3 (pkt 0 0x02 [0, 0, 0, 0, 15, 0]) = true ∧
    ready serving 3 (pkt 0 0x03 (List.replicate 64 9)) = true ∧ ready serving 3 (readPkt 0x1000 992) = true ∧
    ready serving 0 (writePkt 0x1000 [7]) = true ∧ (cmdOf 0 (writePkt 0x1000 [7])).par 8 2 = 1 ∧
    ((cmdOf 0 (writePkt 0x1000 [7])).gap 10 6).2 = false := by decide +kernel
theorem test_status : replied (after (.getStatus (via 3 (pkt 0 0x01 []))) serving) = some (0, 0) := by decide +kernel
theorem test_errors : replied (after (.readErrors (via 3 (pkt 0 0x02 [0, 0, 0, 0, 15, 0]))) serving) = some (0, 0) ∧
    replied (after (.readErrors (via 3 (pkt 0 0x02 [0, 0, 0, 0, 16, 0]))) serving) = some (2, 36) := by decide +kernel
/-- R584: under a table, PL 3 reads what an entry lets it read, and no more. -/
def fenced : State :=
  { serving with prot := [{ gen := 1, table := [⟨0, true, 0xC, 0x1000, 0x1FFF, true, false, false, false, false⟩] }] }
theorem test_access_meets : accessRefusal fenced 3 0x1000 992 [] false = none ∧ touchesMmio 0x1000 992 = false ∧
    accessRefusal fenced 3 0x2000 8 [] false = some (denied 5) ∧ accessRefusal serving 0 0x1000 1 [7] true = none ∧
    accessRefusal fenced 3 0x1000 1 [7] true = some (denied 5) := by decide +kernel
theorem test_access_sound : Sound serving := meets_sound (by decide +kernel)
theorem test_mem_write : memByte (after (.memWrite (via 0 (writePkt 0x1000 [7]))) serving) 0x1000 = 7 ∧
    replied (after (.memRead (via 3 (readPkt 0x2000 8))) fenced) = some (5, 5) := by decide +kernel

/-- Run 1: 16 cases with a bias of -2 for the tiles of cluster 0. -/
def runPkt : List Byte := pkt 0 0x18 ([1, 1, 0, 0] ++ leBytes 4 16 ++ leBytes 8 77 ++ [0xFE, 0xFF])
theorem test_cupping_meets : ready serving 0 runPkt = true ∧ sext 16 ((cmdOf 0 runPkt).par 16 2) = -2 ∧ hUnitExists serving (hkey 1 0 0) = true ∧
    (getHUnit serving (hkey 1 0 0)).retired = false ∧ ((cmdOf 0 runPkt).gap 2 2).2 = false := by decide +kernel
theorem test_cupping : replied (after (.runCupping (via 0 runPkt)) serving) = some (0, 1) := by decide +kernel

/-- Lane group 2 as four ports of two lanes, the first up, each with frames up to 1,600 bytes. -/
def portPkt : List Byte := pkt 0 0x20 ([2, 0, 1, 0] ++ leBytes 4 (1 + 1600 * 16) ++ leBytes 4 (1600 * 16) ++ leBytes 4 (1600 * 16) ++ leBytes 4 (1600 * 16))
theorem test_ports_set_meets : ready serving 0 portPkt = true ∧ pcOffence (cmdOf 0 portPkt) = none ∧
    (∀ i < 8, isPort serving (16 + i) = false → adminUp serving (16 + i) = false) ∧
    pcOffence (cmdOf 0 (portPkt.set 32 128)) = some 32 := by decide +kernel
theorem test_ports_set : lgMode (after (.portConfig (via 0 portPkt)) serving) 2 = 1 ∧
    maxFrame (after (.portConfig (via 0 portPkt)) serving) 18 = 1600 := by decide +kernel
/-- Two lanes to device 3. -/
def routePkt : List Byte := pkt 0 0x21 ([3, 2, 0, 0] ++ leBytes 2 8 ++ leBytes 2 9 ++ List.replicate 12 0)
theorem test_route_meets : ready serving 0 routePkt = true ∧ hsOffence (cmdOf 0 routePkt) true = none ∧
    hsOffence (cmdOf 0 (routePkt.set 34 1)) true = some 34 := by decide +kernel
theorem test_route : harnessRoute (after (.harnessSet (via 0 routePkt)) serving) 3 = [8, 9] := by decide +kernel
def mgmtPkt : List Byte := pkt 0 0x22 ([1, 5] ++ leBytes 2 4000 ++ leBytes 2 7 ++ [0, 0] ++ leBytes 4 0x0A00_0002 ++ [24, 0, 0, 0] ++ leBytes 16 0 ++ [0])
theorem test_mgmt_config_meets : ready serving 0 mgmtPkt = true ∧ (cmdOf 0 mgmtPkt).par 0 1 = 1 ∧ (cmdOf 0 mgmtPkt).par 4 2 = 7 ∧
    ((cmdOf 0 mgmtPkt).gap 6 2).2 = false ∧ ((cmdOf 0 mgmtPkt).gap 13 3).2 = false ∧ (cmdOf 0 mgmtPkt).par 32 1 ≤ 128 := by decide +kernel
theorem test_mgmt_config : (mgmtOf (after (.mgmtConfig (via 0 mgmtPkt)) serving) 1).vid = 7 := by decide +kernel

/-- One entry of a protection table: companion PL 2 may read [0, 0xFFF]. -/
def protBits : Nat := 4 + 2 * 2 ^ 34 + 0xFFF * 2 ^ 144 + 2 ^ 192
def listPkt (op n : Nat) : List Byte := pkt 0 op (leBytes 8 descAt ++ leBytes 4 n)
def gensFull : State := { withDesc protBits 32 serving with
  prot := [⟨1, []⟩, ⟨2, []⟩, ⟨3, []⟩, ⟨4, []⟩], queues := (List.range 4).map (fun i => (qkey 0 i, { Queue.reset with gen := i + 1, run := true, cur := some (curOf 0 true) })) }
theorem test_prot_meets : ready (withDesc protBits 32 serving) 0 (listPkt 0x23 1) = true ∧
    structRefusal (withDesc protBits 32 serving) 0 descAt 32 32 0 = none ∧
    offence (listOffences protOffence (entries32 1 (bytesAt (withDesc protBits 32 serving) descAt 32))) = none ∧
    offence (listOffences protOffence [3]) = some 0 ∧ (trimGens (withDesc protBits 32 serving)).prot.length < 4 ∧
    (∀ g ∈ (withDesc protBits 32 serving).prot, g.gen ≠ newestGen (withDesc protBits 32 serving) + 1) ∧
    4 ≤ (trimGens gensFull).prot.length := by decide +kernel
theorem test_prot : (tableOf (after (.setProtection (via 0 (listPkt 0x23 1))) (withDesc protBits 32 serving))
      (newestGen (after (.setProtection (via 0 (listPkt 0x23 1))) (withDesc protBits 32 serving)))).map (fun e => (e.mtch, e.limit)) =
    [(8, 0xFFF)] := by decide +kernel

/-- The fuses of slot 0 hold the digest of the key of `goodImage`, and it lies in memory. -/
def rooted (s : State) : State :=
  let d := sha512 (pointBytes (some p521G))
  { s with fuses := (List.range 16).foldl (fun f i => mput 0 f (32 + i) (BitVec.ofNat 32 (leAt d (4 * i) 4))) (mput 0 s.fuses 96 1) }
def laid (a : Nat) (bs : List Byte) : SMap Byte :=
  match bs with
  | [] => []
  | b :: r => if b = 0 then laid (a + 1) r else (a, b) :: laid (a + 1) r

theorem laid_below (a k : Nat) (bs : List Byte) (h : k < a) : mlook (laid a bs) k = none := by
  induction bs generalizing a with
  | nil => rfl
  | cons b r ih =>
    simp only [laid]
    split
    · exact ih (a + 1) (by omega)
    · simp only [mlook, show a ≠ k by omega, if_false]
      exact ih (a + 1) (by omega)

theorem laid_reads (a i : Nat) (bs : List Byte) (h : i < bs.length) : mget 0 (laid a bs) (a + i) = bs[i] := by
  induction bs generalizing a i with
  | nil => simp at h
  | cons b r ih =>
    cases i with
    | zero =>
      simp only [laid]
      split
      · next hb => simp [mget, laid_below, hb]
      · simp [mget, mlook]
    | succ i =>
      have hr : mget 0 (laid (a + 1) r) (a + (i + 1)) = r[i]'(by simpa using h) := by
        rw [show a + (i + 1) = a + 1 + i by omega]
        exact ih (a + 1) i (by simpa using h)
      simp only [laid]
      split
      · simpa using hr
      · simpa [mget, mlook] using hr

/-- Bytes laid out in memory are read there. -/
theorem bytesAt_laid (a : Nat) (bs : List Byte) (s : State) : bytesAt { s with mem := laid a bs } a bs.length = bs := by
  apply List.ext_getElem
  · simp [bytesAt]
  · intro i h1 h2
    simp only [bytesAt, List.getElem_map, List.getElem_range, memByte]
    exact laid_reads a i bs h2

def imageReady : State := { rooted serving with mem := laid descAt goodImage }
theorem test_image_meets : ready imageReady 0 (listPkt 0x24 513) = true ∧ structRefusal imageReady 0 descAt 513 1 0 = none ∧
    goodImage.length = 513 ∧ imageFormat goodImage = true ∧ rootOk imageReady goodImage = true ∧
    svnFuse imageReady ≤ leAt goodImage 12 4 ∧ imageReady.boot.version.toNat < leAt goodImage 16 4 := by decide +kernel
theorem test_image_sound : Sound imageReady := meets_sound (by decide +kernel)
theorem test_image_bad : imageFormat [] = false ∧ rootOk serving goodImage = false ∧
    replied (after (.fwUpdate (via 0 (listPkt 0x24 513))) (withDesc 0 513 serving)) = some (8, 0) := by decide +kernel
theorem test_image_old : leAt goodImage 16 4 ≤ ({ imageReady.boot with version := 5 }).version.toNat ∧
    leAt goodImage 12 4 < svnFuse { imageReady with fuses := mput 0 imageReady.fuses 97 1 } := by decide +kernel

/-! The commands that need presence. -/
def keyPkt : List Byte := pkt 0 0x30 ([2, 1, 3, 0] ++ leBytes 2 32 ++ [0, 0] ++ List.replicate 32 0x55)
theorem test_key_meets : ready present 0 keyPkt = true ∧ ((cmdOf 0 keyPkt).gap 3 1).2 = false ∧ ((cmdOf 0 keyPkt).gap 6 2).2 = false ∧
    (cmdOf 0 keyPkt).par 4 2 = 32 := by decide +kernel
theorem test_key : (keySlot (after (.enrolKey (via 0 keyPkt)) present) 2).map (fun k => k.pl) = some 3 := by decide +kernel
theorem test_debug_meets : ready present 0 (pkt 0 0x31 [2]) = true ∧ bitOf (fuseWord present 99) 0 = false ∧
    ready present 0 (pkt 0 0x31 [3]) = true := by decide +kernel
theorem test_debug : (after (.debugUnlock (via 0 (pkt 0 0x31 [2]))) present).boot.debugLevel = 2 ∧
    replied (after (.debugUnlock (via 0 (pkt 0 0x31 [3]))) present) = some (2, 32) := by decide +kernel
def fusePkt : List Byte := pkt 0 0x32 (leBytes 2 48 ++ [0, 0] ++ leBytes 4 5)
theorem test_fuse_meets : ready present 0 fusePkt = true ∧ fuseAccepts present 48 = true ∧ fuseBitsBad present 48 5 = false ∧
    ((cmdOf 0 fusePkt).gap 2 2).2 = false := by decide +kernel
/-- Band 0 for every tile of cluster 0: KIND 1, CAUSE 3. -/
def bandBits : Nat := 4 * 2 ^ 4 + 3 * 2 ^ 48
def bandReady : State := withDesc bandBits 32 present
theorem test_farrier_meets : ready bandReady 0 (listPkt 0x33 32) = true ∧ structRefusal bandReady 0 descAt 32 1 0 = none ∧
    (purge (bandReady.health.entries ++ (entries32 1 (bytesAt bandReady descAt 32)).map (stampEntry bandReady))).length ≤ 4096 ∧
    offence (listOffences (farrierOffence bandReady) (entries32 1 (bytesAt bandReady descAt 32))) = none ∧
    offence (listOffences (farrierOffence bandReady) [9]) ≠ none := by decide +kernel
theorem test_farrier_sound : Sound bandReady := meets_sound (by decide +kernel)
theorem test_farrier : (after (.farrierUpdate (via 0 (listPkt 0x33 32))) bandReady).health.entries.length = 1 := by decide +kernel

/-! ### The harness -/

/-- Port 8 is a harness port that waits for a HELLO, device 1 is behind it; a route of one lane leads to it. -/
def hsBase : State :=
  let s := setField (portRegs 8) 0 3 3 (setReg (hsRegs + 0x124) 8 (setReg (hsRegs + 0x120) 1 State.reset))
  { s with harness := { s.harness with phy := [8], parts := [(1, [.relay true])] } }
/-- A member, at address 2. -/
def hsMember : State := { hsBase with part := { hsBase.part with harnessId := 2 }, harness := { hsBase.harness with role := 1, addr := 2, epoch := 3 } }
def hello (role : BitVec 2) (epoch : W32) : Hello := ⟨1, false, 1, role, epoch, 0x11, false⟩
theorem test_hello_meets : isPort hsBase 8 = true ∧ harnessRole hsBase 8 = true ∧ hsBase.harness.phy.contains 8 = true ∧
    isPort hsMember 8 = true ∧ harnessRole hsMember 8 = true ∧ portLost hsBase 8 = false ∧ portLost hsMember 8 = false ∧ actingMaster hsBase = true ∧ actingMaster hsMember = false ∧
    hsBase.part.harnessId = 0 ∧ hsMember.harness.epoch < (hello 0 4).epoch ∧ ¬ hsMember.harness.epoch < (hello 0 3).epoch ∧
    hsBase.harness.epoch < (hello 0 4).epoch ∧ (hello 0 4).addr ≠ hsMember.harness.addr := by decide +kernel
/-- A device with this one's straps is refused. -/
theorem test_hello_refused : getReg (after (.helloReceive 8 ⟨0, false, 1, 1, 0, 0x11, false⟩) hsBase) (hsRegs + 0x2C) = 1 ∧
    linkUp (after (.helloReceive 8 ⟨0, false, 1, 1, 0, 0x11, false⟩) hsBase) 8 = false ∧ hsBase.part.harnessSb = false := by decide +kernel
theorem test_hello_member : (after (.helloReceive 8 (hello 0 4)) hsMember).harness.epoch = 4 ∧
    linkUp (after (.helloReceive 8 (hello 0 3)) hsMember) 8 = true ∧
    linkUp (after (.helloReceive 8 (hello 1 0)) hsMember) 8 = true := by decide +kernel
theorem test_hello_master : (after (.helloReceive 8 (hello 1 0)) hsBase).harness.sent = [.config 1 hsBase.harness.epoch [(1, .relay true)]] ∧
    (after (.helloReceive 8 (hello 0 4)) hsBase).harness.role = 3 := by decide +kernel
theorem test_alive : (after (.aliveReceive 0 false 4) hsMember).harness.epoch = 4 ∧
    (after (.aliveReceive 0 false 4) hsBase).harness.addr = 8 ∧ stays (.aliveReceive 0 false 3) hsMember = true ∧
    (after .aliveSend hsBase).harness.sent = [.alive hsBase.harness.epoch] ∧ stays .aliveSend hsMember = true ∧
    heldInReset hsBase = false := by decide +kernel
theorem test_alive_tie : (after (.aliveReceive 0 false 0) { hsBase with part := { hsBase.part with harnessSb := true }, harness := { hsBase.harness with epoch := 0 } }).harness.role = 3 := by
  decide +kernel
/-- Its mirror holds the part of device 1 and an entry of the group table, which lies at 0x50000; its harness link is up. -/
def hsStandby : State :=
  let s := modPort 8 (fun x => { x with linkUp := true }) hsMember
  { (setReg (hsRegs + 0x10) 0x50000 (setReg (hsRegs + 0x18) 16 s)) with
    harness := { s.harness with role := 3, addr := 8, gtMirror := [(2, 0x1_0100_0009)] } }
theorem test_takeover : (after .standbyTakeover hsStandby).harness.epoch = 4 ∧ (after .standbyTakeover hsStandby).harness.role = 0 ∧
    (after .standbyTakeover hsStandby).harness.sent = [.config 1 4 [(1, .relay true)]] ∧ stays .standbyTakeover hsMember = true ∧
    leAt (bytesAt (after .standbyTakeover hsStandby) 0x50010 8) 0 8 = 0x1_0100_0009 := by decide +kernel
theorem test_takeover_meets : harnessJoined hsStandby = true ∧ harnessJoined { hsMember with harness := { hsMember.harness with role := 3 } } = false ∧
    2 < gtEntries hsStandby ∧ memMapped hsStandby (gtBase hsStandby + 16) 8 = true := by decide +kernel
theorem test_takeover_sound : Sound hsStandby := meets_sound (by decide +kernel)
/-- R486: a master is told of groups on device 3: a new one, one that it lists, one that ends, and one for which it has no room. -/
def hsTable (n : W32) (e : Nat) : State := poke 0x50000 (leBytes 8 e) (setReg (hsRegs + 0x10) 0x50000 (setReg (hsRegs + 0x18) n hsBase))
theorem test_group_note_meets : actingMaster (hsTable 2 0) = true ∧ bitsOf (gtEntry (hsTable 2 0) 0) 24 1 = 0 ∧ gtEntries (hsTable 0 0) = 0 ∧
    gtEntry (hsTable 2 0x1_0100_0009) 0 % 2 ^ 25 = 9 + 2 ^ 24 ∧ bitsOf (gtEntry (hsTable 2 0x1_0100_0009) 0) 32 8 = 1 ∧
    (∀ i < 2, gtEntry (hsTable 2 0) i % 2 ^ 25 ≠ 9 + 2 ^ 24) ∧ bitsOf (gtEntry (hsTable 1 0x1_0100_0008) 0) 24 1 = 1 ∧
    bitsOf (gtEntry (hsTable 2 0x9_0100_0009) 0) 32 8 &&& 8 ≠ bitsOf (gtEntry (hsTable 2 0x9_0100_0009) 0) 32 8 ∧
    bitsOf (gtEntry (hsTable 2 0x8_0100_0009) 0) 32 8 &&& 8 = bitsOf (gtEntry (hsTable 2 0x8_0100_0009) 0) 32 8 ∧
    memMapped (hsTable 2 0) (gtBase (hsTable 2 0)) 8 = true := by decide +kernel
theorem test_group_note_sound : Sound (hsTable 2 0) ∧ Sound (hsTable 2 0x1_0100_0009) := ⟨meets_sound (by decide +kernel), meets_sound (by decide +kernel)⟩
theorem test_group_note : gtEntry (after (.configReceive 0 (3, (.groupNote 9 true))) (hsTable 2 0)) 0 = 0x8_0100_0009 ∧
    gtEntry (after (.configReceive 0 (3, (.groupNote 9 true))) (hsTable 2 0x1_0100_0009)) 0 = 0x9_0100_0009 ∧
    gtEntry (after (.configReceive 0 (3, (.groupNote 9 false))) (hsTable 2 0x8_0100_0009)) 0 = 0 ∧
    getReg (after (.configReceive 0 (3, (.groupNote 9 true))) (hsTable 0 0)) (hsRegs + 0x34) = 1 := by decide +kernel
/-- R484: CONFIG of the EPOCH followed is kept, COMMIT applies it. -/
def configured (i : ConfigItem) : State := after (.configReceive 3 (2, i)) hsMember
theorem test_config : (configured (.relay true)).harness.partItems = [(2, .relay true)] ∧
    (after (.commitReceive 3) (configured (.relay true))).harness.role = 2 ∧
    harnessRoute (after (.commitReceive 3) (configured (.route 4 2 [8, 16]))) 4 = [8, 16] ∧
    adminUp (after (.commitReceive 3) (configured (.adminUp 16 false))) 16 = false ∧
    lgMode (after (.commitReceive 3) (configured (.laneGroup 5 2))) 5 = 2 ∧
    harnessRole (after (.commitReceive 3) (configured (.role 16 true))) 16 = true := by decide +kernel
theorem test_config_meets : actingMaster hsMember = false ∧ hsMember.harness.epoch = 3 ∧ isPort hsMember 16 = true ∧
    itemApplies hsMember (.relay true) = true ∧ itemApplies hsMember (.route 4 2 [8, 16]) = true ∧
    itemApplies hsMember (.laneGroup 1 1) = false ∧ itemApplies hsMember (.laneGroup 5 2) = true ∧
    (after (.configReceive 4 (2, (.relay true))) (configured (.relay true))).harness.partItems = [] ∧
    stays (.configReceive 3 (2, (.relay true))) hsBase = true := by decide +kernel
/-- R475, R484: a standby keeps what is for device 1, applies what is for it, and mirrors the group table. -/
theorem test_config_mirror : let t := after (.commitReceive 3) (after (.configReceive 3 (1, (.relay false))) hsStandby)
    mget [] t.harness.parts 1 = [.relay false] ∧ t.harness.configured = true ∧
    mget 0 (after (.commitReceive 3) (after (.configReceive 3 (8, (.groupEntry 5 77))) hsStandby)).harness.gtMirror 5 = 77 := by decide +kernel
theorem test_config_fails : (after (.commitReceive 3) (configured (.laneGroup 1 1))).harness.sent = [.outcome 3 false] ∧
    (after (.commitReceive 3) (configured (.laneGroup 1 1))).harness.configured = hsMember.harness.configured ∧
    (after (.commitReceive 2) (configured (.relay true))).harness.partItems = [] := by decide +kernel

/-- Worms: the link of port 8 is up. -/
def hsUp : State := modPort 8 (fun x => { x with linkUp := true }) hsMember
theorem test_worm_arrives : linkUp hsUp 8 = true ∧ harnessRole hsUp 8 = true := by decide +kernel
def worm (cls : WormClass) (d : BitVec 4) (hops : BitVec 2) (first last : Bool) (bs : List Byte) : Worm :=
  ⟨cls, d, 1, hops, true, first, last, bs, [false], 0⟩
theorem test_worm_meets : linkUp hsUp 8 = true ∧ harnessRole hsUp 8 = true ∧ hsUp.harness.addr = 2 ∧ harnessPick hsUp 1 0 = some 8 ∧
    harnessPick hsUp 4 0 = none ∧ mget none hsUp.harness.segs 8 = none ∧
    harnessPick hsUp 1 (channelHash (parseTft [1]).src (parseTft [1]).ch 0) = some 8 := by decide +kernel
theorem test_worm : getReg (after (.wormRoute (some 8) (worm .pkt 1 3 true true [1])) hsUp) (hsRegs + 0x20) = 1 ∧
    getReg (after (.wormRoute (some 8) (worm .pkt 4 0 true true [1])) hsUp) (hsRegs + 0x24) = 1 ∧
    getReg (after (.wormRoute (some 8) (worm .pkt 9 0 true true [1])) hsUp) (hsRegs + 0x24) = 1 ∧
    (mlook (after (.wormRoute (some 8) (worm .rsp 1 0 true true [1])) hsUp).wormOut 8).map (fun l => l.map (fun w => w.hops)) = some [1] ∧
    (mlook (after (.wormRoute none (worm .rsp 1 0 true true [1])) hsUp).wormOut 8).map (fun l => l.map (fun w => w.hops)) = some [0] := by decide +kernel
theorem test_worm_segment : (mget none (after (.wormRoute (some 8) (worm .pkt 2 0 true false [1, 2])) hsUp).harness.segs 8).map (fun x => bytesOf x.bytes) =
      some [1, 2] ∧
    getReg (after (.wormRoute (some 8) (worm .pkt 2 0 false false [1, 2])) hsUp) (hsRegs + 0x28) = 1 := by decide +kernel
/-- R395, R481, R483: the last segment of a frame in transit, of one that is too short for this device, and of one that found the
staging queue full; a first one while another frame is unfinished. -/
def segmented (d : BitVec 4) (full : Bool) : State :=
  { hsUp with harness := { hsUp.harness with segs := [(8, some ⟨worm .pkt d 0 true false [], full, clean ipFrame⟩)] } }
theorem test_segment_meets : stagingFull hsUp 8 = false ∧ 33 + 4 < 64 ∧ (mget none (segmented 2 false).harness.segs 8).isSome = true ∧
    (mget none (segmented 2 true).harness.segs 8).map (fun x => x.full) = some true ∧
    stagingFull { hsUp with staging := [(1, 32768)] } 8 = true := by decide +kernel
theorem test_segment : (getEq (after (.wormRoute (some 8) (worm .pkt 1 0 false true [7])) (segmented 1 false)) 8 0).frames.length = 1 ∧
    (getEq (after (.wormRoute (some 8) (worm .pkt 1 0 false true [7])) (segmented 1 true)) 8 0).frames = [] ∧
    getReg (after (.wormRoute (some 8) (worm .pkt 2 0 true true [1, 2])) hsUp) (fpRegs 0 + 0x14) = 1 ∧
    getReg (after (.wormRoute (some 8) (worm .pkt 2 0 true false [1, 2])) (segmented 2 false)) (hsRegs + 0x28) = 1 := by decide +kernel
/-- A TFT packet for context 7, and for one that is closed. -/
def dataPkt : List Byte := (arrivalOf (dataHdr 0) [1, 2, 3, 4]).packet
def wormCtx : State := setCtx 7 rxCtx hsUp
theorem test_worm_packet_meets : (getCtx wormCtx (parseTft dataPkt).dst).isOpen = true ∧
    (getCtx wormCtx (parseTft dataPkt).dst).failed = false ∧ (getCtx hsUp (parseTft dataPkt).dst).isOpen = false := by decide +kernel
theorem test_worm_packet : (mget [] (after (.wormRoute (some 8) (worm .req 2 0 true true dataPkt)) wormCtx).arrivals 0).map (fun a => a.packet) =
      [dataPkt] ∧
    getReg (after (.wormRoute (some 8) (worm .req 2 0 true true dataPkt)) hsUp) (tftRegs 0 + 0xC) = 1 := by decide +kernel
/-- R513: a command of the reply ring of PL 0 was carried to device 1; its reply comes. -/
def carrying : State :=
  let s := setRing 4 { getRing State.reset 4 with en := true, base := 0x8_0000, sizeLog2 := 4 } State.reset
  { s with harness := { s.harness with carried := [(7, .ring 0, 1, pkt 0 0x01 [])] } }
theorem test_carried_meets : heldInReset carrying = false ∧ actingMaster carrying = true ∧
    (carrying.harness.carried.find? (fun e => decide (e.1 = 7))).isSome = true ∧
    ((getRing carrying 4).tail - (getRing carrying 4).head).toNat < 2 ^ (getRing carrying 4).sizeLog2.toNat := by decide +kernel
theorem test_carried : (after (.harnessReplyReceive 7 (replyBytes carrying (pkt 0 0x01 []) Reply.ok)) carrying).harness.carried = [] ∧
    (getRing (after (.harnessReplyReceive 7 (replyBytes carrying (pkt 0 0x01 []) Reply.ok)) carrying) 4).tail = 1 := by decide +kernel

/-! ### The host link, registers and the debug port -/

/-- HostAccess: the link is up, and the companion may reach the device. -/
def hosted : State := { serving with evtWidth := 16, prot := fenced.prot }
theorem test_host_meets : unreachable hosted (.companion 0) = false ∧ unreachable serving (.companion 0) = true ∧
    touchesMmio 0x1000 8 = false ∧ companionStatus hosted 3 0x1000 8 false false = .ok ∧ companionStatus hosted 3 0x1000 8 true false = .ok ∧
    companionStatus hosted 0 0x1000 8 true true = .ok ∧ companionStatus hosted 3 0x2000 8 false false = .denied ∧
    companionStatus hosted 0 0x1000 8 false true = .ok ∧ companionStatus hosted 0 0xE000_0000_0000 8 false true = .unmapped := by decide +kernel
theorem test_host_sound : Sound hosted := meets_sound (by decide +kernel)
theorem test_host_registers_meets : touchesMmio errRegs 4 = true ∧ companionGate hosted errRegs 4 = true ∧ mmioShape errRegs 4 = true ∧
    mmioShape (errRegs + 2) 4 = false ∧ mmioAllowed hosted (.companion 0) errRegs 4 [] false = true ∧
    mmioAllowed hosted (.companion 3) errRegs 4 [] false = false := by decide +kernel
theorem test_host_read : (after (.companionRead 3 0x1000 1 false false) (poke 0x1000 [9] hosted)).answer = ⟨.ok, [9], [false]⟩ ∧
    (after (.companionRead 3 0x2000 1 false false) hosted).answer.status = .denied ∧
    (after (.companionRead 0 (BitVec.ofNat 48 errRegs) 4 true false) hosted).answer.status = .unsupported := by decide +kernel
theorem test_host_coherent : (after (.companionRead 3 0x1000 1 true true) (poke 0x1000 [9] hosted)).snoop.map (fun e => (e.granule, e.exclusive)) =
      [(0x20, true)] ∧
    memByte (after (.companionWrite 0 0x1000 [7] [false] true) hosted) 0x1000 = 0 ∧
    memByte (after (.companionWrite 0 0x1000 [7] [false] false) hosted) 0x1000 = 7 := by decide +kernel
/-- R185: position 0 of cluster 0 is being copied, and a write reaches its slot: it is held until the copy is done. -/
def hostRotating : State := modTile 0 0 (fun t => { t with rotating := true }) hosted
def heldWrite : State := after (.companionWrite 0 0x1000 [7] [false] false) hostRotating
theorem test_held_meets : unreachable hostRotating (.companion 0) = false ∧ touchesMmio 0x1000 1 = false ∧
    companionStatus hostRotating 0 0x1000 1 false true = .ok ∧ inRotation hostRotating 0x1000 1 = true ∧
    companionStatus hostRotating 3 0x1000 8 false false = .ok ∧ inRotation hostRotating 0x1000 8 = true := by decide +kernel
theorem test_held : heldWrite.heldAcc.length = 1 ∧ memByte heldWrite 0x1000 = 0 ∧
    (after (.companionRead 3 0x1000 8 false false) hostRotating).heldAcc.length = 1 ∧
    memByte (after (.rotationCopyDone 0 0) heldWrite) 0x1000 = 7 ∧ (after (.rotationCopyDone 0 0) heldWrite).heldAcc = [] := by decide +kernel
theorem meets_register {s : State} {a : Nat} (h : s.bad = []) : RegSound s a :=
  ⟨fun _ _ _ _ => by rw [h]; rfl, fun _ _ _ => by rw [h]; rfl⟩
theorem test_register_sound : RegSound hosted errRegs ∧ RegSound hosted (scuRegs 0 0 + 0x10) ∧ RegSound hosted (cwBase 0 + 0x34) :=
  ⟨meets_register (by decide +kernel), meets_register (by decide +kernel), meets_register (by decide +kernel)⟩
/-- R53: an access of an engine's instruction to no register halts its queue. -/
theorem test_engine_register_meets : unreachable (running 3 moveWord) (.engine 0 3) = false ∧ regMapped (devBase + 0x7F_0000) = false ∧
    (getQ (running 3 moveWord) 0 3).stopReq = none ∧ (getQ (running 3 moveWord) 0 3).cur.isSome = true := by decide +kernel
theorem test_engine_register : let t := after (.latchedRead (.engine 0 3) (BitVec.ofNat 48 (devBase + 0x7F_0000))) (running 3 moveWord)
    (getQ t 0 3).halted = true ∧ (getQ t 0 3).haltReason = if (blockOf (devBase + 0x7F_0000)).isNone then 4 else 5 := by decide +kernel
/-- R582: at level 1 the port reads, at level 2 it writes. -/
def tapped : State := { hosted with boot := { hosted.boot with debugLevel := 2 } }
theorem test_tap_meets : heldInReset tapped = false ∧ tapLevel (.writeMem 0x1000 [7]) = 2 ∧ tapLevel (.readMem 0x1000 1) = 1 ∧
    memMapped tapped 0x1000 1 = true ∧ closedRegion tapped 0x1000 1 = false ∧ hosted.boot.debugLevel = 0 := by decide +kernel
theorem test_tap : memByte (after (.debugTapAccess (.writeMem 0x1000 [7])) tapped) 0x1000 = 7 ∧
    stays (.debugTapAccess (.readReg 0)) hosted = true ∧ stays (.debugTapAccess .stepMc) tapped = true ∧
    tackServes (after (.debugTapAccess .haltMc) tapped) = false ∧
    (after (.debugTapAccess (.readReg (BitVec.ofNat 48 errRegs))) tapped).answer.status = .ok := by decide +kernel

/-- RegisterAccess. -/
theorem test_reg_meets : regMapped (scuRegs 0 0 + 0x10) = true ∧ regAllowed hosted (.companion 0) (scuRegs 0 0 + 0x10) 0 false = true ∧
    ((regDef (scuRegs 0 0 + 0x10)).map (fun d => d.lo)) = some true ∧ ((regDef (scuRegs 0 0 + 0x1C)).map (fun d => (d.rc, d.lo))) = some (true, false) ∧
    regMapped (devBase + 0x7F_0000) = false ∧ regAllowed hosted (.companion 3) (scuRegs 0 0 + 0x10) 0 false = false ∧
    ringIgnores (.companion 0) (scuRegs 0 0 + 8) = false := by decide +kernel
theorem test_reg_latch : let s := addCtr (scuRegs 0 0 + 0x10) (5 + 7 * 2 ^ 32) hosted
    getReg (after (.latchedRead (.companion 0) (BitVec.ofNat 48 (scuRegs 0 0 + 0x10))) s) (scuRegs 0 0 + 0x14) = 7 ∧
    (after (.latchedRead (.companion 0) (BitVec.ofNat 48 (scuRegs 0 0 + 0x10))) s).answer.data = [5, 0, 0, 0] := by decide +kernel
theorem test_reg_clear : regValue (after (.readClear (.companion 0) (BitVec.ofNat 48 (scuRegs 0 0 + 0x1C))) (setReg (scuRegs 0 0 + 0x1C) 3 hosted))
    (scuRegs 0 0 + 0x1C) = 0 := by decide +kernel
/-- FPSTAT is W1C; SCU_LIMIT is RW. -/
theorem test_reg_write : getReg (after (.registerWrite (.companion 0) (BitVec.ofNat 48 (scuRegs 0 0)) 1) (setReg (scuRegs 0 0) 3 hosted)) (scuRegs 0 0) = 2 ∧
    getReg (after (.registerWrite (.companion 0) (BitVec.ofNat 48 (scuRegs 0 0 + 8)) 9) hosted) (scuRegs 0 0 + 8) = 9 ∧
    (after (.registerWrite (.companion 3) (BitVec.ofNat 48 (scuRegs 0 0 + 8)) 9) hosted).answer.status = .denied := by decide +kernel
theorem test_reg_plain : ∀ d, regDef (scuRegs 0 0 + 8) = some d →
    regAct (.companion 0) (scuRegs 0 0 + 8) d 9 hosted = plainWrite (scuRegs 0 0 + 8) d 9 hosted := by
  intro d h
  have hp : placeOf (scuRegs 0 0 + 8) = .plain := by decide +kernel
  simp only [regAct, hp]
/-- A window that report 4 opened, which record 1 holds. -/
def windowed : State := { hosted with err := { hosted.err with windows := [(3, 4)], written := [(4, 1)], next := 2 } }
theorem test_err_meets : mayAccess windowed (.companion 0) (errRegs + 4) 4 .write = true ∧ isPl0 (.companion 0) = true ∧
    windowed.err.coal = [] ∧ ((0 : W32) - windowed.err.ack).toNat ≤ windowed.err.used ∧ ridxOf windowed.err (some 4) = some 1 ∧
    isPl0 (.companion 1) = false := by decide +kernel
theorem test_err_handled : (after (.errHandledWrite (.companion 0) 1) windowed).err.windows = [] ∧
    (after (.errHandledWrite (.companion 0) 2) windowed).err.windows = [(3, 4)] := by decide +kernel
/-- Two records have been written, and software takes in one of them; more it cannot. -/
def twoRecords : State := after (.registerWrite .mc 0 0) { hosted with err := { hosted.err with next := 2 } }
theorem test_err_ack : (after (.errAckWrite (.companion 0) 1) twoRecords).err.ack = 1 ∧ (after (.errAckWrite (.companion 0) 3) twoRecords).err.ack = 0 := by
  decide +kernel

/-- HostRings: ring 0 of commands at 0x2000, event ring 8 with a record to read, the inject ring with one slot. -/
def ringed : State :=
  let s := setRing 0 { getRing hosted 0 with base := 0x2000 } hosted
  let s := setRing 8 { getRing hosted 8 with base := 0x8000, sizeLog2 := 4, en := true, tail := 1 } s
  poke 0x4000 ([60, 0, 0, 4, 7] ++ List.replicate 11 0 ++ List.replicate 60 5)
    (setRing 17 { getRing hosted 17 with base := 0x4000, sizeLog2 := 1, en := true, tail := 1 } s)
theorem test_ring_meets : (∀ off ∈ [8, 0x14, 0x1C], mayAccess ringed (.companion 0) (ringRegs 0 + off) 4 .write = true) ∧
    sizeOk 0 3 = true ∧ ringPlaceOk ringed 0x2000 (2 ^ 3 * slotBytes 0) = true ∧ sizeOk 0 9 = false ∧ (getRing ringed 0).en = false ∧
    ringPl 8 < 3 ∧ mayAccess { ringed with prot := [⟨1, [⟨0, true, 8, 0, 0xFFFF_FFFF_FFFF, true, true, true, true, false⟩]⟩] } (.companion 3) (ringRegs 8 + 8) 4 .write = true ∧
    (getRing ringed 8).tail ≠ (getRing ringed 8).head ∧ ringed.evtWidth ≠ 0 := by decide +kernel
theorem test_ring : (getRing (after (.ringEnable (.companion 0) 0 3) ringed) 0).en = true ∧
    (getRing (after (.ringEnable (.companion 0) 0 9) ringed) 0).en = false ∧
    (getRing (after (.ringDoorbell (.companion 0) 0 8) (after (.ringEnable (.companion 0) 0 3) ringed)) 0).tail = 8 ∧
    (getRing (after (.ringDoorbell (.companion 0) 0 9) (after (.ringEnable (.companion 0) 0 3) ringed)) 0).lost = 1 ∧
    (after (.irqArm (.companion 0) 8 5) ringed).irqs = [5] := by decide +kernel
theorem test_inject_meets : (getRing ringed 17).en = true ∧ (getRing ringed 17).head ≠ (getRing ringed 17).tail ∧
    leAt (bytesAt ringed 0x4000 16) 0 2 = 60 ∧ leAt (bytesAt ringed 0x4000 16) 2 2 = 0x400 ∧ leAt (bytesAt ringed 0x4000 16) 4 1 = 7 ∧
    refusedAtEnqueue ringed 0x400 = false ∧ (allocBuf (egCluster 0x400) (egOwner 0x400 7) 60 1 ringed).2.isSome = true := by decide +kernel
theorem test_inject_sound : Sound ringed := meets_sound (by decide +kernel)
theorem test_inject : (getEq (after .inject ringed) 0x400 7).frames.map (fun e => e.len) = [60] ∧
    (getRing (after .inject (poke 0x4000 [59] ringed)) 17).lost = 1 := by decide +kernel

/-- A management port at 10.0.0.2, an ARP request for it, and an echo request to it. -/
def answering : State :=
  let s := { hosted with mgmt := setAt hosted.mgmt 0 { MgmtPort.reset with v4En := true, ip4 := 0x0A00_0002, udp := 4000 } }
  setReg (evtRegs + 0x30) 1 (setRing 16 { getRing hosted 16 with base := 0x6000, sizeLog2 := 1, en := true } s)
def arpRequest : List Byte := beBytes 6 0xFFFF_FFFF_FFFF ++ beBytes 6 0x0200_0000_0009 ++ beBytes 2 0x0806 ++ beBytes 8 0x0001_0800_0604_0001 ++
  beBytes 6 0x0200_0000_0009 ++ beBytes 4 0x0A00_0009 ++ beBytes 6 0 ++ beBytes 4 0x0A00_0002
def echoRequest : List Byte :=
  let ip := [(0x45 : Byte), 0] ++ beBytes 2 28 ++ [0, 0, 0, 0, 64, 1, 0, 0] ++ beBytes 4 0x0A00_0009 ++ beBytes 4 0x0A00_0002
  beBytes 6 (mgmtMac answering 0) ++ beBytes 6 0x0200_0000_0009 ++ beBytes 2 0x0800 ++ (ip.take 10 ++ beBytes 2 (ipv4Sum ip) ++ ip.drop 12) ++
    [8, 0, 0xF7, 0xFD, 0, 1, 0, 1]
theorem test_mgmt_frame_meets : (arpAnswer answering 0 arpRequest).isSome = true ∧ (echoAnswer answering 0 echoRequest).isSome = true ∧
    (arpAnswer answering 0 (l2Frame 0xFFFF_FFFF_FFFF)) = none ∧ (echoAnswer answering 0 (l2Frame 0xFFFF_FFFF_FFFF)) = none ∧
    isCommandFrame answering 0 (l2Frame 0xFFFF_FFFF_FFFF) = false ∧ regField answering (evtRegs + 0x30) 0 1 = 1 ∧
    refusedAtEnqueue answering 1024 = false ∧ (allocBuf (egCluster 1024) (egOwner 1024 7) 60 1 answering).2.isSome = true ∧
    memMapped answering 0x6000 2048 = true ∧ heldInReset answering = false := by decide +kernel
theorem test_mgmt_frame_sound : Sound answering := meets_sound (by decide +kernel)
theorem test_mgmt_frames : (getEq (after (.arpReply 0 arpRequest) answering) 1024 7).frames.length = 1 ∧
    (getEq (after (.echoReply 0 echoRequest) answering) 1024 7).frames.length = 1 ∧
    stays (.mgmtFramePunt 0 arpRequest) answering = true ∧
    (getRing (after (.mgmtFramePunt 0 (l2Frame 0xFFFF_FFFF_FFFF)) answering) 16).tail = 1 := by decide +kernel
/-- R72: WAIT_CYCLES of a tile's queue. -/
theorem test_queue_latch : placeOf (cwBase 0 + 0x34) = .queue 0 0 0x34 ∧ ((regDef (cwBase 0 + 0x34)).map (fun d => d.lo)) = some true ∧
    regAllowed hosted (.companion 0) (cwBase 0 + 0x34) 0 false = true ∧
    (getQ (after (.latchedRead (.companion 0) (BitVec.ofNat 48 (cwBase 0 + 0x34))) (modQ 0 0 (fun q => { q with waitCount := 2 ^ 32 }) hosted)) 0 0).waitCountHi = 1 := by
  decide +kernel

/-! ### Health -/

/-- Tile 2 of cluster 0, and tile 3. -/
def tile2 : UnitRef := ⟨1, 0, 2⟩
def k2 : Nat := unitKey tile2
def k3 : Nat := unitKey ⟨1, 0, 3⟩
def unitState (f : HUnit → HUnit) : State := modHUnit k2 f State.reset
theorem test_unit_meets : hUnitExists State.reset k2 = true ∧ tile2.index < 16 ∧ heldInReset State.reset = false ∧
    bitOf (getReg State.reset hlRegs) 0 = true ∧ (getHUnit State.reset k2).todo = [] ∧ (getHUnit State.reset k2).retired = false ∧
    hUnitExists State.reset (unitKey ⟨1, 0, 9⟩) = false ∧ testable State.reset k2 = true := by decide +kernel
theorem test_unit_sound : Sound State.reset := meets_sound (by decide +kernel)
theorem test_due : (getHUnit (after (.testDue tile2) State.reset) k2).todo.map (fun t => (t.run, t.stop)) = [(1, 64)] ∧
    (getHUnit (after (.testDue tile2) (setReg hlRegs 0 State.reset)) k2).todo = [] ∧
    faults (.testDue ⟨1, 0, 9⟩) State.reset = true ∧ faults (.caseDone ⟨3, 0, 0⟩ (some ⟨[5], []⟩)) State.reset = true := by decide +kernel
/-- Its position belongs to a job: it cannot be tested. -/
def jobbed : State := { unitState (fun x => { x with due := true, defer := 8 }) with
  jobs := [{ id := 5, engines := [4, 0, 0, 0, 0, 0, 0, 0], sems := [], dctx := 0, ctxs := [] }] }
theorem test_defer_meets : (getHUnit jobbed k2).due = true ∧ testable jobbed k2 = false := by decide +kernel
theorem test_defer : (getHUnit (after (.deferInterval tile2) jobbed) k2).defer = 9 ∧
    (getHUnit (after (.deferInterval tile2) jobbed) k2).overdue = true ∧ stays (.deferInterval tile2) State.reset = true := by decide +kernel

/-- A unit with the last case of run 1 to do. -/
def caseOf (l : List Agreement) : State :=
  let s := unitState (fun x => { x with due := true, todo := [⟨1, 0, 7, 0, 1⟩] })
  { s with health := { s.health with agree := l } }
/-- What a faulty unit gives, and its signature. -/
def gives (n : Byte) : Option CaseOut := some ⟨[n], []⟩
def sig (n : Byte) : W32 := signatureOf 1 7 0 (gives n)
def heldCase (given : List (Nat × W32)) (agreed : Option W32) : Agreement :=
  ⟨1, 0, 7, 0, given.map (fun g => ⟨g.1, g.2, 1, 200, 750⟩), agreed⟩
theorem test_case_meets : testable (caseOf []) k2 = true ∧ (caseOf []).health.extra = [] ∧ agreementOn (caseOf []) 1 0 7 0 = none ∧
    agreementOn (caseOf [heldCase [(k3, sig 9)] (some (sig 9))]) 1 0 7 0 = some (heldCase [(k3, sig 9)] (some (sig 9))) ∧
    agreementOn (caseOf [heldCase [(k3, sig 9)] none]) 1 0 7 0 = some (heldCase [(k3, sig 9)] none) ∧
    agreementOn (caseOf [heldCase [(k3, sig 9), (k3 + 1, sig 8)] none]) 1 0 7 0 = some (heldCase [(k3, sig 9), (k3 + 1, sig 8)] none) ∧
    k2 ≠ k3 ∧ k2 ≠ k3 + 1 ∧ sig 9 ≠ sig 8 := by decide +kernel
theorem test_case_agreed : (after (.caseDone tile2 (gives 9)) (caseOf [heldCase [(k3, sig 9)] none])).health.agree.map (fun a => a.agreed) = [some (sig 9)] ∧
    (after (.caseDone tile2 (gives 9)) (caseOf [])).health.agree.map (fun a => a.given.map (fun g => (g.unit, g.sig, g.run))) = [[(k2, sig 9, 1)]] ∧
    (after (.caseDone tile2 (gives 8)) (caseOf [heldCase [(k3, sig 9)] none])).health.extra.map (fun e => e.but) = [[k3, k2]] ∧
    (after (.caseDone tile2 (gives 8)) (caseOf [heldCase [(k2, sig 9)] none])).health.extra.map (fun e => e.but) = [[k2]] := by decide +kernel
theorem test_case_mismatch : (getHUnit (after (.caseDone tile2 (gives 8)) (caseOf [heldCase [(k3, sig 9)] (some (sig 9))])) k2).replays.length = 1 ∧
    getReg (after (.caseDone tile2 (gives 8)) (caseOf [heldCase [(k3, sig 9)] (some (sig 9))])) (hlRegs + 0x80) = 1 ∧
    (getHUnit (after (.caseDone tile2 (gives 9)) (caseOf [heldCase [(k3, sig 9), (k3 + 1, sig 8)] none])) (k3 + 1)).replays.map (fun d => (d.run, d.temp, d.volt)) = [(1, 200, 750)] := by decide +kernel
/-- R550: every sound unit gives the same: a second one that runs the case agrees. -/
theorem test_case_sound : signatureOf 1 7 0 none = caseSignature 1 (soundCase 1 7 0) ∧ signatureOf 1 7 0 (gives 9) = caseSignature 1 ⟨[9], []⟩ :=
  ⟨rfl, rfl⟩

/-- A replay is due. -/
def replayed (score : W16) : State := unitState (fun x => { x with score := score, replays := [⟨0, 0, 1, 0, 750⟩] })
theorem test_replay_meets : (getHUnit (replayed 0) k2).replays ≠ [] ∧ regField (replayed 0) (hlRegs + 0xC) 16 16 = 256 ∧
    regField (replayed 0) (hlRegs + 0xC) 0 16 = 64 ∧ keyKind k2 = 1 ∧ bitOf (getReg (replayed 0) hlRegs) 1 = true ∧
    retireBudget (replayed 0) 0 = true ∧ testable (replayed 0) k2 = true ∧ (replayed 0).health.entries = [] := by decide +kernel
theorem test_replay : (getHUnit (after (.conditionalReplay tile2 0 0 0 none) (replayed 0)) k2).score = 4 ∧
    (getHUnit (after (.conditionalReplay tile2 1 0 0 none) (replayed 32)) k2).suspect = true ∧
    (getHUnit (after (.conditionalReplay tile2 1 1 0 none) (replayed 0)) k2).retired = true ∧
    (getHUnit (after (.conditionalReplay tile2 1 1 0 (some 4)) (replayed 0)) k2).score = 255 ∧
    (getHUnit (after (.conditionalReplay tile2 1 0 (-7) none) (replayed 0)) k2).condBand = some (1, 740, 760) ∧
    stays (.conditionalReplay tile2 1 0 0 none) { replayed 0 with jobs := jobbed.jobs } = true := by decide +kernel
/-- R537, R560, R561: the second fault of an SCU escalates it: its score is full, and it is a candidate that is not retired. -/
def faultTwice (ty i : Nat) : State :=
  let s := { State.reset with err := { State.reset.err with recEn := true } }
  let r := newReport s (unitCl ty 0 i) 0x11 3
  report r (report r s)
theorem test_offline_scu : (getHUnit (faultTwice 2 3) (hkey 2 0 3)).score = 0xFFFF ∧ (getHUnit (faultTwice 2 3) (hkey 2 0 3)).suspect = true ∧
    getReg (faultTwice 2 3) (hlRegs + 0x40) = 1 ∧ (faultTwice 2 3).err.offline = [unitCl 2 0 3] := by decide +kernel
theorem test_offline_tile : (getHUnit (faultTwice 1 2) k2).retired = true ∧ tileOf (faultTwice 1 2) 0 2 = 9 ∧
    getReg (faultTwice 1 2) (hlRegs + 0x40) = 0 := by decide +kernel
/-- R556: two records of CLASS TRANSIENT near in temperature lead to a replay. -/
theorem test_transients : (getHUnit (noteTransient k2 State.reset) k2).replays = [] ∧
    (getHUnit (noteTransient k2 (noteTransient k2 State.reset)) k2).replays.map (fun d => (d.run, d.temp, d.volt)) = [(0, 0, 0)] := by
  decide +kernel
/-- R561: retiring logic off: a candidate is refused. -/
theorem test_replay_refused : getReg (after (.conditionalReplay tile2 1 1 0 none) (setReg hlRegs 1 (replayed 0))) (hlRegs + 0x40) = 1 := by
  decide +kernel
theorem test_halving_meets : ((replayed 9).health.units.map (fun e => e.1)).Nodup := by decide +kernel
theorem test_halving : (getHUnit (after .scoreHalving (replayed 9)) k2).score = 4 := by decide +kernel
def selected : State := setReg (hlRegs + 0x60) (BitVec.ofNat 32 (1 + 2 ^ 11 + 2 * 2 ^ 14)) (replayed 9)
theorem test_clear_meets : selectedUnit selected = some k2 ∧ mayAccess selected .mc (hlRegs + 0x70) 4 .write = true ∧ isPl0 .mc = true ∧
    selectedUnit State.reset = none := by decide +kernel
theorem test_clear : (getHUnit (after (.hlClear .mc 1) selected) k2).score = 0 := by decide +kernel

/-! ### Boot -/

/-- An attempt at a step, by a method. -/
def atStep (n m : Nat) : State := modBoot (fun b => { b with active := true, step := n, method := m, attempt := 1 }) State.reset
def attempting : State := after .bootAttempt State.reset
theorem test_attempt_meets : heldInReset State.reset = false ∧ State.reset.boot.active = false ∧ State.reset.boot.booted = false ∧
    State.reset.boot.failed = false ∧ ¬ (State.reset.sig.accepted.getD 1 true = false ∧ State.reset.sig.stuck = false) ∧
    (readRecord State.reset).newStart.fails < 4 ∧ 1 ∉ (readRecord State.reset).newStart.skip := by decide +kernel
theorem test_attempt : attempting.boot.step = 1 ∧ attempting.boot.attempt = 1 ∧ attempting.flash.record.map (fun e => e.event) = [1, 2] ∧
    stays .bootAttempt attempting = true := by decide +kernel
/-- Four FAIL entries in a row: the next attempt stops; with PRESENCE_N low it begins with method 1 everywhere. -/
def failedFour : State := { State.reset with
  flash := { State.reset.flash with record := (List.range 4).flatMap (fun i => [⟨0, 0, 1, BitVec.ofNat 16 i, 0⟩, ⟨9, 1, 2, BitVec.ofNat 16 i, 0⟩, ⟨9, 1, 4, BitVec.ofNat 16 i, 8⟩]) } }
theorem test_attempt_stops : 4 ≤ (readRecord failedFour).newStart.fails ∧ (after .bootAttempt failedFour).boot.failed = true ∧
    (after .bootAttempt { failedFour with sig := present.sig }).boot.rearmed = true ∧ present.sig.accepted.getD 1 true = false ∧
    present.sig.stuck = false := by decide +kernel
theorem test_step_meets : (atStep 10 1).boot.noRecord = false ∧ (atStep 10 1).boot.skip = [] ∧ stepFinding (atStep 10 1) = 0 ∧
    stepFinding (atStep 11 1) = 0 ∧ stepFinding (atStep 4 1) = 2 ∧ stepFinding (atStep 14 1) = 0 ∧ (atStep 14 1).flash.store = none ∧
    stepFinding { atStep 12 1 with flash := { State.reset.flash with keys0 := some (1, []) } } = 0 := by decide +kernel
theorem test_step : (after (.bootStepComplete 0 0) (atStep 10 1)).err.recEn = true ∧ (after (.bootStepComplete 0 0) (atStep 10 1)).boot.step = 11 ∧
    (after (.bootStepComplete 0 0) (modBoot (fun b => { b with skip := [11] }) (atStep 10 1))).boot.step = 12 ∧
    (after (.bootStepComplete 0 0) (atStep 14 1)).boot.booted = true ∧
    getReg (after (.bootStepComplete 0 1) (setReg (memRegs 0 + 0x20) 7 (atStep 11 1))) (memRegs 0 + 0x20) = 0 ∧
    stays (.bootStepComplete 9 0) (atStep 10 1) = true := by decide +kernel
/-- R573: where a step has two methods, the other follows; FLASH_OPEN goes on without a record; else the device resets itself. -/
theorem test_method_fails : (after (.bootStepComplete 3 0) (atStep 4 1)).boot.method = 2 ∧
    (after (.bootStepComplete 0 0) (atStep 4 1)).boot.code = 2 ∧
    (after (.bootStepComplete 3 0) (modBoot (fun b => { b with tried := [1] }) (atStep 2 2))).boot.noRecord = true ∧
    (after (.bootStepComplete 3 0) (modBoot (fun b => { b with noRecord := true }) (atStep 9 1))).boot.failed = true ∧
    (after .bootStepTimeout (atStep 9 1)).boot = Boot.reset ∧
    (after .bootStepTimeout (atStep 9 1)).flash.record = [⟨9, 1, 4, 1, 1⟩] ∧ stays .bootStepTimeout State.reset = true := by decide +kernel
/-- R577: slot A holds an image that the ROM accepts. -/
def romState : State := { rooted (atStep 8 1) with flash := { State.reset.flash with slotA := goodImage } }
theorem test_rom_meets : stepFinding romState = 0 ∧ slotChoice romState 1 = false ∧ romState.flash.record = [] := by decide +kernel
theorem test_evt_image_meets : (atStep 8 3).boot.active = true ∧ isPl0 (.companion 0) = true ∧
    mayAccess { atStep 8 3 with evtWidth := 16 } (.companion 0) (bootRegs + 8) 4 .write = true ∧
    imageCheck (atStep 8 3) [] = 2 := by decide +kernel
/-- The companion has put the image at address 0, and says how long it is. -/
def evtImage (s : State) : State := { modBoot (fun b => { b with evtWait := true, method := 3 }) s with evtWidth := 16, mem := laid 0 goodImage }
theorem test_evt_image_good : imageCheck (evtImage romState) goodImage = 0 ∧ fld (513 : W32) 0 25 = 513 ∧ goodImage.length = 513 ∧
    mayAccess (evtImage romState) (.companion 0) (bootRegs + 8) 4 .write = true ∧ (evtImage romState).boot.evtWait = true := by decide +kernel
theorem test_evt_image_sound : Sound (evtImage romState) := meets_sound (by decide +kernel)
theorem test_evt_image_bad : (after (.bootEvtLen (.companion 0) 513) { evtImage romState with mem := [] }).boot = Boot.reset := by decide +kernel
theorem test_rearm_meets : mayAccess serving .mc (bootRegs + 0x14) 4 .write = true ∧ isPl0 .mc = true ∧ bitOf (1 : W32) 0 = true ∧
    serving.boot.noRecord = false ∧ serving.flash.record.length < 4096 := by decide +kernel
theorem test_rearm : (after (.rearm .mc 1) (modBoot (fun b => { b with next := [2] }) serving)).boot.next = List.replicate 14 1 ∧
    stays (.rearm (.companion 1) 1) { serving with evtWidth := 16, prot := [⟨1, [⟨0, true, 2, 0, 0xFFFF_FFFF_FFFF, true, true, true, true, false⟩]⟩] } = true := by
  decide +kernel

/-! ### Power, clocks and pins -/

/-- NeighbourLevels: region 0 asked to stand at level 20. -/
def throttled : State := setReg (rgRegs 0 + 4) 20 State.reset
theorem test_levels_meets : (∀ r < 8, ownLevel throttled r ≤ 63) ∧ heldInReset throttled = false := by decide +kernel
/-- R604: 64 - 1,000 * 44 / 945 = 18, rounded up to whole levels by the rule's own inequality. -/
theorem test_levels : (levels throttled).getD 0 0 = 20 ∧ (levels throttled).getD 1 0 = 18 ∧ 1000 * (64 - 20) ≥ 945 * (64 - 18) ∧
    ¬ 1000 * (64 - 20) ≥ 945 * (64 - 17) ∧ (getRg (after (.regionCheck []) throttled) 0).level = 20 := by decide +kernel
/-- PowerRegions: one check of a cool, quiet device, and one beyond the current limit. -/
def quiet : List RegionReading := List.replicate 8 ⟨750, 100, 10000, 8000⟩
theorem test_check : (getRg (after (.regionCheck (quiet.set 0 ⟨750, 501, 10000, 8000⟩)) State.reset) 0).current = 1 ∧
    (getRg (after (.regionCheck quiet) State.reset) 0).current = 0 ∧ rgMeas (after (.regionCheck quiet) State.reset) 3 = 750 := by decide +kernel
theorem test_temp : rgTemp (after (.tempSample (List.replicate 31 0 ++ [200])) State.reset) 7 = 200 ∧
    (after (.tempSample (List.replicate 31 0 ++ [920])) State.reset).sig.tripped = true ∧
    (after (.tempSample (List.replicate 31 0 ++ [919])) State.reset).sig.tripped = false := by decide +kernel
/-- Region 0 at a level its clocks have not followed; a step has been sent and not yet settled. -/
def stepping (level clk now : Nat) : State :=
  setField (rgRegs 0 + 8) 0 12 now (modRg 0 (fun x => { x with level := level, clk := clk, settling := true }) State.reset)
theorem test_voltage_meets : (getRg State.reset 0).settling = false ∧ requestMv (stepping 0 0 700) 0 = 750 ∧ rgReq (stepping 0 0 700) 0 = 700 ∧
    requestMv (stepping 5 5 750) 0 < 750 ∧ requestMv (stepping 0 0 750) 0 = 750 ∧ (getRg (stepping 5 0 700) 0).clk < (getRg (stepping 5 0 700) 0).level := by
  decide +kernel
theorem test_voltage : rgReq (after (.voltageStep 0) (stepping 0 0 700)) 0 = 710 ∧ rgReq (after (.voltageStep 0) (stepping 5 5 750)) 0 = 740 ∧
    (getRg (after (.voltageStep 0) (stepping 0 0 750)) 0).settling = false ∧ (getRg (after (.voltageStep 0) (stepping 5 0 700)) 0).gliding = true ∧
    stays (.voltageStep 0) State.reset = true := by decide +kernel
theorem test_rail : (getRg (after (.railSettleTimeout 0) (stepping 0 0 700)) 0).rail = true ∧
    (getRg (after (.railRetry 0) (modRg 0 (fun x => { x with rail := true }) State.reset)) 0).settling = true ∧
    stays (.railRetry 0) State.reset = true ∧ stays (.railSettleTimeout 0) State.reset = true ∧ (getRg (stepping 0 0 700) 0).rail = false := by decide +kernel
theorem test_glide : (getRg (after (.pllGlideDone 0) (modRg 0 (fun x => { x with level := 5, gliding := true }) State.reset)) 0).clk = 5 ∧
    stays (.pllGlideDone 0) State.reset = true := by decide +kernel

/-- ResetsAndPins. -/
def withSig (f : Signals → Signals) : State := modSig f State.reset
theorem test_pins_meets : State.reset.sig.refBad = false ∧ State.reset.sig.resetLow = false ∧ State.reset.sig.tripped = false ∧
    State.reset.sig.accepted.length = 8 := by decide +kernel
theorem test_reset : (after .resetAssert (poke 0x1000 [7] State.reset)).mem = [] ∧ heldInReset (after .resetAssert State.reset) = true ∧
    (after .resetRelease (withSig (fun g => { g with resetLow := true, accepted := setAt g.accepted 4 true }))).part.harnessId = 1 ∧
    heldInReset (after .resetRelease (withSig (fun g => { g with resetLow := true, refBad := true }))) = true ∧
    stays .resetRelease State.reset = true ∧ stays .railRemoved (withSig (fun g => { g with resetLow := true })) = true := by decide +kernel
theorem test_ref : heldInReset (after .refLoss State.reset) = true ∧ heldInReset (after .refGood (after .refLoss State.reset)) = false ∧
    heldInReset (after .refGood (withSig (fun g => { g with refBad := true, tripped := true }))) = true ∧ stays .refGood State.reset = true := by
  decide +kernel
theorem test_pin : (after (.inputAccept 5 true) State.reset).sig.accepted.getD 5 false = true ∧ stays (.inputAccept 0 false) State.reset = true ∧
    stays (.inputAccept 5 false) State.reset = true ∧ getReg (after (.inputToggle 5) State.reset) (sigRegs + 0x54) = 1 ∧
    (mget PinNote.reset (after (.inputToggle 5) State.reset).sig.notes 5).noted = true ∧
    (mget PinNote.reset State.reset.sig.notes 5).noted = false := by decide +kernel
def pressed : State := withSig (fun g => { g with accepted := setAt g.accepted 1 false })
theorem test_stuck : (after .presenceStuck pressed).sig.stuck = true ∧ presence (after .presenceStuck pressed) = false ∧
    stays .presenceStuck State.reset = true := by decide +kernel
/-- R614: one bit of the sequence is out; SEAL_B follows it, or does not. -/
def sealed (n : Nat) (closed : Bool) : State := withSig (fun g => { g with sealN := some 3, sealBit := true, sealMatches := n, sealClosed := closed })
theorem test_seal : (after .sealCompare (sealed 1 false)).sig.sealClosed = true ∧ (after .sealCompare (sealed 0 false)).sig.sealClosed = false ∧
    (after .sealDrive (sealed 0 false)).sig.sealN = some 4 ∧ stays .sealCompare State.reset = true ∧ stays .sealDrive State.reset = true := by decide +kernel
def broken (s : State) : State := modSig (fun g => { g with accepted := setAt g.accepted 2 false }) s
theorem test_seal_opens : (after .sealCompare (broken (sealed 2 true))).sig.sealClosed = false ∧
    getReg (after .sealCompare (broken (sealed 2 true))) (bootRegs + 0x2C) = 1 ∧ (after .sealCompare (broken (sealed 2 false))).sig.sealMatches = 0 ∧
    (broken (sealed 2 true)).sig.accepted.getD 2 true ≠ (broken (sealed 2 true)).sig.sealBit := by decide +kernel

/-! ### The machine as a whole -/

/-- MemoryWfKept, PartIsFixed, PendingUntouched, StepRunsFrontCommand: a doorbell waits in front of another. -/
def queuedTwo : State := { State.reset with pending := [.resetAssert, .refLoss] }
theorem test_memory_wf : MemoryWf State.reset ∧ MemoryWf queuedTwo := by unfold MemoryWf; decide +kernel
theorem test_step_front : (match step queuedTwo with
    | .next t => decide (t.pending = [.refLoss] ∧ t.sig.resetLow = true)
    | _ => false) = true := by decide +kernel
theorem test_step_idle : (match step State.reset with
    | .next t => decide (t.uptime = 1)
    | _ => false) = true := by decide +kernel
/-- No row of the table gives bits (log entry 1). -/
theorem test_no_words : decodeTableWord 32 0 = none ∧ decodeTableWord 0 0 = none ∧ State.reset.withFetchWord 32 7 = State.reset :=
  ⟨rfl, rfl, rfl⟩
end Sys2Proof.Tests
end

section
/-! SUPPORT. What memory writes, events and error records do to the snoop filter: they only drop entries of it (R497). -/

namespace Sys2Proof.Machine

theorem length_snoop_snoopRecall (w : Bool) (a len : Nat) (s : State) :
    (snoopRecall w a len s).snoop.length ≤ s.snoop.length := List.length_filter_le ..

/-- A fold of steps that each add no entry adds none. -/
theorem length_snoop_foldl_pair {α β : Type} (f : State × β → α → State × β)
    (h : ∀ p x, (f p x).1.snoop.length ≤ p.1.snoop.length) (l : List α) (p : State × β) :
    (l.foldl f p).1.snoop.length ≤ p.1.snoop.length := by
  induction l generalizing p with
  | nil => exact Nat.le_refl _
  | cons x r ih => exact Nat.le_trans (ih _) (h p x)

@[simp] theorem countError_snoop (r : Region) (ue : Bool) (s : State) : (countError r ue s).snoop = s.snoop := by
  unfold countError
  split
  · exact setReg_snoop ..
  · exact setReg_snoop ..
  · rfl

@[simp] theorem flipWord_snoop (s : State) (w : Nat) : (flipWord s w).snoop = s.snoop := by
  unfold flipWord
  refine List.foldlRecOn (motive := fun t : State => t.snoop = s.snoop) _ _ rfl (fun t ht b _ => ?_)
  split
  · exact ht
  · exact ht

@[simp] theorem correctWords_snoop (r : Region) (ws : List Nat) (s : State) : (correctWords r ws s).snoop = s.snoop := by
  unfold correctWords
  split
  · rfl
  · exact countError_snoop ..

@[simp] theorem passWords_snoop (ws : List Nat) (s : State) : (passWords ws s).snoop = s.snoop := by
  unfold passWords
  split
  · rfl
  · exact List.foldlRecOn (motive := fun t : State => t.snoop = s.snoop) ws flipWord rfl
      (fun t ht w _ => (flipWord_snoop t w).trans ht)

@[simp] theorem checkGranule_snoop (r : Region) (g : Nat) (ws : List Nat) (opc : Nat) (s : State) :
    (checkGranule r g ws opc s).1.snoop = s.snoop := by
  unfold checkGranule
  dsimp only
  split
  · simp
  · exact (countError_snoop ..).trans (by simp)

theorem length_snoop_memWrite (a : Nat) (bs : List PByte) (s : State) :
    (memWrite a bs s).1.snoop.length ≤ s.snoop.length := by
  refine Nat.le_trans (length_snoop_foldl_pair _ (fun p g => Nat.le_of_eq (congrArg List.length ?_)) (granules a bs.length)
    (snoopRecall true a bs.length s, [])) (length_snoop_snoopRecall ..)
  dsimp only
  split
  · rfl
  · split
    · exact countError_snoop ..
    · split
      · rfl
      · exact checkGranule_snoop ..

theorem length_snoop_ringIrq (r : Nat) (s : State) : (ringIrq r s).snoop.length ≤ s.snoop.length := by
  unfold ringIrq
  dsimp only
  split <;> exact Nat.le_refl _

theorem length_snoop_ringPut (r n : Nat) (b : List PByte) (s : State) :
    (ringPut r n b s).1.snoop.length ≤ s.snoop.length := by
  unfold ringPut
  dsimp only
  split
  · exact Nat.le_refl _
  · exact length_snoop_memWrite ..

theorem length_snoop_eventRaw (k cl qid : Nat) (info : W32) (s : State) :
    (eventRaw k cl qid info s).1.snoop.length ≤ s.snoop.length := by
  unfold eventRaw
  dsimp only
  split
  · exact length_snoop_ringPut ..
  · exact Nat.le_trans (length_snoop_ringIrq ..) (length_snoop_ringPut ..)

theorem length_snoop_fileReport (r : Report) (s : State) : (fileReport r s).1.snoop.length ≤ s.snoop.length := by
  unfold fileReport
  dsimp only
  split
  · exact length_snoop_eventRaw ..
  · split
    · exact Nat.le_refl _
    · split <;> exact Nat.le_refl _

@[simp] theorem offlineEffect_snoop (u : W32) (s : State) : (offlineEffect u s).snoop = s.snoop := by
  unfold offlineEffect
  dsimp only
  repeat' split
  all_goals rfl

theorem length_snoop_suspectEvent (k : Nat) (was : Bool) (s : State) :
    (suspectEvent k was s).1.snoop.length ≤ s.snoop.length := by
  unfold suspectEvent
  split
  · exact Nat.le_refl _
  · exact length_snoop_eventRaw ..

@[simp] theorem countCandidate_snoop (k : Nat) (s : State) : (countCandidate k s).snoop = s.snoop := by
  unfold countCandidate
  rw [bumpSat_eq, setReg_snoop]
  rfl

theorem length_snoop_refuseCandidate (k : Nat) (s : State) : (refuseCandidate k s).1.snoop.length ≤ s.snoop.length := by
  rw [← countCandidate_snoop k s]
  exact length_snoop_eventRaw ..

theorem length_snoop_offlineCandidate (k : Nat) (old : W16) (s : State) :
    (offlineCandidate k old s).1.snoop.length ≤ s.snoop.length := by
  unfold offlineCandidate
  split
  · exact length_snoop_eventRaw ..
  · split
    · exact length_snoop_refuseCandidate ..
    · exact Nat.le_refl _

theorem length_snoop_offlineHealth (u : W32) (s : State) : (offlineHealth u s).1.snoop.length ≤ s.snoop.length := by
  unfold offlineHealth
  split
  · exact Nat.le_trans (length_snoop_offlineCandidate ..) (length_snoop_suspectEvent ..)
  · exact Nat.le_refl _

theorem length_snoop_goOffline (u : W32) (r : Report) (s : State) : (goOffline u r s).1.snoop.length ≤ s.snoop.length := by
  unfold goOffline
  dsimp only
  rw [offlineEffect_snoop]
  exact Nat.le_trans (length_snoop_offlineHealth ..)
    (Nat.le_trans (length_snoop_eventRaw ..) (length_snoop_fileReport ..))

theorem length_snoop_reportOne (r : Report) (s : State) : (reportOne r s).1.snoop.length ≤ s.snoop.length := by
  unfold reportOne
  cases phaseCounter s r with
  | some a => exact Nat.le_refl _
  | none =>
    extract_lets e win r' e'
    rcases hx : fileReport r' { s with err := e' } with ⟨t, rs⟩
    have h : t.snoop.length ≤ s.snoop.length := by
      have := length_snoop_fileReport r' { s with err := e' }
      rwa [hx] at this
    by_cases hc : (win.isSome && uncorrectable r'.kind && !isOffline t r'.unit) = true
    · exact Nat.le_trans (Nat.le_of_eq (congrArg (fun x : State × List Report => x.1.snoop.length) (if_pos hc)))
        (Nat.le_trans (length_snoop_goOffline ..) h)
    · exact Nat.le_trans (Nat.le_of_eq (congrArg (fun x : State × List Report => x.1.snoop.length) (if_neg hc))) h

theorem length_snoop_reportAll (n : Nat) (rs : List Report) (s : State) : (reportAll n rs s).snoop.length ≤ s.snoop.length := by
  induction n generalizing rs s with
  | zero => exact Nat.le_refl _
  | succ n ih =>
    cases rs with
    | nil => exact Nat.le_refl _
    | cons r rest => exact Nat.le_trans (ih ..) (length_snoop_reportOne ..)

/-- A record can only take entries from the snoop filter: the event it raises recalls the granule it writes (R497). -/
theorem length_snoop_report (r : Report) (s : State) : (report r s).snoop.length ≤ s.snoop.length :=
  length_snoop_reportAll ..

end Sys2Proof.Machine
end

section
/-! SUPPORT. Where registers lie: the list a register's definition comes from, and its offset in it, by the place of its
address. -/

namespace Sys2Proof.Machine

/-- The registers of the block a place lies in. -/
def Place.defs (p : Place) : List RegDef :=
  match p with
  | .queue .. => queueDefs
  | .reduction .. => rlDefs
  | .dose .. => doseDefs
  | .cvu .. => cvuDefs
  | .detector .. => dldDefs
  | .counter .. => [{ off := 0, n := 4096, rw := all32 }]
  | .buffers .. => bpmDefs
  | .engine .. => oeDefs
  | .schedQueue .. => schedQueueDefs
  | .schedPort .. => schedPortDefs
  | .policer .. => policerDefs
  | .wheel .. => wheelDefs
  | .tile .. => tileDefs
  | .memory .. => memDefs
  | .group .. => gsDefs
  | .tables .. => ftDefs
  | .transport .. => tftDefs
  | .harness .. => hsDefs
  | .evtos .. => evtDefs
  | .errors .. => errDefs
  | .record .. => [{ off := 0, n := 65536 }]
  | .health .. => hlDefs
  | .boot .. => bootDefs
  | .signals .. => sigDefs
  | .uptime .. => uptimeDefs
  | .plain => []

/-- The offset of a place into its block. -/
def Place.off (p : Place) : Nat :=
  match p with
  | .queue _ _ o | .reduction _ o | .dose o | .cvu _ _ o | .detector _ o | .buffers _ o | .engine _ o | .schedQueue _ _ o
  | .schedPort _ o | .policer _ _ o | .wheel _ o | .tile _ _ o | .memory _ o | .group _ _ o | .tables _ o | .transport _ o
  | .harness o | .evtos o | .errors o | .health o | .boot o | .signals o | .uptime o => o
  | .counter _ n => 4 * n
  | .record slot word => 64 * slot + 4 * word
  | .plain => 0

/-- The definition is one of the registers of the place's block, at the place's offset; a plain place has no block of its own. -/
def AtPlace (p : Place) (d : RegDef) : Prop := p = .plain ∨ (d ∈ p.defs ∧ ∃ k < d.n, p.off = d.off + d.stride * k)

theorem findReg_spec {ds : List RegDef} {o : Nat} {d : RegDef} (h : findReg ds o = some d) :
    d ∈ ds ∧ ∃ k < d.n, o = d.off + d.stride * k := by
  have hp := List.find?_some h
  simp only [Bool.and_eq_true, decide_eq_true_eq] at hp
  obtain ⟨⟨hle, hmod⟩, hn⟩ := hp
  refine ⟨List.mem_of_find?_eq_some h, _, hn, ?_⟩
  have := Nat.div_add_mod (o - d.off) d.stride
  omega

theorem atPlace_of_findReg {p : Place} {o : Nat} {d : RegDef} (h : findReg p.defs o = some d) (ho : p.off = o) :
    AtPlace p d := by
  subst ho; exact .inr (findReg_spec h)

/-- The map of places (`clusterPlace`) and the map of blocks (`clusterBlock`) agree on every range of a cluster window. -/
theorem atPlace_cluster {cl o : Nat} {b : Block} {d : RegDef} (h4 : o % 4 = 0) (hb : clusterBlock cl o = some b)
    (hd : findReg b.defs (cwBase cl + o - b.base) = some d) : AtPlace (clusterPlace cl o) d := by
  unfold clusterPlace
  repeat' refine iteInduction (motive := fun p => AtPlace p d) (fun _ => ?_) (fun _ => ?_)
  all_goals first
    | exact .inl rfl
    | simp (disch := omega) only [clusterBlock, if_neg, if_pos, ite_self, Option.some.injEq] at hb
      subst hb
      exact atPlace_of_findReg hd (by simp only [Place.off, cwBase]; omega)

theorem atPlace_die {i o : Nat} {b : Block} {d : RegDef} (h4 : o % 4 = 0) (hb : dieBlock i o = some b)
    (hd : findReg b.defs (dieBase i + o - b.base) = some d) : AtPlace (diePlace i o) d := by
  unfold diePlace
  repeat' refine iteInduction (motive := fun p => AtPlace p d) (fun _ => ?_) (fun _ => ?_)
  · exact .inl rfl
  · simp (disch := omega) only [dieBlock, if_neg, if_pos, Option.ite_none_right_eq_some, Option.some.injEq] at hb
    obtain ⟨-, rfl⟩ := hb
    exact atPlace_of_findReg hd (by simp only [Place.off, dieBase]; omega)
  all_goals first
    | exact .inl rfl
    | simp (disch := omega) only [dieBlock, if_neg, if_pos, Option.some.injEq] at hb
      subst hb
      exact atPlace_of_findReg hd (by simp only [Place.off, dieBase]; omega)

/-- The blocks of the device block, by their offsets (R47). -/
theorem device_bases : hsRegs = devBase + 0x18_0000 ∧ evtRegs = devBase + 0x20_0000 ∧ errRegs = devBase + 0x30_0000 ∧
    errWindow = errRegs + 0x4_0000 ∧ hlRegs = devBase + 0x38_0000 ∧ bootRegs = devBase + 0x40_0000 ∧
    sigRegs = devBase + 0x48_0000 := by
  unfold errWindow hsRegs evtRegs errRegs hlRegs bootRegs sigRegs
  refine ⟨rfl, rfl, rfl, rfl, rfl, rfl, rfl⟩

theorem atPlace_device {o : Nat} {b : Block} {d : RegDef} (h4 : o % 4 = 0) (hb : deviceBlock o = some b)
    (hd : findReg b.defs (devBase + o - b.base) = some d) : AtPlace (devicePlace o) d := by
  unfold devicePlace
  repeat' refine iteInduction (motive := fun p => AtPlace p d) (fun _ => ?_) (fun _ => ?_)
  all_goals first
    | exact .inl rfl
    | simp (disch := omega) only [deviceBlock, if_neg, if_pos, Option.some.injEq] at hb
      subst hb
      exact atPlace_of_findReg hd (by have := device_bases; simp only [Place.off]; omega)

/-- A register's definition is listed at the place of its address. -/
theorem atPlace_of_regDef {a : Nat} {d : RegDef} (h4 : a % 4 = 0) (hd : regDef a = some d) : AtPlace (placeOf a) d := by
  unfold regDef at hd
  cases hb : blockOf a with
  | none => rw [hb] at hd; cases hd
  | some b =>
    rw [hb] at hd
    unfold placeOf
    refine iteInduction (motive := fun p => AtPlace p d) (fun hw => ?_) (fun hw => ?_)
    · rw [blockOf, if_pos hw] at hb
      refine atPlace_cluster (by omega) hb ?_
      have e : cwBase ((a - 0xF000_0000_0000) / 0x1000_0000) + (a - 0xF000_0000_0000) % 0x1000_0000 = a := by
        unfold cwBase; omega
      rw [e]
      exact hd
    rw [blockOf, if_neg hw] at hb
    refine iteInduction (motive := fun p => AtPlace p d) (fun hw => ?_) (fun hw => ?_)
    · rw [if_pos hw] at hb
      refine atPlace_die (by omega) hb ?_
      have e : dieBase ((a - 0xF001_0000_0000) / 0x100_0000) + (a - 0xF001_0000_0000) % 0x100_0000 = a := by
        unfold dieBase; omega
      rw [e]
      exact hd
    rw [if_neg hw] at hb
    refine iteInduction (motive := fun p => AtPlace p d) (fun hw => ?_) (fun hw => ?_)
    · rw [if_pos hw] at hb
      refine atPlace_device (by omega) hb ?_
      have e : devBase + (a - 0xF002_0000_0000) = a := by unfold devBase; omega
      rw [e]
      exact hd
    · exact .inl rfl

end Sys2Proof.Machine
end

section
/-! SUPPORT. Read-clear registers (R19): where they lie, what they show, and that the cell behind one is 0 once it has been
read. -/

namespace Sys2Proof.Machine

/-! ### Offsets -/

/-- What holds of the offset of every read-clear register listed for a place holds of its own offset. -/
theorem AtPlace.readClear {p : Place} {d : RegDef} (h : AtPlace p d) (hrc : d.rc = true) (ds : List RegDef) (Q : Nat → Prop)
    (hQ : ∀ e ∈ ds, e.rc = true → ∀ k < e.n, Q (e.off + e.stride * k)) (hp : p ≠ .plain) (hds : p.defs = ds) : Q p.off := by
  obtain rfl | ⟨hm, k, hk, ho⟩ := h
  · exact absurd rfl hp
  · rw [ho]
    exact hQ d (hds ▸ hm) hrc k hk

/-- The offsets of the read-clear registers of a place, where what it shows depends on them. -/
def Place.rcOff (p : Place) : Prop :=
  match p with
  | .queue _ _ o => o = 0x3C
  | .reduction _ o => 0x14 ≤ o
  | .dose o => 4 ≤ o
  | .detector _ o => o = 0x10
  | .buffers _ o => 0x70 ≤ o ∧ o < 0x80 ∨ o = 0x124 ∨ o = 0x128 ∨ o = 0x12C
  | .schedQueue _ _ o => o = 0x1C
  | .wheel _ o => o = 4
  | .tile _ _ o => 8 ≤ o
  | .group _ _ o => 0x38 ≤ o ∧ o < 0x48
  | .transport _ o => o < 0x2C ∨ 0x8000 ≤ o
  | .harness o => 0x20 ≤ o
  | .evtos o => 8 ≤ o ∧ o < 0x20 ∨ 0x28 ≤ o ∧ o < 0x30 ∨ 0x100 ≤ o ∧ (o - 0x100) % 0x20 = 0x18
  | .errors o => 0x100 ≤ o
  | .health o => 0x40 ≤ o ∧ o < 0x60 ∨ o = 0x80
  | .boot o => o = 0x2C
  | .signals o => 0x40 ≤ o
  | .cvu .. | .counter .. | .schedPort .. | .tables .. | .record .. | .uptime .. => False
  | .engine .. | .policer .. | .memory .. | .plain => True

theorem rcOff_of_atPlace {p : Place} {d : RegDef} (h : AtPlace p d) (hrc : d.rc = true) : p.rcOff := by
  cases p with
  | engine | policer | memory | plain => trivial
  | cvu => exact h.readClear hrc cvuDefs (fun _ => False) (by decide) nofun rfl
  | counter => exact h.readClear hrc [{ off := 0, n := 4096, rw := all32 }] (fun _ => False) (by simp) nofun rfl
  | schedPort => exact h.readClear hrc schedPortDefs (fun _ => False) (by decide) nofun rfl
  | tables => exact h.readClear hrc ftDefs (fun _ => False) (by decide) nofun rfl
  | record => exact h.readClear hrc [{ off := 0, n := 65536 }] (fun _ => False) (by simp) nofun rfl
  | uptime => exact h.readClear hrc uptimeDefs (fun _ => False) (by decide) nofun rfl
  | queue => exact h.readClear hrc queueDefs (fun o => o = 0x3C) (by decide) nofun rfl
  | reduction => exact h.readClear hrc rlDefs (fun o => 0x14 ≤ o) (by decide) nofun rfl
  | dose => exact h.readClear hrc doseDefs (fun o => 4 ≤ o) (by decide) nofun rfl
  | detector => exact h.readClear hrc dldDefs (fun o => o = 0x10) (by decide) nofun rfl
  | buffers =>
    exact h.readClear hrc bpmDefs (fun o => 0x70 ≤ o ∧ o < 0x80 ∨ o = 0x124 ∨ o = 0x128 ∨ o = 0x12C) (by decide) nofun rfl
  | schedQueue => exact h.readClear hrc schedQueueDefs (fun o => o = 0x1C) (by decide) nofun rfl
  | wheel => exact h.readClear hrc wheelDefs (fun o => o = 4) (by decide) nofun rfl
  | tile => exact h.readClear hrc tileDefs (fun o => 8 ≤ o) (by decide) nofun rfl
  | group => exact h.readClear hrc gsDefs (fun o => 0x38 ≤ o ∧ o < 0x48) (by decide) nofun rfl
  | transport => exact h.readClear hrc tftDefs (fun o => o < 0x2C ∨ 0x8000 ≤ o) (by decide) nofun rfl
  | harness => exact h.readClear hrc hsDefs (fun o => 0x20 ≤ o) (by decide) nofun rfl
  | evtos =>
    exact h.readClear hrc evtDefs
      (fun o => 8 ≤ o ∧ o < 0x20 ∨ 0x28 ≤ o ∧ o < 0x30 ∨ 0x100 ≤ o ∧ (o - 0x100) % 0x20 = 0x18) (by decide) nofun rfl
  | errors => exact h.readClear hrc errDefs (fun o => 0x100 ≤ o) (by decide) nofun rfl
  | health => exact h.readClear hrc hlDefs (fun o => 0x40 ≤ o ∧ o < 0x60 ∨ o = 0x80) (by decide) nofun rfl
  | boot => exact h.readClear hrc bootDefs (fun o => o = 0x2C) (by decide) nofun rfl
  | signals => exact h.readClear hrc sigDefs (fun o => 0x40 ≤ o) (by decide) nofun rfl


/-! ### What they show -/

/-- The state cell behind a read-clear register. -/
def rcCell (s : State) (a : Nat) : W32 :=
  match placeOf a with
  | .queue cl qid _ => (getQ s cl qid).dbReject
  | .buffers cl off =>
    if off < 0x100 then getReg s a
    else if off = 0x124 then (getOwner s cl (ownSel s cl)).drop
    else if off = 0x128 then (getOwner s cl (ownSel s cl)).ageDrop
    else (getOwner s cl (ownSel s cl)).flushDrop
  | .evtos off => if 0x100 ≤ off then (getRing s ((off - 0x100) / 0x20)).lost else getReg s a
  | _ => getReg s a

/-- What the register counts is there, so that it shows its cell: an engine, an owner of buffers, a port, a group. -/
def rcShown (s : State) (a : Nat) : Bool :=
  match placeOf a with
  | .queue cl qid _ => !absent s cl (engOf qid)
  | .buffers cl off => decide (off < 0x100) || ownerExists s cl (ownSel s cl)
  | .schedQueue l _ _ => isPort s l
  | .policer l _ _ => isPort s l && !harnessRole s l
  | .tile cl p _ => !absent s cl p
  | .group cl gq _ => (getGroup s cl gq).held
  | .transport cl off =>
    decide (off < 0x8000) ||
      (isPort s (128 * cl + (off - 0x8000) / 16) && !harnessRole s (128 * cl + (off - 0x8000) / 16))
  | _ => true

theorem queueReg_dbReject (s : State) (cl qid : Nat) :
    queueReg s cl qid 0x3C = if !absent s cl (engOf qid) then (getQ s cl qid).dbReject else 0 := by
  unfold queueReg
  cases absent s cl (engOf qid) <;> rfl

theorem bufferReg_count (s : State) (cl a : Nat) {off : Nat} (h : 0x70 ≤ off) (k : off < 0x100) :
    bufferReg s cl off a = getReg s a := by
  unfold bufferReg
  simp (disch := omega) only [if_pos, if_neg]

/-- The drop counters of the owner that OWN_SEL names (R425). -/
theorem bufferReg_owner (s : State) (cl a : Nat) :
    let x := getOwner s cl (ownSel s cl)
    let shows := fun off (v : W32) => bufferReg s cl off a = if ownerExists s cl (ownSel s cl) then v else 0
    shows 0x124 x.drop ∧ shows 0x128 x.ageDrop ∧ shows 0x12C x.flushDrop := by
  unfold bufferReg
  dsimp only
  cases ownerExists s cl (ownSel s cl) <;> exact ⟨rfl, rfl, rfl⟩

theorem groupReg_count (s : State) (cl gq a : Nat) {off : Nat} (h : 0x38 ≤ off) (k : off < 0x48) :
    groupReg s cl gq off a = if (getGroup s cl gq).held then getReg s a else 0 := by
  unfold groupReg
  dsimp only
  cases (getGroup s cl gq).held
  · rfl
  · simp only [Bool.not_true, Bool.false_eq_true, if_false, if_true]
    split <;> first | omega | rfl

theorem transportReg_count (s : State) (cl a : Nat) {off : Nat} (h : off < 0x2C ∨ 0x8000 ≤ off) :
    transportReg s cl off a = if decide (off < 0x8000) ||
      (isPort s (128 * cl + (off - 0x8000) / 16) && !harnessRole s (128 * cl + (off - 0x8000) / 16)) then getReg s a else 0 := by
  unfold transportReg
  obtain h | h := h
  · have hoff : off < 0x8000 := by omega
    simp (disch := omega) only [hoff, decide_true, Bool.true_or, if_true, if_pos, if_neg]
  · have hoff : ¬ off < 0x8000 := by omega
    simp only [h, hoff, if_true, decide_false, Bool.false_or]

theorem harnessReg_count (s : State) (a : Nat) {off : Nat} (h : 0x20 ≤ off) : harnessReg s off a = getReg s a := by
  unfold harnessReg
  dsimp only
  split <;> first | omega | rfl

theorem evtosReg_count (s : State) (a : Nat) {off : Nat} (h : 8 ≤ off ∧ off < 0x20 ∨ 0x28 ≤ off ∧ off < 0x30) :
    evtosReg s off a = getReg s a := by
  unfold evtosReg
  rw [if_neg (by omega)]
  split <;> first | omega | rfl

theorem evtosReg_lost (s : State) (a : Nat) {off : Nat} (h : 0x100 ≤ off) (k : (off - 0x100) % 0x20 = 0x18) :
    evtosReg s off a = (getRing s ((off - 0x100) / 0x20)).lost := by
  unfold evtosReg
  rw [if_pos h, show off % 0x20 = 0x18 by omega]
  rfl

theorem errorReg_count (s : State) (a : Nat) {off : Nat} (h : 0x100 ≤ off) : errorReg s off a = getReg s a := by
  unfold errorReg
  dsimp only
  split <;> first | omega | rfl

theorem healthReg_count (s : State) (a : Nat) {off : Nat} (h : 0x40 ≤ off ∧ off < 0x60 ∨ off = 0x80) :
    healthReg s off a = getReg s a := by
  unfold healthReg
  dsimp only
  rw [if_neg (by omega)]
  split <;> first | omega | rfl

/-- What a read-clear register shows (the registers of optical engines, whose lanes move on by reads, aside). -/
theorem regValue_readClear {a : Nat} {d : RegDef} (h4 : a % 4 = 0) (hd : regDef a = some d) (hrc : d.rc = true)
    (hlo : d.lo = false) (hne : ∀ oe off, placeOf a ≠ .engine oe off) (s : State) :
    regValue s a = if rcShown s a then rcCell s a else 0 := by
  have h := rcOff_of_atPlace (atPlace_of_regDef h4 hd) hrc
  unfold regValue rcCell rcShown
  simp only [hd, hlo, Bool.false_eq_true, if_false]
  generalize placeOf a = p at h hne
  cases p with
  | engine oe off => exact absurd rfl (hne oe off)
  | cvu | counter | schedPort | tables | record | uptime => exact h.elim
  | plain | memory => rfl
  | queue cl qid off =>
    obtain rfl : off = 0x3C := h
    exact queueReg_dbReject s cl qid
  | reduction cl off =>
    replace h : 0x14 ≤ off := h
    dsimp only
    split <;> first | omega | rfl
  | dose off => exact if_neg (Nat.ne_of_gt (Nat.lt_of_lt_of_le (by decide) h))
  | detector cl off =>
    obtain rfl : off = 0x10 := h
    rfl
  | buffers cl off =>
    obtain ⟨h1, h2, h3⟩ := bufferReg_owner s cl a
    obtain ⟨h, k⟩ | rfl | rfl | rfl := h
    · have hoff : off < 0x100 := by omega
      simp only [hoff, decide_true, Bool.true_or, if_true]
      exact bufferReg_count s cl a h hoff
    · exact h1
    · exact h2
    · exact h3
  | schedQueue l c off =>
    obtain rfl : off = 0x1C := h
    by_cases hx : isPort s l = true <;> simp [hx]
  | policer l c off =>
    by_cases hx : isPort s l = true <;> by_cases hy : harnessRole s l = true <;> simp [hx, hy]
  | wheel fp off =>
    obtain rfl : off = 4 := h
    rfl
  | tile cl p off =>
    have hoff : off ≠ 0 := Nat.ne_of_gt (Nat.lt_of_lt_of_le (by decide) h)
    simp only [hoff, if_false]
    cases absent s cl p <;> rfl
  | group cl gq off => exact groupReg_count s cl gq a h.1 h.2
  | transport cl off => exact transportReg_count s cl a h
  | harness off => exact harnessReg_count s a h
  | evtos off =>
    obtain h | h | ⟨h, k⟩ := h
    · exact (evtosReg_count s a (.inl h)).trans (if_neg (by omega)).symm
    · exact (evtosReg_count s a (.inr h)).trans (if_neg (by omega)).symm
    · exact (evtosReg_lost s a h k).trans (if_pos h).symm
  | errors off => exact errorReg_count s a h
  | health off => exact healthReg_count s a h
  | boot off =>
    obtain rfl : off = 0x2C := h
    rfl
  | signals off => exact if_neg (Nat.ne_of_gt (Nat.lt_of_lt_of_le (by decide) h))


/-! ### What reading them does -/

theorem getReg_of_regs {s t : State} (h : t.regs = s.regs) (x : Nat) : getReg t x = getReg s x := by
  unfold getReg; rw [h]

theorem getReg_setReg_other {a x : Nat} (v : W32) (s : State) (h : x ≠ a) : getReg (setReg a v s) x = getReg s x := by
  rw [getReg_setReg, if_neg h]

theorem getOwner_setOwner_same (cl o : Nat) (x : Owner) (s : State) : getOwner (setOwner cl o x s) cl o = x :=
  mget_mput_same ..

/-- Of the registers only the one at `a` has changed, and no byte or mark of memory. -/
structure OnlyRegAt (a : Nat) (s t : State) : Prop where
  regs : ∀ x, x ≠ a → getReg t x = getReg s x
  mem : t.mem = s.mem
  poison : t.poison = s.poison

theorem onlyRegAt_clearRead (a : Nat) (s : State) : OnlyRegAt a s (clearRead a s) := by
  have set : OnlyRegAt a s (setReg a 0 s) := ⟨fun x hx => getReg_setReg_other 0 s hx, setReg_mem .., setReg_poison ..⟩
  have same : OnlyRegAt a s s := ⟨fun _ _ => rfl, rfl, rfl⟩
  unfold clearRead
  cases placeOf a with
  | queue cl qid _ => exact ⟨fun x _ => getReg_of_regs (setQ_regs ..) x, setQ_mem .., setQ_poison ..⟩
  | buffers cl off =>
    dsimp only
    split
    · exact set
    · split
      · exact same
      · exact ⟨fun x _ => getReg_of_regs (setOwner_regs ..) x, setOwner_mem .., setOwner_poison ..⟩
  | evtos off =>
    dsimp only
    split
    · exact ⟨fun x _ => getReg_of_regs (setRing_regs ..) x, setRing_mem .., setRing_poison ..⟩
    · exact set
  | group | schedQueue | policer =>
    dsimp only
    split
    · exact set
    · exact same
  | tile =>
    dsimp only
    split
    · exact same
    · exact set
  | _ => exact set

/-- A clearing read leaves the cell behind the register 0, or leaves the state as it was where the register shows none. -/
theorem clearRead_clears {a : Nat} {d : RegDef} (h4 : a % 4 = 0) (hd : regDef a = some d) (hrc : d.rc = true) (s : State) :
    rcCell (clearRead a s) a = 0 ∨ clearRead a s = s ∧ rcShown s a = false := by
  have h := rcOff_of_atPlace (atPlace_of_regDef h4 hd) hrc
  have set : getReg (setReg a 0 s) a = 0 := (getReg_setReg ..).trans (if_pos rfl)
  unfold rcCell clearRead rcShown
  generalize placeOf a = p at h
  cases p with
  | queue cl qid off => exact .inl (congrArg Queue.dbReject (getQ_setQ_same ..))
  | buffers cl off =>
    obtain ⟨h, k⟩ | h := h
    · left
      simp (disch := omega) only [if_pos]
      exact set
    · have hoff : ¬ off < 0x100 := by omega
      simp only [hoff, if_false, decide_false, Bool.false_or]
      cases ownerExists s cl (ownSel s cl)
      · exact .inr ⟨rfl, rfl⟩
      · left
        obtain rfl | rfl | rfl := h
        · exact congrArg Owner.drop (getOwner_setOwner_same ..)
        · exact congrArg Owner.ageDrop (getOwner_setOwner_same ..)
        · exact congrArg Owner.flushDrop (getOwner_setOwner_same ..)
  | evtos off =>
    left
    dsimp only
    split
    · rw [getRing_setRing, if_pos rfl]
    · exact set
  | group cl gq off =>
    dsimp only
    cases (getGroup s cl gq).held
    · exact .inr ⟨rfl, rfl⟩
    · exact .inl set
  | schedQueue l c off =>
    dsimp only
    cases isPort s l
    · exact .inr ⟨rfl, rfl⟩
    · exact .inl set
  | policer l c off =>
    dsimp only
    cases isPort s l && !harnessRole s l
    · exact .inr ⟨rfl, rfl⟩
    · exact .inl set
  | tile cl p off =>
    dsimp only
    cases absent s cl p
    · exact .inl set
    · exact .inr ⟨rfl, rfl⟩
  | _ => exact .inl set

end Sys2Proof.Machine
end

section
/-! Register accesses as their initiators make them (R19, R53, R495, R585): a read or a write of a register, one of nothing, one
that is refused. -/

namespace Sys2Proof.Machine

theorem exec_latchedRead (i : Initiator) (addr : W48) (s : State) :
    exec (.latchedRead i addr) s = .next (readRegister i addr.toNat s) := by rfl

theorem exec_readClear (i : Initiator) (addr : W48) (s : State) :
    exec (.readClear i addr) s = .next (readRegister i addr.toNat s) := by rfl

theorem exec_registerWrite (i : Initiator) (addr : W48) (v : W32) (s : State) :
    exec (.registerWrite i addr v) s = .next (writeRegister i addr.toNat v s) := by rfl

theorem exec_errAckWrite (i : Initiator) (v : W32) (s : State) :
    exec (.errAckWrite i v) s = pl0Write i (errRegs + 4) (ackWrite v) s := by rfl

theorem exec_errHandledWrite (i : Initiator) (v : W32) (s : State) :
    exec (.errHandledWrite i v) s = pl0Write i (errRegs + 0x14) (handledWrite v) s := by rfl

/-! ### Answers -/

@[simp] theorem getReg_answerWith (st : Completion) (b : List Byte) (p : List Bool) (s : State) (x : Nat) :
    getReg (answerWith st b p s) x = getReg s x := by rfl

@[simp] theorem getQ_answerWith (st : Completion) (b : List Byte) (p : List Bool) (s : State) (cl q : Nat) :
    getQ (answerWith st b p s) cl q = getQ s cl q := by rfl

@[simp] theorem rcCell_answerWith (st : Completion) (b : List Byte) (p : List Bool) (s : State) (a : Nat) :
    rcCell (answerWith st b p s) a = rcCell s a := by rfl

@[simp] theorem rcShown_answerWith (st : Completion) (b : List Byte) (p : List Bool) (s : State) (a : Nat) :
    rcShown (answerWith st b p s) a = rcShown s a := by rfl

theorem replied_answerWith (st : Completion) (b : List Byte) (s : State) : Replied (answerWith st b [] s) st b :=
  ⟨rfl, rfl, nofun⟩

/-! ### Refusals (R495) -/

theorem getReg_bumpSat_same (a : Nat) (s : State) : getReg (bumpSat a 1 s) a = satInc 1 (getReg s a) := by
  rw [bumpSat_eq, getReg_setReg, if_pos rfl]; rfl

theorem regsBut_bumpSat (a n : Nat) (s : State) : RegsBut s (bumpSat a n s) a 4 := fun x _ hx => by
  rw [bumpSat_eq, getReg_setReg, if_neg (by omega)]

/-- The counters of the Evtos block are not among those that recording an error counts. -/
theorem not_recordReg_evtos {x : Nat} (h : evtRegs ≤ x) (k : x < errRegs) : ¬ recordReg x := by
  unfold evtRegs errRegs devBase at *
  unfold recordReg errRegs hlRegs memRegs dieBase devBase
  omega

/-- An answer to an access that has been counted. -/
theorem turnedAway_answerWith {s t : State} {st : Completion} (len : Nat) {a : Nat}
    (ha : (if st = .denied then evtRegs + 0x14 else evtRegs + 0x10) = a) (hsnoop : t.snoop.length ≤ s.snoop.length)
    (hcount : getReg t a = satInc 1 (getReg s a)) (hregs : RegsBut s t a 4) :
    TurnedAway s (answerWith st (List.replicate len 0) [] t) st len := by
  subst ha
  exact ⟨replied_answerWith .., hsnoop, hcount, hregs⟩

/-- A companion's access of nothing is turned away as UNMAPPED. -/
theorem turnedAway_unmappedAccess {pl : Fin 4} {s : State} (reason len : Nat) (h : unreachable s (.companion pl) = false) :
    TurnedAway s (unmappedAccess (.companion pl) reason len s) .unmapped len := by
  have hu : unmappedAccess (.companion pl) reason len s =
      answerWith .unmapped (List.replicate len 0) [] (bumpSat (evtRegs + 0x10) 1 s) := by
    unfold unmappedAccess; rw [h]; rfl
  rw [hu]
  refine turnedAway_answerWith len (if_neg (by decide)) (Nat.le_of_eq ?_) (getReg_bumpSat_same ..) (regsBut_bumpSat _ 1 s)
  rw [bumpSat_eq, setReg_snoop]

/-- A refusal counts, and its record changes no other register but error counters. -/
theorem companionDenied_spec (opc a : Nat) (s : State) :
    (companionDenied opc a s).snoop.length ≤ s.snoop.length ∧
    getReg (companionDenied opc a s) (evtRegs + 0x14) = satInc 1 (getReg s (evtRegs + 0x14)) ∧
    RegsBut s (companionDenied opc a s) (evtRegs + 0x14) 4 := by
  have hn : ¬ recordReg (evtRegs + 0x14) := not_recordReg_evtos (by omega) (by unfold errRegs evtRegs; omega)
  unfold companionDenied
  extract_lets t r
  have hsnoop : t.snoop = s.snoop := by unfold t; rw [bumpSat_eq, setReg_snoop]
  have hcount : getReg t (evtRegs + 0x14) = satInc 1 (getReg s (evtRegs + 0x14)) := getReg_bumpSat_same ..
  have hregs : RegsBut s t (evtRegs + 0x14) 4 := regsBut_bumpSat _ 1 s
  clear_value t
  have ht := touches_report (s := t)
  refine ⟨Nat.le_trans (length_snoop_report ..) (Nat.le_of_eq (congrArg List.length hsnoop)), ?_, fun x hx hne => ?_⟩
  · exact ((ht _).regs _ hn).trans hcount
  · exact ((ht _).regs x hx).trans (hregs x hx hne)

/-- A companion's refused access is turned away as DENIED, whatever its record does. -/
theorem turnedAway_refuseReg {pl : Fin 4} {s : State} (opc a len : Nat) (h : unreachable s (.companion pl) = false) :
    TurnedAway s (answerWith .denied (List.replicate len 0) [] (refuseReg opc (.companion pl) a s)) .denied len := by
  have hr : refuseReg opc (.companion pl) a s = companionDenied opc a s := by unfold refuseReg; rw [h]; rfl
  obtain ⟨hsnoop, hcount, hregs⟩ := companionDenied_spec opc a s
  rw [hr]
  exact turnedAway_answerWith len (if_pos rfl) hsnoop hcount hregs

/-! ### Accesses of nothing (R53) -/

theorem replied_unmappedAccess {i : Initiator} {s : State} (reason len : Nat) (h : unreachable s i = false) :
    Replied (unmappedAccess i reason len s) .unmapped (List.replicate len 0) := by
  unfold unmappedAccess
  rw [h]
  exact replied_answerWith ..

theorem keepsMemory_unmappedAccess {i : Initiator} {s : State} (reason len : Nat) (hi : ∀ cl q, i ≠ .engine cl q) :
    KeepsMemory s (unmappedAccess i reason len s) := by
  unfold unmappedAccess
  split
  · exact ⟨fun _ => rfl, rfl⟩
  · cases i with
    | engine cl q => exact absurd rfl (hi cl q)
    | companion pl => exact ⟨fun _ => rfl, rfl⟩
    | _ => exact ⟨fun _ => rfl, rfl⟩

/-- The queue whose instruction made the access halts. -/
theorem halts_unmappedAccess {cl : Fin 8} {q : BitVec 13} {s : State} {reason : Nat} (len : Nat)
    (h : unreachable s (.engine cl q) = false) (hc : (getQ s cl.val q.toNat).cur.isSome = true)
    (hl : (getQ s cl.val q.toNat).halted = false) (h1 : reason ≠ 0x0A) (h2 : reason ≠ 0x0E) :
    let x := getQ (unmappedAccess (.engine cl q) reason len s) cl.val q.toNat
    x.halted = true ∧ x.haltReason = BitVec.ofNat 8 reason := by
  obtain ⟨c, hcur⟩ := Option.isSome_iff_exists.mp hc
  obtain ⟨extra, he⟩ := haltInstr_plain (h := { reason := reason }) hcur hl h1 h2
  have hu : unmappedAccess (.engine cl q) reason len s =
      answerWith .unmapped (List.replicate len 0) [] (haltWith cl.val q.toNat reason c.slot c.rep (false || c.wrote) extra s) := by
    unfold unmappedAccess haltAccess
    rw [h]
    simp only [Bool.false_eq_true, if_false, hc, if_true, he]
  obtain ⟨hh, hr, -⟩ := haltedAs_haltWith (cl := cl.val) (q := q.toNat) (reason := reason) (addr := c.slot) (rep := c.rep)
    (wrote := false || c.wrote) (extra := extra) (s := s)
  rw [hu]
  exact ⟨hh, hr⟩

/-! ### Reads -/

theorem readRegister_unmapped {a : Nat} (i : Initiator) (s : State) (h : regMapped a = false) :
    readRegister i a s = unmappedAccess i (regReason a) 4 s := by
  unfold readRegister; rw [h]; rfl

theorem readRegister_refused {i : Initiator} {a : Nat} {s : State} (hm : regMapped a = true) (ha : regAllowed s i a 0 false = false)
    (hu : unreachable s i = false) :
    readRegister i a s = answerWith .denied (List.replicate 4 0) [] (refuseReg 1 i a s) := by
  unfold readRegister; rw [hm, ha, hu]; rfl

theorem meetReg_sound {s : State} {a : Nat} (h : RegSound s a) : meetReg a s = s := by
  unfold meetReg
  cases hp : placeOf a with
  | counter cl n => exact meetCounter_sound (h.2 cl n hp)
  | queue cl q off => exact if_neg (by rw [h.1 cl q off hp]; exact Bool.false_ne_true)
  | _ => rfl

/-- An allowed read of a register outside the optical engines answers what the register shows, and latches or clears. -/
theorem readRegister_allowed {i : Initiator} {a : Nat} {s : State} {d : RegDef} (hm : regMapped a = true)
    (ha : regAllowed s i a 0 false = true) (hs : RegSound s a) (hne : ∀ oe off, placeOf a ≠ .engine oe off)
    (hd : regDef a = some d) :
    readRegister i a s = answerWith .ok (leBytes 4 (regValue s a).toNat) []
      (if d.lo then latchRead a s else if d.rc then clearRead a s else s) := by
  unfold readRegister regRead
  rw [hm, ha, meetReg_sound hs]
  simp only [hd]
  cases hp : placeOf a with
  | engine oe off => exact absurd hp (hne oe off)
  | _ => rfl

theorem mod_of_regMapped {a : Nat} (h : regMapped a = true) : a % 4 = 0 := by
  unfold regMapped at h
  simp only [Bool.and_eq_true, decide_eq_true_eq] at h
  exact h.1


/-! ### What reads do (R19, R46, R181) -/

/-- A read of the LO half of a count latches the HI half, and changes nothing else. -/
theorem latchedRead_count {i : Initiator} {addr : W48} {s : State} {d : RegDef} (hm : regMapped addr.toNat = true)
    (ha : regAllowed s i addr.toNat 0 false = true) (hs : RegSound s addr.toNat)
    (hne : ∀ oe off, placeOf addr.toNat ≠ .engine oe off) (hd : regDef addr.toNat = some d) (hlo : d.lo = true)
    (hq : ∀ cl q off, placeOf addr.toNat ≠ .queue cl q off) (hup : ∀ off, placeOf addr.toNat ≠ .uptime off) :
    Completes (.latchedRead i addr) s (fun t => Replied t .ok (leBytes 4 (regValue s addr.toNat).toNat) ∧
      getReg t (addr.toNat + 4) = highWord (getCtr s addr.toNat).toNat ∧
      (∀ x, x ≠ addr.toNat + 4 → getReg t x = getReg s x) ∧ t.ctr64 = s.ctr64 ∧
      ∃ r x, t = { s with regs := r, answer := x }) := by
  have hl : latchRead addr.toNat s = setReg (addr.toNat + 4) (highWord (getCtr s addr.toNat).toNat) s := by
    unfold latchRead
    cases hp : placeOf addr.toNat with
    | queue cl q off => exact absurd hp (hq cl q off)
    | uptime off => exact absurd hp (hup off)
    | _ => rfl
  refine ⟨_, exec_latchedRead .., ?_⟩
  rw [readRegister_allowed hm ha hs hne hd, hlo, if_pos rfl, hl]
  refine ⟨replied_answerWith .., ?_, fun x hx => ?_, rfl, _, _, rfl⟩
  · rw [getReg_answerWith, getReg_setReg, if_pos rfl]
  · rw [getReg_answerWith, getReg_setReg_other _ _ hx]

/-- The LO half of a queue's WAIT_COUNT (R72, R181). -/
theorem latchedRead_queue {i : Initiator} {addr : W48} {s : State} {d : RegDef} {cl q off : Nat}
    (hm : regMapped addr.toNat = true) (ha : regAllowed s i addr.toNat 0 false = true) (hs : RegSound s addr.toNat)
    (hd : regDef addr.toNat = some d) (hlo : d.lo = true) (hq : placeOf addr.toNat = .queue cl q off) :
    Completes (.latchedRead i addr) s (fun t => Replied t .ok (leBytes 4 (regValue s addr.toNat).toNat) ∧
      (getQ t cl q).waitCountHi = highWord (getQ s cl q).waitCount.toNat ∧ (getQ t cl q).waitCount = (getQ s cl q).waitCount ∧
      OtherQueues cl q s t ∧ ∃ l x, t = { s with queues := l, answer := x }) := by
  have hl : latchRead addr.toNat s =
      setQ cl q { getQ s cl q with waitCountHi := highWord (getQ s cl q).waitCount.toNat } s := by
    unfold latchRead; rw [hq]; rfl
  refine ⟨_, exec_latchedRead .., ?_⟩
  rw [readRegister_allowed hm ha hs (fun _ _ h => by rw [hq] at h; cases h) hd, hlo, if_pos rfl, hl]
  refine ⟨replied_answerWith .., ?_, ?_, fun c r hk => otherQueues_setQ _ _ _ s c r hk, _, _, rfl⟩
  · rw [getQ_answerWith, getQ_setQ_same]
  · rw [getQ_answerWith, getQ_setQ_same]

/-- A read-clear register reads 0 once it has been read. -/
theorem readClear_clears {i : Initiator} {addr : W48} {s : State} {d : RegDef} (hm : regMapped addr.toNat = true)
    (ha : regAllowed s i addr.toNat 0 false = true) (hs : RegSound s addr.toNat)
    (hne : ∀ oe off, placeOf addr.toNat ≠ .engine oe off) (hd : regDef addr.toNat = some d) (hrc : d.rc = true)
    (hlo : d.lo = false) :
    Completes (.readClear i addr) s (fun t => Replied t .ok (leBytes 4 (regValue s addr.toNat).toNat) ∧
      regValue t addr.toNat = 0 ∧ KeepsMemory s t ∧ ∀ x, x ≠ addr.toNat → getReg t x = getReg s x) := by
  have h4 := mod_of_regMapped hm
  obtain ⟨hregs, hmem, hpoison⟩ := onlyRegAt_clearRead addr.toNat s
  refine ⟨_, exec_readClear .., ?_⟩
  rw [readRegister_allowed hm ha hs hne hd, hlo, hrc, if_neg Bool.false_ne_true, if_pos rfl]
  refine ⟨replied_answerWith .., ?_, ⟨fun x => ?_, hpoison⟩, hregs⟩
  · rw [regValue_readClear h4 hd hrc hlo hne, rcCell_answerWith, rcShown_answerWith]
    obtain hc | ⟨hsame, hshown⟩ := clearRead_clears h4 hd hrc s
    · rw [hc, ite_self]
    · rw [hsame, hshown]; rfl
  · exact congrArg (fun m => mget 0 m x) hmem

theorem regReason_eq (a : Nat) : BitVec.ofNat 8 (regReason a) = if (blockOf a).isNone then 4 else 5 := by
  unfold regReason; split <;> rfl

/-- A read of no register is answered UNMAPPED, changes no memory unless an engine made it, and halts the engine's queue. -/
theorem readRegister_nothing {i : Initiator} {a : Nat} {s : State} (hm : regMapped a = false) (hu : unreachable s i = false) :
    let t := readRegister i a s
    Replied t .unmapped (List.replicate 4 0) ∧ ((∀ cl q, i ≠ .engine cl q) → KeepsMemory s t) ∧
      ∀ cl q, i = .engine cl q → (getQ s cl.val q.toNat).cur.isSome = true → (getQ s cl.val q.toNat).halted = false →
        (getQ t cl.val q.toNat).halted = true ∧
        (getQ t cl.val q.toNat).haltReason = if (blockOf a).isNone then 4 else 5 := by
  have hr : regReason a = 4 ∨ regReason a = 5 := by unfold regReason; split <;> simp only [true_or, or_true]
  rw [readRegister_unmapped i s hm]
  refine ⟨replied_unmappedAccess _ 4 hu, keepsMemory_unmappedAccess _ 4, ?_⟩
  rintro cl q rfl hc hl
  rw [← regReason_eq]
  exact halts_unmappedAccess 4 hu hc hl (by omega) (by omega)

/-! ### What writes do (R19, R501, R526) -/

theorem writeRegister_unmapped {a : Nat} (i : Initiator) (v : W32) (s : State) (h : regMapped a = false) :
    writeRegister i a v s = unmappedAccess i (regReason a) 0 s := by
  unfold writeRegister; rw [h]; rfl

theorem writeRegister_refused {i : Initiator} {a : Nat} {v : W32} {s : State} (hm : regMapped a = true)
    (ha : regAllowed s i a v true = false) (hu : unreachable s i = false) :
    writeRegister i a v s = answerWith .denied [] [] (refuseReg 2 i a s) := by
  unfold writeRegister; rw [hm, ha, hu]; rfl

theorem writeRegister_allowed {i : Initiator} {a : Nat} {v : W32} {s : State} {d : RegDef} (hm : regMapped a = true)
    (ha : regAllowed s i a v true = true) (hs : RegSound s a) (hr : ringIgnores i a = false) (hd : regDef a = some d) :
    writeRegister i a v s = if writerOk i d then regAct i a d v s else s := by
  unfold writeRegister regWrite
  rw [hm, ha, hr, meetReg_sound hs, hd]
  rfl

/-- Bit `k` of what a plain write stores: of the value taken where the bit is RW, else of the old one unless a 1 is written
to a W1C bit. -/
theorem bitOf_plainWrite (a : Nat) (d : RegDef) (v : W32) (s : State) {k : Nat} (hk : k < 32) :
    bitOf (getReg (plainWrite a d v s) a) k =
      if bitOf (BitVec.ofNat 32 d.rw) k = true then bitOf (BitVec.ofNat 32 (d.fix (getReg s a).toNat v.toNat)) k
      else (bitOf (getReg s a) k && !(bitOf v k && bitOf (BitVec.ofNat 32 d.w1c) k)) := by
  unfold plainWrite w32
  rw [getReg_setReg, if_pos rfl]
  simp only [bitOf, BitVec.getLsbD_or, BitVec.getLsbD_and, BitVec.getLsbD_not, hk, decide_true, Bool.true_and]
  by_cases hrw : (BitVec.ofNat 32 d.rw).getLsbD k = true <;> simp [hrw]

theorem registerWrite_plain {i : Initiator} {addr : W48} {v : W32} {s : State} {d : RegDef}
    (hm : regMapped addr.toNat = true) (ha : regAllowed s i addr.toNat v true = true) (hs : RegSound s addr.toNat)
    (hr : ringIgnores i addr.toNat = false) (hd : regDef addr.toNat = some d) (hw : writerOk i d = true)
    (hp : regAct i addr.toNat d v s = plainWrite addr.toNat d v s) :
    exec (.registerWrite i addr v) s = .next (plainWrite addr.toNat d v s) := by
  rw [exec_registerWrite, writeRegister_allowed hm ha hs hr hd, if_pos hw, hp]

/-! ### ACK and ERR_HANDLED (R535, R543) -/

/-- A write that the table allows, to a register that takes writes at PL 0 and from the MC only. -/
theorem pl0Write_allowed {i : Initiator} {a : Nat} {s : State} (f : State → State) (h : mayAccess s i a 4 .write = true) :
    pl0Write i a f s = .next (if isPl0 i then f s else s) := by
  unfold pl0Write; rw [if_pos h]

theorem ackWrite_outside {v : W32} {s : State} (h : s.err.used < (v - s.err.ack).toNat) : ackWrite v s = s :=
  if_neg (Nat.not_le.mpr h)

theorem ackWrite_inside {v : W32} {s : State} (h : (v - s.err.ack).toNat ≤ s.err.used) (hc : s.err.coal = []) :
    ackWrite v s = { s with err := { s.err with ack := v } } := by
  have hdrain : ∀ t : State, t.err.coal = [] → drainCoal 1 t = t := fun t ht => by
    simp only [drainCoal, drainOne, ht]
  have hw : ackWrite v s = drainCoal (s.err.coal.length + 1) { s with err := { s.err with ack := v } } := if_pos h
  rw [hw, hc]
  exact hdrain _ hc

theorem errAckWrite_acts {i : Initiator} {v : W32} {s : State} (hm : mayAccess s i (errRegs + 4) 4 .write = true) :
    exec (.errAckWrite i v) s = .next (if isPl0 i then ackWrite v s else s) := by
  rw [exec_errAckWrite, pl0Write_allowed _ hm]

theorem errHandledWrite_acts {i : Initiator} {v : W32} {s : State} (hm : mayAccess s i (errRegs + 0x14) 4 .write = true) :
    exec (.errHandledWrite i v) s = .next (if isPl0 i then handledWrite v s else s) := by
  rw [exec_errHandledWrite, pl0Write_allowed _ hm]

theorem mem_windows_handledWrite (v : W32) (s : State) (w : W32 × Nat) :
    w ∈ (handledWrite v s).err.windows ↔ w ∈ s.err.windows ∧ ridxOf s.err (some w.2) ≠ some v := by
  unfold handledWrite
  simp only [List.mem_filter, Bool.not_eq_true', decide_eq_false_iff_not, ne_eq]

/-- Settles O54: each kind of access goes through the one equation that `readRegister` or `writeRegister` has for it. -/
theorem registerAccess : Obligations.RegisterAccess := by
  unfold Obligations.RegisterAccess
  refine ⟨fun i addr s => ⟨fun hm hu c hc => ?_, fun hm ha hs hne d hd => ⟨?_, ?_, ?_⟩, ?_⟩,
    fun i addr v s => ⟨fun hm ha hs hr d hd => ⟨fun hw => ?_, fun hw hp => ?_⟩, ?_⟩, fun i v s => ⟨fun hm => ?_, fun hm => ?_⟩⟩
  · obtain ⟨hrep, hkeep, hhalt⟩ := readRegister_nothing hm hu
    simp only [List.mem_cons, List.not_mem_nil, or_false] at hc
    obtain rfl | rfl := hc
    · exact ⟨_, exec_latchedRead .., hrep, hkeep, fun cl q hi hcur hl _ => hhalt cl q hi hcur hl⟩
    · exact ⟨_, exec_readClear .., hrep, hkeep, fun cl q hi hcur hl _ => hhalt cl q hi hcur hl⟩
  · exact fun hlo hq hup => latchedRead_count hm ha hs hne hd hlo hq hup
  · exact fun hlo cl q off hq => latchedRead_queue hm ha hs hd hlo hq
  · exact fun hrc hlo => readClear_clears hm ha hs hne hd hrc hlo
  · rintro hm pl rfl ha hu
    refine ⟨_, exec_readClear .., ?_⟩
    rw [readRegister_refused hm ha hu]
    exact turnedAway_refuseReg _ _ 4 hu
  · rw [exec_registerWrite, writeRegister_allowed hm ha hs hr hd, if_neg (by rw [hw]; exact Bool.false_ne_true)]
  · exact ⟨_, registerWrite_plain hm ha hs hr hd hw hp, ⟨_, rfl⟩, fun x hx => getReg_setReg_other _ _ hx,
      fun k hk => bitOf_plainWrite _ d v s hk⟩
  · rintro pl rfl hu
    refine ⟨fun hm => ⟨_, exec_registerWrite .., ?_⟩, fun hm ha => ⟨_, exec_registerWrite .., ?_⟩⟩
    · rw [writeRegister_unmapped _ v s hm]
      exact turnedAway_unmappedAccess _ 0 hu
    · rw [writeRegister_refused hm ha hu]
      exact turnedAway_refuseReg _ _ 0 hu
  · rw [Completes, errAckWrite_acts hm]
    refine ⟨fun hi => by rw [hi]; rfl, fun hi ho => ?_, fun hi hin hc => ⟨_, rfl, ?_⟩⟩
    · rw [hi, if_pos rfl, ackWrite_outside ho]
    · rw [hi, if_pos rfl, ackWrite_inside hin hc]
  · rw [Completes, errHandledWrite_acts hm]
    refine ⟨fun hi => by rw [hi]; rfl, fun hi => ⟨_, rfl, ?_⟩⟩
    rw [hi, if_pos rfl]
    exact ⟨mem_windows_handledWrite v s, _, rfl⟩

end Sys2Proof.Machine
end

section
/-! What passes with one REF tick (R44, log entry 8): the counts of the engines and of memory, and the clocks. -/

namespace Sys2Proof.Machine

/-- The state without the counts and the detectors' watches that a tick moves on before the clocks. -/
def timeless (s : State) : State := { s with regs := [], ctr64 := [], dld := [], odecc := [] }

theorem timeless_foldl {α : Type} (f : State → α → State) (h : ∀ s x, timeless (f s x) = timeless s) (l : List α) (s : State) :
    timeless (l.foldl f s) = timeless s :=
  List.foldlRecOn (motive := fun t => timeless t = timeless s) l f rfl (fun t ht x _ => (h t x).trans ht)

@[simp] theorem timeless_bumpSat (a n : Nat) (s : State) : timeless (bumpSat a n s) = timeless s := by rfl

@[simp] theorem timeless_countCycles (a n : Nat) (on : Bool) (s : State) : timeless (countCycles a n on s) = timeless s := by
  cases on <;> rfl

@[simp] theorem timeless_clusterTick (n cl : Nat) (s : State) : timeless (clusterTick n cl s) = timeless s := by
  unfold clusterTick
  dsimp only
  rw [timeless_countCycles, timeless_countCycles, timeless_foldl _ (fun _ _ => timeless_countCycles ..),
    timeless_foldl _ (fun _ _ => (timeless_countCycles ..).trans (timeless_countCycles ..)),
    timeless_foldl _ (fun _ _ => timeless_countCycles ..)]

@[simp] theorem timeless_dldTick (n cl : Nat) (s : State) : timeless (dldTick n cl s) = timeless s := by rfl

@[simp] theorem timeless_groupTick (n : Nat → Nat) (k : Nat) (g : Group) (s : State) :
    timeless (groupTick n k g s) = timeless s := by
  unfold groupTick
  extract_lets live
  split
  · exact timeless_bumpSat ..
  · rfl

@[simp] theorem timeless_readOdecc (s : State) : timeless (readOdecc s) = timeless s := by
  unfold readOdecc
  rw [timeless_foldl _ (fun _ _ => timeless_bumpSat ..)]
  rfl

theorem tick_held {s : State} (h : heldInReset s = true) : tick s = s := if_pos h

/-- Out of reset a tick counts, then moves the clocks on; nothing else of the state moves. -/
theorem tick_running {s : State} (h : heldInReset s = false) : ∃ u a f q n, timeless u = timeless s ∧
    tick s = { u with uptime := u.uptime + 1, arithCount := a, fwdCount := f, queues := q, fresh := n } := by
  unfold tick
  rw [h, if_neg Bool.false_ne_true]
  refine ⟨_, _, _, _, _, ?_, rfl⟩
  rw [timeless_foldl _ (fun _ _ => timeless_countCycles ..), timeless_foldl _ (fun _ _ => timeless_groupTick ..),
    timeless_readOdecc, timeless_foldl _ (fun _ _ => timeless_dldTick ..), timeless_foldl _ (fun _ _ => timeless_clusterTick ..)]

theorem step_idle {s : State} (h : s.pending = []) : step s = .next (tick s) := by
  unfold step
  rw [h]

/-- Settles O2: held in reset a tick is nothing; out of reset memory and the queue of commands are not among what it moves. -/
theorem idleStepTicks : Obligations.IdleStepTicks := by
  unfold Obligations.IdleStepTicks
  intro s hp
  refine ⟨tick s, step_idle hp, ?_⟩
  cases hr : heldInReset s with
  | true => rw [tick_held hr]; exact ⟨hp, ⟨fun _ => rfl, rfl⟩, fun _ => rfl, nofun⟩
  | false =>
    obtain ⟨u, a, f, q, n, hu, ht⟩ := tick_running hr
    have hmem : u.mem = s.mem := congrArg (·.mem) hu
    rw [ht]
    exact ⟨(congrArg (·.pending) hu).trans hp, ⟨fun x => congrArg (mget 0 · x) hmem, congrArg (·.poison) hu⟩, nofun,
      fun _ => congrArg (·.uptime + 1) hu⟩

end Sys2Proof.Machine
end

section
/-! SUPPORT. What error records and events keep, beyond what `restOf` and `Touches` say: the failed lanes of a die-to-die bundle
and that it is out of service, the transport contexts where no unit reported is one (R538), and, where the companion holds no
granule, every poison mark: what is written of an event or a record is 16 bytes, never a whole granule (R205). While the host
link is down no interrupt message goes out (R498). -/

namespace Sys2Proof.Machine

variable {s t u : State}

/-! ### Bundles -/

/-- The failed lanes of every bundle are as they were, and a bundle that is out of service stays so. -/
structure KeepsBundles (s t : State) : Prop where
  failed : ∀ k, (getBundle t k).failed = (getBundle s k).failed
  out : ∀ k, (getBundle s k).out = true → (getBundle t k).out = true

theorem keepsBundles_of_same (h : t.bundles = s.bundles) : KeepsBundles s t := by
  have hb : ∀ k, getBundle t k = getBundle s k := fun k => by unfold getBundle; rw [h]
  exact ⟨fun k => by rw [hb], fun k ho => by rw [hb]; exact ho⟩

theorem KeepsBundles.trans (h : KeepsBundles s t) (k : KeepsBundles t u) : KeepsBundles s u :=
  ⟨fun b => (k.failed b).trans (h.failed b), fun b ho => k.out b (h.out b ho)⟩

theorem keepsBundles_out (k : Nat) (s : State) : KeepsBundles s (setBundle k { getBundle s k with out := true } s) := by
  refine ⟨fun j => ?_, fun j hj => ?_⟩
  · rw [getBundle_setBundle]
    split
    · next h => rw [h]
    · rfl
  · rw [getBundle_setBundle]
    split
    · rfl
    · exact hj

/-! ### What recording keeps -/

/-- From `s` to `t` accesses, events and records have taken nothing of what they keep. -/
structure Records (s t : State) : Prop where
  bundles : KeepsBundles s t
  ctxs : t.ctxs = s.ctxs
  width : t.evtWidth = s.evtWidth
  irqs : s.evtWidth = 0 → t.irqs = s.irqs
  snoop : s.snoop = [] → t.snoop = []
  marks : s.snoop = [] → ∀ g, granPoison s g = true → granPoison t g = true

theorem records_of_same (hb : t.bundles = s.bundles) (hc : t.ctxs = s.ctxs) (hw : t.evtWidth = s.evtWidth)
    (hi : t.irqs = s.irqs) (hs : t.snoop = s.snoop) (hp : t.poison = s.poison) : Records s t :=
  ⟨keepsBundles_of_same hb, hc, hw, fun _ => hi, fun h => hs.trans h, fun _ g hg => by unfold granPoison at *; rwa [hp]⟩

theorem Records.rfl : Records s s := records_of_same (Eq.refl _) (Eq.refl _) (Eq.refl _) (Eq.refl _) (Eq.refl _) (Eq.refl _)

theorem Records.trans (h : Records s t) (k : Records t u) : Records s u :=
  ⟨h.bundles.trans k.bundles, k.ctxs.trans h.ctxs, k.width.trans h.width,
   fun hw => (k.irqs (h.width.trans hw)).trans (h.irqs hw), fun hs => k.snoop (h.snoop hs),
   fun hs g hg => k.marks (h.snoop hs) g (h.marks hs g hg)⟩

theorem records_foldl {α : Type} (f : State → α → State) (hf : ∀ s x, Records s (f s x)) (l : List α) (s : State) :
    Records s (l.foldl f s) :=
  List.foldlRecOn (motive := Records s) l f .rfl (fun t ht x _ => ht.trans (hf t x))

theorem records_setReg (a : Nat) (v : W32) (s : State) : Records s (setReg a v s) :=
  records_of_same rfl rfl rfl rfl rfl rfl

theorem records_bumpSat (a n : Nat) (s : State) : Records s (bumpSat a n s) := records_setReg ..

theorem records_setRing (r : Nat) (x : Ring) (s : State) : Records s (setRing r x s) :=
  records_of_same rfl rfl rfl rfl rfl rfl

theorem records_err (e : ErrBlock) (s : State) : Records s { s with err := e } := records_of_same rfl rfl rfl rfl rfl rfl

/-! ### Memory accesses -/

@[simp] theorem majority_markCopies (b : Bool) : majority (markCopies b) = b := by cases b <;> rfl

/-- What a mark reads after one has been written. -/
theorem majority_putMark (p : SMap (BitVec 3)) (g : Nat) (b : Bool) (j : Nat) :
    majority (mget 0 (putMark p g b) j) = if j = g then b else majority (mget 0 p j) := by
  rw [putMark, mget_mput]
  split
  · exact majority_markCopies b
  · rfl

/-- A write to one granule that leaves its mark set if it was. -/
theorem records_mark {g : Nat} {b : Bool} (s : State) (m : Memory) (f : SMap (List Nat)) (h : granPoison s g = true → b = true) :
    Records s { s with mem := m, poison := putMark s.poison g b, flaws := f } := by
  refine ⟨keepsBundles_of_same rfl, rfl, rfl, fun _ => rfl, id, fun _ j hj => ?_⟩
  refine (majority_putMark ..).trans ?_
  split
  · next hg => exact h (hg ▸ hj)
  · exact hj

theorem records_countError (r : Region) (ue : Bool) (s : State) : Records s (countError r ue s) := by
  cases r with
  | bonded | lpddr => exact records_bumpSat ..
  | tile | pktBuf | store | scuStore => exact .rfl

theorem records_flipWord (s : State) (w : Nat) : Records s (flipWord s w) := by
  refine records_foldl _ (fun s b => ?_) _ s
  split
  · exact records_of_same rfl rfl rfl rfl rfl rfl
  · exact .rfl

theorem records_flaws (f : SMap (List Nat)) (s : State) : Records s { s with flaws := f } :=
  records_of_same rfl rfl rfl rfl rfl rfl

theorem records_takeFresh (s : State) : Records s (takeFresh s) := records_of_same rfl rfl rfl rfl rfl rfl

theorem records_correctWords (r : Region) (ws : List Nat) (s : State) : Records s (correctWords r ws s) := by
  unfold correctWords
  split
  · exact .rfl
  · exact (records_countError ..).trans (records_flaws ..)

theorem records_passWords (ws : List Nat) (s : State) : Records s (passWords ws s) := by
  unfold passWords
  split
  · exact .rfl
  · exact ((records_foldl _ records_flipWord ws s).trans (records_flaws ..)).trans (records_takeFresh _)

theorem records_markGranule (r : Region) (g : Nat) (s : State) : Records s (markGranule r g s) := by
  refine ((records_countError r true s).trans ?_).trans (records_takeFresh _)
  rw [← countError_poison r true s]
  exact records_mark (b := true) _ _ _ (fun _ => rfl)

/-- A recall changes memory, marks and error marks, and takes the granules recalled from the filter (R497). -/
theorem snoopRecall_shape (w : Bool) (a len : Nat) (s : State) : ∃ m p f c, (s.snoop = [] → c = [] ∧ p = s.poison) ∧
    snoopRecall w a len s = { s with mem := m, poison := p, flaws := f, snoop := c } := by
  unfold snoopRecall
  extract_lets hit t
  have ht : ∃ m p f, (s.snoop = [] → p = s.poison) ∧ t = { s with mem := m, poison := p, flaws := f } := by
    refine List.foldlRecOn (motive := fun t : State =>
      ∃ m p f, (s.snoop = [] → p = s.poison) ∧ t = { s with mem := m, poison := p, flaws := f }) _ recallOne ?_ ?_
    · exact ⟨_, _, _, fun _ => rfl, rfl⟩
    · rintro _ ⟨m, p, f, -, rfl⟩ e he
      have hne : s.snoop ≠ [] := List.ne_nil_of_mem (List.mem_filter.mp he).1
      unfold recallOne
      dsimp only
      split
      · exact ⟨_, _, _, fun h => absurd h hne, rfl⟩
      · exact ⟨_, _, _, fun h => absurd h hne, rfl⟩
  obtain ⟨m, p, f, hp, ht⟩ := ht
  rw [ht]
  exact ⟨m, p, f, _, fun h => ⟨by rw [h]; rfl, hp h⟩, rfl⟩

theorem records_snoopRecall (w : Bool) (a len : Nat) (s : State) : Records s (snoopRecall w a len s) := by
  obtain ⟨m, p, f, c, hnil, h⟩ := snoopRecall_shape w a len s
  rw [h]
  exact ⟨keepsBundles_of_same rfl, rfl, rfl, fun _ => rfl, fun hs => (hnil hs).1,
    fun hs g hg => by unfold granPoison at *; rwa [(hnil hs).2]⟩

/-! ### Accesses, events and records with what they report -/

/-- The report is of a transport context. -/
def OfContext (r : Report) : Prop := fld r.unit 0 8 = 0x14

/-- The state is one that recording leads to, and no report made on the way is of a transport context. -/
structure Logs (s : State) (p : State × List Report) : Prop where
  records : Records s p.1
  units : ∀ r ∈ p.2, ¬ OfContext r

theorem logs_nil (h : Records s t) : Logs s (t, []) := ⟨h, nofun⟩

theorem fld_unitCl (ty cl i : Nat) : fld (unitCl ty cl i) 0 8 = ty % 256 := by
  simp only [fld, bitsOf, unitCl, BitVec.toNat_ofNat, Nat.shiftRight_zero]
  omega

theorem fld_unitDie (ty d i : Nat) : fld (unitDie ty d i) 0 8 = ty % 256 := by
  simp only [fld, bitsOf, unitDie, BitVec.toNat_ofNat, Nat.shiftRight_zero]
  omega

theorem not_context_region (r : Region) : fld (unitOfRegion r) 0 8 ≠ 0x14 := by
  cases r <;> simp only [unitOfRegion, fld_unitCl, fld_unitDie] <;> decide

theorem logs_checkGranule (r : Region) (g : Nat) (ws : List Nat) (opc : Nat) (s : State) : Logs s (checkGranule r g ws opc s) := by
  have h := (records_correctWords r (wordsWith .corrected (checkCodes r g ws s)) s).trans
    (records_passWords (wordsWith .unseen (checkCodes r g ws s)) _)
  unfold checkGranule
  dsimp only
  split
  · exact logs_nil h
  · refine ⟨h.trans (records_markGranule ..), fun x hx => ?_⟩
    dsimp only at hx
    split at hx
    · cases hx
    · rw [List.mem_singleton.mp hx]
      exact not_context_region r

/-- A write of less than a granule covers no granule whole, so no mark is cleared (R205). -/
theorem logs_memWrite {a : Nat} {bs : List PByte} (hlen : bs.length < 64) (s : State) : Logs s (memWrite a bs s) := by
  refine List.foldlRecOn (motive := Logs s) (granules a bs.length) _ (logs_nil (records_snoopRecall true a bs.length s)) ?_
  intro p hp g _
  dsimp only
  split
  · exact hp
  · next r _ =>
    split
    · exact ⟨hp.records.trans (records_countError ..), hp.units⟩
    · have hpart : decide (Nat.min (a + bs.length) (64 * g + 64) - Nat.max a (64 * g) = 64) = false :=
        decide_eq_false (by
          have h1 : Nat.min (a + bs.length) (64 * g + 64) ≤ a + bs.length := Nat.min_le_left ..
          have h2 : a ≤ Nat.max a (64 * g) := Nat.le_max_left ..
          omega)
      rw [hpart]
      simp only [Bool.false_eq_true, if_false, Bool.not_false, Bool.true_and]
      obtain ⟨hrec, hunits⟩ := logs_checkGranule r g (if granuleCheck r = true then granWords g else
        partWords g (Nat.max a (64 * g)) (Nat.min (a + bs.length) (64 * g + 64) - Nat.max a (64 * g))) 2 p.1
      refine ⟨(hp.records.trans hrec).trans (records_mark _ _ _ (fun hg => by rw [hg, Bool.or_true])), fun x hx => ?_⟩
      exact (List.mem_append.mp hx).elim (hp.units x) (hunits x)

theorem records_ringIrq (r : Nat) (s : State) : Records s (ringIrq r s) := by
  unfold ringIrq
  dsimp only
  split
  · next h => exact ⟨keepsBundles_of_same rfl, rfl, rfl, fun hw => absurd hw h.2, id, fun _ _ => id⟩
  · exact .rfl

theorem logs_ringPut (r n : Nat) {b : List PByte} (hb : b.length < 64) (s : State) : Logs s (ringPut r n b s) := by
  unfold ringPut
  extract_lets g a
  split
  · exact logs_nil (records_setRing ..)
  · obtain ⟨hrec, hunits⟩ := logs_memWrite (a := a) hb s
    exact ⟨hrec.trans (records_setRing ..), hunits⟩

theorem logs_eventRaw (k cl qid : Nat) (info : W32) (s : State) : Logs s (eventRaw k cl qid info s) := by
  unfold eventRaw
  extract_lets v r slot tl
  obtain ⟨hrec, hunits⟩ := logs_ringPut r 16 (b := clean slot) (by simp [clean, slot, leBytes_length]) s
  refine ⟨?_, hunits⟩
  dsimp only
  split
  · exact hrec
  · exact hrec.trans (records_ringIrq ..)

theorem Logs.after {p : State × List Report} (h : Logs t p) (k : Records s t) : Logs s p := ⟨k.trans h.records, h.units⟩

theorem logs_putRecord (r : Report) (co : Bool) (l : Option W32) (s : State) : Logs s (putRecord r co l s) :=
  (logs_eventRaw ..).after (records_err ..)

theorem logs_fileReport (r : Report) (s : State) : Logs s (fileReport r s) := by
  unfold fileReport
  dsimp only
  split
  · exact logs_putRecord ..
  · split
    · exact logs_nil (records_err ..)
    · split <;> exact logs_nil (records_err ..)

/-! ### A unit that goes OFFLINE -/

/-- Units with a score are of TYPE 1, 2, 4 and 5. -/
theorem keyKind_scoredUnit {x : W32} {k : Nat} (h : scoredUnit s x = some k) : keyKind k < 6 := by
  have hcl : fld x 8 3 < 8 := Nat.mod_lt _ (by decide)
  unfold scoredUnit at h
  extract_lets cl i tile at h
  have htile : tile = some k → keyKind k < 6 := by
    intro ht
    obtain ⟨hi, hk⟩ := Option.ite_none_right_eq_some.mp ht
    rw [← Option.some.inj hk]
    unfold keyKind hkey
    omega
  split at h
  · exact htile h
  · exact htile h
  · obtain ⟨hi, hk⟩ := Option.ite_none_right_eq_some.mp h
    rw [← Option.some.inj hk]
    unfold keyKind hkey
    omega
  · rw [← Option.some.inj h]; unfold keyKind hkey; omega
  · rw [← Option.some.inj h]; unfold keyKind hkey; omega
  · cases h

theorem records_setHUnit (k : Nat) (x : HUnit) (s : State) : Records s (setHUnit k x s) :=
  records_of_same rfl rfl rfl rfl rfl rfl

theorem logs_suspectEvent (k : Nat) (was : Bool) (s : State) : Logs s (suspectEvent k was s) := by
  unfold suspectEvent
  split
  · exact logs_nil .rfl
  · exact logs_eventRaw ..

theorem records_setRefused (cl n : Nat) (s : State) : Records s (setRefused cl n s) :=
  records_of_same rfl rfl rfl rfl rfl rfl

theorem records_countCandidate (k : Nat) (s : State) : Records s (countCandidate k s) := by
  unfold countCandidate modHUnit
  exact ((records_setHUnit ..).trans (records_setRefused ..)).trans (records_bumpSat ..)

theorem logs_offlineCandidate (k : Nat) (old : W16) (s : State) : Logs s (offlineCandidate k old s) := by
  unfold offlineCandidate
  split
  · exact logs_eventRaw ..
  · split
    · exact (logs_eventRaw ..).after (records_countCandidate k s)
    · exact logs_nil .rfl

theorem logs_offlineScore {k : Nat} (hk : keyKind k < 6) (s : State) : Logs s (offlineScore k s) := by
  unfold offlineScore
  extract_lets x tests
  obtain ⟨hr1, hu1⟩ := logs_suspectEvent k x.suspect (setHUnit k { x with score := 0xFFFF, suspect := true, replays := [] } s)
  obtain ⟨hr2, hu2⟩ := logs_offlineCandidate k x.score
    (suspectEvent k x.suspect (setHUnit k { x with score := 0xFFFF, suspect := true, replays := [] } s)).1
  refine ⟨((records_setHUnit ..).trans hr1).trans hr2, fun r hr => ?_⟩
  rcases List.mem_append.mp hr with hr | hr
  · rcases List.mem_append.mp hr with hr | hr
    · obtain ⟨d, -, rfl⟩ := List.mem_map.mp hr
      show ¬ fld (unitCl (keyKind k) (keyCl k) (keyIndex k)) 0 8 = 0x14
      rw [fld_unitCl]
      omega
    · exact hu1 r hr
  · exact hu2 r hr

theorem logs_offlineHealth (x : W32) (s : State) : Logs s (offlineHealth x s) := by
  unfold offlineHealth
  split
  · next h => exact logs_offlineScore (keyKind_scoredUnit h) s
  · exact logs_nil .rfl

/-- What a unit that is no transport context loses when it goes OFFLINE (R538). -/
theorem records_offlineEffect {x : W32} (h : fld x 0 8 ≠ 0x14) (s : State) : Records s (offlineEffect x s) := by
  unfold offlineEffect
  extract_lets cl i t
  split
  · have ht : Records s t := by
      unfold t
      split
      · exact .rfl
      · exact records_setHUnit ..
    exact ht.trans (records_of_same rfl rfl rfl rfl rfl rfl)
  · split
    · exact ⟨keepsBundles_out .., rfl, rfl, fun _ => rfl, id, fun _ _ => id⟩
    · split
      · exact records_of_same rfl rfl rfl rfl rfl rfl
      · rw [if_neg (fun hc => h hc.1)]
        exact .rfl

theorem not_context_nestUnder {n : Nat} {rs : List Report} (h : ∀ r ∈ rs, ¬ OfContext r) : ∀ r ∈ nestUnder n rs, ¬ OfContext r := by
  intro r hr
  obtain ⟨x, hx, rfl⟩ := List.mem_map.mp hr
  exact h x hx

theorem logs_goOffline {x : W32} (h : fld x 0 8 ≠ 0x14) (r : Report) (s : State) : Logs s (goOffline x r s) := by
  unfold goOffline
  extract_lets e r0 r1 e' before cl
  have h1 := (logs_fileReport r1 { s with err := e' }).after (records_err e' s)
  generalize fileReport r1 { s with err := e' } = p at h1 ⊢
  obtain ⟨s1, rs1⟩ := p
  obtain ⟨hr1, hu1⟩ := h1
  dsimp -zeta only
  extract_lets direct data
  obtain ⟨hr2, hu2⟩ := logs_eventRaw 6 cl 0 (BitVec.ofNat 32 (1 + data * 256)) s1
  obtain ⟨hr3, hu3⟩ := logs_offlineHealth x (eventRaw 6 cl 0 (BitVec.ofNat 32 (1 + data * 256)) s1).1
  refine ⟨((hr1.trans hr2).trans hr3).trans (records_offlineEffect h _), ?_⟩
  exact not_context_nestUnder (fun y hy => (List.mem_append.mp hy).elim
    (fun hy => (List.mem_append.mp hy).elim (hu1 y) (hu2 y)) (hu3 y))

/-! ### Reports -/

theorem logs_reportOne {r : Report} (h : ¬ OfContext r) (s : State) : Logs s (reportOne r s) := by
  unfold reportOne
  cases phaseCounter s r with
  | some a => exact logs_nil (records_bumpSat ..)
  | none =>
    extract_lets e win r' e'
    have hf := (logs_fileReport r' { s with err := e' }).after (records_err e' s)
    generalize fileReport r' { s with err := e' } = p at hf ⊢
    obtain ⟨s1, rs1⟩ := p
    obtain ⟨hr1, hu1⟩ := hf
    dsimp only
    split
    · obtain ⟨hr2, hu2⟩ := logs_goOffline (x := r'.unit) h r' s1
      exact ⟨hr1.trans hr2, fun y hy => (List.mem_append.mp hy).elim (not_context_nestUnder hu1 y) (hu2 y)⟩
    · exact ⟨hr1, not_context_nestUnder hu1⟩

theorem records_reportAll (n : Nat) {rs : List Report} (h : ∀ r ∈ rs, ¬ OfContext r) (s : State) : Records s (reportAll n rs s) := by
  induction n generalizing rs s with
  | zero => exact .rfl
  | succ n ih =>
    cases rs with
    | nil => exact .rfl
    | cons r rest =>
      obtain ⟨hr, hu⟩ := logs_reportOne (h r List.mem_cons_self) s
      exact hr.trans (ih (fun y hy => (List.mem_append.mp hy).elim (fun hy => h y (List.mem_cons_of_mem _ hy)) (hu y)) _)

theorem records_report {r : Report} (h : fld r.unit 0 8 ≠ 0x14) (s : State) : Records s (report r s) :=
  records_reportAll _ (fun y hy => by rw [List.mem_singleton.mp hy]; exact h) s

theorem records_event (k cl qid : Nat) (info : W32) (s : State) : Records s (event k cl qid info s) := by
  obtain ⟨hr, hu⟩ := logs_eventRaw k cl qid info s
  exact hr.trans (records_reportAll _ hu _)

/-! ### Halts -/

theorem not_context_queue (cl q : Nat) : fld (unitOfQueue cl q) 0 8 ≠ 0x14 := by
  unfold unitOfQueue
  repeat' split
  all_goals rw [fld_unitCl]; decide

theorem records_settleHalted (cl q : Nat) (s : State) : Records s (settleHalted cl q s) := by
  unfold settleHalted
  split
  · exact .rfl
  · split
    · exact .rfl
    · exact records_of_same rfl rfl rfl rfl rfl rfl

theorem records_haltWith {extra : Report → Report} (hx : ∀ r, (extra r).unit = r.unit) (cl q reason : Nat) (addr : W48) (rep : Nat)
    (wrote : Bool) (s : State) : Records s (haltWith cl q reason addr rep wrote extra s) := by
  unfold haltWith
  extract_lets s1 x0 x1 x job s2 r s3 s4
  have h2 : Records s s2 := (records_settleHalted cl q s).trans (records_of_same rfl rfl rfl rfl rfl rfl)
  have h3 : Records s2 s3 := by
    unfold s3
    split
    · exact .rfl
    · exact records_report (by rw [hx]; exact not_context_queue cl q) s2
  have h4 : Records s3 s4 := by
    unfold s4
    split
    · exact records_event ..
    · exact .rfl
  exact ((h2.trans h3).trans h4).trans (records_of_same rfl rfl rfl rfl rfl rfl)

end Sys2Proof.Machine
end

section
/-! Die-to-die bundles and the host link under faults (R31, R465, R492, R498). -/

namespace Sys2Proof.Machine

variable {s t : State}

/-! ### A bundle in service -/

theorem exec_flitUncorrectable {src dst : Fin 4} {b : Fin 48} (c : FlitCargo) (hne : src ≠ dst)
    (h : (getBundle s (bundleKey src.val dst.val b.val)).out = false) :
    exec (.flitUncorrectable src dst b c) s =
      .next (damageCargo src.val dst.val b.val c (linkUe src.val dst.val b.val s)) := by
  show execFlitUncorrectable src dst b c s = _
  unfold execFlitUncorrectable onBundle
  rw [if_neg hne, h, if_neg Bool.false_ne_true]

theorem exec_bundleLaneFail {src dst : Fin 4} {b : Fin 48} (lane : Fin 7) (hne : src ≠ dst)
    (h : (getBundle s (bundleKey src.val dst.val b.val)).out = false) :
    exec (.bundleLaneFail src dst b lane) s = .next
      (let k := bundleKey src.val dst.val b.val
       let x := getBundle s k
       if x.failed.contains lane.val then s
       else
         let s := setBundle k { x with failed := x.failed ++ [lane.val] } s
         if x.failed.isEmpty then s else bundleOut src.val dst.val b.val s) := by
  show execBundleLaneFail src dst b lane s = _
  unfold execBundleLaneFail onBundle
  dsimp only
  rw [if_neg hne, h, if_neg Bool.false_ne_true]

/-! ### The record of an uncorrectable flit -/

theorem not_context_bundle (src dst b : Nat) : fld (bundleUnit src dst b) 0 8 ≠ 0x14 := by
  unfold bundleUnit
  rw [fld_unitDie]
  decide

theorem restOf_linkUe (src dst b : Nat) (s : State) : restOf (linkUe src dst b s) = restOf s :=
  (restOf_report ..).trans (restOf_takeFresh s)

theorem records_linkUe (src dst b : Nat) (s : State) : Records s (linkUe src dst b s) :=
  (records_takeFresh s).trans (records_report (not_context_bundle src dst b) _)

theorem linkUe_arrivals (src dst b : Nat) (s : State) : (linkUe src dst b s).arrivals = s.arrivals :=
  rest_of_eq (·.arrivals) (fun _ => rfl) (restOf_linkUe ..)

theorem linkUe_egq (src dst b : Nat) (s : State) : (linkUe src dst b s).egq = s.egq :=
  rest_of_eq (·.egq) (fun _ => rfl) (restOf_linkUe ..)

theorem ingressOf_linkUe (src dst b : Nat) (s : State) (p : Nat) : ingressOf (linkUe src dst b s) p = ingressOf s p :=
  rest_of_eq (ingressOf · p) (fun _ => rfl) (restOf_linkUe ..)

theorem getQ_linkUe (src dst b : Nat) (s : State) (cl q : Nat) : getQ (linkUe src dst b s) cl q = getQ s cl q :=
  rest_of_eq (getQ · cl q) (fun _ => rfl) (restOf_linkUe ..)

/-! ### A bundle taken out of service -/

/-- Bundles and queues are kept. -/
def KeepsService (s t : State) : Prop := KeepsBundles s t ∧ t.queues = s.queues

theorem KeepsService.trans {u : State} (h : KeepsService s t) (k : KeepsService t u) : KeepsService s u :=
  ⟨h.1.trans k.1, k.2.trans h.2⟩

theorem keepsService_of_same (hb : t.bundles = s.bundles) (hq : t.queues = s.queues) : KeepsService s t :=
  ⟨keepsBundles_of_same hb, hq⟩

theorem keepsService_setReg (a : Nat) (v : W32) (s : State) : KeepsService s (setReg a v s) := keepsService_of_same rfl rfl

theorem keepsService_bumpSat (a n : Nat) (s : State) : KeepsService s (bumpSat a n s) := keepsService_setReg ..

theorem keepsService_report {r : Report} (h : fld r.unit 0 8 ≠ 0x14) (s : State) : KeepsService s (report r s) :=
  ⟨(records_report h s).bundles, report_queues r s⟩

theorem keepsService_bpmReport (cl code o k opc : Nat) (h : KeepsService s t) : KeepsService s (bpmReport cl code o k opc t) := by
  refine h.trans (keepsService_report ?_ t)
  show fld (unitCl 0x0A cl 0) 0 8 ≠ 0x14
  rw [fld_unitCl]
  decide

theorem keepsService_freeBuf (o k : Nat) (s : State) : KeepsService s (freeBuf o k s) := by
  unfold freeBuf withdraw
  dsimp only
  split
  · exact keepsService_bpmReport _ _ _ _ _ (keepsService_of_same rfl rfl)
  · split
    · exact keepsService_bpmReport _ _ _ _ _ (keepsService_bumpSat ..)
    · split
      · exact keepsService_bpmReport _ _ _ _ _ (keepsService_bumpSat ..)
      · exact keepsService_of_same rfl rfl

theorem keepsService_setIngress (p : Nat) (l : List InFrame) (s : State) : KeepsService s (setIngress p l s) :=
  keepsService_of_same rfl rfl

theorem keepsService_abandonDecision (d : Decision) (s : State) : KeepsService s (abandonDecision d s) := by
  unfold abandonDecision
  split
  · exact keepsService_freeBuf ..
  · exact keepsService_of_same rfl rfl

theorem keepsService_foldl {α : Type} (f : State → α → State) (hf : ∀ s x, KeepsService s (f s x)) (l : List α) (s : State) :
    KeepsService s (l.foldl f s) :=
  List.foldlRecOn (motive := KeepsService s) l f (keepsService_of_same rfl rfl) (fun t ht x _ => ht.trans (hf t x))

theorem keepsService_breakFrames (src dst : Nat) (s : State) : KeepsService s (breakFrames src dst s) := by
  refine keepsService_foldl _ (fun s e => ?_) _ s
  dsimp only
  refine iteInduction (fun _ => keepsService_of_same rfl rfl) (fun _ => keepsService_foldl _ (fun s k => ?_) _ s)
  split
  · exact keepsService_of_same rfl rfl
  · refine iteInduction (fun _ => keepsService_of_same rfl rfl) (fun _ => ?_)
    refine iteInduction (fun _ => keepsService_of_same rfl rfl) (fun _ => ?_)
    have hcount : KeepsService s (bumpSat (hsRegs + 0x28) 1 (takeFresh s)) :=
      KeepsService.trans (t := takeFresh s) (keepsService_of_same rfl rfl) (keepsService_bumpSat ..)
    refine KeepsService.trans ?_ (keepsService_setIngress ..)
    exact iteInduction (fun _ => hcount) (fun _ => hcount.trans (keepsService_abandonDecision ..))

/-- Taking a bundle out of service is final, keeps what is known of its lanes, and touches no queue. -/
theorem bundleOut_spec (src dst b : Nat) (s : State) :
    (getBundle (bundleOut src dst b s) (bundleKey src dst b)).out = true ∧
    (getBundle (bundleOut src dst b s) (bundleKey src dst b)).failed = (getBundle s (bundleKey src dst b)).failed ∧
    (bundleOut src dst b s).queues = s.queues := by
  unfold bundleOut
  extract_lets k x u s1 lost
  have h1 : (getBundle s1 k).out = true ∧ (getBundle s1 k).failed = (getBundle s k).failed ∧ s1.queues = s.queues := by
    obtain ⟨hb, hq⟩ := keepsService_breakFrames src dst (setBundle k { x with out := true } s)
    have hk : getBundle (setBundle k { x with out := true } s) k = { x with out := true } := by
      rw [getBundle_setBundle, if_pos rfl]
    exact ⟨hb.out k (by rw [hk]), (hb.failed k).trans (by rw [hk]), hq⟩
  obtain ⟨hout, hfailed, hqueues⟩ := h1
  obtain ⟨hb, hq⟩ := (keepsService_report (r := { newReport s1 u 6 5 with syndrome := BitVec.ofNat 128 lost })
    (not_context_bundle src dst b) s1).trans (t := report { newReport s1 u 6 5 with syndrome := BitVec.ofNat 128 lost } s1)
    (u := closeWindow u (report { newReport s1 u 6 5 with syndrome := BitVec.ofNat 128 lost } s1)) (keepsService_of_same rfl rfl)
  exact ⟨hb.out k hout, (hb.failed k).trans hfailed, hq.trans hqueues⟩

theorem getQ_bundleOut (src dst b : Nat) (s : State) (cl q : Nat) : getQ (bundleOut src dst b s) cl q = getQ s cl q :=
  getQ_of_queues (bundleOut_spec src dst b s).2.2 cl q

/-! ### The halt of the initiator -/

/-- Stopping a job asks its other queues to stop, and touches nothing else (R530). -/
theorem stopJob_spec (job : W16) {cl q : Nat} (hq : q < 0x2000) (reason ser : Nat) (s : State) :
    (stopJob job cl q reason ser s).bundles = s.bundles ∧ getQ (stopJob job cl q reason ser s) cl q = getQ s cl q := by
  unfold stopJob
  split
  · exact ⟨rfl, rfl⟩
  · refine List.foldlRecOn (motive := fun t : State => t.bundles = s.bundles ∧ getQ t cl q = getQ s cl q) _ _ ⟨rfl, rfl⟩ ?_
    rintro t ⟨hb, hg⟩ ⟨c, e⟩ hmem
    have he : e < 26 := by
      simp only [List.mem_flatten, List.mem_map, List.mem_range] at hmem
      obtain ⟨_, ⟨c', -, rfl⟩, h⟩ := hmem
      obtain ⟨e', he', h⟩ := List.mem_map.mp h
      rw [← (Prod.mk.inj h).2]
      exact List.mem_range.mp he'
    dsimp only
    split
    · next hne =>
      have hkey : qkey cl q ≠ qkey c e := by
        unfold qkey
        have : ¬ (c = cl ∧ e = q) := hne.2
        omega
      split
      · exact ⟨hb, hg⟩
      · split
        · exact ⟨hb, hg⟩
        · exact ⟨hb, by rw [getQ_setQ, if_neg hkey]; exact hg⟩
    · exact ⟨hb, hg⟩

/-- A halt with HW_FAULT stops the job of the queue as well. -/
theorem haltQueue_hwFault {cl q : Nat} {h : Halt} (hr : h.reason = 0x0E) (addr : W48) (rep : Nat)
    (hl : (getQ s cl q).halted = false) (hs : (getQ s cl q).stopReq = none) :
    haltQueue cl q h addr rep s =
      stopJob (jobOfQueue s cl q) cl q 0x0E s.err.serial (haltWith cl q 0x0E addr rep h.wrote h.shape s) := by
  unfold haltQueue
  simp [hl, hs, hr]

theorem haltInstr_hwFault {cl q : Nat} (hl : (getQ s cl q).halted = false) (hs : (getQ s cl q).stopReq = none) :
    ∃ h addr rep, haltInstr cl q { reason := 0x0E } s =
      stopJob (jobOfQueue s cl q) cl q 0x0E s.err.serial (haltWith cl q 0x0E addr rep h.wrote (Halt.shape h) s) := by
  unfold haltInstr
  split
  · exact ⟨_, _, _, haltQueue_hwFault rfl 0 0 hl hs⟩
  · next c _ => exact ⟨_, _, _, haltQueue_hwFault rfl c.slot c.rep hl hs⟩

theorem shape_unit (h : Halt) (r : Report) : (h.shape r).unit = r.unit := by rfl

/-- After it the queue is halted, and bundles out of service are so still. -/
theorem halted_of_hwFault {cl q : Nat} (hq : q < 0x2000) (hl : (getQ s cl q).halted = false) (hs : (getQ s cl q).stopReq = none) :
    (getQ (haltInstr cl q { reason := 0x0E } s) cl q).halted = true ∧
    (getQ (haltInstr cl q { reason := 0x0E } s) cl q).haltReason = 0x0E ∧
    KeepsBundles s (haltInstr cl q { reason := 0x0E } s) := by
  obtain ⟨h, addr, rep, heq⟩ := haltInstr_hwFault hl hs
  obtain ⟨hb, hg⟩ := stopJob_spec (jobOfQueue s cl q) (cl := cl) hq 0x0E s.err.serial
    (haltWith cl q 0x0E addr rep h.wrote h.shape s)
  obtain ⟨hhalted, hreason, -⟩ := haltedAs_haltWith (cl := cl) (q := q) (reason := 0x0E) (addr := addr) (rep := rep)
    (wrote := h.wrote) (extra := h.shape) (s := s)
  rw [heq, hg]
  exact ⟨hhalted, hreason, (records_haltWith (shape_unit h) ..).bundles.trans (keepsBundles_of_same hb)⟩

theorem validQid_lt {q : Nat} (h : validQid q = true) : q < 0x2000 := by
  simp only [validQid, Bool.or_eq_true, Bool.and_eq_true, decide_eq_true_eq] at h
  omega

/-! ### Lanes of the host link (R492) -/

/-- All sixteen lanes, one half that has no failed lane, or none. -/
theorem evtTrains_eq (s : State) : evtTrains s =
    if s.evtFailed = [] then 16 else if (∀ l ∈ s.evtFailed, l < 8) ∨ (∀ l ∈ s.evtFailed, 8 ≤ l) then 8 else 0 := by
  unfold evtTrains
  simp only [Bool.or_eq_true, List.all_eq_true, decide_eq_true_eq]

/-! ### The host link goes down (R498) -/

theorem satInc_satInc (m n : Nat) (v : W32) : satInc m (satInc n v) = satInc (n + m) v := by
  unfold satInc all32
  refine BitVec.eq_of_toNat_eq ?_
  simp only [BitVec.toNat_ofNat, Nat.min_def]
  have := v.isLt
  split <;> split <;> split <;> omega

theorem satInc_zero (v : W32) : satInc 0 v = v := by
  unfold satInc all32
  refine BitVec.eq_of_toNat_eq ?_
  simp only [BitVec.toNat_ofNat, Nat.min_def]
  have := v.isLt
  split <;> omega

theorem loseGranule_shared {e : Snoop} (h : e.exclusive = false) (s : State) : loseGranule e s = s := by
  unfold loseGranule
  rw [h, if_neg Bool.false_ne_true]

/-- The two marks of a 128-byte granule, set. -/
def markLost (g : Nat) (s : State) : State := { s with poison := putMark (putMark s.poison (2 * g) true) (2 * g + 1) true }

theorem granPoison_markLost (g : Nat) (s : State) :
    granPoison (markLost g s) (2 * g) = true ∧ granPoison (markLost g s) (2 * g + 1) = true := by
  unfold granPoison markLost
  dsimp only
  constructor
  · rw [majority_putMark, if_neg (by omega), majority_putMark, if_pos rfl]
  · rw [majority_putMark, if_pos rfl]

theorem records_markLost (g : Nat) (s : State) : Records s (markLost g s) :=
  (records_mark s s.mem s.flaws (g := 2 * g) (b := true) (fun _ => rfl)).trans
    (records_mark _ s.mem s.flaws (g := 2 * g + 1) (b := true) (fun _ => rfl))

/-- A granule held Exclusive: its marks, then the count, then the record. -/
theorem loseGranule_exclusive {e : Snoop} (h : e.exclusive = true) (s : State) : ∃ r, fld r.unit 0 8 ≠ 0x14 ∧
    loseGranule e s = report r (bumpSat (evtRegs + 0x18) 1 (markLost e.granule s)) := by
  unfold loseGranule
  rw [h, if_pos rfl]
  refine ⟨_, ?_, rfl⟩
  show fld (unitDie 0x15 0 0) 0 8 ≠ 0x14
  rw [fld_unitDie]
  decide

theorem records_loseGranule (e : Snoop) (s : State) : Records s (loseGranule e s) := by
  cases h : e.exclusive with
  | false => rw [loseGranule_shared h]; exact .rfl
  | true =>
    obtain ⟨r, hr, heq⟩ := loseGranule_exclusive h s
    rw [heq]
    exact ((records_markLost ..).trans (records_bumpSat ..)).trans (records_report hr _)

theorem granPoison_loseGranule {e : Snoop} (h : e.exclusive = true) (hs : s.snoop = []) :
    granPoison (loseGranule e s) (2 * e.granule) = true ∧ granPoison (loseGranule e s) (2 * e.granule + 1) = true := by
  obtain ⟨r, hr, heq⟩ := loseGranule_exclusive h s
  rw [heq]
  have hkeep := ((records_bumpSat (evtRegs + 0x18) 1 (markLost e.granule s)).trans (records_report hr _)).marks hs
  obtain ⟨h0, h1⟩ := granPoison_markLost e.granule s
  exact ⟨hkeep _ h0, hkeep _ h1⟩

theorem getReg_loseGranule (e : Snoop) (s : State) :
    getReg (loseGranule e s) (evtRegs + 0x18) = satInc (boolNat e.exclusive) (getReg s (evtRegs + 0x18)) := by
  cases h : e.exclusive with
  | false => rw [loseGranule_shared h]; exact (satInc_zero _).symm
  | true =>
    obtain ⟨r, -, heq⟩ := loseGranule_exclusive h s
    rw [heq, (touches_report r).regs _ (not_recordReg_evtos (by omega) (by unfold evtRegs errRegs; omega)), getReg_bumpSat_same]
    rfl

theorem granPoison_loseAll {l : List Snoop} (hs : s.snoop = []) {e : Snoop} (he : e ∈ l) (h : e.exclusive = true) :
    granPoison (l.foldl (fun s e => loseGranule e s) s) (2 * e.granule) = true ∧
    granPoison (l.foldl (fun s e => loseGranule e s) s) (2 * e.granule + 1) = true := by
  induction l generalizing s with
  | nil => cases he
  | cons x r ih =>
    have hx : (loseGranule x s).snoop = [] := (records_loseGranule x s).snoop hs
    rcases List.mem_cons.mp he with rfl | he
    · obtain ⟨h0, h1⟩ := granPoison_loseGranule h hs
      have hkeep := (records_foldl _ (fun s e => records_loseGranule e s) r (loseGranule e s)).marks hx
      exact ⟨hkeep _ h0, hkeep _ h1⟩
    · exact ih hx he

theorem getReg_loseAll (l : List Snoop) (s : State) : getReg (l.foldl (fun s e => loseGranule e s) s) (evtRegs + 0x18) =
    satInc (l.filter (fun e => e.exclusive)).length (getReg s (evtRegs + 0x18)) := by
  induction l generalizing s with
  | nil => exact (satInc_zero _).symm
  | cons x r ih =>
    rw [List.foldl_cons, ih, getReg_loseGranule, satInc_satInc]
    cases hx : x.exclusive with
    | false => rw [List.filter_cons_of_neg (by simp [hx])]; exact congrArg (satInc · _) (Nat.zero_add _)
    | true => rw [List.filter_cons_of_pos hx, List.length_cons]; exact congrArg (satInc · _) (Nat.add_comm 1 _)

/-- What goes with the link: its width, the granules held, and of those held Exclusive the data. -/
theorem evtDown_spec (s : State) : (evtDown s).evtWidth = 0 ∧ (evtDown s).snoop = [] ∧
    getReg (evtDown s) (evtRegs + 0x18) = satInc (s.snoop.filter (fun e => e.exclusive)).length (getReg s (evtRegs + 0x18)) ∧
    (∀ e ∈ s.snoop, e.exclusive = true →
      granPoison (evtDown s) (2 * e.granule) = true ∧ granPoison (evtDown s) (2 * e.granule + 1) = true) ∧
    (evtDown s).irqs = s.irqs := by
  have h : Records { s with evtWidth := 0, snoop := [] } (evtDown s) :=
    records_foldl _ (fun s e => records_loseGranule e s) s.snoop _
  exact ⟨h.width, h.snoop rfl, getReg_loseAll .., fun e he hx => granPoison_loseAll rfl he hx, h.irqs rfl⟩

theorem loseGranule_evtFailed (e : Snoop) (s : State) : (loseGranule e s).evtFailed = s.evtFailed := by
  unfold loseGranule
  dsimp only
  split
  · rw [report_evtFailed]; rfl
  · rfl

theorem evtDown_evtFailed (s : State) : (evtDown s).evtFailed = s.evtFailed :=
  List.foldlRecOn (motive := fun t : State => t.evtFailed = s.evtFailed) s.snoop _ rfl
    (fun t ht e _ => (loseGranule_evtFailed e t).trans ht)

/-! ### The host link comes up (R498, R503) -/

/-- Event ring `v` is armed and holds unread records. -/
def unreadArmed (s : State) (v : Nat) : Bool := (getRing s (8 + v)).arm && decide ((getRing s (8 + v)).tail ≠ (getRing s (8 + v)).head)

/-- The message of event ring `v`, as a link that comes up sends it. -/
def sendUnread (s : State) (v : Nat) : State :=
  let g := getRing s (eventRing v)
  if g.tail ≠ g.head then ringIrq (eventRing v) s else s

theorem sendUnread_not_due {v : Nat} (h : unreadArmed s v = false) : sendUnread s v = s := by
  unfold unreadArmed at h
  unfold sendUnread ringIrq eventRing
  dsimp only
  split
  · next ht =>
    rw [decide_eq_true ht, Bool.and_true] at h
    rw [if_neg (fun hc => by rw [h] at hc; exact Bool.false_ne_true hc.1)]
  · rfl

theorem sendUnread_due {v : Nat} (hw : s.evtWidth ≠ 0) (h : unreadArmed s v = true) : sendUnread s v =
    { setRing (8 + v) { getRing s (8 + v) with arm := false } s with irqs := s.irqs ++ [(getRing s (8 + v)).vec] } := by
  obtain ⟨ha, ht⟩ := Bool.and_eq_true_iff.mp h
  unfold sendUnread ringIrq eventRing
  dsimp only
  rw [if_pos (of_decide_eq_true ht), if_pos ⟨ha, hw⟩]

theorem getRing_sendUnread_other {v w : Nat} (hw : s.evtWidth ≠ 0) (h : w ≠ v) :
    getRing (sendUnread s v) (8 + w) = getRing s (8 + w) := by
  cases hd : unreadArmed s v with
  | false => rw [sendUnread_not_due hd]
  | true =>
    rw [sendUnread_due hw hd]
    exact (getRing_setRing ..).trans (if_neg (by omega))

/-- Only rings and messages are touched. -/
theorem sendUnread_shape (s : State) (v : Nat) : ∃ r i, sendUnread s v = { s with rings := r, irqs := i } := by
  unfold sendUnread ringIrq
  dsimp only
  split
  · split
    · exact ⟨_, _, rfl⟩
    · exact ⟨_, _, rfl⟩
  · exact ⟨_, _, rfl⟩

theorem sendUnread_evtWidth (s : State) (v : Nat) : (sendUnread s v).evtWidth = s.evtWidth := by
  obtain ⟨r, i, h⟩ := sendUnread_shape s v
  rw [h]

theorem sendAll_shape (l : List Nat) (s : State) : ∃ r i, l.foldl sendUnread s = { s with rings := r, irqs := i } := by
  refine List.foldlRecOn (motive := fun t : State => ∃ r i, t = { s with rings := r, irqs := i }) l sendUnread ⟨s.rings, s.irqs, rfl⟩ ?_
  rintro _ ⟨r, i, rfl⟩ v _
  obtain ⟨r', i', h⟩ := sendUnread_shape { s with rings := r, irqs := i } v
  exact ⟨r', i', h⟩

theorem getRing_sendAll_other {l : List Nat} {v : Nat} (hw : s.evtWidth ≠ 0) (h : v ∉ l) :
    getRing (l.foldl sendUnread s) (8 + v) = getRing s (8 + v) := by
  induction l generalizing s with
  | nil => rfl
  | cons x r ih =>
    rw [List.foldl_cons, ih (by rwa [sendUnread_evtWidth]) (List.not_mem_of_not_mem_cons h),
      getRing_sendUnread_other hw (List.ne_of_not_mem_cons h)]

/-- Each ring that is due sends its message, once and in order, and is disarmed. -/
theorem sendAll_spec {l : List Nat} (hl : l.Nodup) (hw : s.evtWidth ≠ 0) :
    (l.foldl sendUnread s).irqs = s.irqs ++ (l.filter (unreadArmed s)).map (fun v => (getRing s (8 + v)).vec) ∧
    ∀ v ∈ l.filter (unreadArmed s), (getRing (l.foldl sendUnread s) (8 + v)).arm = false := by
  induction l generalizing s with
  | nil => exact ⟨(List.append_nil _).symm, nofun⟩
  | cons x r ih =>
    obtain ⟨hx, hr⟩ := List.nodup_cons.mp hl
    have hw' : (sendUnread s x).evtWidth ≠ 0 := by rwa [sendUnread_evtWidth]
    have hring : ∀ v ∈ r, getRing (sendUnread s x) (8 + v) = getRing s (8 + v) :=
      fun v hv => getRing_sendUnread_other hw (fun h => hx (h ▸ hv))
    have hdue : r.filter (unreadArmed (sendUnread s x)) = r.filter (unreadArmed s) :=
      List.filter_congr (fun v hv => by unfold unreadArmed; rw [hring v hv])
    have hvec : (r.filter (unreadArmed s)).map (fun v => (getRing (sendUnread s x) (8 + v)).vec) =
        (r.filter (unreadArmed s)).map (fun v => (getRing s (8 + v)).vec) :=
      List.map_congr_left (fun v hv => by rw [hring v (List.mem_filter.mp hv).1])
    obtain ⟨hirqs, harm⟩ := ih hr hw'
    rw [hdue] at hirqs harm
    rw [hvec] at hirqs
    rw [List.foldl_cons]
    cases hd : unreadArmed s x with
    | false =>
      rw [List.filter_cons_of_neg (by rw [hd]; exact Bool.false_ne_true)]
      exact ⟨hirqs.trans (by rw [sendUnread_not_due hd]), harm⟩
    | true =>
      rw [List.filter_cons_of_pos hd]
      refine ⟨hirqs.trans ?_, fun v hv => ?_⟩
      · rw [sendUnread_due hw hd, List.map_cons]
        exact List.append_assoc ..
      · rcases List.mem_cons.mp hv with rfl | hv
        · rw [getRing_sendAll_other hw' hx, sendUnread_due hw hd]
          exact congrArg (·.arm) ((getRing_setRing ..).trans (if_pos rfl))
        · exact harm v hv

theorem evtUp_none (h : evtTrains s = 0) : evtUp s = s := if_pos (.inl h)

theorem evtUp_trains (h : evtTrains s ≠ 0) (hw : s.evtWidth = 0) (hr : heldInReset s = false) :
    evtUp s = (List.range 8).foldl sendUnread { s with evtWidth := evtTrains s } :=
  if_neg (fun hc => hc.elim h (fun hc => hc.elim (fun k => k hw) (fun k => Bool.false_ne_true (hr.symm.trans k))))

end Sys2Proof.Machine
end

section
/-! The clauses of LinksOfDevice, from the laws of bundles and of the host link. -/

namespace Sys2Proof.Machine

variable {s : State}

/-! ### What an uncorrectable flit carried (R465) -/

theorem granPoison_damageMemory {src dst b : Nat} {a : W48} {s : State} (h : (regionOf s a.toNat).isSome = true) :
    granPoison (damageCargo src dst b (.memory a) s) (a.toNat / 64) = true := by
  unfold damageCargo granPoison
  dsimp only
  rw [if_pos h]
  dsimp only
  rw [majority_putMark, if_pos rfl]

theorem damagePayload {src dst b : Nat} {cl : Fin 8} {i : Nat} {m : Arrival} (h : (mget [] s.arrivals cl.val)[i]? = some m) :
    mget [] (damageCargo src dst b (.payload cl i) s).arrivals cl.val =
      (mget [] s.arrivals cl.val).set i { m with damaged := true } ∧
    (damageCargo src dst b (.payload cl i) s).ctxs = s.ctxs := by
  unfold damageCargo
  dsimp only
  rw [h]
  exact ⟨mget_mput_same .., rfl⟩

theorem damageFrame {src dst b : Nat} {lane : Fin 1024} {pre : List InFrame} {f : InFrame} (h : ingressOf s lane.val = pre ++ [f]) :
    ingressOf (damageCargo src dst b (.frame lane) s) lane.val = pre ++ [{ f with damaged := true }] ∧
    (damageCargo src dst b (.frame lane) s).egq = s.egq := by
  unfold damageCargo
  dsimp only
  rw [h, List.getLast?_concat, List.dropLast_concat]
  exact ⟨mget_mput_same .., rfl⟩

theorem damageControl {src dst b : Nat} {cl : Fin 8} {q : BitVec 13} (hq : validQid q.toNat = true)
    (ha : absent (bundleOut src dst b s) cl.val (engOf q.toNat) = false)
    (hl : (getQ s cl.val q.toNat).halted = false) (hs : (getQ s cl.val q.toNat).stopReq = none) :
    (getBundle (damageCargo src dst b (.control cl q) s) (bundleKey src dst b)).out = true ∧
    (getQ (damageCargo src dst b (.control cl q) s) cl.val q.toNat).halted = true ∧
    (getQ (damageCargo src dst b (.control cl q) s) cl.val q.toNat).haltReason = 0x0E := by
  have heq : damageCargo src dst b (.control cl q) s =
      haltInstr cl.val q.toNat { reason := 0x0E } (bundleOut src dst b s) :=
    if_pos ⟨hq, by rw [ha]; exact Bool.false_ne_true⟩
  rw [← getQ_bundleOut src dst b s] at hl hs
  obtain ⟨hhalted, hreason, hkeep⟩ := halted_of_hwFault (validQid_lt hq) hl hs
  rw [heq]
  exact ⟨hkeep.out _ (bundleOut_spec src dst b s).1, hhalted, hreason⟩

/-! ### Failed lanes (R31, R492) -/

theorem bundleLaneFail_spare {src dst : Fin 4} {b : Fin 48} {lane : Fin 7} (hne : src ≠ dst)
    (ho : (getBundle s (bundleKey src.val dst.val b.val)).out = false)
    (hf : (getBundle s (bundleKey src.val dst.val b.val)).failed = []) :
    exec (.bundleLaneFail src dst b lane) s = .next (setBundle (bundleKey src.val dst.val b.val)
      { getBundle s (bundleKey src.val dst.val b.val) with failed := [lane.val] } s) := by
  rw [exec_bundleLaneFail lane hne ho]
  dsimp only
  rw [hf]
  rfl

theorem bundleLaneFail_out {src dst : Fin 4} {b : Fin 48} {lane : Fin 7} (hne : src ≠ dst)
    (ho : (getBundle s (bundleKey src.val dst.val b.val)).out = false)
    (hf : (getBundle s (bundleKey src.val dst.val b.val)).failed ≠ [])
    (hl : (getBundle s (bundleKey src.val dst.val b.val)).failed.contains lane.val = false) :
    Completes (.bundleLaneFail src dst b lane) s (fun t => (getBundle t (bundleKey src.val dst.val b.val)).out = true ∧
      (getBundle t (bundleKey src.val dst.val b.val)).failed =
        (getBundle s (bundleKey src.val dst.val b.val)).failed ++ [lane.val]) := by
  refine ⟨_, exec_bundleLaneFail lane hne ho, ?_⟩
  dsimp only
  rw [hl, if_neg Bool.false_ne_true, if_neg (fun h => hf (List.isEmpty_iff.mp h))]
  obtain ⟨hout, hfailed, -⟩ := bundleOut_spec src.val dst.val b.val (setBundle (bundleKey src.val dst.val b.val)
    { getBundle s (bundleKey src.val dst.val b.val) with
        failed := (getBundle s (bundleKey src.val dst.val b.val)).failed ++ [lane.val] } s)
  exact ⟨hout, hfailed.trans (congrArg (·.failed) ((getBundle_setBundle ..).trans (if_pos rfl)))⟩

/-- The failed lanes of the host link with one more. -/
def failedWith (s : State) (lane : Nat) : List Nat :=
  if s.evtFailed.contains lane then s.evtFailed else s.evtFailed ++ [lane]

theorem failedWith_ne_nil (s : State) (lane : Nat) : failedWith s lane ≠ [] := by
  unfold failedWith
  split
  · next h => exact List.ne_nil_of_mem (List.contains_iff_mem.mp h)
  · exact List.append_ne_nil_of_right_ne_nil _ (List.cons_ne_nil _ _)

/-- A lane that fails: the link goes on with the lanes it can still train, and without any it is down. -/
theorem exec_evtosLaneFail (lane : Fin 16) (h : s.evtWidth ≠ 0) : exec (.evtosLaneFail lane) s = .next
    (let u := { s with evtFailed := failedWith s lane.val }
     if evtTrains u = 0 then evtDown u else { u with evtWidth := evtTrains u }) := by
  have hs : (if s.evtFailed.contains lane.val then s else { s with evtFailed := s.evtFailed ++ [lane.val] }) =
      { s with evtFailed := failedWith s lane.val } := by
    unfold failedWith
    split <;> rfl
  show execEvtosLaneFail lane s = _
  unfold execEvtosLaneFail
  dsimp only
  rw [hs, if_neg h]

theorem evtosLaneFail_spec (lane : Fin 16) (h : s.evtWidth ≠ 0) : Completes (.evtosLaneFail lane) s (fun t =>
    t.evtFailed = failedWith s lane.val ∧
    t.evtWidth = if (∀ l ∈ failedWith s lane.val, l < 8) ∨ (∀ l ∈ failedWith s lane.val, 8 ≤ l) then 8 else 0) := by
  refine ⟨_, exec_evtosLaneFail lane h, ?_⟩
  have htrains := evtTrains_eq { s with evtFailed := failedWith s lane.val }
  dsimp only at htrains ⊢
  rw [if_neg (failedWith_ne_nil s lane.val)] at htrains
  rw [← htrains]
  split
  · next h0 => exact ⟨evtDown_evtFailed _, (evtDown_spec _).1.trans h0.symm⟩
  · exact ⟨rfl, rfl⟩

/-! ### Replays and the link as a whole (R492, R498) -/

theorem exec_evtosFlitReplay (s : State) :
    exec .evtosFlitReplay s = .next (if s.evtWidth = 0 then s else bumpSat (evtRegs + 0xC) 1 s) := by rfl

theorem exec_evtosLinkDown (s : State) : exec .evtosLinkDown s = .next (if s.evtWidth = 0 then s else evtDown s) := by rfl

theorem exec_evtosLinkUp (s : State) : exec .evtosLinkUp s = .next (evtUp s) := by rfl

theorem evtosFlitReplay_spec (h : s.evtWidth ≠ 0) : Completes .evtosFlitReplay s (fun t =>
    getReg t (evtRegs + 0xC) = satInc 1 (getReg s (evtRegs + 0xC)) ∧
    (∀ a, a ≠ evtRegs + 0xC → getReg t a = getReg s a) ∧ ∃ l, t = { s with regs := l }) := by
  refine ⟨_, exec_evtosFlitReplay s, ?_⟩
  rw [if_neg h]
  exact ⟨getReg_bumpSat_same .., fun a ha => (getReg_setReg ..).trans (if_neg ha), _, rfl⟩

theorem evtosLinkUp_spec (ht : evtTrains s ≠ 0) (hw : s.evtWidth = 0) (hr : heldInReset s = false) :
    Completes .evtosLinkUp s (fun t => t.evtWidth = evtTrains s ∧
      t.irqs = s.irqs ++ ((List.range 8).filter (unreadArmed s)).map (fun v => (getRing s (8 + v)).vec) ∧
      (∀ v ∈ (List.range 8).filter (unreadArmed s), (getRing t (8 + v)).arm = false) ∧
      ∃ r i w, t = { s with rings := r, irqs := i, evtWidth := w }) := by
  refine ⟨_, exec_evtosLinkUp s, ?_⟩
  rw [evtUp_trains ht hw hr]
  obtain ⟨hirqs, harm⟩ := sendAll_spec (s := { s with evtWidth := evtTrains s }) (List.nodup_range (n := 8)) ht
  obtain ⟨r, i, hshape⟩ := sendAll_shape (List.range 8) { s with evtWidth := evtTrains s }
  exact ⟨congrArg (·.evtWidth) hshape, hirqs, harm, r, i, _, hshape⟩

/-- Settles O46: the bundles by the cargo of the flit and by the lanes lost before, the host link by its width. -/
theorem linksOfDevice : Obligations.LinksOfDevice := by
  unfold Obligations.LinksOfDevice
  refine ⟨fun src dst b s hne hout => ⟨fun a ha => ?_, fun cl i m hm => ?_, fun lane pre f hf => ?_,
      fun cl q hq ha hl hs => ?_, fun lane => ⟨fun hl => ?_, fun hf => ?_, fun hf hl => ?_⟩⟩,
    fun s => ⟨fun hw => ?_, fun hw => evtosFlitReplay_spec hw, fun lane hw => evtosLaneFail_spec lane hw, fun hw => ?_,
      fun hw hr => ⟨fun ht => ?_, fun ht => ?_⟩⟩⟩
  · exact ⟨_, exec_flitUncorrectable _ hne hout, granPoison_damageMemory ha⟩
  · have hu := linkUe_arrivals src.val dst.val b.val s
    rw [← hu] at hm ⊢
    obtain ⟨hset, hctxs⟩ := damagePayload (src := src.val) (dst := dst.val) (b := b.val) hm
    exact ⟨_, exec_flitUncorrectable _ hne hout, hset, hctxs.trans (records_linkUe ..).ctxs⟩
  · rw [← ingressOf_linkUe src.val dst.val b.val] at hf
    obtain ⟨hset, hegq⟩ := damageFrame (src := src.val) (dst := dst.val) (b := b.val) hf
    exact ⟨_, exec_flitUncorrectable _ hne hout, hset, hegq.trans (linkUe_egq ..)⟩
  · rw [← getQ_linkUe src.val dst.val b.val] at hl hs
    exact ⟨_, exec_flitUncorrectable _ hne hout, damageControl hq ha hl hs⟩
  · exact (exec_bundleLaneFail lane hne hout).trans (congrArg Host.Outcome.next (if_pos hl))
  · exact ⟨_, bundleLaneFail_spare hne hout hf, (getBundle_setBundle ..).trans (if_pos rfl), _, rfl⟩
  · exact bundleLaneFail_out hne hout hf hl
  · rw [exec_evtosFlitReplay, exec_evtosLinkDown, if_pos hw, if_pos hw]
    exact ⟨rfl, rfl⟩
  · exact ⟨_, (exec_evtosLinkDown s).trans (congrArg Host.Outcome.next (if_neg hw)), evtDown_spec s⟩
  · exact (exec_evtosLinkUp s).trans (congrArg Host.Outcome.next (evtUp_none ((evtTrains_eq s).trans ht)))
  · have hspec := evtosLinkUp_spec (s := s) (fun h => ht ((evtTrains_eq s).symm.trans h)) hw hr
    rw [evtTrains_eq] at hspec
    exact hspec

end Sys2Proof.Machine
end
